-- ==== Sys2Proof/Word.lean ====
section
/-!
DEFINITION. Word types of the ZX8: 32-bit words, 64-bit scalars and masks, and a vector register as one 32-bit slot
per lane (R5, R6, R12, R15).
-/

namespace Sys2Proof

/-- A 32-bit word: an instruction word or one lane of a vector register (R27, R199). -/
abbrev Word := BitVec 32

/-- A 64-bit value: a scalar register, a lane mask, a special register (R203, R206, R207). -/
abbrev DWord := BitVec 64

/-- One byte of memory. -/
abbrev Byte := BitVec 8

/-- The sheaf width W of the ZX8 (R1, R15). -/
abbrev laneCount : Nat := 64

/-- One vector register: one 32-bit slot per lane (R12). -/
abbrev Row := Vector Word 64

/-- One 64-bit value per lane: a register pair (R5). -/
abbrev Row64 := Vector DWord 64

end Sys2Proof
end

