-- ==== Sys2Proof/Syntax.lean ====
section
/-!
DEFINITION. The syntax of Mitex: one constructor per row of spec/opcode_table.json (R47). Fields keep the widths of
the encoding (R40, R42-R45); operand codes are read by Sys2Proof/Machine/Operands.lean. The rows without a word are
the part's other steps (95_what_each_step_holds.md); they carry what the step names.
-/

namespace Sys2Proof

/-- A 7-bit vector operand code (R35). -/
abbrev VCode := BitVec 7
/-- A 6-bit scalar register field (R39). -/
abbrev SCode := BitVec 6
/-- A 3-bit predicate field (R39). -/
abbrev KCode := BitVec 3

/-- A device address with the location it was translated to when its access issued (R75). -/
structure Located where
  va  : DWord
  key : Nat
  deriving DecidableEq, Repr

/-- EXT payload of a plain load or store (R42). -/
structure MemExt where
  ofs   : BitVec 16
  ord   : BitVec 2
  scope : BitVec 3
  hint  : BitVec 2
  deriving DecidableEq, Repr

/-- EXT payload of an atomic (R43). -/
structure AtomExt where
  op    : BitVec 4
  ret   : Bool
  ra    : Bool
  ord   : BitVec 2
  scope : BitVec 3
  ofs   : BitVec 12
  deriving DecidableEq, Repr

/-- The error the scrubber finds in a line (R88-R90): one the code corrects, with its syndrome, or one it cannot. -/
inductive LineError where
  | clean | corrected (syndrome : Nat) | uncorrectable
  deriving DecidableEq, Repr

/-- What a peer asks of this module (R66, PEER_REQUEST). -/
inductive PeerOp where
  | load (bytes : Nat)
  | store (data : List Byte)
  | atomic (op : BitVec 4) (operand : BitVec 128)
  deriving DecidableEq, Repr

/-- A register outside the instruction stream that REGISTER_WRITE writes under its access code (R7). `fn` is the
virtual function, `p` the partition. -/
inductive PlatformReg where
  | nqcfg (p : Nat) | nqhead (p : Nat) | nqtail (p : Nat) | nqdrop (p : Nat) | cthr (p : Nat)
  | vfpart (fn : Nat) | vfres (fn : Nat) | lqhead (fn q : Nat)
  | pcsel (fn n : Nat) | smpcfg (fn : Nat) | smpdrop (fn : Nat)
  | trwatch (fn j : Nat) | trring (fn : Nat) | trstart (fn : Nat) | trstop (fn : Nat)
  /-- The driver's release of an ended context's frames, a request to the monitor that stands with its writes (R86, R510). -/
  | frames (tag : BitVec 12)
  deriving DecidableEq, Repr

/-- A firmware image as Proenapin sees it (R477-R480): its version, security version, its digest as a number, and
whether its RSA-4096 signature over that digest verifies. -/
structure FwImage where
  version : Nat
  secVersion : Nat
  digest : Nat
  signatureOk : Bool
  deriving DecidableEq, Repr

/-- A scheduler-policy image (R478, R488): times in ns, and the image as Proenapin sees it (R480). -/
structure Policy where
  version : Nat
  slice : Nat
  deadline : Nat
  maxPrio : Nat
  cthr : BitVec 32
  collective : Nat
  image : FwImage
  deriving DecidableEq, Repr

/-- Mitex instructions and the part's other steps, one constructor per row of the opcode table. -/
inductive Instr where
  -- integer arithmetic (R248)
  | iadd (d a b : VCode) | isub (d a b : VCode) | imul (d a b : VCode) | imulhi (d a b : VCode)
  | imad (d a b : VCode) | imin (d a b : VCode) | imax (d a b : VCode) | iabsd (d a b : VCode)
  | nmin (d a b : VCode) | nmax (d a b : VCode) | nmulhi (d a b : VCode) | iadds (d a b : VCode)
  -- logic and shifts (R250)
  | and (d a b : VCode) | or (d a b : VCode) | xor (d a b : VCode) | andn (d a b : VCode)
  | shl (d a b : VCode) | shr (d a b : VCode) | sar (d a b : VCode) | rotl (d a b : VCode)
  -- immediates (R252)
  | iaddi (d a : VCode) (imm : BitVec 7) | imuli (d a : VCode) (imm : BitVec 7)
  | andi (d a : VCode) (imm : BitVec 7) | ori (d a : VCode) (imm : BitVec 7)
  | shli (d a : VCode) (imm : BitVec 7) | shri (d a : VCode) (imm : BitVec 7)
  | sari (d a : VCode) (imm : BitVec 7) | xori (d a : VCode) (imm : BitVec 7)
  -- bit counts and fields (R254, R256)
  | popc (d a : VCode) | clz (d a : VCode) | brev (d a : VCode) | bfx (d a b : VCode)
  | bfi (d a b : VCode) | sel (d a b : VCode) | idp4 (d a b : VCode) | ndp4 (d a b : VCode)
  -- FP32 (R258, R264, R266, R268, R270)
  | fadd (d a b : VCode) | fsub (d a b : VCode) | fmul (d a b : VCode) | fma (d a b : VCode)
  | fms (d a b : VCode) | fmin (d a b : VCode) | fmax (d a b : VCode) | fcps (d a b : VCode)
  | fabs (d a : VCode) | fneg (d a : VCode) | frnd (d a : VCode) | fcls (d a : VCode)
  -- FP64 (R260, R264, R266, R268)
  | dadd (d a b : VCode) | dsub (d a b : VCode) | dmul (d a b : VCode) | dfma (d a b : VCode)
  | dmin (d a b : VCode) | dmax (d a b : VCode) | drnd (d a : VCode) | dneg (d a : VCode)
  -- packed 16-bit (R262, R264)
  | hadd2 (d a b : VCode) | hmul2 (d a b : VCode) | hfma2 (d a b : VCode) | hmax2 (d a b : VCode)
  | badd2 (d a b : VCode) | bmul2 (d a b : VCode) | bfma2 (d a b : VCode) | bmax2 (d a b : VCode)
  -- compares (R272)
  | icmp (conj : Bool) (cond : BitVec 3) (kd : KCode) (a b : VCode)
  | ncmp (conj : Bool) (cond : BitVec 3) (kd : KCode) (a b : VCode)
  | fcmp (conj : Bool) (cond : BitVec 3) (kd : KCode) (a b : VCode)
  | dcmp (conj : Bool) (cond : BitVec 3) (kd : KCode) (a b : VCode)
  -- conversions and packing (R304, R307)
  | cvt (d a : VCode) (src dst : BitVec 3) | cvtx (d a : VCode) (src dst : BitVec 3) (rm : BitVec 2)
  | pk2 (d a b : VCode) | hi16 (d a : VCode)
  -- residues (R309, R312)
  | radd (d a b : VCode) | rsub (d a b : VCode) | rfrom (d a : VCode) | rfix (d a : VCode)
  | rscl (d a b : VCode) | readd (d a b : VCode) | refrom (d a : VCode) | refix (d a : VCode)
  -- special functions (R314)
  | rcp (d a : VCode) | rsq (d a : VCode) | sqrt (d a : VCode) | exp2 (d a : VCode)
  | log2 (d a : VCode) | sin (d a : VCode) | cos (d a : VCode) | tanh (d a : VCode)
  -- shuffles (R320)
  | shfl (d a b : VCode) | shflx (d a b : VCode) | shflr (d a b : VCode) | bcst (d a b : VCode)
  | shflf (d a b : VCode) | shflxf (d a b : VCode) | shflrf (d a b : VCode) | bcstf (d a b : VCode)
  -- reductions and matching (R322, R324)
  | redlog (d a : VCode) (op : BitVec 4) | scanlog (d a : VCode) (excl : Bool) (op : BitVec 4)
  | matchv (d a : VCode) | mrank (d a : VCode)
  -- masks (R210, R212, R214, R216)
  | kand (kd ka kb : KCode) | kor (kd ka kb : KCode) | kxor (kd ka kb : KCode) | kandn (kd ka kb : KCode)
  | knot (kd ka : KCode) | kmov (kd ka : KCode) | kset (kd : KCode) | kclr (kd : KCode)
  | emset (ka : KCode) | emand (ka : KCode) | emget (kd : KCode) | vote (kd : KCode) (a : VCode)
  | ktos (sd : SCode) (k : KCode) | stok (sa : SCode) (k : KCode) | kpop (sd : SCode) (k : KCode)
  | emtos (sd : SCode) | stoem (sa : SCode)
  -- vector immediates and moves (R218, R220, R222, R459)
  | vli (d : VCode) (imm : BitVec 16) | vlih (d : VCode) (imm : BitVec 16)
  | vtos (sd : SCode) (a : VCode) (lane : BitVec 10) | stov (d : VCode) (sa : SCode) | tfix (a : VCode)
  -- scalar arithmetic (R224, R226, R227, R229)
  | sadd (d a b : SCode) | ssub (d a b : SCode) | smul (d a b : SCode) | smulhi (d a b : SCode)
  | sand (d a b : SCode) | sor (d a b : SCode) | sxor (d a b : SCode) | sshl (d a b : SCode)
  | sshr (d a b : SCode) | ssar (d a b : SCode) | smin (d a b : SCode) | smax (d a b : SCode)
  | sminn (d a b : SCode) | smaxn (d a b : SCode) | seq (d a b : SCode) | sne (d a b : SCode)
  | slt (d a b : SCode) | sltn (d a b : SCode) | sle (d a b : SCode) | slen (d a b : SCode)
  | smov (d a : SCode) | ssel (d a b : SCode)
  | sli (d : SCode) (imm : BitVec 17) | slis (d : SCode) (imm : BitVec 17)
  | saddi (d a : SCode) (imm : BitVec 11)
  | sshli (d a : SCode) (imm : BitVec 9) | sshri (d a : SCode) (imm : BitVec 9)
  | ssari (d a : SCode) (imm : BitVec 9) | sandi (d a : SCode) (imm : BitVec 9)
  | srd (spec : BitVec 6) (s : SCode) | swr (spec : BitVec 6) (s : SCode)
  -- control (R357-R364, R174, R438, R457-R461)
  | bra (ofs : BitVec 23) | call (ofs : BitVec 23)
  | bnz (sa : SCode) (ofs : BitVec 17) | bz (sa : SCode) (ofs : BitVec 17)
  | bany (k : KCode) (ofs : BitVec 18) | ball (k : KCode) (ofs : BitVec 18) | bnone (k : KCode) (ofs : BitVec 18)
  | bemz (ofs : BitVec 18) | loop (sa : SCode) (ofs : BitVec 17) | callx (a : VCode)
  | nop | ret | exit | trap (n : BitVec 16) | rett | bkpt (n : BitVec 16)
  | sleep (sa : SCode) | sleepb (sa : SCode) (ev : Bool) | waitb (sa : SCode) (ev : Bool) | yield
  | mode (hi : Bool) (mask val : BitVec 8) | safept (n : BitVec 8) | xfer (ver : BitVec 3) | xferClr
  | xferq (sd : SCode) | halt
  | rep (cnt : BitVec 6) (stepD stepA stepB : Bool) (stride : BitVec 2)
  -- memory (R140, R143, R127, R128, R146)
  | ldk (la : BitVec 4) (w : BitVec 3) (d a : VCode) (ext : Option MemExt)
  | stk (la : BitVec 4) (w : BitVec 3) (d a : VCode) (ext : Option MemExt)
  | lds (la : BitVec 4) (w : BitVec 3) (d a : VCode) (ext : Option MemExt)
  | ldsDesc (la : BitVec 4) (d a : VCode) (ext : Option MemExt)
  | sts (la : BitVec 4) (w : BitVec 3) (d a : VCode) (ext : Option MemExt)
  | stsDesc (la : BitVec 4) (d a : VCode) (ext : Option MemExt)
  | ats (la : BitVec 4) (d a : VCode) (ext : AtomExt)
  | ldc (la : BitVec 4) (w : BitVec 3) (d a : VCode) (ext : Option MemExt)
  | ldcStep (la : BitVec 4) (w : BitVec 3) (d a : VCode) (tb : BitVec 5) (sel : BitVec 2)
  | stc (la : BitVec 4) (w : BitVec 3) (d a : VCode) (ext : Option MemExt)
  | atc (la : BitVec 4) (d a : VCode) (ext : AtomExt)
  | ldg (la : BitVec 4) (w : BitVec 3) (d a : VCode) (ext : Option MemExt)
  | ldgDesc (la : BitVec 4) (d a : VCode) (ext : Option MemExt)
  | stg (la : BitVec 4) (w : BitVec 3) (d a : VCode) (ext : Option MemExt)
  | stgDesc (la : BitVec 4) (d a : VCode) (ext : Option MemExt)
  | atg (la : BitVec 4) (d a : VCode) (ext : AtomExt)
  | ldn (la : BitVec 4) (w : BitVec 3) (d a : VCode) (m : Bool) (ext : Option MemExt)
  | stn (la : BitVec 4) (w : BitVec 3) (d a : VCode) (m : Bool) (ext : Option MemExt)
  | atn (la : BitVec 4) (d a : VCode) (m : Bool) (ext : AtomExt)
  | ldh (la : BitVec 4) (w : BitVec 3) (d a : VCode) (m : Bool) (ext : Option MemExt)
  | sth (la : BitVec 4) (w : BitVec 3) (d a : VCode) (m : Bool) (ext : Option MemExt)
  | ath (la : BitVec 4) (d a : VCode) (m : Bool) (ext : AtomExt)
  -- copy engine (R168, R171, R177)
  | cpy (la : BitVec 4) (route : BitVec 3) (size : BitVec 2) (a b : VCode)
  | cpyb (sd : SCode) (scope : BitVec 3) | cpybRing (sd sr : SCode) (scope : BitVec 3)
  | rinit (sa sb : SCode) (n : BitVec 8) | rwait (sa sb : SCode) (n : BitVec 8)
  | rrel (sa sb : SCode) (n : BitVec 8) | rfin (sa sb : SCode)
  -- matrix (R293-R299)
  | mloop (la : BitVec 4) (d : VCode) (sa sb : SCode) | mcfg (sa : SCode)
  | mcvt (d : VCode) | mzero (d : VCode) | mwait (d : VCode)
  -- synchronisation (R389, R339, R341, R473, R413, R180)
  | barinit (b : BitVec 9) (sa : SCode) | bararv (b : BitVec 9) (sd : SCode) (scope : BitVec 3)
  | barwt (b : BitVec 9) (sa : SCode) (scope : BitVec 3) | barsyn (b : BitVec 9) (scope : BitVec 3)
  | barfin (b : BitVec 9) | barst (b : BitVec 9) (sd : SCode)
  | fence (kind : BitVec 2) (scope : BitVec 3) | fencesc (scope : BitVec 3) | qend
  | stepend | tbwait (b : BitVec 5) | tbfull (b : BitVec 5) | tbempty (b : BitVec 5) (sa : SCode) (sel : BitVec 2)
  | pub (n : BitVec 9) (scope : BitVec 3)
  -- tasks and scopes (R399, R423)
  | spawn (sa : SCode) (a : VCode) (len : BitVec 6) | depdec (a : VCode)
  | signal (sa : SCode) (space : BitVec 2) (scope : BitVec 3) (op : BitVec 2) (sb : SCode)
  | waitsig (sa : SCode) (space : BitVec 2) (scope : BitVec 3) (op : BitVec 2) (sb : SCode)
  | csopen (sd : SCode) | csclose | cancel (sa : SCode) | cwait (sa sd : SCode)
  -- launch queues and Iguana (R365-R375)
  | lqnotifyWrite (fn q : Nat) (val : BitVec 32) | lqcfgWrite (fn q : Nat) (val : DWord)
  | cmdNop (fn q : Nat) | cmdLaunch (fn q : Nat) | cmdWait (fn q : Nat) | cmdWrite (fn q : Nat)
  | waitConditionMet (fn q : Nat) | startGtcReached (task : Nat) | unitHandout (die : Nat) | unitSteal (die : Nat)
  | gangRetry (task : Nat) | gangStart (task : Nat)
  -- placement, pre-emption, deliveries (R377, R450, R454, R140, R132, R120)
  | groupPlacement (cluster : Nat) | preemption (group : Nat) | groupRestore (group : Nat)
  | loadDelivery (sheaf k : Nat)
  | atomicAtHome (tag : BitVec 12) (key : Nat) (op : BitVec 4) (operand : BitVec 128)
  | peerHostRejection (sheaf : Nat) (word : Word) (dest : BitVec 9) (lanes : DWord)
  -- faults, migration, host writes, scrubbing (R74, R75, R82, R86, R88)
  | faultResolved (tag : BitVec 12) (va : DWord) (ok : Bool)
  | pageInvalidation (tag : BitVec 12) (va : DWord) (len : Nat)
  | migrationCopy (oldKey newKey len : Nat) | parkedWriteReplay (tag : BitVec 12) (va : DWord)
  | hostMemoryWrite (addr : Nat) (data : List Byte) | scrubPass (key : Nat) (err : LineError)
  -- engines and waits (R152, R174, R363, R285, R287)
  | copyEventComplete (sheaf : Nat) (batch : BitVec 8) | sleepbWake (sheaf : Nat) | sleepWake (sheaf : Nat)
  | matrixKstep (sheaf k : Nat) | mloopEnd (sheaf k : Nat)
  -- watchdogs, traps, kills (R386, R449, R442, R447, R418)
  | barrierWatchdog (group bid : Nat) | deadlockWatchdog (tag : BitVec 12) | trapEntry (sheaf : Nat)
  | contextEnd (tag : BitVec 12) (cause : BitVec 8) (va : DWord) | sheafKill (sheaf : Nat)
  -- paced groups, bins, graphs (R404, R406, R391, R395, R397, R352)
  | deathRecorded (cluster group : Nat) | groupAdvance (group : Nat)
  | binRecordArrival (die task node : Nat) (scope : BitVec 16) (words : List Word) (sender : Nat) (last : Bool)
  | binSetTimer (die task node : Nat) (scope : BitVec 16)
  | dependenceDecrement (tag : BitVec 12) (task : Nat) (va : Located) (scope : BitVec 16) (sheaf : Nat)
  | graphEndSample (task : Nat) | taskEnd (task : Nat)
  -- repeatable mode and firmware transfers (R469, R471, R435)
  | quantumCountEnd (sheaf : Nat) | roundCommit (task : Nat)
  | firmwareXferRequest (task : Nat) (ver : BitVec 3) (budget : BitVec 8) | xferDeadline (task : Nat)
  -- partitions, firmware, security (R461-R463, R478-R481)
  | timeSliceEnd (part : Nat) | coreRelease (core : Nat) | partitionConfigure (part : Nat) (clusters : List Nat)
  | vfEnable (fn : Nat) (policy : Nat) (parts : DWord) | monitorUpdate (image : FwImage)
  | moduleReset (proenapin monitor : FwImage) (fuses : Nat) (policies : List Policy)
  | getVersion (fn : Nat) | getCapabilities (fn : Nat) | negotiateAlgorithms (fn : Nat)
  | getDigests (fn : Nat) | getCertificate (fn : Nat) | challenge (fn : Nat) (nonce : Nat)
  | getMeasurements (fn : Nat) (index : Nat)
  | functionLevelReset (fn : Nat) | vfMigration (fn : Nat) (target : BitVec 21) | forwardingStubExpiry (page : Nat)
  -- collectives (R486-R488)
  | cqcfgWrite (fn : Nat) (val : DWord) | cqnotifyWrite (fn : Nat) (val : BitVec 32)
  | allReduce (cid : BitVec 32) | allGather (cid : BitVec 32) | broadcast (cid : BitVec 32)
  | collectiveTimeout (cid : BitVec 32) (participant : Nat)
  -- observation, clock and power (R491-R500, R475)
  | pcvalWrite (fn n : Nat) (val : DWord) | stallSample (core : Nat)
  | traceArm (fn : Nat) | traceStart (fn : Nat) | traceStop (fn : Nat)
  | supplySag (die : Nat) | clockRestore (die : Nat) | ageingCheck (die margin : Nat)
  | clusterClockGate (cluster : Nat) | d3hotEntry | apertureWake (fn : Nat)
  -- driver, fabric and debug (R445, R484, R7, R86, R418, R497, R66, R485, R399, R500)
  | debugResume (sheaf : Nat) | moduleIdAssign (id : BitVec 21) (routes : List (Nat × List Nat))
  | registerWrite (reg : PlatformReg) (val : DWord) | monitorWrite (key : Nat) (data : List Byte)
  | driverCancel (tag : BitVec 12) (scope : BitVec 16) | debuggerAttach (tag : BitVec 12)
  | replay (task round sheaf stop : Nat) | peerRequest (source : BitVec 21) (addr : DWord) (op : PeerOp)
  | linkFailure (port : Nat) (target : BitVec 21) | signalReread (sheaf : Nat)
  | apertureGate (fn : Nat) | d3hotExit
  deriving DecidableEq, Repr

/-- A step of another agent that is due: what stands in the machine's agenda (LOG 1). The constructors are those of the
steps of Instr that have no word; the runtime bounds how many constructors of one type a program may build, so the agenda
has its own type and Machine/Step.lean runs each by the meaning its instruction has. -/
inductive Event where
  -- launch queues and Iguana (R365-R375)
  | lqnotifyWrite (fn q : Nat) (val : BitVec 32) | lqcfgWrite (fn q : Nat) (val : DWord)
  | cmdNop (fn q : Nat) | cmdLaunch (fn q : Nat) | cmdWait (fn q : Nat) | cmdWrite (fn q : Nat)
  | waitConditionMet (fn q : Nat) | startGtcReached (task : Nat) | unitHandout (die : Nat) | unitSteal (die : Nat)
  | gangRetry (task : Nat) | gangStart (task : Nat)
  -- placement, pre-emption, deliveries (R377, R450, R454, R140, R132, R120)
  | groupPlacement (cluster : Nat) | preemption (group : Nat) | groupRestore (group : Nat)
  | loadDelivery (sheaf k : Nat)
  | atomicAtHome (tag : BitVec 12) (key : Nat) (op : BitVec 4) (operand : BitVec 128)
  | peerHostRejection (sheaf : Nat) (word : Word) (dest : BitVec 9) (lanes : DWord)
  -- faults, migration, host writes, scrubbing (R74, R75, R82, R86, R88)
  | faultResolved (tag : BitVec 12) (va : DWord) (ok : Bool)
  | pageInvalidation (tag : BitVec 12) (va : DWord) (len : Nat)
  | migrationCopy (oldKey newKey len : Nat) | parkedWriteReplay (tag : BitVec 12) (va : DWord)
  | hostMemoryWrite (addr : Nat) (data : List Byte) | scrubPass (key : Nat) (err : LineError)
  -- engines and waits (R152, R174, R363, R285, R287)
  | copyEventComplete (sheaf : Nat) (batch : BitVec 8) | sleepbWake (sheaf : Nat) | sleepWake (sheaf : Nat)
  | matrixKstep (sheaf k : Nat) | mloopEnd (sheaf k : Nat)
  -- watchdogs, traps, kills (R386, R449, R442, R447, R418)
  | barrierWatchdog (group bid : Nat) | deadlockWatchdog (tag : BitVec 12) | trapEntry (sheaf : Nat)
  | contextEnd (tag : BitVec 12) (cause : BitVec 8) (va : DWord) | sheafKill (sheaf : Nat)
  -- paced groups, bins, graphs (R404, R406, R391, R395, R397, R352)
  | deathRecorded (cluster group : Nat) | groupAdvance (group : Nat)
  | binRecordArrival (die task node : Nat) (scope : BitVec 16) (words : List Word) (sender : Nat) (last : Bool)
  | binSetTimer (die task node : Nat) (scope : BitVec 16)
  | dependenceDecrement (tag : BitVec 12) (task : Nat) (va : Located) (scope : BitVec 16) (sheaf : Nat)
  | graphEndSample (task : Nat) | taskEnd (task : Nat)
  -- repeatable mode and firmware transfers (R469, R471, R435)
  | quantumCountEnd (sheaf : Nat) | roundCommit (task : Nat)
  | firmwareXferRequest (task : Nat) (ver : BitVec 3) (budget : BitVec 8) | xferDeadline (task : Nat)
  -- partitions, firmware, security (R461-R463, R478-R481)
  | timeSliceEnd (part : Nat) | coreRelease (core : Nat) | partitionConfigure (part : Nat) (clusters : List Nat)
  | vfEnable (fn : Nat) (policy : Nat) (parts : DWord) | monitorUpdate (image : FwImage)
  | moduleReset (proenapin monitor : FwImage) (fuses : Nat) (policies : List Policy)
  | getVersion (fn : Nat) | getCapabilities (fn : Nat) | negotiateAlgorithms (fn : Nat)
  | getDigests (fn : Nat) | getCertificate (fn : Nat) | challenge (fn : Nat) (nonce : Nat)
  | getMeasurements (fn : Nat) (index : Nat)
  | functionLevelReset (fn : Nat) | vfMigration (fn : Nat) (target : BitVec 21) | forwardingStubExpiry (page : Nat)
  -- collectives (R486-R488)
  | cqcfgWrite (fn : Nat) (val : DWord) | cqnotifyWrite (fn : Nat) (val : BitVec 32)
  | allReduce (cid : BitVec 32) | allGather (cid : BitVec 32) | broadcast (cid : BitVec 32)
  | collectiveTimeout (cid : BitVec 32) (participant : Nat)
  -- observation, clock and power (R491-R500, R475)
  | pcvalWrite (fn n : Nat) (val : DWord) | stallSample (core : Nat)
  | traceArm (fn : Nat) | traceStart (fn : Nat) | traceStop (fn : Nat)
  | supplySag (die : Nat) | clockRestore (die : Nat) | ageingCheck (die margin : Nat)
  | clusterClockGate (cluster : Nat) | d3hotEntry | apertureWake (fn : Nat)
  -- driver, fabric and debug (R445, R484, R7, R86, R418, R497, R66, R485, R399, R500)
  | debugResume (sheaf : Nat) | moduleIdAssign (id : BitVec 21) (routes : List (Nat × List Nat))
  | registerWrite (reg : PlatformReg) (val : DWord) | monitorWrite (key : Nat) (data : List Byte)
  | driverCancel (tag : BitVec 12) (scope : BitVec 16) | debuggerAttach (tag : BitVec 12)
  | replay (task round sheaf stop : Nat) | peerRequest (source : BitVec 21) (addr : DWord) (op : PeerOp)
  | linkFailure (port : Nat) (target : BitVec 21) | signalReread (sheaf : Nat)
  | apertureGate (fn : Nat) | d3hotExit
  deriving DecidableEq, Repr

end Sys2Proof
end

