-- ==== Sys2Proof/Config.lean ====
section
/-!
DEFINITION. What an implementation fixes and the values the spec leaves open. A constant here has no body: nothing
proved about the model rests on its value (LOG 7 to 12, 17, 18, 24).
-/

namespace Sys2Proof

/-- The six special functions whose bits the spec leaves open (R314, R315). -/
inductive ApproxFn where
  | rsq | exp2 | log2 | sin | cos | tanh
  deriving DecidableEq, Repr

/-- FREE VALUE. The f32 result of an approximate special function on an input the exact cases of R316 and R317 do
not settle: a fixed function of the input bits, DAZ and FTZ32 (R314). It counts where it lies within the bound of R315
(Machine/Flags.lean; LOG 8). -/
opaque Config.approx : ApproxFn → Word → Bool → Bool → Word

/-- FREE VALUE. How far past the GTC the n-th promise of a CPYB lies, in ns (R153; LOG 9). -/
opaque Config.promiseDelay : Nat → Nat

/-- FREE VALUE. The order in which the port applies the lanes of the n-th RA = 1 floating atomic (R132; LOG 10). -/
opaque Config.raOrder : Nat → List Nat

/-- FREE VALUE. The certificate chain Proenapin returns (R481; LOG 11). -/
opaque Config.certificate : Nat → List Byte

/-- FREE VALUE. The SHA-512 digest of some bytes, as a number (R481; LOG 11). -/
opaque Config.digest : List Byte → Nat

/-- FREE VALUE. Byte k of what participant j on another module contributes to the n-th collective that ends (R487;
LOG 17). -/
opaque Config.contribution : Nat → Nat → Nat → Byte

/-- FREE VALUE. What the ring oscillators of a die show, as a voltage margin, and the margin's limit: number d + 8k is what die d
shows k times 24 h after reset (R499; LOG 18). -/
opaque Config.ageing : Nat → Nat
opaque Config.marginLimit : Nat

/-- FREE VALUE. The RSASSA-4096 signature of an SPDM answer over a transcript number (R481; LOG 11). -/
opaque Config.signature : Nat → Nat

/-- FREE VALUE. Where the n-th entry that a GTC brings into a translation cache goes, modulo the cache's entries (R72; LOG 12). -/
opaque Config.tlbSlot : BitVec 64 → Nat → Nat

/-- FREE VALUE. How many of the lines that an access reaches at a GTC miss their die's buffer, modulo the number of lines plus one
(R17; LOG 12). -/
opaque Config.bufferMisses : BitVec 64 → Nat

/-- FREE VALUE. The bits of a code word that cannot be read, as %traux would report them (R446; LOG 7). -/
opaque Config.unreadWord : Nat → Word

/-- FREE VALUE. Bytes of the spill area that the monitor keeps for a virtual function (R465; LOG 24). -/
opaque Config.spillArea : Nat → Nat

/-- FREE VALUE. The fuse configuration that is measured beside the security versions (R480; LOG 11). -/
opaque Config.fuseBytes : Nat → List Byte

/-- Lines of scratchpad in a core (R182). -/
def Config.spadLines : Nat := 12288
/-- Bytes of scratchpad in a core (R183). -/
def Config.spadBytes : Nat := 786432
/-- Named hardware barriers of a core (R15). -/
def Config.barriers : Nat := 512
/-- Tile buffers of a core (R15). -/
def Config.tileBuffers : Nat := 32
/-- Largest sum of budgets of a core's resident sheaves (R16). -/
def Config.budgetSum : Nat := 2048
/-- Most resident sheaves of a core (R16). -/
def Config.maxSheaves : Nat := 32
/-- Entries of a core's range scoreboard (R193). -/
def Config.scoreboard : Nat := 16
/-- Entries of a core's and of a cluster's translation cache (R15, R17, R72). -/
def Config.coreTlb : Nat := 256
def Config.clusterTlb : Nat := 4096
/-- Line entries of a die's parking buffer (R83). -/
def Config.parking : Nat := 512
/-- Queue depths of R58. -/
def Config.depthLoads : Nat := 32
def Config.depthBatches : Nat := 8
def Config.depthOpenCpy : Nat := 4
def Config.depthLoops : Nat := 2
def Config.depthAtomics : Nat := 16
def Config.depthSpawns : Nat := 8
/-- Loops queued at a core's matrix unit (R288). -/
def Config.coreLoops : Nat := 8
/-- Live rings of a level-1 group (R158). -/
def Config.rings : Nat := 32
/-- Cycles at which the deadlock counter ends the context (R449). -/
def Config.deadlock : Nat := 2 ^ 24
/-- Bytes of a shadow-store slot (R17). -/
def Config.shadowSlot : Nat := 12 * 2 ^ 20
/-- Z-link ports of the hub (R13, R18). -/
def Config.zlinkPorts : Nat := 16
/-- Time from one ageing check to the next, ns (R499). -/
def Config.ageingPeriod : Nat := 24 * 3600 * 10 ^ 9
/-- Idle time after which a cluster's clock may stop, ns (R500). -/
def Config.gateTime : Nat := 100000
/-- Entries of the wake latch (R475). -/
def Config.wakeLatch : Nat := 16
/-- Default firmware transfer deadline, ns (R435, R478). -/
def Config.xferDeadline : Nat := 20000
/-- How long a forwarding stub lasts at most, ns (R483). -/
def Config.stubTime : Nat := 100000000

end Sys2Proof
end

