-- ==== Sys2Proof/WellFormed.lean ====
section
/-!
DEFINITION. Which terms of Instr have a word: the sub-fields a constructor cannot take because the encoding gives
them to another row, or to none (R42-R48, R302, R303, R321). Operand codes that trap ILLOP when the word runs (R35,
R36, R41, R49) are the machine's: Sys2Proof/Machine/Operands.lean.
-/

namespace Sys2Proof

/-- A load's width code is 0 to 6 (R48). -/
def loadWidthOk (w : BitVec 3) : Bool := w ≠ 7

/-- A store's width code is 0, 2, 4, 5 or 6 (R48). -/
def storeWidthOk (w : BitVec 3) : Bool := w ≠ 1 && w ≠ 3 && w ≠ 7

/-- Steps that have no instruction word (95_what_each_step_holds.md): from LQNOTIFY_WRITE to D3HOT_EXIT. -/
def Instr.isEvent : Instr → Bool
  | .lqnotifyWrite .. | .lqcfgWrite .. | .cmdNop .. | .cmdLaunch .. | .cmdWait .. | .cmdWrite ..
  | .waitConditionMet .. | .startGtcReached .. | .unitHandout .. | .unitSteal .. | .gangRetry .. | .gangStart ..
  | .groupPlacement .. | .preemption .. | .groupRestore .. | .loadDelivery .. | .atomicAtHome ..
  | .peerHostRejection .. | .faultResolved .. | .pageInvalidation .. | .migrationCopy .. | .parkedWriteReplay ..
  | .hostMemoryWrite .. | .scrubPass .. | .copyEventComplete .. | .sleepbWake .. | .sleepWake .. | .matrixKstep ..
  | .mloopEnd .. | .barrierWatchdog .. | .deadlockWatchdog .. | .trapEntry .. | .contextEnd .. | .sheafKill ..
  | .deathRecorded .. | .groupAdvance .. | .binRecordArrival .. | .binSetTimer .. | .dependenceDecrement ..
  | .graphEndSample .. | .taskEnd .. | .quantumCountEnd .. | .roundCommit .. | .firmwareXferRequest ..
  | .xferDeadline .. | .timeSliceEnd .. | .coreRelease .. | .partitionConfigure .. | .vfEnable ..
  | .monitorUpdate .. | .moduleReset .. | .getVersion .. | .getCapabilities .. | .negotiateAlgorithms ..
  | .getDigests .. | .getCertificate .. | .challenge .. | .getMeasurements .. | .functionLevelReset ..
  | .vfMigration .. | .forwardingStubExpiry .. | .cqcfgWrite .. | .cqnotifyWrite .. | .allReduce .. | .allGather ..
  | .broadcast .. | .collectiveTimeout .. | .pcvalWrite .. | .stallSample .. | .traceArm .. | .traceStart ..
  | .traceStop .. | .supplySag .. | .clockRestore .. | .ageingCheck .. | .clusterClockGate .. | .d3hotEntry
  | .apertureWake .. | .debugResume .. | .moduleIdAssign .. | .registerWrite .. | .monitorWrite .. | .driverCancel ..
  | .debuggerAttach .. | .replay .. | .peerRequest .. | .linkFailure .. | .signalReread .. | .apertureGate ..
  | .d3hotExit => true
  | _ => false

/-- The term has a word of its own. -/
def Instr.wellFormed : Instr → Bool
  | .ldk _ w _ _ _ | .lds _ w _ _ _ | .ldc _ w _ _ _ | .ldg _ w _ _ _ | .ldcStep _ w _ _ _ _ => loadWidthOk w
  | .ldn _ w _ _ _ _ | .ldh _ w _ _ _ _ => loadWidthOk w
  | .stk _ w _ _ _ | .sts _ w _ _ _ | .stc _ w _ _ _ | .stg _ w _ _ _ => storeWidthOk w
  | .stn _ w _ _ _ _ | .sth _ w _ _ _ _ => storeWidthOk w
  | i => !i.isEvent

end Sys2Proof
end

