-- ==== Sys2Proof/Decode.lean ====
section
/-!
DEFINITION. Decoding of Mitex words (R27-R49): which term of Instr a word and its EXT stand for, or the named reason
it stands for none; and the encoder written from the same tables. VER and CH (R28, R30) belong to a slot, not to the
instruction. Operand legality (R35, R36) and the order of traps (R51) are the machine's.
-/

namespace Sys2Proof

/-- Why a word is no instruction (R41-R49, R133); each traps ILLOP when it issues. -/
inductive DecErr where
  | unassignedMajor | unassignedFn | zeroField | reservedField | unaryB | badWidth | extMissing | strayExt
  deriving DecidableEq, Repr

/-- What reading a word gives: an instruction; or why it is none, and the instruction its opcode and register fields name
all the same: such a word still takes a pipe and still writes (R31, R32), and R51 checks that first. -/
abbrev DecRes := Except (DecErr × Option Instr) Instr

/-! ### Fields (R27, R40) -/

/-- VER. -/
def fVer (w : Word) : BitVec 2 := w.extractLsb' 30 2
/-- CH. -/
def fCh (w : Word) : Bool := w.extractLsb' 29 1 = 1
/-- MAJ. -/
def fMaj (w : Word) : BitVec 6 := w.extractLsb' 23 6
/-- FN of V3, VI7, VC, BRK; KIND of CB. -/
def fFn2 (w : Word) : BitVec 2 := w.extractLsb' 21 2
/-- D of V3 and VI7. -/
def fD (w : Word) : VCode := w.extractLsb' 14 7
/-- A of V3, VI7, VC and CP. -/
def fA (w : Word) : VCode := w.extractLsb' 7 7
/-- B of V3, VC and CP; IMM7. -/
def fB (w : Word) : VCode := w.extractLsb' 0 7
/-- A 7-bit field at [22:16] (VI16, V1, STOV). -/
def fD16 (w : Word) : VCode := w.extractLsb' 16 7
/-- A 6-bit field at [22:17] (VTOS, SI, SRI, BRC, RP). -/
def fS17 (w : Word) : SCode := w.extractLsb' 17 6
/-- FN of KF, S3 and SY. -/
def fFn5 (w : Word) : BitVec 5 := w.extractLsb' 18 5
/-- FN of KS, RG and MC. -/
def fFn3 (w : Word) : BitVec 3 := w.extractLsb' 20 3
/-- SD of S3. -/
def fSD (w : Word) : SCode := w.extractLsb' 12 6
/-- SA of S3 and MT. -/
def fSA (w : Word) : SCode := w.extractLsb' 6 6
/-- SB of S3, MT and TK. -/
def fSB (w : Word) : SCode := w.extractLsb' 0 6
/-- LA. -/
def fLA (w : Word) : BitVec 4 := w.extractLsb' 19 4
/-- D of MEM. -/
def fMD (w : Word) : VCode := w.extractLsb' 8 7
/-- A of MEM. -/
def fMA (w : Word) : VCode := w.extractLsb' 1 7
/-- W of MEM. -/
def fW (w : Word) : BitVec 3 := w.extractLsb' 15 3
/-- ST of MEM. -/
def fST (w : Word) : Bool := w.extractLsb' 18 1 = 1
/-- M of MEM. -/
def fM (w : Word) : Bool := w.extractLsb' 0 1 = 1
/-- The payload of an EXT. -/
abbrev Payload := BitVec 23

/-- Accept when the zero-field holds no bit (R41). -/
def zeroThen (z : Bool) (i : Instr) : DecRes := if z then .ok i else .error (.zeroField, some i)

/-- A unary V3 word: B must be 108 (R49). -/
def unary (w : Word) (i : Instr) : DecRes := if fB w = 108 then .ok i else .error (.unaryB, some i)

/-- Accept when a reserved sub-field holds a value it may (R41, R126). -/
def reservedThen (z : Bool) (i : Instr) : DecRes := if z then .ok i else .error (.reservedField, some i)

/-- Accept when the width code may stand there (R48). -/
def widthThen (z : Bool) (i : Instr) : DecRes := if z then .ok i else .error (.badWidth, some i)

/-! ### Majors (R47) -/

/-- Major 0x00. -/
def dec00 (w : Word) : DecRes :=
  match (fFn2 w).toNat with
  | 0 => .ok (.iadd (fD w) (fA w) (fB w))
  | 1 => .ok (.isub (fD w) (fA w) (fB w))
  | 2 => .ok (.imul (fD w) (fA w) (fB w))
  | _ => .ok (.imulhi (fD w) (fA w) (fB w))

/-- Major 0x01. -/
def dec01 (w : Word) : DecRes :=
  match (fFn2 w).toNat with
  | 0 => .ok (.imad (fD w) (fA w) (fB w))
  | 1 => .ok (.imin (fD w) (fA w) (fB w))
  | 2 => .ok (.imax (fD w) (fA w) (fB w))
  | _ => .ok (.iabsd (fD w) (fA w) (fB w))

/-- Major 0x02. -/
def dec02 (w : Word) : DecRes :=
  match (fFn2 w).toNat with
  | 0 => .ok (.nmin (fD w) (fA w) (fB w))
  | 1 => .ok (.nmax (fD w) (fA w) (fB w))
  | 2 => .ok (.nmulhi (fD w) (fA w) (fB w))
  | _ => .ok (.iadds (fD w) (fA w) (fB w))

/-- Major 0x03. -/
def dec03 (w : Word) : DecRes :=
  match (fFn2 w).toNat with
  | 0 => .ok (.and (fD w) (fA w) (fB w))
  | 1 => .ok (.or (fD w) (fA w) (fB w))
  | 2 => .ok (.xor (fD w) (fA w) (fB w))
  | _ => .ok (.andn (fD w) (fA w) (fB w))

/-- Major 0x04. -/
def dec04 (w : Word) : DecRes :=
  match (fFn2 w).toNat with
  | 0 => .ok (.shl (fD w) (fA w) (fB w))
  | 1 => .ok (.shr (fD w) (fA w) (fB w))
  | 2 => .ok (.sar (fD w) (fA w) (fB w))
  | _ => .ok (.rotl (fD w) (fA w) (fB w))

/-- Major 0x07. -/
def dec07 (w : Word) : DecRes :=
  match (fFn2 w).toNat with
  | 0 => unary w (.popc (fD w) (fA w))
  | 1 => unary w (.clz (fD w) (fA w))
  | 2 => unary w (.brev (fD w) (fA w))
  | _ => .ok (.bfx (fD w) (fA w) (fB w))

/-- Major 0x08. -/
def dec08 (w : Word) : DecRes :=
  match (fFn2 w).toNat with
  | 0 => .ok (.bfi (fD w) (fA w) (fB w))
  | 1 => .ok (.sel (fD w) (fA w) (fB w))
  | 2 => .ok (.idp4 (fD w) (fA w) (fB w))
  | _ => .ok (.ndp4 (fD w) (fA w) (fB w))

/-- Major 0x09. -/
def dec09 (w : Word) : DecRes :=
  match (fFn2 w).toNat with
  | 0 => .ok (.fadd (fD w) (fA w) (fB w))
  | 1 => .ok (.fsub (fD w) (fA w) (fB w))
  | 2 => .ok (.fmul (fD w) (fA w) (fB w))
  | _ => .ok (.fma (fD w) (fA w) (fB w))

/-- Major 0x0A. -/
def dec0A (w : Word) : DecRes :=
  match (fFn2 w).toNat with
  | 0 => .ok (.fms (fD w) (fA w) (fB w))
  | 1 => .ok (.fmin (fD w) (fA w) (fB w))
  | 2 => .ok (.fmax (fD w) (fA w) (fB w))
  | _ => .ok (.fcps (fD w) (fA w) (fB w))

/-- Major 0x0B. -/
def dec0B (w : Word) : DecRes :=
  match (fFn2 w).toNat with
  | 0 => unary w (.fabs (fD w) (fA w))
  | 1 => unary w (.fneg (fD w) (fA w))
  | 2 => unary w (.frnd (fD w) (fA w))
  | _ => unary w (.fcls (fD w) (fA w))

/-- Major 0x0C. -/
def dec0C (w : Word) : DecRes :=
  match (fFn2 w).toNat with
  | 0 => .ok (.dadd (fD w) (fA w) (fB w))
  | 1 => .ok (.dsub (fD w) (fA w) (fB w))
  | 2 => .ok (.dmul (fD w) (fA w) (fB w))
  | _ => .ok (.dfma (fD w) (fA w) (fB w))

/-- Major 0x0D. -/
def dec0D (w : Word) : DecRes :=
  match (fFn2 w).toNat with
  | 0 => .ok (.dmin (fD w) (fA w) (fB w))
  | 1 => .ok (.dmax (fD w) (fA w) (fB w))
  | 2 => unary w (.drnd (fD w) (fA w))
  | _ => unary w (.dneg (fD w) (fA w))

/-- Major 0x0E. -/
def dec0E (w : Word) : DecRes :=
  match (fFn2 w).toNat with
  | 0 => .ok (.hadd2 (fD w) (fA w) (fB w))
  | 1 => .ok (.hmul2 (fD w) (fA w) (fB w))
  | 2 => .ok (.hfma2 (fD w) (fA w) (fB w))
  | _ => .ok (.hmax2 (fD w) (fA w) (fB w))

/-- Major 0x0F. -/
def dec0F (w : Word) : DecRes :=
  match (fFn2 w).toNat with
  | 0 => .ok (.badd2 (fD w) (fA w) (fB w))
  | 1 => .ok (.bmul2 (fD w) (fA w) (fB w))
  | 2 => .ok (.bfma2 (fD w) (fA w) (fB w))
  | _ => .ok (.bmax2 (fD w) (fA w) (fB w))

/-- Major 0x12. -/
def dec12 (w : Word) : DecRes :=
  match (fFn2 w).toNat with
  | 0 => .ok (.radd (fD w) (fA w) (fB w))
  | 1 => .ok (.rsub (fD w) (fA w) (fB w))
  | 2 => unary w (.rfrom (fD w) (fA w))
  | _ => unary w (.rfix (fD w) (fA w))

/-- Major 0x13. -/
def dec13 (w : Word) : DecRes :=
  match (fFn2 w).toNat with
  | 0 => .ok (.rscl (fD w) (fA w) (fB w))
  | 1 => .ok (.readd (fD w) (fA w) (fB w))
  | 2 => unary w (.refrom (fD w) (fA w))
  | _ => unary w (.refix (fD w) (fA w))

/-- Major 0x14. -/
def dec14 (w : Word) : DecRes :=
  match (fFn2 w).toNat with
  | 0 => unary w (.rcp (fD w) (fA w))
  | 1 => unary w (.rsq (fD w) (fA w))
  | 2 => unary w (.sqrt (fD w) (fA w))
  | _ => unary w (.exp2 (fD w) (fA w))

/-- Major 0x15. -/
def dec15 (w : Word) : DecRes :=
  match (fFn2 w).toNat with
  | 0 => unary w (.log2 (fD w) (fA w))
  | 1 => unary w (.sin (fD w) (fA w))
  | 2 => unary w (.cos (fD w) (fA w))
  | _ => unary w (.tanh (fD w) (fA w))

/-- Major 0x16. -/
def dec16 (w : Word) : DecRes :=
  match (fFn2 w).toNat with
  | 0 => .ok (.shfl (fD w) (fA w) (fB w))
  | 1 => .ok (.shflx (fD w) (fA w) (fB w))
  | 2 => .ok (.shflr (fD w) (fA w) (fB w))
  | _ => .ok (.bcst (fD w) (fA w) (fB w))

/-- Major 0x17. -/
def dec17 (w : Word) : DecRes :=
  match (fFn2 w).toNat with
  | 0 => .ok (.shflf (fD w) (fA w) (fB w))
  | 1 => .ok (.shflxf (fD w) (fA w) (fB w))
  | 2 => .ok (.shflrf (fD w) (fA w) (fB w))
  | _ => .ok (.bcstf (fD w) (fA w) (fB w))

/-- Major 0x05. -/
def dec05 (w : Word) : DecRes :=
  match (fFn2 w).toNat with
  | 0 => .ok (.iaddi (fD w) (fA w) (fB w))
  | 1 => .ok (.imuli (fD w) (fA w) (fB w))
  | 2 => .ok (.andi (fD w) (fA w) (fB w))
  | _ => .ok (.ori (fD w) (fA w) (fB w))

/-- Major 0x06. -/
def dec06 (w : Word) : DecRes :=
  match (fFn2 w).toNat with
  | 0 => .ok (.shli (fD w) (fA w) (fB w))
  | 1 => .ok (.shri (fD w) (fA w) (fB w))
  | 2 => .ok (.sari (fD w) (fA w) (fB w))
  | _ => .ok (.xori (fD w) (fA w) (fB w))

/-- Major 0x10: VC (R49). -/
def dec10 (w : Word) : DecRes :=
  let n : Bool := w.extractLsb' 20 1 = 1
  let q : BitVec 3 := w.extractLsb' 17 3
  let k : KCode := w.extractLsb' 14 3
  match (fFn2 w).toNat with
  | 0 => .ok (.icmp n q k (fA w) (fB w))
  | 1 => .ok (.ncmp n q k (fA w) (fB w))
  | 2 => .ok (.fcmp n q k (fA w) (fB w))
  | _ => .ok (.dcmp n q k (fA w) (fB w))

/-- Major 0x11: conversions (R45, R302, R303). -/
def dec11 (w : Word) (x : Option Payload) : DecRes :=
  match (fFn2 w).toNat with
  | 0 => reservedThen (w.extractLsb' 6 1 = 0) (.cvt (fD w) (fA w) (w.extractLsb' 3 3) (w.extractLsb' 0 3))
  | 1 =>
    match x with
    | none => .error (.extMissing, some (.cvtx (fD w) (fA w) (w.extractLsb' 3 3) (w.extractLsb' 0 3) 0))
    | some p =>
      if w.extractLsb' 6 1 ≠ 0 then .error (.reservedField, some (.cvtx (fD w) (fA w) (w.extractLsb' 3 3) (w.extractLsb' 0 3) 0))
      else zeroThen (p.extractLsb' 0 21 = 0)
        (.cvtx (fD w) (fA w) (w.extractLsb' 3 3) (w.extractLsb' 0 3) (p.extractLsb' 21 2))
  | 2 => .ok (.pk2 (fD w) (fA w) (fB w))
  | _ => unary w (.hi16 (fD w) (fA w))

/-- Major 0x18: reductions and matching (R321, R323). -/
def dec18 (w : Word) : DecRes :=
  match (fFn2 w).toNat with
  | 0 => reservedThen (w.extractLsb' 4 3 = 0) (.redlog (fD w) (fA w) (w.extractLsb' 0 4))
  | 1 => reservedThen (w.extractLsb' 5 2 = 0) (.scanlog (fD w) (fA w) (w.extractLsb' 4 1 = 1) (w.extractLsb' 0 4))
  | 2 => unary w (.matchv (fD w) (fA w))
  | _ => unary w (.mrank (fD w) (fA w))

/-- Major 0x19: KF. -/
def dec19 (w : Word) : DecRes :=
  let kd : KCode := w.extractLsb' 15 3
  let ka : KCode := w.extractLsb' 12 3
  let kb : KCode := w.extractLsb' 9 3
  match (fFn5 w).toNat with
  | 0 => zeroThen (w.extractLsb' 0 9 = 0) (.kand kd ka kb)
  | 1 => zeroThen (w.extractLsb' 0 9 = 0) (.kor kd ka kb)
  | 2 => zeroThen (w.extractLsb' 0 9 = 0) (.kxor kd ka kb)
  | 3 => zeroThen (w.extractLsb' 0 9 = 0) (.kandn kd ka kb)
  | 4 => zeroThen (w.extractLsb' 0 12 = 0) (.knot kd ka)
  | 5 => zeroThen (w.extractLsb' 0 12 = 0) (.kmov kd ka)
  | 6 => zeroThen (w.extractLsb' 0 15 = 0) (.kset kd)
  | 7 => zeroThen (w.extractLsb' 0 15 = 0) (.kclr kd)
  | 8 => zeroThen (kd = 0 && w.extractLsb' 0 12 = 0) (.emset ka)
  | 9 => zeroThen (kd = 0 && w.extractLsb' 0 12 = 0) (.emand ka)
  | 10 => zeroThen (w.extractLsb' 0 15 = 0) (.emget kd)
  | 11 => zeroThen (ka = 0 && kb = 0 && w.extractLsb' 0 2 = 0) (.vote kd (w.extractLsb' 2 7))
  | _ => .error (.unassignedFn, none)

/-- Major 0x1A: KS. -/
def dec1A (w : Word) : DecRes :=
  let s : SCode := w.extractLsb' 14 6
  let k : KCode := w.extractLsb' 11 3
  match (fFn3 w).toNat with
  | 0 => zeroThen (w.extractLsb' 0 11 = 0) (.ktos s k)
  | 1 => zeroThen (w.extractLsb' 0 11 = 0) (.stok s k)
  | 2 => zeroThen (w.extractLsb' 0 11 = 0) (.kpop s k)
  | 3 => zeroThen (w.extractLsb' 0 14 = 0) (.emtos s)
  | 4 => zeroThen (w.extractLsb' 0 14 = 0) (.stoem s)
  | _ => .error (.unassignedFn, none)

/-- Major 0x20: S3 (R224). -/
def dec20 (w : Word) : DecRes :=
  match (fFn5 w).toNat with
  | 0 => .ok (.sadd (fSD w) (fSA w) (fSB w))
  | 1 => .ok (.ssub (fSD w) (fSA w) (fSB w))
  | 2 => .ok (.smul (fSD w) (fSA w) (fSB w))
  | 3 => .ok (.smulhi (fSD w) (fSA w) (fSB w))
  | 4 => .ok (.sand (fSD w) (fSA w) (fSB w))
  | 5 => .ok (.sor (fSD w) (fSA w) (fSB w))
  | 6 => .ok (.sxor (fSD w) (fSA w) (fSB w))
  | 7 => .ok (.sshl (fSD w) (fSA w) (fSB w))
  | 8 => .ok (.sshr (fSD w) (fSA w) (fSB w))
  | 9 => .ok (.ssar (fSD w) (fSA w) (fSB w))
  | 10 => .ok (.smin (fSD w) (fSA w) (fSB w))
  | 11 => .ok (.smax (fSD w) (fSA w) (fSB w))
  | 12 => .ok (.sminn (fSD w) (fSA w) (fSB w))
  | 13 => .ok (.smaxn (fSD w) (fSA w) (fSB w))
  | 14 => .ok (.seq (fSD w) (fSA w) (fSB w))
  | 15 => .ok (.sne (fSD w) (fSA w) (fSB w))
  | 16 => .ok (.slt (fSD w) (fSA w) (fSB w))
  | 17 => .ok (.sltn (fSD w) (fSA w) (fSB w))
  | 18 => .ok (.sle (fSD w) (fSA w) (fSB w))
  | 19 => .ok (.slen (fSD w) (fSA w) (fSB w))
  | 20 => zeroThen (fSB w = 0) (.smov (fSD w) (fSA w))
  | 21 => .ok (.ssel (fSD w) (fSA w) (fSB w))
  | _ => .error (.unassignedFn, none)

/-- Major 0x24: SRI2. -/
def dec24 (w : Word) : DecRes :=
  let a : SCode := w.extractLsb' 11 6
  let i : BitVec 9 := w.extractLsb' 0 9
  match (w.extractLsb' 9 2).toNat with
  | 0 => .ok (.sshli (fS17 w) a i)
  | 1 => .ok (.sshri (fS17 w) a i)
  | 2 => .ok (.ssari (fS17 w) a i)
  | _ => .ok (.sandi (fS17 w) a i)

/-- Major 0x25: SR. -/
def dec25 (w : Word) : DecRes :=
  let p : BitVec 6 := w.extractLsb' 16 6
  let s : SCode := w.extractLsb' 10 6
  zeroThen (w.extractLsb' 0 10 = 0) (if w.extractLsb' 22 1 = 0 then .srd p s else .swr p s)

/-- Major 0x2C: BRK. -/
def dec2C (w : Word) : DecRes :=
  let k : KCode := w.extractLsb' 18 3
  let o : BitVec 18 := w.extractLsb' 0 18
  match (fFn2 w).toNat with
  | 0 => .ok (.bany k o)
  | 1 => .ok (.ball k o)
  | 2 => .ok (.bnone k o)
  | _ => zeroThen (k = 0) (.bemz o)

/-- Major 0x2F: CT; the ARG fields each row uses, the rest zero (R357-R364, R174, R438, R457-R461). -/
def dec2F (w : Word) : DecRes :=
  let arg : BitVec 17 := w.extractLsb' 0 17
  let s : SCode := w.extractLsb' 11 6
  let e : Bool := w.extractLsb' 10 1 = 1
  match (w.extractLsb' 17 6).toNat with
  | 0 => zeroThen (arg = 0) .nop
  | 1 => zeroThen (arg = 0) .ret
  | 2 => zeroThen (arg = 0) .exit
  | 3 => zeroThen (w.extractLsb' 16 1 = 0) (.trap (w.extractLsb' 0 16))
  | 4 => zeroThen (arg = 0) .rett
  | 5 => zeroThen (w.extractLsb' 16 1 = 0) (.bkpt (w.extractLsb' 0 16))
  | 6 => zeroThen (w.extractLsb' 0 11 = 0) (.sleep s)
  | 7 => zeroThen (w.extractLsb' 0 10 = 0) (.sleepb s e)
  | 8 => zeroThen (w.extractLsb' 0 10 = 0) (.waitb s e)
  | 9 => zeroThen (arg = 0) .yield
  | 10 => .ok (.mode (w.extractLsb' 16 1 = 1) (w.extractLsb' 8 8) (w.extractLsb' 0 8))
  | 11 => zeroThen (w.extractLsb' 8 9 = 0) (.safept (w.extractLsb' 0 8))
  | 12 =>
    if w.extractLsb' 3 1 = 1 then zeroThen (w.extractLsb' 4 13 = 0 && w.extractLsb' 0 3 = 0) .xferClr
    else zeroThen (w.extractLsb' 4 13 = 0) (.xfer (w.extractLsb' 0 3))
  | 13 => zeroThen (w.extractLsb' 0 11 = 0) (.xferq s)
  | 14 => zeroThen (arg = 0) .halt
  | _ => .error (.unassignedFn, none)

/-- Major 0x30: RP (R232). -/
def dec30 (w : Word) : DecRes :=
  zeroThen (w.extractLsb' 0 12 = 0)
    (.rep (fS17 w) (w.extractLsb' 16 1 = 1) (w.extractLsb' 15 1 = 1) (w.extractLsb' 14 1 = 1) (w.extractLsb' 12 2))

/-- The EXT of a plain load or store (R42). -/
def memExt (p : Payload) : MemExt :=
  { ofs := p.extractLsb' 7 16, ord := p.extractLsb' 5 2, scope := p.extractLsb' 2 3, hint := p.extractLsb' 0 2 }

/-- The EXT of an atomic (R43). -/
def atomExt (p : Payload) : AtomExt :=
  { op := p.extractLsb' 19 4, ret := p.extractLsb' 18 1 = 1, ra := p.extractLsb' 17 1 = 1,
    ord := p.extractLsb' 15 2, scope := p.extractLsb' 12 3, ofs := p.extractLsb' 0 12 }

/-- A load of a width code (R48). -/
def asLoad (w : Word) (i : Instr) : DecRes := widthThen (loadWidthOk (fW w)) i
/-- A store of a width code (R48). -/
def asStore (w : Word) (i : Instr) : DecRes := widthThen (storeWidthOk (fW w)) i

/-- An atomic: ST = 0, its EXT mandatory, M as `mOk` says (R46, R126). -/
def asAtom (x : Option Payload) (mOk : Bool) (i : AtomExt → Instr) : DecRes :=
  match x with
  | none => .error (if mOk then .extMissing else .reservedField, some (i (atomExt 0)))
  | some p => reservedThen mOk (i (atomExt p))

/-- Major 0x31: private (R48). -/
def dec31 (w : Word) (x : Option Payload) : DecRes :=
  let e := x.map memExt
  let i := if fST w then .stk (fLA w) (fW w) (fMD w) (fMA w) e else .ldk (fLA w) (fW w) (fMD w) (fMA w) e
  if fM w then .error (.reservedField, some i) else if fST w then asStore w i else asLoad w i

/-- Major 0x32: scratchpad (R126). -/
def dec32 (w : Word) (x : Option Payload) : DecRes :=
  let e := x.map memExt
  if fST w then
    if fM w then widthThen (fW w = 4) (.stsDesc (fLA w) (fMD w) (fMA w) e)
    else asStore w (.sts (fLA w) (fW w) (fMD w) (fMA w) e)
  else if fW w = 7 then asAtom x (!fM w) (.ats (fLA w) (fMD w) (fMA w))
  else if fM w then widthThen (fW w = 4) (.ldsDesc (fLA w) (fMD w) (fMA w) e)
  else asLoad w (.lds (fLA w) (fW w) (fMD w) (fMA w) e)

/-- Major 0x33: cluster (R44, R126). -/
def dec33 (w : Word) (x : Option Payload) : DecRes :=
  let e := x.map memExt
  if fST w then
    if fM w then .error (.reservedField, some (.stc (fLA w) (fW w) (fMD w) (fMA w) e))
    else asStore w (.stc (fLA w) (fW w) (fMD w) (fMA w) e)
  else if fW w = 7 then asAtom x (!fM w) (.atc (fLA w) (fMD w) (fMA w))
  else if fM w then
    match x with
    | none => .error (.extMissing, some (.ldcStep (fLA w) (fW w) (fMD w) (fMA w) 0 0))
    | some p => zeroThen (p.extractLsb' 0 16 = 0)
        (.ldcStep (fLA w) (fW w) (fMD w) (fMA w) (p.extractLsb' 18 5) (p.extractLsb' 16 2))
  else asLoad w (.ldc (fLA w) (fW w) (fMD w) (fMA w) e)

/-- Major 0x34: device (R126). -/
def dec34 (w : Word) (x : Option Payload) : DecRes :=
  let e := x.map memExt
  if fST w then
    if fM w then widthThen (fW w = 4) (.stgDesc (fLA w) (fMD w) (fMA w) e)
    else asStore w (.stg (fLA w) (fW w) (fMD w) (fMA w) e)
  else if fW w = 7 then asAtom x (!fM w) (.atg (fLA w) (fMD w) (fMA w))
  else if fM w then widthThen (fW w = 4) (.ldgDesc (fLA w) (fMD w) (fMA w) e)
  else asLoad w (.ldg (fLA w) (fW w) (fMD w) (fMA w) e)

/-- Major 0x35: peer (R126). -/
def dec35 (w : Word) (x : Option Payload) : DecRes :=
  let e := x.map memExt
  if fST w then asStore w (.stn (fLA w) (fW w) (fMD w) (fMA w) (fM w) e)
  else if fW w = 7 then asAtom x true (.atn (fLA w) (fMD w) (fMA w) (fM w))
  else asLoad w (.ldn (fLA w) (fW w) (fMD w) (fMA w) (fM w) e)

/-- Major 0x36: host (R126). -/
def dec36 (w : Word) (x : Option Payload) : DecRes :=
  let e := x.map memExt
  if fST w then asStore w (.sth (fLA w) (fW w) (fMD w) (fMA w) (fM w) e)
  else if fW w = 7 then asAtom x true (.ath (fLA w) (fMD w) (fMA w) (fM w))
  else asLoad w (.ldh (fLA w) (fW w) (fMD w) (fMA w) (fM w) e)

/-- Major 0x38: CB (R151). -/
def dec38 (w : Word) : DecRes :=
  let sd : SCode := w.extractLsb' 15 6
  let sr : SCode := w.extractLsb' 9 6
  let sc : BitVec 3 := w.extractLsb' 6 3
  let z : Bool := w.extractLsb' 0 6 = 0
  match (fFn2 w).toNat with
  | 0 => zeroThen (z && sr = 0) (.cpyb sd sc)
  | 1 => zeroThen z (.cpybRing sd sr sc)
  | _ => .error (.reservedField, some (.cpyb sd sc))

/-- Major 0x39: RG. -/
def dec39 (w : Word) : DecRes :=
  let a : SCode := w.extractLsb' 14 6
  let b : SCode := w.extractLsb' 8 6
  let n : BitVec 8 := w.extractLsb' 0 8
  match (fFn3 w).toNat with
  | 0 => .ok (.rinit a b n)
  | 1 => .ok (.rwait a b n)
  | 2 => .ok (.rrel a b n)
  | 3 => zeroThen (n = 0) (.rfin a b)
  | _ => .error (.unassignedFn, none)

/-- Major 0x3B: MC (R293-R299). -/
def dec3B (w : Word) : DecRes :=
  let d : VCode := w.extractLsb' 13 7
  let s : SCode := w.extractLsb' 7 6
  let z : Bool := w.extractLsb' 0 7 = 0
  match (fFn3 w).toNat with
  | 0 => if z then reservedThen (d = 108) (.mcfg s) else .error (.zeroField, some (.mcfg s))
  | 1 => zeroThen (z && s = 0) (.mcvt d)
  | 2 => zeroThen (z && s = 0) (.mzero d)
  | 3 => zeroThen (z && s = 0) (.mwait d)
  | _ => .error (.unassignedFn, none)

/-- Major 0x3C: SY (R339, R341, R389, R413, R473, R180). -/
def dec3C (w : Word) : DecRes :=
  let b : BitVec 9 := w.extractLsb' 9 9
  let tb : BitVec 5 := w.extractLsb' 9 5
  let s : SCode := w.extractLsb' 3 6
  let sc : BitVec 3 := w.extractLsb' 0 3
  let tbOk : Bool := w.extractLsb' 14 4 = 0
  match (fFn5 w).toNat with
  | 0 => zeroThen (sc = 0) (.barinit b s)
  | 1 => .ok (.bararv b s sc)
  | 2 => .ok (.barwt b s sc)
  | 3 => zeroThen (s = 0) (.barsyn b sc)
  | 4 => zeroThen (s = 0 && sc = 0) (.barfin b)
  | 5 => zeroThen (sc = 0) (.barst b s)
  | 6 => zeroThen (w.extractLsb' 11 7 = 0 && s = 0) (.fence (w.extractLsb' 9 2) sc)
  | 7 => zeroThen (b = 0 && s = 0) (.fencesc sc)
  | 8 => zeroThen (b = 0 && s = 0 && sc = 0) .qend
  | 9 => zeroThen (b = 0 && s = 0 && sc = 0) .stepend
  | 10 => zeroThen (tbOk && s = 0 && sc = 0) (.tbwait tb)
  | 11 => zeroThen (tbOk && s = 0 && sc = 0) (.tbfull tb)
  | 12 => zeroThen (tbOk && w.extractLsb' 2 1 = 0) (.tbempty tb s (w.extractLsb' 0 2))
  | 13 => zeroThen (s = 0) (.pub b sc)
  | _ => .error (.unassignedFn, none)

/-- Major 0x3D: TK (R399, R423). -/
def dec3D (w : Word) : DecRes :=
  let s : SCode := w.extractLsb' 13 6
  let a : VCode := w.extractLsb' 6 7
  let t : SCode := w.extractLsb' 0 6
  let sp : BitVec 2 := w.extractLsb' 11 2
  let sc : BitVec 3 := w.extractLsb' 8 3
  let op : BitVec 2 := w.extractLsb' 6 2
  match (w.extractLsb' 19 4).toNat with
  | 0 => .ok (.spawn s a t)
  | 1 => zeroThen (s = 0 && t = 0) (.depdec a)
  | 2 => .ok (.signal s sp sc op t)
  | 3 => .ok (.waitsig s sp sc op t)
  | 4 => zeroThen (a = 0 && t = 0) (.csopen s)
  | 5 => zeroThen (s = 0 && a = 0 && t = 0) .csclose
  | 6 => zeroThen (a = 0 && t = 0) (.cancel s)
  | 7 => zeroThen (a = 0) (.cwait s t)
  | _ => .error (.unassignedFn, none)

/-! ### The decoder -/

/-- The word takes an EXT (R46). -/
def takesExt (w : Word) : Bool :=
  (0x31 ≤ (fMaj w).toNat && (fMaj w).toNat ≤ 0x36) || (fMaj w = 0x11 && fFn2 w = 1)

/-- The word is an EXT (R33). -/
def isExt (w : Word) : Bool := fMaj w = 0x3F

/-- The instruction of a word of a major opcode whose EXT payload, if one joins it, is `x` (R47). -/
def decodeMajor (m : BitVec 6) (w : Word) (x : Option Payload) : DecRes :=
  match m.toNat with
  | 0x00 => dec00 w
  | 0x01 => dec01 w
  | 0x02 => dec02 w
  | 0x03 => dec03 w
  | 0x04 => dec04 w
  | 0x05 => dec05 w
  | 0x06 => dec06 w
  | 0x07 => dec07 w
  | 0x08 => dec08 w
  | 0x09 => dec09 w
  | 0x0A => dec0A w
  | 0x0B => dec0B w
  | 0x0C => dec0C w
  | 0x0D => dec0D w
  | 0x0E => dec0E w
  | 0x0F => dec0F w
  | 0x10 => dec10 w
  | 0x11 => dec11 w x
  | 0x12 => dec12 w
  | 0x13 => dec13 w
  | 0x14 => dec14 w
  | 0x15 => dec15 w
  | 0x16 => dec16 w
  | 0x17 => dec17 w
  | 0x18 => dec18 w
  | 0x19 => dec19 w
  | 0x1A => dec1A w
  | 0x1B => .ok (.vli (fD16 w) (w.extractLsb' 0 16))
  | 0x1C => .ok (.vlih (fD16 w) (w.extractLsb' 0 16))
  | 0x1D => .ok (.vtos (fS17 w) (w.extractLsb' 10 7) (w.extractLsb' 0 10))
  | 0x1E => zeroThen (w.extractLsb' 0 10 = 0) (.stov (fD16 w) (w.extractLsb' 10 6))
  | 0x1F => zeroThen (w.extractLsb' 0 16 = 0) (.tfix (fD16 w))
  | 0x20 => dec20 w
  | 0x21 => .ok (.sli (fS17 w) (w.extractLsb' 0 17))
  | 0x22 => .ok (.slis (fS17 w) (w.extractLsb' 0 17))
  | 0x23 => .ok (.saddi (fS17 w) (w.extractLsb' 11 6) (w.extractLsb' 0 11))
  | 0x24 => dec24 w
  | 0x25 => dec25 w
  | 0x28 => .ok (.bra (w.extractLsb' 0 23))
  | 0x29 => .ok (.call (w.extractLsb' 0 23))
  | 0x2A => .ok (.bnz (fS17 w) (w.extractLsb' 0 17))
  | 0x2B => .ok (.bz (fS17 w) (w.extractLsb' 0 17))
  | 0x2C => dec2C w
  | 0x2D => .ok (.loop (fS17 w) (w.extractLsb' 0 17))
  | 0x2E => zeroThen (w.extractLsb' 0 16 = 0) (.callx (fD16 w))
  | 0x2F => dec2F w
  | 0x30 => dec30 w
  | 0x31 => dec31 w x
  | 0x32 => dec32 w x
  | 0x33 => dec33 w x
  | 0x34 => dec34 w x
  | 0x35 => dec35 w x
  | 0x36 => dec36 w x
  | 0x37 => .ok (.cpy (fLA w) (w.extractLsb' 16 3) (w.extractLsb' 14 2) (fA w) (fB w))
  | 0x38 => dec38 w
  | 0x39 => dec39 w
  | 0x3A => .ok (.mloop (fLA w) (w.extractLsb' 12 7) (fSA w) (fSB w))
  | 0x3B => dec3B w
  | 0x3C => dec3C w
  | 0x3D => dec3D w
  | 0x3F => .error (.strayExt, none)
  | _ => .error (.unassignedMajor, none)

/-- The instruction of a word whose EXT payload, if one joins it, is `x` (R47). -/
def decodeWord (w : Word) (x : Option Payload) : Except DecErr Instr := (decodeMajor (fMaj w) w x).mapError Prod.fst

/-- The instruction a word names by its opcode and register fields, whether or not its other fields are legal (R51). -/
def meant (w : Word) (x : Option Payload) : Option Instr :=
  match decodeMajor (fMaj w) w x with
  | .ok i => some i
  | .error e => e.2

/-- A decoded word: how it is scheduled (R28), whether its group goes on after it and its EXT, and what it does. -/
structure Slot where
  ver : BitVec 2
  ch : Bool
  instr : Instr
  deriving DecidableEq, Repr

/-- The EXT that joins the word: the word after it in its packet, when the owner takes one and, under VER 01, chains
to it (R33). -/
def joinedExt (w : Word) (rest : List Word) : Option Word :=
  match rest with
  | x :: _ => if takesExt w && isExt x && (fVer w ≠ 1 || fCh w) then some x else none
  | [] => none

/-- Decode the word at the head of what is left of its packet: the slot, and how many words it takes. -/
def decode : List Word → Except DecErr (Slot × Nat)
  | [] => .error .strayExt
  | w :: rest =>
    match joinedExt w rest with
    | some x =>
      if fVer x ≠ fVer w then .error .strayExt
      else (decodeWord w (some (x.extractLsb' 0 23))).map fun i =>
        ({ ver := fVer w, ch := if fVer w = 1 then fCh x else false, instr := i }, 2)
    | none =>
      (decodeWord w none).map fun i => ({ ver := fVer w, ch := if fVer w = 1 then fCh w else false, instr := i }, 1)

/-- The instruction of the table's bits: the first word is bits 31:0, the next bits 63:32. -/
def decodeTableWord (nbits w : Nat) : Option Instr :=
  if nbits = 0 then none
  else
    match decode [BitVec.ofNat 32 (w % 2 ^ nbits), BitVec.ofNat 32 (w % 2 ^ nbits / 2 ^ 32)] with
    | .ok (s, _) => some s.instr
    | .error _ => none

/-! ### The encoder -/

/-- MAJ and a body. -/
def mj (m : BitVec 6) (b : BitVec 23) : BitVec 29 := m ++ b
/-- V3, VI7 (R40). -/
def v3 (m : BitVec 6) (fn : BitVec 2) (d a b : VCode) : BitVec 29 := mj m (fn ++ d ++ a ++ b)
/-- VC. -/
def vc (fn : BitVec 2) (n : Bool) (q : BitVec 3) (k : KCode) (a b : VCode) : BitVec 29 :=
  mj 0x10 (fn ++ BitVec.ofBool n ++ q ++ k ++ a ++ b)
/-- KF. -/
def kf (fn : BitVec 5) (kd ka kb : KCode) (a : VCode) : BitVec 29 := mj 0x19 (fn ++ kd ++ ka ++ kb ++ a ++ 0#2)
/-- KS. -/
def ks (fn : BitVec 3) (s : SCode) (k : KCode) : BitVec 29 := mj 0x1A (fn ++ s ++ k ++ 0#11)
/-- S3. -/
def s3 (fn : BitVec 5) (d a b : SCode) : BitVec 29 := mj 0x20 (fn ++ d ++ a ++ b)
/-- SRI2. -/
def sri2 (fn : BitVec 2) (d a : SCode) (i : BitVec 9) : BitVec 29 := mj 0x24 (d ++ a ++ fn ++ i)
/-- BRK. -/
def brk (fn : BitVec 2) (k : KCode) (o : BitVec 18) : BitVec 29 := mj 0x2C (fn ++ k ++ o)
/-- CT. -/
def ct (fn : BitVec 6) (arg : BitVec 17) : BitVec 29 := mj 0x2F (fn ++ arg)
/-- MEM. -/
def memw (m : BitVec 6) (la : BitVec 4) (st : Bool) (w : BitVec 3) (d a : VCode) (b : Bool) : BitVec 29 :=
  mj m (la ++ BitVec.ofBool st ++ w ++ d ++ a ++ BitVec.ofBool b)
/-- RG. -/
def rg (fn : BitVec 3) (a b : SCode) (n : BitVec 8) : BitVec 29 := mj 0x39 (fn ++ a ++ b ++ n)
/-- MC. -/
def mc (fn : BitVec 3) (d : VCode) (s : SCode) : BitVec 29 := mj 0x3B (fn ++ d ++ s ++ 0#7)
/-- SY. -/
def sy (fn : BitVec 5) (b : BitVec 9) (s : SCode) (sc : BitVec 3) : BitVec 29 := mj 0x3C (fn ++ b ++ s ++ sc)
/-- TK. -/
def tk (fn : BitVec 4) (s : SCode) (a : VCode) (t : SCode) : BitVec 29 := mj 0x3D (fn ++ s ++ a ++ t)
/-- TK with the space, scope and operation of a signal (R399). -/
def tks (fn : BitVec 4) (s : SCode) (p : BitVec 2) (q : BitVec 3) (r : BitVec 2) (t : SCode) : BitVec 29 :=
  mj 0x3D (fn ++ s ++ (p ++ q ++ r : BitVec 7) ++ t)

/-- The payload of R42. -/
def MemExt.payload (e : MemExt) : Payload := e.ofs ++ e.ord ++ e.scope ++ e.hint
/-- The payload of R43. -/
def AtomExt.payload (e : AtomExt) : Payload :=
  e.op ++ BitVec.ofBool e.ret ++ BitVec.ofBool e.ra ++ e.ord ++ e.scope ++ e.ofs

/-- MAJ and body of a term that has a word (R40, R47); 0 for a step that has none. -/
def Instr.body : Instr → BitVec 29
  | .iadd d a b => v3 0x00 0 d a b
  | .isub d a b => v3 0x00 1 d a b
  | .imul d a b => v3 0x00 2 d a b
  | .imulhi d a b => v3 0x00 3 d a b
  | .imad d a b => v3 0x01 0 d a b
  | .imin d a b => v3 0x01 1 d a b
  | .imax d a b => v3 0x01 2 d a b
  | .iabsd d a b => v3 0x01 3 d a b
  | .nmin d a b => v3 0x02 0 d a b
  | .nmax d a b => v3 0x02 1 d a b
  | .nmulhi d a b => v3 0x02 2 d a b
  | .iadds d a b => v3 0x02 3 d a b
  | .and d a b => v3 0x03 0 d a b
  | .or d a b => v3 0x03 1 d a b
  | .xor d a b => v3 0x03 2 d a b
  | .andn d a b => v3 0x03 3 d a b
  | .shl d a b => v3 0x04 0 d a b
  | .shr d a b => v3 0x04 1 d a b
  | .sar d a b => v3 0x04 2 d a b
  | .rotl d a b => v3 0x04 3 d a b
  | .popc d a => v3 0x07 0 d a 108#7
  | .clz d a => v3 0x07 1 d a 108#7
  | .brev d a => v3 0x07 2 d a 108#7
  | .bfx d a b => v3 0x07 3 d a b
  | .bfi d a b => v3 0x08 0 d a b
  | .sel d a b => v3 0x08 1 d a b
  | .idp4 d a b => v3 0x08 2 d a b
  | .ndp4 d a b => v3 0x08 3 d a b
  | .fadd d a b => v3 0x09 0 d a b
  | .fsub d a b => v3 0x09 1 d a b
  | .fmul d a b => v3 0x09 2 d a b
  | .fma d a b => v3 0x09 3 d a b
  | .fms d a b => v3 0x0A 0 d a b
  | .fmin d a b => v3 0x0A 1 d a b
  | .fmax d a b => v3 0x0A 2 d a b
  | .fcps d a b => v3 0x0A 3 d a b
  | .fabs d a => v3 0x0B 0 d a 108#7
  | .fneg d a => v3 0x0B 1 d a 108#7
  | .frnd d a => v3 0x0B 2 d a 108#7
  | .fcls d a => v3 0x0B 3 d a 108#7
  | .dadd d a b => v3 0x0C 0 d a b
  | .dsub d a b => v3 0x0C 1 d a b
  | .dmul d a b => v3 0x0C 2 d a b
  | .dfma d a b => v3 0x0C 3 d a b
  | .dmin d a b => v3 0x0D 0 d a b
  | .dmax d a b => v3 0x0D 1 d a b
  | .drnd d a => v3 0x0D 2 d a 108#7
  | .dneg d a => v3 0x0D 3 d a 108#7
  | .hadd2 d a b => v3 0x0E 0 d a b
  | .hmul2 d a b => v3 0x0E 1 d a b
  | .hfma2 d a b => v3 0x0E 2 d a b
  | .hmax2 d a b => v3 0x0E 3 d a b
  | .badd2 d a b => v3 0x0F 0 d a b
  | .bmul2 d a b => v3 0x0F 1 d a b
  | .bfma2 d a b => v3 0x0F 2 d a b
  | .bmax2 d a b => v3 0x0F 3 d a b
  | .radd d a b => v3 0x12 0 d a b
  | .rsub d a b => v3 0x12 1 d a b
  | .rfrom d a => v3 0x12 2 d a 108#7
  | .rfix d a => v3 0x12 3 d a 108#7
  | .rscl d a b => v3 0x13 0 d a b
  | .readd d a b => v3 0x13 1 d a b
  | .refrom d a => v3 0x13 2 d a 108#7
  | .refix d a => v3 0x13 3 d a 108#7
  | .rcp d a => v3 0x14 0 d a 108#7
  | .rsq d a => v3 0x14 1 d a 108#7
  | .sqrt d a => v3 0x14 2 d a 108#7
  | .exp2 d a => v3 0x14 3 d a 108#7
  | .log2 d a => v3 0x15 0 d a 108#7
  | .sin d a => v3 0x15 1 d a 108#7
  | .cos d a => v3 0x15 2 d a 108#7
  | .tanh d a => v3 0x15 3 d a 108#7
  | .shfl d a b => v3 0x16 0 d a b
  | .shflx d a b => v3 0x16 1 d a b
  | .shflr d a b => v3 0x16 2 d a b
  | .bcst d a b => v3 0x16 3 d a b
  | .shflf d a b => v3 0x17 0 d a b
  | .shflxf d a b => v3 0x17 1 d a b
  | .shflrf d a b => v3 0x17 2 d a b
  | .bcstf d a b => v3 0x17 3 d a b
  | .iaddi d a imm => v3 0x05 0 d a imm
  | .imuli d a imm => v3 0x05 1 d a imm
  | .andi d a imm => v3 0x05 2 d a imm
  | .ori d a imm => v3 0x05 3 d a imm
  | .shli d a imm => v3 0x06 0 d a imm
  | .shri d a imm => v3 0x06 1 d a imm
  | .sari d a imm => v3 0x06 2 d a imm
  | .xori d a imm => v3 0x06 3 d a imm
  | .icmp n q k a b => vc 0 n q k a b
  | .ncmp n q k a b => vc 1 n q k a b
  | .fcmp n q k a b => vc 2 n q k a b
  | .dcmp n q k a b => vc 3 n q k a b
  | .cvt d a s t => v3 0x11 0 d a (0#1 ++ s ++ t)
  | .cvtx d a s t _ => v3 0x11 1 d a (0#1 ++ s ++ t)
  | .pk2 d a b => v3 0x11 2 d a b
  | .hi16 d a => v3 0x11 3 d a 108#7
  | .redlog d a o => v3 0x18 0 d a (0#3 ++ o)
  | .scanlog d a x o => v3 0x18 1 d a (0#2 ++ BitVec.ofBool x ++ o)
  | .matchv d a => v3 0x18 2 d a 108#7
  | .mrank d a => v3 0x18 3 d a 108#7
  | .kand kd ka kb => kf 0 kd ka kb 0
  | .kor kd ka kb => kf 1 kd ka kb 0
  | .kxor kd ka kb => kf 2 kd ka kb 0
  | .kandn kd ka kb => kf 3 kd ka kb 0
  | .knot kd ka => kf 4 kd ka 0 0
  | .kmov kd ka => kf 5 kd ka 0 0
  | .kset kd => kf 6 kd 0 0 0
  | .kclr kd => kf 7 kd 0 0 0
  | .emset ka => kf 8 0 ka 0 0
  | .emand ka => kf 9 0 ka 0 0
  | .emget kd => kf 10 kd 0 0 0
  | .vote kd a => kf 11 kd 0 0 a
  | .ktos s k => ks 0 s k
  | .stok s k => ks 1 s k
  | .kpop s k => ks 2 s k
  | .emtos s => ks 3 s 0
  | .stoem s => ks 4 s 0
  | .vli d i => mj 0x1B (d ++ i)
  | .vlih d i => mj 0x1C (d ++ i)
  | .vtos s a l => mj 0x1D (s ++ a ++ l)
  | .stov d s => mj 0x1E (d ++ s ++ 0#10)
  | .tfix a => mj 0x1F (a ++ 0#16)
  | .sadd d a b => s3 0 d a b
  | .ssub d a b => s3 1 d a b
  | .smul d a b => s3 2 d a b
  | .smulhi d a b => s3 3 d a b
  | .sand d a b => s3 4 d a b
  | .sor d a b => s3 5 d a b
  | .sxor d a b => s3 6 d a b
  | .sshl d a b => s3 7 d a b
  | .sshr d a b => s3 8 d a b
  | .ssar d a b => s3 9 d a b
  | .smin d a b => s3 10 d a b
  | .smax d a b => s3 11 d a b
  | .sminn d a b => s3 12 d a b
  | .smaxn d a b => s3 13 d a b
  | .seq d a b => s3 14 d a b
  | .sne d a b => s3 15 d a b
  | .slt d a b => s3 16 d a b
  | .sltn d a b => s3 17 d a b
  | .sle d a b => s3 18 d a b
  | .slen d a b => s3 19 d a b
  | .smov d a => s3 20 d a 0
  | .ssel d a b => s3 21 d a b
  | .sli d i => mj 0x21 (d ++ i)
  | .slis d i => mj 0x22 (d ++ i)
  | .saddi d a i => mj 0x23 (d ++ a ++ i)
  | .sshli d a i => sri2 0 d a i
  | .sshri d a i => sri2 1 d a i
  | .ssari d a i => sri2 2 d a i
  | .sandi d a i => sri2 3 d a i
  | .srd p s => mj 0x25 (0#1 ++ p ++ s ++ 0#10)
  | .swr p s => mj 0x25 (1#1 ++ p ++ s ++ 0#10)
  | .bra o => mj 0x28 o
  | .call o => mj 0x29 o
  | .bnz s o => mj 0x2A (s ++ o)
  | .bz s o => mj 0x2B (s ++ o)
  | .bany k o => brk 0 k o
  | .ball k o => brk 1 k o
  | .bnone k o => brk 2 k o
  | .bemz o => brk 3 0 o
  | .loop s o => mj 0x2D (s ++ o)
  | .callx a => mj 0x2E (a ++ 0#16)
  | .nop => ct 0 0
  | .ret => ct 1 0
  | .exit => ct 2 0
  | .trap n => ct 3 (0#1 ++ n)
  | .rett => ct 4 0
  | .bkpt n => ct 5 (0#1 ++ n)
  | .sleep s => ct 6 (s ++ 0#11)
  | .sleepb s e => ct 7 (s ++ BitVec.ofBool e ++ 0#10)
  | .waitb s e => ct 8 (s ++ BitVec.ofBool e ++ 0#10)
  | .yield => ct 9 0
  | .mode h m v => ct 10 (BitVec.ofBool h ++ m ++ v)
  | .safept n => ct 11 (0#9 ++ n)
  | .xfer v => ct 12 (0#14 ++ v)
  | .xferClr => ct 12 8
  | .xferq s => ct 13 (s ++ 0#11)
  | .halt => ct 14 0
  | .rep c x y z t => mj 0x30 (c ++ BitVec.ofBool x ++ BitVec.ofBool y ++ BitVec.ofBool z ++ t ++ 0#12)
  | .ldk l w d a _ => memw 0x31 l false w d a false
  | .stk l w d a _ => memw 0x31 l true w d a false
  | .lds l w d a _ => memw 0x32 l false w d a false
  | .ldsDesc l d a _ => memw 0x32 l false 4 d a true
  | .sts l w d a _ => memw 0x32 l true w d a false
  | .stsDesc l d a _ => memw 0x32 l true 4 d a true
  | .ats l d a _ => memw 0x32 l false 7 d a false
  | .ldc l w d a _ => memw 0x33 l false w d a false
  | .ldcStep l w d a _ _ => memw 0x33 l false w d a true
  | .stc l w d a _ => memw 0x33 l true w d a false
  | .atc l d a _ => memw 0x33 l false 7 d a false
  | .ldg l w d a _ => memw 0x34 l false w d a false
  | .ldgDesc l d a _ => memw 0x34 l false 4 d a true
  | .stg l w d a _ => memw 0x34 l true w d a false
  | .stgDesc l d a _ => memw 0x34 l true 4 d a true
  | .atg l d a _ => memw 0x34 l false 7 d a false
  | .ldn l w d a m _ => memw 0x35 l false w d a m
  | .stn l w d a m _ => memw 0x35 l true w d a m
  | .atn l d a m _ => memw 0x35 l false 7 d a m
  | .ldh l w d a m _ => memw 0x36 l false w d a m
  | .sth l w d a m _ => memw 0x36 l true w d a m
  | .ath l d a m _ => memw 0x36 l false 7 d a m
  | .cpy l r z a b => mj 0x37 (l ++ r ++ z ++ a ++ b)
  | .cpyb sd sc => mj 0x38 (0#2 ++ sd ++ 0#6 ++ sc ++ 0#6)
  | .cpybRing sd sr sc => mj 0x38 (1#2 ++ sd ++ sr ++ sc ++ 0#6)
  | .rinit a b n => rg 0 a b n
  | .rwait a b n => rg 1 a b n
  | .rrel a b n => rg 2 a b n
  | .rfin a b => rg 3 a b 0
  | .mloop l d a b => mj 0x3A (l ++ d ++ a ++ b)
  | .mcfg s => mc 0 108 s
  | .mcvt d => mc 1 d 0
  | .mzero d => mc 2 d 0
  | .mwait d => mc 3 d 0
  | .barinit b s => sy 0 b s 0
  | .bararv b s c => sy 1 b s c
  | .barwt b s c => sy 2 b s c
  | .barsyn b c => sy 3 b 0 c
  | .barfin b => sy 4 b 0 0
  | .barst b s => sy 5 b s 0
  | .fence k c => sy 6 (0#7 ++ k) 0 c
  | .fencesc c => sy 7 0 0 c
  | .qend => sy 8 0 0 0
  | .stepend => sy 9 0 0 0
  | .tbwait t => sy 10 (0#4 ++ t) 0 0
  | .tbfull t => sy 11 (0#4 ++ t) 0 0
  | .tbempty t s l => sy 12 (0#4 ++ t) s (0#1 ++ l)
  | .pub n c => sy 13 n 0 c
  | .spawn s a t => tk 0 s a t
  | .depdec a => tk 1 0 a 0
  | .signal s p q r t => tks 2 s p q r t
  | .waitsig s p q r t => tks 3 s p q r t
  | .csopen s => tk 4 s 0 0
  | .csclose => tk 5 0 0 0
  | .cancel s => tk 6 s 0 0
  | .cwait s t => tk 7 s 0 t
  | _ => 0

/-- The payload of a term's EXT (R42-R45). -/
def Instr.ext : Instr → Option Payload
  | .cvtx _ _ _ _ rm => some (rm ++ 0#21)
  | .ldk _ _ _ _ e | .stk _ _ _ _ e | .lds _ _ _ _ e | .ldsDesc _ _ _ e | .sts _ _ _ _ e | .stsDesc _ _ _ e
  | .ldc _ _ _ _ e | .stc _ _ _ _ e | .ldg _ _ _ _ e | .ldgDesc _ _ _ e | .stg _ _ _ _ e | .stgDesc _ _ _ e
  | .ldn _ _ _ _ _ e | .stn _ _ _ _ _ e | .ldh _ _ _ _ _ e | .sth _ _ _ _ _ e => e.map MemExt.payload
  | .ats _ _ _ e | .atc _ _ _ e | .atg _ _ _ e | .atn _ _ _ _ e | .ath _ _ _ _ e => some e.payload
  | .ldcStep _ _ _ _ t l => some (t ++ l ++ 0#16)
  | _ => none

/-- A word of VER, CH and the rest. -/
def mkWord (ver : BitVec 2) (ch : Bool) (b : BitVec 29) : Word := ver ++ BitVec.ofBool ch ++ b

/-- The words of a term: with an EXT the owner chains to it, and CH is the EXT's (R33, R145). -/
def encode (ver : BitVec 2) (ch : Bool) (i : Instr) : List Word :=
  match i.ext with
  | none => [mkWord ver ch i.body]
  | some p => [mkWord ver true i.body, mkWord ver ch (mj 0x3F p)]

end Sys2Proof
end

