-- ==== Sys2Proof/Machine/State.lean ====
section
/-!
DEFINITION. The state of a ZX8 module as plain data: every register, memory, table and queue the spec names
(INVENTORY.md, State), the causes a step can stop with, and the module right after reset.
-/

namespace Sys2Proof.Machine

open Sys2Proof

/-! ### Registers of a sheaf -/

/-- The zero row: 0 in every lane. -/
def Row.zero : Row := Vector.replicate 64 0#32

/-- The registers a word reads as sources and writes as destinations (R199, R203, R206, R99). -/
structure Regs where
  /-- v0-v95 (R199). -/
  v : Vector Row 96
  /-- o0-o7 (R199). -/
  o : Vector Row 8
  /-- w0-w3, the last-result file (R38). -/
  w : Vector Row 4
  /-- s0-s63; the accessors make s0 read 0 (R39, R206). -/
  s : Vector DWord 64
  /-- k0-k7 (R203). -/
  k : Vector DWord 8
  /-- The execution mask (R203). -/
  em : DWord
  /-- %mode (R99). -/
  mode : DWord
  deriving DecidableEq, Repr

/-- Every register 0, the mask too (R201). -/
def Regs.zero : Regs where
  v := Vector.replicate 96 Row.zero
  o := Vector.replicate 8 Row.zero
  w := Vector.replicate 4 Row.zero
  s := Vector.replicate 64 0
  k := Vector.replicate 8 0
  em := 0
  mode := 0

/-- Trap causes, numbered as %trcause (R439). -/
inductive Cause where
  | illop | illgrp | regbud | budget | laviol | qdepth | priv | trapi | bkpt
  | fpinv | fpdiv0 | fpovf | fpunf | fpinx
  | align | range | atomdup | fmtmix | scalemix | fmtnone
  | xlate | prot | late | ringstate | barstate | stepdead
  | ue | wdbar | wddead | xfermap
  deriving DecidableEq, Repr

/-- The model's issue latch (LOG 5): the word in issue, where it stands, whether more words of its group follow. -/
structure Latch where
  word : Word
  addr : BitVec 32
  slot : BitVec 2
  more : Bool
  /-- The word issues under VER 01, so its lookahead count opens a window (R28, R55). -/
  native : Bool
  deriving DecidableEq, Repr

/-- A trap that left its group without effect (R51, R441 row 4). -/
structure TrapReq where
  cause : Cause
  mask : DWord
  aux : DWord
  deriving DecidableEq, Repr

/-- Row of R441 a trap belongs to: the group's own checks (row 4), its arithmetic and software traps (row 2), or
asynchronous (row 3). -/
inductive PendKind where
  | group | arith | soft | async
  deriving DecidableEq, Repr

/-- A trap waiting for a group boundary (R441). `pc` is the trapping group, when the cause names one. -/
structure PendTrap where
  kind : PendKind
  cause : Cause
  pc : Option (BitVec 32)
  mask : DWord
  aux : DWord
  /-- It was pending when the handler was entered, and stays so until RETT (R441). -/
  held : Bool := false
  /-- %trmask holds the em in force where the trap is taken, not `mask` (R163). -/
  emMask : Bool := false
  deriving DecidableEq, Repr

/-- An open lookahead window (R55, R453): the groups left after the one that issues now, the operand codes of its pending
set, the address of the word that opened it, and, of an MLOOP, its accumulator and its loop record (R289, R451). -/
structure Window where
  rem : Nat
  regs : List Nat
  pc : BitVec 32
  acc : Option (Nat × Nat)
  deriving DecidableEq, Repr

/-- An issued load or returning atomic whose value is fixed and not yet delivered (R54). -/
structure PendLoad where
  atomic : Bool
  /-- A host or peer load becomes a replay record at pre-emption (R136). -/
  remote : Bool
  /-- Tile-buffer slots a step-qualified load reads: producer group, buffer and slot (R190). -/
  slots : List (Nat × Nat × Nat)
  /-- The active lanes of the load (R204). -/
  em : DWord
  /-- Destination register codes and the values to write there, in order. -/
  dest : List (Nat × Row)
  /-- The word and what it stands for, for a replay record and a rejection (R452, R120). -/
  word : Word
  /-- Its word address: the producer that a stall sample names (R56). -/
  pc : BitVec 32
  instr : Instr
  /-- Handle by which a deferred or parked atomic delivers its lanes (MODEL's own; R83, R134). -/
  ref : Nat
  /-- Lanes whose value is not fixed yet (R83, R134). -/
  waits : Nat
  /-- Lane and key of each host or peer lane, for its replay (R136). -/
  sites : List (Nat × Nat)
  deriving DecidableEq, Repr

/-- One lane's copy request (R149), addresses as keys resolved at issue where they are scratchpad. -/
structure CopyReq where
  route : BitVec 3
  size : Nat
  src : Nat
  dst : Nat
  deriving DecidableEq, Repr

/-- Data and descriptor of a request. -/
abbrev CopyData := List Byte × BitVec 16

/-- A CPY of a batch (R148-R151): the handle of its scoreboard entries (MODEL's own), the requests left in transfer order,
and what was read for the first of them. -/
structure Cpy where
  sid : Nat
  reqs : List CopyReq
  held : List CopyData
  deriving DecidableEq, Repr

/-- How far the engine has come with the CPYs of a batch, open or closed: bytes of requests wholly written and status (R159),
the 64 KiB page it is paused at (R74), and the lines it has counted (R80). -/
structure CopyProg where
  bytes : Nat
  /-- 0 OK, 1 SRCUE, 2 DSTUE, 3 PROT (R159). -/
  status : Nat
  paused : Option Nat
  touched : List Nat
  deriving DecidableEq, Repr

/-- Nothing transferred yet. -/
def CopyProg.zero : CopyProg := { bytes := 0, status := 0, paused := none, touched := [] }

/-- A copy batch after its CPYB (R151, R152). -/
structure Batch where
  num : BitVec 8
  scope : BitVec 3
  outbound : Bool
  /-- Ring it is bound to, by scratchpad offset (R159). -/
  ring : Option Nat
  cpys : List Cpy
  promise0 : DWord
  promise1 : DWord
  /-- GTC of its CPYB: the stores before it belong to its visible event (R152). -/
  closed : DWord
  ev0 : Bool
  prog : CopyProg
  deriving DecidableEq, Repr

/-- A scale latch of the matrix unit (R283, R291). -/
structure ScaleLatch where
  valid : Bool
  recent : Bool
  vd : Nat
  rows : List (BitVec 8)
  cols : List (BitVec 8)
  deriving DecidableEq, Repr

/-- An MLOOP in flight (R288-R291) with an attached MCVT (R289). -/
structure Loop where
  cfg : DWord
  a0 : DWord
  a1 : DWord
  b0 : DWord
  b1 : DWord
  mode : BitVec 13
  word : Word
  /-- Its word address (R56). -/
  pc : BitVec 32
  /-- Its loop record (R291). -/
  slot : Nat
  d : Nat
  steps : Nat
  nextK : Nat
  exc : BitVec 5
  /-- Lanes with an element that raised each exception, INV first (R287). -/
  lanes : List DWord
  /-- The groups that the scratchpad operands A and B lie in, found at issue (R292; MODEL's own). -/
  aGroup : Nat
  bGroup : Nat
  /-- The MCVTs attached, in order: word, slot, configuration and captured mode (R289, R296). -/
  cvt : List (Word × BitVec 2 × DWord × BitVec 13)
  deriving DecidableEq, Repr

/-- A transfer request (R435). -/
structure XferReq where
  ver : BitVec 3
  budget : Nat
  firmware : Bool
  deriving DecidableEq, Repr

/-- A wait in progress: the waiting word and what it has already done (R53, R389, R413, R174). -/
structure WaitState where
  instr : Instr
  /-- The phase, step or late mark recorded when the wait began. -/
  token : Option Nat
  deriving DecidableEq, Repr

/-- The word, destination code and lane a late report names (R120). -/
structure Issuer where
  word : Word
  dest : BitVec 9
  lane : Nat
  deriving DecidableEq, Repr

/-- Lanes of a store or atomic that went to host or peer memory, with the bytes each found and left there: a rejection that is
still to come takes a lane back (R120). A lane that was turned away as it left has none. -/
structure FarWrite where
  word : Word
  dest : BitVec 9
  /-- Lane, key, bytes before and after. -/
  lanes : List (Nat × Nat × List Byte × List Byte)
  deriving DecidableEq, Repr

/-- A location written in a repeatable quantum and not yet committed (R135): bytes or a descriptor, and who wrote them. -/
inductive BufWrite where
  /-- `whole`: a piece of a full-line store (R138). -/
  | bytes (va : Option Nat) (key : Nat) (bs : List Byte) (whole : Bool) (src : Issuer)
  | desc (va : Option Nat) (key : Nat) (val : BitVec 16) (src : Issuer)
  /-- The copy writes of this batch stand here in program order (R166). -/
  | batch (num : BitVec 8)
  deriving DecidableEq, Repr

/-- An operation deferred to the commit of a repeatable round (R134, R166, R385, R399, R410, R421). -/
inductive Deferred where
  | atomic (va : Option Nat) (key : Nat) (op : BitVec 4) (operand : BitVec 128) (ret : Option Nat) (lane : Nat) (word : Word)
  | depdec (va : DWord) (key : Nat) (scope : BitVec 16)
  | signal (va : Option Nat) (key : Nat) (op : BitVec 2) (operand : DWord) (word : Word)
  | pub (region : Nat)
  | arrive (bid : Nat) (result : Option (BitVec 6))
  | stepArrive (t : Nat)
  | tbfull (b t : Nat)
  | tbempty (group b t : Nat)
  | record (node : Nat) (scope : BitVec 16) (words : List Word) (last : Bool)
  | csopen (sd : BitVec 6)
  | cancel (scope : BitVec 16)
  deriving DecidableEq, Repr

/-- REP in progress: its fields and how many repeats (R232-R236). -/
structure RepState where
  count : Nat
  stepD : Bool
  stepA : Bool
  stepB : Bool
  stride : Nat
  deriving DecidableEq, Repr

/-- Life of a sheaf (R352, R364, R418). -/
inductive Life where
  | absent | live | exited | killed
  deriving DecidableEq, Repr

/-- A sheaf: its registers, special registers and engine state. -/
structure Sheaf where
  /-- Handle by which the model's steps name the sheaf (MODEL's own). -/
  uid : Nat
  life : Life
  regs : Regs
  /-- Registers at the start of a multi-word group: its sources (R32; LOG 5). -/
  snap : Option Regs
  pc : BitVec 32
  next : BitVec 32
  latch : Latch
  trapped : Option TrapReq
  task : Nat
  group : Nat
  lsheaf : BitVec 6
  sheafNo : BitVec 32
  fpflags : DWord
  trpc : BitVec 32
  trnext : BitVec 32
  trmask : DWord
  trcause : BitVec 8
  traux : DWord
  trbase : DWord
  trem : DWord
  tsc : Vector DWord 4
  rpLast : BitVec 6
  rpNext : Nat
  rpResume : Bool
  /-- Address of the REP that a trap interrupted (R236). -/
  rpAt : BitVec 32
  rep : Option RepState
  scope : BitVec 16
  baseScope : BitVec 16
  ver : BitVec 24
  budget : Nat
  prio : BitVec 2
  quant : BitVec 32
  late : BitVec 32
  hnd : Bool
  contF : Bool
  /-- The next group continues a CALLX sequence if it is a CALLX at this address (R361). -/
  contAt : Option (BitVec 32)
  hidW : Vector Row 4
  hidMode : BitVec 5
  hidF : Bool
  pend : List PendTrap
  windows : List Window
  loads : List PendLoad
  replays : List PendLoad
  spawns : Nat
  nextBatch : BitVec 8
  openCpys : List Cpy
  /-- What the engine has done for the open batch (R151, R194). -/
  openProg : CopyProg
  /-- The open batch holds an outbound request (R152). -/
  openOut : Bool
  batches : List Batch
  mcfg : DWord
  latches : Vector ScaleLatch 2
  loops : List Loop
  request : Option XferReq
  /-- The request that a SAFEPT serves, from the read of its map on (R432). -/
  asked : Option XferReq
  wait : Option WaitState
  /-- A commit of its round has closed and its wait is due for evaluation (R469, R471). -/
  look : Bool
  /-- Further wait words of the group in progress, begun when the wait before them ends (LOG 5). -/
  rest : List (Latch × Instr)
  /-- A group is in progress: its words have issued and its waits have not all ended (LOG 5). -/
  mid : Bool
  /-- A trap whose entry waits for loops to deliver, with its %trpc and %trnext (R442). -/
  entering : Option (PendTrap × BitVec 32 × BitVec 32)
  /-- Pages the sheaf is parked on, with the access code of the fault record (R74, R77). -/
  parked : List (DWord × BitVec 8)
  /-- Pages reported unresolvable: the next access to one traps PROT (R446). -/
  badPages : List DWord
  dbgHalt : Bool
  saved : Bool
  coreHalt : Bool
  /-- Restored, and held while writes issued before the pre-emption are parked (R336). -/
  resumed : Bool
  /-- Host and peer writes of its words that no fence has found accepted (R120). -/
  far : List FarWrite
  /-- Residency slot on its core (R380, R492). -/
  seat : Nat
  starve : Nat
  /-- It is eligible, and its place among the sheaves is its ready stamp (R380). -/
  ready : Bool
  /-- Its ready stamp is younger than any other (R363). -/
  yielded : Bool
  fromBin : Bool
  buf : List BufWrite
  defer : List Deferred
  round : Nat
  retired : Nat
  /-- Groups it has issued in this quantum, the one in progress among them (R436). -/
  nth : Nat
  bufBytes : Nat
  quantumDone : Bool
  deriving DecidableEq, Repr

/-- Latch at rest. -/
def Latch.idle : Latch := { word := 0, addr := 0, slot := 0, more := false, native := false }

/-- A latch that serves no accumulator (R291). -/
def ScaleLatch.empty : ScaleLatch := { valid := false, recent := false, vd := 0, rows := [], cols := [] }

/-- No sheaf: every register and special register 0 (R201, R207). -/
def Sheaf.absent : Sheaf where
  uid := 0
  life := .absent
  regs := Regs.zero
  snap := none
  pc := 0
  next := 0
  latch := Latch.idle
  trapped := none
  task := 0
  group := 0
  lsheaf := 0
  sheafNo := 0
  fpflags := 0
  trpc := 0
  trnext := 0
  trmask := 0
  trcause := 0
  traux := 0
  trbase := 0
  trem := 0
  tsc := Vector.replicate 4 0
  rpLast := 0
  rpNext := 0
  rpResume := false
  rpAt := 0
  rep := none
  scope := 0
  baseScope := 0
  ver := 0
  budget := 16
  prio := 0
  quant := 16384
  late := 0
  hnd := false
  contF := false
  contAt := none
  hidW := Vector.replicate 4 Row.zero
  hidMode := 0
  hidF := false
  pend := []
  windows := []
  loads := []
  replays := []
  spawns := 0
  nextBatch := 0
  openCpys := []
  openProg := CopyProg.zero
  openOut := false
  batches := []
  mcfg := 0
  latches := Vector.replicate 2 ScaleLatch.empty
  loops := []
  request := none
  asked := none
  wait := none
  look := false
  rest := []
  mid := false
  entering := none
  parked := []
  badPages := []
  dbgHalt := false
  saved := false
  coreHalt := false
  resumed := false
  far := []
  seat := 0
  starve := 0
  ready := false
  yielded := false
  fromBin := false
  buf := []
  defer := []
  round := 0
  retired := 0
  nth := 0
  bufBytes := 0
  quantumDone := false

/-! ### Groups, tasks and contexts -/

/-- A live ring (R157-R159). -/
structure Ring where
  off : Nat
  slots : Nat
  rd : Nat
  wr : Nat
  fill : Nat
  reserved : Nat
  deriving DecidableEq, Repr

/-- A named barrier's state word (R383) and its watchdog timer, none while it is stopped (R386). -/
structure Barrier where
  live : Bool
  canc : Bool
  exp : Nat
  arr : Nat
  phase : BitVec 16
  set : BitVec 32
  timer : Option Nat
  deriving DecidableEq, Repr

/-- A barrier never initialised (R383 reset). -/
def Barrier.zero : Barrier := { live := false, canc := false, exp := 0, arr := 0, phase := 0, set := 0, timer := none }

/-- A tile-buffer slot's state word (R190). -/
structure TileSlot where
  full : Bool
  pend : Nat
  step : Nat
  deriving DecidableEq, Repr

/-- A tile buffer: its table entry (R188) and its slots. -/
structure TileBuf where
  base : Nat
  slotBytes : Nat
  count : Nat
  out : Bool
  slots : List TileSlot
  deriving DecidableEq, Repr

/-- A level-1 group. -/
structure Group where
  gid : Nat
  task : Nat
  /-- Placement unit it belongs to, for restoration and paced placement (R371, R409). -/
  unit : Nat
  gi : Vector (BitVec 32) 7
  core : Nat
  spadBase : Nat
  spadLen : Nat
  barriers : List Barrier
  tiles : List TileBuf
  rings : List Ring
  step : Nat
  arrived : BitVec 32
  dead : Bool
  /-- %step counted when the death was recorded on this group's cluster (R406). -/
  deathStep : Option Nat
  saved : Bool
  freed : Bool
  fromBin : Bool
  /-- Launch priority of its unit, or of its node (R377, R392). -/
  prio : Nat
  deriving DecidableEq, Repr

/-- One level entry of a launch record (R346). -/
structure Level where
  extent : Nat
  domain : Nat
  scope : Nat
  deriving DecidableEq, Repr

/-- The launch record as Iguana read it (R345). -/
structure LaunchRec where
  image : Nat
  fn : Nat
  ver : Nat
  flags : BitVec 8
  budget : Nat
  prio : Nat
  parent : BitVec 16
  args : DWord
  argBytes : Nat
  spad : Nat
  levels : List Level
  barriers : Nat
  tiles : Nat
  skew : Nat
  deps : List Int
  tileTable : Nat
  nodeTable : Nat
  signal : Nat
  signalValue : DWord
  pubTable : Nat
  quantum : Nat
  barTimeout : Nat
  partMask : DWord
  startGtc : Nat
  /-- The task the launch became (MODEL's own). -/
  owner : Nat
  deriving DecidableEq, Repr

/-- A launch record of zeros. -/
def LaunchRec.zero : LaunchRec where
  image := 0
  fn := 0
  ver := 0
  flags := 0
  budget := 16
  prio := 0
  parent := 0
  args := 0
  argBytes := 0
  spad := 0
  levels := []
  barriers := 0
  tiles := 0
  skew := 0
  deps := []
  tileTable := 0
  nodeTable := 0
  signal := 0
  signalValue := 0
  pubTable := 0
  quantum := 0
  barTimeout := 0
  partMask := 0
  startGtc := 0
  owner := 0

/-- A published region (R160): base and size. -/
structure PubRegion where
  base : Nat
  size : Nat
  deriving DecidableEq, Repr

/-- A gang launch's progress (R374, R375); rolled back, the partitions that could not reserve. -/
inductive Gang where
  | none | rolledBack (failed : List Nat) | committed (t : Nat) | started
  deriving DecidableEq, Repr

/-- One sample of a task's graph end (R397): when, whether idle, records sent and received. -/
structure EndSample where
  gtc : Nat
  idle : Bool
  sent : Nat
  recv : Nat
  deriving DecidableEq, Repr

/-- An entry of a task's node table, read at acceptance (R390), with the entry word of its version. -/
structure NodeEntry where
  fn : Nat
  ver : Nat
  budget : Nat
  prio : Nat
  count : Nat
  words : Nat
  timer : Nat
  spad : Nat
  entry : Nat
  deriving DecidableEq, Repr

/-- An entry of a tile-buffer table, read at acceptance (R188). -/
structure TileEntry where
  base : Nat
  slotBytes : Nat
  count : Nat
  out : Bool
  deriving DecidableEq, Repr

/-- A record at a bin (R391): its scope, its words, the sheaf whose SPAWN it completes, if it is its last. -/
structure BinRec where
  scope : BitVec 16
  words : List Word
  sender : Nat
  last : Bool
  deriving DecidableEq, Repr

/-- A version slot of the function table (R349): entry, budget, flags, safe points, the two table offsets. -/
structure VerSlot where
  entry : Nat
  budget : Nat
  flags : Nat
  points : Nat
  spTable : Nat
  recTable : Nat
  deriving DecidableEq, Repr

/-- A task (R12). -/
structure Task where
  tid : Nat
  tag : BitVec 12
  fn : Nat
  queue : Nat
  /-- Count of its LAUNCH command, and where the command lies: in host memory or not, and its address. -/
  cmd : BitVec 32
  cmdHost : Bool
  cmdAddr : Nat
  part : Nat
  recVA : Nat
  lrec : LaunchRec
  codeBase : Nat
  codeWords : Nat
  fnCount : Nat
  fnTable : Nat
  /-- The present version slots of its function table, read at acceptance, by function and version (R349; LOG 7). -/
  versions : List (Nat × Nat × VerSlot)
  /-- Entry word of the launched version, read at acceptance (R349, R350). -/
  entry : Nat
  nodes : List NodeEntry
  tiles : List TileEntry
  scope : BitVec 16
  /-- Its task scope was issued to it (R415). -/
  ownScope : Bool
  /-- Units not yet placed (R371, R419). -/
  units : List Nat
  /-- The units have gone to the distributors (R373). -/
  handed : Bool
  gang : Gang
  regions : List PubRegion
  sent : Nat
  recv : Nat
  sample : Option EndSample
  binSheaves : Nat
  exhausted : Bool
  round : Nat
  /-- Records, with die and node, and cancellations that a commit in progress has gathered (R471). -/
  gathered : List (Nat × Nat × BinRec)
  cutting : List (BitVec 16)
  /-- Rounds between checkpoints, and the ranges of keys they hold, as the driver set them (R497). -/
  checkpointEvery : Nat
  pages : List (Nat × Nat)
  /-- When a firmware transfer request is withdrawn (R435). -/
  deadline : Option Nat
  /-- A firmware request that waits for a commit (R436). -/
  ask : Option (BitVec 3 × Nat)
  ended : Bool
  deriving DecidableEq, Repr

/-- State of a cancel scope (R416). -/
inductive ScopeLife where
  | live | cancelled | retired
  deriving DecidableEq, Repr

/-- A cancel scope (R414-R416) with the counts of R424. -/
structure Scope where
  id : BitVec 16
  parent : BitVec 16
  depth : Nat
  life : ScopeLife
  isOpen : Bool
  isTask : Bool
  /-- It has been cancelled, so its counts are reported (R424). -/
  cut : Bool
  /-- Tasks, sheaves and records its subtree lost (R424). -/
  lostTasks : List Nat
  sheaves : Nat
  dropped : Nat
  /-- Since when every sample of the subtree has been idle (R419). -/
  idle : Option Nat
  deriving DecidableEq, Repr

/-- A context's root scope (R414). -/
def Scope.root : Scope where
  id := 0
  parent := 0
  depth := 0
  life := .live
  isOpen := true
  isTask := false
  cut := false
  lostTasks := []
  sheaves := 0
  dropped := 0
  idle := none

/-- A context (R12, R68). -/
structure Context where
  tag : BitVec 12
  fn : Nat
  /-- Key of the level-0 page table (R68). -/
  root : Nat
  diag : Nat
  counters : Option Nat
  debugger : Bool
  ended : Bool
  /-- It has ended and been found quiescent: its frames wait for its driver's release (R447, R510). -/
  released : Bool
  wdDone : Bool
  deadlock : Nat
  scopes : List Scope
  /-- Launch queues the monitor bound to it (R365). -/
  queues : List Nat
  /-- Cancellations of the driver that wait for a commit (R421). -/
  cancels : List (BitVec 16)
  /-- Pages Iguana reported and waits for (R515). -/
  iguana : List Nat
  /-- Frames allotted to it, by key and length (R86). -/
  frames : List (Nat × Nat)
  deriving DecidableEq, Repr

/-- A set of node records in a bin (R391): `number` is the %sheaf its closing assigned (R392). -/
structure BinSet where
  scope : BitVec 16
  records : List (List Word)
  first : Nat
  /-- Order of first arrival (R394; MODEL's own). -/
  seq : Nat
  number : Nat
  deriving DecidableEq, Repr

/-- A bin: one node of one task on one die (R391). -/
structure Bin where
  die : Nat
  task : Nat
  node : Nat
  sets : List BinSet
  /-- Sets that have closed and whose sheaf is not placed (R417). -/
  closed : List BinSet
  waiting : List BinRec
  deriving DecidableEq, Repr

/-! ### The module around the cores -/

/-- A launch queue's registers (R365) and what Iguana holds of it. -/
structure Queue where
  cfg : DWord
  head : BitVec 32
  tail : BitVec 32
  /-- LAUNCH commands started and not complete, by count (R368). -/
  running : List (BitVec 32)
  deriving DecidableEq, Repr

/-- A queue at reset (R365). -/
def Queue.zero : Queue := { cfg := 0, head := 0, tail := 0, running := [] }

/-- A write of Iguana not made yet (R367, R515): the command it belongs to, the context and partition, where it goes. -/
structure IguanaWrite where
  fn : Nat
  queue : Nat
  count : BitVec 32
  tag : BitVec 12
  part : Nat
  host : Bool
  addr : Nat
  bytes : List Byte
  /-- Its bytes are the GTC when it is made (R366). -/
  stamp : Bool := false
  /-- A release: it waits for the writes that Iguana parked for the queue (R352, R368). -/
  release : Bool := false
  /-- The command is complete once it is made. -/
  final : Bool := false
  deriving DecidableEq, Repr

/-- A WAIT command that holds its queue (R368): the command, its signal, operand and condition. -/
structure HeldWait where
  command : IguanaWrite
  signal : Nat
  value : DWord
  cond : Nat
  deriving DecidableEq, Repr

/-- State of a trace session (R495). -/
inductive TraceState where
  | idle | armed | recording | closed
  deriving DecidableEq, Repr

/-- A virtual function's registers (R462, R365, R486, R490-R495, R475, R478). -/
structure VirtFn where
  enabled : Bool
  policy : Option Policy
  parts : DWord
  res : DWord
  queues : Vector Queue 8
  cq : Queue
  psel : Vector DWord 16
  smpcfg : DWord
  smpdrop : BitVec 32
  smptail : Nat
  trwatch : Vector DWord 4
  trring : DWord
  trstart : DWord
  trstop : DWord
  trace : TraceState
  trtail : Nat
  trdrop : Nat
  /-- A write of this step has met the stop condition: the session closes once the cycle's writes are recorded (R495). -/
  stopping : Bool
  /-- The source that its stop record names. -/
  stopAt : Nat
  gated : Bool
  /-- A function-level reset has begun, and the function's work in flight drains (R482). -/
  resetting : Bool
  deriving DecidableEq, Repr

/-- A virtual function before it is enabled. -/
def VirtFn.zero : VirtFn where
  enabled := false
  policy := none
  parts := 0
  res := 0
  queues := Vector.replicate 8 Queue.zero
  cq := Queue.zero
  psel := Vector.replicate 16 0
  smpcfg := 0
  smpdrop := 0
  smptail := 0
  trwatch := Vector.replicate 4 0
  trring := 0
  trstart := 0
  trstop := 0
  trace := .idle
  trtail := 0
  trdrop := 0
  stopping := false
  stopAt := 0
  gated := false
  resetting := false

/-- A notification record waiting or written (R77). -/
structure Notice where
  gtc : DWord
  va : DWord
  kind : BitVec 8
  access : BitVec 8
  tag : BitVec 12
  core : BitVec 16
  sheaf : BitVec 32
  value : BitVec 32
  deriving DecidableEq, Repr

/-- A peer window exported by a partition's driver (R66): fabric offset range, the key it maps to, write leave, and
the modules it is exported to. -/
structure PeerWindow where
  base : Nat
  size : Nat
  key : Nat
  writable : Bool
  modules : List Nat
  deriving DecidableEq, Repr

/-- A partition (R24, R76, R81, R463). -/
structure Partition where
  num : Nat
  clusters : List Nat
  nqcfg : DWord
  nqtail : BitVec 32
  nqhead : BitVec 32
  nqdrop : BitVec 32
  /-- The ring holds as many records as it has slots, where head and tail are equal (R76). -/
  nqfull : Bool
  cthr : BitVec 32
  waiting : List Notice
  windows : List PeerWindow
  resident : Option Nat
  /-- When its time slice began (R463). -/
  since : Nat
  deriving DecidableEq, Repr

/-- Arithmetic-clock step of a die (R498). -/
inductive ClockStep where
  | full | threeQuarter | half
  deriving DecidableEq, Repr

/-- Who a counter record names (R77): the owner tag of the page's context, its partition, and the core and %sheaf of the access. -/
structure Toucher where
  tag : BitVec 12
  part : Nat
  core : Nat
  sheaf : BitVec 32
  deriving DecidableEq, Repr

/-- One operation parked on a line, by virtual address (R83): bytes (`whole`: of a full-line store, R138) or a descriptor with the
word that issued them, an atomic with the load that waits for its value, its lane and its word, a signal with its word (R396), an
addition to a page's access counters (R79, R81), a decrement with the key it was issued for (R395). -/
inductive ParkedOp where
  | bytes (va : Nat) (bs : List Byte) (whole : Bool) (src : Option Issuer)
  | desc (va : Nat) (d : BitVec 16) (src : Option Issuer)
  | atom (va : Nat) (op : BitVec 4) (operand : BitVec 128) (ret : Option Nat) (lane : Nat) (word : Word)
  | signal (va : Nat) (op : BitVec 2) (operand : DWord) (word : Word)
  | count (va page lines : Nat) (remote : Bool) (who : Toucher)
  | depdec (va key : Nat) (scope : BitVec 16)
  deriving DecidableEq, Repr

/-- A line entry of a die's parking buffer (R83): the page and the frame it had, the line of virtual memory, when it came and
from whom (sheaf 0: no sheaf; the batch, when the copy engine wrote; the function and queue, when Iguana did), and its
operations. -/
structure ParkedWrite where
  die : Nat
  page : Nat
  frame : Nat
  line : Nat
  at_ : DWord
  sheaf : Nat
  batch : Option (BitVec 8)
  queue : Option (Nat × Nat) := none
  tag : BitVec 12
  /-- Later accesses of its sheaf wait for it: an acquire atomic or an sc access (R328, R332). -/
  holds : Bool
  /-- It stands before a full buffer: an access that no core issues waits there (R83). -/
  stalled : Bool := false
  ops : List ParkedOp
  deriving DecidableEq, Repr

/-- An entry of an error log (R89, R498, R515). -/
structure ErrEntry where
  gtc : DWord
  what : String
  addr : Nat
  /-- The code's syndrome, of a corrected error (R89). -/
  syndrome : Nat := 0
  deriving DecidableEq, Repr

/-- What a Newt has to place (R371, R391): `n` level-1 groups of a launch from index `lo` on, or the sheaf of a set. -/
inductive Job where
  | groups (task lo n : Nat)
  | set (die task node number : Nat)
  deriving DecidableEq, Repr

/-- A cluster's state in a shadow-store slot (R465): which function's, which cluster, its groups and sheaves. -/
structure Shadow where
  fn : Nat
  cluster : Nat
  /-- Groups that did not fit the slot and went to the function's spill area in device memory (R465). -/
  spill : List Nat
  groups : List Nat
  counters : Vector DWord 16
  newt : List Job
  deriving DecidableEq, Repr

/-- A compute die (R13, R83, R498, R499, R371). -/
structure Die where
  clock : ClockStep
  margin : Nat
  /-- When its ring oscillators were last measured (R499). -/
  aged : Nat
  errlog : List ErrEntry
  slots : Vector (Option Shadow) 2
  /-- Units held by the distributor: task and unit number (R371). -/
  units : List (Nat × Nat)
  /-- Groups of a unit of domain die that is being handed out: task, first level-1 group and how many (R371). -/
  pieces : List (Nat × Nat × Nat)
  deriving DecidableEq, Repr

/-- A die at reset (R20). -/
def Die.zero : Die where
  clock := .full
  margin := 0
  aged := 0
  errlog := []
  slots := Vector.replicate 2 none
  units := []
  pieces := []

/-- A cluster (R13, R490, R500, R406). -/
structure Cluster where
  counters : Vector DWord 16
  /-- Jobs at the Newt, oldest first (R371, R377). -/
  newt : List Job
  gated : Bool
  powered : Bool
  /-- Since when it has had no resident sheaf and no pending unit (R500). -/
  idle : Option Nat
  deriving DecidableEq, Repr

/-- A cluster bound to no partition: powered off (R500). -/
def Cluster.zero : Cluster := { counters := Vector.replicate 16 0, newt := [], gated := false, powered := false, idle := none }

/-- Kind of a scoreboard entry (R193). -/
inductive SbKind where
  | read | write
  deriving DecidableEq, Repr

/-- A range-scoreboard entry (R193), oldest first in its core's list; its owner is a batch or a loop of a sheaf. -/
structure SbEntry where
  core : Nat
  lo : Nat
  hi : Nat
  kind : SbKind
  loop : Bool
  sheaf : Nat
  /-- Handle of the CPY, or the accumulator of the loop. -/
  owner : Nat
  deriving DecidableEq, Repr

/-- A participant of a collective on this module whose descriptor the hub has matched (R486): its index, function and
context, source and destination, and where its descriptor lies, with its signal. -/
structure CollMember where
  index : Nat
  fn : Nat
  tag : BitVec 12
  dst : Nat
  host : Bool
  addr : Nat
  signal : Nat
  value : DWord
  /-- What it contributed. -/
  data : List Byte
  deriving DecidableEq, Repr

/-- A collective in progress (R486-R488), known by its ID and participant table. -/
structure Collective where
  cid : BitVec 32
  table : List Nat
  kind : Nat
  op : BitVec 4
  count : Nat
  members : List CollMember
  abandoned : List Nat
  /-- When its first descriptor was matched (R488). -/
  since : Nat
  deriving DecidableEq, Repr

/-- An answer Proenapin gave (R481). -/
structure SpdmAnswer where
  fn : Nat
  request : String
  content : List Nat
  signed : Option Nat
  deriving DecidableEq, Repr

/-- Firmware state (R477-R480). -/
structure Firmware where
  proenapin : Option FwImage
  monitor : Option FwImage
  /-- The security version the fuses record (R480). -/
  fuses : Nat
  policies : List Policy
  /-- Measurement blocks by index (R480). -/
  measured : List (Nat × Nat)
  answers : List SpdmAnswer
  failures : List String
  deriving DecidableEq, Repr

/-- A checkpoint of a repeatable task (R497): its groups as saved, their scoreboard entries, its bins, and the bytes and
line metadata of the saved scratchpads and of the driver's pages. -/
structure Checkpoint where
  task : Task
  sheaves : List Sheaf
  groups : List Group
  bins : List Bin
  entries : List SbEntry
  cells : List Host.Cell
  lines : List (Nat × BitVec 32)
  deriving DecidableEq, Repr

/-- Module power state (R500). -/
inductive Power where
  | d0 | d3hot
  deriving DecidableEq, Repr

/-- An entry of a translation cache, of a core or, from 512 on, of a cluster: whose page it is (R72). -/
structure Cached where
  cache : Nat
  tag : BitVec 12
  page : Nat
  size : Nat
  deriving DecidableEq, Repr

/-- The module. -/
structure State where
  /-- The sheaf in the issue slot (LOG 1). -/
  sh : Sheaf
  /-- The other sheaves, oldest ready stamp first (R380; LOG 1). -/
  peers : List Sheaf
  /-- Steps that other agents are due to make, first to come first (LOG 1). -/
  agenda : List Event
  gtc : DWord
  /-- Every byte memory of R62-R67 and R182, one list of key and byte, keys as Machine/Ops.lean lays them out. -/
  mem : List Host.Cell
  /-- Line metadata by line key (R85), canonical like memory. -/
  lines : List (Nat × BitVec 32)
  /-- Lines holding an uncorrectable error (R88, R90), by line key. -/
  badLines : List Nat
  /-- Arrays holding an error their code can correct, by line or register key, with its syndrome (R88, R89). -/
  weak : List (Nat × Nat)
  parking : List ParkedWrite
  /-- Frames that a migration has copied and whose page's parked writes are not replayed: old key, new key and length (R82). -/
  moves : List (Nat × Nat × Nat)
  groups : List Group
  tasks : List Task
  contexts : List Context
  bins : List Bin
  /-- Queues held by a WAIT (R368). -/
  held : List HeldWait
  /-- Writes of Iguana not made yet, oldest first (R515). -/
  iwrites : List IguanaWrite
  /-- Invalidations not complete yet: context, first address and length (R75). -/
  invalids : List (BitVec 12 × Nat × Nat)
  /-- What the translation caches of the cores and the clusters hold (R15, R17, R72). -/
  tlb : List Cached
  /-- Debug halts the monitor has reported to the driver: context and %sheaf (R445). -/
  halts : List (BitVec 12 × BitVec 32)
  fns : Vector VirtFn 96
  partitions : List Partition
  dies : Vector Die 8
  clusters : Vector Cluster 64
  scoreboard : List SbEntry
  /-- Cores halted by HALT, with the halting sheaf (R461). -/
  halted : List (Nat × Nat)
  /-- Deaths of paced groups not yet recorded on their cluster (R406). -/
  deaths : List Nat
  modId : BitVec 21
  routes : List (Nat × List Nat)
  power : Power
  /-- State of clusters that a swap saved to device memory (R465). -/
  saves : List Shadow
  /-- The residency slot each core sampled last, by core (R492). -/
  samples : List (Nat × Nat)
  hublog : List ErrEntry
  /-- Writes in the wake latch: function, register and value (R475). -/
  latch : List (Nat × Event)
  /-- MSI-X interrupts raised and not taken: function and source (R76, R447, R491). -/
  irqs : List (Nat × Nat)
  /-- Forwarding stubs: page, target module, expiry (R483). -/
  stubs : List (Nat × BitVec 21 × Nat)
  /-- NACKs answered to late writes: the writing module, the page, and the target's module ID they carry (R483). -/
  nacks : List (BitVec 21 × Nat × BitVec 21)
  collectives : List Collective
  firmware : Firmware
  checkpoints : List Checkpoint
  /-- Replay stop point: task, round, %sheaf, retired groups (R497). -/
  stop : Option (Nat × Nat × Nat × Nat)
  /-- MODEL's own: counts free values and new handles (LOG 4). -/
  fresh : Nat
  deriving DecidableEq, Repr

/-- Reasons the machine stops. -/
inductive Fault where
  /-- The sheaf ran past word C - 1 of its image; raised by the fetch of `step` (R348, LOG 7): R348
puts code at words 0 to C - 1 only, and the spec gives no outcome beyond. Safe: the model stops where the hardware would do
something. -/
  | pastCode
  deriving DecidableEq, Repr

/-- Reasons a step is refused. -/
inductive Refusal where
  /-- The instruction has no meaning yet; raised by an arm of Machine/Dispatch.lean only. Safe: nothing is claimed
  of the instruction. -/
  | notModelled (mnemonic : String)
  deriving DecidableEq, Repr

/-- Firmware before the first module reset has been verified (R480). -/
def Firmware.zero : Firmware where
  proenapin := none
  monitor := none
  fuses := 0
  policies := []
  measured := []
  answers := []
  failures := []

/-- The module right after reset: no partition, context, task or sheaf exists; every register the spec gives a reset
value holds it (R7, R20, R76, R81, R85, R207, R365, R484, R490-R494); the others as LOG 2 and LOG 3 name them. -/
def State.reset : State where
  sh := Sheaf.absent
  peers := []
  agenda := []
  gtc := 0
  mem := []
  lines := []
  badLines := []
  weak := []
  parking := []
  moves := []
  groups := []
  tasks := []
  contexts := []
  bins := []
  held := []
  iwrites := []
  invalids := []
  tlb := []
  halts := []
  fns := Vector.replicate 96 VirtFn.zero
  partitions := []
  dies := Vector.replicate 8 Die.zero
  clusters := Vector.replicate 64 Cluster.zero
  scoreboard := []
  halted := []
  deaths := []
  modId := 0
  routes := []
  power := .d0
  saves := []
  samples := []
  hublog := []
  latch := []
  irqs := []
  stubs := []
  nacks := []
  collectives := []
  firmware := Firmware.zero
  checkpoints := []
  stop := none
  fresh := 0

end Sys2Proof.Machine
end

