-- ==== Sys2Proof/Machine/Mem.lean ====
section
/-!
DEFINITION. Memory: one canonical list of cells over keys that name a space and an address, the line metadata beside
it, little-endian access (R4), and the page-table walk (R68-R71).
-/

namespace Sys2Proof.Machine

open Sys2Proof

/-! ### Canonical stores: a sorted list of key and value, with a default for every unlisted key -/

/-- What a key holds. -/
def storeRead {α : Type} (dflt : Nat → α) : List (Nat × α) → Nat → α
  | [], k => dflt k
  | (a, v) :: r, k => if a = k then v else storeRead dflt r k

/-- Insert or replace the entry of `k`, keeping the order. -/
def storeInsert {α : Type} (k : Nat) (v : α) : List (Nat × α) → List (Nat × α)
  | [] => [(k, v)]
  | (a, b) :: r => if a < k then (a, b) :: storeInsert k v r else if a = k then (k, v) :: r else (k, v) :: (a, b) :: r

/-- Write a value; the default value removes the entry, so equal stores are equal lists. -/
def storeWrite {α : Type} [DecidableEq α] (dflt : Nat → α) (m : List (Nat × α)) (k : Nat) (v : α) : List (Nat × α) :=
  if v = dflt k then m.filter (fun c => c.1 ≠ k) else storeInsert k v m

/-- The canonical form: keys strictly rising from `lo`, no entry at its default. -/
def storeWfFrom {α : Type} [DecidableEq α] (dflt : Nat → α) : Nat → List (Nat × α) → Bool
  | _, [] => true
  | lo, (a, v) :: r => decide (lo ≤ a) && decide (v ≠ dflt a) && storeWfFrom dflt (a + 1) r

/-! ### Keys -/

/-- Size of one space of keys. -/
def spaceSize : Nat := 2 ^ 64
/-- GDDR tier address (R70). -/
def gddrKey (a : Nat) : Nat := a
/-- LPDDR tier address (R70). -/
def lpddrKey (a : Nat) : Nat := spaceSize + a
/-- Host I/O virtual address under the requester ID of virtual function `fn` (R62, R67): the host translates the address of
each function for itself. -/
def hostKey (fn a : Nat) : Nat := (8 + fn) * spaceSize + a
/-- Fabric address (R62, R66). -/
def peerKey (a : Nat) : Nat := 3 * spaceSize + a
/-- Byte `off` of core `c`'s physical scratchpad (R182). -/
def spadKey (c off : Nat) : Nat := 4 * spaceSize + c * 2 ^ 20 + off
/-- Byte `off` of group `gid`'s allocation in the save area (R452), outside every address a program names. -/
def saveKey (gid off : Nat) : Nat := 5 * spaceSize + gid * 2 ^ 20 + off
/-- The registers of a sheaf by its handle, as the scrubber and the error logs name them (R88). -/
def registerKey (uid : Nat) : Nat := 6 * spaceSize + uid
/-- Byte `off` of a repeatable sheaf's 64 KiB store buffer (R470): the field `buf` holds what it holds. -/
def bufKey (uid off : Nat) : Nat := 6 * spaceSize + 2 ^ 62 + uid * 2 ^ 16 + off
/-- Byte `off` of a die's buffer (R88). -/
def dieBufKey (die off : Nat) : Nat := 6 * spaceSize + 2 ^ 63 + die * 2 ^ 32 + off
/-- Byte `off` of the records of a saved group (R452), all of its state but the scratchpad. -/
def recordKey (gid off : Nat) : Nat := 7 * spaceSize + gid * 2 ^ 24 + off
/-- Key of a tier's address (R69, R70); of a host page before its requester is known, and of a peer page before its fabric
address is resolved (R66, R67). -/
def tierKey (tier a : Nat) : Nat := tier * spaceSize + a
/-- The line a byte lies in (R85): keys of every space are aligned alike. -/
def lineOf (k : Nat) : Nat := k - k % 64
/-- The key lies in scratchpad. -/
def isSpad (k : Nat) : Bool := decide (4 * spaceSize ≤ k) && decide (k < 5 * spaceSize)
/-- The key lies in host or peer memory, which carries no metadata (R85). -/
def isForeign (k : Nat) : Bool := (decide (2 * spaceSize ≤ k) && decide (k < 4 * spaceSize)) || decide (8 * spaceSize ≤ k)

/-- What an unlisted byte reads as: 0. DESIGN CHOICE (LOG 3). -/
def byteDefault (_ : Nat) : Byte := 0

/-- Metadata of an unlisted line: OWNER 0, SCALE 127, FMT 0 (R85); a host or peer line carries none and arrives with
descriptor 0x0000. -/
def lineDefault (k : Nat) : BitVec 32 := if isForeign k then 0 else 0x7F00

/-- The memory holds its canonical form. -/
def Memory.wf (m : List Host.Cell) : Bool := storeWfFrom byteDefault 0 m

/-- The line metadata holds its canonical form. -/
def Memory.linesWf (m : List (Nat × BitVec 32)) : Bool := storeWfFrom lineDefault 0 m

/-- Read one byte. -/
def readByte (m : List Host.Cell) (k : Nat) : Byte := storeRead byteDefault m k

/-- Write one byte. -/
def writeByte (m : List Host.Cell) (k : Nat) (v : Byte) : List Host.Cell := storeWrite byteDefault m k v

/-- Read `n` bytes from `k` upward. -/
def readBytes (m : List Host.Cell) (k : Nat) : Nat → List Byte
  | 0 => []
  | n + 1 => readByte m k :: readBytes m (k + 1) n

/-- Write bytes from `k` upward. -/
def writeBytes (m : List Host.Cell) (k : Nat) : List Byte → List Host.Cell
  | [] => m
  | b :: r => writeBytes (writeByte m k b) (k + 1) r

/-- The number little-endian bytes stand for (R4). -/
def leNat : List Byte → Nat
  | [] => 0
  | b :: r => b.toNat + 256 * leNat r

/-- The `n` little-endian bytes of a number (R4). -/
def leBytes : Nat → Nat → List Byte
  | 0, _ => []
  | n + 1, x => BitVec.ofNat 8 x :: leBytes n (x / 256)

/-- Read an `n`-byte little-endian number. -/
def readLE (m : List Host.Cell) (k n : Nat) : Nat := leNat (readBytes m k n)

/-- Metadata of the line of a byte. -/
def lineMeta (l : List (Nat × BitVec 32)) (k : Nat) : BitVec 32 := storeRead lineDefault l (lineOf k)

/-- Descriptor of the line of a byte (R112). -/
def lineDesc (l : List (Nat × BitVec 32)) (k : Nat) : BitVec 16 := (lineMeta l k).extractLsb' 0 16

/-- Set OWNER of a line, keeping its descriptor (R86). -/
def setOwner (l : List (Nat × BitVec 32)) (k : Nat) (tag : BitVec 12) : List (Nat × BitVec 32) :=
  if isForeign k then l
  else storeWrite lineDefault l (lineOf k) ((0#4 ++ tag) ++ lineDesc l k)

/-- Set the descriptor and OWNER of a line (R86, R127). -/
def setDesc (l : List (Nat × BitVec 32)) (k : Nat) (tag : BitVec 12) (d : BitVec 16) : List (Nat × BitVec 32) :=
  if isForeign k then l else storeWrite lineDefault l (lineOf k) ((0#4 ++ tag) ++ d)

/-- Mark the owner of every line that bytes from `k` upward touch. -/
def setOwners (l : List (Nat × BitVec 32)) (k : Nat) (tag : BitVec 12) : Nat → List (Nat × BitVec 32)
  | 0 => l
  | n + 1 => setOwner (setOwners l k tag n) (k + n) tag

/-- Write bytes and take the lines' ownership (R86): the one way a byte of memory is written. Only the first and
last byte of an aligned access of at most 64 bytes can name a line, so the owner is set at both ends and at every
line start between. DESIGN CHOICE (LOG 21): the descriptor stays as it is under a write of the whole line too, also where that
replaces a line in error: R86 says so of a partial write and the spec is silent of the other. -/
def State.putBytes (s : State) (tag : BitVec 12) (k : Nat) (bs : List Byte) : State :=
  { s with
    mem := writeBytes s.mem k bs
    lines := if bs.isEmpty then s.lines
      else (List.range ((k + bs.length - 1) / 64 - k / 64 + 1)).foldl
        (fun l j => setOwner l (lineOf k + 64 * j) tag) s.lines }

/-- Write a descriptor (R127). -/
def State.putDesc (s : State) (tag : BitVec 12) (k : Nat) (d : BitVec 16) : State :=
  { s with lines := setDesc s.lines k tag d }

/-- Clear a range: data 0, descriptor 0x0000, owner `tag` on every line (R65, R90). -/
def State.clearRange (s : State) (tag : BitVec 12) (k len : Nat) : State :=
  { s with
    mem := s.mem.filter (fun c => c.1 < k || k + len ≤ c.1)
    badLines := s.badLines.filter (fun l => l < k || k + len ≤ l)
    lines := (List.range (len / 64)).foldr (fun j l => setDesc l (k + 64 * j) tag 0) s.lines }

/-- A range as it is at reset: nothing listed, no error (R85). -/
def State.dropRange (s : State) (k len : Nat) : State :=
  { s with
    mem := s.mem.filter (fun c => c.1 < k || k + len ≤ c.1)
    badLines := s.badLines.filter (fun l => l < k || k + len ≤ l)
    lines := s.lines.filter (fun c => c.1 < k || k + len ≤ c.1) }

/-! ### Translation -/

/-- Kinds of access (R77). -/
inductive Access where
  | load | store | atomic | copySrc | copyDst
  deriving DecidableEq, Repr

/-- Access code of a notification record (R77). -/
def Access.code : Access → BitVec 8
  | .load => 0 | .store => 1 | .atomic => 2 | .copySrc => 3 | .copyDst => 4

/-- A translated access: the byte's key, its page in virtual memory, the key of the page's front frame, page size,
counter enable, write-block and the die that owns the frame (none for host and peer frames). -/
structure Mapped where
  key : Nat
  page : Nat
  frame : Nat
  size : Nat
  ce : Bool
  wb : Bool
  psel : Nat
  die : Option Nat
  pte : Nat
  deriving DecidableEq, Repr

/-- Outcome of a translation: mapped, a recoverable fault (R74), or PROT (R71). -/
inductive Xlat where
  | ok (m : Mapped) | fault | prot
  deriving DecidableEq, Repr

/-- Bits hi:lo of a number. -/
def bits (x hi lo : Nat) : Nat := x / 2 ^ lo % 2 ^ (hi - lo + 1)

/-- The frame lies in its tier (R70). -/
def frameInTier (tier a : Nat) : Bool :=
  if tier = 0 then a / 2 ^ 39 = 0 && bits a 35 33 < 6
  else if tier = 1 then a / 2 ^ 41 = 0
  else true

/-- The die that owns a frame (R70). -/
def frameDie (tier a : Nat) : Option Nat :=
  if tier = 0 then some (bits a 38 36) else if tier = 1 then some (bits a 40 38) else none

/-- A leaf entry at a level of page size 2^`sh` (R69, R71). -/
def leafXlat (va pteKey : Nat) (e sh : Nat) (acc : Access) : Xlat :=
  let tier := bits e 3 2
  let psel := bits e 7 6
  let frame := if tier = 0 || tier = 1 then e / 2 ^ 16 * 2 ^ 16 else (e / 2 ^ 16 * 2 ^ 16) % 2 ^ 64
  let isWrite := acc = .store || acc = .atomic
  if bits e 15 10 ≠ 0 || psel = 1 || frame % 2 ^ sh ≠ 0 then .prot
  else if !frameInTier tier frame then .prot
  else if bits e 8 8 = 1 then .prot
  else if (isWrite || acc = .copyDst) && bits e 1 1 = 0 then .prot
  else if isWrite && psel ≠ 0 then .prot
  else
    let shadow := if psel = 2 then acc = .copyDst else if psel = 3 then acc ≠ .copyDst else false
    let f := tierKey tier frame
    .ok { key := f + (if shadow then 2 ^ sh else 0) + va % 2 ^ sh, page := va / 2 ^ sh * 2 ^ sh, frame := f,
          size := 2 ^ sh, ce := bits e 4 4 = 1, wb := bits e 5 5 = 1, psel := psel, die := frameDie tier frame,
          pte := pteKey }

/-- Index bits of a level (R68): shift and entries. -/
def levelShift : Nat → Nat
  | 0 => 39 | 1 => 30 | 2 => 21 | _ => 16

/-- A well-formed pointer entry (R69, R71): reserved bits zero, tier 0 or 1. -/
def pointerOk (e level : Nat) : Bool :=
  e / 2 ^ 43 = 0 && bits e 9 4 = 0 && bits e 1 1 = 0 && bits e 3 2 < 2 && (level = 2 || bits e 11 10 = 0)

/-- The four-level walk (R68): `fuel` levels left below `level`. -/
def walk (m : List Host.Cell) (va : Nat) (acc : Access) : Nat → Nat → Nat → Xlat
  | 0, _, _ => .prot
  | fuel + 1, level, table =>
    let idx := va / 2 ^ levelShift level % (if level = 3 then 32 else 512)
    let key := table + 8 * idx
    let e := readLE m key 8
    if e % 2 = 0 then .fault
    else if level = 3 then leafXlat va key e 16 acc
    else if bits e 9 9 = 1 then
      if level = 0 then .prot else leafXlat va key e (levelShift level) acc
    else if !pointerOk e level then .prot
    else walk m va acc fuel (level + 1) (tierKey (bits e 3 2) (e % 2 ^ 43 / 2 ^ 10 * 2 ^ 10))

/-- Keys of the entries that a walk reads (R68), with `walk`'s arguments. -/
def walkKeys (m : List Host.Cell) (va : Nat) : Nat → Nat → Nat → List Nat
  | 0, _, _ => []
  | fuel + 1, level, table =>
    let key := table + 8 * (va / 2 ^ levelShift level % (if level = 3 then 32 else 512))
    let e := readLE m key 8
    if e % 2 = 0 || level = 3 || bits e 9 9 = 1 || !pointerOk e level then [key]
    else key :: walkKeys m va fuel (level + 1) (tierKey (bits e 3 2) (e % 2 ^ 43 / 2 ^ 10 * 2 ^ 10))

/-- Translate a 48-bit device virtual address under a root table (R68). -/
def translate (m : List Host.Cell) (root va : Nat) (acc : Access) : Xlat := walk m va acc 4 0 root

/-! ### From a frame back to its page -/

/-- Indices of the entries of a table that memory lists. -/
def tableEntries (m : List Host.Cell) (table n : Nat) : List Nat :=
  ((m.filter fun c => table ≤ c.1 && c.1 < table + 8 * n).map fun c => (c.1 - table) / 8).dedup

/-- The pages below a table whose front frame holds a key: `fuel` levels left below `level`, `va` the address so far. -/
def pagesOf (m : List Host.Cell) (key : Nat) : Nat → Nat → Nat → Nat → List Mapped
  | 0, _, _, _ => []
  | fuel + 1, level, table, va =>
    (tableEntries m table (if level = 3 then 32 else 512)).flatMap fun idx =>
      let e := readLE m (table + 8 * idx) 8
      let here := va + idx * 2 ^ levelShift level
      let leaf := fun (sh : Nat) => match leafXlat here (table + 8 * idx) e sh .load with
        | .ok p => if p.frame ≤ key && key < p.frame + p.size then [{ p with key := key }] else []
        | _ => []
      if e % 2 = 0 then []
      else if level = 3 then leaf 16
      else if bits e 9 9 = 1 then (if level = 0 then [] else leaf (levelShift level))
      else if !pointerOk e level then []
      else pagesOf m key fuel (level + 1) (tierKey (bits e 3 2) (e % 2 ^ 43 / 2 ^ 10 * 2 ^ 10)) here

/-- The virtual address of a mapped key. -/
def Mapped.va (m : Mapped) : Nat := m.page + (m.key - m.frame)

end Sys2Proof.Machine
end

