-- ==== Sys2Proof/Machine/Flags.lean ====
section
/-!
DEFINITION. Floating point and the exception flags (R91-R104): formats, exact values, the single rounding, NaN
choice, and what each operation raises. Encodings are numbers of the format's width.
-/

namespace Sys2Proof.Machine

open Sys2Proof

/-! ### Formats and classes -/

/-- A binary interchange format (R91): fraction and exponent widths. -/
structure Fmt where
  frac : Nat
  exp : Nat
  deriving DecidableEq, Repr

def f64 : Fmt := ⟨52, 11⟩
def f32 : Fmt := ⟨23, 8⟩
def f16 : Fmt := ⟨10, 5⟩
def bf16 : Fmt := ⟨7, 8⟩

/-- Exponent bias (R91). -/
def Fmt.bias (f : Fmt) : Nat := 2 ^ (f.exp - 1) - 1
/-- Encoding of +∞. -/
def Fmt.inf (f : Fmt) : Nat := (2 ^ f.exp - 1) * 2 ^ f.frac
/-- The sign bit's weight. -/
def Fmt.signBit (f : Fmt) : Nat := 2 ^ (f.frac + f.exp)
/-- The quiet bit's weight (R92). -/
def Fmt.quiet (f : Fmt) : Nat := 2 ^ (f.frac - 1)
/-- The encoding without its sign. -/
def Fmt.mag (f : Fmt) (x : Nat) : Nat := x % f.signBit
/-- The sign. -/
def Fmt.neg (f : Fmt) (x : Nat) : Bool := f.signBit ≤ x
/-- A NaN (R92). -/
def Fmt.isNaN (f : Fmt) (x : Nat) : Bool := f.inf < f.mag x
/-- A signalling NaN (R92). -/
def Fmt.isSNaN (f : Fmt) (x : Nat) : Bool := f.isNaN x && x % (2 * f.quiet) < f.quiet
/-- An infinity. -/
def Fmt.isInf (f : Fmt) (x : Nat) : Bool := f.mag x = f.inf
/-- A zero. -/
def Fmt.isZero (f : Fmt) (x : Nat) : Bool := f.mag x = 0
/-- A subnormal (R92). -/
def Fmt.isSub (f : Fmt) (x : Nat) : Bool := f.mag x ≠ 0 && f.mag x < 2 ^ f.frac
/-- The NaN quieted, sign and payload kept (R102). -/
def Fmt.quieted (f : Fmt) (x : Nat) : Nat := if f.isSNaN x then x + f.quiet else x
/-- The generated NaN of cause c (R103). -/
def Fmt.genNaN (f : Fmt) (c : Nat) : Nat := f.inf + f.quiet + c
/-- An encoding with a sign. -/
def Fmt.signed (f : Fmt) (neg : Bool) (m : Nat) : Nat := if neg then f.signBit + m else m

/-! ### Exceptions -/

/-- Exceptions of one operation, in the bit order of R98: INV, DZ, OVF, UNF, INX from bit 0. -/
abbrev Exc := BitVec 5
def Exc.none : Exc := 0
def Exc.inv : Exc := 1
def Exc.dz : Exc := 2
def Exc.ovf : Exc := 4
def Exc.unf : Exc := 8
def Exc.inx : Exc := 16

/-- Invalid when the condition holds. -/
def Exc.invIf (b : Bool) : Exc := if b then Exc.inv else Exc.none

/-- A result with what it raised. -/
structure FRes where
  val : Nat
  exc : Exc
  deriving DecidableEq, Repr

/-- The mode fields an operation captures (R94, R96, R99). -/
structure FMode where
  rm : BitVec 2
  daz : Bool
  ftz32 : Bool
  ftz16 : Bool
  deriving DecidableEq, Repr

/-- The captured fields of %mode (R99). -/
def FMode.of (m : DWord) : FMode :=
  { rm := m.extractLsb' 0 2, daz := m.getLsbD 3, ftz32 := m.getLsbD 2, ftz16 := m.getLsbD 4 }

/-- Flush control of a format (R96). -/
def FMode.ftz (m : FMode) (f : Fmt) : Bool := if f.frac = 23 || f.frac = 52 then m.ftz32 else m.ftz16

/-- The mode of floating atomics and collectives (R130, R487). -/
def FMode.atomic : FMode := { rm := 0, daz := false, ftz32 := false, ftz16 := false }

/-! ### Exact values -/

/-- An exact dyadic real m × 2^e. -/
structure Dyadic where
  m : Int
  e : Int
  deriving DecidableEq, Repr

def Dyadic.zero : Dyadic := ⟨0, 0⟩
/-- Exact sum. -/
def Dyadic.add (x y : Dyadic) : Dyadic :=
  if x.m = 0 then y else if y.m = 0 then x
  else if x.e ≤ y.e then ⟨x.m + y.m * 2 ^ (y.e - x.e).toNat, x.e⟩
  else ⟨x.m * 2 ^ (x.e - y.e).toNat + y.m, y.e⟩
/-- Exact product. -/
def Dyadic.mul (x y : Dyadic) : Dyadic := ⟨x.m * y.m, x.e + y.e⟩
/-- Exact x < y. -/
def Dyadic.lt (x y : Dyadic) : Bool := (x.add ⟨-y.m, y.e⟩).m < 0
/-- Times 2^k. -/
def Dyadic.scale (x : Dyadic) (k : Int) : Dyadic := ⟨x.m, x.e + k⟩

/-- The exact value of a finite encoding (R91). -/
def Fmt.value (f : Fmt) (x : Nat) : Dyadic :=
  let e := f.mag x / 2 ^ f.frac
  let fr := x % 2 ^ f.frac
  let m : Nat := if e = 0 then fr else 2 ^ f.frac + fr
  ⟨if f.neg x then -(m : Int) else m, (if e = 0 then 1 else (e : Int)) - f.bias - f.frac⟩

/-! ### Rounding (R94, R96) -/

/-- Whether a truncated magnitude is raised by one unit: `odd` its last bit, `rem` the part cut off of `whole`. -/
def roundsUp (rm : BitVec 2) (neg odd : Bool) (rem whole : Nat) : Bool :=
  match rm.toNat with
  | 0 => whole < 2 * rem || (whole = 2 * rem && odd)
  | 1 => false
  | 2 => rem ≠ 0 && !neg
  | _ => rem ≠ 0 && neg

/-- Round m × 2^e to a multiple of 2^q: the multiple and whether it is inexact. -/
def roundTo (rm : BitVec 2) (neg : Bool) (m : Nat) (e q : Int) : Nat × Bool :=
  if q ≤ e then (m * 2 ^ (e - q).toNat, false)
  else
    let w := 2 ^ (q - e).toNat
    let n := m / w
    let r := m % w
    (if roundsUp rm neg (n % 2 = 1) r w then n + 1 else n, r ≠ 0)

/-- round(x, fmt, mode) of a nonzero exact value, with flushing and what it raises (R94, R96, R97). -/
def Fmt.round (f : Fmt) (md : FMode) (neg : Bool) (m : Nat) (e : Int) : FRes :=
  let top : Int := e + Nat.log2 m
  let emin : Int := 1 - f.bias
  let q := max (top - f.frac) (emin - f.frac)
  let (n, inexact) := roundTo md.rm neg m e q
  let code := n + ((q + f.frac + f.bias).toNat - 1) * 2 ^ f.frac
  let tiny := top < emin && !(top = emin - 1 && (roundTo md.rm neg m e (top - f.frac)).1 = 2 ^ (f.frac + 1))
  if f.inf ≤ code then
    let toInf := match md.rm.toNat with | 0 => true | 1 => false | 2 => !neg | _ => neg
    ⟨f.signed neg (if toInf then f.inf else f.inf - 1), Exc.ovf ||| Exc.inx⟩
  else if tiny && md.ftz f then ⟨f.signed neg 0, Exc.unf ||| Exc.inx⟩
  else ⟨f.signed neg code, (if inexact then Exc.inx else 0) ||| (if tiny && inexact then Exc.unf else 0)⟩

/-- Round an exact value; a zero takes the sign given (R95). -/
def Fmt.roundDy (f : Fmt) (md : FMode) (x : Dyadic) (zeroNeg : Bool) : FRes :=
  if x.m = 0 then ⟨f.signed zeroNeg 0, 0⟩ else f.round md (x.m < 0) x.m.natAbs x.e

/-- Sign of an exact zero sum of two terms (R95). -/
def zeroSumNeg (rm : BitVec 2) (xz xn yz yn : Bool) : Bool :=
  if xz && yz && xn == yn then xn else rm = 3

/-! ### Operand read and result (R241) -/

/-- IN(x, fmt): the operand as read, DAZ applied. -/
def Fmt.inp (f : Fmt) (md : FMode) (x : Nat) : Nat := if md.daz && f.isSub x then f.signed (f.neg x) 0 else x

/-- The first NaN of the inputs, quieted (R102 rule 1). -/
def Fmt.firstNaN (f : Fmt) (xs : List Nat) : Option Nat := (xs.find? f.isNaN).map f.quieted

/-- OUT(…): NaN rules first, then the value (R102, R241). `bad` is the cause of an invalid operation. -/
def Fmt.out (f : Fmt) (ins : List Nat) (bad : Option Nat) (res : FRes) : FRes :=
  let inv := Exc.invIf (ins.any f.isSNaN || bad.isSome)
  match f.firstNaN ins, bad with
  | some x, _ => ⟨x, inv⟩
  | none, some c => ⟨f.genNaN c, inv⟩
  | none, none => res

/-- a + b or, with `sub`, a − b (R258). -/
def Fmt.addSub (f : Fmt) (md : FMode) (sub : Bool) (a0 b0 : Nat) : FRes :=
  let a := f.inp md a0
  let b := f.inp md b0
  let bn := f.neg b != sub
  let bad := if f.isInf a && f.isInf b && f.neg a != bn then some 3 else none
  let bv := f.value b
  f.out [a, b] bad
    (if f.isInf a then ⟨a, 0⟩ else if f.isInf b then ⟨f.signed bn f.inf, 0⟩
     else f.roundDy md ((f.value a).add (if sub then ⟨-bv.m, bv.e⟩ else bv))
            (zeroSumNeg md.rm (f.isZero a) (f.neg a) (f.isZero b) bn))

/-- a × b (R258). -/
def Fmt.mul (f : Fmt) (md : FMode) (a0 b0 : Nat) : FRes :=
  let a := f.inp md a0
  let b := f.inp md b0
  let neg := f.neg a != f.neg b
  let bad := if (f.isZero a && f.isInf b) || (f.isInf a && f.isZero b) then some 4 else none
  f.out [a, b] bad
    (if f.isInf a || f.isInf b then ⟨f.signed neg f.inf, 0⟩
     else f.roundDy md ((f.value a).mul (f.value b)) neg)

/-- a × b + d or, with `sub`, a × b − d, rounded once (R258). -/
def Fmt.fma (f : Fmt) (md : FMode) (sub : Bool) (a0 b0 d0 : Nat) : FRes :=
  let a := f.inp md a0
  let b := f.inp md b0
  let d := f.inp md d0
  let pn := f.neg a != f.neg b
  let dn := f.neg d != sub
  let pInf := f.isInf a || f.isInf b
  let bad :=
    if (f.isZero a && f.isInf b) || (f.isInf a && f.isZero b) then some 4
    else if pInf && !(f.isNaN a || f.isNaN b) && f.isInf d && pn != dn then some 3
    else none
  let dv := f.value d
  f.out [a, b, d] bad
    (if pInf then ⟨f.signed pn f.inf, 0⟩ else if f.isInf d then ⟨f.signed dn f.inf, 0⟩
     else f.roundDy md (((f.value a).mul (f.value b)).add (if sub then ⟨-dv.m, dv.e⟩ else dv))
            (zeroSumNeg md.rm (f.isZero a || f.isZero b) pn (f.isZero d) dn))

/-- Order key of a non-NaN encoding, −0 below +0 (R264). -/
def Fmt.ordKey (f : Fmt) (x : Nat) : Int := if f.neg x then -1 - (f.mag x : Int) else f.mag x

/-- Value key of a non-NaN encoding, −0 equal to +0 (R272). -/
def Fmt.valKey (f : Fmt) (x : Nat) : Int := if f.neg x then -(f.mag x : Int) else f.mag x

/-- Minimum or, with `isMax`, maximum (R264). -/
def Fmt.minMax (f : Fmt) (md : FMode) (isMax : Bool) (a0 b0 : Nat) : FRes :=
  let a := f.inp md a0
  let b := f.inp md b0
  let v :=
    if f.isNaN a then (if f.isNaN b then f.quieted a else b)
    else if f.isNaN b then a
    else if f.ordKey a = f.ordKey b then a
    else if (f.ordKey a < f.ordKey b) != isMax then a else b
  ⟨v, Exc.invIf (f.isSNaN a || f.isSNaN b)⟩

/-- FCMP and DCMP (R272): COND of R49, and the exceptions. -/
def Fmt.compare (f : Fmt) (md : FMode) (cond : BitVec 3) (a0 b0 : Nat) : Bool × Exc :=
  let a := f.inp md a0
  let b := f.inp md b0
  let nan := f.isNaN a || f.isNaN b
  let snan := f.isSNaN a || f.isSNaN b
  let x := f.valKey a
  let y := f.valKey b
  match cond.toNat with
  | 0 => (!nan && x = y, Exc.invIf snan)
  | 1 => (nan || x ≠ y, Exc.invIf snan)
  | 2 => (!nan && x < y, Exc.invIf nan)
  | 3 => (!nan && x ≤ y, Exc.invIf nan)
  | 4 => (!nan && y < x, Exc.invIf nan)
  | 5 => (!nan && y ≤ x, Exc.invIf nan)
  | 6 => (!nan, Exc.invIf snan)
  | _ => (nan, Exc.invIf snan)

/-- Round to an integral value (R268). -/
def Fmt.integral (f : Fmt) (md : FMode) (a0 : Nat) : FRes :=
  let a := f.inp md a0
  if f.isNaN a then ⟨f.quieted a, Exc.invIf (f.isSNaN a)⟩
  else if f.isInf a || f.isZero a then ⟨a, 0⟩
  else
    let v := f.value a
    let n := (roundTo md.rm (f.neg a) v.m.natAbs v.e 0).1
    let r := f.round { md with ftz32 := false, ftz16 := false } (f.neg a) n 0
    ⟨if n = 0 then f.signed (f.neg a) 0 else r.val, 0⟩

/-- FCLS (R270). -/
def classify32 (a : Nat) : Nat :=
  if f32.isSNaN a then 1 else if f32.isNaN a then 2
  else
    let n := f32.neg a
    if f32.isInf a then (if n then 4 else 512)
    else if f32.isZero a then (if n then 32 else 64)
    else if f32.isSub a then (if n then 16 else 128)
    else if n then 8 else 256

/-! ### Conversions (R104, R304) -/

/-- Float to float: one rounding, NaN kept and quieted with the payload bits that fit (R104). -/
def convFF (src dst : Fmt) (md : FMode) (a0 : Nat) : FRes :=
  let a := src.inp md a0
  let neg := src.neg a
  if src.isNaN a then
    let payload := src.quieted a % src.quiet
    ⟨dst.signed neg (dst.inf + dst.quiet + payload % dst.quiet), Exc.invIf (src.isSNaN a)⟩
  else if src.isInf a then ⟨dst.signed neg dst.inf, 0⟩
  else dst.roundDy md (src.value a) neg

/-- Integer to float (R104). -/
def convIF (dst : Fmt) (md : FMode) (x : Int) : FRes :=
  if x = 0 then ⟨0, 0⟩ else dst.round md (x < 0) x.natAbs 0

/-- Float to integer with saturation (R304): the integer and the exceptions. -/
def convFI (src : Fmt) (md : FMode) (lo hi : Int) (a0 : Nat) : Int × Exc :=
  let a := src.inp md a0
  if src.isNaN a then (0, Exc.inv)
  else if src.isInf a then (if src.neg a then lo else hi, Exc.inv)
  else
    let v := src.value a
    let (n, inexact) := roundTo md.rm (src.neg a) v.m.natAbs v.e 0
    let t : Int := if src.neg a then -(n : Int) else n
    if t < lo then (lo, Exc.inv) else if hi < t then (hi, Exc.inv)
    else (t, if inexact then Exc.inx else 0)

/-! ### Special functions (R314-R317) -/

/-- Integer square root by bits from `b` − 1 down, above the root `r` so far. -/
def isqrtFrom (n : Nat) : Nat → Nat → Nat
  | 0, r => r
  | b + 1, r => let t := r + 2 ^ b; isqrtFrom n b (if t * t ≤ n then t else r)

/-- RCP of a finite nonzero f32: round(1/a), a quotient with a sticky bit (R314). -/
def rcpFinite (md : FMode) (a : Nat) : FRes :=
  let v := f32.value a
  let m := v.m.natAbs
  let s := Nat.log2 m + 30
  let q := 2 ^ s / m
  let sticky := if 2 ^ s % m = 0 then 0 else 1
  f32.round md (f32.neg a) (2 * q + sticky) (-(s : Int) - v.e - 1)

/-- SQRT of a finite positive f32: round(√a), a root with a sticky bit (R314). -/
def sqrtFinite (md : FMode) (a : Nat) : FRes :=
  let v := f32.value a
  let odd : Nat := if v.e % 2 = 0 then 0 else 1
  let m := v.m.natAbs * 2 ^ (60 + odd)
  let e := v.e - 60 - odd
  let r := isqrtFrom m 44 0
  f32.round md false (2 * r + (if r * r = m then 0 else 1)) (e / 2 - 1)

/-- The exact result an approximate word must return, when R316 or R317 settles the input: the value and what it
raises before flushing. -/
def approxExact (fn : ApproxFn) (a : Nat) : Option FRes :=
  let neg := f32.neg a
  let v := f32.value a
  let m := v.m.natAbs
  let lg : Int := v.e + Nat.log2 m
  let pow2 := m = 2 ^ Nat.log2 m
  match fn with
  | .rsq =>
    if f32.isZero a then some ⟨f32.signed neg f32.inf, Exc.dz⟩
    else if neg then some ⟨f32.genNaN 5, Exc.inv⟩
    else if f32.isInf a then some ⟨0, 0⟩
    else if pow2 && lg % 2 = 0 && -126 ≤ -(lg / 2) && -(lg / 2) ≤ 127 then some ⟨(127 - lg / 2).toNat * 2 ^ 23, 0⟩
    else none
  | .exp2 =>
    if f32.isInf a then some ⟨if neg then 0 else f32.inf, 0⟩
    else if !neg && 0x43000000 ≤ a then some ⟨f32.inf, Exc.ovf ||| Exc.inx⟩
    else if f32.isZero a then some ⟨0x3F800000, 0⟩
    else if neg && 0x43150000 < f32.mag a then some ⟨0, Exc.unf ||| Exc.inx⟩
    else
      let n := m / 2 ^ (-v.e).toNat
      if v.e < 0 && m % 2 ^ (-v.e).toNat ≠ 0 then none
      else
        let whole : Nat := if v.e < 0 then n else m * 2 ^ v.e.toNat
        let k : Int := if neg then -(whole : Int) else whole
        some ⟨(f32.round FMode.atomic false 1 k).val, 0⟩
  | .log2 =>
    if f32.isZero a then some ⟨f32.signed true f32.inf, Exc.dz⟩
    else if neg then some ⟨f32.genNaN 5, Exc.inv⟩
    else if f32.isInf a then some ⟨a, 0⟩
    else if pow2 then some ⟨(convIF f32 FMode.atomic lg).val, 0⟩
    else none
  | .sin => if f32.isZero a then some ⟨a, 0⟩ else if f32.isInf a then some ⟨f32.genNaN 5, Exc.inv⟩ else none
  | .cos =>
    if f32.isZero a then some ⟨0x3F800000, 0⟩ else if f32.isInf a then some ⟨f32.genNaN 5, Exc.inv⟩ else none
  | .tanh =>
    if f32.isZero a then some ⟨a, 0⟩ else if f32.isInf a then some ⟨f32.signed neg 0x3F800000, 0⟩ else none

/-- Apply FTZ32 to a special function's result (R96, R314, R317). -/
def flush32 (md : FMode) (r : FRes) : FRes :=
  if f32.isSub r.val && md.ftz32 then ⟨f32.signed (f32.neg r.val) 0, r.exc ||| Exc.unf ||| Exc.inx⟩ else r

/-! The exact functions behind the bound of R315, as integers of 2^-240, and two constants in 2^-480 (LOG 8). -/

def fxBits : Nat := 240
def fxOne : Int := 2 ^ fxBits
/-- ln 2 in 2^-480. -/
def fxLn2 : Int :=
  0xb17217f7d1cf79abc9e3b39803f2f6af40f343267298b62d8a0d175b8baafa2be7b876206debac98559552fb4afa1b10ed2eae35c138214427573b29
/-- 2π in 2^-480. -/
def fxTwoPi : Int :=
  2 * 0x3243f6a8885a308d313198a2e03707344a4093822299f31d0082efa98ec4e6c89452821e638d01377be5466cf34e90c6cc0ac29b7c97c50dd3f84d5b5

/-- The first terms of a series from term k, `t`: each term follows from the one before. -/
def fxSeries (next : Nat → Int → Int) : Nat → Nat → Int → Int
  | 0, _, _ => 0
  | n + 1, k, t => t + fxSeries next n (k + 1) (next k t)

/-- A dyadic value in 2^-240. -/
def Dyadic.fx (x : Dyadic) : Int := if 0 ≤ x.e + fxBits then x.m * 2 ^ (x.e + fxBits).toNat else x.m / 2 ^ (-x.e - fxBits).toNat

/-- 2^x. -/
def fxExp2 (x : Int) : Int :=
  let n := x / fxOne
  let y := (x % fxOne) * fxLn2 / (fxOne * fxOne)
  let s := fxSeries (fun k t => t * y / (fxOne * (k + 1))) 70 0 fxOne
  if 0 ≤ n then s * 2 ^ n.toNat else s / 2 ^ (-n).toNat

/-- log2 of m × 2^e, m not 0: by the series of artanh over (u − 1)/(u + 1), u in [1, 2). -/
def fxLog2 (m : Nat) (e : Int) : Int :=
  let u : Int := (m : Int) * 2 ^ (fxBits - Nat.log2 m)
  let z := (u - fxOne) * fxOne / (u + fxOne)
  let z2 := z * z / fxOne
  let s := fxSeries (fun k t => t * z2 * (2 * k + 1) / (fxOne * (2 * k + 3))) 85 0 z
  (e + Nat.log2 m) * fxOne + 2 * s * fxOne / (fxLn2 / fxOne)

/-- sin x from `t` = x and `j` = 1, cos x from `t` = 1 and `j` = 0, x reduced by 2π. -/
def fxTrig (x : Int) (cos : Bool) : Int :=
  let r := (x * fxOne) % fxTwoPi / fxOne
  let r2 := r * r / fxOne
  let j : Int := if cos then 0 else 1
  fxSeries (fun k t => -(t * r2) / (fxOne * ((2 * k + j + 1) * (2 * k + j + 2)))) 50 0 (if cos then fxOne else r)

/-- tanh x, through 2^(2x / ln 2). -/
def fxTanh (x : Int) : Int :=
  if 64 * fxOne ≤ x then fxOne - 1
  else if x ≤ -(64 * fxOne) then 1 - fxOne
  else
    let y := fxExp2 (2 * x * fxOne / (fxLn2 / fxOne))
    (y - fxOne) * fxOne / (y + fxOne)

/-- The exact value of an approximate function at a finite input, in 2^-240. -/
def fxExact (fn : ApproxFn) (a : Nat) : Int :=
  let v := f32.value a
  match fn with
  | .rsq => isqrtFrom (2 ^ (2 * (fxBits : Int) - v.e).toNat / v.m.natAbs) 330 0
  | .exp2 => fxExp2 v.fx
  | .log2 => fxLog2 v.m.natAbs v.e
  | .sin => fxTrig v.fx false
  | .cos => fxTrig v.fx true
  | .tanh => fxTanh v.fx

/-- The bound of R315 around the exact value y, in 2^-240. -/
def fxBound (fn : ApproxFn) (a : Nat) (y : Int) : Int :=
  let ulp : Int := 2 ^ (max ((Nat.log2 y.natAbs : Int) - fxBits) (-126) - 23 + fxBits).toNat
  match fn with
  | .rsq | .exp2 => ulp
  | .log2 => if 0x3F000000 ≤ a && a ≤ 0x40000000 then 2 ^ (fxBits - 22) else ulp
  | .sin | .cos => 2 ^ (fxBits - 22)
  | .tanh => max (2 * ulp) (2 ^ (fxBits - 23))

/-- A result is one that R315 allows: finite, and as near as the bound asks. -/
def withinBound (fn : ApproxFn) (a x : Nat) : Bool :=
  let y := fxExact fn a
  let b := fxBound fn a y
  !f32.isNaN x && !f32.isInf x && decide (((f32.value x).fx - y).natAbs ≤ b)

/-- The f32 value nearest to the exact one. -/
def nearest (fn : ApproxFn) (a : Nat) : Nat :=
  let y := fxExact fn a
  if y = 0 then 0 else (f32.round FMode.atomic (y < 0) y.natAbs (-(fxBits : Int))).val

/-- What an approximate word returns where R316 and R317 settle nothing: the free value, where it lies within the bound of
R315 (LOG 8). -/
def approxValue (fn : ApproxFn) (md : FMode) (a0 a : Nat) : Nat :=
  let x := (Config.approx fn (BitVec.ofNat 32 a0) md.daz md.ftz32).toNat
  if withinBound fn a x then x else nearest fn a

/-- An approximate word on one lane: the exact cases, else a value within the bound, inexact, and underflow when it is tiny
(R314-R317). -/
def approxFn (fn : ApproxFn) (md : FMode) (a0 : Nat) : FRes :=
  let a := f32.inp md a0
  if f32.isNaN a then ⟨f32.quieted a, Exc.invIf (f32.isSNaN a)⟩
  else
    match approxExact fn a with
    | some r => flush32 md r
    | none =>
      let x := approxValue fn md a0 a
      flush32 md ⟨x, Exc.inx ||| (if f32.isSub x || f32.isZero x then Exc.unf else 0)⟩

/-- RCP (R314, R316). -/
def rcpFn (md : FMode) (a0 : Nat) : FRes :=
  let a := f32.inp md a0
  if f32.isNaN a then ⟨f32.quieted a, Exc.invIf (f32.isSNaN a)⟩
  else if f32.isZero a then ⟨f32.signed (f32.neg a) f32.inf, Exc.dz⟩
  else if f32.isInf a then ⟨f32.signed (f32.neg a) 0, 0⟩
  else rcpFinite md a

/-- SQRT (R314, R316). -/
def sqrtFn (md : FMode) (a0 : Nat) : FRes :=
  let a := f32.inp md a0
  if f32.isNaN a then ⟨f32.quieted a, Exc.invIf (f32.isSNaN a)⟩
  else if f32.isZero a then ⟨a, 0⟩
  else if f32.neg a then ⟨f32.genNaN 5, Exc.inv⟩
  else if f32.isInf a then ⟨a, 0⟩
  else sqrtFinite md a

/-! ### Residues (R106-R110) -/

/-- The channels of an ra32 word, reduced (R106, R108). -/
def raChannels (x : Nat) : Nat × Nat × Nat := (x % 1024 % 1023, x / 1024 % 1024, x / 2 ^ 20 % 2048 % 1025)
/-- An ra32 word of channels. -/
def raPack (c1 c2 c3 : Nat) : Nat := c3 * 2 ^ 20 + c2 * 2 ^ 10 + c1
/-- Encode an integer in ra32 (R108). -/
def raEncode (x : Int) : Nat := raPack (x % 1023).toNat (x % 1024).toNat (x % 1025).toNat
/-- The channels of an re16 element, reduced (R107, R108). -/
def reChannels (x : Nat) : Nat × Nat × Nat := (x % 32 % 31, x / 32 % 32, x / 2 ^ 10 % 64 % 33)
/-- An re16 element of channels. -/
def rePack (c1 c2 c3 : Nat) : Nat := c3 * 2 ^ 10 + c2 * 2 ^ 5 + c1
/-- Encode an integer in re16 (R108). -/
def reEncode (x : Int) : Nat := rePack (x % 31).toNat (x % 32).toNat (x % 33).toNat

/-- The signed integer that channels stand for (R110). -/
def residueValue (m1 m2 m3 h : Int) (c : Nat × Nat × Nat) : Int :=
  let a1 := ((c.1 : Int) - c.2.1) % m1
  let a3 := ((c.2.1 : Int) - c.2.2) % m3
  let b := ((a1 - a3) * h) % m3
  let x := c.2.1 + m2 * (a1 + m1 * b)
  if m1 * m2 * m3 ≤ 2 * x then x - m1 * m2 * m3 else x

/-- The signed value of an ra32 word (R110). -/
def raValue (x : Nat) : Int := residueValue 1023 1024 1025 513 (raChannels x)
/-- The signed value of an re16 element (R110). -/
def reValue (x : Nat) : Int := residueValue 31 32 33 17 (reChannels x)

end Sys2Proof.Machine
end

