-- ==== Sys2Proof/Machine/Operands.lean ====
section
/-!
DEFINITION. Operand codes (R35, R36, R39): reading and writing registers under the execution mask, the last-result
push (R38, R238), and the shape of every word's operands, from which the checks of R51 follow.
-/

namespace Sys2Proof.Machine

open Sys2Proof

/-! ### Registers by operand code -/

/-- A mask from a predicate on lanes. -/
def maskOf (p : Nat → Bool) : DWord := BitVec.ofBoolListLE ((List.range 64).map p) |>.setWidth 64

/-- Lanes of a mask, in ascending order. -/
def lanesOf (m : DWord) : List Nat := (List.range 64).filter (m.getLsbD ·)

/-- A mask of a list of lanes. -/
def lanesMask (ls : List Nat) : DWord := maskOf fun i => ls.contains i

/-- A row by lane. -/
def rowOf (f : Nat → Word) : Row := Vector.ofFn fun i : Fin 64 => f i.val

/-- Lane i of a row. -/
def laneOf (r : Row) (i : Nat) : Word := r.toArray.getD i 0

/-- Scalar register (R39): s0 reads 0. -/
def Regs.getS (r : Regs) (c : SCode) : DWord := if c = 0 then 0 else r.s[c.toNat]'(by have := c.isLt; omega)

/-- Write a scalar register (R39): writes to s0 are discarded. -/
def Regs.setS (r : Regs) (c : SCode) (x : DWord) : Regs :=
  if c = 0 then r else { r with s := r.s.set c.toNat x (by have := c.isLt; omega) }

/-- Predicate register. -/
def Regs.getK (r : Regs) (c : KCode) : DWord := r.k[c.toNat]'(by have := c.isLt; omega)
/-- Write a predicate register. -/
def Regs.setK (r : Regs) (c : KCode) (x : DWord) : Regs :=
  { r with k := r.k.set c.toNat x (by have := c.isLt; omega) }

/-- A vector register by code 0-107; other codes read the zero row. -/
def Regs.file (r : Regs) (c : Nat) : Row :=
  if c < 96 then r.v.toArray.getD c Row.zero
  else if c < 104 then r.o.toArray.getD (c - 96) Row.zero
  else if c < 108 then r.w.toArray.getD (c - 104) Row.zero
  else Row.zero

/-- Put a row into a v or o register; no other code is a destination register (R35). -/
def Regs.put (r : Regs) (c : Nat) (x : Row) : Regs :=
  if c < 96 then { r with v := r.v.setIfInBounds c x }
  else if c < 104 then { r with o := r.o.setIfInBounds (c - 96) x }
  else r

/-- A 32-bit source operand (R35). -/
def Regs.src (r : Regs) (c : VCode) : Row :=
  if c.toNat < 108 then r.file c.toNat
  else if c = 108 then Row.zero
  else if c = 109 then rowOf fun i => BitVec.ofNat 32 i
  else if c = 110 then rowOf fun _ => 32
  else if c = 111 then rowOf fun _ => 16
  else rowOf fun _ => (r.getS (c.setWidth 6 - 48)).setWidth 32

/-- A 64-bit source operand (R36). -/
def Regs.src64 (r : Regs) (c : VCode) (i : Nat) : DWord :=
  if c.toNat < 108 then laneOf (r.file (c.toNat + 1)) i ++ laneOf (r.file c.toNat) i
  else if c.toNat < 112 then (laneOf (r.src c) i).setWidth 64
  else r.getS (c.setWidth 6 - 48)

/-- Merge a row into an old one under a mask (R237). -/
def mergeRow (em : DWord) (old x : Row) : Row := rowOf fun i => if em.getLsbD i then laneOf x i else laneOf old i

/-- Write a 32-bit destination in the lanes of the mask (R237). -/
def Regs.write (r : Regs) (em : DWord) (c : Nat) (x : Row) : Regs := r.put c (mergeRow em (r.file c) x)

/-- WPUSH in every lane: the value in the mask's lanes, 0 elsewhere (R38, R238). -/
def Regs.push (r : Regs) (em : DWord) (x : Row) : Regs :=
  { r with w := #v[mergeRow em Row.zero x, r.w[0], r.w[1], r.w[2]] }

/-- Write and push a 32-bit result. -/
def Regs.result (r : Regs) (em : DWord) (d : VCode) (x : Row) : Regs := (r.write em d.toNat x).push em x

/-- Write and push a 64-bit result: the low half first (R38). -/
def Regs.result64 (r : Regs) (em : DWord) (d : VCode) (f : Nat → DWord) : Regs :=
  let lo := rowOf fun i => (f i).setWidth 32
  let hi := rowOf fun i => (f i).extractLsb' 32 32
  (((r.write em d.toNat lo).write em (if d.toNat < 104 then d.toNat + 1 else 127) hi).push em lo).push em hi

/-- The registers sources read: those of the start of the group (R32). -/
def Sheaf.rd (h : Sheaf) : Regs := h.snap.getD h.regs

/-- The mask words act under: that of the start of the group (R204). -/
def Sheaf.em (h : Sheaf) : DWord := h.rd.em

/-- %mode as captured by a word that issues now (R99). -/
def Sheaf.fmode (h : Sheaf) : FMode := FMode.of h.rd.mode

/-! ### Shapes of the operands -/

/-- Pipes (R31, R47). -/
inductive Pipe where
  | ab | a | b | s | m
  deriving DecidableEq, Repr

/-- Bounded queues of a sheaf (R58). -/
inductive Bounded where
  | load | atomic | cpy | batch | mloop | spawn
  deriving DecidableEq, Repr

/-- What a word reads and writes: vector sources and destinations by code and number of registers, further ranges of v
registers, scalar, predicate and mask destinations; whether its other sub-fields are legal. -/
structure Use where
  pipe : Pipe
  src : List (VCode × Nat) := []
  dst : List (VCode × Nat) := []
  /-- A destination code 108 or a range whose code is checked by `ok`. -/
  reads : List (Nat × Nat) := []
  writes : List (Nat × Nat) := []
  /-- Register codes it names without a read or write of its own (R37): the accumulator of an MWAIT. -/
  named : List Nat := []
  sw : List SCode := []
  kw : List KCode := []
  emw : Bool := false
  ok : Bool := true
  queue : Option Bounded := none
  deriving DecidableEq, Repr

/-- A source code of a shape is legal (R35, R36). -/
def srcOk (c : VCode) (n : Nat) : Bool :=
  if n = 1 then true
  else if n = 2 then (c.toNat < 104 && c.toNat % 2 = 0) || 108 ≤ c.toNat
  else c.toNat < 96 && c.toNat % 4 = 0

/-- A destination code of a shape is legal (R35, R36, R116). -/
def dstOk (c : VCode) (n : Nat) : Bool :=
  c = 108 || (if n = 1 then c.toNat < 104 else if n = 2 then c.toNat < 104 && c.toNat % 2 = 0
    else c.toNat < 96 && c.toNat % 4 = 0)

/-- The v and o registers a code of a shape names. -/
def regsOf (c : VCode) (n : Nat) : List Nat := if c.toNat < 104 then (List.range n).map (c.toNat + ·) else []

/-- The v and o registers the word reads. -/
def Use.readRegs (u : Use) : List Nat :=
  u.src.flatMap (fun p => regsOf p.1 p.2) ++ u.reads.flatMap (fun p => (List.range p.2).map (p.1 + ·))
/-- The v and o registers the word writes. -/
def Use.writeRegs (u : Use) : List Nat :=
  u.dst.flatMap (fun p => regsOf p.1 p.2) ++ u.writes.flatMap (fun p => (List.range p.2).map (p.1 + ·))
/-- Every operand code and sub-field is legal (R51, check 3). -/
def Use.legal (u : Use) : Bool := u.ok && u.src.all (fun p => srcOk p.1 p.2) && u.dst.all (fun p => dstOk p.1 p.2)
/-- A v register code below 96 names a register, or a pair, quad or range with one, at or above the budget (R37; R51,
check 5). -/
def Use.overBudget (u : Use) (budget : Nat) : Bool :=
  let past := fun (c n : Nat) => c < 96 && n ≠ 0 && budget < c + n
  (u.src ++ u.dst).any (fun p => past p.1.toNat p.2) || (u.reads ++ u.writes).any (fun p => past p.1 p.2) || u.named.any fun c => past c 1

/-- The pipe of a major none of whose words takes another (R31, R47), of those with opcodes left unassigned. -/
def majorPipe (w : Word) : Option Pipe :=
  match (fMaj w).toNat with
  | 0x19 | 0x1A | 0x20 | 0x2F => some .s
  | 0x39 | 0x3B | 0x3C | 0x3D => some .m
  | _ => none

/-- A format code's shape (R303). -/
def cvtShape (c : BitVec 3) : Nat := if c = 2 || c = 6 then 2 else 1
/-- An assigned selector (R303). -/
def cvtOk (s d : BitVec 3) : Bool :=
  s ≠ d && s ≠ 7 && d ≠ 7 && ((3 ≤ s.toNat && s.toNat ≤ 6) || (3 ≤ d.toNat && d.toNat ≤ 6))

/-- The word writes a 64-bit pair: TFIX's reading of a saved word (R459). -/
def wordIsPair (w : Word) : Bool :=
  match (fMaj w).toNat with
  | 0x0C | 0x0D => true
  | 0x11 => (fFn2 w).toNat < 2 && cvtShape (w.extractLsb' 0 3) = 2
  | _ => false

/-- ACC of a configuration word (R275). -/
def cfgAcc (c : DWord) : Nat := (c.extractLsb' 4 2).toNat
/-- SEMI of a configuration word. -/
def cfgSemi (c : DWord) : Nat := (c.extractLsb' 0 3).toNat
/-- OFMT of a configuration word. -/
def cfgOfmt (c : DWord) : BitVec 8 := c.extractLsb' 40 8
/-- Registers of an accumulator (R274). -/
def accSize (c : DWord) : Nat := if cfgAcc c = 1 then 32 else 16
/-- D of MLOOP, MCVT and MZERO is legal (R294, R296, R298). -/
def accOk (c : DWord) (d : VCode) : Bool := d.toNat < 96 && (cfgAcc c ≠ 1 || d.toNat % 2 = 0)
/-- MCVT converts the pair (R296). -/
def mcvtOk (c : DWord) : Bool :=
  let o := (cfgOfmt c).toNat
  match cfgAcc c with
  | 2 => o = 0 || o = 2 || o = 3 || o = 4
  | 0 => o = 3 || o = 4
  | 1 => o = 0 || o = 2 || o = 3 || o = 4
  | _ => false
/-- A operand from registers, and its first register. -/
def cfgASrc (c : DWord) : Bool := c.getLsbD 8
def cfgAReg (c : DWord) : Nat := (c.extractLsb' 9 7).toNat
/-- B operand from registers, and its first register. -/
def cfgBSrc (c : DWord) : Bool := c.getLsbD 24
def cfgBReg (c : DWord) : Nat := (c.extractLsb' 25 7).toNat
/-- K-step count of an MLOOP (R277, R278). -/
def loopSteps (r : Regs) (c : DWord) (sa sb : SCode) : Nat :=
  if cfgASrc c && cfgBSrc c then 1
  else ((r.getS ((if cfgASrc c then sb else sa) + 1)).extractLsb' 32 16).toNat
/-- Register ranges an MLOOP reads (R279). -/
def loopRanges (r : Regs) (c : DWord) (sa sb : SCode) : List (Nat × Nat) :=
  let n := loopSteps r c sa sb
  (if cfgASrc c then [(cfgAReg c, 8 * n)] else []) ++ (if cfgBSrc c then [(cfgBReg c, 8 * n)] else [])

/-- A scope code exists (R46). -/
def scopeOk (s : BitVec 3) : Bool := s.toNat < 6
/-- The EXT of a load or store is legal: SCOPE, HINT, and ORD and SCOPE of a private access (R46, R42, R122). -/
def memExtOk (k : Bool) : Option MemExt → Bool
  | none => true
  | some e => scopeOk e.scope && e.hint ≠ 3 && (!k || (e.ord = 0 && e.scope = 0))

/-- Registers of a load or store of a width (R115). -/
def widthRegs (w : BitVec 3) : Nat := if w = 5 then 2 else if w = 6 then 4 else 1
/-- Bytes of an access of a width (R115). -/
def widthBytes (w : BitVec 3) : Nat :=
  match w.toNat with | 0 => 1 | 1 => 1 | 2 => 2 | 3 => 2 | 4 => 4 | 5 => 8 | _ => 16

/-- Bytes of an atomic (R129). -/
def atomBytes (op : BitVec 4) : Nat := if op = 1 || op = 11 || op = 13 then 8 else 4
/-- Registers of D (R129). -/
def atomRegs (op : BitVec 4) : Nat := if op = 11 then 4 else if op = 1 || op = 10 || op = 13 then 2 else 1
/-- Registers a returning atomic writes (R129). -/
def atomRet (op : BitVec 4) : Nat := if op = 1 || op = 11 || op = 13 then 2 else 1

/-- Use of a load (R114-R116). -/
def useLoad (k : Bool) (w : BitVec 3) (an : Nat) (d a : VCode) (e : Option MemExt) : Use :=
  { pipe := .m, src := [(a, an)], dst := [(d, widthRegs w)], ok := memExtOk k e, queue := some .load }
/-- Use of a store. -/
def useStore (k : Bool) (w : BitVec 3) (an : Nat) (d a : VCode) (e : Option MemExt) : Use :=
  { pipe := .m, src := [(a, an), (d, widthRegs w)], ok := memExtOk k e }
/-- Use of an atomic (R129): pairs and quads are register codes only. -/
def useAtom (an : Nat) (d a : VCode) (e : AtomExt) : Use :=
  let n := atomRegs e.op
  let shape := if n = 1 then !e.ret || d = 108 || d.toNat < 104
    else if n = 2 then d.toNat < 104 && d.toNat % 2 = 0 else d.toNat < 96 && d.toNat % 4 = 0
  { pipe := .m, src := [(a, an)], reads := if d.toNat < 104 then [(d.toNat, n)] else [],
    writes := if e.ret && d.toNat < 104 then [(d.toNat, atomRet e.op)] else [],
    ok := scopeOk e.scope && shape, queue := if e.ret then some .atomic else none }

/-- Three 32-bit operands. -/
def use3 (p : Pipe) (d a b : VCode) : Use := { pipe := p, src := [(a, 1), (b, 1)], dst := [(d, 1)] }
/-- Three pairs on pipe A. -/
def use3d (d a b : VCode) : Use := { pipe := .a, src := [(a, 2), (b, 2)], dst := [(d, 2)] }
/-- A unary word. -/
def use2 (p : Pipe) (d a : VCode) (n : Nat := 1) : Use := { pipe := p, src := [(a, n)], dst := [(d, n)] }
/-- A scalar word. -/
def useS (d : SCode) : Use := { pipe := .s, sw := [d] }

/-- What a word of a sheaf reads and writes, and whether its codes are legal (R35-R49, R115, R116, R129, R148, R234,
R239). -/
def Sheaf.use (h : Sheaf) : Instr → Use
  | .iadd d a b | .isub d a b | .imul d a b | .imulhi d a b | .imad d a b | .imin d a b | .imax d a b | .iabsd d a b
  | .nmin d a b | .nmax d a b | .nmulhi d a b | .iadds d a b | .and d a b | .or d a b | .xor d a b | .andn d a b
  | .shl d a b | .shr d a b | .sar d a b | .rotl d a b | .bfx d a b | .bfi d a b | .sel d a b | .idp4 d a b
  | .ndp4 d a b | .fadd d a b | .fsub d a b | .fmul d a b | .fma d a b | .fms d a b | .fmin d a b | .fmax d a b
  | .fcps d a b | .hadd2 d a b | .hmul2 d a b | .hfma2 d a b | .hmax2 d a b | .badd2 d a b | .bmul2 d a b
  | .bfma2 d a b | .bmax2 d a b => use3 .ab d a b
  | .iaddi d a _ | .imuli d a _ | .andi d a _ | .ori d a _ | .xori d a _ => use2 .ab d a
  | .shli d a i | .shri d a i | .sari d a i => { use2 .ab d a with ok := i.toNat < 32 }
  | .popc d a | .clz d a | .brev d a | .fabs d a | .fneg d a | .frnd d a | .fcls d a => use2 .ab d a
  | .dadd d a b | .dsub d a b | .dmul d a b | .dfma d a b | .dmin d a b | .dmax d a b => use3d d a b
  | .drnd d a | .dneg d a => use2 .a d a 2
  | .icmp _ q k a b | .ncmp _ q k a b => { pipe := .ab, src := [(a, 1), (b, 1)], kw := [k], ok := q.toNat < 6 }
  | .fcmp _ _ k a b => { pipe := .ab, src := [(a, 1), (b, 1)], kw := [k] }
  | .dcmp _ _ k a b => { pipe := .ab, src := [(a, 2), (b, 2)], kw := [k] }
  | .cvt d a s t | .cvtx d a s t _ =>
    { pipe := .a, src := [(a, cvtShape s)], dst := [(d, cvtShape t)], ok := cvtOk s t }
  | .pk2 d a b => use3 .a d a b
  | .hi16 d a => use2 .a d a
  | .radd d a b | .rsub d a b | .rscl d a b | .readd d a b => use3 .b d a b
  | .rfrom d a | .rfix d a | .refrom d a | .refix d a | .rcp d a | .rsq d a | .sqrt d a | .exp2 d a | .log2 d a
  | .sin d a | .cos d a | .tanh d a | .matchv d a | .mrank d a => use2 .b d a
  | .shfl d a b | .shflx d a b | .shflr d a b | .bcst d a b => { use3 .b d a b with kw := [7] }
  | .shflf d a b | .shflxf d a b | .shflrf d a b | .bcstf d a b => use3 .b d a b
  | .redlog d a o => { use2 .b d a with ok := o.toNat < 11 }
  | .scanlog d a _ o => { use2 .b d a with ok := o.toNat < 11 }
  | .kand k _ _ | .kor k _ _ | .kxor k _ _ | .kandn k _ _ | .knot k _ | .kmov k _ | .kset k | .kclr k | .emget k =>
    { pipe := .s, kw := [k] }
  | .emset _ | .emand _ | .stoem _ => { pipe := .s, emw := true }
  | .vote k a => { pipe := .s, src := [(a, 1)], kw := [k] }
  | .ktos d _ | .kpop d _ | .emtos d => useS d
  | .stok _ k => { pipe := .s, kw := [k] }
  | .vli d _ | .vlih d _ => { pipe := .ab, dst := [(d, 1)] }
  | .vtos d a l => { pipe := .b, src := [(a, 1)], sw := [d], ok := l.toNat < 64 }
  | .stov d _ => { pipe := .ab, dst := [(d, 1)] }
  | .tfix a =>
    let w : Word := h.traux.extractLsb' 32 32
    let t := (h.traux.extractLsb' 0 9).toNat
    let acts := h.hnd && 0x10 ≤ h.trcause.toNat && h.trcause.toNat ≤ 0x14 && fMaj w ≠ 0x3A
    { pipe := .a, src := [(a, if acts && t < 104 && wordIsPair w then 2 else 1)],
      writes := if acts && t < 104 then [(t, if wordIsPair w then 2 else 1)] else [],
      kw := if acts && 192 ≤ t && t < 200 then [BitVec.ofNat 3 (t - 192)] else [] }
  | .sadd d _ _ | .ssub d _ _ | .smul d _ _ | .smulhi d _ _ | .sand d _ _ | .sor d _ _ | .sxor d _ _ | .sshl d _ _
  | .sshr d _ _ | .ssar d _ _ | .smin d _ _ | .smax d _ _ | .sminn d _ _ | .smaxn d _ _ | .seq d _ _ | .sne d _ _
  | .slt d _ _ | .sltn d _ _ | .sle d _ _ | .slen d _ _ | .smov d _ | .ssel d _ _ | .sli d _ | .slis d _
  | .saddi d _ _ | .sandi d _ _ => useS d
  | .sshli d _ i | .sshri d _ i | .ssari d _ i => { useS d with ok := i.toNat < 64 }
  | .srd p d => { useS d with ok := p.toNat < 38 }
  | .swr p _ => { pipe := .s, ok := p.toNat < 38 }
  | .bra _ | .bnz _ _ | .bz _ _ | .bany _ _ | .ball _ _ | .bnone _ _ | .bemz _ | .nop | .ret | .exit | .trap _
  | .bkpt _ | .sleep _ | .sleepb _ _ | .waitb _ _ | .yield | .mode _ _ _ | .safept _ | .xfer _ | .xferClr | .halt
  | .rep _ _ _ _ _ => { pipe := .s }
  | .call _ => useS 63
  | .loop s _ => { pipe := .s, sw := [s], ok := s ≠ 0 }
  | .callx a => { pipe := .s, src := [(a, 1)], sw := [60, 61, 63], emw := true, ok := a.toNat < 104 }
  | .rett => { pipe := .s, emw := true, ok := h.hnd }
  | .xferq d => useS d
  | .ldk _ w d a e => useLoad true w 1 d a e
  | .stk _ w d a e => useStore true w 1 d a e
  | .lds _ w d a e | .ldc _ w d a e => useLoad false w 1 d a e
  | .ldsDesc _ d a e => useLoad false 4 1 d a e
  | .sts _ w d a e | .stc _ w d a e => useStore false w 1 d a e
  | .stsDesc _ d a e => useStore false 4 1 d a e
  | .ats _ d a e | .atc _ d a e => useAtom 1 d a e
  | .ldcStep _ w d a _ _ => useLoad false w 1 d a none
  | .ldg _ w d a e | .ldn _ w d a _ e | .ldh _ w d a _ e => useLoad false w 2 d a e
  | .ldgDesc _ d a e => useLoad false 4 2 d a e
  | .stg _ w d a e | .stn _ w d a _ e | .sth _ w d a _ e => useStore false w 2 d a e
  | .stgDesc _ d a e => useStore false 4 2 d a e
  | .atg _ d a e | .atn _ d a _ e => useAtom 2 d a e
  | .ath _ d a m e =>
    let u := useAtom 2 d a e
    { u with ok := u.ok && (m || e.op = 0 || e.op = 1 || e.op = 9 || e.op = 10 || e.op = 11) }
  | .cpy _ r _ a b =>
    let sn := if r = 0 || r = 2 || r = 4 || r = 6 then 2 else 1
    { pipe := .m, src := [(a, sn), (b, 3 - sn)], queue := some .cpy }
  | .cpyb d sc => { pipe := .m, sw := if d = 0 then [] else [d, d + 1], ok := scopeOk sc && d ≠ 63, queue := some .batch }
  | .cpybRing d _ sc => { pipe := .m, sw := if d = 0 then [] else [d, d + 1], ok := scopeOk sc && d ≠ 63, queue := some .batch }
  | .rinit _ b n => { pipe := .m, sw := [b], ok := n ≠ 0 }
  | .rwait _ b _ | .rrel _ b _ | .rfin _ b => { pipe := .m, sw := [b] }
  | .mloop _ d sa sb =>
    let c := h.mcfg
    let pairOk := fun (reg : Bool) (s : SCode) => if reg then s = 0 else 2 ≤ s.toNat && s.toNat ≤ 62
    { pipe := .m, reads := (d.toNat, accSize c) :: loopRanges h.rd c sa sb, writes := [(d.toNat, accSize c)],
      ok := accOk c d && pairOk (cfgASrc c) sa && pairOk (cfgBSrc c) sb, queue := some .mloop }
  | .mcfg _ => { pipe := .m }
  | .mcvt d =>
    { pipe := .m, reads := [(d.toNat, accSize h.mcfg)], writes := [(d.toNat, accSize h.mcfg)],
      ok := accOk h.mcfg d && mcvtOk h.mcfg }
  | .mzero d => { pipe := .m, writes := [(d.toNat, accSize h.mcfg)], ok := accOk h.mcfg d }
  | .mwait d => { pipe := .m, ok := d.toNat < 96 || d = 108, named := [d.toNat] }
  | .barinit _ _ | .barfin _ | .qend | .stepend | .tbwait _ | .tbfull _ | .tbempty _ _ _ | .csclose
  | .cancel _ => { pipe := .m }
  | .depdec a => { pipe := .m, src := [(a, 2)], ok := a.toNat < 96 }
  | .bararv _ d sc => { pipe := .m, sw := [d], ok := scopeOk sc }
  | .barwt _ _ sc | .barsyn _ sc | .fencesc sc | .pub _ sc => { pipe := .m, ok := scopeOk sc }
  | .fence k sc => { pipe := .m, ok := k ≠ 3 && scopeOk sc }
  | .barst _ d | .csopen d | .cwait _ d => { pipe := .m, sw := [d] }
  | .spawn _ a n =>
    { pipe := .m, reads := if a.toNat < 96 then [(a.toNat, n.toNat)] else [],
      ok := a.toNat < 96 && 1 ≤ n.toNat && n.toNat ≤ 8, queue := some .spawn }
  | .signal _ p sc op _ | .waitsig _ p sc op _ => { pipe := .m, ok := p ≠ 3 && scopeOk sc && op ≠ 3 }
  | _ => { pipe := .m }

end Sys2Proof.Machine
end

