-- ==== Sys2Proof/Machine/MatrixUnit.lean ====
section
/-!
DEFINITION. The arithmetic of the matrix unit: the checks of a K-step's 64 lines (R285), one K-step on the 32 × 32
accumulator (R273-R284), and the conversion of an accumulator (R296, R297).
-/

namespace Sys2Proof.Machine

open Sys2Proof

/-- A line as the unit fetches it: 64 bytes and the descriptor. -/
structure MLine where
  bytes : List Byte
  desc : BitVec 16
  deriving DecidableEq, Repr

/-- Format code of a line (R112). -/
def MLine.code (l : MLine) : Nat := (l.desc.extractLsb' 0 8).toNat
/-- Scale byte of a line (R113). -/
def MLine.scale (l : MLine) : Nat := (l.desc.extractLsb' 8 8).toNat

/-- Elements per line, Kb (R112). -/
def kbOf (code : Nat) : Nat :=
  match code with
  | 0x01 => 8 | 0x02 => 16 | 0x03 => 32 | 0x04 => 32 | 0x10 => 64 | 0x11 => 128 | 0x20 => 512 | _ => 0

/-- The float format of a code. -/
def fmtOf (code : Nat) : Fmt := match code with | 0x01 => f64 | 0x02 => f32 | 0x03 => f16 | _ => bf16

/-- The code belongs to the accumulator's class (R276). -/
def inClass (acc code : Nat) : Bool :=
  match acc with
  | 0 | 1 => 1 ≤ code && code ≤ 4
  | 2 => code = 0x10 || code = 0x11
  | _ => code = 0x20

/-- MCFG accepts the word (R275, R276). -/
def cfgOk (c : DWord) : Bool :=
  let acc := cfgAcc c
  let sem := cfgSemi c
  let o := (cfgOfmt c).toNat
  c.extractLsb' 48 16 = 0 && c.extractLsb' 6 2 = 0 && c.extractLsb' 3 1 = 0 &&
  ((sem = 0 && acc < 3) || ((sem = 1 || sem = 2 || sem = 3) && acc = 0) || (sem = 4 && acc = 3)) &&
  (o = 0 || o = 2 || o = 3 || o = 4) &&
  (!cfgASrc c || (cfgAReg c < 96 && inClass acc (c.extractLsb' 16 8).toNat)) &&
  (!cfgBSrc c || (cfgBReg c < 96 && inClass acc (c.extractLsb' 32 8).toNat))

/-- The bytes of one element of a byte-sized format, or the encoding of a bit-sized one (R105). -/
def elemBits (code : Nat) (bs : List Byte) (e : Nat) : Nat :=
  match code with
  | 0x01 => leNat ((bs.drop (8 * e)).take 8)
  | 0x02 => leNat ((bs.drop (4 * e)).take 4)
  | 0x03 | 0x04 => leNat ((bs.drop (2 * e)).take 2)
  | 0x10 => (bs.getD e 0).toNat
  | 0x11 => (bs.getD (e / 2) 0).toNat / 16 ^ (e % 2) % 16
  | _ => (bs.getD (e / 8) 0).toNat / 2 ^ (e % 8) % 2

/-- The signed integer of an sc8 or sc4 element. -/
def elemInt (code : Nat) (x : Nat) : Int :=
  if code = 0x10 then (if 128 ≤ x then (x : Int) - 256 else x) else (if 8 ≤ x then (x : Int) - 16 else x)

/-- A scaled element or term: a NaN, an infinity, or an exact value with its sign (R280). -/
inductive MEl where
  | nan
  | inf (neg : Bool)
  | fin (v : Dyadic) (neg : Bool)
  deriving DecidableEq, Repr

/-- An encoding read under DAZ, times 2^(E − 127) (R280). -/
def mEl (f : Fmt) (daz : Bool) (scale : Nat) (x : Nat) : MEl :=
  if f.isNaN x then .nan
  else if f.isInf x then .inf (f.neg x)
  else if f.isZero x || (daz && f.isSub x) then .fin Dyadic.zero (f.neg x)
  else .fin ((f.value x).scale ((scale : Int) - 127)) (f.neg x)

/-- The elements of a float line. -/
def MLine.els (l : MLine) (daz : Bool) : List MEl :=
  (List.range (kbOf l.code)).map fun e => mEl (fmtOf l.code) daz l.scale (elemBits l.code l.bytes e)

/-- An element is below zero: −∞ included, −0 excluded (R284). -/
def MEl.below (x : MEl) : Bool := match x with | .nan => false | .inf n => n | .fin v n => n && v.m ≠ 0
/-- An element is a NaN. -/
def MEl.isNan (x : MEl) : Bool := match x with | .nan => true | _ => false
/-- An element is a zero. -/
def MEl.isZero (x : MEl) : Bool := match x with | .fin v _ => v.m = 0 | _ => false
/-- The sign. -/
def MEl.neg (x : MEl) : Bool := match x with | .nan => false | .inf n => n | .fin _ n => n

/-- The exact product of two terms without NaN; none for 0 × ∞. -/
def MEl.mul (x y : MEl) : Option MEl :=
  let n := x.neg != y.neg
  match x, y with
  | .fin a _, .fin b _ => some (.fin (a.mul b) n)
  | _, _ => if x.isZero || y.isZero then none else some (.inf n)

/-- The exact sum of two terms without NaN; none for infinities of opposite sign. Zeros are signed under R95. -/
def MEl.add (rm : BitVec 2) (x y : MEl) : Option MEl :=
  match x, y with
  | .fin a n, .fin b k =>
    let v := a.add b
    some (.fin v (if v.m = 0 then zeroSumNeg rm (a.m = 0) n (b.m = 0) k else v.m < 0))
  | .inf n, .inf k => if n = k then some x else none
  | .inf _, _ => some x
  | _, .inf _ => some y
  | _, _ => none

/-- x < y exactly, −0 below +0. -/
def MEl.lt (x y : MEl) : Bool :=
  match x, y with
  | .inf n, .inf k => n && !k
  | .inf n, _ => n
  | _, .inf k => !k
  | .fin a n, .fin b k => a.lt b || (a.m = 0 && b.m = 0 && n && !k)
  | _, _ => false

/-- The lesser or greater of terms. -/
def MEl.best (isMax : Bool) (xs : List MEl) : Option MEl :=
  match xs with
  | [] => none
  | x :: r => some (r.foldl (fun b y => if (if isMax then b.lt y else y.lt b) then y else b) x)

/-- Round a term to a format. -/
def MEl.round (f : Fmt) (md : FMode) (x : MEl) : FRes :=
  match x with
  | .nan => ⟨f.genNaN 1, 0⟩
  | .inf n => ⟨f.signed n f.inf, 0⟩
  | .fin v n => f.roundDy md v n

/-- All of a list, or none. -/
def allSome {α : Type} : List (Option α) → Option (List α)
  | [] => some []
  | none :: _ => none
  | some x :: r => (allSome r).map (x :: ·)

/-- A K-step's effect on one float element of C (R281, R284): `c` the accumulator as read, `as` and `bs` the row and
column, `sa` and `sb` their scales. -/
def kElem (f : Fmt) (md : FMode) (sem : Nat) (c : Nat) (sa sb : Nat) (as bs : List MEl) : FRes :=
  if f.isNaN c then ⟨f.quieted c, Exc.invIf (f.isSNaN c)⟩
  else if sa = 255 || sb = 255 then ⟨f.genNaN 2, Exc.inv⟩
  else if as.any MEl.isNan || bs.any MEl.isNan then ⟨f.genNaN 1, Exc.inv⟩
  else
    let cv : MEl := if f.isInf c then .inf (f.neg c) else .fin (f.value c) (f.neg c)
    if sem = 0 then
      match allSome (List.zipWith MEl.mul as bs) with
      | none => ⟨f.genNaN 4, Exc.inv⟩
      | some ts =>
        let all := cv :: ts
        let pos := all.contains (.inf false)
        let neg := all.contains (.inf true)
        if pos && neg then ⟨f.genNaN 3, Exc.inv⟩
        else if pos || neg then ⟨f.signed neg f.inf, 0⟩
        else
          let sum := all.foldl (fun a t => match t with | .fin v _ => a.add v | _ => a) Dyadic.zero
          let zn := if all.all (fun t => t.isZero && t.neg) then true
            else if all.all (fun t => t.isZero && !t.neg) then false else md.rm = 3
          f.roundDy md sum zn
    else
      let isMax := sem ≠ 1
      let ts := if sem = 3 then List.zipWith MEl.mul as bs else List.zipWith (MEl.add md.rm) as bs
      match allSome ts with
      | none => ⟨f.genNaN (if sem = 3 then 4 else 3), Exc.inv⟩
      | some xs =>
        match MEl.best isMax xs with
        | none => ⟨c, 0⟩
        | some m =>
          let y := m.round f md
          ⟨if (if isMax then f.ordKey c < f.ordKey y.val else f.ordKey y.val < f.ordKey c) then y.val else c, y.exc⟩

/-- A K-step's effect on one ra32 element (R282). -/
def kResidue (code : Nat) (c : Nat) (a b : List Int) : Nat :=
  let p := (List.zipWith (· * ·) a b).foldl (· + ·) 0
  let (c1, c2, c3) := raChannels c
  let _ := code
  raPack (((c1 : Int) + p) % 1023).toNat (((c2 : Int) + p) % 1024).toNat (((c3 : Int) + p) % 1025).toNat

/-- A K-step's effect on one boolean element (R284). -/
def kBool (c : Nat) (a b : List Byte) : Nat :=
  if c ≠ 0 || (List.zipWith (fun x y => x &&& y) a b).any (· ≠ 0) then 1 else 0

/-- The first line that fails a test, by number. -/
def firstBad (p : MLine → Nat → Bool) (ls : List MLine) : Option Nat :=
  ((ls.zipIdx).find? fun q => p q.1 q.2).map (·.2)

/-- Row and column scales of a step's lines. -/
def scalesOf (ls : List MLine) : List (BitVec 8) := ls.map fun l => BitVec.ofNat 8 l.scale

/-- The checks of R285 on a step's 64 lines; `latch` is the latched scales of an ra32 loop. -/
def stepCheck (cfg : DWord) (daz : Bool) (latch : List (BitVec 8)) (ls : List MLine) : Option (Cause × Nat) :=
  let acc := cfgAcc cfg
  match firstBad (fun l _ => kbOf l.code = 0) ls with
  | some n => some (.fmtnone, n)
  | none =>
    match firstBad (fun l _ => !inClass acc l.code) ls with
    | some n => some (.fmtmix, n)
    | none =>
      match firstBad (fun l _ => kbOf l.code ≠ kbOf ((ls.head?.map MLine.code).getD 0)) ls with
      | some n => some (.fmtmix, n)
      | none =>
        match (if acc = 2 then firstBad (fun l n => BitVec.ofNat 8 l.scale ≠ latch.getD n 0) ls else none) with
        | some n => some (.scalemix, n)
        | none =>
          if cfgSemi cfg = 3 then
            (firstBad (fun l _ => l.scale ≠ 255 && (l.els daz).any MEl.below) ls).map fun n => (.fpinv, n)
          else none

/-- Row of C that register j of the accumulator holds in lane i (R274). -/
def accRow (j i : Nat) : Nat := 16 * (i / 32) + j
/-- Column of C in lane i. -/
def accCol (i : Nat) : Nat := i % 32

/-- The elements of an accumulator after one K-step, register by register and lane by lane (R274, R280-R284): `old j i`
the accumulator as read. -/
def stepElems (cfg : DWord) (md : FMode) (a b : List MLine) (old : Nat → Nat → Nat) : List (List FRes) :=
  let acc := cfgAcc cfg
  let f := if acc = 1 then f64 else f32
  if acc = 2 then
    let ints := fun (l : MLine) => (List.range (kbOf l.code)).map fun e => elemInt l.code (elemBits l.code l.bytes e)
    let ai := a.map ints
    let bi := b.map ints
    (List.range 16).map fun j => (List.range 64).map fun i =>
      ⟨kResidue acc (old j i) (ai.getD (accRow j i) []) (bi.getD (accCol i) []), 0⟩
  else if acc = 3 then
    (List.range 16).map fun j => (List.range 64).map fun i =>
      ⟨kBool (old j i) ((a.map MLine.bytes).getD (accRow j i) []) ((b.map MLine.bytes).getD (accCol i) []), 0⟩
  else
    let ae := a.map (MLine.els · md.daz)
    let be := b.map (MLine.els · md.daz)
    let sa := a.map MLine.scale
    let sb := b.map MLine.scale
    (List.range 16).map fun j => (List.range 64).map fun i =>
      kElem f md (cfgSemi cfg) (old j i) (sa.getD (accRow j i) 127) (sb.getD (accCol i) 127)
        (ae.getD (accRow j i) []) (be.getD (accCol i) [])

/-- Element j, i of the accumulator at vD (R274). -/
def accElem (cfg : DWord) (r : Regs) (d j i : Nat) : Nat :=
  if cfgAcc cfg = 1 then (laneOf (r.file (d + 2 * j + 1)) i ++ laneOf (r.file (d + 2 * j)) i : DWord).toNat
  else (laneOf (r.file (d + j)) i).toNat

/-- Write an accumulator: all 64 lanes whatever em holds (R274). -/
def putAcc (cfg : DWord) (r : Regs) (d : Nat) (es : List (List FRes)) : Regs :=
  (List.range 16).foldl (fun r j =>
    let row := es.getD j []
    if cfgAcc cfg = 1 then
      (r.put (d + 2 * j) (rowOf fun i => BitVec.ofNat 32 (row.getD i ⟨0, 0⟩).val)).put (d + 2 * j + 1)
        (rowOf fun i => BitVec.ofNat 32 ((row.getD i ⟨0, 0⟩).val / 2 ^ 32))
    else r.put (d + j) (rowOf fun i => BitVec.ofNat 32 (row.getD i ⟨0, 0⟩).val)) r

/-- Lanes with an element that raised exception k (R287). -/
def excLanes (es : List (List FRes)) (k : Nat) : DWord :=
  maskOf fun i => es.any fun row => (row.getD i ⟨0, 0⟩).exc.getLsbD k

/-- Everything raised. -/
def excOf (es : List (List FRes)) : Exc := es.foldl (fun a row => row.foldl (fun b x => b ||| x.exc) a) 0

/-- The accumulator as a step reads it: DAZ reads a subnormal starting accumulator as a zero (R280). -/
def accRead (cfg : DWord) (md : FMode) (k : Nat) (x : Nat) : Nat :=
  match cfgAcc cfg with
  | 0 => if k = 0 then f32.inp md x else x
  | 1 => if k = 0 then f64.inp md x else x
  | _ => x

/-- The ⊕ identity (R276, R298). -/
def accIdentity (cfg : DWord) : Word := match cfgSemi cfg with | 1 => 0x7F800000 | 2 => 0xFF800000 | _ => 0

/-- MCVT's destination format. -/
def ofmtOf (cfg : DWord) : Fmt := match (cfgOfmt cfg).toNat with | 3 => f16 | 4 => bf16 | _ => f32

/-- One element converted (R296, R297): `er`, `ec` the latched scales of its row and column. -/
def cvtElem (cfg : DWord) (md : FMode) (er ec : Nat) (x : Nat) : FRes :=
  let o := ofmtOf cfg
  match cfgAcc cfg with
  | 2 =>
    if er = 255 || ec = 255 then ⟨o.genNaN 2, Exc.inv⟩
    else
      let v := raValue x
      o.roundDy md ⟨v, (er : Int) - 127 + ((ec : Int) - 127)⟩ false
  | 1 => convFF f64 o md x
  | _ => convFF f32 o md x

/-- Every element of an accumulator converted. -/
def cvtElems (cfg : DWord) (md : FMode) (rows cols : List (BitVec 8)) (old : Nat → Nat → Nat) : List (List FRes) :=
  (List.range 16).map fun j => (List.range 64).map fun i =>
    cvtElem cfg md (rows.getD (accRow j i) 127).toNat (cols.getD (accCol i) 127).toNat (old j i)

/-- Words of a register-held operand's line j in K-step k (R279). -/
def regLine (r : Regs) (reg k : Nat) (fmt : BitVec 8) (j : Nat) : MLine :=
  { bytes := (List.range 16).flatMap fun q =>
      leBytes 4 (laneOf (r.file (reg + 8 * k + q / 2)) (32 * (q % 2) + j)).toNat
    desc := 127#8 ++ fmt }

end Sys2Proof.Machine
end

