-- ==== Sys2Proof/Machine/Ops.lean ====
section
/-!
DEFINITION. The named operations every meaning is built from: finding and updating sheaves, groups, tasks and
contexts; access to memory under a context's table; errors that firmware meets; fault records; performance counters; a
K-step; the end of a sheaf and of a context; taking a trap and returning from one.
-/

namespace Sys2Proof.Machine

open Sys2Proof

/-- The outcome of a step of this machine. -/
abbrev Out := Host.Outcome State Fault Refusal

/-! ### Finding and updating the tables -/

def State.sheaves (s : State) : List Sheaf := s.sh :: s.peers
/-- A sheaf by its handle. -/
def State.sheaf (s : State) (uid : Nat) : Option Sheaf := s.sheaves.find? (·.uid = uid)
/-- Apply a function to every sheaf. -/
def State.mapSheaves (s : State) (f : Sheaf → Sheaf) : State := { s with sh := f s.sh, peers := s.peers.map f }
/-- Apply a function to one sheaf. -/
def State.onSheaf (s : State) (uid : Nat) (f : Sheaf → Sheaf) : State :=
  s.mapSheaves fun h => if h.uid = uid then f h else h
/-- Change the sheaf in the issue slot. -/
def State.upd (s : State) (f : Sheaf → Sheaf) : State := { s with sh := f s.sh }
/-- Change the registers of the sheaf in the issue slot. -/
def State.regs (s : State) (f : Regs → Regs) : State := { s with sh := { s.sh with regs := f s.sh.regs } }
def State.task (s : State) (tid : Nat) : Option Task := s.tasks.find? (·.tid = tid)
def State.onTask (s : State) (tid : Nat) (f : Task → Task) : State :=
  { s with tasks := s.tasks.map fun t => if t.tid = tid then f t else t }
def State.group (s : State) (gid : Nat) : Option Group := s.groups.find? (·.gid = gid)
def State.onGroup (s : State) (gid : Nat) (f : Group → Group) : State :=
  { s with groups := s.groups.map fun g => if g.gid = gid then f g else g }
def State.context (s : State) (tag : BitVec 12) : Option Context := s.contexts.find? (·.tag = tag)
def State.onContext (s : State) (tag : BitVec 12) (f : Context → Context) : State :=
  { s with contexts := s.contexts.map fun c => if c.tag = tag then f c else c }
def State.part (s : State) (p : Nat) : Option Partition := s.partitions.find? (·.num = p)
def State.onPart (s : State) (p : Nat) (f : Partition → Partition) : State :=
  { s with partitions := s.partitions.map fun q => if q.num = p then f q else q }
/-- Change a virtual function's registers. -/
def State.onFn (s : State) (n : Nat) (f : VirtFn → VirtFn) : State :=
  match s.fns[n]? with
  | some v => { s with fns := s.fns.setIfInBounds n (f v) }
  | none => s
def State.onDie (s : State) (n : Nat) (f : Die → Die) : State :=
  match s.dies[n]? with
  | some v => { s with dies := s.dies.setIfInBounds n (f v) }
  | none => s
def State.onCluster (s : State) (n : Nat) (f : Cluster → Cluster) : State :=
  match s.clusters[n]? with
  | some v => { s with clusters := s.clusters.setIfInBounds n (f v) }
  | none => s
/-- Add steps for other agents to make. -/
def State.post (s : State) (es : List Event) : State := { s with agenda := s.agenda ++ es }
/-- Add steps that come before any other. -/
def State.postFirst (s : State) (es : List Event) : State := { s with agenda := es ++ s.agenda }
/-- A fresh number (LOG 4). -/
def State.tick (s : State) : State := { s with fresh := s.fresh + 1 }
/-- Raise an MSI-X interrupt unless it is pending (R76, R447). -/
def State.interrupt (s : State) (fn source : Nat) : State :=
  if s.irqs.contains (fn, source) then s else { s with irqs := s.irqs ++ [(fn, source)] }

/-- The task of a sheaf. -/
def State.taskOf (s : State) (h : Sheaf) : Option Task := s.task h.task
/-- The owner tag of a sheaf's context (R86); 0 names the monitor. -/
def State.tagOf (s : State) (h : Sheaf) : BitVec 12 := ((s.taskOf h).map Task.tag).getD 0
/-- The owner tag of the sheaf in the issue slot. -/
def State.tag (s : State) : BitVec 12 := s.tagOf s.sh
/-- The group of the sheaf in the issue slot. -/
def State.myGroup (s : State) : Option Group := s.group s.sh.group
/-- The launch record of the sheaf in the issue slot. -/
def State.lrec (s : State) : LaunchRec := ((s.taskOf s.sh).map Task.lrec).getD LaunchRec.zero
/-- The root table of a context (R68). -/
def State.root (s : State) (tag : BitVec 12) : Nat := ((s.context tag).map Context.root).getD 0
/-- A sheaf runs in repeatable mode (R468). -/
def State.repeats (s : State) (h : Sheaf) : Bool := (s.taskOf h).any fun t => t.lrec.flags.getLsbD 0
/-- The sheaf in the issue slot runs in repeatable mode (R468). -/
def State.repeatable (s : State) : Bool := s.lrec.flags.getLsbD 0
/-- The core of the sheaf in the issue slot (R14). -/
def State.core (s : State) : Nat := (s.myGroup.map Group.core).getD 0

/-- Do something with another sheaf in the issue slot, then put this one back (LOG 1). -/
def State.as (s : State) (uid : Nat) (f : State → State) : State :=
  if s.sh.uid = uid then f s
  else
    match s.peers.find? (·.uid = uid) with
    | none => s
    | some h =>
      let t := f { s with sh := h }
      { t with sh := s.sh, peers := s.peers.map fun p => if p.uid = uid then t.sh else p }

/-! ### Access under a context's table -/

/-- The first table entry on an address's walk that lies in a line in error (R90). -/
def State.walkBad (s : State) (tag : BitVec 12) (va : Nat) : Option Nat :=
  if s.badLines = [] then none else (walkKeys s.mem va 4 0 (s.root tag)).find? fun k => s.badLines.contains (lineOf k)

/-- Translate for a context. An entry that a line in error loses is not there. -/
def State.xlat (s : State) (tag : BitVec 12) (va : Nat) (acc : Access) : Xlat :=
  if (s.walkBad tag va).isSome then .fault else translate s.mem (s.root tag) va acc

/-- The virtual function of a context. -/
def State.fnOf (s : State) (tag : BitVec 12) : Nat := ((s.context tag).map Context.fn).getD 0

/-- The key a fabric address reaches, when the target takes the access (R66). -/
def State.peerTarget (s : State) (write : Bool) (a : Nat) : Option Nat :=
  if a / 2 ^ 43 = s.modId.toNat then
    let off := a % 2 ^ 43
    let ws := s.partitions.flatMap Partition.windows
    (ws.find? fun w => w.base ≤ off && off < w.base + w.size && w.modules.contains s.modId.toNat && (w.writable || !write)).map
      fun w => w.key + (off - w.base)
  else if s.routes.any (fun r => r.1 = a / 2 ^ 43 && r.2 ≠ []) then some (peerKey a) else none

/-- Where a translated key leads for a context (R66, R67): a host page to the function's own host memory, a peer page through
the target's windows, none when the target turns it away. -/
def State.reach (s : State) (tag : BitVec 12) (write : Bool) (k : Nat) : Option Nat :=
  if k < 2 * spaceSize || 4 * spaceSize ≤ k then some k
  else if k < 3 * spaceSize then some (hostKey (s.fnOf tag) (k - 2 * spaceSize))
  else s.peerTarget write (k - 3 * spaceSize)

/-- Read a number from a context's memory, as firmware or an engine reads a table. -/
def State.readVA (s : State) (tag : BitVec 12) (va n : Nat) : Option Nat :=
  match s.xlat tag va .load with
  | .ok m => (s.reach tag false m.key).map fun k => readLE s.mem k n
  | _ => none

/-- Pages of a context whose front frames hold a key. -/
def State.pagesAt (s : State) (tag : BitVec 12) (key : Nat) : List Mapped := pagesOf s.mem key 4 0 (s.root tag) 0

/-- The tag that owns a frame the monitor allotted (R86); 0 when none does. -/
def State.frameOwner (s : State) (key : Nat) : BitVec 12 :=
  ((s.contexts.find? fun c => c.frames.any fun f => f.1 ≤ key && key < f.1 + f.2).map Context.tag).getD 0

/-! ### Errors met by firmware (R88-R90) -/

/-- Die whose memory, scratchpad or buffer holds a key. -/
def keyDie (k : Nat) : Option Nat :=
  if isSpad k then some ((k - 4 * spaceSize) / 2 ^ 20 / 64)
  else if k < spaceSize then frameDie 0 k
  else if k < 2 * spaceSize then frameDie 1 (k - spaceSize)
  else if dieBufKey 0 0 ≤ k && k < 7 * spaceSize then some ((k - dieBufKey 0 0) / 2 ^ 32) else none

/-- Log an error in a die's log (R89). -/
def State.logAt (s : State) (die : Option Nat) (what : String) (addr syndrome : Nat) : State :=
  match die with
  | some d => s.onDie d fun x => { x with errlog := x.errlog ++ [{ gtc := s.gtc, what := what, addr := addr, syndrome := syndrome }] }
  | none => s

/-- The array a key lies in, as the log names it (R88, R89): store buffers and save areas lie in device memory. -/
def keyArray (k : Nat) : String :=
  if isSpad k then "scratchpad" else if k < spaceSize then "GDDR" else if k < 2 * spaceSize then "LPDDR"
  else if registerKey 0 ≤ k && k < bufKey 0 0 then "registers"
  else if dieBufKey 0 0 ≤ k && k < 7 * spaceSize then "die buffer" else "device memory"

/-- Accesses meet lines whose errors the code corrects (R88, R89): each is written back corrected and logged. -/
def State.correct (s : State) (ks : List Nat) : State :=
  if s.weak = [] then s
  else
    let hit := s.weak.filter fun w => ks.any fun k => lineOf k = w.1
    hit.foldl (fun t w => t.logAt (keyDie w.1) (keyArray w.1 ++ ": corrected error") w.1 w.2)
      { s with weak := s.weak.filter fun w => !hit.contains w }

/-- The walk of an address meets table lines whose errors the code corrects (R89). -/
def State.correctWalk (s : State) (tag : BitVec 12) (va : Nat) : State :=
  if s.weak = [] then s else s.correct (walkKeys s.mem va 4 0 (s.root tag))

/-- The line of a key holds an uncorrectable error. -/
def State.lineBad (s : State) (k : Nat) : Bool := s.badLines.contains (lineOf k)

/-- Owner of a line, when it is a live context (R90). -/
def State.liveOwner (s : State) (k : Nat) : Option (BitVec 12) :=
  let owner := (lineMeta s.lines k).extractLsb' 16 12
  if owner ≠ 0 && (s.context owner).any (fun c => !c.ended) then some owner else none

/-- An unowned line in error is cleared and that is logged (R90). -/
def State.clearLine (s : State) (k : Nat) : State :=
  (s.clearRange 0 (lineOf k) 64).logAt (keyDie k) (keyArray k ++ ": uncorrectable error, line cleared") (lineOf k) 0

/-- A write that no instruction makes meets its line (R89, R90): whether it is performed. A write of the whole line replaces an
error; else its live owner ends, by the step this posts, and DESIGN CHOICE (LOG 21) the write is lost; an unowned line is cleared
and then written. -/
def State.meetLine (s : State) (k : Nat) (whole : Bool) : State × Bool :=
  let s1 := s.correct [k]
  if !s1.lineBad k then (s1, true)
  else if whole then ({ s1 with badLines := s1.badLines.filter (· ≠ lineOf k) }, true)
  else if (s1.liveOwner k).isSome then (s1.postFirst [.scrubPass k .uncorrectable], false)
  else (s1.clearLine k, true)

/-- Write bytes for a context that no instruction of it writes (R86, R90). -/
def State.putFor (s : State) (tag : BitVec 12) (key : Nat) (bs : List Byte) : State :=
  match s.meetLine key (bs.length = 64 && key % 64 = 0) with
  | (t, true) => t.putBytes tag key bs
  | (t, false) => t

/-- Write bytes that no sheaf writes (R86). -/
def State.putHost (s : State) (key : Nat) (bs : List Byte) : State := s.putFor (s.frameOwner key) key bs

/-- Write bytes at a virtual address of a context, as firmware writes a record; nothing when it does not map. -/
def State.putVA (s : State) (tag : BitVec 12) (va : Nat) (bs : List Byte) : State :=
  match s.walkBad tag va with
  | some k => s.postFirst [.scrubPass k .uncorrectable]
  | none =>
    let t := s.correctWalk tag va
    match t.xlat tag va .load with
    | .ok m => (match t.reach tag true m.key with | some k => t.putHost k bs | none => t)
    | _ => t

/-- A byte as the sheaf in the issue slot sees it: its own buffered store, else memory (R135). DESIGN CHOICE (LOG 22): a private
store, which is not buffered, after a buffered device store to the same byte does not show until the commit, which overwrites
it. -/
def State.seeByte (s : State) (key : Nat) : Byte :=
  match s.sh.buf.reverse.find? (fun w => match w with | .bytes _ k bs _ _ => k ≤ key && key < k + bs.length | _ => false) with
  | some (.bytes _ k bs _ _) => bs.getD (key - k) 0
  | _ => readByte s.mem key

/-- Bytes as the sheaf sees them. -/
def State.see (s : State) (key n : Nat) : List Byte :=
  if s.sh.buf = [] then readBytes s.mem key n else (List.range n).map fun j => s.seeByte (key + j)

/-- A descriptor as the sheaf sees it (R135). -/
def State.seeDesc (s : State) (key : Nat) : BitVec 16 :=
  match s.sh.buf.reverse.find? (fun w => match w with | .desc _ k _ _ => k = lineOf key | _ => false) with
  | some (.desc _ _ v _) => v
  | _ => lineDesc s.lines key

/-! ### Fault and counter records (R76-R81) -/

/-- The 32 bytes of a notification record (R77). -/
def Notice.bytes (n : Notice) : List Byte :=
  leBytes 8 n.gtc.toNat ++ leBytes 8 n.va.toNat ++
  leBytes 8 (n.kind.toNat + n.access.toNat * 2 ^ 8 + n.tag.toNat * 2 ^ 16 + n.core.toNat * 2 ^ 32) ++
  leBytes 8 (n.sheaf.toNat + n.value.toNat * 2 ^ 32)

/-- Records the ring of a queue holds (R76). -/
def Partition.ringSize (p : Partition) : Nat := 2 ^ ((p.nqcfg.extractLsb' 8 4).toNat + 6)
/-- The queue can take a record (R76, R78): it is enabled, and not every slot holds a record the driver has yet to read. -/
def Partition.room (p : Partition) : Bool := p.nqcfg.getLsbD 0 && !p.nqfull

/-- The tail moves past a record just written; where it meets the head the ring is full (R76; LOG 13). -/
def Partition.push (p : Partition) : Partition :=
  let t := (p.nqtail.toNat + 1) % p.ringSize
  { p with nqtail := BitVec.ofNat 32 t, nqfull := t = p.nqhead.toNat % p.ringSize }

/-- Write a notification record, or keep it waiting, or drop and count it (R76-R78): a fault record waits, a counter record is
dropped. The ring lies in the table of the record's context (LOG 13). -/
def State.notify (s : State) (part : Nat) (n : Notice) (keep : Bool) : State :=
  match s.part part with
  | none => s
  | some p =>
    if p.room then
      let base := p.nqcfg.toNat / 4096 * 4096
      let t := s.putVA n.tag (base + 32 * (p.nqtail.toNat % p.ringSize)) n.bytes
      (t.onPart part Partition.push).interrupt (s.fnOf n.tag) 0
    else if keep then s.onPart part fun q => { q with waiting := q.waiting ++ [n] }
    else s.onPart part fun q => { q with nqdrop := q.nqdrop + 1 }

/-- A record about the sheaf in the issue slot. -/
def State.notice (s : State) (va : DWord) (kind access : BitVec 8) (value : BitVec 32) : Notice :=
  { gtc := s.gtc, va := va, kind := kind, access := access, tag := s.tag, core := BitVec.ofNat 16 s.core,
    sheaf := s.sh.sheafNo, value := value }

/-- The partition a sheaf runs in: the one its cluster belongs to (R24), else its task's. -/
def State.partOf (s : State) (h : Sheaf) : Nat :=
  match (s.group h.group).bind fun g => s.partitions.find? fun p => p.clusters.contains (g.core / 8) with
  | some p => p.num
  | none => ((s.taskOf h).map Task.part).getD 0

/-- Write the fault records that wait, while there is room (R78). -/
def State.flushNotices (s : State) (part : Nat) : State :=
  match s.part part with
  | none => s
  | some p =>
    p.waiting.foldl (fun t n => t.notify part n true) (s.onPart part fun q => { q with waiting := [] })

/-- Drop an update of a page's counters (R79). -/
def State.dropCount (s : State) (part : Nat) : State := s.onPart part fun q => { q with nqdrop := q.nqdrop + 1 }

/-- Add to the counters at a key and report a crossing (R79-R81). `remote` counts the second too. -/
def State.bumpCounts (s : State) (key page lines : Nat) (remote : Bool) (who : Toucher) : State :=
  let cthr := ((s.part who.part).map Partition.cthr).getD 0x01000100
  let bump := fun (t : State) (off thr : Nat) (kind : BitVec 8) =>
    let old := readLE t.mem (key + off) 2
    let new := min 0xFFFF (old + lines)
    let t1 := t.putBytes who.tag (key + off) (leBytes 2 new)
    if thr ≠ 0 && old < thr && thr ≤ new then
      t1.notify who.part { gtc := t1.gtc, va := BitVec.ofNat 64 page, kind := kind, access := 0, tag := who.tag
                           core := BitVec.ofNat 16 who.core, sheaf := who.sheaf, value := BitVec.ofNat 32 new } false
    else t1
  match s.meetLine key false with
  | (s1, false) => s1
  | (s1, true) =>
    let t := bump s1 0 (cthr.extractLsb' 0 16).toNat 3
    if remote then bump t 2 (cthr.extractLsb' 16 16).toNat 4 else t

/-- Entries in a die's parking buffer. -/
def State.parkedOn (s : State) (die : Nat) : Nat := (s.parking.filter fun w => w.die = die && !w.stalled).length

/-- The frame that a parked write leaves behind (R82): the page's own, or the old one of a migration that has copied it. -/
def State.parkFrame (s : State) (m : Mapped) : Nat :=
  match s.moves.find? fun x => x.2.1 ≤ m.frame && m.frame < x.2.1 + x.2.2 with
  | some x => x.1 + (m.frame - x.2.1)
  | none => m.frame

/-- Where the last entry parked on a line stands. -/
def State.lastParked (s : State) (tag : BitVec 12) (line : Nat) : Option Nat :=
  (s.parking.reverse.findIdx? fun w => w.tag = tag && w.line = line).map fun k => s.parking.length - 1 - k

/-- Park an operation in a die's parking buffer (R83): it joins the line's last entry where the same instruction or engine step
made that. An operation that no core and no engine makes stands before a full buffer. DESIGN CHOICE (LOG 34): "its die" is the
die that owns the page's frame, die 0 for a host or peer frame. -/
def State.parkOp (s : State) (m : Mapped) (tag : BitVec 12) (sheaf : Nat) (batch : Option (BitVec 8)) (va : Nat) (holds : Bool)
    (op : ParkedOp) (queue : Option (Nat × Nat) := none) : State :=
  let same := fun (w : ParkedWrite) => w.sheaf = sheaf && w.batch = batch && w.queue = queue && w.at_ = s.gtc
  let die := m.die.getD 0
  let entry : ParkedWrite :=
    { die := die, page := m.page, frame := s.parkFrame m, line := va / 64, at_ := s.gtc, sheaf := sheaf, batch := batch
      queue := queue, tag := tag, holds := holds
      stalled := sheaf = 0 && queue.isNone && Config.parking ≤ s.parkedOn die, ops := [op] }
  let join := fun (w : ParkedWrite) => { w with ops := w.ops ++ [op], holds := w.holds || holds }
  match s.lastParked tag (va / 64) with
  | some j => { s with parking := if s.parking[j]?.any same then s.parking.modify j join else s.parking ++ [entry] }
  | none => { s with parking := s.parking ++ [entry] }

/-- Operations that stand before a full buffer enter it in order, as there is room (R83). -/
def State.enterParking (s : State) : State :=
  (List.range s.parking.length).foldl (fun t k =>
    { t with parking := t.parking.modify k fun w =>
        { w with stalled := w.stalled && Config.parking ≤ t.parkedOn w.die } }) s

/-- Add lines touched to a page's access counters (R79-R81): the update is translated like a data access and parks like one;
DEDUCED (LOG 13): one that finds WR = 0 is dropped like one whose page is invalid. -/
def State.countPage (s : State) (page lines : Nat) (remote : Bool) (who : Toucher) : State :=
  match (s.context who.tag).bind Context.counters with
  | none => s
  | some base =>
    let va := base + 4 * (page / 65536)
    match s.walkBad who.tag va with
    | some k => (s.postFirst [.scrubPass k .uncorrectable]).dropCount who.part
    | none =>
      let t := s.correctWalk who.tag va
      match t.xlat who.tag va .store with
      | .ok m =>
        if m.wb then t.parkOp m who.tag 0 none va false (.count va page lines remote who)
        else (match t.reach who.tag true m.key with
          | some k => t.bumpCounts k page lines remote who
          | none => t.dropCount who.part)
      | _ => t.dropCount who.part

/-- Who an access of a sheaf is to a counter record (R77). -/
def State.toucher (s : State) (h : Sheaf) : Toucher :=
  { tag := s.tagOf h, part := s.partOf h, core := ((s.group h.group).map Group.core).getD 0, sheaf := h.sheafNo }

/-- The page that a frame stands for in the context it is allotted to. -/
def State.pageOf (s : State) (key : Nat) : Option Mapped := (s.pagesAt (s.frameOwner key) key).head?

/-- The lowest-numbered partition of a function (R25). -/
def State.firstPart (s : State) (fn : Nat) : Nat :=
  let parts := ((s.fns[fn]?).map VirtFn.parts).getD 0
  ((List.range 64).find? fun k => parts.getLsbD k).getD 0

/-- Host and peer accesses of lines: errors are corrected, and the lines count toward their pages' totals (R80, R89). DESIGN CHOICE
(LOG 13): a record it causes names core 0 and %sheaf 0xFFFF_FFFF, since no sheaf of the page's context is concerned. -/
def State.touchOutside (s : State) (keys : List Nat) : State :=
  let ms := keys.filterMap fun k => (s.pageOf k).bind fun m => if m.ce then some (s.frameOwner k, m.page) else none
  (ms.dedup).foldl (fun t p => t.countPage p.2 (ms.filter (· = p)).length false
    { tag := p.1, part := t.firstPart (t.fnOf p.1), core := 0, sheaf := 0xFFFFFFFF }) (s.correct keys)

/-! ### Code (R29, R34, R348, R349) -/

/-- A word of the image of a sheaf, when its page maps. -/
def State.codeWord (s : State) (h : Sheaf) (a : Nat) : Option Word :=
  match s.taskOf h with
  | none => none
  | some t => (s.readVA t.tag (t.codeBase + 4 * a) 4).map (BitVec.ofNat 32)

/-- Code words of a sheaf's image (R348). -/
def State.codeWords (s : State) (h : Sheaf) : Nat := ((s.taskOf h).map Task.codeWords).getD 0

/-- The target is the second or third word of a group (R34). -/
def State.midGroup (s : State) (h : Sheaf) (a : Nat) : Bool :=
  a % 3 ≠ 0 && (match s.codeWord h (a - 1) with | some w => fVer w = 1 && fCh w | none => false)

/-- The target is an EXT word (R34). -/
def State.extTarget (s : State) (h : Sheaf) (a : Nat) : Bool :=
  match s.codeWord h a with | some w => isExt w | none => false

/-- A legal target: in range, no EXT word, no later word of a group (R34, R356). -/
def State.legalTarget (s : State) (h : Sheaf) (a : Nat) : Bool :=
  a < s.codeWords h && !s.midGroup h a && !s.extTarget h a

/-- A version slot from the two words of the function table that hold it (R349). -/
def VerSlot.of (a b : Nat) : VerSlot :=
  { entry := a % 2 ^ 32, budget := bits a 39 32, flags := bits a 47 40, points := bits a 63 48, spTable := b % 2 ^ 32
    recTable := b / 2 ^ 32 }

/-- The version slot of a function and version, as the task's acceptance read it (R349; LOG 7); none when it is absent. -/
def Task.verSlot (t : Task) (f v : Nat) : Option VerSlot :=
  (t.versions.find? fun x => x.1 = f && x.2.1 = v).map fun x => x.2.2

/-- The target is the entry of a present version whose declared budget exceeds the sheaf's (R355). -/
def State.overBudget (s : State) (h : Sheaf) (a : Nat) : Bool :=
  (s.taskOf h).any fun t => t.versions.any fun x => x.2.2.entry = a && h.budget < x.2.2.budget

/-! ### Rings and barriers (R157, R384, R385) -/

/-- Change a barrier of a group. -/
def State.onBarrier (s : State) (gid b : Nat) (f : Barrier → Barrier) : State :=
  s.onGroup gid fun g => { g with barriers := g.barriers.modify b f }

/-- The phase completes (R384). -/
def Barrier.complete (b : Barrier) : Barrier := { b with phase := b.phase + 1, arr := 0, set := 0, timer := none }

/-- A sheaf arrives (R384); the first of a phase starts the timer (R386). -/
def Barrier.arrive (b : Barrier) (l : Nat) : Barrier :=
  let c := { b with arr := b.arr + 1, set := b.set ||| BitVec.ofNat 32 (2 ^ l), timer := some (b.timer.getD 0) }
  if c.arr = c.exp then c.complete else c

/-- A member is withdrawn by a kill (R385). -/
def Barrier.withdraw (b : Barrier) (l : Nat) : Barrier :=
  if b.live && b.exp ≠ 0 then
    let had := b.set.getLsbD l
    let c := { b with exp := b.exp - 1, canc := true, arr := if had then b.arr - 1 else b.arr,
                      set := if had then b.set &&& ~~~(BitVec.ofNat 32 (2 ^ l)) else b.set }
    if c.arr = c.exp then c.complete else c
  else b

/-- The state word BARST reads (R383). -/
def Barrier.word (b : Barrier) : DWord :=
  BitVec.ofBool b.live ++ BitVec.ofBool b.canc ++ 0#2 ++ BitVec.ofNat 6 b.exp ++ BitVec.ofNat 6 b.arr ++ b.phase ++ b.set

/-! ### Scopes (R414-R424) -/

/-- A scope of a context. -/
def Context.scope (c : Context) (id : BitVec 16) : Option Scope := c.scopes.find? (·.id = id)
/-- Change a scope. -/
def Context.onScope (c : Context) (id : BitVec 16) (f : Scope → Scope) : Context :=
  { c with scopes := c.scopes.map fun x => if x.id = id then f x else x }

/-- x lies in the subtree of y: y is x or an ancestor of it; `fuel` levels up (R414). -/
def Context.within (c : Context) (y : BitVec 16) : Nat → BitVec 16 → Bool
  | 0, x => x = y
  | n + 1, x => x = y || (x ≠ 0 && match c.scope x with | some sc => c.within y n sc.parent | none => false)

/-- The subtree test with the tree's depth (R414). -/
def Context.under (c : Context) (y x : BitVec 16) : Bool := c.within y 16 x

/-- The scope is live or cancelled (R415, R416). -/
def Context.scopeHeld (c : Context) (id : BitVec 16) : Bool :=
  match c.scope id with | some x => x.life ≠ .retired | none => false

/-- The scope is cancelled. -/
def Context.cancelled (c : Context) (id : BitVec 16) : Bool :=
  match c.scope id with | some x => x.life = .cancelled | none => false

/-- The lowest free ID from 1 up; none when 4,096 scopes, the root among them, are live or cancelled (R414). -/
def Context.freeScope (c : Context) : Option (BitVec 16) :=
  if 4096 ≤ (c.scopes.filter fun x => x.life ≠ .retired).length then none
  else (List.range 4097).findSome? fun i =>
    if i = 0 || c.scopeHeld (BitVec.ofNat 16 i) then none else some (BitVec.ofNat 16 i)

/-- Issue an ID to a new scope (R414-R416); under a cancelled parent it is born cancelled. -/
def Context.openScope (c : Context) (id parent : BitVec 16) (isTask : Bool) : Context :=
  let p := (c.scope parent).getD Scope.root
  let x : Scope := { Scope.root with
    id := id, parent := parent, depth := p.depth + 1, life := if p.life = .cancelled then .cancelled else .live
    isTask := isTask, cut := p.life = .cancelled }
  { c with scopes := c.scopes.filter (·.id ≠ id) ++ [x] }

/-- Change a scope and every ancestor of it; `fuel` levels up (R414). -/
def Context.onUp (c : Context) (f : Scope → Scope) : Nat → BitVec 16 → Context
  | 0, _ => c
  | n + 1, x =>
    match c.scope x with
    | none => c
    | some sc => if x = 0 then c.onScope x f else (c.onScope x f).onUp f n sc.parent

/-- A task lost something in the subtree (R424). -/
def Scope.lose (x : Scope) (tid sheaves dropped : Nat) : Scope :=
  { x with sheaves := x.sheaves + sheaves, dropped := x.dropped + dropped
           lostTasks := if x.lostTasks.contains tid then x.lostTasks else x.lostTasks ++ [tid] }

/-- Count dropped records, or launches, in a scope and all it lies in (R417, R424). -/
def State.countDropped (s : State) (tag : BitVec 12) (id : BitVec 16) (tid n : Nat) : State :=
  s.onContext tag fun c => c.onUp (·.lose tid 0 n) 16 id

/-- Count records that a bin discards for want of a %sheaf (R393, R424): no task loses them to a cancellation. -/
def State.countDiscarded (s : State) (tag : BitVec 12) (id : BitVec 16) (n : Nat) : State :=
  s.onContext tag fun c => c.onUp (fun x => { x with dropped := x.dropped + n }) 16 id

/-- The context of a sheaf lies in a subtree of scopes. -/
def State.sheafUnder (s : State) (tag : BitVec 12) (id : BitVec 16) (h : Sheaf) : Bool :=
  s.tagOf h = tag && (match s.context tag with | some c => c.under id h.scope | none => false)

/-- A record on its way belongs to a subtree (R397, R419). -/
def State.inFlight (s : State) (tag : BitVec 12) (under : BitVec 16 → Bool) : Bool :=
  s.agenda.any fun e => match e with
    | .binRecordArrival _ t _ scope _ _ _ => (s.task t).any (·.tag = tag) && under scope
    | .dependenceDecrement g _ _ scope _ => g = tag && under scope
    | _ => false

/-- A sheaf has work left: it lives, or what it issued is not done. In repeatable mode its exit counts from the commit of its
round on (R469). -/
def State.working (s : State) (h : Sheaf) : Bool :=
  h.life = .live || h.batches ≠ [] || h.loops ≠ [] || h.spawns ≠ 0 || h.buf ≠ [] || h.defer ≠ [] ||
    (h.life = .exited && h.quantumDone && (s.taskOf h).any fun t => t.lrec.flags.getLsbD 0 && !t.ended)

/-- Work of a subtree is left (R419): a sheaf resident or saved, a batch or loop of one, a deferred operation, a record
or set in a bin or on its way, an unplaced unit, a parked write. -/
def State.busyUnder (s : State) (tag : BitVec 12) (id : BitVec 16) : Bool :=
  let under := fun x => match s.context tag with | some c => c.under id x | none => false
  s.sheaves.any (fun h => s.sheafUnder tag id h && s.working h) ||
  s.bins.any (fun b => (s.task b.task).any (·.tag = tag) &&
    ((b.sets ++ b.closed).any (fun x => under x.scope) || b.waiting.any (fun x => under x.scope))) ||
  s.inFlight tag under ||
  s.tasks.any (fun t => t.tag = tag && ((under t.scope && t.units ≠ [] && !t.ended) || t.gathered.any fun r => under r.2.2.scope)) ||
  s.parking.any (fun w => w.tag = tag && ((s.sheaves.any fun h => h.uid = w.sheaf && s.sheafUnder tag id h) ||
    w.ops.any fun o => match o with | .depdec _ _ scope => under scope | _ => false))

/-- The count word of R424: 0 for a scope never cancelled. -/
def Scope.word (x : Scope) : DWord :=
  if x.cut then
    BitVec.ofNat 16 (min x.lostTasks.length 0xFFFF) ++ BitVec.ofNat 32 (min x.sheaves 0xFFFFFFFF) ++
      BitVec.ofNat 16 (min x.dropped 0xFFFF)
  else 0

/-- The count word that CWAIT writes (R424). -/
def State.countWord (s : State) (tag : BitVec 12) (id : BitVec 16) : DWord :=
  (((s.context tag).bind fun c => c.scope id).map Scope.word).getD 0

/-- Two samples at least 500 ns apart, and all between, found the subtree idle (R397, R419). -/
def Scope.quiet (x : Scope) (gtc : DWord) : Bool := x.idle.any fun t => t + 500 ≤ gtc.toNat

/-- A scope's subtree holds a repeatable task, or lies in one's: it changes at commits alone (R421). -/
def State.commits (s : State) (tag : BitVec 12) (x : Scope) : Bool :=
  s.tasks.any fun t => t.tag = tag && !t.ended && t.lrec.flags.getLsbD 0 &&
    (s.context tag).any fun c => c.under x.id t.scope || c.under t.scope x.id

/-- The subtree of a scope is known to be quiescent (R419). DEDUCED (LOG 23): where a repeatable task runs in it the state committed
by a round decides, so that no time does (R421, R472). -/
def State.quiet (s : State) (tag : BitVec 12) (x : Scope) : Bool := if s.commits tag x then x.idle.isSome else x.quiet s.gtc

/-- A CWAIT of a scope may return (R423): its subtree is quiescent, or it is retired. -/
def State.scopeDone (s : State) (tag : BitVec 12) (id : BitVec 16) : Bool :=
  match (s.context tag).bind fun c => c.scope id with
  | some x => x.life = .retired || s.quiet tag x
  | none => true

/-- Iguana samples the subtrees of a context's scopes (R419), of the root once the context has ended (R447): those that change at
commits alone when one has been made, the others at any time (R421). -/
def State.sampleScopes (s : State) (commit : Bool) (c : Context) : Context :=
  if c.scopes.length ≤ 1 && !c.ended then c
  else
    let look := fun (x : Scope) =>
      if s.commits c.tag x ≠ commit && !c.ended then x
      else { x with idle := if x.life ≠ .retired && s.busyUnder c.tag x.id then none else some (x.idle.getD s.gtc.toNat) }
    { c with scopes := c.scopes.map look }

/-- One pass of retirement over a context's scopes (R416): `quiet` says which subtrees may retire, having no work. -/
def State.retirePass (s : State) (tag : BitVec 12) (quiet : Scope → Bool) : State :=
  match s.context tag with
  | none => s
  | some c =>
    let retirable := fun (x : Scope) =>
      x.id ≠ 0 && x.life ≠ .retired && !x.isOpen && quiet x &&
      !(s.sheaves.any fun h => h.life = .live && s.tagOf h = tag && h.scope = x.id) &&
      !(c.scopes.any fun y => y.parent = x.id && y.id ≠ 0 && y.life ≠ .retired)
    s.onContext tag fun c => { c with scopes := c.scopes.map fun x => if retirable x then { x with life := .retired } else x }

/-- Retire every scope that can (R416): children first, at most 16 levels. -/
def State.retire (s : State) (tag : BitVec 12) (quiet : Scope → Bool) : State :=
  (List.range 16).foldl (fun t _ => t.retirePass tag quiet) s

/-! ### The end of a sheaf, a group and a context -/

/-- The route is outbound (R148, R152). -/
def routeOut (r : BitVec 3) : Bool := r = 1 || r = 3 || r = 5 || r = 7

/-- Insert a request before the first with a higher destination line, after its equals (R151). -/
def insertReq (r : CopyReq) : List CopyReq → List CopyReq
  | [] => [r]
  | x :: xs => if r.dst / 64 < x.dst / 64 then r :: x :: xs else x :: insertReq r xs

/-- The requests of one CPY in transfer order: ascending destination lines, lanes ascending (R151). -/
def transferOrder (rs : List CopyReq) : List CopyReq := rs.foldl (fun a r => insertReq r a) []

/-- A batch as CPYB closes it (R151-R153), with what the engine has done for it. -/
def Batch.of (num : BitVec 8) (scope : BitVec 3) (ring : Option Nat) (cpys : List Cpy) (outbound : Bool) (prog : CopyProg)
    (p0 p1 closed : DWord) : Batch :=
  { num := num, scope := scope, outbound := outbound, ring := ring, cpys := cpys, promise0 := p0, promise1 := p1
    closed := closed, ev0 := false, prog := prog }

/-- The copies of an open batch run on under a batch of their own that gives no record (R165, R364); in repeatable mode they are
performed at the commit (R166). -/
def Sheaf.closeOpen (h : Sheaf) (rep : Bool) : Sheaf :=
  if h.openCpys = [] then h
  else
    { h with
      openCpys := []
      openProg := CopyProg.zero
      openOut := false
      nextBatch := h.nextBatch + 1
      batches := h.batches ++ [Batch.of h.nextBatch 0 none h.openCpys h.openOut h.openProg 0 0 0]
      buf := if rep then h.buf ++ [.batch h.nextBatch] else h.buf }

/-- What a killed sheaf issued and a commit still performs (R418, R421): atomics, decrements, signals, records, cancellations; a
barrier, step, slot or opening operation dies with it, and a PUB that has not swapped (R165). -/
def Deferred.survives : Deferred → Bool
  | .atomic _ _ _ _ _ _ _ | .depdec _ _ _ | .signal _ _ _ _ _ | .record _ _ _ _ | .cancel _ => true
  | _ => false

/-- A sheaf's own engines stop: loads deliver nothing, loops stop, requests run on, and what it issued in repeatable mode is
left for the commit (R364, R418). DESIGN CHOICE (LOG 32): a trap that pends as the sheaf ends is dropped, that of a floating word
beside an EXIT too (R243). -/
def Sheaf.stop (h : Sheaf) (l : Life) (rep : Bool) : Sheaf :=
  let g := h.closeOpen rep
  { g with life := l, loads := [], replays := [], loops := [], windows := [], wait := none, parked := [], pend := [],
           request := none, asked := none, look := false, rep := none, snap := none, rest := [], mid := false, entering := none, saved := false, dbgHalt := false,
           defer := if l = .killed then g.defer.filter Deferred.survives else g.defer }

/-- The READ entries of a sheaf's loops retire (R195). -/
def State.dropLoops (s : State) (uid : Nat) : State :=
  { s with scoreboard := s.scoreboard.filter fun e => !(e.sheaf = uid && e.loop) }

/-- Two level-1 groups of one level-2 group: their indices agree above level 1 (R351). DESIGN CHOICE (LOG 23): the level-1 group
of a bin's sheaf (R392) belongs to no level-2 group, on which the spec is silent, so that its cluster addresses trap RANGE (R64). -/
def Group.sameL2 (g k : Group) : Bool :=
  g.task = k.task && !g.fromBin && !k.fromBin && g.gi.toList.drop 1 = k.gi.toList.drop 1

/-- The groups of the level-2 group of one (R401). -/
def State.mates (s : State) (g : Group) : List Group := s.groups.filter fun k => g.sameL2 k && !k.freed

/-- Room has come free on a core (R371, R374, R378, R454): its Newt, the saved groups and the gangs that wait look again. -/
def State.roomFreed (s : State) (core : Nat) : State :=
  s.post ((if (s.clusters[core / 8]?).any fun c => c.newt ≠ [] then [.groupPlacement (core / 8)] else []) ++
    (if (s.dies[core / 64]?).any fun d => d.units ≠ [] || d.pieces ≠ [] then [.unitHandout (core / 64)] else []) ++
    ((s.groups.filter fun g => g.saved && !g.freed).map fun g => .groupRestore g.gid))

/-- A group has ended (R374): a gang that could not reserve on its partition tries again. -/
def State.groupEnded (s : State) (g : Group) : State :=
  let p := (s.partitions.find? fun p => p.clusters.contains (g.core / 8)).map Partition.num
  let again := fun (t : Task) => match t.gang with | .rolledBack ps => p.any ps.contains | _ => false
  (s.post (.taskEnd g.task :: (s.tasks.filter again).map fun t => .gangRetry t.tid)).roomFreed g.core

/-- Every sheaf of a group has ended and its batches are complete: free the group (R165, R183). A paced group waits for
its whole level-2 group (R401). -/
def State.reap (s : State) (gid : Nat) : State :=
  match s.group gid with
  | none => s
  | some g =>
    let done := fun (k : Nat) => !(s.sheaves.any fun h => h.group = k && h.life ≠ .absent &&
      (h.life = .live || h.batches ≠ [] || h.buf ≠ [] || h.defer ≠ []))
    let paced := (s.task g.task).any fun t => t.lrec.flags.getLsbD 1
    if paced && !g.fromBin then
      if (s.mates g).all (fun k => done k.gid) then
        let free := fun (k : Group) => if g.sameL2 k then { k with freed := true } else k
        State.groupEnded { s with groups := s.groups.map free } g
      else s
    else if done gid then (s.onGroup gid fun k => { k with freed := true }).groupEnded g
    else s

/-- The sheaf belongs to a paced group (R400). -/
def State.paced (s : State) (h : Sheaf) : Bool := !h.fromBin && (s.taskOf h).any fun t => t.lrec.flags.getLsbD 1

/-- A paced group dies; its cluster records the death (R403, R406). -/
def State.markDead (s : State) (gid : Nat) : State :=
  let core := ((s.group gid).map Group.core).getD 0
  { s with
    groups := s.groups.map fun g => if g.gid = gid then { g with dead := true } else g
    deaths := if s.deaths.contains gid then s.deaths else s.deaths ++ [gid]
    agenda := s.agenda ++ [.deathRecorded (core / 8) gid] }

/-- The advance of every group of the level-2 group is due for evaluation (R404). -/
def State.postAdvance (s : State) (gid : Nat) : State :=
  match s.group gid with
  | none => s
  | some g => if (s.task g.task).any (fun t => t.lrec.flags.getLsbD 1) && !g.fromBin
    then s.post ((s.mates g).map fun k => .groupAdvance k.gid) else s

/-- Close the scopes a sheaf opened: the path from its scope up to its base scope (R416). -/
def Context.closePath (c : Context) (base : BitVec 16) : Nat → BitVec 16 → Context
  | 0, _ => c
  | n + 1, x =>
    if x = base then c
    else
      match c.scope x with
      | none => c
      | some sc => (c.onScope x fun y => { y with isOpen := false }).closePath base n sc.parent

/-- Kill one sheaf (R418): its engines stop, its barriers lose it, its paced group is dead, and the scope counts it. -/
def State.kill (s : State) (uid : Nat) : State :=
  match s.sheaf uid with
  | none => s
  | some h =>
    if h.life ≠ .live then s
    else
      let tag := s.tagOf h
      let s1 := (s.onSheaf uid (·.stop .killed (s.repeats h))).dropLoops uid
      let s2 := s1.onGroup h.group fun g => { g with barriers := g.barriers.map (·.withdraw h.lsheaf.toNat) }
      let s3 := if s2.paced h then s2.markDead h.group else s2
      let s4 := s3.onContext tag fun c => (c.closePath h.baseScope 16 h.scope).onUp (·.lose h.task 1 0) 16 h.scope
      ((s4.postAdvance h.group).reap h.group).roomFreed (((s.group h.group).map Group.core).getD 0)

/-- EXIT of the sheaf in the issue slot (R364, R403): its engines stop, its scopes close, its batches run on. -/
def State.exit (s : State) : State :=
  let h := s.sh
  let tag := s.tag
  let s1 := ({ s with sh := { h.stop .exited s.repeatable with quantumDone := s.repeatable } }).dropLoops h.uid
  let s2 := if s1.paced h && h.hnd then s1.markDead h.group else s1
  let s3 := s2.onContext tag fun c => c.closePath h.baseScope 16 h.scope
  ((s3.postAdvance h.group).reap h.group).roomFreed s.core

/-- A bin has accepted a record; with the last one the SPAWN that sent it is done (R399). -/
def State.accepted (s : State) (sender : Nat) (last : Bool) : State :=
  if last then s.onSheaf sender fun h => { h with spawns := h.spawns - 1 } else s

/-- CANCEL of a scope: mark the subtree, discard its records, drop its units, and have its sheaves killed (R417). -/
def State.cancel (s : State) (tag : BitVec 12) (id : BitVec 16) : State :=
  match s.context tag with
  | none => s
  | some c =>
    if !(match c.scope id with | some x => x.life = .live | none => false) then s
    else
      let inTree := fun x => c.under id x
      let hit := s.sheaves.filter fun h => h.life = .live && s.tagOf h = tag && inTree h.scope
      let mine := fun (b : Bin) => (s.task b.task).any (·.tag = tag)
      let mark := fun (x : Scope) => if inTree x.id && x.life = .live then { x with life := .cancelled, cut := true } else x
      let s1 := s.onContext tag fun c => { c with scopes := c.scopes.map mark }
      let s2 := s.bins.foldl (fun t b => if mine b then
          let t1 := (b.sets ++ b.closed).foldl (fun t x =>
            if inTree x.scope then t.countDropped tag x.scope b.task x.records.length else t) t
          b.waiting.foldl (fun t x =>
            if inTree x.scope then (t.countDropped tag x.scope b.task 1).accepted x.sender x.last else t) t1
        else t) s1
      let purge := fun (b : Bin) => if mine b then
          { b with sets := b.sets.filter (fun x => !inTree x.scope), closed := b.closed.filter (fun x => !inTree x.scope)
                   waiting := b.waiting.filter (fun x => !inTree x.scope) }
        else b
      let s3 := { s2 with bins := s2.bins.map purge }
      let lost := s3.tasks.filter fun t => t.tag = tag && inTree t.scope && t.units ≠ []
      let s4 := lost.foldl (fun t k => t.countDropped tag k.scope k.tid 0) s3
      let drop := fun (t : Task) => if t.tag = tag && inTree t.scope then { t with units := [] } else t
      let gone := fun (tid : Nat) => lost.any fun t => t.tid = tid
      let keepJob := fun (j : Job) => match j with | .groups t _ _ => !gone t | .set _ _ _ _ => true
      let s5 := { s4 with
        tasks := s4.tasks.map drop
        dies := Vector.ofFn fun i => { s4.dies[i] with
          units := s4.dies[i].units.filter (fun u => !gone u.1), pieces := s4.dies[i].pieces.filter (fun u => !gone u.1) }
        clusters := Vector.ofFn fun i => { s4.clusters[i] with newt := s4.clusters[i].newt.filter keepJob } }
      (s5.postFirst (hit.map fun h => .sheafKill h.uid)).post (lost.map fun t => .taskEnd t.tid)

/-- The end record of a context (R448). -/
def endRecord (gtc : DWord) (tag : BitVec 12) (cause : BitVec 8) (flags core : Nat) (sheaf pc : BitVec 32)
    (aux va : DWord) : List Byte :=
  leBytes 8 gtc.toNat ++ leBytes 8 (tag.toNat + cause.toNat * 2 ^ 16 + flags * 2 ^ 24 + core * 2 ^ 32) ++
  leBytes 8 (sheaf.toNat + pc.toNat * 2 ^ 32) ++ leBytes 8 aux.toNat ++ leBytes 8 va.toNat ++ leBytes 24 0

/-- Code of a cause in %trcause (R439). -/
def Cause.code : Cause → BitVec 8
  | .illop => 0x01 | .illgrp => 0x02 | .regbud => 0x03 | .budget => 0x04 | .laviol => 0x05 | .qdepth => 0x06
  | .priv => 0x07 | .trapi => 0x08 | .bkpt => 0x09 | .fpinv => 0x10 | .fpdiv0 => 0x11 | .fpovf => 0x12
  | .fpunf => 0x13 | .fpinx => 0x14 | .align => 0x18 | .range => 0x19 | .atomdup => 0x1A | .fmtmix => 0x1B
  | .scalemix => 0x1C | .fmtnone => 0x1D | .xlate => 0x20 | .prot => 0x21 | .late => 0x28 | .ringstate => 0x29
  | .barstate => 0x2A | .stepdead => 0x30 | .ue => 0x38 | .wdbar => 0x39 | .wddead => 0x3A | .xfermap => 0x48

/-- A context is quiescent (R419, R447 step 4). -/
def State.contextIdle (s : State) (tag : BitVec 12) : Bool :=
  !(s.sheaves.any fun h => s.tagOf h = tag && (h.life = .live || h.batches ≠ [] || h.buf ≠ [] || h.defer ≠ [])) &&
  !(s.parking.any fun w => w.tag = tag) && !s.busyUnder tag 0

/-- An ended context found quiescent (R419): free its resources and interrupt its function (R447); its frames, their lines and
their owners stay as they are until the driver releases them (R510). -/
def State.releaseContext (s : State) (tag : BitVec 12) : State :=
  match s.context tag with
  | none => s
  | some c =>
    if c.ended && !c.released && s.contextIdle tag && (c.scope 0).all (·.quiet s.gtc) then
      let free := fun (g : Group) => if (s.task g.task).any (·.tag = tag) then { g with freed := true } else g
      let shutTask := fun (t : Task) => if t.tag = tag then { t with ended := true, units := [] } else t
      let s1 := { s with tasks := s.tasks.map shutTask, groups := s.groups.map free }
      (s1.onContext tag fun c => { c with released := true }).interrupt c.fn 1
    else s

/-- Every cache drops what it holds of some pages of a context (R75). -/
def State.dropTlb (s : State) (tag : BitVec 12) (lo len : Nat) : State :=
  { s with tlb := s.tlb.filter fun x => !(x.tag = tag && x.page < lo + len && lo < x.page + x.size) }

/-- The caches of a cluster and of its cores are empty (R500). -/
def State.emptyTlb (s : State) (c : Nat) : State :=
  { s with tlb := s.tlb.filter fun x => !(x.cache = 512 + c || x.cache / 8 = c) }

/-- The driver releases the frames of an ended context (R86): each line is cleared and unowned, and the tag is free, with no
translation cached under it (R72). -/
def State.releaseFrames (s : State) (tag : BitVec 12) : State :=
  match s.context tag with
  | some c =>
    if c.released then
      let t := c.frames.foldl (fun t f => t.clearRange 0 f.1 f.2) s
      { t with contexts := t.contexts.filter (·.tag ≠ tag), tlb := t.tlb.filter (·.tag ≠ tag) }
    else s
  | none => s

/-- A trace record (R494). -/
def traceBytes (gtc : DWord) (source kind mask : Nat) (sheaf : Nat) (va data : Nat) : List Byte :=
  leBytes 8 gtc.toNat ++ leBytes 8 (source + kind * 2 ^ 16 + mask * 2 ^ 24 + sheaf * 2 ^ 32) ++ leBytes 8 va ++ leBytes 8 data

/-- Write a trace record while the ring has space; else count the drop (R494). -/
def State.traceRec (s : State) (fn : Nat) (tag : BitVec 12) (bs : List Byte) : State :=
  match s.fns[fn]? with
  | none => s
  | some v =>
    let size := 2 ^ ((v.trring.extractLsb' 8 4).toNat + 6)
    if v.trtail < size then
      (s.putVA tag (v.trring.toNat / 4096 * 4096 + 32 * v.trtail) bs).onFn fn fun w => { w with trtail := w.trtail + 1 }
    else s.onFn fn fun w => { w with trdrop := w.trdrop + 1 }

/-- A recording session ends with a stop record, or with TRUNC-RESET (R495, R496). -/
def State.endTrace (s : State) (fn : Nat) (tag : BitVec 12) (source kind : Nat) : State :=
  match s.fns[fn]? with
  | some v => if v.trace = .recording then
      (s.traceRec fn tag (traceBytes s.gtc source kind 0 0xFFFFFFFF 0 0)).onFn fn fun w => { w with trace := .closed }
    else s
  | none => s

/-! ### Performance counters (R490, R491) -/

/-- Events a counter counts (R491). -/
inductive Counted where
  | cycles | groups | fpLanes | kSteps | bankExcess | copyLines | tlbMisses | walks | bufferMisses | late | stalls
  | phases | sagCycles
  deriving DecidableEq, Repr

/-- EVENT code (R491). -/
def Counted.code : Counted → Nat
  | .cycles => 1 | .groups => 2 | .fpLanes => 3 | .kSteps => 4 | .bankExcess => 5 | .copyLines => 6 | .tlbMisses => 7
  | .walks => 8 | .bufferMisses => 9 | .late => 10 | .stalls => 11 | .phases => 12 | .sagCycles => 13

/-- Clusters of the partitions bound to a virtual function (R462, R491). -/
def State.fnClusters (s : State) (fn : Nat) : List Nat :=
  match s.fns[fn]? with
  | none => []
  | some v => (s.partitions.filter fun p => v.parts.getLsbD p.num).flatMap Partition.clusters

/-- What a swap has taken out of a function's clusters: in slots, and saved to device memory (R465, R490). -/
def State.shadows (s : State) (fn : Nat) : List Shadow :=
  ((s.dies.toList.flatMap fun d => d.slots.toList.filterMap id) ++ s.saves).filter fun x => x.fn = fn

/-- The function's counters stand in its cluster, not in a shadow: it is the resident one (R463, R490). -/
def State.holdsCluster (s : State) (fn c : Nat) : Bool :=
  match s.partitions.find? fun p => p.clusters.contains c with
  | some p => p.resident = some fn
  | none => false

/-- PCVALn: the sum over the function's clusters, and over what was swapped out of them (R490, R491). -/
def State.pcval (s : State) (fn n : Nat) : DWord :=
  ((((s.fnClusters fn).filter (s.holdsCluster fn)).map fun c => ((s.clusters[c]?).bind fun k => k.counters[n]?).getD 0) ++
    (s.shadows fn).map fun x => (x.counters[n]?).getD 0).foldl (· + ·) 0

/-- Add to a cluster's counter, wrapping. -/
def Cluster.bump (k : Cluster) (n : Nat) (x : DWord) : Cluster :=
  { k with counters := k.counters.setIfInBounds n (((k.counters[n]?).getD 0) + x) }

/-- A counter of the sheaf's function selects this event. -/
def State.counts (s : State) (e : Counted) : Bool :=
  (s.fns[s.fnOf s.tag]?).any fun v => v.psel.toList.any fun x => (x.extractLsb' 0 8).toNat = e.code

/-- A session begins to record (R495). -/
def State.beginTrace (s : State) (fn : Nat) (tag : BitVec 12) (source : Nat) : State :=
  match s.fns[fn]? with
  | some v => if v.trace = .armed then
      (s.onFn fn fun w => { w with trace := .recording }).traceRec fn tag (traceBytes s.gtc source 2 0 0xFFFFFFFF 0 0)
    else s
  | none => s

/-- The stop condition holds (R495): a session that records closes with this step, whose writes it still records. -/
def State.stopTrace (s : State) (fn source : Nat) : State :=
  s.onFn fn fun w => { w with stopping := w.stopping || w.trace = .recording, stopAt := source }

/-- A start or stop condition of a kind, with this number in the low `n` bits of its VALUE (R495). -/
def condIs (c : DWord) (kind n value : Nat) : Bool :=
  (c.extractLsb' 60 4).toNat = kind && (c.extractLsb' 0 60).toNat % 2 ^ n = value

/-- Charge an event to the cluster of a core of a context (R490, R491); a sum that passes its top interrupts (OVI). -/
def State.count (s : State) (tag : BitVec 12) (core : Nat) (e : Counted) (x : Nat) : State :=
  if x = 0 || tag = 0 then s
  else
    let fn := s.fnOf tag
    match s.fns[fn]? with
    | none => s
    | some v =>
      (List.range 16).foldl (fun t n =>
        let sel := (v.psel[n]?).getD 0
        if (sel.extractLsb' 0 8).toNat ≠ e.code then t
        else
          let old := t.pcval fn n
          let u := t.onCluster (core / 8) fun k => k.bump n (BitVec.ofNat 64 x)
          if old.toNat + x < 2 ^ 64 then u
          else
            let w := if sel.getLsbD 8 then u.interrupt fn 2 else u
            let b := if condIs v.trstart 5 4 n then w.beginTrace fn tag 585 else w
            if condIs v.trstop 5 4 n then b.stopTrace fn 585 else b) s

/-- Count for the sheaf in the issue slot. -/
def State.countMine (s : State) (e : Counted) (x : Nat) : State := s.count s.tag s.core e x

/-! ### The end of a context -/

/-- The step that ends a collective once every contribution is in or replaced (R487). -/
def Collective.event (c : Collective) : Event :=
  if c.kind = 1 then .allReduce c.cid else if c.kind = 2 then .allGather c.cid else .broadcast c.cid

/-- Collectives lose some of their participants (R488): ABANDON takes the place of each contribution. -/
def State.abandon (s : State) (gone : Collective → Nat → Bool) : State :=
  let lose := fun (c : Collective) =>
    { c with members := c.members.filter fun m => !gone c m.index
             abandoned := c.abandoned ++ (List.range c.table.length).filter fun j => gone c j && !c.abandoned.contains j }
  let t := { s with collectives := s.collectives.map lose }
  t.post (t.collectives.map Collective.event)

/-- A live context of a function: the one its collective ring and its trace records are translated for (LOG 13). -/
def State.fnTag (s : State) (fn : Nat) : BitVec 12 :=
  ((s.contexts.find? fun c => c.fn = fn && !c.ended).map Context.tag).getD 0

/-- Participants of a collective that a table names on this module as a function (R486). -/
def State.isMember (s : State) (fn : Nat) (c : Collective) (j : Nat) : Bool :=
  c.table[j]? = some (s.modId.toNat + fn * 2 ^ 21)

/-- The participant is a context's (R486, R488): it has contributed for it, or would through its function's ring. -/
def State.gives (s : State) (fn : Nat) (tag : BitVec 12) (c : Collective) (j : Nat) : Bool :=
  match c.members.find? (·.index = j) with
  | some m => m.tag = tag
  | none => s.isMember fn c j && s.fnTag fn = tag

/-- End a context (R447): its record, its queues, its scopes; its sheaves die at their next kill point. -/
def State.endContextAt (s : State) (core : Nat) (tag : BitVec 12) (cause : BitVec 8) (flags : Nat) (who : Option Sheaf)
    (pc : BitVec 32) (aux va : DWord) : State :=
  match s.context tag with
  | none => s
  | some c =>
    if c.ended then s
    else
      let rcd := endRecord s.gtc tag cause flags core ((who.map Sheaf.sheafNo).getD 0xFFFFFFFF)
        (if who.isSome then pc else 0xFFFFFFFF) aux va
      let s1 := if c.diag = 0 then s else s.putVA tag c.diag rcd
      let shut := fun (v : VirtFn) (q : Fin 8) =>
        if c.queues.contains q.val then { v.queues[q] with cfg := v.queues[q].cfg &&& ~~~1#64, running := [] } else v.queues[q]
      let s2 := (s1.endTrace c.fn tag 584 4).onFn c.fn fun v => { v with queues := Vector.ofFn (shut v) }
      let s3 := { s2 with held := s2.held.filter (·.command.tag ≠ tag), iwrites := s2.iwrites.filter (·.tag ≠ tag) }.onContext tag fun x => { x with ended := true }
      (s3.cancel tag 0).abandon (s.gives c.fn tag)

/-- A context ends at a sheaf's core, or with no sheaf concerned (R447, R448). -/
def State.endContext (s : State) (tag : BitVec 12) (cause : BitVec 8) (flags : Nat) (who : Option Sheaf) (pc : BitVec 32)
    (aux va : DWord) : State :=
  s.endContextAt (((who.bind fun h => s.group h.group).map Group.core).getD 0) tag cause flags who pc aux va

/-- A context ends for an uncorrectable error that no sheaf met (R90, R448). -/
def State.endForError (s : State) (tag : BitVec 12) (va : DWord) : State :=
  s.endContext tag Cause.ue.code 0 none 0 0 va

/-! ### Errors (R88-R90) -/

/-- A line's address in an end record (R448): the device VA where the context maps it, else its tier address. -/
def State.lineVA (s : State) (tag : BitVec 12) (k : Nat) : DWord :=
  BitVec.ofNat 64 (((s.pagesAt tag (lineOf k)).head?.map Mapped.va).getD (lineOf k % spaceSize))

/-- An uncorrectable error met in the line of a key (R90): its live owner ends, else the line is cleared and that is logged. -/
def State.containError (s : State) (k : Nat) : State :=
  match s.liveOwner k with
  | some owner => s.endForError owner (s.lineVA owner k)
  | none => s.clearLine k

/-- A walk meets a table line in error, which is contained like any line (R68, R90). -/
def State.containWalk (s : State) (tag : BitVec 12) (va : Nat) : State :=
  match s.walkBad tag va with | some k => s.containError k | none => s

/-- Park the sheaf at its group: one fault record per page, and no effect (R74). The walks that found no entry are counted (R72,
R491). -/
def State.park (s : State) (pages : List Nat) (acc : Access) : State :=
  let ps := pages.map fun v => (BitVec.ofNat 64 v, acc.code)
  let s := (s.countMine .tlbMisses pages.length).countMine .walks pages.length
  let t := ps.foldl (fun t p => t.notify (s.partOf s.sh) (s.notice p.1 1 p.2 0) true) s
  pages.foldl (fun t v => t.containWalk s.tag v) { t with sh := { t.sh with parked := ps } }

/-- Perform the bytes of an issued write at a key (R86, R138): a full-line write replaces a line in error, a partial one meets
the error and is not made. -/
def State.land (s : State) (tag : BitVec 12) (k : Nat) (bs : List Byte) (whole : Bool) : State :=
  let s1 := s.correct [k]
  if s1.lineBad k && !whole then s1.containError k
  else State.putBytes { s1 with badLines := if whole then s1.badLines.filter (· ≠ lineOf k) else s1.badLines } tag k bs

/-! ### Deliveries: loads, matrix loops (R54, R140, R285-R287) -/

/-- Write what a load fixed (R140). -/
def PendLoad.write (l : PendLoad) (r : Regs) : Regs := l.dest.foldl (fun r d => r.write l.em d.1 d.2) r

/-- A load or returning atomic of a sheaf delivers, once its value is fixed (R140, R146). -/
def Sheaf.deliver (h : Sheaf) (k : Nat) : Sheaf :=
  match h.loads[k]? with
  | none => h
  | some l => if l.waits = 0 then { h with loads := h.loads.eraseIdx k, regs := l.write h.regs } else h

/-- Every load whose value is fixed delivers, oldest first (R57). -/
def Sheaf.deliverAll (h : Sheaf) : Sheaf :=
  { h with loads := h.loads.filter (·.waits ≠ 0)
           regs := (h.loads.filter (·.waits = 0)).foldl (fun r l => l.write r) h.regs }

/-- One lane of an atomic's old value arrives for a load that waits for it (R83, R134): `x` in one or two registers. -/
def Sheaf.fixLane (h : Sheaf) (ref lane : Nat) (x : DWord) : Sheaf :=
  let put := fun (d : (Nat × Row) × Nat) =>
    (d.1.1, d.1.2.setIfInBounds lane (x.extractLsb' (32 * d.2) 32))
  { h with loads := h.loads.map fun l =>
      if l.ref = ref && l.waits ≠ 0 then { l with waits := l.waits - 1, dest := l.dest.zipIdx.map put } else l }

/-- An asynchronous trap pends; lanes of one word are reported together (R120, R441). -/
def Sheaf.pendAsync (h : Sheaf) (c : Cause) (lanes aux : DWord) : Sheaf :=
  let same := fun (q : PendTrap) => q.kind = .async && q.cause = c && q.aux = aux && !q.held && !q.emMask
  if h.pend.any same then
    { h with pend := h.pend.map fun q => if same q then { q with mask := q.mask ||| lanes } else q }
  else { h with pend := h.pend ++ [{ kind := .async, cause := c, pc := none, mask := lanes, aux := aux }] }

/-- %traux of a word reported after its group (R120): the word and the code of its destination. -/
def lateAux (word : Word) (dest : BitVec 9) : DWord := word ++ 0#23 ++ dest

/-- A lane of an atomic meets a line in error when it is performed (R90): the load that waits for it goes without that lane, and
DEDUCED (LOG 21) the PROT of its word is asynchronous, since its group has gone. -/
def Sheaf.failLane (h : Sheaf) (word : Word) (ret : Option Nat) (lane : Nat) : Sheaf :=
  if h.life ≠ .live then h
  else
    let mine := fun (l : PendLoad) => ret == some l.ref && l.waits != 0
    let cut := fun (l : PendLoad) =>
      if mine l then { l with waits := l.waits - 1, em := l.em &&& ~~~(BitVec.ofNat 64 (2 ^ lane)) } else l
    let dest : BitVec 9 := (((h.loads.find? mine).bind fun l => l.dest.head?).map fun d => BitVec.ofNat 9 d.1).getD 0x1FF
    let g : Sheaf := { h with loads := h.loads.map cut }
    g.pendAsync .prot (BitVec.ofNat 64 (2 ^ lane)) (lateAux word dest)

/-- A lane of a word is turned away, or not made, once its group has gone (R90, R120). -/
def Sheaf.rejected (h : Sheaf) (x : Issuer) : Sheaf :=
  if h.life = .live then h.pendAsync .prot (BitVec.ofNat 64 (2 ^ x.lane)) (lateAux x.word x.dest) else h

/-- A lane has gone to host or peer memory, with the bytes it found and left there (R120). -/
def Sheaf.addFar (h : Sheaf) (x : Issuer) (key : Nat) (old new : List Byte) : Sheaf :=
  let joins := fun (f : FarWrite) => f.word = x.word && f.dest = x.dest && f.lanes.all fun l => l.1 ≠ x.lane
  match h.far.reverse with
  | [] => { h with far := [⟨x.word, x.dest, [(x.lane, key, old, new)]⟩] }
  | f :: r =>
    if joins f then { h with far := r.reverse ++ [{ f with lanes := f.lanes ++ [(x.lane, key, old, new)] }] }
    else { h with far := h.far ++ [⟨x.word, x.dest, [(x.lane, key, old, new)]⟩] }

/-- A peer address whose module no route reaches any more (R485). -/
def State.cutOff (s : State) (k : Nat) : Bool :=
  3 * spaceSize ≤ k && k < 4 * spaceSize && !(s.routes.any fun r => r.1 = (k - 3 * spaceSize) / 2 ^ 43 && r.2 ≠ [])

/-- Perform the bytes of a sheaf's write after its group has gone, or far away: a lane that no route carries or that meets an error
is rejected (R90, R120, R485), and one that has left the module can still be. -/
def State.landFrom (s : State) (tag : BitVec 12) (uid : Nat) (x : Issuer) (k : Nat) (bs : List Byte) (whole : Bool) : State :=
  if s.cutOff k then s.onSheaf uid fun h => h.rejected x
  else if s.lineBad k && !whole then (s.land tag k bs whole).onSheaf uid fun h => h.rejected x
  else if isForeign k then (s.land tag k bs whole).onSheaf uid fun h => h.addFar x k (readBytes s.mem k bs.length) bs
  else s.land tag k bs whole

/-- Write a descriptor at a key (R127); a line in error is met as by a partial write (R90). -/
def State.landDesc (s : State) (tag : BitVec 12) (k : Nat) (v : BitVec 16) : State :=
  if s.lineBad k then s.containError k else s.putDesc tag k v

/-- Write a descriptor after its group has gone. -/
def State.landDescFrom (s : State) (tag : BitVec 12) (uid : Nat) (x : Issuer) (k : Nat) (v : BitVec 16) : State :=
  if s.lineBad k then (s.landDesc tag k v).onSheaf uid fun h => h.rejected x else s.landDesc tag k v

/-- Lanes of a host or peer write are turned away (R120): where nothing has been written since, their bytes are as before. -/
def State.undoFar (s : State) (lanes : List (Nat × Nat × List Byte × List Byte)) : State :=
  lanes.reverse.foldl (fun t l =>
    if readBytes t.mem l.2.1 l.2.2.2.length = l.2.2.2 then { t with mem := writeBytes t.mem l.2.1 l.2.2.1 } else t) s

/-- A repeatable sheaf's store buffer loses what it holds (R470): its context ends (R90). DESIGN CHOICE (LOG 22): the buffered writes
are lost with it. -/
def State.bufError (s : State) (uid : Nat) : State :=
  match s.sheaf uid with
  | none => s
  | some h =>
    if s.repeats h && (h.life = .live || h.buf ≠ []) then
      (s.onSheaf uid fun h => { h with buf := h.buf.filter fun w => match w with | .batch _ => true | _ => false }).endForError (s.tagOf h) 0
    else s

/-- The records of a saved group lose what they hold (R452): its context ends. -/
def State.recordError (s : State) (gid : Nat) : State :=
  match s.group gid with
  | some g => if g.saved && !g.freed then (match s.task g.task with | some t => s.endForError t.tag 0 | none => s) else s
  | none => s

/-- A line from one key to another holds an uncorrectable error. -/
def State.badBetween (s : State) (lo hi : Nat) : Bool := s.badLines.any fun k => lo ≤ k && k < hi

/-- Registers a loop keeps pending: its accumulator and its register operands (R54, R279, R289). -/
def Loop.regs (l : Loop) : List Nat :=
  let rng := fun (p : Nat × Nat) => (List.range p.2).map (p.1 + ·)
  rng (l.d, accSize l.cfg) ++ (if cfgASrc l.cfg then rng (cfgAReg l.cfg, 8 * l.steps) else []) ++
    (if cfgBSrc l.cfg then rng (cfgBReg l.cfg, 8 * l.steps) else [])

/-- Registers pending in a sheaf (R54). -/
def Sheaf.pending (h : Sheaf) : List Nat :=
  h.loads.flatMap (fun l => l.dest.map (·.1)) ++ h.loops.flatMap Loop.regs

/-- The group an operand descriptor names (R277): the sheaf's own, or in cluster form that of its level-2 group on a core. -/
def State.opGroup (s : State) (h : Sheaf) (d0 : DWord) : Option Group :=
  (s.group h.group).bind fun g =>
    if d0.getLsbD 23 then
      (s.mates g).find? fun k => k.core = g.core / 8 * 8 + (d0.extractLsb' 0 23).toNat / 2 ^ 20 && !k.saved
    else some g

/-- Where an operand's base lies in a group's allocation: the key of its base and the bytes left (R277). -/
def Group.opBase (g : Group) (d0 : DWord) : Option (Nat × Nat) :=
  let base := (d0.extractLsb' 0 23).toNat
  let off := if d0.getLsbD 23 then base % 2 ^ 20 else base
  if off ≤ g.spadLen then some (if g.saved then saveKey g.gid off else spadKey g.core (g.spadBase + off), g.spadLen - off) else none

/-- Where an operand descriptor's base lies: the key of its base and the bytes left of its allocation (R277). -/
def State.opBase (s : State) (h : Sheaf) (d0 : DWord) : Option (Nat × Nat) :=
  (s.opGroup h d0).bind fun g => g.opBase d0

/-- Where an operand of a loop in flight lies: in the group it was issued for, wherever that is now (R277, R292). -/
def State.loopBase (s : State) (l : Loop) (isB : Bool) : Option (Nat × Nat) :=
  ((s.group (if isB then l.bGroup else l.aGroup)).bind fun g => if g.freed then none else some g).bind fun g =>
    g.opBase (if isB then l.b0 else l.a0)

/-- The 32 lines of an operand in K-step k (R277, R279). DESIGN CHOICE (LOG 33): a cluster-form operand whose group has ended since
issue, on which the spec is silent, gives no lines, and the K-step adds nothing. -/
def State.opLines (s : State) (l : Loop) (isB : Bool) : List MLine :=
  let reg := if isB then cfgBSrc l.cfg else cfgASrc l.cfg
  if reg then
    (List.range 32).map (regLine s.sh.regs (if isB then cfgBReg l.cfg else cfgAReg l.cfg) l.nextK
      (if isB then l.cfg.extractLsb' 32 8 else l.cfg.extractLsb' 16 8))
  else
    let d0 := if isB then l.b0 else l.a0
    let d1 := if isB then l.b1 else l.a1
    match s.loopBase l isB with
    | none => []
    | some (key, _) => (List.range 32).map fun r =>
        let k := key + l.nextK * (d1.extractLsb' 0 24).toNat + r * (d0.extractLsb' 32 16).toNat
        { bytes := s.see k 64, desc := s.seeDesc k }

/-- The lines of an operand in this K-step that lie in memory, by line number and key (R286). -/
def State.opKeys (s : State) (l : Loop) (isB : Bool) : List (Nat × Nat) :=
  if (if isB then cfgBSrc l.cfg else cfgASrc l.cfg) then []
  else
    let d0 := if isB then l.b0 else l.a0
    let d1 := if isB then l.b1 else l.a1
    match s.loopBase l isB with
    | none => []
    | some (key, _) => (List.range 32).map fun r =>
        ((if isB then 32 else 0) + r, key + l.nextK * (d1.extractLsb' 0 24).toNat + r * (d0.extractLsb' 32 16).toNat)

/-- The FP cause of the lowest-numbered enabled exception raised (R101): its number too. -/
def fpCause (exc : Exc) (mode : DWord) : Option (Cause × Nat) :=
  let on := fun (k : Nat) => exc.getLsbD k && mode.getLsbD (8 + k)
  if on 0 then some (.fpinv, 0) else if on 1 then some (.fpdiv0, 1) else if on 2 then some (.fpovf, 2)
  else if on 3 then some (.fpunf, 3) else if on 4 then some (.fpinx, 4) else none

/-- Set flags (R98). -/
def Sheaf.setFlags (h : Sheaf) (e : Exc) : Sheaf := { h with fpflags := h.fpflags ||| e.setWidth 64 }

/-- %traux of the end of a loop (R286, R287). -/
def Loop.aux (l : Loop) (k line : Nat) : DWord :=
  l.word ++ BitVec.ofNat 16 k ++ BitVec.ofNat 8 line ++ 0#1 ++ BitVec.ofNat 7 l.d

/-- The loop leaves the unit: flags merged, its entries retire, an asynchronous trap pends (R286, R287). -/
def State.leaveLoop (s : State) (n : Nat) (l : Loop) (trap : Option PendTrap) : State :=
  let h := s.sh.setFlags l.exc
  { s with sh := { h with loops := h.loops.eraseIdx n, pend := h.pend ++ trap.toList },
           scoreboard := s.scoreboard.filter fun e => !(e.sheaf = h.uid && e.loop && e.owner = l.d) }

/-- MCVT on the registers (R296, R297): results in place, flags merged, an enabled exception pends. -/
def State.convertAcc (s : State) (cfg : DWord) (mode : BitVec 13) (d : Nat) (word : Word) (slot : BitVec 2) : State :=
  let md := FMode.of (mode.setWidth 64)
  let lat := s.sh.latches.toList.find? fun x => x.valid && x.vd = d && cfgAcc cfg = 2
  let es := cvtElems cfg md ((lat.map ScaleLatch.rows).getD []) ((lat.map ScaleLatch.cols).getD [])
    (accElem cfg s.sh.regs d)
  let exc := excOf es
  let h := s.sh.setFlags exc
  let p := (fpCause exc (mode.setWidth 64)).map fun q =>
    { kind := .async, cause := q.1, pc := none, mask := excLanes es q.2,
      aux := word ++ 0#14 ++ slot ++ 0#7 ++ BitVec.ofNat 9 d : PendTrap }
  { s with sh := { h with regs := putAcc cfg h.regs d es, pend := h.pend ++ p.toList } }

/-- The scale latch of a loop: the one tagged vD, else the least recently used that no loop in flight uses (R283). -/
def Sheaf.pickLatch (h : Sheaf) (d : Nat) : Nat :=
  if h.latches[0].valid && h.latches[0].vd = d then 0
  else if h.latches[1].valid && h.latches[1].vd = d then 1
  else
    let used := fun (x : ScaleLatch) => x.valid && h.loops.any fun l => cfgAcc l.cfg = 2 && l.d = x.vd
    if used h.latches[0] then 1 else if used h.latches[1] then 0
    else if h.latches[0].recent then 1 else 0

/-- The MCVTs attached to a loop act when it has ended (R289). -/
def State.convertAttached (s : State) (l : Loop) : State :=
  l.cvt.foldl (fun t c => t.convertAcc c.2.2.1 c.2.2.2 l.d c.1 c.2.1) s

/-- The loop ends normally (R287), and its MCVTs follow (R289). -/
def State.endLoop (s : State) (n : Nat) : State :=
  match s.sh.loops[n]? with
  | none => s
  | some l =>
    let t := (fpCause l.exc (l.mode.setWidth 64)).map fun q =>
      { kind := .async, cause := q.1, pc := none, mask := l.lanes.getD q.2 0, aux := l.aux l.steps 255 : PendTrap }
    (s.leaveLoop n l t).convertAttached l

/-- One K-step of loop n of the sheaf in the issue slot (R280-R287). DESIGN CHOICE (LOG 33): a line in error is taken before the
checks of R285, the first in the order A then B; a first K-step that is stopped leaves both latches as they were. DESIGN CHOICE (LOG 33): a latch
is used by a K-step alone, not by an MCVT that reads it, and latch 0 is taken when neither has been used (R283). -/
def State.kStep (s : State) (n : Nat) : State :=
  match s.sh.loops[n]? with
  | none => s
  | some l =>
    if l.steps ≤ l.nextK then s.endLoop n
    else
      let md := FMode.of (l.mode.setWidth 64)
      let a := s.opLines l false
      let b := s.opLines l true
      let keys := s.opKeys l false ++ s.opKeys l true
      let li := s.sh.pickLatch l.d
      let isRa := cfgAcc l.cfg = 2
      let old := s.sh.latches.toList.getD li ScaleLatch.empty
      let take := isRa && l.nextK = 0 && !(old.valid && old.vd = l.d)
      let lat : ScaleLatch := if take then
          { valid := true, recent := true, vd := l.d, rows := scalesOf a, cols := scalesOf b } else { old with recent := true }
      let stopWith := fun (st : State) (c : Cause) (line : Nat) =>
        (st.leaveLoop n l (some { kind := .async, cause := c, pc := none, mask := BitVec.allOnes 64,
                                   aux := l.aux l.nextK line })).convertAttached l
      match keys.find? fun k => s.lineBad k.2 with
      | some k =>
        if s.liveOwner k.2 = some s.tag then
          (s.leaveLoop n l none).endContext s.tag Cause.ue.code 0 (some s.sh) s.sh.pc 0 (s.lineVA s.tag k.2)
        else stopWith (s.containError k.2) .prot k.1
      | none =>
        let s1 := s.correct (keys.map Prod.snd)
        match stepCheck l.cfg md.daz (lat.rows ++ lat.cols) (a ++ b) with
        | some (c, line) => stopWith s1 c line
        | none =>
          let es := stepElems l.cfg md a b (fun j i => accRead l.cfg md l.nextK (accElem l.cfg s1.sh.regs l.d j i))
          let l1 := { l with nextK := l.nextK + 1, exc := l.exc ||| excOf es
                             lanes := (List.range 5).map fun k => l.lanes.getD k 0 ||| excLanes es k }
          let h := s1.sh
          let lats := if isRa then
              (Vector.ofFn fun i : Fin 2 => if i.val = li then lat else { h.latches[i] with recent := false }) else h.latches
          { s1 with sh := { h with regs := putAcc l.cfg h.regs l.d es, loops := h.loops.set n l1, latches := lats } }

/-- The loop still waits: an older WRITE entry overlaps one of its READ entries (R194). -/
def State.loopBlocked (s : State) (uid d : Nat) : Bool :=
  let rec go (older : List SbEntry) : List SbEntry → Bool
    | [] => false
    | e :: r =>
      (e.loop && e.sheaf = uid && e.owner = d &&
        older.any fun o => o.kind = .write && o.core = e.core && o.lo < e.hi && e.lo < o.hi) || go (older ++ [e]) r
  go [] s.scoreboard

/-- Cycles beyond the first that the busiest bank of these lines takes: line L lies in bank L mod 32 of its core (R182, R184). -/
def bankExcess (keys : List Nat) : Nat :=
  let ls := ((keys.filter isSpad).map fun k => k / 64).dedup
  let bank := fun (l : Nat) => (l / 2 ^ 14, l % 32)
  (ls.map fun l => (ls.filter fun m => bank m = bank l).length - 1).foldl max 0

/-- The line that an operand's fetch position names (R186). -/
def fetchLine (code : BitVec 8) (j : Nat) : Nat :=
  ((2 * (code.extractLsb' 0 5).toNat + 1) * j + 4 * (code.extractLsb' 5 3).toNat) % 32

/-- Positions an operand fetches in a cycle (R21, R186), of lines of `kb` elements. -/
def fetchRate (cfg : DWord) (kb : Nat) : Nat :=
  if cfgSemi cfg = 1 || cfgSemi cfg = 2 || cfgSemi cfg = 3 || kb ≤ 16 then 1 else if kb = 64 || kb = 128 then 8 else 4

/-- Cycles by which the banks stretch the next K-step of a loop (R186). -/
def State.fetchExcess (s : State) (l : Loop) : Nat :=
  let rate := fetchRate l.cfg (((s.opLines l false).head?.map fun x => kbOf x.code).getD 0)
  let keys := fun (isB : Bool) (j : Nat) =>
    let code := (if isB then l.b1 else l.a1).extractLsb' 24 8
    ((s.opKeys l isB)[fetchLine code j]?).map Prod.snd
  ((List.range (32 / rate)).map fun c =>
    let ps := (List.range rate).map (rate * c + ·)
    bankExcess (ps.filterMap (keys false) ++ ps.filterMap (keys true))).foldl (· + ·) 0

/-- A K-step of loop n, counted (R491), or its end. -/
def State.countedStep (s : State) (n : Nat) : State :=
  match s.sh.loops[n]? with
  | none => s
  | some l =>
    let excess := if s.counts .bankExcess then s.fetchExcess l else 0
    if l.nextK < l.steps then ((s.kStep n).countMine .kSteps 1).countMine .bankExcess excess else s.kStep n

/-- Run loop 0 of the sheaf in the issue slot to its end: `fuel` K-steps and the end. -/
def State.runLoop (s : State) : Nat → State
  | 0 => s
  | k + 1 =>
    match s.sh.loops with
    | [] => s
    | l :: r =>
      if s.loopBlocked s.sh.uid l.d then s
      else
        let t := s.countedStep 0
        if t.sh.loops.length ≤ r.length then t else t.runLoop k

/-- Run the loops of the sheaf that can run, oldest first (R57, R292). -/
def State.runLoops (s : State) : State :=
  (List.range s.sh.loops.length).foldl (fun t _ =>
    match t.sh.loops with | [] => t | l :: _ => t.runLoop (l.steps + 1)) s

/-- Let every pending register and every loop of the sheaf deliver (R442). -/
def State.settle (s : State) : State :=
  if s.sh.loads = [] && s.sh.loops = [] then s else State.runLoops { s with sh := s.sh.deliverAll }

/-! ### Taking a trap and returning from one (R439-R446, R458) -/

/-- The row of R441 is synchronous (R443). -/
def PendKind.sync : PendKind → Bool | .async => false | _ => true

/-- Enter the handler for a trap (R442), or end the context when there is none (R444) or the trap is nested (R443);
with a debugger attached BKPT halts the sheaf instead (R445). `trpc` and `trnext` are the values of R439. -/
def State.enterHandler (s : State) (p : PendTrap) (trpc trnext : BitVec 32) : State :=
  let h := s.sh
  let tag := s.tag
  let dbg := p.cause = .bkpt && (s.context tag).any Context.debugger
  if h.hnd && p.kind.sync && !dbg then s.endContext tag p.cause.code 1 (some h) trpc p.aux 0
  else
    let h1 := { h with trpc := trpc, trnext := trnext, trmask := if p.emMask then h.regs.em else p.mask
                       trcause := p.cause.code, traux := p.aux }
    if dbg then
      { s with
        halts := s.halts ++ [(tag, h.sheafNo)]
        sh := { h1 with dbgHalt := true, pc := trnext, next := trnext, wait := none, asked := none, rest := [], mid := false, snap := none } }
    else
      let addr := h1.trbase.extractLsb' 0 32
      if !h1.trbase.getLsbD 63 || !s.legalTarget h addr.toNat then
        ({ s with sh := { h1 with trem := h.regs.em } }).endContext tag p.cause.code 2 (some h1) trpc p.aux 0
      else
        { s with sh := { h1 with
            trem := h.regs.em
            hidW := h.regs.w
            hidMode := h.regs.mode.extractLsb' 8 5
            hidF := h.contF
            contF := false
            regs := { h.regs with mode := h.regs.mode &&& ~~~(0x1F00#64), em := BitVec.allOnes 64 }
            windows := []
            pend := h.pend.map fun q => { q with held := true }
            hnd := true
            pc := addr
            next := addr
            wait := none
            asked := none
            rest := []
            mid := false
            snap := none } }

/-- A trap taken within a REP (R236): LAST is the repeat that trapped, NEXT the repeat to go on at. DESIGN CHOICE (LOG 32): an
asynchronous trap at a repeat boundary, of which the spec names no trapping repeat, leaves LAST as it stood. -/
def Sheaf.leaveRep (h : Sheaf) (k : PendKind) : Sheaf :=
  if h.rep.isNone then h
  else
    { h with rep := none, rpResume := true, rpAt := h.pc
             rpLast := if k = .group || k = .arith then BitVec.ofNat 6 h.rpNext else h.rpLast
             rpNext := if k = .arith then h.rpNext + 1 else h.rpNext }

/-- Take a trap at a group boundary: drain first (R442); a loop that still waits for a copy, or a load still to be issued anew (R136),
holds the entry (LOG 14). -/
def State.takeTrap (s : State) (p : PendTrap) (trpc trnext : BitVec 32) : State :=
  let t := (s.upd (·.leaveRep p.kind)).settle
  if t.sh.loops = [] && t.sh.loads = [] && t.sh.replays = [] then t.enterHandler p trpc trnext
  else { t with sh := { t.sh with entering := some (p, trpc, trnext), wait := none, rest := [], mid := false, snap := none } }

/-- The destination code a trap reports (R440; LOG 15). -/
def Use.destCode (u : Use) : BitVec 9 :=
  match u.dst, u.writes, u.kw with
  | d :: _, _, _ => d.1.setWidth 9
  | [], w :: _, _ => BitVec.ofNat 9 w.1
  | [], [], k :: _ => 192 + k.setWidth 9
  | [], [], [] => 0x1FF

/-- %traux of the word in issue (R440). -/
def State.aux (s : State) (i : Instr) : DWord :=
  s.sh.latch.word ++ 0#14 ++ s.sh.latch.slot ++ 0#7 ++ (s.sh.use i).destCode

/-- A trap that leaves the group in issue without effect (R441 row 4): %trpc and %trnext hold the group; in a REP they
hold the REP, and the repeat runs again (R236). -/
def State.trapGroup (s : State) (c : Cause) (mask aux : DWord) : State :=
  let p : PendTrap := { kind := .group, cause := c, pc := some s.sh.pc, mask := mask, aux := aux }
  (s.upd fun h => { h with trapped := some ⟨c, mask, aux⟩ }).takeTrap p s.sh.pc s.sh.pc

/-- A trap under R90 of the group in issue: no lane of it has effect, and by the table of R439 %trnext holds the next group. In a
REP both hold the REP (R236). -/
def State.trapPast (s : State) (mask aux : DWord) (next : BitVec 32) : State :=
  let p : PendTrap := { kind := .group, cause := .prot, pc := some s.sh.pc, mask := mask, aux := aux }
  (s.upd fun h => { h with trapped := some ⟨.prot, mask, aux⟩ }).takeTrap p s.sh.pc (if s.sh.rep.isSome then s.sh.pc else next)

/-- A trap of the word in issue, reported as R440 lays down; `%trmask` holds em when the rule names no lanes. -/
def State.trapWord (s : State) (i : Instr) (c : Cause) (mask : Option DWord) : State :=
  s.trapGroup c (mask.getD s.sh.em) (s.aux i)

/-- The order in which pending traps are delivered (R441): arithmetic, software, asynchronous as they arrived, then one
that belongs to row 4. In a handler only synchronous traps of the handler's own groups are due. -/
def Sheaf.nextPend (h : Sheaf) : Option (Nat × PendTrap) :=
  let find := fun k =>
    (h.pend.zipIdx.find? fun q => q.1.kind = k && !(h.hnd && (q.1.held || !q.1.kind.sync))).map fun q => (q.2, q.1)
  (find .arith).orElse fun _ => (find .soft).orElse fun _ => (find .async).orElse fun _ => find .group

/-- Deliver at most one pending trap at a boundary where the sheaf would go on at `next` (R441). Of several arithmetic
traps of one group only the first is reported (R243). -/
def State.deliverPend (s : State) : State :=
  match s.sh.nextPend with
  | none => s
  | some (k, p) =>
    let h := { s.sh with pend := (s.sh.pend.eraseIdx k).filter fun q => !(p.kind = .arith && q.kind = .arith) }
    ({ s with sh := h }).takeTrap p (p.pc.getD s.sh.next) s.sh.next

/-- Queue a trap for the boundary after the group; a word that ends its group is at that boundary (R441, R243). -/
def State.pendTrap (s : State) (p : PendTrap) : State :=
  let t : State := { s with sh := { s.sh with pend := s.sh.pend ++ [p] } }
  if s.sh.latch.more then t else t.deliverPend

/-! ### Issue of one word -/

/-- The word cannot go on: the sheaf stays at it (R53, R58). -/
def State.stall (s : State) (i : Instr) (token : Option Nat) : State :=
  { s with sh := { s.sh with wait := some { instr := i, token := token } } }

/-- The word waits; in repeatable mode that ends the quantum (R53, R469). -/
def State.hold (s : State) (i : Instr) (token : Option Nat) : State :=
  let t := s.stall i token
  { t with sh := { t.sh with quantumDone := t.sh.quantumDone || s.repeatable } }

/-- The wait is over. -/
def State.unhold (s : State) : State := { s with sh := { s.sh with wait := none } }

/-- The word of this name is the one the sheaf waits in: what it recorded when the wait began. -/
def State.token (s : State) : Option Nat := s.sh.wait.bind WaitState.token

/-- A wait (R53): over when `ready`, and then `fin`. In repeatable mode it is evaluated after a commit (R469). -/
def State.waitFor (s : State) (i : Instr) (token : Option Nat) (ready : Bool) (fin : State → State) : State :=
  if s.repeatable && s.sh.wait.isNone then s.hold i token
  else if ready then fin s.unhold
  else s.hold i token

/-- The queue that bounds a word is full (R58). -/
def Sheaf.full (h : Sheaf) (b : Bounded) : Bool :=
  match b with
  | .load => Config.depthLoads ≤ (h.loads.filter (!·.atomic)).length
  | .atomic => Config.depthAtomics ≤ (h.loads.filter (·.atomic)).length
  | .cpy => Config.depthOpenCpy ≤ h.openCpys.length
  | .batch => Config.depthBatches ≤ h.batches.length
  | .mloop => Config.depthLoops ≤ h.loops.length
  | .spawn => Config.depthSpawns ≤ h.spawns

/-- The word is an MCVT of this accumulator: it attaches itself to the loop that serves it (R289). -/
def attachesTo (i : Instr) (d : Nat) : Bool := match i with | .mcvt v => v.toNat = d | _ => false

/-- Registers of a word that an MCVT may name without stalling: those of the loop in flight it attaches to (R289). -/
def Sheaf.exempt (h : Sheaf) (i : Instr) : List Nat :=
  (h.loops.filter fun l => attachesTo i l.d).flatMap fun l => (List.range (accSize l.cfg)).map (l.d + ·)

/-- The register check of the open windows (R56): an MCVT may name the accumulator of the loop whose window it is (R289). -/
def Sheaf.violates (h : Sheaf) (i : Instr) : Bool :=
  let u := h.use i
  (u.readRegs ++ u.writeRegs).any fun c => h.windows.any fun w => w.regs.contains c && !(w.acc.any fun a => attachesTo i a.1)

/-- PRIV (R50). -/
def privileged (i : Instr) : Bool :=
  match i with | .halt => true | .swr p _ => p = 34 || p = 35 | _ => false

/-- The first failing check of the word: orders 3, 4, 5, 6 and 7 of R51. -/
def State.firstCheck (s : State) (i : Instr) : Option Cause :=
  let u := s.sh.use i
  if !u.legal then some .illop
  else if privileged i && s.tag ≠ 0 then some .priv
  else if u.overBudget s.sh.budget then some .regbud
  else if s.sh.violates i then some .laviol
  else match u.queue with
    | some q => if s.sh.latch.native && s.sh.full q then some .qdepth else none
    | none => none

/-- Issue a word: the checks of R51, the wait of an interlocked word for a full queue (R58), then its effect. The words
of a multi-word group have passed their checks together (R51; LOG 5), and a waiting word has passed its own. The effect
of a word that waits sees the wait it is in. -/
def State.issueWait (s : State) (i : Instr) (effect : State → State) : Out :=
  let again := s.sh.snap.isSome || s.sh.wait.isSome
  match (if again then none else s.firstCheck i) with
  | some c => .next (s.trapWord i c none)
  | none =>
    if !s.sh.latch.native && (match (s.sh.use i).queue with | some q => s.sh.full q | none => false) then
      .next (s.stall i none)
    else .next (effect s)

/-- Issue a word that does not wait. -/
def State.issue (s : State) (i : Instr) (effect : State → State) : Out := s.issueWait i fun s => effect s.unhold

/-- Open the lookahead window of a word (R55, R57); `acc` is the accumulator and the loop record of an MLOOP (R289, R291). -/
def State.openWindow (s : State) (la : BitVec 4) (regs : List Nat) (acc : Option (Nat × Nat) := none) : State :=
  if s.sh.latch.native && la ≠ 0 && regs ≠ [] then
    { s with sh := { s.sh with
        windows := s.sh.windows ++ [{ rem := la.toNat, regs := regs, pc := s.sh.latch.addr, acc := acc }] } }
  else s

end Sys2Proof.Machine
end

