-- ==== Sys2Proof/Machine/Observe.lean ====
section
/-!
DEFINITION. The data-value trace as the machine runs (R494-R496).
-/

namespace Sys2Proof.Machine

open Sys2Proof

/-! ### Trace -/

/-- The watched regions an address lies in (R494). -/
def VirtFn.regions (v : VirtFn) (va : Nat) : List Nat :=
  (List.range 4).filter fun j =>
    let w := ((v.trwatch[j]?).getD 0).toNat
    let base := bits w 47 6 * 64
    let size := w / 2 ^ 48 * 65536
    base ≤ va && va < base + size

/-- A traced write of bytes by virtual address (R494): one record per aligned 8-byte unit in a watched region that the write has
`changed`. -/
def State.traceWrite (s : State) (tag : BitVec 12) (core : Nat) (sheaf : BitVec 32) (changed : Nat → Bool) (ws : List (Nat × Byte)) :
    State :=
  let fn := s.fnOf tag
  let units := (ws.map fun w => w.1 / 8).dedup
  units.foldl (fun t u =>
    match t.fns[fn]? with
    | none => t
    | some v =>
      let rs := v.regions (8 * u)
      if rs = [] then t
      else
        let t1 := if rs.any (condIs v.trstart 4 2) then t.beginTrace fn tag core else t
        let live := (t1.fns[fn]?).any (·.trace = .recording) && changed u
        let mine := ws.filter fun w => w.1 / 8 = u
        let byteAt := fun (k : Nat) => (mine.reverse.find? (·.1 = 8 * u + k)).map (·.2)
        let mask := ((List.range 8).map fun k => if (byteAt k).isSome then 2 ^ k else 0).foldl (· + ·) 0
        let data := leNat ((List.range 8).map fun k => (byteAt k).getD 0)
        let t2 := if live then t1.traceRec fn tag (traceBytes s.gtc core 1 mask sheaf.toNat (8 * u) data) else t1
        if rs.any (condIs v.trstop 4 2) then t2.stopTrace fn core else t2) s

/-- A traced group issues at a word address: a session may begin (R495). -/
def State.traceIssue (s : State) (a : Nat) : State :=
  if s.lrec.flags.getLsbD 3 then
    let fn := s.fnOf s.tag
    match s.fns[fn]? with
    | none => s
    | some v => if condIs v.trstart 3 32 a then s.beginTrace fn s.tag s.core else s
  else s

/-- A traced group has issued at a word address: a session may end, the writes of its cycle recorded (R495). -/
def State.traceStopAt (s : State) (a : Nat) : State :=
  if s.lrec.flags.getLsbD 3 then
    let fn := s.fnOf s.tag
    match s.fns[fn]? with
    | none => s
    | some v => if condIs v.trstop 3 32 a then s.stopTrace fn s.core else s
  else s

/-- Sessions that this step has told to stop close, the writes of its cycle recorded (R495). -/
def State.closeTraces (s : State) : State :=
  if s.fns.toList.all fun v => !v.stopping then s
  else (List.range 96).foldl (fun t fn =>
    match t.fns[fn]? with
    | some v =>
      if v.stopping then (t.onFn fn fun w => { w with stopping := false }).endTrace fn (t.fnTag fn) v.stopAt 3 else t
    | none => t) s

/-- Bytes by virtual address. -/
def vaBytes (va : Nat) (bs : List Byte) : List (Nat × Byte) := bs.zipIdx.map fun b => (va + b.2, b.1)

/-- Trace a write of bytes at a virtual address and key by the sheaf in the issue slot, if its launch is traced; `old` is the memory
before it. DEDUCED (LOG 25): a unit whose written bytes are what they were is not changed. -/
def State.traceMine (s : State) (old : List Host.Cell) (va key : Nat) (bs : List Byte) : State :=
  if s.lrec.flags.getLsbD 3 then
    s.traceWrite s.tag s.core s.sh.sheafNo
      (fun u => bs.zipIdx.any fun b => (va + b.2) / 8 = u && readByte old (key + b.2) ≠ b.1) (vaBytes va bs)
  else s

/-- The ring of a trace session has space again: what it dropped is told by one record (R494). -/
def State.traceDropped (s : State) (fn : Nat) : State :=
  match s.fns[fn]? with
  | none => s
  | some v =>
    if v.trdrop = 0 || 2 ^ ((v.trring.extractLsb' 8 4).toNat + 6) ≤ v.trtail then s
    else (s.onFn fn fun w => { w with trdrop := 0 }).traceRec fn (s.fnTag fn) (traceBytes s.gtc 585 5 0 (min v.trdrop (2 ^ 32 - 1)) 0 0)

end Sys2Proof.Machine
end

