-- ==== Sys2Proof/Machine/Access.lean ====
section
/-!
DEFINITION. Memory accesses by lane (R62-R74, R83, R90, R117-R120): forming addresses, the checks before any lane is
performed, and the performance of loads, stores and atomics (R124-R135, R140, R143, R146).
-/

namespace Sys2Proof.Machine

open Sys2Proof

/-- The six spaces (R62). -/
inductive Space where
  | priv | spad | clus | dev | peer | host
  deriving DecidableEq, Repr

/-- One contiguous piece of a lane's access: its place in the access, its virtual or given address, its key. -/
structure Site where
  lane : Nat
  off : Nat
  len : Nat
  va : Nat
  key : Nat
  map : Option Mapped
  deriving DecidableEq, Repr

/-- Why an access is not performed: a trap with its lanes, a translation fault (R74), a page reported unresolvable
(R446). -/
inductive Blocked where
  | trap (c : Cause) (mask : Option DWord)
  | park (pages : List Nat)
  | bad (pages : List DWord) (mask : DWord)
  deriving DecidableEq, Repr

/-- The pieces of an access and the lanes a peer turned away (R66, R120). -/
structure Plan where
  sites : List Site
  rejected : List Nat
  deriving DecidableEq, Repr

/-! ### Addresses -/

/-- Lane i's address before its space interprets it (R117). -/
def State.laneAddr (s : State) (sp : Space) (a : VCode) (ofs : Int) (i : Nat) : Nat :=
  match sp with
  | .priv | .spad | .clus => (laneOf (s.sh.rd.src a) i + BitVec.ofInt 32 ofs).toNat
  | .dev | .peer | .host => (s.sh.rd.src64 a i + BitVec.ofInt 64 ofs).toNat

/-- Active lanes with their addresses. -/
def State.laneAddrs (s : State) (sp : Space) (a : VCode) (ofs : Int) : List (Nat × Nat) :=
  (lanesOf s.sh.em).map fun l => (l, s.laneAddr sp a ofs l)

/-- The device address of lane l's private byte x (R63), of 48 bits (R68). -/
def privVA (frame : DWord) (l x : Nat) : Nat := (frame.toNat + x / 4 * 4 * laneCount + 4 * l + x % 4) % 2 ^ 48

/-- Pieces of lane l's access of n bytes: offset in the access, length, address (R63). -/
def State.pieces (s : State) (sp : Space) (n : Nat) (p : Nat × Nat) : List Site :=
  let at_ := fun (off len va : Nat) => { lane := p.1, off := off, len := len, va := va, key := 0, map := none : Site }
  match sp with
  | .priv =>
    let f := s.sh.rd.getS 62
    if n ≤ 4 then [at_ 0 n (privVA f p.1 p.2)]
    else (List.range (n / 4)).map fun j => at_ (4 * j) 4 (privVA f p.1 (p.2 + 4 * j))
  | _ => [at_ 0 n p.2]

/-- Level 2 of the launch has domain cluster (R64). -/
def LaunchRec.clusterDomain (r : LaunchRec) : Bool := (r.levels[1]?).any (·.domain = 1)

/-- The group a scratchpad or cluster address reaches (R62, R64). -/
def State.spadGroup (s : State) (sp : Space) (a : Nat) : Option Group :=
  match sp, s.myGroup with
  | .spad, g => g
  | .clus, some g =>
    if s.lrec.clusterDomain && a < 2 ^ 23 then (s.mates g).find? fun k => k.core = g.core / 8 * 8 + bits a 22 20 && !k.saved
    else none
  | _, _ => none

/-- The offset in that group's allocation. -/
def spadOff (sp : Space) (a : Nat) : Nat := if sp = .clus then a % 2 ^ 20 else a

/-- The address passes its range check (R62, R64); a private address has none beyond its translation. -/
def State.inRange (s : State) (sp : Space) (p : Nat × Nat) : Bool :=
  match sp with
  | .priv => true
  | .spad | .clus => match s.spadGroup sp p.2 with | some g => spadOff sp p.2 < g.spadLen | none => false
  | .dev => p.2 < 2 ^ 48
  | .peer | .host => true

/-- Bytes of live rings that a range of scratchpad touches (R157). -/
def State.touchesRing (s : State) (key len : Nat) : Bool :=
  isSpad key && s.groups.any fun g => !g.freed && !g.saved && g.rings.any fun r =>
    let lo := spadKey g.core (g.spadBase + r.off)
    lo < key + len && key < lo + 16 + 8 * r.slots

/-- A store or atomic. -/
def Access.writes : Access → Bool | .store | .atomic | .copyDst => true | _ => false

/-- Keys of a device or private piece, or its fault. -/
def State.mapSite (s : State) (acc : Access) (q : Site) : Xlat × Site :=
  match s.xlat s.tag q.va acc with
  | .ok m => (.ok m, { q with key := m.key, map := some m })
  | x => (x, q)

/-- The checks over all active lanes, in order (R118, R120, R157, R73), and the pieces when they pass. `align` is false
for a descriptor access. DEDUCED (LOG 21): R118 exempts descriptor access alone, so a peer or host access with M = 1 is checked. -/
def State.plan (s : State) (sp : Space) (acc : Access) (n : Nat) (align : Bool) (ps : List (Nat × Nat)) :
    Except Blocked Plan :=
  let far := ps.filter fun p => !s.inRange sp p
  let off := fun (p : Nat × Nat) => spadOff sp p.2
  let odd := ps.filter fun p => off p % n ≠ 0
  if far ≠ [] then .error (.trap .range (some (lanesMask (far.map Prod.fst))))
  else if sp = .priv && ps ≠ [] && (s.sh.rd.getS 62).toNat % 256 ≠ 0 then .error (.trap .align (some s.sh.em))
  else if align && odd ≠ [] then .error (.trap .align (some (lanesMask (odd.map Prod.fst))))
  else
    let qs := ps.flatMap (s.pieces sp n)
    match sp with
    | .spad | .clus =>
      let put := fun (q : Site) => match s.spadGroup sp q.va with
        | some g => { q with key := spadKey g.core (g.spadBase + spadOff sp q.va) } | none => q
      let rs := qs.map put
      let touch := fun (q : Site) => if align then s.touchesRing q.key q.len else s.touchesRing (lineOf q.key) 64
      if rs.any touch then .error (.trap .ringstate none) else .ok ⟨rs, []⟩
    | .host => .ok ⟨qs.map fun q => { q with key := hostKey (s.fnOf s.tag) q.va }, []⟩
    | .peer =>
      let ok := fun (q : Site) => s.peerTarget acc.writes q.va
      .ok ⟨qs.filterMap fun q => (ok q).map fun k => { q with key := k },
           (qs.filter fun q => (ok q).isNone).map Site.lane⟩
    | .priv | .dev =>
      let xs := qs.map (s.mapSite acc)
      let faults := (xs.filter (·.1 = .fault)).map Prod.snd
      let bad := faults.filter fun q => s.sh.badPages.any fun v => v.toNat / 65536 = q.va / 65536
      let pages := (faults.map (·.va / 65536)).dedup
      let first := fun (pg : Nat) => ((faults.find? fun q => q.va / 65536 = pg).map Site.va).getD 0
      if bad ≠ [] then .error (.bad (bad.map fun q => BitVec.ofNat 64 q.va) (lanesMask (bad.map Site.lane)))
      else if faults ≠ [] then .error (.park (pages.map first))
      else if xs.any (·.1 = .prot) then .error (.trap .prot none)
      else
        let ok := fun (q : Site) => s.reach s.tag acc.writes q.key
        let ys := xs.map Prod.snd
        .ok ⟨ys.filterMap fun q => (ok q).map fun k => { q with key := k }, (ys.filter fun q => (ok q).isNone).map Site.lane⟩

/-- Trap or park for an access that is not performed. -/
def State.blocked (s : State) (i : Instr) (acc : Access) : Blocked → State
  | .trap c m => s.unhold.trapWord i c m
  | .park ps => s.unhold.park ps acc
  | .bad ps m =>
    let keep := fun (v : DWord) => !(ps.any fun p => p.toNat / 65536 = v.toNat / 65536)
    (s.unhold.upd fun h => { h with badPages := h.badPages.filter keep }).trapWord i .prot (some m)

/-! ### Errors, counters, parking -/

/-- An access of the sheaf meets a line in error (R90): its own context ends there; else the access traps PROT, without effect, and
the sheaf is to go on at the next group (R439). -/
def State.meetError (s : State) (i : Instr) (q : Site) : State :=
  if s.liveOwner q.key = some s.tag then
    s.unhold.endContext s.tag Cause.ue.code 0 (some s.sh) s.sh.pc 0
      (if q.map.isSome then BitVec.ofNat 64 (q.va / 64 * 64) else s.lineVA s.tag q.key)
  else (s.unhold.containError q.key).trapPast s.sh.em (s.aux i) s.sh.next

/-- The first piece performed now whose line holds an error, outside the lines `whole` that are replaced (R138). -/
def State.firstBad (s : State) (whole : List Nat) (qs : List Site) : Option Site :=
  if s.badLines = [] then none
  else qs.find? fun q => s.badLines.contains (lineOf q.key) && !whole.contains (lineOf q.key)

/-- Lines that the sheaf's own buffered full-line stores replace: it reads those, whatever memory holds (R135, R138). -/
def State.ownLines (s : State) : List Nat :=
  s.sh.buf.filterMap fun w => match w with | .bytes _ k _ true _ => some (lineOf k) | _ => none

/-- Lines a b128 store covers whole (R138). -/
def wholeLines (qs : List Site) : List Nat :=
  ((qs.map fun q => lineOf q.key).dedup).filter fun l =>
    (List.range 64).all fun j => qs.any fun q => q.key ≤ l + j && l + j < q.key + q.len

/-- A piece that leaves through a peer address and comes back to this module's own memory (R66): the key it reaches. -/
def Site.back (q : Site) : Option Nat :=
  if q.key < 2 * spaceSize && q.map.all (fun m => 3 * spaceSize ≤ m.frame) then some q.key else none

/-- Count the lines touched in pages with counters (R79, R80): those that a peer address of this module reaches count there as any
peer's do. -/
def State.countPages (s : State) (qs : List Site) : State :=
  let ms := qs.filterMap fun q => q.map.bind fun m => if m.ce then some (m, lineOf q.key) else none
  let pages := (ms.map fun m => m.1.page).dedup
  let t := pages.foldl (fun t pg =>
    let here := ms.filter fun m => m.1.page = pg
    let die := (here.head?).bind fun m => m.1.die
    t.countPage pg ((here.map Prod.snd).dedup).length
      (match die with | some d => d ≠ s.core / 64 | none => false) (s.toucher s.sh)) s
  match ((qs.filterMap Site.back).map lineOf).dedup with
  | [] => t
  | ks => t.touchOutside ks

/-- An entry comes into its cache, where one of `cap` may have to go. -/
def fillTlb (xs : List Cached) (cap slot : Nat) (e : Cached) : List Cached :=
  match (xs.filter (·.cache = e.cache))[slot % cap]? with
  | some old => xs.filter (· ≠ old) ++ [e]
  | none => xs ++ [e]

/-- A cache holds a page of a context (R72). -/
def State.cached (s : State) (cache : Nat) (tag : BitVec 12) (page : Nat) : Bool :=
  s.tlb.any fun x => x.cache = cache && x.tag = tag && x.page ≤ page && page < x.page + x.size

/-- A page is looked up in the core's cache, then in the cluster's, then walked (R72), and the caches that missed it take it. `n`
counts the pages of the access. DEDUCED (LOG 12): a miss of the core's cache is what event 7 counts. -/
def State.lookUp (s : State) (p : Nat × Nat) (n : Nat) : State :=
  let e : Cached := { cache := s.core, tag := s.tag, page := p.1, size := p.2 }
  let above : Cached := { e with cache := 512 + s.core / 8 }
  if s.cached e.cache s.tag p.1 then s
  else
    let t := s.countMine .tlbMisses 1
    let u := if s.cached above.cache s.tag p.1 then t
      else { t.countMine .walks 1 with tlb := fillTlb s.tlb Config.clusterTlb (Config.tlbSlot s.gtc (2 * n + 1)) above }
    { u with tlb := fillTlb u.tlb Config.coreTlb (Config.tlbSlot s.gtc (2 * n)) e }

/-- An access looks up each distinct page that it names once (R72). -/
def State.lookUpAll (s : State) (qs : List Site) : State :=
  (((qs.filterMap Site.map).map fun m => (m.page, m.size)).dedup.zipIdx).foldl (fun t p => t.lookUp p.1 p.2) s

/-- Lines of the tiers that an access reaches and their dies' buffers do not hold, where a counter counts them (R17, R491; LOG 12). -/
def State.countBuffer (s : State) (qs : List Site) : State :=
  if s.counts .bufferMisses then
    let n := (((qs.map Site.key).filter (· < 2 * spaceSize)).map lineOf).dedup.length
    s.countMine .bufferMisses (Config.bufferMisses s.gtc % (n + 1))
  else s

/-- Cycles beyond the first in which a scratchpad access holds the banks (R184, R491). -/
def State.countBanks (s : State) (qs : List Site) : State :=
  if s.counts .bankExcess then s.countMine .bankExcess (bankExcess (qs.map Site.key)) else s

/-- Keys of the table entries that translate some pieces (R68). -/
def State.walksOf (s : State) (qs : List Site) : List Nat :=
  if s.weak = [] then [] else (qs.filter (·.map.isSome)).flatMap fun q => walkKeys s.mem q.va 4 0 (s.root s.tag)

/-- What every access does besides its effect: errors that the codes of its lines and of its tables correct are logged, the lines
are counted in their pages, the pages are looked up, and the dies' buffers and the banks are counted (R72, R79, R80, R89, R491). -/
def State.touch (s : State) (qs : List Site) : State :=
  ((((s.correct (s.walksOf qs ++ qs.map Site.key)).countPages qs).lookUpAll qs).countBuffer qs).countBanks qs

/-- A memory word of this sheaf, not its copy engine, made the entry. -/
def ParkedWrite.by (w : ParkedWrite) (uid : Nat) : Bool := w.sheaf = uid && w.batch.isNone

/-- Stores or atomics of the sheaf are parked (R83). -/
def State.parkedMine (s : State) : Bool := s.parking.any (·.by s.sh.uid)

/-- A restored sheaf is held back: writes it issued before the pre-emption are parked, or loads of it are to be issued anew (R136,
R336). -/
def State.heldBack (s : State) (h : Sheaf) : Bool := h.replays ≠ [] || (h.resumed && s.parking.any (·.by h.uid))

/-- A parked acquire atomic or sc access of the sheaf holds every later access (R328, R332). -/
def State.orderHolds (s : State) : Bool := s.parking.any fun w => w.by s.sh.uid && w.holds

/-- The entry holds an atomic, whose value its replay fixes. -/
def ParkedWrite.unfixed (w : ParkedWrite) : Bool := w.ops.any fun o => match o with | .atom _ _ _ _ _ _ => true | _ => false

/-- An atomic of the sheaf is parked, its value not fixed (R83, R339). -/
def State.atomParked (s : State) : Bool := s.parking.any fun w => w.by s.sh.uid && w.unfixed

/-- Where a write of a piece parks (R83): the context, page and address it parks by. A piece that comes back through a peer address
parks on the page it reaches. -/
def State.parksAt (s : State) (q : Site) : Option (BitVec 12 × Mapped × Nat) :=
  match q.map.filter Mapped.wb with
  | some m => some (s.tag, m, q.va)
  | none => q.back.bind fun k => ((s.pageOf k).filter Mapped.wb).map fun m => (s.frameOwner k, m, m.va)

/-- A write of these pieces would show before an earlier parked atomic of the sheaf has its value (R327): unless all are parked
on the atomic's page, where arrival order keeps them behind it (R83). -/
def State.overtakes (s : State) (qs : List Site) : Bool :=
  s.parking.any fun w => w.by s.sh.uid && w.unfixed &&
    !(qs.all fun q => (s.parksAt q).any fun m => m.1 = w.tag && m.2.1.page = w.page)

/-- The line of a key has parked writes and its page its new frame: every observer's read waits (R82, R83). -/
def State.awaitsReplay (s : State) (k : Nat) : Bool :=
  s.parking.any fun w => !w.stalled && match s.xlat w.tag (64 * w.line) .load with
    | .ok m => m.frame ≠ w.frame && lineOf m.key = lineOf k
    | _ => false

/-- A read waits for parked writes (R82, R83, R123): of its own sheaf's words always, of any observer's once the page has its
new frame. -/
def State.readWaits (s : State) (qs : List Site) : Bool :=
  s.parking ≠ [] && qs.any fun q =>
    (q.map.isSome && s.parking.any fun w => w.by s.sh.uid && w.tag = s.tag && w.line = q.va / 64) || s.awaitsReplay q.key

/-- Line entries these pieces need, by die and line (R83). -/
def State.parkLines (s : State) (qs : List Site) : List (Nat × Nat) :=
  (qs.filterMap fun q => (s.parksAt q).map fun m => (m.2.1.die.getD 0, m.2.2 / 64)).dedup

/-- The parking buffers have no room for the lines of these pieces (R83). -/
def State.parkingFull (s : State) (qs : List Site) : Bool :=
  let ls := s.parkLines qs
  ls.any fun d => Config.parking < s.parkedOn d.1 + (ls.filter (·.1 = d.1)).length

/-- Park an operation of a word of the sheaf in the issue slot. -/
def State.parkWrite (s : State) (m : Mapped) (va : Nat) (holds : Bool) (op : ParkedOp) : State :=
  s.parkOp m s.tag s.sh.uid none va holds op

/-- What a late report of lane `lane` of the word in issue names (R120). -/
def State.issuer (s : State) (i : Instr) (lane : Nat) : Issuer :=
  { word := s.sh.latch.word, dest := (s.sh.use i).destCode, lane := lane }

/-- A word that writes host or peer memory begins: its lanes may still be rejected, and some are (R120). -/
def State.openFar (s : State) (i : Instr) (qs : List Site) (rejected : List Nat) : State :=
  if qs.any (fun q => isForeign q.key) || rejected ≠ [] then
    s.upd fun h => { h with far := h.far ++ [⟨h.latch.word, (h.use i).destCode, rejected.map fun l => (l, 0, [], [])⟩] }
  else s

/-! ### Loads -/

/-- The rows a load writes (R115, R140): register codes and values, from each lane's number. -/
def loadRows (w : BitVec 3) (d : VCode) (val : Nat → Nat) : List (Nat × Row) :=
  if d = 108 then []
  else
    (List.range (widthRegs w)).map fun j => (d.toNat + j, rowOf fun l =>
      let x := val l
      match w.toNat with
      | 1 => (BitVec.ofNat 8 x).signExtend 32
      | 3 => (BitVec.ofNat 16 x).signExtend 32
      | _ => BitVec.ofNat 32 (x / 2 ^ (32 * j)))

/-- A lane's value from a list. -/
def laneVal (vs : List (Nat × Nat)) (l : Nat) : Nat := ((vs.find? (·.1 = l)).map Prod.snd).getD 0

/-- The number a lane's pieces hold, as the sheaf sees memory (R123, R135). -/
def State.laneValue (s : State) (qs : List Site) (l : Nat) : Nat :=
  leNat ((qs.filter (·.lane = l)).flatMap fun q => s.see q.key q.len)

/-- The load is issued: its value is fixed and its registers are pending (R54, R140). -/
def State.pendLoad (s : State) (l : PendLoad) : State :=
  if l.em = 0 then s else { s with sh := { s.sh with loads := s.sh.loads ++ [l] } }

/-- A load of any space (R140): `ps` the lanes' addresses, or a plan made elsewhere. -/
def State.loadWith (s : State) (i : Instr) (sp : Space) (w : BitVec 3) (la : BitVec 4) (d : VCode) (desc : Bool)
    (ord : BitVec 2) (slots : List (Nat × Nat × Nat)) (plan : Except Blocked Plan) : State :=
  match plan with
  | .error b => s.blocked i .load b
  | .ok p =>
    if s.readWaits p.sites || s.orderHolds || (ord = 3 && s.parkedMine) then s.stall i none
    else
      match s.firstBad s.ownLines p.sites with
      | some q => s.meetError i q
      | none =>
        let lanes := (p.sites.map Site.lane).dedup
        let one := fun l =>
          if desc then ((p.sites.find? (·.lane = l)).map fun q => (s.seeDesc q.key).toNat).getD 0
          else s.laneValue p.sites l
        let vs := lanes.map fun l => (l, one l)
        let s1 := (s.unhold.touch p.sites).pendLoad
          { atomic := false, remote := sp = .peer || sp = .host, slots := slots, em := lanesMask lanes
            dest := loadRows w d (laneVal vs), word := s.sh.latch.word, pc := s.sh.latch.addr, instr := i, ref := 0, waits := 0
            sites := if sp = .peer || sp = .host then p.sites.map fun q => (q.lane, q.key) else [] }
        let s2 := s1.openWindow la (regsOf d (widthRegs w))
        if p.rejected = [] then s2
        else s2.post [.peerHostRejection s.sh.uid s.sh.latch.word (s.sh.use i).destCode (lanesMask p.rejected)]

/-- Order of an EXT (R42, R46). -/
def ordOf (e : Option MemExt) : BitVec 2 := (e.map MemExt.ord).getD 0
/-- Offset of an EXT (R42, R46). -/
def ofsOf (e : Option MemExt) : Int := (e.map fun x => x.ofs.toInt).getD 0

/-- A plain or descriptor load (R117, R127, R140). -/
def State.load (s : State) (i : Instr) (sp : Space) (la : BitVec 4) (w : BitVec 3) (d a : VCode) (desc : Bool)
    (e : Option MemExt) : State :=
  s.loadWith i sp w la d desc (ordOf e) []
    (s.plan sp .load (if desc then 1 else widthBytes w) (!desc) (s.laneAddrs sp a (ofsOf e)))

/-! ### Stores -/

/-- The number lane l of D stores (R115, R143). -/
def Regs.storeVal (r : Regs) (w : BitVec 3) (d : VCode) (l : Nat) : Nat :=
  if w = 5 then (r.src64 d l).toNat
  else if w = 6 then
    leNat ((List.range 4).flatMap fun j => leBytes 4 (laneOf (r.file (d.toNat + j)) l).toNat)
  else (laneOf (r.src d) l).toNat

/-- Perform one piece of a lane's write at once, with the owner (R86): host and peer memory may still turn it away (R120). -/
def State.landSite (s : State) (x : Issuer) (q : Site) (bs : List Byte) (whole : Bool) : State :=
  let t := if isForeign q.key then s.landFrom s.tag s.sh.uid x q.key bs whole else s.land s.tag q.key bs whole
  if q.map.isSome then t.traceMine s.mem q.va q.key bs else t

/-- Write one piece of a lane: buffered (R135), parked (R83) or performed; `whole` are the lines a full-line store replaces (R138),
`holds` says that later accesses wait for it (R332). -/
def State.writeSite (s : State) (buffered holds : Bool) (whole : List Nat) (x : Issuer) (q : Site) (bs : List Byte) : State :=
  let w := whole.contains (lineOf q.key)
  if buffered then
    { s with sh := { s.sh with buf := s.sh.buf ++ [.bytes (q.map.map fun _ => q.va) q.key bs w x] } }
  else
    match s.parksAt q with
    | some (tag, m, va) => s.parkOp m tag s.sh.uid none va holds (.bytes va bs w (some x))
    | none => s.landSite x q bs w

/-- Write one lane's descriptor (R127). -/
def State.writeDesc (s : State) (buffered holds : Bool) (x : Issuer) (q : Site) (v : BitVec 16) : State :=
  if buffered then
    { s with sh := { s.sh with buf := s.sh.buf ++ [.desc (q.map.map fun _ => q.va) (lineOf q.key) v x] } }
  else
    match s.parksAt q with
    | some (tag, m, va) => s.parkOp m tag s.sh.uid none va holds (.desc va v (some x))
    | none => s.landDesc s.tag q.key v

/-- Pieces that act on memory at once: neither buffered nor parked. -/
def State.directSites (s : State) (buffered : Bool) (qs : List Site) : List Site :=
  if buffered then [] else qs.filter fun q => (s.parksAt q).isNone

/-- A store (R143): lanes in ascending order, so the higher lane wins (R124). -/
def State.store (s : State) (i : Instr) (sp : Space) (w : BitVec 3) (d a : VCode) (desc : Bool) (e : Option MemExt) :
    State :=
  match s.plan sp .store (if desc then 1 else widthBytes w) (!desc) (s.laneAddrs sp a (ofsOf e)) with
  | .error b => s.blocked i .store b
  | .ok p =>
    let whole := if w = 6 then wholeLines p.sites else []
    let buffered := s.repeatable && sp ≠ .priv
    if (ordOf e ≠ 0 && s.parkedMine) || s.orderHolds || (!buffered && (s.overtakes p.sites || s.parkingFull p.sites)) then
      s.stall i none
    else
      match s.firstBad whole (s.directSites buffered p.sites) with
      | some q => s.meetError i q
      | none =>
        let r := s.sh.rd
        let put := fun (t : State) (q : Site) =>
          let x := s.issuer i q.lane
          if desc then t.writeDesc buffered (ordOf e = 3) x q ((laneOf (r.src d) q.lane).extractLsb' 0 16)
          else t.writeSite buffered (ordOf e = 3) whole x q (((leBytes (q.off + q.len) (r.storeVal w d q.lane)).drop q.off))
        let s1 := p.sites.foldl put ((s.unhold.touch p.sites).openFar i (s.directSites buffered p.sites) p.rejected)
        if p.rejected = [] then s1
        else s1.post [.peerHostRejection s.sh.uid s.sh.latch.word (s.sh.use i).destCode (lanesMask p.rejected)]

/-! ### Atomics -/

/-- The value an atomic stores (R129, R130). -/
def atomNew (op : BitVec 4) (old : Nat) (d : BitVec 128) : Nat :=
  let o : Word := BitVec.ofNat 32 old
  let x : Word := d.extractLsb' 0 32
  let x64 : DWord := d.extractLsb' 0 64
  match op.toNat with
  | 0 => (o + x).toNat
  | 1 => (BitVec.ofNat 64 old + x64).toNat
  | 2 => (if o.slt x then o else x).toNat
  | 3 => (if o.slt x then x else o).toNat
  | 4 => (if o.ult x then o else x).toNat
  | 5 => (if o.ult x then x else o).toNat
  | 6 => (o &&& x).toNat
  | 7 => (o ||| x).toNat
  | 8 => (o ^^^ x).toNat
  | 9 => x.toNat
  | 10 => if o = x then (d.extractLsb' 32 32).toNat else old
  | 11 => if BitVec.ofNat 64 old = x64 then (d.extractLsb' 64 64).toNat else old
  | 12 => (f32.addSub FMode.atomic false old x.toNat).val
  | 13 => (f64.addSub FMode.atomic false old x64.toNat).val
  | 14 => (f32.minMax FMode.atomic false old x.toNat).val
  | _ => (f32.minMax FMode.atomic true old x.toNat).val

/-- One atomic at its home port (R132): what memory held, and the state after. -/
def State.atomAt (s : State) (tag : BitVec 12) (key : Nat) (op : BitVec 4) (d : BitVec 128) : Nat × State :=
  let n := atomBytes op
  let old := readLE s.mem key n
  (old, s.putBytes tag key (leBytes n (atomNew op old d)))

/-- An issued atomic of a sheaf that was deferred or parked comes to its line (R83, R134): it is performed, traced and its value
delivered to the load that waits for it; in a line in error, or where no route leads, it is not made (R90, R485). -/
def State.atomLands (s : State) (tag : BitVec 12) (uid : Nat) (va : Option Nat) (key : Nat) (op : BitVec 4) (operand : BitVec 128)
    (ret : Option Nat) (lane : Nat) (word : Word) : State :=
  let s0 := s.correct [key]
  if s0.cutOff key then s0.onSheaf uid fun h => h.failLane word ret lane
  else if s0.lineBad key then (s0.containError key).onSheaf uid fun h => h.failLane word ret lane
  else
    let (old, t) := s0.atomAt tag key op operand
    let u := match va with
      | some v => t.as uid fun x => x.traceMine s0.mem v key (leBytes (atomBytes op) (atomNew op old operand))
      | none => t
    match ret with
    | some f => u.onSheaf uid fun h => h.fixLane f lane (BitVec.ofNat 64 old)
    | none => u

/-- Lane l's operand: D and the registers after it (R129). -/
def Regs.atomOperand (r : Regs) (op : BitVec 4) (d : VCode) (l : Nat) : BitVec 128 :=
  if atomRegs op = 1 then (laneOf (r.src d) l).setWidth 128
  else BitVec.ofNat 128 (leNat ((List.range (atomRegs op)).flatMap fun j => leBytes 4 (laneOf (r.file (d.toNat + j)) l).toNat))

/-- The rows a returning atomic writes (R129). -/
def atomRows (op : BitVec 4) (d : VCode) (val : Nat → Nat) : List (Nat × Row) :=
  if d.toNat < 104 then
    (List.range (atomRet op)).map fun j => (d.toNat + j, rowOf fun l => BitVec.ofNat 32 (val l / 2 ^ (32 * j)))
  else []

/-- Lanes whose bytes overlap another lane's (R131). -/
def overlapping (qs : List Site) : List Nat :=
  (qs.filter fun q => qs.any fun p => p.lane ≠ q.lane && p.key < q.key + q.len && q.key < p.key + p.len).map Site.lane

/-- The order in which an atomic's lanes are performed (R132; LOG 10): ascending, or free for an RA = 1 addition. -/
def atomOrder (ra : Bool) (op : BitVec 4) (n : Nat) (qs : List Site) : List Site :=
  if ra && (op = 12 || op = 13) then
    let first := (Config.raOrder n).dedup.filterMap fun l => qs.find? (·.lane = l)
    first ++ qs.filter fun q => !first.contains q
  else qs

/-- State of an atomic in progress: the machine, the old values so far, the lanes that wait. -/
structure AtomRun where
  s : State
  olds : List (Nat × Nat)
  waits : Nat

/-- Perform one lane of an atomic: at once, parked, in the sheaf's own view, or deferred to the commit. `holds` says that later
accesses wait for it (R328). -/
def AtomRun.lane (r : AtomRun) (sp : Space) (op : BitVec 4) (ret holds : Bool) (ref : Nat) (x : Issuer) (q : Site) (d : BitVec 128) :
    AtomRun :=
  let s := r.s
  let n := atomBytes op
  let back := if ret then some ref else none
  if s.repeatable then
    if sp = .spad || sp = .clus then
      let old := leNat (s.see q.key n)
      { r with s := s.writeSite true false [] x q (leBytes n (atomNew op old d)), olds := r.olds ++ [(q.lane, old)] }
    else
      { r with s := s.upd (fun h => { h with defer := h.defer ++
                        [.atomic (q.map.map fun _ => q.va) q.key op d back q.lane s.sh.latch.word] })
               waits := r.waits + 1 }
  else
    match s.parksAt q with
    | some (tag, m, va) =>
      { r with s := s.parkOp m tag s.sh.uid none va holds (.atom va op d back q.lane s.sh.latch.word), waits := r.waits + 1 }
    | none =>
      let (old, t) := s.atomAt s.tag q.key op d
      let new := leBytes n (atomNew op old d)
      let u := if isForeign q.key then t.upd fun h => h.addFar x q.key (leBytes n old) new else t
      { r with s := if q.map.isSome then u.traceMine s.mem q.va q.key new else u, olds := r.olds ++ [(q.lane, old)] }

/-- An atomic (R146). -/
def State.atomic (s : State) (i : Instr) (sp : Space) (la : BitVec 4) (d a : VCode) (e : AtomExt) : State :=
  match s.plan sp .atomic (atomBytes e.op) true (s.laneAddrs sp a e.ofs.toInt) with
  | .error b => s.blocked i .atomic b
  | .ok p =>
    let dup := if sp = .spad || sp = .clus then overlapping p.sites else []
    let release := e.ord = 2 || e.ord = 3 || (e.ord = 1 && !e.ret)
    if dup ≠ [] then s.unhold.trapWord i .atomdup (some (lanesMask dup))
    else if s.readWaits (s.directSites false p.sites) || (release && s.parkedMine) ||
        s.orderHolds || s.overtakes p.sites || s.parkingFull p.sites then s.stall i none
    else
      match s.firstBad s.ownLines (s.directSites (s.repeatable && sp ≠ .spad && sp ≠ .clus) p.sites) with
      | some q => s.meetError i q
      | none =>
        let r := s.sh.rd
        let ref := s.fresh
        let order := atomOrder (e.ra && !s.repeatable) e.op ref p.sites
        let run := order.foldl (fun (x : AtomRun) q => x.lane sp e.op e.ret (e.ord = 3 || (e.ret && e.ord ≠ 0)) ref (s.issuer i q.lane) q
            (r.atomOperand e.op d q.lane))
          { s := ((s.unhold.touch p.sites).openFar i (s.directSites s.repeatable p.sites) p.rejected).tick, olds := [], waits := 0 }
        let s1 := if e.ret then
            run.s.pendLoad { atomic := true, remote := false, slots := [], em := lanesMask (p.sites.map Site.lane)
                             dest := atomRows e.op d (laneVal run.olds), word := s.sh.latch.word, pc := s.sh.latch.addr
                             instr := i, ref := ref, waits := run.waits
                             sites := [] }
          else run.s
        let s2 := if e.ret then s1.openWindow la (if d.toNat < 104 then (List.range (atomRet e.op)).map (d.toNat + ·) else [])
          else s1
        let s3 := if e.ret && s.repeatable then s2.upd fun h => { h with quantumDone := true } else s2
        if p.rejected = [] then s3
        else s3.post [.peerHostRejection s.sh.uid s.sh.latch.word (s.sh.use i).destCode (lanesMask p.rejected)]

/-! ### Code (R29, R74, R90) -/

/-- Why a code word cannot be fetched: its page is to be waited for, or refused, its line holds an error, or a write of the line is
to be replayed first (R83). -/
inductive CodeStop where
  | page (va : Nat) | refused | line (key : Nat) | wait
  deriving DecidableEq, Repr

/-- The words of the packet that holds one (R29). -/
def packetAt (a : Nat) : List Nat := (List.range 3).map (a / 3 * 3 + ·)

/-- The first of some words of a sheaf's image that cannot be fetched; words past the image are not looked at. -/
def State.codeStop (s : State) (h : Sheaf) : List Nat → Option CodeStop
  | [] => none
  | a :: r =>
    match s.taskOf h with
    | none => none
    | some t =>
      if t.codeWords ≤ a then none
      else match s.xlat t.tag (t.codeBase + 4 * a) .load with
        | .fault => some (.page (t.codeBase + 4 * a))
        | .prot => some .refused
        | .ok m => match s.reach t.tag false m.key with
          | none => some .refused
          | some k => if s.lineBad k then some (.line k) else if s.awaitsReplay k then some .wait else s.codeStop h r

/-- The lines of code words and the table entries that lead to them: a fetch corrects what their codes can correct (R89). -/
def State.codeKeys (s : State) (h : Sheaf) (as : List Nat) : List Nat :=
  if s.weak = [] then []
  else match s.taskOf h with
    | none => []
    | some t => (as.filter (· < t.codeWords)).flatMap fun a =>
        let va := t.codeBase + 4 * a
        walkKeys s.mem va 4 0 (s.root t.tag) ++ (match s.xlat t.tag va .load with | .ok m => (s.reach t.tag false m.key).toList | _ => [])

/-- The sheaf does not get the code words of its group: it parks as for a load (R74, LOG 7), traps PROT (R71, R446), meets the error
(R90), or stays as it is until the line's writes are replayed (R83). `aux` is what the trap reports, `next` the group that follows
(R439). -/
def State.codeBlocked (s : State) (aux : DWord) (next : BitVec 32) : CodeStop → State
  | .page va =>
    if s.sh.badPages.any fun v => v.toNat / 65536 = va / 65536 then
      (s.unhold.upd fun h => { h with badPages := h.badPages.filter fun v => v.toNat / 65536 ≠ va / 65536 }).trapGroup .prot s.sh.em aux
    else s.unhold.park [va] .load
  | .refused => s.unhold.trapGroup .prot s.sh.em aux
  | .line k =>
    if s.liveOwner k = some s.tag then
      s.unhold.endContext s.tag Cause.ue.code 0 (some s.sh) s.sh.pc 0 (s.lineVA s.tag k)
    else (s.unhold.containError k).trapPast s.sh.em aux next
  | .wait => s

end Sys2Proof.Machine
end

