-- ==== Sys2Proof/Machine/IntArith.lean ====
section
/-!
DEFINITION. Vector integer arithmetic, logic, shifts, immediates, bit counts and fields (R247-R256).
-/

namespace Sys2Proof.Machine

open Sys2Proof

/-- Write a lane-wise 32-bit result to D under em, and push it (R237, R238). -/
def State.vecLanes (s : State) (d : VCode) (f : Nat → Word) : State :=
  s.regs fun r => r.result s.sh.em d (rowOf f)

/-- x := f(a, b, d) in every active lane (R248). -/
def State.vec (s : State) (d a b : VCode) (f : Word → Word → Word → Word) : State :=
  let x := s.sh.rd.src a
  let y := s.sh.rd.src b
  let o := s.sh.rd.file d.toNat
  s.vecLanes d fun i => f (laneOf x i) (laneOf y i) (laneOf o i)

/-- x := f(a) in every active lane (R248). -/
def State.vec1 (s : State) (d a : VCode) (f : Word → Word) : State := s.vec d a a fun x _ _ => f x

/-- Signed sum saturated to 32 bits (R248). -/
def satAdd (x y : Word) : Word :=
  let t := x.toInt + y.toInt
  if t < -2147483648 then 0x80000000 else if 2147483647 < t then 0x7FFFFFFF else BitVec.ofInt 32 t

/-- Set bits among the low `n` (R216, R254). -/
def popCount (x : Nat) : Nat → Nat
  | 0 => 0
  | n + 1 => (x / 2 ^ n % 2) + popCount x n

/-- Zero bits above the highest set bit (R254). -/
def leadingZeros (x : Word) : Nat := if x = 0 then 32 else 31 - Nat.log2 x.toNat

/-- BFX: p = b[4:0], len = b[12:8] + 1, signed when b[16] (R254). -/
def fieldExtract (a b : Word) : Word :=
  let p := (b.extractLsb' 0 5).toNat
  let len := (b.extractLsb' 8 5).toNat + 1
  let f := (a >>> p) &&& BitVec.ofNat 32 (2 ^ len - 1)
  if b.getLsbD 16 && f.getLsbD (len - 1) then f ||| ~~~(BitVec.ofNat 32 (2 ^ len - 1)) else f

/-- BFI: m = ((2^len − 1) << p) wrap32 (R256). -/
def fieldInsert (a b d : Word) : Word :=
  let p := (b.extractLsb' 0 5).toNat
  let len := (b.extractLsb' 8 5).toNat + 1
  let m := BitVec.ofNat 32 ((2 ^ len - 1) * 2 ^ p)
  (d &&& ~~~m) ||| ((a <<< p) &&& m)

/-- Σ of the products of extended bytes (R256). -/
def dot4 (ext : BitVec 8 → Word) (a b : Word) : Word :=
  ext (a.extractLsb' 0 8) * ext (b.extractLsb' 0 8) + ext (a.extractLsb' 8 8) * ext (b.extractLsb' 8 8) +
  ext (a.extractLsb' 16 8) * ext (b.extractLsb' 16 8) + ext (a.extractLsb' 24 8) * ext (b.extractLsb' 24 8)

/-- IADD: wrapping sum (R248). -/
def execIadd (d : VCode) (a : VCode) (b : VCode) (s : State) : Out :=
  s.issue (.iadd d a b) fun s => s.vec d a b fun x y _ => x + y

/-- ISUB: wrapping difference (R248). -/
def execIsub (d : VCode) (a : VCode) (b : VCode) (s : State) : Out :=
  s.issue (.isub d a b) fun s => s.vec d a b fun x y _ => x - y

/-- IMUL: low half of the product (R248). -/
def execImul (d : VCode) (a : VCode) (b : VCode) (s : State) : Out :=
  s.issue (.imul d a b) fun s => s.vec d a b fun x y _ => x * y

/-- IMULHI: high half of the signed product (R248). -/
def execImulhi (d : VCode) (a : VCode) (b : VCode) (s : State) : Out :=
  s.issue (.imulhi d a b) fun s => s.vec d a b fun x y _ => (x.signExtend 64 * y.signExtend 64).extractLsb' 32 32

/-- IMAD: product plus the old destination (R248). -/
def execImad (d : VCode) (a : VCode) (b : VCode) (s : State) : Out :=
  s.issue (.imad d a b) fun s => s.vec d a b fun x y d => x * y + d

/-- IMIN: signed minimum (R248). -/
def execImin (d : VCode) (a : VCode) (b : VCode) (s : State) : Out :=
  s.issue (.imin d a b) fun s => s.vec d a b fun x y _ => if x.slt y then x else y

/-- IMAX: signed maximum (R248). -/
def execImax (d : VCode) (a : VCode) (b : VCode) (s : State) : Out :=
  s.issue (.imax d a b) fun s => s.vec d a b fun x y _ => if x.slt y then y else x

/-- IABSD: absolute difference of the signed values (R248). -/
def execIabsd (d : VCode) (a : VCode) (b : VCode) (s : State) : Out :=
  s.issue (.iabsd d a b) fun s => s.vec d a b fun x y _ => if x.slt y then y - x else x - y

/-- NMIN: unsigned minimum (R248). -/
def execNmin (d : VCode) (a : VCode) (b : VCode) (s : State) : Out :=
  s.issue (.nmin d a b) fun s => s.vec d a b fun x y _ => if x.ult y then x else y

/-- NMAX: unsigned maximum (R248). -/
def execNmax (d : VCode) (a : VCode) (b : VCode) (s : State) : Out :=
  s.issue (.nmax d a b) fun s => s.vec d a b fun x y _ => if x.ult y then y else x

/-- NMULHI: high half of the unsigned product (R248). -/
def execNmulhi (d : VCode) (a : VCode) (b : VCode) (s : State) : Out :=
  s.issue (.nmulhi d a b) fun s => s.vec d a b fun x y _ => (x.setWidth 64 * y.setWidth 64).extractLsb' 32 32

/-- IADDS: signed sum, saturated (R248). -/
def execIadds (d : VCode) (a : VCode) (b : VCode) (s : State) : Out :=
  s.issue (.iadds d a b) fun s => s.vec d a b fun x y _ => satAdd x y

/-- AND: AND (R250). -/
def execAnd (d : VCode) (a : VCode) (b : VCode) (s : State) : Out :=
  s.issue (.and d a b) fun s => s.vec d a b fun x y _ => x &&& y

/-- OR: OR (R250). -/
def execOr (d : VCode) (a : VCode) (b : VCode) (s : State) : Out :=
  s.issue (.or d a b) fun s => s.vec d a b fun x y _ => x ||| y

/-- XOR: XOR (R250). -/
def execXor (d : VCode) (a : VCode) (b : VCode) (s : State) : Out :=
  s.issue (.xor d a b) fun s => s.vec d a b fun x y _ => x ^^^ y

/-- ANDN: AND with the complement (R250). -/
def execAndn (d : VCode) (a : VCode) (b : VCode) (s : State) : Out :=
  s.issue (.andn d a b) fun s => s.vec d a b fun x y _ => x &&& ~~~y

/-- SHL: shift left by an unsigned count (R250). -/
def execShl (d : VCode) (a : VCode) (b : VCode) (s : State) : Out :=
  s.issue (.shl d a b) fun s => s.vec d a b fun x y _ => if y.toNat < 32 then x <<< y.toNat else 0

/-- SHR: shift right, zero-filled (R250). -/
def execShr (d : VCode) (a : VCode) (b : VCode) (s : State) : Out :=
  s.issue (.shr d a b) fun s => s.vec d a b fun x y _ => if y.toNat < 32 then x >>> y.toNat else 0

/-- SAR: shift right, sign-filled (R250). -/
def execSar (d : VCode) (a : VCode) (b : VCode) (s : State) : Out :=
  s.issue (.sar d a b) fun s => s.vec d a b fun x y _ => x.sshiftRight y.toNat

/-- ROTL: rotate left by b[4:0] (R250). -/
def execRotl (d : VCode) (a : VCode) (b : VCode) (s : State) : Out :=
  s.issue (.rotl d a b) fun s => s.vec d a b fun x y _ => x.rotateLeft (y.toNat % 32)

/-- IADDI: sum with a signed immediate (R252). -/
def execIaddi (d : VCode) (a : VCode) (imm : BitVec 7) (s : State) : Out :=
  s.issue (.iaddi d a imm) fun s => s.vec1 d a fun x => x + imm.signExtend 32

/-- IMULI: product with a signed immediate (R252). -/
def execImuli (d : VCode) (a : VCode) (imm : BitVec 7) (s : State) : Out :=
  s.issue (.imuli d a imm) fun s => s.vec1 d a fun x => x * imm.signExtend 32

/-- ANDI: AND with a signed immediate (R252). -/
def execAndi (d : VCode) (a : VCode) (imm : BitVec 7) (s : State) : Out :=
  s.issue (.andi d a imm) fun s => s.vec1 d a fun x => x &&& imm.signExtend 32

/-- ORI: OR with a signed immediate (R252). -/
def execOri (d : VCode) (a : VCode) (imm : BitVec 7) (s : State) : Out :=
  s.issue (.ori d a imm) fun s => s.vec1 d a fun x => x ||| imm.signExtend 32

/-- SHLI: shift left (R252). -/
def execShli (d : VCode) (a : VCode) (imm : BitVec 7) (s : State) : Out :=
  s.issue (.shli d a imm) fun s => s.vec1 d a fun x => x <<< imm.toNat

/-- SHRI: shift right, zero-filled (R252). -/
def execShri (d : VCode) (a : VCode) (imm : BitVec 7) (s : State) : Out :=
  s.issue (.shri d a imm) fun s => s.vec1 d a fun x => x >>> imm.toNat

/-- SARI: shift right, sign-filled (R252). -/
def execSari (d : VCode) (a : VCode) (imm : BitVec 7) (s : State) : Out :=
  s.issue (.sari d a imm) fun s => s.vec1 d a fun x => x.sshiftRight imm.toNat

/-- XORI: XOR with a signed immediate (R252). -/
def execXori (d : VCode) (a : VCode) (imm : BitVec 7) (s : State) : Out :=
  s.issue (.xori d a imm) fun s => s.vec1 d a fun x => x ^^^ imm.signExtend 32

/-- POPC: number of set bits (R254). -/
def execPopc (d : VCode) (a : VCode) (s : State) : Out :=
  s.issue (.popc d a) fun s => s.vec1 d a fun x => BitVec.ofNat 32 (popCount x.toNat 32)

/-- CLZ: zero bits above the highest set bit (R254). -/
def execClz (d : VCode) (a : VCode) (s : State) : Out :=
  s.issue (.clz d a) fun s => s.vec1 d a fun x => BitVec.ofNat 32 (leadingZeros x)

/-- BREV: bits reversed (R254). -/
def execBrev (d : VCode) (a : VCode) (s : State) : Out :=
  s.issue (.brev d a) fun s => s.vec1 d a fun x => x.reverse

/-- BFX: field extract (R254). -/
def execBfx (d : VCode) (a : VCode) (b : VCode) (s : State) : Out :=
  s.issue (.bfx d a b) fun s => s.vec d a b fun x y _ => fieldExtract x y

/-- BFI: field insert (R256). -/
def execBfi (d : VCode) (a : VCode) (b : VCode) (s : State) : Out :=
  s.issue (.bfi d a b) fun s => s.vec d a b fun x y d => fieldInsert x y d

/-- SEL: a where the old destination is nonzero, else b (R256). -/
def execSel (d : VCode) (a : VCode) (b : VCode) (s : State) : Out :=
  s.issue (.sel d a b) fun s => s.vec d a b fun x y d => if d ≠ 0 then x else y

/-- IDP4: signed byte dot product plus the old destination (R256). -/
def execIdp4 (d : VCode) (a : VCode) (b : VCode) (s : State) : Out :=
  s.issue (.idp4 d a b) fun s => s.vec d a b fun x y d => d + dot4 (BitVec.signExtend 32) x y

/-- NDP4: unsigned byte dot product plus the old destination (R256). -/
def execNdp4 (d : VCode) (a : VCode) (b : VCode) (s : State) : Out :=
  s.issue (.ndp4 d a b) fun s => s.vec d a b fun x y d => d + dot4 (BitVec.setWidth 32) x y

end Sys2Proof.Machine
end

