-- ==== Sys2Proof/Machine/Scalar.lean ====
section
/-!
DEFINITION. Mask words, moves between register kinds, vector immediates and scalar arithmetic (R209-R229).
-/

namespace Sys2Proof.Machine

open Sys2Proof

/-- 1 or 0 (R224). -/
def flag (b : Bool) : DWord := if b then 1 else 0

/-- S[SD] := f(a, b), both read before the write (R224). -/
def State.scalar (s : State) (d a b : SCode) (f : DWord → DWord → DWord) : State :=
  s.regs fun r => r.setS d (f (s.sh.rd.getS a) (s.sh.rd.getS b))

/-- KAND (R210). -/
def execKand (kd : KCode) (ka : KCode) (kb : KCode) (s : State) : Out :=
  s.issue (.kand kd ka kb) fun s => s.regs fun r => r.setK kd (let x := s.sh.rd.getK ka; let y := s.sh.rd.getK kb; x &&& y)

/-- KOR (R210). -/
def execKor (kd : KCode) (ka : KCode) (kb : KCode) (s : State) : Out :=
  s.issue (.kor kd ka kb) fun s => s.regs fun r => r.setK kd (let x := s.sh.rd.getK ka; let y := s.sh.rd.getK kb; x ||| y)

/-- KXOR (R210). -/
def execKxor (kd : KCode) (ka : KCode) (kb : KCode) (s : State) : Out :=
  s.issue (.kxor kd ka kb) fun s => s.regs fun r => r.setK kd (let x := s.sh.rd.getK ka; let y := s.sh.rd.getK kb; x ^^^ y)

/-- KANDN (R210). -/
def execKandn (kd : KCode) (ka : KCode) (kb : KCode) (s : State) : Out :=
  s.issue (.kandn kd ka kb) fun s => s.regs fun r => r.setK kd (let x := s.sh.rd.getK ka; let y := s.sh.rd.getK kb; x &&& ~~~y)

/-- KNOT (R210). -/
def execKnot (kd : KCode) (ka : KCode) (s : State) : Out :=
  s.issue (.knot kd ka) fun s => s.regs fun r => r.setK kd (~~~(s.sh.rd.getK ka))

/-- KMOV (R210). -/
def execKmov (kd : KCode) (ka : KCode) (s : State) : Out :=
  s.issue (.kmov kd ka) fun s => s.regs fun r => r.setK kd (s.sh.rd.getK ka)

/-- KSET (R210). -/
def execKset (kd : KCode) (s : State) : Out :=
  s.issue (.kset kd) fun s => s.regs fun r => r.setK kd (BitVec.allOnes 64)

/-- KCLR (R210). -/
def execKclr (kd : KCode) (s : State) : Out :=
  s.issue (.kclr kd) fun s => s.regs fun r => r.setK kd 0

/-- EMSET (R212). -/
def execEmset (ka : KCode) (s : State) : Out :=
  s.issue (.emset ka) fun s => s.regs fun r => { r with em := s.sh.rd.getK ka }

/-- EMAND (R212). -/
def execEmand (ka : KCode) (s : State) : Out :=
  s.issue (.emand ka) fun s => s.regs fun r => { r with em := s.sh.rd.em &&& s.sh.rd.getK ka }

/-- EMGET (R212). -/
def execEmget (kd : KCode) (s : State) : Out :=
  s.issue (.emget kd) fun s => s.regs fun r => r.setK kd s.sh.rd.em

/-- VOTE: active lanes whose value is nonzero (R214). -/
def execVote (kd : KCode) (a : VCode) (s : State) : Out :=
  s.issue (.vote kd a) fun s => s.regs fun r => r.setK kd (maskOf fun i => s.sh.em.getLsbD i && laneOf (s.sh.rd.src a) i ≠ 0)

/-- KTOS (R216). -/
def execKtos (sd : SCode) (k : KCode) (s : State) : Out :=
  s.issue (.ktos sd k) fun s => s.regs fun r => r.setS sd (s.sh.rd.getK k)

/-- STOK (R216). -/
def execStok (sa : SCode) (k : KCode) (s : State) : Out :=
  s.issue (.stok sa k) fun s => s.regs fun r => r.setK k (s.sh.rd.getS sa)

/-- KPOP (R216). -/
def execKpop (sd : SCode) (k : KCode) (s : State) : Out :=
  s.issue (.kpop sd k) fun s => s.regs fun r => r.setS sd (BitVec.ofNat 64 (popCount (s.sh.rd.getK k).toNat 64))

/-- EMTOS (R216). -/
def execEmtos (sd : SCode) (s : State) : Out :=
  s.issue (.emtos sd) fun s => s.regs fun r => r.setS sd s.sh.rd.em

/-- STOEM (R216). -/
def execStoem (sa : SCode) (s : State) : Out :=
  s.issue (.stoem sa) fun s => s.regs fun r => { r with em := s.sh.rd.getS sa }

/-- VLI: sign-extended immediate (R218). -/
def execVli (d : VCode) (imm : BitVec 16) (s : State) : Out :=
  s.issue (.vli d imm) fun s => s.vecLanes d fun _ => imm.signExtend 32

/-- VLIH: immediate over the low half of the old destination (R218). -/
def execVlih (d : VCode) (imm : BitVec 16) (s : State) : Out :=
  s.issue (.vlih d imm) fun s => s.vecLanes d fun i => imm ++ (laneOf (s.sh.rd.file d.toNat) i).extractLsb' 0 16

/-- VTOS: one lane, active or not (R220). -/
def execVtos (sd : SCode) (a : VCode) (lane : BitVec 10) (s : State) : Out :=
  s.issue (.vtos sd a lane) fun s => s.regs fun r => r.setS sd ((laneOf (s.sh.rd.src a) lane.toNat).setWidth 64)

/-- STOV: the low half of a scalar in every active lane (R222). -/
def execStov (d : VCode) (sa : SCode) (s : State) : Out :=
  s.issue (.stov d sa) fun s => s.vecLanes d fun _ => (s.sh.rd.getS sa).setWidth 32

/-- SADD: sum (R224). -/
def execSadd (d : SCode) (a : SCode) (b : SCode) (s : State) : Out :=
  s.issue (.sadd d a b) fun s => s.scalar d a b fun x y => x + y

/-- SSUB: difference (R224). -/
def execSsub (d : SCode) (a : SCode) (b : SCode) (s : State) : Out :=
  s.issue (.ssub d a b) fun s => s.scalar d a b fun x y => x - y

/-- SMUL: product (R224). -/
def execSmul (d : SCode) (a : SCode) (b : SCode) (s : State) : Out :=
  s.issue (.smul d a b) fun s => s.scalar d a b fun x y => x * y

/-- SMULHI: high half of the signed product (R224). -/
def execSmulhi (d : SCode) (a : SCode) (b : SCode) (s : State) : Out :=
  s.issue (.smulhi d a b) fun s => s.scalar d a b fun x y => (x.signExtend 128 * y.signExtend 128).extractLsb' 64 64

/-- SAND: AND (R224). -/
def execSand (d : SCode) (a : SCode) (b : SCode) (s : State) : Out :=
  s.issue (.sand d a b) fun s => s.scalar d a b fun x y => x &&& y

/-- SOR: OR (R224). -/
def execSor (d : SCode) (a : SCode) (b : SCode) (s : State) : Out :=
  s.issue (.sor d a b) fun s => s.scalar d a b fun x y => x ||| y

/-- SXOR: XOR (R224). -/
def execSxor (d : SCode) (a : SCode) (b : SCode) (s : State) : Out :=
  s.issue (.sxor d a b) fun s => s.scalar d a b fun x y => x ^^^ y

/-- SSHL: shift left (R224). -/
def execSshl (d : SCode) (a : SCode) (b : SCode) (s : State) : Out :=
  s.issue (.sshl d a b) fun s => s.scalar d a b fun x y => x <<< (y.toNat % 64)

/-- SSHR: shift right, zero-filled (R224). -/
def execSshr (d : SCode) (a : SCode) (b : SCode) (s : State) : Out :=
  s.issue (.sshr d a b) fun s => s.scalar d a b fun x y => x >>> (y.toNat % 64)

/-- SSAR: shift right, sign-filled (R224). -/
def execSsar (d : SCode) (a : SCode) (b : SCode) (s : State) : Out :=
  s.issue (.ssar d a b) fun s => s.scalar d a b fun x y => x.sshiftRight (y.toNat % 64)

/-- SMIN: signed minimum (R224). -/
def execSmin (d : SCode) (a : SCode) (b : SCode) (s : State) : Out :=
  s.issue (.smin d a b) fun s => s.scalar d a b fun x y => if x.slt y then x else y

/-- SMAX: signed maximum (R224). -/
def execSmax (d : SCode) (a : SCode) (b : SCode) (s : State) : Out :=
  s.issue (.smax d a b) fun s => s.scalar d a b fun x y => if x.slt y then y else x

/-- SMINN: unsigned minimum (R224). -/
def execSminn (d : SCode) (a : SCode) (b : SCode) (s : State) : Out :=
  s.issue (.sminn d a b) fun s => s.scalar d a b fun x y => if x.ult y then x else y

/-- SMAXN: unsigned maximum (R224). -/
def execSmaxn (d : SCode) (a : SCode) (b : SCode) (s : State) : Out :=
  s.issue (.smaxn d a b) fun s => s.scalar d a b fun x y => if x.ult y then y else x

/-- SEQ: equal (R224). -/
def execSeq (d : SCode) (a : SCode) (b : SCode) (s : State) : Out :=
  s.issue (.seq d a b) fun s => s.scalar d a b fun x y => flag (x = y)

/-- SNE: not equal (R224). -/
def execSne (d : SCode) (a : SCode) (b : SCode) (s : State) : Out :=
  s.issue (.sne d a b) fun s => s.scalar d a b fun x y => flag (x ≠ y)

/-- SLT: signed less (R224). -/
def execSlt (d : SCode) (a : SCode) (b : SCode) (s : State) : Out :=
  s.issue (.slt d a b) fun s => s.scalar d a b fun x y => flag (x.slt y)

/-- SLTN: unsigned less (R224). -/
def execSltn (d : SCode) (a : SCode) (b : SCode) (s : State) : Out :=
  s.issue (.sltn d a b) fun s => s.scalar d a b fun x y => flag (x.ult y)

/-- SLE: signed at most (R224). -/
def execSle (d : SCode) (a : SCode) (b : SCode) (s : State) : Out :=
  s.issue (.sle d a b) fun s => s.scalar d a b fun x y => flag (!y.slt x)

/-- SLEN: unsigned at most (R224). -/
def execSlen (d : SCode) (a : SCode) (b : SCode) (s : State) : Out :=
  s.issue (.slen d a b) fun s => s.scalar d a b fun x y => flag (!y.ult x)

/-- SMOV (R224). -/
def execSmov (d : SCode) (a : SCode) (s : State) : Out :=
  s.issue (.smov d a) fun s => s.scalar d a a fun x _ => x

/-- SSEL: a where the old destination is nonzero, else b (R224). -/
def execSsel (d : SCode) (a : SCode) (b : SCode) (s : State) : Out :=
  s.issue (.ssel d a b) fun s => s.scalar d a b fun x y => if s.sh.rd.getS d ≠ 0 then x else y

/-- SLI: sign-extended immediate (R226). -/
def execSli (d : SCode) (imm : BitVec 17) (s : State) : Out :=
  s.issue (.sli d imm) fun s => s.scalar d 0 0 fun _ _ => imm.signExtend 64

/-- SLIS: 17 more bits below the old value (R226). -/
def execSlis (d : SCode) (imm : BitVec 17) (s : State) : Out :=
  s.issue (.slis d imm) fun s => s.scalar d d d fun x _ => (x <<< 17) ||| imm.setWidth 64

/-- SADDI: sum with a signed immediate (R227). -/
def execSaddi (d : SCode) (a : SCode) (imm : BitVec 11) (s : State) : Out :=
  s.issue (.saddi d a imm) fun s => s.scalar d a a fun x _ => x + imm.signExtend 64

/-- SSHLI (R229). -/
def execSshli (d : SCode) (a : SCode) (imm : BitVec 9) (s : State) : Out :=
  s.issue (.sshli d a imm) fun s => s.scalar d a a fun x _ => x <<< imm.toNat

/-- SSHRI (R229). -/
def execSshri (d : SCode) (a : SCode) (imm : BitVec 9) (s : State) : Out :=
  s.issue (.sshri d a imm) fun s => s.scalar d a a fun x _ => x >>> imm.toNat

/-- SSARI (R229). -/
def execSsari (d : SCode) (a : SCode) (imm : BitVec 9) (s : State) : Out :=
  s.issue (.ssari d a imm) fun s => s.scalar d a a fun x _ => x.sshiftRight imm.toNat

/-- SANDI: AND with a signed immediate (R229). -/
def execSandi (d : SCode) (a : SCode) (imm : BitVec 9) (s : State) : Out :=
  s.issue (.sandi d a imm) fun s => s.scalar d a a fun x _ => x &&& imm.signExtend 64

end Sys2Proof.Machine
end

