-- ==== Sys2Proof/Machine/Control.lean ====
section
/-!
DEFINITION. Special registers (R207, R231), control transfers (R356-R362), sheaf control (R363, R364, R174), traps by
program and the return from them (R457-R461), REP (R232-R236).
-/

namespace Sys2Proof.Machine

open Sys2Proof

/-! ### Special registers -/

/-- %cpyq (R154). -/
def Sheaf.cpyq (h : Sheaf) : DWord :=
  h.nextBatch ++ 0#5 ++ BitVec.ofNat 3 h.openCpys.length ++ BitVec.ofNat 4 h.batches.length ++ 0#44

/-- %rpidx: LAST and NEXT (R207, R236). -/
def Sheaf.rpidx (h : Sheaf) : DWord := 0#50 ++ h.rpLast ++ 0#2 ++ BitVec.ofNat 6 h.rpNext

/-- The value SRD reads (R207, R208). -/
def State.special (s : State) (p : BitVec 6) : DWord :=
  let h := s.sh
  let z := fun (n : Nat) => BitVec.ofNat 64 n
  let g := s.myGroup
  match p.toNat with
  | 0 => z laneCount
  | 1 => s.gtc
  | 2 => h.sheafNo.setWidth 64
  | 3 => h.lsheaf.setWidth 64
  | 4 => z (s.core % 8)
  | 5 => z (s.core / 8 % 8)
  | 6 => z (s.core / 64 % 8)
  | 7 => s.modId.setWidth 64
  | 8 => z (s.partOf h % 64)
  | 9 | 10 | 11 | 12 | 13 | 14 | 15 => ((g.bind fun g => g.gi.toArray[p.toNat - 9]?).getD 0).setWidth 64
  | 16 => z (((g.map Group.step).getD 0) % 2 ^ 48)
  | 17 => h.regs.mode
  | 18 => h.fpflags
  | 19 => h.trpc.setWidth 64
  | 20 => h.trnext.setWidth 64
  | 21 => h.trmask
  | 22 => h.trcause.setWidth 64
  | 23 => h.traux
  | 24 => h.trbase
  | 25 => h.trem
  | 26 => h.tsc[0]
  | 27 => h.tsc[1]
  | 28 => h.tsc[2]
  | 29 => h.tsc[3]
  | 30 => h.rpidx
  | 31 => h.scope.setWidth 64
  | 32 => h.ver.setWidth 64
  | 33 => z h.budget
  | 34 => h.prio.setWidth 64
  | 35 => h.quant.setWidth 64
  | 36 => h.late.setWidth 64
  | 37 => h.cpyq
  | _ => 0

/-- Put bits of %mode; in a handler bits 12:8 go to the hidden copy (R99, R443). -/
def Sheaf.setMode (h : Sheaf) (x : DWord) : Sheaf :=
  let v := x &&& 0x1F3F#64
  if h.hnd then { h with hidMode := v.extractLsb' 8 5, regs := { h.regs with mode := v &&& 0x3F#64 } }
  else { h with regs := { h.regs with mode := v } }

/-- What SWR writes (R207, R208): RO registers ignore it. A handler that writes %trnext clears %rpidx (R236). -/
def Sheaf.setSpecial (h : Sheaf) (p : BitVec 6) (x : DWord) : Sheaf :=
  match p.toNat with
  | 17 => h.setMode x
  | 18 => { h with fpflags := x &&& 0x1F#64 }
  | 20 => if h.hnd then { h with trnext := x.setWidth 32, rpLast := 0, rpNext := 0, rpResume := false }
      else { h with trnext := x.setWidth 32 }
  | 24 => { h with trbase := x &&& 0x80000000FFFFFFFF#64 }
  | 25 => { h with trem := x }
  | 26 => { h with tsc := h.tsc.set 0 x }
  | 27 => { h with tsc := h.tsc.set 1 x }
  | 28 => { h with tsc := h.tsc.set 2 x }
  | 29 => { h with tsc := h.tsc.set 3 x }
  | 34 => { h with prio := x.setWidth 2 }
  | 35 => { h with quant := x.setWidth 32 }
  | 36 => { h with late := x.setWidth 32 }
  | _ => h

/-- %fpflags waits for the loops that have flags to merge (R100). -/
def State.afterLoops (s : State) (i : Instr) (p : BitVec 6) (f : State → State) : State :=
  if p = 18 && s.sh.loops ≠ [] then s.stall i none else f s.unhold

/-- SRD (R231). -/
def execSrd (p : BitVec 6) (d : SCode) (s : State) : Out :=
  s.issueWait (.srd p d) fun s => s.afterLoops (.srd p d) p fun s => s.regs fun r => r.setS d (s.special p)

/-- SWR (R231): a write of an RO register is ignored; RWF outside firmware has trapped PRIV. -/
def execSwr (p : BitVec 6) (a : SCode) (s : State) : Out :=
  s.issueWait (.swr p a) fun s =>
    s.afterLoops (.swr p a) p fun s => s.upd fun h => h.setSpecial p (s.sh.rd.getS a)

/-! ### Control transfers -/

/-- Go to a word address; one outside the code traps RANGE (R356). -/
def State.goto (s : State) (i : Instr) (t : Int) (f : State → State) : State :=
  if t < 0 || (s.codeWords s.sh : Int) ≤ t then s.trapWord i .range none
  else (f s).upd fun h => { h with next := BitVec.ofInt 32 t }

/-- The target of a relative transfer (R29). -/
def State.target (s : State) {n : Nat} (ofs : BitVec n) : Int := s.sh.latch.addr.toNat + ofs.toInt

/-- A conditional transfer checks its target only when taken (R356). -/
def State.branchIf (s : State) (i : Instr) (c : Bool) {n : Nat} (ofs : BitVec n) : State :=
  if c then s.goto i (s.target ofs) id else s

/-- BRA (R357). -/
def execBra (ofs : BitVec 23) (s : State) : Out := s.issue (.bra ofs) fun s => s.goto (.bra ofs) (s.target ofs) id

/-- CALL (R355, R357). -/
def execCall (ofs : BitVec 23) (s : State) : Out :=
  s.issue (.call ofs) fun s =>
    if 0 ≤ s.target ofs && s.target ofs < s.codeWords s.sh && s.overBudget s.sh (s.target ofs).toNat
    then s.trapWord (.call ofs) .budget none
    else s.goto (.call ofs) (s.target ofs) fun s => s.regs fun r => r.setS 63 (s.sh.next.setWidth 64)

/-- BNZ (R358). -/
def execBnz (a : SCode) (ofs : BitVec 17) (s : State) : Out :=
  s.issue (.bnz a ofs) fun s => s.branchIf (.bnz a ofs) (s.sh.rd.getS a ≠ 0) ofs

/-- BZ (R358). -/
def execBz (a : SCode) (ofs : BitVec 17) (s : State) : Out :=
  s.issue (.bz a ofs) fun s => s.branchIf (.bz a ofs) (s.sh.rd.getS a = 0) ofs

/-- BANY (R359). -/
def execBany (k : KCode) (ofs : BitVec 18) (s : State) : Out :=
  s.issue (.bany k ofs) fun s => s.branchIf (.bany k ofs) (s.sh.rd.getK k &&& s.sh.em ≠ 0) ofs

/-- BALL (R359). -/
def execBall (k : KCode) (ofs : BitVec 18) (s : State) : Out :=
  s.issue (.ball k ofs) fun s => s.branchIf (.ball k ofs) (s.sh.rd.getK k &&& s.sh.em = s.sh.em) ofs

/-- BNONE (R359). -/
def execBnone (k : KCode) (ofs : BitVec 18) (s : State) : Out :=
  s.issue (.bnone k ofs) fun s => s.branchIf (.bnone k ofs) (s.sh.rd.getK k &&& s.sh.em = 0) ofs

/-- BEMZ (R359). -/
def execBemz (ofs : BitVec 18) (s : State) : Out :=
  s.issue (.bemz ofs) fun s => s.branchIf (.bemz ofs) (s.sh.em = 0) ofs

/-- LOOP (R358): a taken LOOP out of range leaves the counter. -/
def execLoop (a : SCode) (ofs : BitVec 17) (s : State) : Out :=
  s.issue (.loop a ofs) fun s =>
    let x := s.sh.rd.getS a - 1
    let put := fun (s : State) => s.regs fun r => r.setS a x
    if x ≠ 0 then s.goto (.loop a ofs) (s.target ofs) put else put s

/-- One round of a CALLX sequence over the lanes E, past the targets already served (R361). DEDUCED (LOG 16): a continuation's
target that fails its check reports the lanes that hold it. -/
def State.callxRound (s : State) (a : VCode) (e : DWord) (last : Option Nat) : State :=
  let at_ := fun l => (laneOf (s.sh.rd.src a) l).toNat
  let ts := ((lanesOf e).map at_).filter fun t => match last with | some l => l < t | none => true
  match ts with
  | [] => s.upd fun h => { h with regs := { h.regs with em := e }.setS 60 0, contF := false }
  | x :: r =>
    let t := r.foldl min x
    let those := maskOf fun l => e.getLsbD l && at_ l = t
    if s.codeWords s.sh ≤ t then s.trapWord (.callx a) .range (some those)
    else if s.overBudget s.sh t then s.trapWord (.callx a) .budget (some those)
    else
      s.upd fun h =>
        let link := 2 ^ 63 ||| h.latch.addr.setWidth 64
        let regs := { h.regs with em := those }
        { h with regs := (((regs.setS 61 e).setS 60 (BitVec.ofNat 64 t)).setS 63 link), contF := false
                 next := BitVec.ofNat 32 t }

/-- CALLX continues a sequence (R361). -/
def Sheaf.continues (h : Sheaf) : Bool := h.contF && h.contAt = some h.latch.addr

/-- CALLX (R360, R361). -/
def execCallx (a : VCode) (s : State) : Out :=
  s.issue (.callx a) fun s =>
    let r := s.sh.rd
    let at_ := fun l => (laneOf (r.src a) l).toNat
    if s.sh.continues then s.callxRound a (r.getS 61) (some ((r.getS 60).extractLsb' 0 32).toNat)
    else if s.sh.em = 0 then s
    else
      let far := maskOf fun l => s.sh.em.getLsbD l && s.codeWords s.sh ≤ at_ l
      let big := maskOf fun l => s.sh.em.getLsbD l && s.overBudget s.sh (at_ l)
      if far ≠ 0 then s.trapWord (.callx a) .range (some far)
      else if big ≠ 0 then s.trapWord (.callx a) .budget (some big)
      else s.callxRound a s.sh.em none

/-- RET (R361, R362). -/
def execRet (s : State) : Out :=
  s.issue .ret fun s =>
    let x := s.sh.rd.getS 63
    if x.extractLsb' 32 31 ≠ 0 then s.trapWord .ret .range none
    else s.goto .ret (x.extractLsb' 0 32).toNat fun s =>
      s.upd fun h => { h with contF := x.getLsbD 63, contAt := some (x.extractLsb' 0 32) }

/-! ### Sheaf control -/

/-- NOP (R363). -/
def execNop (s : State) : Out := s.issue .nop id

/-- YIELD (R363): the youngest of its priority. -/
def execYield (s : State) : Out := s.issue .yield fun s => s.upd fun h => { h with yielded := true }

/-- EXIT (R364). -/
def execExit (s : State) : Out := s.issue .exit State.exit

/-- SLEEP: until the GTC reaches S[SA] (R363). -/
def execSleep (a : SCode) (s : State) : Out :=
  s.issueWait (.sleep a) fun s =>
    let t := s.token.getD (s.sh.rd.getS a).toNat
    s.waitFor (.sleep a) (some t) (decide (t ≤ s.gtc.toNat)) id

/-- The GTC value a promise's 56 time bits name (R153). -/
def promiseTime (now p : DWord) : Int :=
  now.toNat + ((p.setWidth 56 - now.setWidth 56 : BitVec 56)).toInt

/-- The event of a batch that S[SA] and EV name is complete (R153, R174). -/
def Sheaf.eventDone (h : Sheaf) (p : DWord) (ev : Bool) : Bool :=
  match h.batches.find? (·.num = p.extractLsb' 56 8) with
  | none => true
  | some b => b.outbound && !ev && b.ev0

/-- %late counts up to its limit (R207). -/
def Sheaf.countLate (h : Sheaf) : Sheaf := { h with late := if h.late = BitVec.allOnes 32 then h.late else h.late + 1 }

/-- A SLEEPB whose promise has passed tests its event; the token 1 says that it was late already (R174). -/
def State.sleepbTest (s : State) (i : Instr) (p : DWord) (ev : Bool) : State :=
  if s.sh.eventDone p ev then s.unhold
  else if s.repeatable || s.token = some 1 then s.hold i (some 1)
  else if s.sh.rd.mode.getLsbD 5 then
    s.unhold.pendTrap { kind := .group, cause := .late, pc := some s.sh.pc, mask := s.sh.em,
                        aux := p.extractLsb' 56 8 ++ BitVec.ofNat 8 (if ev then 1 else 0) ++ 0#48 }
  else (s.upd Sheaf.countLate).hold i (some 1)

/-- SLEEPB (R174). -/
def execSleepb (a : SCode) (ev : Bool) (s : State) : Out :=
  s.issueWait (.sleepb a ev) fun s =>
    let i := Instr.sleepb a ev
    let p := s.sh.rd.getS a
    if s.repeatable && s.sh.wait.isNone then s.hold i (some 0)
    else if (s.gtc.toNat : Int) < promiseTime s.gtc p && s.token ≠ some 1 then s.hold i (some 0)
    else s.sleepbTest i p ev

/-- WAITB (R174). -/
def execWaitb (a : SCode) (ev : Bool) (s : State) : Out :=
  s.issueWait (.waitb a ev) fun s =>
    s.waitFor (.waitb a ev) none (s.sh.eventDone (s.sh.rd.getS a) ev) id

/-! ### Traps by program, return, mode -/

/-- %traux of TRAP and BKPT (R440, R457). -/
def State.auxCode (s : State) (n : BitVec 16) : DWord := s.sh.latch.word ++ 0#14 ++ s.sh.latch.slot ++ n

/-- The pending trap of TRAP or BKPT. -/
def State.softTrap (s : State) (c : Cause) (n : BitVec 16) : PendTrap :=
  { kind := .soft, cause := c, pc := some s.sh.pc, mask := s.sh.em, aux := s.auxCode n }

/-- TRAP (R457). -/
def execTrap (n : BitVec 16) (s : State) : Out := s.issue (.trap n) fun s => s.pendTrap (s.softTrap .trapi n)

/-- BKPT (R445, R457). -/
def execBkpt (n : BitVec 16) (s : State) : Out := s.issue (.bkpt n) fun s => s.pendTrap (s.softTrap .bkpt n)

/-- Return from the handler (R458): the saved mask, enables, last-result file and F come back. DESIGN CHOICE (LOG 14): the target at
which a CALLX continues (R361) is the one this returns to, of which only F is said to be kept. -/
def Sheaf.leaveHandler (h : Sheaf) : Sheaf :=
  { h with
    regs := { h.regs with em := h.trem, w := h.hidW
                          mode := (h.regs.mode &&& ~~~(0x1F00#64)) ||| (h.hidMode.setWidth 64 <<< 8) }
    contF := h.hidF
    contAt := some h.trnext
    pend := h.pend.map fun q => { q with held := false }
    hnd := false
    windows := []
    next := h.trnext }

/-- RETT (R458): ILLOP outside a handler is a check of the word; a bad target ends the context. -/
def execRett (s : State) : Out :=
  s.issue .rett fun s =>
    if s.legalTarget s.sh s.sh.trnext.toNat then s.upd Sheaf.leaveHandler
    else s.endContext s.tag (if s.codeWords s.sh ≤ s.sh.trnext.toNat then Cause.range
      else if s.midGroup s.sh s.sh.trnext.toNat then Cause.illgrp else Cause.illop).code 1 (some s.sh) s.sh.pc (s.aux .rett) 0

/-- MODE (R460). -/
def execMode (hi : Bool) (mask val : BitVec 8) (s : State) : Out :=
  s.issue (.mode hi mask val) fun s => s.upd fun h =>
    let sh := if hi then 8 else 0
    let old : DWord := h.regs.mode ||| (if h.hnd then h.hidMode.setWidth 64 <<< 8 else 0)
    let m := (mask.setWidth 64 : DWord) <<< sh
    h.setMode ((old &&& ~~~m) ||| (((val &&& mask).setWidth 64 : DWord) <<< sh))

/-- TFIX acts (R459). -/
def Sheaf.fixes (h : Sheaf) : Bool :=
  h.hnd && 0x10 ≤ h.trcause.toNat && h.trcause.toNat ≤ 0x14 && fMaj (h.traux.extractLsb' 32 32) ≠ 0x3A

/-- TFIX (R459). -/
def execTfix (a : VCode) (s : State) : Out :=
  s.issue (.tfix a) fun s =>
    let w : Word := s.sh.traux.extractLsb' 32 32
    let t := (s.sh.traux.extractLsb' 0 9).toNat
    let em := s.sh.em
    if !s.sh.fixes then s
    else if t < 104 then
      let d : VCode := BitVec.ofNat 7 t
      if wordIsPair w then s.regs fun r => r.result64 em d (s.sh.rd.src64 a)
      else s.regs fun r => r.result em d (s.sh.rd.src a)
    else if 192 ≤ t && t < 200 then
      let k := BitVec.ofNat 3 (t - 192)
      s.regs fun r => r.setK k ((r.getK k &&& ~~~em) |||
        maskOf fun i => em.getLsbD i && laneOf (s.sh.rd.src a) i ≠ 0)
    else s

/-- Stop a sheaf of a halted core at its pre-emption point (R450, R461): loads drain. -/
def Sheaf.haltCore (h : Sheaf) : Sheaf := { h.deliverAll with coreHalt := true }

/-- A sheaf with registers or batches is on a core. -/
def State.onCore (s : State) (c : Nat) (h : Sheaf) : Bool := h.life ≠ .absent && ((s.group h.group).map Group.core).getD 512 = c

/-- The other sheaves of the core of the sheaf in the issue slot stop and drain; once they have, the core is reported as halted
(R450, R461). -/
def State.haltOthers (s : State) : State :=
  let t : State := { s with peers := s.peers.map fun h => if s.onCore s.core h then h.haltCore else h }
  if t.peers.any fun h => t.onCore t.core h && h.loads ≠ [] then t.hold .halt (some 0)
  else ({ t with halted := t.halted ++ [(t.core, t.sh.uid)] }).hold .halt (some 1)

/-- HALT in a monitor sheaf (R461): the other sheaves of the core stop until the Newt releases the core. -/
def execHalt (s : State) : Out :=
  s.issueWait .halt fun s =>
    if s.token = some 1 then (if s.halted.contains (s.core, s.sh.uid) then s.hold .halt (some 1) else s.unhold) else s.haltOthers

/-! ### REP -/

/-- Bits [hi:lo] of a word replaced. -/
def putField (w : Word) (lo : Nat) (x : BitVec 7) : Word := (w &&& ~~~(0x7F#32 <<< lo)) ||| (x.setWidth 32 <<< lo)

/-- Where a REP target's 7-bit fields D, A and B lie, when they may be stepped (R40, R49, R234). -/
def repFields (w : Word) : Option Nat × Option Nat × Option Nat :=
  let m := (fMaj w).toNat
  if m = 0x1B || m = 0x1C then (some 16, none, none)
  else if 0x31 ≤ m then (some 8, some 1, none)
  else if m = 0x10 then (none, some 7, none)
  else if m = 0x05 || m = 0x06 then (some 14, some 7, none)
  else
    let f := (fFn2 w).toNat
    let unaryOrSel :=
      (m = 0x07 && f < 3) || m = 0x0B || (m = 0x0D && 2 ≤ f) || (m = 0x11 && f ≠ 2) || (m = 0x12 && 2 ≤ f) ||
      (m = 0x13 && 2 ≤ f) || m = 0x14 || m = 0x15 || m = 0x18
    (some 14, some 7, if unaryOrSel then none else some 0)

/-- The target word of repeat j (R234). -/
def repWord (r : RepState) (w : Word) (j : Nat) : Word :=
  let f := repFields w
  let put := fun (on : Bool) (p : Option Nat) (w : Word) =>
    match on, p with
    | true, some lo => putField w lo (w.extractLsb' lo 7 + BitVec.ofNat 7 (j * r.stride))
    | _, _ => w
  put r.stepB f.2.2 (put r.stepA f.2.1 (put r.stepD f.1 w))

/-- The codes a stepped field takes stay in one file, v or o, and keep its shape of `n` registers in every repeat (R36, R234). -/
def repFieldOk (r : RepState) (w : Word) (on : Bool) (p : Option Nat) (n : Nat) : Bool :=
  !on || match p with
    | none => false
    | some lo =>
      let code := fun (j : Nat) => (w.extractLsb' lo 7).toNat + j * r.stride
      let z := code (r.count - 1)
      ((code 0 < 96 && z < 96) || (96 ≤ code 0 && z < 104)) &&
        (List.range r.count).all fun j => srcOk (BitVec.ofNat 7 (code j)) n

/-- Registers that the fields D, A and B of a REP target name (R36, R234): D of a store is its second source. -/
def Use.repShapes (u : Use) : Nat × Nat × Nat :=
  let size := fun (l : List (VCode × Nat)) (k : Nat) => ((l[k]?).map Prod.snd).getD 1
  (if u.dst = [] then size u.src 1 else size u.dst 0, size u.src 0, size u.src 1)

/-- The major may be a REP target, with this EXT after it (R233). -/
def repTarget (w : Word) (x : Option Word) : Bool :=
  let m := (fMaj w).toNat
  if m ≤ 0x18 || m = 0x1B || m = 0x1C then true
  else if 0x31 ≤ m && m ≤ 0x34 then
    !fM w && fW w ≠ 7 && (match x with | some e => (memExt (e.setWidth 23)).ord = 0 | none => true)
  else false

/-- The checks of REP (R233, R234), in the order of R51. -/
def State.repCheck (s : State) (r : RepState) : Option Cause :=
  let a := s.sh.latch.addr.toNat + 1
  if s.sh.latch.more || s.sh.snap.isSome then some .illgrp
  else
    match s.codeWord s.sh a with
    | none => some .illgrp
    | some w =>
      let x := if a % 3 = 2 then none else (s.codeWord s.sh (a + 1)).bind fun y => joinedExt w [y]
      let native := fVer w = 1
      let last := match x with | some y => y | none => w
      if s.codeWords s.sh ≤ a || (native && fCh last) then some .illgrp
      else
        let f := repFields w
        let use := fun j => (meant (repWord r w j) (x.map (·.setWidth 23))).map s.sh.use
        let n := ((use 0).map Use.repShapes).getD (1, 1, 1)
        if !repTarget w x || !(repFieldOk r w r.stepD f.1 n.1 && repFieldOk r w r.stepA f.2.1 n.2.1 &&
            repFieldOk r w r.stepB f.2.2 n.2.2) then some .illop
        else if (List.range r.count).any fun j => (use j).any (·.overBudget s.sh.budget) then some .regbud
        else none

/-- The sheaf has come back from a trap to the REP at its pc (R236). -/
def Sheaf.resumesRep (h : Sheaf) : Bool := h.rpResume && !h.hnd && h.rpAt = h.pc

/-- REP (R232-R236): the repeats of the next word follow; after a return from a trap at repeat NEXT. -/
def execRep (cnt : BitVec 6) (stepD stepA stepB : Bool) (stride : BitVec 2) (s : State) : Out :=
  let i := Instr.rep cnt stepD stepA stepB stride
  s.issue i fun s =>
    let r : RepState := { count := cnt.toNat + 1, stepD, stepA, stepB, stride := 2 ^ stride.toNat }
    let a := s.sh.latch.addr.toNat + 1
    match (if s.sh.latch.more then none else s.codeStop s.sh (packetAt a)), s.repCheck r with
    | some .wait, _ => s.stall i none
    | some x, _ => s.codeBlocked (s.aux i) s.sh.next x
    | none, some c => s.trapWord i c none
    | none, none => s.upd fun h =>
      let n := if h.resumesRep && h.rpNext < r.count then h.rpNext else 0
      { h with rep := some r, rpNext := n, rpLast := if n = 0 then 0 else h.rpLast, rpResume := h.rpResume && h.hnd
               next := h.pc }

end Sys2Proof.Machine
end

