-- ==== Sys2Proof/Machine/Float.lean ====
section
/-!
DEFINITION. Vector floating point and compares (R241-R246, R257-R272).
-/

namespace Sys2Proof.Machine

open Sys2Proof

/-- Merge a word's exceptions into %fpflags, and queue the trap of the lowest-numbered enabled one; `lanes k` are the
active lanes that raised exception k (R98, R101, R242, R243). A second trapping word of a group is not reported. -/
def State.raise (s : State) (i : Instr) (lanes : Nat → DWord) : State :=
  let bit := fun (k : Nat) (e : Exc) => if lanes k ≠ 0 then e else 0
  let exc := bit 0 Exc.inv ||| bit 1 Exc.dz ||| bit 2 Exc.ovf ||| bit 3 Exc.unf ||| bit 4 Exc.inx
  let t : State := { s with sh := s.sh.setFlags exc }
  match fpCause exc s.sh.rd.mode with
  | none => t
  | some (c, k) =>
    if t.sh.pend.any (·.kind = .arith) then t
    else t.pendTrap { kind := .arith, cause := c, pc := some s.sh.pc, mask := lanes k, aux := s.aux i }

/-- Results of every active lane, with what each raised (R237, R242). -/
def State.laneRes (s : State) (f : Nat → FRes) : Vector FRes 64 :=
  Vector.ofFn fun i : Fin 64 => if s.sh.em.getLsbD i.val then f i.val else ⟨0, 0⟩

/-- Value of a lane. -/
def resVal (x : Vector FRes 64) (i : Nat) : Nat := (x.toArray.getD i ⟨0, 0⟩).val
/-- Lanes that raised exception k. -/
def resLanes (x : Vector FRes 64) (k : Nat) : DWord := maskOf fun i => (x.toArray.getD i ⟨0, 0⟩).exc.getLsbD k

/-- Write lane-wise results of 32 bits, push, flag and trap (R241-R243). -/
def State.fpLanes (s : State) (i : Instr) (d : VCode) (f : Nat → FRes) : State :=
  let x := s.laneRes f
  (s.vecLanes d fun l => BitVec.ofNat 32 (resVal x l)).raise i (resLanes x)

/-- Write lane-wise results of 64 bits, push twice, flag and trap (R260). -/
def State.fpLanes64 (s : State) (i : Instr) (d : VCode) (f : Nat → FRes) : State :=
  let x := s.laneRes f
  (s.regs fun r => r.result64 s.sh.em d fun l => BitVec.ofNat 64 (resVal x l)).raise i (resLanes x)

/-- An f32 word: x := g(a, b, d) (R258). -/
def State.fp32 (s : State) (i : Instr) (d a b : VCode) (g : FMode → Nat → Nat → Nat → FRes) : State :=
  let x := s.sh.rd.src a
  let y := s.sh.rd.src b
  let o := s.sh.rd.file d.toNat
  s.fpLanes i d fun l => g s.sh.fmode (laneOf x l).toNat (laneOf y l).toNat (laneOf o l).toNat

/-- An f64 word (R260). -/
def State.fp64 (s : State) (i : Instr) (d a b : VCode) (g : FMode → Nat → Nat → Nat → FRes) : State :=
  s.fpLanes64 i d fun l => g s.sh.fmode (s.sh.rd.src64 a l).toNat (s.sh.rd.src64 b l).toNat (s.sh.rd.src64 d l).toNat

/-- A packed word: each 16-bit element on its own, the lane raising the union (R242, R262). -/
def State.packed (s : State) (i : Instr) (d a b : VCode) (g : FMode → Nat → Nat → Nat → FRes) : State :=
  let x := s.sh.rd.src a
  let y := s.sh.rd.src b
  let o := s.sh.rd.file d.toNat
  s.fpLanes i d fun l =>
    let el := fun (w : Word) (e : Nat) => (w.extractLsb' (16 * e) 16).toNat
    let p := g s.sh.fmode (el (laneOf x l) 0) (el (laneOf y l) 0) (el (laneOf o l) 0)
    let q := g s.sh.fmode (el (laneOf x l) 1) (el (laneOf y l) 1) (el (laneOf o l) 1)
    ⟨q.val * 65536 + p.val, p.exc ||| q.exc⟩

/-- COND on integers (R49). -/
def condInt (c : BitVec 3) (x y : Int) : Bool :=
  match c.toNat with | 0 => x = y | 1 => x ≠ y | 2 => x < y | 3 => x ≤ y | 4 => y < x | _ => y ≤ x

/-- KD := r in the active lanes, 0 in the others, or KD AND r (R272). -/
def State.predicate (s : State) (conj : Bool) (kd : KCode) (m : DWord) : State :=
  s.regs fun r => r.setK kd (if conj then s.sh.rd.getK kd &&& m else m)

/-- An integer compare (R272). -/
def State.compareInt (s : State) (conj : Bool) (kd : KCode) (a b : VCode) (c : Word → Word → Bool) : State :=
  let x := s.sh.rd.src a
  let y := s.sh.rd.src b
  s.predicate conj kd (maskOf fun i => s.sh.em.getLsbD i && c (laneOf x i) (laneOf y i))

/-- A floating compare: KD is written before any trap (R272). -/
def State.compareFp (s : State) (i : Instr) (conj : Bool) (kd : KCode) (c : Nat → Bool × Exc) : State :=
  (s.predicate conj kd (maskOf fun l => s.sh.em.getLsbD l && (c l).1)).raise i
    (fun k => maskOf fun l => s.sh.em.getLsbD l && (c l).2.getLsbD k)

/-- FADD: a + b (R258). -/
def execFadd (d : VCode) (a : VCode) (b : VCode) (s : State) : Out :=
  s.issue (.fadd d a b) fun s => s.fp32 (.fadd d a b) d a b fun m x y _ => f32.addSub m false x y

/-- FSUB: a − b (R258). -/
def execFsub (d : VCode) (a : VCode) (b : VCode) (s : State) : Out :=
  s.issue (.fsub d a b) fun s => s.fp32 (.fsub d a b) d a b fun m x y _ => f32.addSub m true x y

/-- FMUL: a × b (R258). -/
def execFmul (d : VCode) (a : VCode) (b : VCode) (s : State) : Out :=
  s.issue (.fmul d a b) fun s => s.fp32 (.fmul d a b) d a b fun m x y _ => f32.mul m x y

/-- FMA: a × b + d, one rounding (R258). -/
def execFma (d : VCode) (a : VCode) (b : VCode) (s : State) : Out :=
  s.issue (.fma d a b) fun s => s.fp32 (.fma d a b) d a b fun m x y d => f32.fma m false x y d

/-- FMS: a × b − d, one rounding (R258). -/
def execFms (d : VCode) (a : VCode) (b : VCode) (s : State) : Out :=
  s.issue (.fms d a b) fun s => s.fp32 (.fms d a b) d a b fun m x y d => f32.fma m true x y d

/-- FMIN: minimum (R264). -/
def execFmin (d : VCode) (a : VCode) (b : VCode) (s : State) : Out :=
  s.issue (.fmin d a b) fun s => s.fp32 (.fmin d a b) d a b fun m x y _ => f32.minMax m false x y

/-- FMAX: maximum (R264). -/
def execFmax (d : VCode) (a : VCode) (b : VCode) (s : State) : Out :=
  s.issue (.fmax d a b) fun s => s.fp32 (.fmax d a b) d a b fun m x y _ => f32.minMax m true x y

/-- FCPS: magnitude of a, sign of b (R266). -/
def execFcps (d : VCode) (a : VCode) (b : VCode) (s : State) : Out :=
  s.issue (.fcps d a b) fun s => s.vec d a b fun x y _ => (x &&& 0x7FFFFFFF) ||| (y &&& 0x80000000)

/-- FABS: sign cleared (R266). -/
def execFabs (d : VCode) (a : VCode) (s : State) : Out :=
  s.issue (.fabs d a) fun s => s.vec1 d a fun x => x &&& 0x7FFFFFFF

/-- FNEG: sign inverted (R266). -/
def execFneg (d : VCode) (a : VCode) (s : State) : Out :=
  s.issue (.fneg d a) fun s => s.vec1 d a fun x => x ^^^ 0x80000000

/-- FRND: nearest integral value (R268). -/
def execFrnd (d : VCode) (a : VCode) (s : State) : Out :=
  s.issue (.frnd d a) fun s => s.fp32 (.frnd d a) d a a fun m x _ _ => f32.integral m x

/-- FCLS: class of the encoding (R270). -/
def execFcls (d : VCode) (a : VCode) (s : State) : Out :=
  s.issue (.fcls d a) fun s => s.vec1 d a fun x => BitVec.ofNat 32 (classify32 x.toNat)

/-- DADD: a + b (R260). -/
def execDadd (d : VCode) (a : VCode) (b : VCode) (s : State) : Out :=
  s.issue (.dadd d a b) fun s => s.fp64 (.dadd d a b) d a b fun m x y _ => f64.addSub m false x y

/-- DSUB: a − b (R260). -/
def execDsub (d : VCode) (a : VCode) (b : VCode) (s : State) : Out :=
  s.issue (.dsub d a b) fun s => s.fp64 (.dsub d a b) d a b fun m x y _ => f64.addSub m true x y

/-- DMUL: a × b (R260). -/
def execDmul (d : VCode) (a : VCode) (b : VCode) (s : State) : Out :=
  s.issue (.dmul d a b) fun s => s.fp64 (.dmul d a b) d a b fun m x y _ => f64.mul m x y

/-- DFMA: a × b + d, one rounding (R260). -/
def execDfma (d : VCode) (a : VCode) (b : VCode) (s : State) : Out :=
  s.issue (.dfma d a b) fun s => s.fp64 (.dfma d a b) d a b fun m x y d => f64.fma m false x y d

/-- DMIN: minimum (R264). -/
def execDmin (d : VCode) (a : VCode) (b : VCode) (s : State) : Out :=
  s.issue (.dmin d a b) fun s => s.fp64 (.dmin d a b) d a b fun m x y _ => f64.minMax m false x y

/-- DMAX: maximum (R264). -/
def execDmax (d : VCode) (a : VCode) (b : VCode) (s : State) : Out :=
  s.issue (.dmax d a b) fun s => s.fp64 (.dmax d a b) d a b fun m x y _ => f64.minMax m true x y

/-- DRND: nearest integral value (R268). -/
def execDrnd (d : VCode) (a : VCode) (s : State) : Out :=
  s.issue (.drnd d a) fun s => s.fp64 (.drnd d a) d a a fun m x _ _ => f64.integral m x

/-- DNEG: bit 63 inverted (R266). -/
def execDneg (d : VCode) (a : VCode) (s : State) : Out :=
  s.issue (.dneg d a) fun s => s.regs fun r => r.result64 s.sh.em d fun i => s.sh.rd.src64 a i ^^^ (1#64 <<< 63)

/-- HADD2: a + b per element (R262, R258). -/
def execHadd2 (d : VCode) (a : VCode) (b : VCode) (s : State) : Out :=
  s.issue (.hadd2 d a b) fun s => s.packed (.hadd2 d a b) d a b fun m x y _ => f16.addSub m false x y

/-- HMUL2: a × b per element (R262, R258). -/
def execHmul2 (d : VCode) (a : VCode) (b : VCode) (s : State) : Out :=
  s.issue (.hmul2 d a b) fun s => s.packed (.hmul2 d a b) d a b fun m x y _ => f16.mul m x y

/-- HFMA2: a × b + d per element (R262, R258). -/
def execHfma2 (d : VCode) (a : VCode) (b : VCode) (s : State) : Out :=
  s.issue (.hfma2 d a b) fun s => s.packed (.hfma2 d a b) d a b fun m x y d => f16.fma m false x y d

/-- HMAX2: maximum per element (R262, R264). -/
def execHmax2 (d : VCode) (a : VCode) (b : VCode) (s : State) : Out :=
  s.issue (.hmax2 d a b) fun s => s.packed (.hmax2 d a b) d a b fun m x y _ => f16.minMax m true x y

/-- BADD2: a + b per element (R262, R258). -/
def execBadd2 (d : VCode) (a : VCode) (b : VCode) (s : State) : Out :=
  s.issue (.badd2 d a b) fun s => s.packed (.badd2 d a b) d a b fun m x y _ => bf16.addSub m false x y

/-- BMUL2: a × b per element (R262, R258). -/
def execBmul2 (d : VCode) (a : VCode) (b : VCode) (s : State) : Out :=
  s.issue (.bmul2 d a b) fun s => s.packed (.bmul2 d a b) d a b fun m x y _ => bf16.mul m x y

/-- BFMA2: a × b + d per element (R262, R258). -/
def execBfma2 (d : VCode) (a : VCode) (b : VCode) (s : State) : Out :=
  s.issue (.bfma2 d a b) fun s => s.packed (.bfma2 d a b) d a b fun m x y d => bf16.fma m false x y d

/-- BMAX2: maximum per element (R262, R264). -/
def execBmax2 (d : VCode) (a : VCode) (b : VCode) (s : State) : Out :=
  s.issue (.bmax2 d a b) fun s => s.packed (.bmax2 d a b) d a b fun m x y _ => bf16.minMax m true x y

/-- ICMP: signed compare into a predicate (R272). -/
def execIcmp (conj : Bool) (cond : BitVec 3) (kd : KCode) (a : VCode) (b : VCode) (s : State) : Out :=
  s.issue (.icmp conj cond kd a b) fun s => s.compareInt conj kd a b fun x y => condInt cond x.toInt y.toInt

/-- NCMP: unsigned compare into a predicate (R272). -/
def execNcmp (conj : Bool) (cond : BitVec 3) (kd : KCode) (a : VCode) (b : VCode) (s : State) : Out :=
  s.issue (.ncmp conj cond kd a b) fun s => s.compareInt conj kd a b fun x y => condInt cond x.toNat y.toNat

/-- FCMP: f32 compare into a predicate (R272). -/
def execFcmp (conj : Bool) (cond : BitVec 3) (kd : KCode) (a : VCode) (b : VCode) (s : State) : Out :=
  s.issue (.fcmp conj cond kd a b) fun s => s.compareFp (.fcmp conj cond kd a b) conj kd
    fun i => f32.compare s.sh.fmode cond (laneOf (s.sh.rd.src a) i).toNat (laneOf (s.sh.rd.src b) i).toNat

/-- DCMP: f64 compare into a predicate (R272). -/
def execDcmp (conj : Bool) (cond : BitVec 3) (kd : KCode) (a : VCode) (b : VCode) (s : State) : Out :=
  s.issue (.dcmp conj cond kd a b) fun s => s.compareFp (.dcmp conj cond kd a b) conj kd
    fun i => f64.compare s.sh.fmode cond (s.sh.rd.src64 a i).toNat (s.sh.rd.src64 b i).toNat

end Sys2Proof.Machine
end

