-- ==== Sys2Proof/Machine/Convert.lean ====
section
/-!
DEFINITION. Conversions, packing, residue arithmetic and special functions (R302-R317).
-/

namespace Sys2Proof.Machine

open Sys2Proof

/-- The float format of a CVT code (R303). -/
def cvtFmt (c : BitVec 3) : Fmt := match c.toNat with | 3 => f32 | 4 => f16 | 5 => bf16 | _ => f64
/-- The code is a float format. -/
def cvtFloat (c : BitVec 3) : Bool := 3 ≤ c.toNat
/-- Bounds of an integer format (R304). -/
def cvtBounds (c : BitVec 3) : Int × Int :=
  match c.toNat with | 0 => (-2147483648, 2147483647) | 1 => (0, 4294967295) | _ => (-(2 ^ 63), 2 ^ 63 - 1)

/-- One lane of CVT: the source's bits to the destination's (R304). -/
def cvtLane (src dst : BitVec 3) (m : FMode) (x : DWord) : FRes :=
  let raw := if src = 4 || src = 5 then x.toNat % 65536 else if src = 3 then x.toNat % 2 ^ 32 else x.toNat
  if !cvtFloat src then
    convIF (cvtFmt dst) m
      (if src = 0 then (x.setWidth 32 : Word).toInt else if src = 1 then ((x.toNat % 2 ^ 32 : Nat) : Int) else x.toInt)
  else if cvtFloat dst then convFF (cvtFmt src) (cvtFmt dst) m raw
  else
    let b := cvtBounds dst
    let r := convFI (cvtFmt src) m b.1 b.2 raw
    ⟨(BitVec.ofInt (if dst = 2 then 64 else 32) r.1).toNat, r.2⟩

/-- CVT and CVTX (R304). -/
def State.convert (s : State) (i : Instr) (d a : VCode) (src dst : BitVec 3) (m : FMode) : State :=
  let f := fun (l : Nat) => cvtLane src dst m
    (if cvtShape src = 2 then s.sh.rd.src64 a l else (laneOf (s.sh.rd.src a) l).setWidth 64)
  if cvtShape dst = 2 then s.fpLanes64 i d f else s.fpLanes i d f

/-- A channel-wise operation on ra32 words (R309). -/
def raMap (x y : Word) (f : Int → Int → Int) : Word :=
  let p := raChannels x.toNat
  let q := raChannels y.toNat
  BitVec.ofNat 32 (raPack (f p.1 q.1 % 1023).toNat (f p.2.1 q.2.1 % 1024).toNat (f p.2.2 q.2.2 % 1025).toNat)

/-- An ra32 word times a signed integer (R309). -/
def raScale (x y : Word) : Word :=
  let p := raChannels x.toNat
  let b := y.toInt
  BitVec.ofNat 32 (raPack ((p.1 : Int) * (b % 1023) % 1023).toNat ((p.2.1 : Int) * (b % 1024) % 1024).toNat
    ((p.2.2 : Int) * (b % 1025) % 1025).toNat)

/-- An operation on the two 16-bit elements of a register (R312). -/
def perHalf (x y : Word) (f : BitVec 16 → BitVec 16 → BitVec 16) : Word :=
  f (x.extractLsb' 16 16) (y.extractLsb' 16 16) ++ f (x.extractLsb' 0 16) (y.extractLsb' 0 16)

/-- Channel-wise sum of re16 elements (R312). -/
def reSum (x y : BitVec 16) : BitVec 16 :=
  let p := reChannels x.toNat
  let q := reChannels y.toNat
  BitVec.ofNat 16 (rePack ((p.1 + q.1) % 31) ((p.2.1 + q.2.1) % 32) ((p.2.2 + q.2.2) % 33))

/-- CVT: convert in the captured rounding mode (R304). -/
def execCvt (d : VCode) (a : VCode) (src : BitVec 3) (dst : BitVec 3) (s : State) : Out :=
  s.issue (.cvt d a src dst) fun s => s.convert (.cvt d a src dst) d a src dst s.sh.fmode

/-- CVTX: convert in the rounding mode of its EXT (R304). -/
def execCvtx (d : VCode) (a : VCode) (src : BitVec 3) (dst : BitVec 3) (rm : BitVec 2) (s : State) : Out :=
  s.issue (.cvtx d a src dst rm) fun s => s.convert (.cvtx d a src dst rm) d a src dst { s.sh.fmode with rm := rm }

/-- PK2: the low halves of a and b (R307). -/
def execPk2 (d : VCode) (a : VCode) (b : VCode) (s : State) : Out :=
  s.issue (.pk2 d a b) fun s => s.vec d a b fun x y _ => y.extractLsb' 0 16 ++ x.extractLsb' 0 16

/-- HI16: the high half of a (R307). -/
def execHi16 (d : VCode) (a : VCode) (s : State) : Out :=
  s.issue (.hi16 d a) fun s => s.vec1 d a fun x => 0#16 ++ x.extractLsb' 16 16

/-- RADD: channel-wise sum (R309). -/
def execRadd (d : VCode) (a : VCode) (b : VCode) (s : State) : Out :=
  s.issue (.radd d a b) fun s => s.vec d a b fun x y _ => raMap x y (· + ·)

/-- RSUB: channel-wise difference (R309). -/
def execRsub (d : VCode) (a : VCode) (b : VCode) (s : State) : Out :=
  s.issue (.rsub d a b) fun s => s.vec d a b fun x y _ => raMap x y (· - ·)

/-- RFROM: ra32 encoding of a signed integer (R309). -/
def execRfrom (d : VCode) (a : VCode) (s : State) : Out :=
  s.issue (.rfrom d a) fun s => s.vec1 d a fun x => BitVec.ofNat 32 (raEncode x.toInt)

/-- RFIX: signed value of an ra32 word (R309, R110). -/
def execRfix (d : VCode) (a : VCode) (s : State) : Out :=
  s.issue (.rfix d a) fun s => s.vec1 d a fun x => BitVec.ofInt 32 (raValue x.toNat)

/-- RSCL: channels times a signed integer (R309). -/
def execRscl (d : VCode) (a : VCode) (b : VCode) (s : State) : Out :=
  s.issue (.rscl d a b) fun s => s.vec d a b fun x y _ => raScale x y

/-- READD: channel-wise sum per element (R312). -/
def execReadd (d : VCode) (a : VCode) (b : VCode) (s : State) : Out :=
  s.issue (.readd d a b) fun s => s.vec d a b fun x y _ => perHalf x y reSum

/-- REFROM: re16 encoding per element (R312). -/
def execRefrom (d : VCode) (a : VCode) (s : State) : Out :=
  s.issue (.refrom d a) fun s => s.vec1 d a fun x => perHalf x x fun h _ => BitVec.ofNat 16 (reEncode h.toInt)

/-- REFIX: signed value per element (R312, R110). -/
def execRefix (d : VCode) (a : VCode) (s : State) : Out :=
  s.issue (.refix d a) fun s => s.vec1 d a fun x => perHalf x x fun h _ => BitVec.ofInt 16 (reValue h.toNat)

/-- RCP: round(1/a) (R314-R317). -/
def execRcp (d : VCode) (a : VCode) (s : State) : Out :=
  s.issue (.rcp d a) fun s => s.fp32 (.rcp d a) d a a fun m x _ _ => rcpFn m x

/-- RSQ: 1/√a (R314-R317; LOG 8). -/
def execRsq (d : VCode) (a : VCode) (s : State) : Out :=
  s.issue (.rsq d a) fun s => s.fp32 (.rsq d a) d a a fun m x _ _ => approxFn .rsq m x

/-- SQRT: round(√a) (R314-R317). -/
def execSqrt (d : VCode) (a : VCode) (s : State) : Out :=
  s.issue (.sqrt d a) fun s => s.fp32 (.sqrt d a) d a a fun m x _ _ => sqrtFn m x

/-- EXP2: 2^a (R314-R317; LOG 8). -/
def execExp2 (d : VCode) (a : VCode) (s : State) : Out :=
  s.issue (.exp2 d a) fun s => s.fp32 (.exp2 d a) d a a fun m x _ _ => approxFn .exp2 m x

/-- LOG2: base-2 logarithm (R314-R317; LOG 8). -/
def execLog2 (d : VCode) (a : VCode) (s : State) : Out :=
  s.issue (.log2 d a) fun s => s.fp32 (.log2 d a) d a a fun m x _ _ => approxFn .log2 m x

/-- SIN: sine (R314-R317; LOG 8). -/
def execSin (d : VCode) (a : VCode) (s : State) : Out :=
  s.issue (.sin d a) fun s => s.fp32 (.sin d a) d a a fun m x _ _ => approxFn .sin m x

/-- COS: cosine (R314-R317; LOG 8). -/
def execCos (d : VCode) (a : VCode) (s : State) : Out :=
  s.issue (.cos d a) fun s => s.fp32 (.cos d a) d a a fun m x _ _ => approxFn .cos m x

/-- TANH: hyperbolic tangent (R314-R317; LOG 8). -/
def execTanh (d : VCode) (a : VCode) (s : State) : Out :=
  s.issue (.tanh d a) fun s => s.fp32 (.tanh d a) d a a fun m x _ _ => approxFn .tanh m x

end Sys2Proof.Machine
end

