-- ==== Sys2Proof/Machine/Copy.lean ====
section
/-!
DEFINITION. The copy engine: requests and batches (R148-R156, R167-R172), their events and errors (R152, R159,
R162-R166), rings (R157-R159, R176-R178), publishing (R160, R161, R179-R181).
-/

namespace Sys2Proof.Machine

open Sys2Proof

/-- Space of a route's source (R148). -/
def routeSrc (r : BitVec 3) : Space :=
  match r.toNat with | 0 | 6 => .dev | 2 => .host | 4 => .peer | 7 => .clus | _ => .spad
/-- Space of a route's destination (R148). -/
def routeDst (r : BitVec 3) : Space :=
  match r.toNat with | 1 | 7 => .dev | 3 => .host | 5 => .peer | 6 => .clus | _ => .spad
/-- Bytes of a request (R149). -/
def copySize (z : BitVec 2) : Nat := match z.toNat with | 0 => 4 | 1 => 8 | 2 => 16 | _ => 64

/-! ### CPY -/

/-- Resolve an address where it is scratchpad; keep it otherwise. -/
def State.copyAddr (s : State) (sp : Space) (a : Nat) : Nat :=
  match s.spadGroup sp a with
  | some g => if sp = .spad || sp = .clus then spadKey g.core (g.spadBase + spadOff sp a) else a
  | none => if sp = .host then hostKey (s.fnOf s.tag) a else a

/-- Core and offset of a scratchpad key. -/
def keyCore (k : Nat) : Nat × Nat := ((k - 4 * spaceSize) / 2 ^ 20, (k - 4 * spaceSize) % 2 ^ 20)

/-- Scoreboard entries of the CPY with a handle, one for each core whose bytes it names (R193). -/
def copySpans (uid sid : Nat) (kind : SbKind) (size : Nat) (keys : List Nat) : List SbEntry :=
  let at_ := keys.map keyCore
  ((at_.map Prod.fst).dedup).map fun c =>
    let offs := (at_.filter (·.1 = c)).map Prod.snd
    let lo := offs.foldl min (offs.headD 0)
    let hi := offs.foldl max 0
    { core := c, lo := lo / 64 * 64, hi := (hi + size + 63) / 64 * 64, kind := kind, loop := false, sheaf := uid
      owner := sid }

/-- A core's scoreboard has too few free entries for these (R195). -/
def State.scoreboardFull (s : State) (es : List SbEntry) : Bool :=
  es.any fun e => Config.scoreboard < (s.scoreboard.filter (·.core = e.core)).length + (es.filter (·.core = e.core)).length

/-- CPY (R148-R150, R168): one request per active lane. -/
def execCpy (la : BitVec 4) (route : BitVec 3) (size : BitVec 2) (a b : VCode) (s : State) : Out :=
  s.issueWait (.cpy la route size a b) fun s =>
    let i := Instr.cpy la route size a b
    let n := copySize size
    let ls := lanesOf s.sh.em
    let src := fun l => s.laneAddr (routeSrc route) a 0 l
    let dst := fun l => s.laneAddr (routeDst route) b 0 l
    let far := ls.filter fun l => !s.inRange (routeSrc route) (l, src l) || !s.inRange (routeDst route) (l, dst l)
    let odd := ls.filter fun l => spadOff (routeSrc route) (src l) % n ≠ 0 || spadOff (routeDst route) (dst l) % n ≠ 0
    let reqs := ls.map fun l =>
      { route := route, size := n, src := s.copyAddr (routeSrc route) (src l), dst := s.copyAddr (routeDst route) (dst l) : CopyReq }
    let ringHit := reqs.any fun r => s.touchesRing r.src n || s.touchesRing r.dst n
    -- a batch that an error has stopped transfers nothing more (R162)
    let work := if s.sh.openProg.status = 0 then reqs else []
    let spans := copySpans s.sh.uid s.fresh (if routeOut route then .read else .write) n
      (work.map fun r => if routeOut route then r.src else r.dst)
    if far ≠ [] then s.unhold.trapWord i .range (some (lanesMask far))
    else if odd ≠ [] then s.unhold.trapWord i .align (some (lanesMask odd))
    else if ringHit then s.unhold.trapWord i .ringstate none
    else if s.scoreboardFull spans then s.stall i none
    else
      let t := s.unhold.upd fun h => { h with
        openCpys := h.openCpys ++ [{ sid := s.fresh, reqs := transferOrder work, held := [] }]
        openOut := h.openOut || (routeOut route && reqs ≠ []) }
      State.tick { t with scoreboard := t.scoreboard ++ spans }

/-! ### Rings -/

/-- The ring a scalar names, or the trap (R158). -/
def State.ringName (s : State) (x : DWord) : Except Cause Ring :=
  match s.myGroup with
  | none => .error .range
  | some g =>
    if 2 ^ 20 ≤ x.toNat || g.spadLen ≤ x.toNat then .error .range
    else if x.toNat % 16 ≠ 0 then .error .align
    else match g.rings.find? (·.off = x.toNat) with | some r => .ok r | none => .error .ringstate

/-- Change a ring of a group. -/
def State.onRing (s : State) (gid off : Nat) (f : Ring → Ring) : State :=
  s.onGroup gid fun g => { g with rings := g.rings.map fun r => if r.off = off then f r else r }

/-- Key of a byte of the issuing sheaf's allocation, where it lies now (R452). -/
def State.myKey (s : State) (off : Nat) : Nat :=
  match s.myGroup with
  | some g => if g.saved then saveKey g.gid off else spadKey g.core (g.spadBase + off)
  | none => 0

/-- RINIT (R157, R158, R177). -/
def execRinit (a b : SCode) (n : BitVec 8) (s : State) : Out :=
  s.issue (.rinit a b n) fun s =>
    let i := Instr.rinit a b n
    let x := s.sh.rd.getS a
    let hi := x.toNat + 16 + 8 * n.toNat
    match s.myGroup with
    | none => s.trapWord i .range none
    | some g =>
      let hit := g.rings.any fun r => r.off < hi && x.toNat < r.off + 16 + 8 * r.slots
      if 2 ^ 20 ≤ x.toNat || g.spadLen ≤ x.toNat then s.trapWord i .range none
      else if x.toNat % 16 ≠ 0 then s.trapWord i .align none
      else if g.spadLen < hi then s.trapWord i .range none
      else if hit || Config.rings ≤ g.rings.length then s.trapWord i .ringstate none
      else
        let r : Ring := { off := x.toNat, slots := n.toNat, rd := 0, wr := 0, fill := 0, reserved := 0 }
        (s.onGroup g.gid fun k => { k with rings := k.rings ++ [r] }).regs fun q => q.setS b (BitVec.ofNat 64 hi)

/-- The record in slot j of a ring. -/
def State.ringSlot (s : State) (r : Ring) (j : Nat) : DWord :=
  BitVec.ofNat 64 (readLE s.mem (s.myKey (r.off + 16 + 8 * j)) 8)

/-- A piece of scratchpad that a ring operation touches. -/
def ringSite (key len : Nat) : Site := { lane := 0, off := 0, len := len, va := key, key := key, map := none }

/-- RWAIT (R177): it reads a record as a load does (R89, R90). -/
def execRwait (a b : SCode) (n : BitVec 8) (s : State) : Out :=
  s.issueWait (.rwait a b n) fun s =>
    let i := Instr.rwait a b n
    match s.ringName (s.sh.rd.getS a) with
    | .error c => s.unhold.trapWord i c none
    | .ok r =>
      if r.slots < n.toNat then s.unhold.trapWord i .ringstate none
      else s.waitFor i none (n.toNat ≤ r.fill) fun s =>
        let key := s.myKey (r.off + 16 + 8 * r.rd)
        if r.fill ≠ 0 && s.lineBad key then s.meetError i (ringSite key 8)
        else (if r.fill = 0 then s else s.correct [key]).regs fun q => q.setS b (if r.fill = 0 then 0 else s.ringSlot r r.rd)

/-- RREL (R177). -/
def execRrel (a b : SCode) (n : BitVec 8) (s : State) : Out :=
  s.issue (.rrel a b n) fun s =>
    let i := Instr.rrel a b n
    match s.ringName (s.sh.rd.getS a) with
    | .error c => s.trapWord i c none
    | .ok r =>
      if r.fill < n.toNat then s.trapWord i .ringstate none
      else
        (s.onRing s.sh.group r.off fun q => { q with rd := (q.rd + n.toNat) % q.slots, fill := q.fill - n.toNat }).regs
          fun q => q.setS b (BitVec.ofNat 64 (r.fill - n.toNat))

/-- The first 16 bytes of a retired ring (R157). -/
def Ring.image (r : Ring) : List Byte :=
  leBytes 16 (r.rd + r.wr * 2 ^ 8 + r.fill * 2 ^ 16 + r.slots * 2 ^ 24 + 2 * 2 ^ 32)

/-- RFIN (R157, R177): it writes the first bytes of the ring as a store does (R89, R90). -/
def execRfin (a b : SCode) (s : State) : Out :=
  s.issue (.rfin a b) fun s =>
    let i := Instr.rfin a b
    match s.ringName (s.sh.rd.getS a) with
    | .error c => s.trapWord i c none
    | .ok r =>
      if r.reserved ≠ 0 then s.trapWord i .ringstate none
      else if s.lineBad (s.myKey r.off) then s.meetError i (ringSite (s.myKey r.off) 16)
      else
        (((s.correct [s.myKey r.off]).onGroup s.sh.group fun g => { g with rings := g.rings.filter (·.off ≠ r.off) }).putBytes s.tag
          (s.myKey r.off) r.image).regs fun q => q.setS b (BitVec.ofNat 64 r.fill)

/-! ### Transfer -/

/-- Why the engine does not go on at a line: parked writes to wait for (R82, R83, R155), a translation fault (R74), or a status
with the line that failed (R150, R162). -/
inductive CopyStop where
  | wait
  | fault (va : Nat) (acc : Access)
  | err (status : Nat) (line : Option Nat)
  deriving DecidableEq, Repr

/-- Every source of the CPY has been read. -/
def Cpy.read (c : Cpy) : Bool := c.reqs.length ≤ c.held.length
/-- The requests left of a CPY with what was read for them. -/
def Cpy.work (c : Cpy) : List (CopyReq × Option CopyData) := c.reqs.zipIdx.map fun r => (r.1, c.held[r.2]?)
/-- Nothing is left of the CPY's requests. -/
def Cpy.done (c : Cpy) : Bool := c.reqs = []
/-- The CPY with its first n requests written. -/
def Cpy.drop (c : Cpy) (n : Nat) : Cpy := { c with reqs := c.reqs.drop n, held := c.held.drop n }
/-- The CPY stops at its n-th request (R162). -/
def Cpy.cut (c : Cpy) (n : Nat) : Cpy := { c with reqs := c.reqs.take n, held := c.held.take n }

/-- The items at the head of a list that one destination line holds (R151). -/
def headLine {α : Type} (f : α → Nat) : List α → List α
  | [] => []
  | x :: xs => x :: xs.takeWhile fun y => f y = f x

/-- Key of a request's source or destination, and its page (R150, R161). -/
def State.copyKey (s : State) (sp : Space) (acc : Access) (a : Nat) : Except CopyStop (Nat × Option Mapped) :=
  match sp with
  | .dev | .priv => match s.xlat s.tag a acc with
    | .ok m => (match s.reach s.tag acc.writes m.key with | some k => .ok (k, some m) | none => .error (.err 3 none))
    | .fault => .error (.fault a acc)
    | .prot => .error (.err 3 none)
  | .peer => match s.peerTarget acc.writes a with | some k => .ok (k, none) | none => .error (.err 3 none)
  | _ => .ok (a, none)

/-- A piece of memory as the engine touches it. -/
def copySite (va size key : Nat) (m : Option Mapped) : Site := { lane := 0, off := 0, len := size, va := va, key := key, map := m }

/-- Read a request's source (R149, R155, R162): in repeatable mode with the sheaf's own buffered stores (R166). -/
def State.copyRead (s : State) (r : CopyReq) : Except CopyStop (CopyData × Site) :=
  match s.copyKey (routeSrc r.route) .copySrc r.src with
  | .error e => .error e
  | .ok (k, m) =>
    let q := copySite r.src r.size k m
    if s.lineBad k then .error (.err 1 (some (lineOf k)))
    else if s.readWaits [q] then .error .wait
    else .ok ((s.see k r.size, s.seeDesc k), q)

/-- The descriptor a request gives its destination line (R149). -/
def CopyReq.desc (r : CopyReq) (d : CopyData) : Option (BitVec 16) :=
  if r.size ≠ 64 || r.route = 3 || r.route = 5 then none
  else if r.route = 2 || r.route = 4 then some 0 else some d.2

/-- Write a request's destination (R149): bytes, owner, and a line's descriptor; a page with WB = 1 parks the write (R83). -/
def State.copyWrite (s : State) (num : BitVec 8) (r : CopyReq) (q : Site) (d : CopyData) : State :=
  let whole := r.size = 64
  match s.parksAt q with
  | some (tag, m, va) =>
    let park := fun (s : State) (op : ParkedOp) => s.parkOp m tag s.sh.uid (some num) va false op
    let t := park s (.bytes va d.1 whole none)
    match r.desc d with | some x => park t (.desc va x none) | none => t
  | none =>
    let t := s.land s.tag q.key d.1 whole
    let u := match r.desc d with | some x => t.putDesc s.tag q.key x | none => t
    if q.map.isSome then u.traceMine s.mem r.dst q.key d.1 else u

/-- Resolve the source data of requests: what was read before, else read now. -/
def State.copyData (s : State) : List (CopyReq × Option CopyData) → Except CopyStop (List (CopyReq × CopyData × List Site))
  | [] => .ok []
  | (r, d) :: rest =>
    let src : Except CopyStop (CopyData × List Site) := match d with
      | some x => .ok (x, [])
      | none => (s.copyRead r).map fun p => (p.1, [p.2])
    match src with
    | .error e => .error e
    | .ok x => (s.copyData rest).map fun ys => (r, x) :: ys

/-- Resolve the destinations of requests. -/
def State.copyDest (s : State) : List CopyReq → Except CopyStop (List Site)
  | [] => .ok []
  | r :: rest =>
    match s.copyKey (routeDst r.route) .copyDst r.dst with
    | .error e => .error e
    | .ok (k, m) =>
      if s.lineBad k && r.size ≠ 64 && (s.parksAt (copySite r.dst r.size k m)).isNone then .error (.err 2 (some (lineOf k)))
      else (s.copyDest rest).map fun ys => copySite r.dst r.size k m :: ys

/-- What the engine does besides moving bytes: it corrects errors, counts each line once for the batch, looks up its pages as an
access of the sheaf does, and reads through the dies' buffers (R17, R72, R80, R89). -/
def State.copyTouch (s : State) (p : CopyProg) (qs : List Site) : State × CopyProg :=
  let new := qs.filter fun q => (q.map.any Mapped.ce || q.back.isSome) && !p.touched.contains (q.va / 64)
  ((((s.correct (s.walksOf qs ++ qs.map Site.key)).countPages new).lookUpAll qs).countBuffer qs, { p with touched := p.touched ++ (new.map (·.va / 64)).dedup })

/-- A record of kind 2 for a batch that pauses (R74, R77). -/
def State.pauseNotice (s : State) (va : Nat) (acc : Access) (num : BitVec 8) : State :=
  (s.notify (s.partOf s.sh) (s.notice (BitVec.ofNat 64 va) 2 acc.code (num.setWidth 32)) true).containWalk s.tag va

/-- Entries of CPYs retire (R195). -/
def State.retireEntries (s : State) (kind : SbKind) (cs : List Cpy) : State :=
  { s with scoreboard := s.scoreboard.filter fun e =>
      !(e.sheaf = s.sh.uid && !e.loop && e.kind = kind && cs.any fun c => e.owner = c.sid) }

/-- Entries of CPYs that have read or written all retire (R195). -/
def State.retireDone (s : State) (b : Batch) : State :=
  (s.retireEntries .read (b.cpys.filter Cpy.read)).retireEntries .write (b.cpys.filter Cpy.done)

/-- The batch stops at request n of its CPY k (R162): what comes before stays in the batch, nothing from there on is written. -/
def Batch.stopAt (b : Batch) (k n status : Nat) : Batch :=
  { b with
    cpys := b.cpys.zipIdx.map fun c => if c.2 < k then c.1 else if c.2 = k then c.1.cut n else c.1.cut 0
    prog := { b.prog with status := status } }

/-- The engine cannot pass a line at request n of CPY k; none while it waits. -/
def State.copyStop (s : State) (b : Batch) (k n : Nat) : CopyStop → Option (State × Batch)
  | .wait => none
  | .fault va acc => some (s.pauseNotice va acc b.num, { b with prog := { b.prog with paused := some (va / 65536) } })
  | .err st line =>
    let c := b.stopAt k n st
    some ((match line with | some x => s.containError x | none => s).retireDone c, c)

/-- Read the sources of the next destination line of CPY k. -/
def State.readLine (s : State) (b : Batch) (k : Nat) (c : Cpy) : Option (State × Batch) :=
  let n := c.held.length
  let rs := headLine (fun (r : CopyReq) => r.dst / 64) (c.reqs.drop n)
  match s.copyData (rs.map fun r => (r, none)) with
  | .error e => s.copyStop b k n e
  | .ok xs =>
    let (t, p) := s.copyTouch b.prog (xs.flatMap fun x => x.2.2)
    let b1 := { b with prog := p, cpys := b.cpys.set k { c with held := c.held ++ xs.map fun x => x.2.1 } }
    some (t.retireDone b1, b1)

/-- Write the next destination line of CPY k (R151). -/
def State.writeLine (s : State) (b : Batch) (k : Nat) (c : Cpy) : Option (State × Batch) :=
  let ws := headLine (fun (w : CopyReq × Option CopyData) => w.1.dst / 64) c.work
  match s.copyData ws, s.copyDest (ws.map Prod.fst) with
  | .error e, _ => s.copyStop b k 0 e
  | .ok _, .error e => s.copyStop b k 0 e
  | .ok xs, .ok qs =>
    if s.parkingFull qs then none
    else
      let (s1, p) := s.copyTouch b.prog (xs.flatMap (fun x => x.2.2) ++ qs)
      let s2 := (xs.zip qs).foldl (fun t x => t.copyWrite b.num x.1.1 x.2 x.1.2.1) s1
      let b1 := { b with
        prog := { p with bytes := p.bytes + (xs.map fun x => x.1.size).foldl (· + ·) 0 }
        cpys := b.cpys.set k (c.drop xs.length) }
      some ((s2.countMine .copyLines 1).retireDone b1, b1)

/-- The CPY may not start yet: an older loop still reads where it writes (R194). -/
def State.copyBlocked (s : State) (sid : Nat) : Bool :=
  let rec go (older : List SbEntry) : List SbEntry → Bool
    | [] => false
    | e :: r =>
      (e.sheaf = s.sh.uid && !e.loop && e.kind = .write && e.owner = sid &&
        older.any fun o => o.loop && o.core = e.core && o.lo < e.hi && e.lo < o.hi) || go (older ++ [e]) r
  go [] s.scoreboard

/-- The engine's next line of a batch: sources first where the batch is outbound or in repeatable mode (R152, R166), then the
destinations in order (R151); none when it can do nothing now. `shut`: a CPYB has closed the batch; `commit`: its writes belong
to the commit in progress (R166). -/
def State.lineStep (s : State) (shut commit : Bool) (b : Batch) : Option (State × Batch) :=
  let early := b.outbound || s.repeatable
  let all := b.cpys.zipIdx
  if b.prog.paused.isSome || (s.repeatable && !shut) then none
  else match (if early then all.find? fun c => !c.1.read && !s.copyBlocked c.1.sid else none) with
    | some (c, k) => s.readLine b k c
    | none =>
      if (early && shut && !b.ev0 && b.cpys.all Cpy.read) || (s.repeatable && !commit) then none
      else match all.find? fun c => !c.1.done with
        | none => none
        | some (c, k) => if (early && !c.read) || s.copyBlocked c.sid then none else s.writeLine b k c

/-- Line after line, as far as the engine gets. -/
def State.copyRun (s : State) (shut commit : Bool) : Nat → Batch → Option (State × Batch)
  | 0, _ => none
  | n + 1, b => (s.lineStep shut commit b).map fun x => (x.1.copyRun shut commit n x.2).getD x

/-- Lines a batch has left to read or to write, at most. -/
def Batch.left (b : Batch) : Nat := 2 * (b.cpys.map fun c => c.reqs.length).foldl (· + ·) 0

/-- The open batch of a sheaf as the engine sees it (R151). -/
def Sheaf.openBatch (h : Sheaf) : Batch := Batch.of h.nextBatch 0 none h.openCpys h.openOut h.openProg 0 0 0

/-- Put a batch back into the sheaf in the issue slot. -/
def State.setBatch (s : State) (shut : Bool) (b : Batch) : State :=
  s.upd fun h => if shut then { h with batches := h.batches.map fun x => if x.num = b.num then b else x }
    else { h with openCpys := b.cpys, openProg := b.prog }

/-- The ring record of a batch (R159). -/
def Batch.record (b : Batch) (lsh : BitVec 6) (canc : Bool) : DWord :=
  b.num ++ lsh ++ BitVec.ofBool canc ++ 0#1 ++ BitVec.ofNat 8 b.prog.status ++ 0#8 ++ BitVec.ofNat 32 b.prog.bytes

/-- The final event of a batch (R152, R159, R163): ring record, batch trap, resources freed. -/
def State.finishBatch (s : State) (b : Batch) : State :=
  let h := s.sh
  let s1 := s.upd fun h => { h with batches := h.batches.filter (·.num ≠ b.num) }
  let s2 := match b.ring with
    | none => s1
    | some off =>
      match (s1.myGroup.bind fun g => g.rings.find? (·.off = off)) with
      | none => s1
      | some r =>
        (s1.putFor s.tag (s.myKey (off + 16 + 8 * r.wr)) (leBytes 8 (b.record h.lsheaf (h.life = .killed)).toNat)).onRing
          h.group off fun r => { r with wr := (r.wr + 1) % r.slots, fill := r.fill + 1, reserved := r.reserved - 1 }
  if h.life ≠ .live then s2.reap h.group
  else if b.prog.status ≠ 0 && (s.context s.tag).any (fun c => !c.ended) then
    s2.upd fun h => { h with pend := h.pend ++ [{ kind := .async, cause := .prot, pc := none, mask := h.regs.em, emMask := true
                                                  aux := b.num ++ BitVec.ofNat 8 b.prog.status ++ 0#48 }] }
  else s2

/-- An earlier batch of the sheaf is outstanding (R152). -/
def Sheaf.earlierBatch (h : Sheaf) (num : BitVec 8) : Bool := (h.batches.takeWhile (·.num ≠ num)) ≠ []

/-- The final event of a batch must wait (R83, R152): for its own parked lines; an outbound one also for the stores before its
CPYB that are parked; an empty one for the batches before it. -/
def State.finalWaits (s : State) (b : Batch) : Bool :=
  (b.cpys = [] && s.sh.earlierBatch b.num) ||
    s.parking.any fun w => w.sheaf = s.sh.uid && (w.batch = some b.num || (b.outbound && w.batch.isNone && w.at_ ≤ b.closed))

/-- A closed batch's next event completes, if it may (R152): released, then the final one, which in repeatable mode belongs to
the commit (R166) or follows it once the parked lines are performed. -/
def State.batchEvent (s : State) (commit : Bool) (b : Batch) : Option State :=
  if (b.outbound || s.repeatable) && !b.ev0 then
    if b.cpys.all Cpy.read then some (s.setBatch true { b with ev0 := true }) else none
  else if !b.cpys.all Cpy.done || s.finalWaits b ||
      (s.repeatable && !commit && s.sh.buf.contains (.batch b.num)) then none
  else some (s.finishBatch b)

/-- The engine goes on with a batch of the sheaf in the issue slot, as far as its next event; none when it can do nothing. -/
def State.copyEvent (s : State) (num : BitVec 8) (commit : Bool) : Option State :=
  match s.sh.batches.find? (·.num = num) with
  | some b =>
    (match s.copyRun true commit (b.left + 1) b with
      | some (t, c) => let u := t.setBatch true c; some ((u.batchEvent commit c).getD u)
      | none => s.batchEvent commit b)
  | none =>
    if num = s.sh.nextBatch then
      (s.copyRun false commit (s.sh.openBatch.left + 1) s.sh.openBatch).map fun x => x.1.setBatch false x.2
    else none

/-- The copy engine runs for the sheaf (R164, R418, R461): HALT has not stopped it, and its group is not saved, or a kill restarted
what it issued, or no sheaf of the saved group lives to be restored. -/
def State.copyRuns (s : State) (h : Sheaf) : Bool :=
  match s.group h.group with
  | none => true
  | some g =>
    if g.saved then h.life = .killed || !(s.sheaves.any fun x => x.group = g.gid && x.life = .live)
    else !h.coreHalt

/-- COPY_EVENT_COMPLETE: the engine brings a batch to its next event (R152). -/
def execCopyEventComplete (uid : Nat) (num : BitVec 8) (s : State) : Out :=
  .next (s.as uid fun s => if s.copyRuns s.sh then (s.copyEvent num false).getD s else s)

/-- A parked line of a batch meets an error when it is replayed (R162): the batch stops at that line with STATUS 2; what it parked
from there on is not written and not counted. `k` is where the line stood in the order of arrival. -/
def State.failParked (s : State) (w : ParkedWrite) (k key : Nat) : State :=
  let later := fun (x : ParkedWrite) => x.sheaf = w.sheaf && x.batch = w.batch
  let size := fun (x : ParkedWrite) =>
    (x.ops.map fun o => match o with | .bytes _ bs _ _ => bs.length | _ => 0).foldl (· + ·) 0
  let lost := ((w :: (s.parking.drop k).filter later).map size).foldl (· + ·) 0
  let t : State := { s with parking := s.parking.take k ++ (s.parking.drop k).filter fun x => !later x }
  let cut := fun (b : Batch) => let c := b.stopAt 0 0 2; { c with prog := { c.prog with bytes := c.prog.bytes - lost } }
  (t.as w.sheaf fun u =>
    match u.sh.batches.find? fun b => some b.num = w.batch with
    | some b => (u.retireDone (cut b)).setBatch true (cut b)
    | none => if some u.sh.nextBatch = w.batch then (u.retireDone (cut u.sh.openBatch)).setBatch false (cut u.sh.openBatch) else u)
    |>.containError key

/-- The host or a peer turns away a request in flight: the batch stops where it is, with STATUS 3 (R150, R162). -/
def State.rejectBatch (s : State) (num : BitVec 8) : State :=
  let stop := fun (shut : Bool) (b : Batch) => (s.retireDone (b.stopAt 0 0 3)).setBatch shut (b.stopAt 0 0 3)
  match s.sh.batches.find? (·.num = num) with
  | some b => stop true b
  | none => if num = s.sh.nextBatch && s.sh.openCpys ≠ [] then stop false s.sh.openBatch else s

/-! ### CPYB -/

/-- A promise: batch number and 56 bits of GTC (R153). -/
def promise (num : BitVec 8) (gtc : DWord) (delay : Nat) : DWord := num ++ BitVec.ofNat 56 (gtc.toNat + delay)

/-- Close the open batch (R171); in repeatable mode its writes stand here in program order (R166). -/
def State.closeBatch (s : State) (sd : SCode) (scope : BitVec 3) (ring : Option Nat) : State :=
  let h := s.sh
  let p0 := promise h.nextBatch s.gtc (Config.promiseDelay s.fresh)
  let p1 := if h.openOut then promise h.nextBatch s.gtc (Config.promiseDelay (s.fresh + 1)) else p0
  let s1 := s.tick.tick.upd fun h => { h with
    batches := h.batches ++ [Batch.of h.nextBatch scope ring h.openCpys h.openOut h.openProg p0 p1 s.gtc]
    openCpys := []
    openProg := CopyProg.zero
    openOut := false
    nextBatch := h.nextBatch + 1
    buf := if s.repeatable then h.buf ++ [.batch h.nextBatch] else h.buf
    regs := if sd = 0 then h.regs else (h.regs.setS sd p0).setS (sd + 1) p1 }
  match ring with
  | some off => s1.onRing h.group off fun r => { r with reserved := r.reserved + 1 }
  | none => s1

/-- CPYB unbound (R171). -/
def execCpyb (sd : SCode) (scope : BitVec 3) (s : State) : Out :=
  s.issue (.cpyb sd scope) fun s => s.closeBatch sd scope none

/-- CPYB bound to a ring: stalls while the ring is full (R158, R159, R171). -/
def execCpybRing (sd sr : SCode) (scope : BitVec 3) (s : State) : Out :=
  s.issueWait (.cpybRing sd sr scope) fun s =>
    let i := Instr.cpybRing sd sr scope
    match s.ringName (s.sh.rd.getS sr) with
    | .error c => s.unhold.trapWord i c none
    | .ok r => if r.fill + r.reserved = r.slots then s.stall i none else s.unhold.closeBatch sd scope (some r.off)

/-! ### PUB -/

/-- Swap a page's shadow and front (R69, R180). -/
def State.swapPage (s : State) (tag : BitVec 12) (va : Nat) : State :=
  match s.xlat tag va .load with
  | .ok m => if m.psel = 2 || m.psel = 3 then s.putHost m.pte [readByte s.mem m.pte ^^^ 0x40#8] else s
  | _ => s

/-- Swap every page of a region of a task, once no cache holds its old mapping (R180, R334). -/
def State.swapRegion (s : State) (tid n : Nat) : State :=
  match s.task tid with
  | none => s
  | some t =>
    match t.regions[n]? with
    | none => s
    | some r => (List.range (r.size / 65536)).foldl (fun u j => u.swapPage t.tag (r.base + 65536 * j)) (s.dropTlb t.tag r.base r.size)

/-- PUB (R180): a wait for the store batches closed before it and for parked writes, then the swap. -/
def execPub (n : BitVec 9) (scope : BitVec 3) (s : State) : Out :=
  s.issueWait (.pub n scope) fun s =>
    let i := Instr.pub n scope
    let count := ((s.taskOf s.sh).map fun t => t.regions.length).getD 0
    let ready := !(s.sh.batches.any (·.outbound)) && !s.parkedMine
    if count ≤ n.toNat then s.unhold.trapWord i .range none
    else if s.repeatable then
      if s.sh.wait.isNone then (s.upd fun h => { h with defer := h.defer ++ [.pub n.toNat] }).hold i none
      else s.unhold
    else s.waitFor i none ready fun s => s.swapRegion s.sh.task n.toNat

end Sys2Proof.Machine
end

