-- ==== Sys2Proof/Machine/Matrix.lean ====
section
/-!
DEFINITION. The matrix words (R293-R299) and the steps of a loop in flight (R285-R289).
-/

namespace Sys2Proof.Machine

open Sys2Proof

/-- MCFG (R275, R276, R293). -/
def execMcfg (a : SCode) (s : State) : Out :=
  s.issue (.mcfg a) fun s =>
    let c := s.sh.rd.getS a
    if cfgOk c then s.upd fun h => { h with mcfg := c } else s.trapWord (.mcfg a) .range none

/-- An operand descriptor as MLOOP checks it (R277, R278): RANGE, then ALIGN, else the scoreboard entry. -/
def State.opSpan (s : State) (d0 d1 : DWord) (n d : Nat) : Except Cause SbEntry :=
  let base := (d0.extractLsb' 0 23).toNat
  let pitch := (d0.extractLsb' 32 16).toNat
  let tp := (d1.extractLsb' 0 24).toNat
  let span := (n - 1) * tp + 31 * pitch + 64
  if d0.extractLsb' 48 16 ≠ 0 || d0.extractLsb' 24 8 ≠ 0 || d1.extractLsb' 48 16 ≠ 0 then .error .range
  else if d0.getLsbD 23 && !s.lrec.clusterDomain then .error .range
  else
    match s.opBase s.sh d0 with
    | none => .error .range
    | some (key, left) =>
      if left < span then .error .range
      else if base % 64 ≠ 0 || pitch % 64 ≠ 0 || tp % 64 ≠ 0 then .error .align
      else
        let (c, off) := keyCore key
        .ok { core := c, lo := off, hi := off + span, kind := .read, loop := true, sheaf := s.sh.uid, owner := d }

/-- The first failing trap of two operands: RANGE before ALIGN (R295). -/
def firstOf (xs : List (Except Cause SbEntry)) : Option Cause :=
  let es := xs.filterMap fun x => match x with | .error c => some c | .ok _ => none
  if es.contains .range then some .range else es.head?

/-- Loops queued at the core's matrix unit (R288): those of its resident sheaves. -/
def State.coreLoops (s : State) : Nat :=
  ((s.sheaves.filter fun h => !h.saved && ((s.group h.group).map Group.core).getD 512 = s.core).map fun h => h.loops.length).foldl
    (· + ·) 0

/-- The loop record a new loop takes (R291): one that no loop in flight has, and rather one whose window is over (R451). -/
def Sheaf.freeRecord (h : Sheaf) : Nat :=
  let free := [0, 1].filter fun k => h.loops.all (·.slot ≠ k)
  ((free.find? fun k => !h.windows.any fun w => w.rem ≠ 0 && w.acc.any (·.2 = k)).orElse fun _ => free.head?).getD 0

/-- MLOOP (R277-R279, R288-R290, R294, R295): captures everything, registers its spans; the unit runs on. -/
def execMloop (la : BitVec 4) (d : VCode) (sa sb : SCode) (s : State) : Out :=
  s.issueWait (.mloop la d sa sb) fun s =>
    let i := Instr.mloop la d sa sb
    let r := s.sh.rd
    let c := s.sh.mcfg
    let n := loopSteps r c sa sb
    let l : Loop :=
      { cfg := c, a0 := r.getS sa, a1 := r.getS (sa + 1), b0 := r.getS sb, b1 := r.getS (sb + 1)
        mode := r.mode.setWidth 13, word := s.sh.latch.word, pc := s.sh.latch.addr, slot := s.sh.freeRecord, d := d.toNat, steps := n, nextK := 0, exc := 0
        aGroup := ((s.opGroup s.sh (r.getS sa)).map Group.gid).getD 0, bGroup := ((s.opGroup s.sh (r.getS sb)).map Group.gid).getD 0
        lanes := List.replicate 5 0, cvt := [] }
    let ops := (if cfgASrc c then [] else [s.opSpan l.a0 l.a1 n l.d]) ++
      (if cfgBSrc c then [] else [s.opSpan l.b0 l.b1 n l.d])
    match firstOf ops with
    | some e => s.unhold.trapWord i e none
    | none =>
      let spans := ops.filterMap fun x => match x with | .ok e => some e | .error _ => none
      if s.scoreboardFull spans || Config.coreLoops ≤ s.coreLoops then s.stall i none
      else
        let t := s.unhold.upd fun h => { h with loops := h.loops ++ [l] }
        ({ t with scoreboard := t.scoreboard ++ spans }).openWindow la l.regs (some (l.d, l.slot))

/-- MCVT (R289, R296, R297): attached to a loop in flight on its accumulator, else at once. -/
def execMcvt (d : VCode) (s : State) : Out :=
  s.issue (.mcvt d) fun s =>
    let c := s.sh.mcfg
    let m : BitVec 13 := s.sh.rd.mode.setWidth 13
    let w := s.sh.latch.word
    let sl := s.sh.latch.slot
    if s.sh.loops.any (·.d = d.toNat) then
      s.upd fun h => { h with loops := h.loops.map fun l => if l.d = d.toNat then { l with cvt := l.cvt ++ [(w, sl, c, m)] } else l }
    else s.convertAcc c m d.toNat w sl

/-- MZERO (R283, R298): the identity in every lane; a latch tagged vD is cleared, and the order of use stays. -/
def execMzero (d : VCode) (s : State) : Out :=
  s.issue (.mzero d) fun s =>
    let c := s.sh.mcfg
    let row := rowOf fun _ => accIdentity c
    s.upd fun h => { h with
      regs := (List.range (accSize c)).foldl (fun r j => r.put (d.toNat + j) row) h.regs
      latches := Vector.ofFn fun i : Fin 2 => if h.latches[i].valid && h.latches[i].vd = d.toNat then { h.latches[i] with valid := false, vd := 0 } else h.latches[i] }

/-- MWAIT (R299). -/
def execMwait (d : VCode) (s : State) : Out :=
  s.issueWait (.mwait d) fun s =>
    s.waitFor (.mwait d) none (if d = 108 then s.sh.loops = [] else !(s.sh.loops.any (·.d = d.toNat))) id

/-- The sheaf's loops may run: it is live, not saved and its core not halted (R292, R418, R461). -/
def Sheaf.unitRuns (h : Sheaf) : Bool := h.life = .live && !h.saved && !h.coreHalt

/-- MATRIX_KSTEP: the unit checks and applies the next K-step of loop k (R285, R286, R288). -/
def execMatrixKstep (uid k : Nat) (s : State) : Out :=
  .next (s.as uid fun s =>
    match s.sh.loops[k]? with
    | none => s
    | some l => if s.sh.unitRuns && l.nextK < l.steps && !s.loopBlocked s.sh.uid l.d
        then s.countedStep k else s)

/-- MLOOP_END: a loop whose K-steps are done leaves the unit (R287, R289). -/
def execMloopEnd (uid k : Nat) (s : State) : Out :=
  .next (s.as uid fun s =>
    match s.sh.loops[k]? with
    | none => s
    | some l => if s.sh.unitRuns && l.steps ≤ l.nextK then s.endLoop k else s)

end Sys2Proof.Machine
end

