-- ==== Sys2Proof/Machine/Memory.lean ====
section
/-!
DEFINITION. Loads, stores and atomics of the six spaces (R139-R147) and the step-qualified load (R128).
-/

namespace Sys2Proof.Machine

open Sys2Proof

/-- The step a STEPSEL names (R128, R413): possibly negative. -/
def State.stepSel (s : State) (sel : BitVec 2) : Int :=
  let t : Int := (s.myGroup.map Group.step).getD 0
  match sel.toNat with
  | 0 => t
  | 1 => t - 1
  | 2 => t - 2
  | _ => s.sh.tsc[0].toInt

/-- A lane of a step-qualified load: out of range, or the slot it names and its piece (R128). -/
structure StepLane where
  lane : Nat
  far : Bool
  ready : Bool
  slot : Nat × Nat × Nat
  site : Site

/-- Resolve a lane of a step-qualified load (R128, R190). -/
def State.stepLane (s : State) (tb n : Nat) (t : Int) (p : Nat × Nat) : StepLane :=
  let no : StepLane := { lane := p.1, far := true, ready := false, slot := (0, 0, 0)
                         site := { lane := p.1, off := 0, len := n, va := p.2, key := 0, map := none } }
  match s.myGroup with
  | none => no
  | some me =>
    if !s.paced s.sh || 2 ^ 23 ≤ p.2 || t < 0 || 2 ^ 48 ≤ t then no
    else
      match (s.mates me).find? fun k => k.core = me.core / 8 * 8 + bits p.2 22 20 && !k.saved with
      | none => no
      | some g =>
        match g.tiles[tb]? with
        | none => no
        | some b =>
          let k := t.toNat % b.count
          match b.slots[k]? with
          | none => no
          | some sl =>
            let off := p.2 % 2 ^ 20
            let far := b.slotBytes < off + n || t < (g.step : Int) - b.count + 1 || t.toNat < sl.step
            { lane := p.1, far := far, ready := sl.full && sl.step = t.toNat, slot := (g.gid, tb, k)
              site := { lane := p.1, off := 0, len := n, va := p.2
                        key := spadKey g.core (g.spadBase + b.base + k * b.slotBytes + off), map := none } }

/-- LDC with M = 1: reads a neighbour's tile-buffer slot once it is full for the step (R128, R407). -/
def execLdcStep (la : BitVec 4) (w : BitVec 3) (d a : VCode) (tb : BitVec 5) (sel : BitVec 2) (s : State) : Out :=
  s.issueWait (.ldcStep la w d a tb sel) fun s =>
    let i := Instr.ldcStep la w d a tb sel
    let ls := (s.laneAddrs .clus a 0).map (s.stepLane tb.toNat (widthBytes w) (s.stepSel sel))
    let far := (ls.filter StepLane.far).map StepLane.lane
    let odd := (ls.filter fun l => l.site.va % 2 ^ 20 % widthBytes w ≠ 0).map StepLane.lane
    if far ≠ [] then s.unhold.trapWord i .range (some (lanesMask far))
    else if odd ≠ [] then s.unhold.trapWord i .align (some (lanesMask odd))
    else if ls.any fun l => s.touchesRing l.site.key l.site.len then s.unhold.trapWord i .ringstate none
    else if ls.all StepLane.ready then
      s.loadWith i .clus w la d false 0 (ls.map StepLane.slot).dedup (.ok ⟨ls.map StepLane.site, []⟩)
    else s.hold i none

/-- LDK (R140). -/
def execLdk (la : BitVec 4) (w : BitVec 3) (d a : VCode) (e : Option MemExt) (s : State) : Out :=
  s.issueWait (.ldk la w d a e) fun s => s.load (.ldk la w d a e) .priv la w d a false e

/-- STK (R143). -/
def execStk (la : BitVec 4) (w : BitVec 3) (d a : VCode) (e : Option MemExt) (s : State) : Out :=
  s.issueWait (.stk la w d a e) fun s => s.store (.stk la w d a e) .priv w d a false e

/-- LDS (R140). -/
def execLds (la : BitVec 4) (w : BitVec 3) (d a : VCode) (e : Option MemExt) (s : State) : Out :=
  s.issueWait (.lds la w d a e) fun s => s.load (.lds la w d a e) .spad la w d a false e

/-- LDS with M = 1: the lines' descriptors (R127). -/
def execLdsDesc (la : BitVec 4) (d a : VCode) (e : Option MemExt) (s : State) : Out :=
  s.issueWait (.ldsDesc la d a e) fun s => s.load (.ldsDesc la d a e) .spad la 4 d a true e

/-- STS (R143). -/
def execSts (la : BitVec 4) (w : BitVec 3) (d a : VCode) (e : Option MemExt) (s : State) : Out :=
  s.issueWait (.sts la w d a e) fun s => s.store (.sts la w d a e) .spad w d a false e

/-- STS with M = 1: the lines' descriptors (R127). -/
def execStsDesc (la : BitVec 4) (d a : VCode) (e : Option MemExt) (s : State) : Out :=
  s.issueWait (.stsDesc la d a e) fun s => s.store (.stsDesc la d a e) .spad 4 d a true e

/-- ATS (R146). -/
def execAts (la : BitVec 4) (d a : VCode) (e : AtomExt) (s : State) : Out :=
  s.issueWait (.ats la d a e) fun s => s.atomic (.ats la d a e) .spad la d a e

/-- LDC (R140). -/
def execLdc (la : BitVec 4) (w : BitVec 3) (d a : VCode) (e : Option MemExt) (s : State) : Out :=
  s.issueWait (.ldc la w d a e) fun s => s.load (.ldc la w d a e) .clus la w d a false e

/-- STC (R143). -/
def execStc (la : BitVec 4) (w : BitVec 3) (d a : VCode) (e : Option MemExt) (s : State) : Out :=
  s.issueWait (.stc la w d a e) fun s => s.store (.stc la w d a e) .clus w d a false e

/-- ATC (R146). -/
def execAtc (la : BitVec 4) (d a : VCode) (e : AtomExt) (s : State) : Out :=
  s.issueWait (.atc la d a e) fun s => s.atomic (.atc la d a e) .clus la d a e

/-- LDG (R140). -/
def execLdg (la : BitVec 4) (w : BitVec 3) (d a : VCode) (e : Option MemExt) (s : State) : Out :=
  s.issueWait (.ldg la w d a e) fun s => s.load (.ldg la w d a e) .dev la w d a false e

/-- LDG with M = 1: the lines' descriptors (R127). -/
def execLdgDesc (la : BitVec 4) (d a : VCode) (e : Option MemExt) (s : State) : Out :=
  s.issueWait (.ldgDesc la d a e) fun s => s.load (.ldgDesc la d a e) .dev la 4 d a true e

/-- STG (R143). -/
def execStg (la : BitVec 4) (w : BitVec 3) (d a : VCode) (e : Option MemExt) (s : State) : Out :=
  s.issueWait (.stg la w d a e) fun s => s.store (.stg la w d a e) .dev w d a false e

/-- STG with M = 1: the lines' descriptors (R127). -/
def execStgDesc (la : BitVec 4) (d a : VCode) (e : Option MemExt) (s : State) : Out :=
  s.issueWait (.stgDesc la d a e) fun s => s.store (.stgDesc la d a e) .dev 4 d a true e

/-- ATG (R146). -/
def execAtg (la : BitVec 4) (d a : VCode) (e : AtomExt) (s : State) : Out :=
  s.issueWait (.atg la d a e) fun s => s.atomic (.atg la d a e) .dev la d a e

/-- LDN (R140); M orders or makes coherent, which one memory always is (R126, LOG 6). -/
def execLdn (la : BitVec 4) (w : BitVec 3) (d a : VCode) (m : Bool) (e : Option MemExt) (s : State) : Out :=
  s.issueWait (.ldn la w d a m e) fun s => s.load (.ldn la w d a m e) .peer la w d a false e

/-- STN (R143); M orders or makes coherent, which one memory always is (R126, LOG 6). -/
def execStn (la : BitVec 4) (w : BitVec 3) (d a : VCode) (m : Bool) (e : Option MemExt) (s : State) : Out :=
  s.issueWait (.stn la w d a m e) fun s => s.store (.stn la w d a m e) .peer w d a false e

/-- ATN (R146); M orders or makes coherent, which one memory always is (R126, LOG 6). -/
def execAtn (la : BitVec 4) (d a : VCode) (m : Bool) (e : AtomExt) (s : State) : Out :=
  s.issueWait (.atn la d a m e) fun s => s.atomic (.atn la d a m e) .peer la d a e

/-- LDH (R140); M orders or makes coherent, which one memory always is (R126, LOG 6). -/
def execLdh (la : BitVec 4) (w : BitVec 3) (d a : VCode) (m : Bool) (e : Option MemExt) (s : State) : Out :=
  s.issueWait (.ldh la w d a m e) fun s => s.load (.ldh la w d a m e) .host la w d a false e

/-- STH (R143); M orders or makes coherent, which one memory always is (R126, LOG 6). -/
def execSth (la : BitVec 4) (w : BitVec 3) (d a : VCode) (m : Bool) (e : Option MemExt) (s : State) : Out :=
  s.issueWait (.sth la w d a m e) fun s => s.store (.sth la w d a m e) .host w d a false e

/-- ATH (R146); M orders or makes coherent, which one memory always is (R126, LOG 6). -/
def execAth (la : BitVec 4) (d a : VCode) (m : Bool) (e : AtomExt) (s : State) : Out :=
  s.issueWait (.ath la d a m e) fun s => s.atomic (.ath la d a m e) .host la d a e

end Sys2Proof.Machine
end

