-- ==== Sys2Proof/Machine/Sync.lean ====
section
/-!
DEFINITION. Fences (R338-R341), the end of a quantum (R473), named barriers (R382-R389), paced steps and tile-buffer
slots (R402-R413), the watchdogs (R386, R387, R449).
-/

namespace Sys2Proof.Machine

open Sys2Proof

/-! ### Fences and QEND -/

/-- Every earlier load and atomic has its value (R339). -/
def State.valuesFixed (s : State) : Bool := s.sh.loads.all (·.waits = 0) && !s.atomParked

/-- Every earlier access has been performed, and so accepted where it went (R120, R339). -/
def State.allAccepted (s : State) : State := s.upd fun h => { h with far := [] }

/-- FENCE (R339): memory performs at once, but for parked writes, for which every FENCE waits (R83; LOG 6). -/
def execFence (kind : BitVec 2) (scope : BitVec 3) (s : State) : Out :=
  s.issueWait (.fence kind scope) fun s =>
    s.waitFor (.fence kind scope) none (s.valuesFixed && !s.parkedMine) fun s => if kind = 1 then s else s.allAccepted

/-- FENCESC (R341): FENCE.full; the one memory is already in the order S (LOG 6). -/
def execFencesc (scope : BitVec 3) (s : State) : Out :=
  s.issueWait (.fencesc scope) fun s =>
    s.waitFor (.fencesc scope) none (s.valuesFixed && !s.parkedMine) State.allAccepted

/-- QEND (R473): ends the quantum of a repeatable sheaf until its round has committed. -/
def execQend (s : State) : Out := s.issueWait .qend fun s => s.waitFor .qend none true id

/-! ### Named barriers -/

/-- A barrier of the sheaf's group; none when BID is at or above the count (R382). -/
def State.barrier (s : State) (b : BitVec 9) : Option Barrier := s.myGroup.bind fun g => g.barriers[b.toNat]?

/-- The sheaf may arrive (R389). -/
def Barrier.admits (x : Barrier) (l : BitVec 6) : Bool := x.live && !x.set.getLsbD l.toNat && x.exp ≠ 0

/-- The sheaf arrives at a barrier; a completed phase is counted (R384, R491). -/
def State.arriveAt (s : State) (b : BitVec 9) : State :=
  match s.barrier b with
  | none => s
  | some x =>
    let t := s.onBarrier s.sh.group b.toNat (·.arrive s.sh.lsheaf.toNat)
    if (x.arrive s.sh.lsheaf.toNat).phase ≠ x.phase then t.countMine .phases 1 else t

/-- BARINIT (R389): BID, then the count, then the precondition. -/
def execBarinit (b : BitVec 9) (a : SCode) (s : State) : Out :=
  s.issue (.barinit b a) fun s =>
    let n := (s.sh.rd.getS a).toNat
    match s.barrier b with
    | none => s.trapWord (.barinit b a) .range none
    | some x =>
      if n = 0 || 32 < n then s.trapWord (.barinit b a) .range none
      else if x.live then s.trapWord (.barinit b a) .barstate none
      else s.onBarrier s.sh.group b.toNat fun _ => { Barrier.zero with live := true, exp := n }

/-- BARARV (R384, R385, R389). -/
def execBararv (b : BitVec 9) (d : SCode) (scope : BitVec 3) (s : State) : Out :=
  s.issueWait (.bararv b d scope) fun s =>
    let i := Instr.bararv b d scope
    if s.repeatable && s.sh.wait.isSome then s.unhold
    else
      match s.barrier b with
      | none => s.unhold.trapWord i .range none
      | some x =>
        if !x.admits s.sh.lsheaf then s.unhold.trapWord i .barstate none
        else if s.repeatable then
          (s.upd fun h => { h with defer := h.defer ++ [.arrive b.toNat (some d)] }).hold i none
        else if s.parkedMine then s.stall i none
        else (s.unhold.arriveAt b).regs fun r => r.setS d (x.phase.setWidth 64)

/-- BARWT (R389): a stale token returns at once. -/
def execBarwt (b : BitVec 9) (a : SCode) (scope : BitVec 3) (s : State) : Out :=
  s.issueWait (.barwt b a scope) fun s =>
    let i := Instr.barwt b a scope
    match s.barrier b with
    | none => s.unhold.trapWord i .range none
    | some x =>
      if s.sh.wait.isNone && !x.live then s.trapWord i .barstate none
      else s.waitFor i none (x.phase ≠ (s.sh.rd.getS a).setWidth 16) id

/-- BARSYN (R385, R389): arrive, then wait for the phase to move on. The token is the phase at the arrival. -/
def execBarsyn (b : BitVec 9) (scope : BitVec 3) (s : State) : Out :=
  s.issueWait (.barsyn b scope) fun s =>
    let i := Instr.barsyn b scope
    match s.barrier b with
    | none => s.unhold.trapWord i .range none
    | some x =>
      match s.token with
      | some p => if x.phase.toNat ≠ p then s.unhold else s.hold i (some p)
      | none =>
        if s.repeatable && s.sh.wait.isSome then s.hold i none
        else if !x.admits s.sh.lsheaf then s.unhold.trapWord i .barstate none
        else if s.repeatable then (s.upd fun h => { h with defer := h.defer ++ [.arrive b.toNat none] }).hold i none
        else if s.parkedMine then s.stall i none
        else
          let t := s.arriveAt b
          if (t.barrier b).all fun y => y.phase ≠ x.phase then t.unhold else t.hold i (some x.phase.toNat)

/-- BARFIN (R389). -/
def execBarfin (b : BitVec 9) (s : State) : Out :=
  s.issue (.barfin b) fun s =>
    match s.barrier b with
    | none => s.trapWord (.barfin b) .range none
    | some x =>
      if !x.live then s.trapWord (.barfin b) .barstate none
      else (s.onBarrier s.sh.group b.toNat fun y => { y.complete with live := false }).countMine .phases 1

/-- BARST (R389). -/
def execBarst (b : BitVec 9) (d : SCode) (s : State) : Out :=
  s.issue (.barst b d) fun s =>
    match s.barrier b with
    | none => s.trapWord (.barst b d) .range none
    | some x => s.regs fun r => r.setS d x.word

/-! ### Watchdogs -/

/-- Cycles a phase may take (R386). -/
def barrierLimit (r : LaunchRec) : Nat := if r.barTimeout = 0 then 2 ^ 26 else r.barTimeout * 1024

/-- The sheaf waits at this barrier (R387): in a BARWT, or in a BARSYN that has arrived. -/
def Sheaf.waitsAt (h : Sheaf) (bid : Nat) : Bool :=
  match h.wait with
  | some ⟨.barwt b _ _, _⟩ => b.toNat = bid
  | some ⟨.barsyn b _, some _⟩ => b.toNat = bid
  | _ => false

/-- State of a member (R387): a sheaf parked on a page is in a wait (R74). -/
def Sheaf.memberState (h : Sheaf) (bid : Nat) : Nat :=
  if h.life = .exited then 3 else if h.life = .killed then 4
  else if h.parked = [] && h.waitsAt bid then 0 else if h.parked ≠ [] || h.wait.isSome then 1 else 2

/-- A group's member j in the watchdog record (R387): its PC, state, %prio and em. -/
def State.member (s : State) (g : Group) (bid j : Nat) : List Byte :=
  let row := fun (pc st prio em : Nat) => leBytes 8 (pc + st * 2 ^ 32 + prio * 2 ^ 40) ++ leBytes 8 em
  match s.sheaves.find? fun h => h.group = g.gid && h.lsheaf.toNat = j && h.life ≠ .absent with
  | none => row 0 5 0 0
  | some h =>
    let st := h.memberState bid
    if 3 ≤ st then row 0 st 0 0 else row h.pc.toNat st h.prio.toNat h.regs.em.toNat

/-- The barrier watchdog's record (R387). -/
def State.watchdogRecord (s : State) (g : Group) (t : Task) (bid : Nat) (b : Barrier) : List Byte :=
  leBytes 8 s.gtc.toNat ++ leBytes 8 (t.tag.toNat + g.core * 2 ^ 16 + bid * 2 ^ 32) ++ leBytes 8 b.word.toNat ++
    leBytes 8 t.recVA ++ leBytes 8 (g.gi[0]).toNat ++ leBytes 24 0 ++ (List.range 32).flatMap (s.member g bid)

/-- BARRIER_WATCHDOG: a timer that has reached its limit ends the context, at the group's core (R386, R387, R448; chapter 24's
end record names it). -/
def execBarrierWatchdog (gid bid : Nat) (s : State) : Out :=
  .next (match s.group gid with
    | none => s
    | some g =>
      match s.task g.task, g.barriers[bid]? with
      | some t, some b =>
        if b.timer.all (· < barrierLimit t.lrec) then s
        else
          match s.context t.tag with
          | none => s
          | some c =>
            let s1 := if c.diag = 0 || c.wdDone then s
              else (s.putVA t.tag (c.diag + 0x40) (s.watchdogRecord g t bid b)).onContext t.tag fun c => { c with wdDone := true }
            s1.endContextAt g.core t.tag Cause.wdbar.code 0 none 0 0 0
      | _, _ => s)

/-- DEADLOCK_WATCHDOG: the counter has reached 2^24 (R449). -/
def execDeadlockWatchdog (tag : BitVec 12) (s : State) : Out :=
  .next (match s.context tag with
    | some c => if Config.deadlock ≤ c.deadlock then s.endContext tag Cause.wddead.code 0 none 0 0 0 else s
    | none => s)

/-! ### Paced groups (R402-R406) -/

/-- Paced index (R400). -/
def Group.paced (g : Group) : Nat := (g.gi[0]).toNat

/-- Level-2 extent. -/
def LaunchRec.e2 (r : LaunchRec) : Nat := ((r.levels[1]?).map Level.extent).getD 0

/-- Paced indices group p depends on (R402). -/
def LaunchRec.dependsOn (r : LaunchRec) (p : Nat) : List Nat :=
  ((r.deps.filterMap fun o =>
    let q : Int := p + o
    if o ≠ 0 && 0 ≤ q && q < r.e2 then some q.toNat else none)).dedup

/-- Every sheaf the group created has exited or been killed (R403). -/
def State.groupExited (s : State) (g : Group) : Bool :=
  (s.sheaves.any fun h => h.group = g.gid && h.life ≠ .absent) &&
    s.sheaves.all fun h => h.group ≠ g.gid || h.life ≠ .live

/-- A dependence counts as having finished step t, or still may (R404, R406): done, may, or never. -/
inductive DepState where
  | done | may | never
  deriving DecidableEq, Repr

/-- What group q's progress says of step t (R403, R404, R406). -/
def State.depState (s : State) (q : Group) (t : Nat) : DepState :=
  match q.deathStep with
  | some d => if t + 1 ≤ d then .done else .never
  | none =>
    if t + 1 ≤ q.step then .done
    else if s.groupExited q && !q.dead then (if t ≤ q.step then .done else .never)
    else .may

/-- The groups p depends on. -/
def State.dependences (s : State) (g : Group) : List Group :=
  let r := ((s.task g.task).map Task.lrec).getD LaunchRec.zero
  (s.mates g).filter fun q => (r.dependsOn g.paced).contains q.paced

/-- The groups that depend on p (R402). -/
def State.dependents (s : State) (g : Group) : List Group :=
  let r := ((s.task g.task).map Task.lrec).getD LaunchRec.zero
  (s.mates g).filter fun q => (r.dependsOn q.paced).contains g.paced

/-- Neither exited nor dead. -/
def State.groupGoes (s : State) (g : Group) : Bool := !s.groupExited g && !g.dead

/-- The advance rule (R404, R409). -/
def State.canAdvance (s : State) (g : Group) : Bool :=
  let r := ((s.task g.task).map Task.lrec).getD LaunchRec.zero
  let outs := (g.tiles.filter TileBuf.out).map TileBuf.count
  let l := outs.foldl min (outs.headD 0)
  let arrival := g.arrived ≠ 0 && s.sheaves.all fun h =>
    h.group ≠ g.gid || h.life ≠ .live || g.arrived.getLsbD h.lsheaf.toNat
  let deps := (s.dependences g).all fun q => s.depState q g.step = .done
  let followers := outs = [] || (s.dependents g).all fun q => !s.groupGoes q || g.step + 2 ≤ q.step + l
  let skew := r.skew = 0 || (s.mates g).all fun q => !s.groupGoes q || g.step + 1 ≤ q.step + r.skew
  arrival && deps && followers && skew && !((s.mates g).any Group.saved) && !g.freed

/-- The group moves to its next step (R404); its neighbours may follow. -/
def State.advance (s : State) (gid : Nat) : State :=
  (s.onGroup gid fun g => { g with step := g.step + 1, arrived := 0 }).postAdvance gid

/-- GROUP_ADVANCE (R403, R404); in repeatable mode advances belong to the commit (R410). -/
def execGroupAdvance (gid : Nat) (s : State) : Out :=
  .next (match s.group gid with
    | some g => if s.canAdvance g && !((s.task g.task).any fun t => t.lrec.flags.getLsbD 0) then s.advance gid else s
    | none => s)

/-- The death of a paced group is recorded on the cluster of its level-2 group (R406). -/
def State.recordDeath (s : State) (gid : Nat) : State :=
  { s with deaths := s.deaths.filter (· ≠ gid) }.onGroup gid fun g => { g with deathStep := some (g.deathStep.getD g.step) }

/-- DEATH_RECORDED: a cluster learns that a paced group is dead (R406); where the group has moved meanwhile, its new cluster does.
In repeatable mode a commit records deaths (R410). -/
def execDeathRecorded (cluster gid : Nat) (s : State) : Out :=
  .next (match s.group gid with
    | none => s
    | some g =>
      if !s.deaths.contains gid || (s.task g.task).any (fun t => t.lrec.flags.getLsbD 0) then s
      else if g.core / 8 = cluster then (s.recordDeath gid).postAdvance gid
      else s.post [.deathRecorded (g.core / 8) gid])

/-! ### STEPEND, TBWAIT, TBFULL, TBEMPTY -/

/-- %traux of the step words (R413). -/
def State.stepAux (s : State) (t : Int) (who : Option (Nat × Bool)) : DWord :=
  s.sh.latch.word ++ BitVec.ofInt 16 t ++ 0#5 ++ BitVec.ofNat 3 ((who.map Prod.fst).getD 0) ++ 0#7 ++
    BitVec.ofBool ((who.map Prod.snd).getD false)

/-- A trap of a step word. -/
def State.stepTrap (s : State) (c : Cause) (t : Int) (who : Option (Nat × Bool)) : State :=
  s.unhold.trapGroup c s.sh.em (s.stepAux t who)

/-- The paced step of the sheaf's group. -/
def State.myStep (s : State) : Nat := (s.myGroup.map Group.step).getD 0

/-- A dependence that can never finish step t: its paced index (R406). -/
def State.stepDead (s : State) (t : Nat) : Option Nat :=
  s.myGroup.bind fun g => ((s.dependences g).find? fun q => s.depState q t = .never).map Group.paced

/-- STEPEND (R404, R406, R410, R413). -/
def execStepend (s : State) : Out :=
  s.issueWait .stepend fun s =>
    let t := s.token.getD s.myStep
    if !s.paced s.sh then s.stepTrap .range t none
    else if s.sh.wait.isSome && t < s.myStep then s.unhold
    else
      match s.stepDead t with
      | some q =>
        (s.onGroup s.sh.group fun g => { g with arrived := g.arrived &&& ~~~(BitVec.ofNat 32 (2 ^ s.sh.lsheaf.toNat)) }).stepTrap
          .stepdead t (some (q, true))
      | none =>
        if s.token.isSome then s.hold .stepend (some t)
        else if s.repeatable then (s.upd fun h => { h with defer := h.defer ++ [.stepArrive t] }).hold .stepend (some t)
        else if s.parkedMine then s.stall .stepend none
        else
          ((s.onGroup s.sh.group fun g => { g with arrived := g.arrived ||| BitVec.ofNat 32 (2 ^ s.sh.lsheaf.toNat) }).postAdvance
            s.sh.group).hold .stepend (some t)

/-- A slot of a group's tile buffer. -/
def Group.tileSlot (g : Group) (b t : Nat) : Option TileSlot :=
  (g.tiles[b]?).bind fun x => x.slots[t % x.count]?

/-- Change a slot. -/
def State.onSlot (s : State) (gid b t : Nat) (f : TileBuf → TileSlot → TileSlot) : State :=
  s.onGroup gid fun g => { g with tiles := g.tiles.modify b fun x => { x with slots := x.slots.modify (t % x.count) (f x) } }

/-- The producer marks a slot full (R190, R402). -/
def TileSlot.mark (x : TileBuf) (sl : TileSlot) (consumers t : Nat) : TileSlot :=
  if sl.full || sl.step ≠ t % 2 ^ 48 then sl
  else if consumers = 0 then { full := false, pend := 0, step := (t + x.count) % 2 ^ 48 }
  else { full := true, pend := consumers, step := t % 2 ^ 48 }

/-- A consumer releases a slot (R190). -/
def TileSlot.release (x : TileBuf) (sl : TileSlot) : TileSlot :=
  if !sl.full || sl.pend = 0 then sl
  else if sl.pend = 1 then { full := false, pend := 0, step := (sl.step + x.count) % 2 ^ 48 }
  else { sl with pend := sl.pend - 1 }

/-- Consumers of an OUT buffer (R402). -/
def State.consumers (s : State) (g : Group) (b : Nat) : Nat :=
  if (g.tiles[b]?).any TileBuf.out then ((s.dependents g).filter s.groupGoes).length else 0

/-- TBWAIT (R408, R413). -/
def execTbwait (b : BitVec 5) (s : State) : Out :=
  s.issueWait (.tbwait b) fun s =>
    let i := Instr.tbwait b
    let t := s.token.getD s.myStep
    match s.myGroup.bind fun g => (g.tileSlot b.toNat t).map fun x => (g, x) with
    | none => s.stepTrap .range t none
    | some (g, x) =>
      if !s.paced s.sh then s.stepTrap .range t none
      else
        let ready := !x.full && x.step = t % 2 ^ 48
        match (if !ready && x.pend ≠ 0 then (s.dependents g).find? (·.deathStep.isSome) else none) with
        | some q => s.stepTrap .stepdead t (some (q.paced, false))
        | none => s.waitFor i (some t) ready id

/-- TBFULL (R407, R410, R413). -/
def execTbfull (b : BitVec 5) (s : State) : Out :=
  s.issueWait (.tbfull b) fun s =>
    let i := Instr.tbfull b
    let t := s.myStep
    match s.myGroup.bind fun g => (g.tileSlot b.toNat t).map fun x => (g, x) with
    | none => s.stepTrap .range t none
    | some (g, x) =>
      if !s.paced s.sh || x.full || x.step ≠ t % 2 ^ 48 then s.stepTrap .range t none
      else if s.repeatable then s.unhold.upd fun h => { h with defer := h.defer ++ [.tbfull b.toNat t] }
      else if s.parkedMine then s.stall i none
      else s.unhold.onSlot g.gid b.toNat t fun y z => z.mark y (s.consumers g b.toNat) t

/-- TBEMPTY (R408, R410, R412, R413). -/
def execTbempty (b : BitVec 5) (a : SCode) (sel : BitVec 2) (s : State) : Out :=
  s.issueWait (.tbempty b a sel) fun s =>
    let i := Instr.tbempty b a sel
    let x := s.sh.rd.getS a
    let t := s.stepSel sel
    let far := !s.paced s.sh || x.extractLsb' 3 61 ≠ 0 || t < 0 || 2 ^ 48 ≤ t
    match (if far then none else s.myGroup.bind fun g => (s.dependences g).find? (·.paced = x.toNat)) with
    | none => s.stepTrap .range t none
    | some q =>
      match q.tileSlot b.toNat t.toNat with
      | none => s.stepTrap .range t none
      | some sl =>
        let k := t.toNat % ((q.tiles[b.toNat]?).map TileBuf.count).getD 1
        if !sl.full || sl.step ≠ t.toNat || sl.pend = 0 then s.stepTrap .range t none
        else if s.sh.loads.any fun l => l.slots.contains (q.gid, b.toNat, k) then s.stall i none
        else if s.repeatable then s.unhold.upd fun h => { h with defer := h.defer ++ [.tbempty q.gid b.toNat t.toNat] }
        else s.unhold.onSlot q.gid b.toNat t.toNat TileSlot.release

end Sys2Proof.Machine
end

