-- ==== Sys2Proof/Machine/Place.lean ====
section
/-!
DEFINITION. Placement: the resources of a core (R377), the groups and sheaves a launch or a bin creates (R350, R351,
R392), saving a group and restoring it (R450-R454, R192, R197).
-/

namespace Sys2Proof.Machine

open Sys2Proof

/-! ### Shape of a launch (R343, R351, R371) -/

/-- Declared levels. -/
def LaunchRec.top (r : LaunchRec) : Nat := r.levels.length
/-- Extent of level n. -/
def LaunchRec.extent (r : LaunchRec) (n : Nat) : Nat := ((r.levels[n - 1]?).map Level.extent).getD 1
/-- Domain of level n. -/
def LaunchRec.domain (r : LaunchRec) (n : Nat) : Nat := ((r.levels[n - 1]?).map Level.domain).getD 6
/-- Level-1 groups in one level-n group. -/
def LaunchRec.groupsIn (r : LaunchRec) (n : Nat) : Nat :=
  ((List.range (n - 1)).map fun j => r.extent (j + 2)).foldl (· * ·) 1
/-- Level-1 groups of the launch. -/
def LaunchRec.groupCount (r : LaunchRec) : Nat := r.groupsIn r.top
/-- Sheaves of the launch (R343). -/
def LaunchRec.total (r : LaunchRec) : Nat := r.extent 1 * r.groupCount
/-- The highest level whose domain is at most `d`; level 1 always has one (R344). -/
def LaunchRec.levelWithin (r : LaunchRec) (d : Nat) : Nat :=
  (((List.range r.top).map (· + 1)).filter fun n => r.domain n ≤ d).foldl max 1
/-- The level of a placement unit: the highest with domain die or narrower (R371). -/
def LaunchRec.unitLevel (r : LaunchRec) : Nat := r.levelWithin 2
/-- Level-1 groups in a unit. -/
def LaunchRec.unitSize (r : LaunchRec) : Nat := r.groupsIn r.unitLevel
/-- Units of the launch. -/
def LaunchRec.unitCount (r : LaunchRec) : Nat := r.groupCount / r.unitSize
/-- Level-1 groups in what a Newt places whole: the highest level with domain core or cluster (R371, R377). -/
def LaunchRec.pieceSize (r : LaunchRec) : Nat := r.groupsIn (r.levelWithin 1)
/-- Level-1 groups that lie on one core together: the highest level with domain core (R377). -/
def LaunchRec.coreSize (r : LaunchRec) : Nat := r.groupsIn (r.levelWithin 0)
/-- %gi1-%gi7 of level-1 group `idx` (R351). -/
def LaunchRec.gi (r : LaunchRec) (idx : Nat) : Vector (BitVec 32) 7 :=
  Vector.ofFn fun j : Fin 7 =>
    if j.val + 1 < r.top then BitVec.ofNat 32 (idx / r.groupsIn (j.val + 1) % r.extent (j.val + 2)) else 0
/-- The index of the level-1 group with these %gi (R351). -/
def LaunchRec.index (r : LaunchRec) (g : Vector (BitVec 32) 7) : Nat :=
  ((List.range (r.top - 1)).map fun j => (g.toArray.getD j 0).toNat * r.groupsIn (j + 1)).foldl (· + ·) 0
/-- Scratchpad of a group: rounded up to 2 KiB (R183). -/
def padUp (n : Nat) : Nat := (n + 2047) / 2048 * 2048

/-! ### Room on a core (R16, R377) -/

/-- What a group takes of a core. -/
structure Need where
  len : Nat
  budget : Nat
  sheaves : Nat
  barriers : Nat
  tiles : Nat
  /-- The task of a paced group: a core holds at most one of a launch (R401). -/
  paced : Option Nat
  deriving DecidableEq, Repr

/-- What a placed or planned group holds of a core; `gid` 0 for a planned one. -/
structure Claim where
  gid : Nat
  idx : Nat
  core : Nat
  base : Nat
  need : Need
  deriving DecidableEq, Repr

/-- Needs of a level-1 group of a launch. -/
def LaunchRec.need (r : LaunchRec) : Need :=
  { len := padUp r.spad, budget := r.extent 1 * r.budget, sheaves := r.extent 1, barriers := r.barriers, tiles := r.tiles
    paced := if r.flags.getLsbD 1 then some r.owner else none }

/-- Live sheaves of a group. -/
def State.members (s : State) (gid : Nat) : List Sheaf := s.sheaves.filter fun h => h.group = gid && h.life = .live

/-- What a placed group holds: budgets of its resident sheaves only (R371). -/
def State.claimOf (s : State) (g : Group) : Claim :=
  let ms := s.members g.gid
  { gid := g.gid, idx := 0, core := g.core, base := g.spadBase
    need := { len := g.spadLen, budget := (ms.map Sheaf.budget).foldl (· + ·) 0, sheaves := ms.length
              barriers := g.barriers.length, tiles := g.tiles.length
              paced := if !g.fromBin && (s.task g.task).any fun t => t.lrec.flags.getLsbD 1 then some g.task else none } }

/-- Everything placed. -/
def State.claims (s : State) : List Claim := (s.groups.filter fun g => !g.freed && !g.saved).map s.claimOf

/-- A sum over the claims of a core. -/
def coreSum (cs : List Claim) (core : Nat) (f : Need → Nat) : Nat :=
  ((cs.filter (·.core = core)).map fun c => f c.need).foldl (· + ·) 0

/-- Free budget of a core. -/
def freeBudget (cs : List Claim) (core : Nat) : Nat := Config.budgetSum - coreSum cs core Need.budget

/-- The lowest free range of the core's scratchpad (R183, R377); the choice among free ranges is not observable. -/
def freeRange (cs : List Claim) (core len : Nat) : Option Nat :=
  if len = 0 then some 0
  else ((List.range 384).map (· * 2048)).find? fun b =>
    b + len ≤ Config.spadBytes &&
      !(cs.any fun c => c.core = core && c.need.len ≠ 0 && c.base < b + len && b < c.base + c.need.len)

/-- The core takes this group: where its range lies (R377). -/
def fitsOn (cs : List Claim) (n : Need) (core : Nat) : Option Nat :=
  if coreSum cs core Need.budget + n.budget ≤ Config.budgetSum && coreSum cs core Need.sheaves + n.sheaves ≤ Config.maxSheaves &&
      coreSum cs core Need.barriers + n.barriers ≤ Config.barriers && coreSum cs core Need.tiles + n.tiles ≤ Config.tileBuffers &&
      !(n.paced.isSome && cs.any fun c => c.core = core && c.need.paced = n.paced)
    then freeRange cs core n.len else none

/-- Some groups, by index and need, all on one core, one after another. -/
def fitAll (cs : List Claim) (core : Nat) : List (Nat × Need) → Option (List Claim)
  | [] => some []
  | i :: r =>
    match fitsOn cs i.2 core with
    | none => none
    | some b =>
      let c : Claim := { gid := 0, idx := i.1, core := core, base := b, need := i.2 }
      (fitAll (cs ++ [c]) core r).map (c :: ·)

/-- The element with the largest value, the first on ties. -/
def firstMax {α : Type} (f : α → Nat) : List α → Option α
  | [] => none
  | x :: r => match firstMax f r with | none => some x | some y => if f y ≤ f x then some x else some y

/-- Cores of a cluster where the chunk of groups from `i` on may go: the named core of a paced group (R401), and at most
one group of a level-2 cluster group on a core (R64, R344). -/
def LaunchRec.coresFor (r : LaunchRec) (plan : List Claim) (cluster i : Nat) : List Nat :=
  if r.flags.getLsbD 1 then [cluster * 8 + i % r.extent 2]
  else
    let apart := r.clusterDomain
    ((List.range 8).map (cluster * 8 + ·)).filter fun c =>
      !apart || !(plan.any fun p => p.core = c && p.idx / r.extent 2 = i / r.extent 2)

/-- Index of a chunk's first group. -/
def chunkAt (k : List (Nat × Need)) : Nat := (k.head?.map Prod.fst).getD 0

/-- Plan the groups of a unit chunk by chunk: each chunk on the core with the most free budget (R377). -/
def LaunchRec.planIn (r : LaunchRec) (cs : List Claim) (cluster : Nat) :
    List Claim → List (List (Nat × Need)) → Option (List Claim)
  | plan, [] => some plan
  | plan, k :: rest =>
    let opts := (r.coresFor plan cluster (chunkAt k)).filterMap fun c => (fitAll (cs ++ plan) c k).map fun p => (c, p)
    match firstMax (fun o => freeBudget (cs ++ plan) o.1) opts with
    | none => none
    | some o => r.planIn cs cluster (plan ++ o.2) rest

/-- Level-1 groups lo to lo + n - 1 in chunks that share a core. -/
def LaunchRec.chunks (r : LaunchRec) (lo n : Nat) : List (List (Nat × Need)) :=
  (List.range (n / r.coreSize)).map fun j => (List.range r.coreSize).map fun k => (lo + j * r.coreSize + k, r.need)

/-! ### Creating groups and sheaves (R350, R351, R392) -/

/-- The groups placed whole with this one (R377, R409): what a pre-emption takes at once. -/
def State.whole (s : State) (g : Group) : List Group :=
  if g.fromBin then [g]
  else
    let r := ((s.task g.task).map Task.lrec).getD LaunchRec.zero
    s.groups.filter fun k => k.task = g.task && !k.fromBin && !k.freed &&
      r.index k.gi / r.pieceSize = r.index g.gi / r.pieceSize

/-- A group as placement makes it (R183, R190, R382, R401). -/
def Task.newGroup (t : Task) (gid : Nat) (c : Claim) : Group where
  gid := gid
  task := t.tid
  unit := c.idx / t.lrec.unitSize
  gi := t.lrec.gi c.idx
  core := c.core
  spadBase := c.base
  spadLen := c.need.len
  barriers := List.replicate c.need.barriers Barrier.zero
  tiles := t.tiles.map fun e =>
    { base := e.base, slotBytes := e.slotBytes, count := e.count, out := e.out
      slots := (List.range e.count).map fun k => { full := false, pend := 0, step := k } }
  rings := []
  step := 0
  arrived := 0
  dead := false
  deathStep := none
  saved := false
  freed := false
  fromBin := false
  prio := t.lrec.prio

/-- A sheaf as creation leaves it (R201, R207): every register 0 but what the caller loads. -/
def Task.newSheaf (t : Task) (uid gid lsheaf number entry fn ver budget prio : Nat) (em : DWord) (scope : BitVec 16) : Sheaf :=
  { Sheaf.absent with
    uid := uid
    life := .live
    task := t.tid
    group := gid
    lsheaf := BitVec.ofNat 6 lsheaf
    sheafNo := BitVec.ofNat 32 number
    pc := BitVec.ofNat 32 entry
    next := BitVec.ofNat 32 entry
    regs := ({ Regs.zero with em := em }.setS 1 t.lrec.args).setS 2 (BitVec.ofNat 64 t.recVA)
    scope := scope
    baseScope := scope
    ver := BitVec.ofNat 16 fn ++ BitVec.ofNat 8 ver
    budget := budget
    prio := BitVec.ofNat 2 prio
    quant := BitVec.ofNat 32 (if t.lrec.quantum = 0 then 16384 else t.lrec.quantum)
    round := t.round }

/-- Sheaf l of a group of a launch (R350, R351). -/
def Task.launchSheaf (t : Task) (uid gid idx l : Nat) : Sheaf :=
  t.newSheaf uid gid l (l + t.lrec.extent 1 * idx) t.entry t.lrec.fn t.lrec.ver t.lrec.budget t.lrec.prio (BitVec.allOnes 64) t.scope

/-- Residency slots of a core that no sheaf holds, the lowest first (R380, R492). -/
def State.freeSeats (s : State) (core : Nat) : List Nat :=
  let taken := (s.sheaves.filter fun h => h.life = .live && !h.saved && (s.group h.group).any (·.core = core)).map Sheaf.seat
  (List.range Config.maxSheaves).filter fun k => !taken.contains k

/-- Put new sheaves among the others (LOG 1), in the lowest free residency slots; a sheaf on a halted core waits for its release
(R461). The cluster's clock runs (R500). -/
def State.addSheaves (s : State) (hs : List Sheaf) (core : Nat) : State :=
  let seats := s.freeSeats core
  let sit := fun (x : Sheaf × Nat) => { x.1 with coreHalt := s.halted.any (·.1 = core), seat := seats.getD x.2 0 }
  State.onCluster { s with peers := s.peers ++ hs.zipIdx.map sit } (core / 8) fun k => { k with gated := false, idle := none }

/-- Place one level-1 group of a launch: clear its range (R65), create its sheaves. -/
def State.placeGroup (s : State) (t : Task) (c : Claim) : State :=
  let gid := s.fresh + 1
  let n := t.lrec.extent 1
  let s1 := { s with fresh := s.fresh + 1 + n, groups := s.groups ++ [t.newGroup gid c] }
  let s2 := s1.clearRange t.tag (spadKey c.core c.base) c.need.len
  s2.addSheaves ((List.range n).map fun l => t.launchSheaf (gid + 1 + l) gid c.idx l) c.core

/-- Units whose groups are all placed are no longer unplaced (R419). -/
def State.settleUnits (s : State) (tid : Nat) : State :=
  let placed := fun (t : Task) (u : Nat) =>
    (s.groups.filter fun g => g.task = tid && !g.fromBin && g.unit = u).length = t.lrec.unitSize
  s.onTask tid fun t => { t with units := t.units.filter fun u => !placed t u }

/-- Place a planned unit. -/
def State.placePlan (s : State) (t : Task) (plan : List Claim) : State :=
  (plan.foldl (fun u c => u.placeGroup t c) s).settleUnits t.tid

/-- Words j of a record, and 0 beyond (R392). -/
def recordRow (rs : List (List Word)) (j : Nat) : Row := rowOf fun l => ((rs[l]?).getD []).getD j 0

/-- The sheaf of a closed set (R392). -/
def Task.binSheaf (t : Task) (e : NodeEntry) (node uid gid : Nat) (x : BinSet) : Sheaf :=
  let c := x.records.length
  let h := t.newSheaf uid gid 0 x.number e.entry e.fn e.ver e.budget e.prio (maskOf fun i => i < c) x.scope
  let vs := (List.range 8).foldl (fun (r : Regs) j => r.put (1 + j) (recordRow x.records j)) h.regs
  { h with regs := (vs.setS 3 (BitVec.ofNat 64 node)).setS 4 (BitVec.ofNat 64 c), fromBin := true }

/-- Needs of the group of a node's sheaf (R390, R392, R382). -/
def Task.nodeNeed (t : Task) (e : NodeEntry) : Need :=
  { len := padUp e.spad, budget := e.budget, sheaves := 1, barriers := t.lrec.barriers, tiles := 0, paced := none }

/-- Place the group of a closed set. -/
def State.placeSet (s : State) (t : Task) (e : NodeEntry) (node : Nat) (x : BinSet) (c : Claim) : State :=
  let gid := s.fresh + 1
  let g : Group := { t.newGroup gid c with gi := Vector.replicate 7 0, unit := 0, tiles := [], fromBin := true, prio := e.prio }
  let s1 := { s with fresh := s.fresh + 2, groups := s.groups ++ [g] }
  let s2 := s1.clearRange t.tag (spadKey c.core c.base) c.need.len
  s2.addSheaves [t.binSheaf e node (gid + 1) gid x] c.core

/-! ### What a save area holds of a sheaf (R451, R453, R291)

The group state stays in State's own fields while it is saved (LOG 26); these are the bytes of its records. -/

/-- The request word (R438). -/
def Sheaf.requestWord (h : Sheaf) : DWord :=
  match h.request with
  | none => 0
  | some r => 1#1 ++ BitVec.ofBool r.firmware ++ 0#46 ++ BitVec.ofNat 8 r.budget ++ 0#5 ++ r.ver

/-- The bytes of a register file: register j, lane i at 256 j + 4 i. -/
def fileBytes (rows : List Row) : List Byte := rows.flatMap fun r => (List.range 64).flatMap fun i => leBytes 4 (laneOf r i).toNat

/-- Groups left in the window of loop record k (R451), of the last loop that had it: 0 when it opened none or it is spent. -/
def Sheaf.loopWindow (h : Sheaf) (k : Nat) : Nat :=
  ((h.windows.reverse.find? fun w => w.acc.any (·.2 = k)).map Window.rem).getD 0

/-- The header of a sheaf's context record (R451). -/
def State.recordHeader (s : State) (h : Sheaf) : List Byte :=
  let r := h.regs
  let w := fun (k : Nat) (x : Nat) => leBytes k x
  let q := fun {n : Nat} (x : BitVec n) => leBytes 8 x.toNat
  let flags : BitVec 32 :=
    0#23 ++ h.hidMode ++ BitVec.ofBool (h.parked ≠ []) ++ BitVec.ofBool h.wait.isSome ++ BitVec.ofBool h.contF ++ BitVec.ofBool h.hnd
  let t := s.task h.task
  w 4 h.pc.toNat ++ w 4 flags.toNat ++ q r.em ++ r.k.toList.flatMap q ++ q r.mode ++ q h.fpflags ++
  w 4 h.trpc.toNat ++ w 4 h.trnext.toNat ++ q h.trmask ++ q h.traux ++
  w 1 h.trcause.toNat ++ w 1 0 ++ w 2 h.rpidx.toNat ++ w 1 (h.loopWindow 0 + 16 * h.loopWindow 1) ++ w 3 0 ++
  q h.trbase ++ q h.trem ++ h.tsc.toList.flatMap q ++ w 8 (((s.group h.group).map Group.step).getD 0) ++
  w 2 h.scope.toNat ++ w 2 h.baseScope.toNat ++ w 1 h.budget ++ w 1 h.prio.toNat ++ w 2 0 ++
  w 4 h.ver.toNat ++ w 4 h.late.toNat ++ q h.cpyq ++ q h.requestWord ++ w 4 h.quant.toNat ++ w 4 h.sheafNo.toNat ++
  w 1 (if h.fromBin then 1 else 0) ++ w 1 h.replays.length ++ w 6 0 ++ w 8 ((t.map Task.recVA).getD 0) ++ w 16 0

/-- The context record of a sheaf: 3,840 + 256 × %budget bytes (R451). -/
def State.contextRecord (s : State) (h : Sheaf) : List Byte :=
  s.recordHeader h ++ ((List.range 64).flatMap fun k => leBytes 8 (h.regs.getS (BitVec.ofNat 6 k)).toNat) ++
  fileBytes h.regs.o.toList ++ fileBytes h.regs.w.toList ++ fileBytes (h.regs.v.toList.take h.budget)

/-- An entry of the lookahead window block: V, REM, SHAPE, DLV and REG (R453). -/
def Sheaf.windowEntry (h : Sheaf) (w : Window) : BitVec 32 :=
  let shape := if w.regs.length = 4 then 2 else if w.regs.length = 2 then 1 else 0
  let waits := (h.loads ++ h.replays).any fun l => l.dest.any fun d => w.regs.contains d.1
  1#1 ++ BitVec.ofNat 4 w.rem ++ BitVec.ofNat 2 shape ++ BitVec.ofBool (!waits) ++ BitVec.ofNat 7 (w.regs.headD 0) ++ 0#17

/-- The lookahead window block: the open windows of loads and returning atomics, oldest first, in 16 entries (R453). -/
def Sheaf.windowBlock (h : Sheaf) : List Byte :=
  let ws := (h.windows.filter fun w => w.rem ≠ 0 && w.acc.isNone).map h.windowEntry
  ((ws ++ List.replicate 16 (0 : BitVec 32)).take 16).flatMap fun e => leBytes 4 e.toNat

/-- A loop's record in the matrix state (R291). -/
def Loop.bytes (l : Loop) : List Byte :=
  let last : DWord := 0#22 ++ l.exc ++ l.mode ++ 1#1 ++ BitVec.ofNat 7 l.d ++ BitVec.ofNat 16 l.nextK
  [l.cfg, l.a0, l.a1, l.b0, l.b1, last].flatMap fun x => leBytes 8 x.toNat

/-- A scale latch's tag, and its 64 scales (R291). -/
def ScaleLatch.tag (x : ScaleLatch) : BitVec 16 := BitVec.ofBool x.valid ++ BitVec.ofBool x.recent ++ 0#7 ++ BitVec.ofNat 7 x.vd
def ScaleLatch.bytes (x : ScaleLatch) : List Byte := (x.rows ++ List.replicate 32 0).take 32 ++ (x.cols ++ List.replicate 32 0).take 32

/-- A sheaf's matrix state, 240 bytes (R291). -/
def Sheaf.matrixState (h : Sheaf) : List Byte :=
  let record := fun (k : Nat) => ((h.loops.find? (·.slot = k)).map Loop.bytes).getD (List.replicate 48 0)
  leBytes 8 h.mcfg.toNat ++ leBytes 8 (h.latches[1].tag ++ h.latches[0].tag).toNat ++ h.latches[0].bytes ++ h.latches[1].bytes ++
  record 0 ++ record 1

/-! ### Saving and restoring a group -/

/-- Move a range of bytes and descriptors to a place where nothing is listed. -/
def State.moveRange (s : State) (src dst len : Nat) : State :=
  let hit := fun (k : Nat) => src ≤ k && k < src + len
  { s with
    mem := (s.mem.filter fun c => hit c.1).foldl (fun m c => writeByte m (c.1 - src + dst) c.2) (s.mem.filter fun c => !hit c.1)
    lines := (s.lines.filter fun c => hit c.1).foldl (fun l c => storeWrite lineDefault l (c.1 - src + dst) c.2)
      (s.lines.filter fun c => !hit c.1)
    badLines := s.badLines.map fun k => if hit k then k - src + dst else k }

/-- A key that moves with a range. -/
def moveKey (src dst len k : Nat) : Nat := if src ≤ k && k < src + len then k - src + dst else k

/-- A copy request follows the scratchpad it names (R164, R454). -/
def CopyReq.move (src dst len : Nat) (r : CopyReq) : CopyReq :=
  { r with src := moveKey src dst len r.src, dst := moveKey src dst len r.dst }

/-- So do the requests of a CPY. -/
def Cpy.move (src dst len : Nat) (c : Cpy) : Cpy := { c with reqs := c.reqs.map (·.move src dst len) }

/-- A buffered write follows the scratchpad it names. -/
def BufWrite.move (src dst len : Nat) : BufWrite → BufWrite
  | .bytes va k bs w x => .bytes va (moveKey src dst len k) bs w x
  | .desc va k v x => .desc va (moveKey src dst len k) v x
  | .batch n => .batch n

/-- What a sheaf holds that names a range follows it. -/
def Sheaf.move (src dst len : Nat) (h : Sheaf) : Sheaf :=
  { h with
    openCpys := h.openCpys.map (·.move src dst len)
    batches := h.batches.map fun b => { b with cpys := b.cpys.map (·.move src dst len) }
    buf := h.buf.map (·.move src dst len) }

/-- A scoreboard entry follows its range: core and offsets (R197). -/
def SbEntry.move (src dst len : Nat) (e : SbEntry) : SbEntry :=
  let k := spadKey e.core e.lo
  if src ≤ k && k < src + len then
    let j := keyCore (k - src + dst)
    { e with core := j.1, lo := j.2, hi := j.2 + (e.hi - e.lo) }
  else e

/-- Move a group's scratchpad and everything that names it. -/
def State.moveSpad (s : State) (src dst len : Nat) : State :=
  if len = 0 then s
  else
    let t := (s.moveRange src dst len).mapSheaves (·.move src dst len)
    { t with scoreboard := t.scoreboard.map (·.move src dst len) }

/-- Drain a sheaf at its pre-emption point (R450): device and scratchpad loads deliver, host and peer loads become replay
records (R136), a wait is issued again. -/
def Sheaf.save (h : Sheaf) : Sheaf :=
  let far := h.loads.filter (·.remote)
  let g := ({ h with loads := h.loads.filter (!·.remote) }).deliverAll
  { g with replays := g.replays ++ far, saved := true, coreHalt := false }

/-- A returning atomic of the sheaf is parked, or deferred to its commit, and the drain waits (R450, R455); or its handler is about to
be entered, which comes first (R456). -/
def State.drainWaits (s : State) (h : Sheaf) : Bool :=
  h.loads.any (·.waits ≠ 0) || h.entering.isSome ||
    s.parking.any fun w => w.by h.uid && w.ops.any fun o => match o with | .atom _ _ _ (some _) _ _ => true | _ => false

/-- Lines in error in a range of keys. -/
def State.badIn (s : State) (lo len : Nat) : List Nat := s.badLines.filter fun k => lo ≤ k && k < lo + len

/-- Save one group: its sheaves, its scratchpad, its entries; its core's room is free (R450, R452). A line of the scratchpad that
is found in error is met as any line is (R90). -/
def State.saveGroup (s : State) (gid : Nat) : State :=
  match s.group gid with
  | none => s
  | some g =>
    if g.saved || g.freed then s
    else
      let at_ := spadKey g.core g.spadBase
      let s0 := (s.badIn at_ g.spadLen).foldl State.containError s
      let s1 := s0.mapSheaves fun h => if h.group = gid && h.life = .live then h.save else h
      let s2 := s1.moveSpad at_ (saveKey gid 0) g.spadLen
      s2.onGroup gid fun k => { k with saved := true }

/-- Bytes of a sheaf's paused batches (R452); one that has exited may have left some. -/
def Sheaf.batchBytes (h : Sheaf) : Nat :=
  let batch := fun (cs : List Cpy) => 32 + 16 * (cs.map fun c => c.reqs.length).foldl (· + ·) 0
  (h.batches.map fun b => batch b.cpys).foldl (· + ·) 0 + (if h.openCpys = [] then 0 else batch h.openCpys)

/-- Bytes of a live sheaf's part of a group's saved state but for its batches (R452): context record, matrix state, window block,
hidden copy and replay records. -/
def Sheaf.stateBytes (h : Sheaf) : Nat :=
  3840 + 256 * h.budget + 240 + 64 + (if h.hnd then 1024 else 0) + 528 * (h.replays.length + (h.loads.filter (·.remote)).length)

/-- Bytes of a group's saved state (R452). -/
def State.stateBytes (s : State) (g : Group) : Nat :=
  let ms := s.members g.gid
  (ms.map Sheaf.stateBytes).foldl (· + ·) 0 +
    ((s.sheaves.filter fun h => h.group = g.gid && h.life ≠ .absent).map Sheaf.batchBytes).foldl (· + ·) 0 + 68 * (g.spadLen / 64) + 4096 +
    (g.tiles.map fun b => 16 + 8 * b.slots.length).foldl (· + ·) 0 +
    16 * (s.scoreboard.filter fun e => s.sheaves.any fun h => h.uid = e.sheaf && h.group = g.gid).length

/-- Width and destination of a replayed load. -/
def replayShape : Instr → BitVec 3 × VCode
  | .ldn _ w d _ _ _ => (w, d)
  | .ldh _ w d _ _ _ => (w, d)
  | _ => (0, 108)

/-- A replay record of the sheaf in the issue slot: the value is read anew, as the sheaf sees memory (R135, R136, R454). -/
def State.replayLoad (s : State) (l : PendLoad) : PendLoad :=
  let (w, d) := replayShape l.instr
  let vs := l.sites.map fun (p : Nat × Nat) => (p.1, leNat (s.see p.2 (widthBytes w)))
  { l with dest := loadRows w d (laneVal vs) }

/-- A replay record of the sheaf in the issue slot issues its load again (R136), as any load meets what it meets: parked writes to
wait for (R83), an error in a line (R90), a module that no route reaches any more (R120, R485). None while it waits. -/
def State.reissue (s : State) (l : PendLoad) : Option State :=
  let keys := l.sites.map Prod.snd
  let dest : BitVec 9 := (((l.dest.head?).map Prod.fst).map (BitVec.ofNat 9)).getD 108
  if keys.any s.awaitsReplay then none
  else match keys.find? s.lineBad with
    | some k => some (
        if s.liveOwner k = some s.tag then s.endContext s.tag Cause.ue.code 0 (some s.sh) s.sh.pc 0 (s.lineVA s.tag k)
        else (s.containError k).upd fun h => h.pendAsync .prot l.em (lateAux l.word dest))
    | none =>
      let cut := lanesMask ((l.sites.filter fun p => s.cutOff p.2).map Prod.fst)
      let l1 := s.replayLoad l
      let back := ((keys.filter (· < 2 * spaceSize)).map lineOf).dedup
      let t := if back = [] then s.correct keys else (s.correct keys).touchOutside back
      let u := t.upd fun h => { h with loads := h.loads ++ [{ l1 with em := l1.em &&& ~~~cut }] }
      some (if cut = 0 then u else u.post [.peerHostRejection s.sh.uid l.word dest cut])

/-- The replay records of the sheaf in the issue slot issue their loads, in order, as far as they go. -/
def State.reissueAll (s : State) : List PendLoad → State
  | [] => s
  | l :: r =>
    match s.reissue l with
    | none => s
    | some t => (t.upd fun h => { h with replays := r }).reissueAll r

/-- Resumed sheaves issue their replay loads, once what they wrote before the pre-emption is performed (R136, R336). -/
def State.replayLoads (s : State) : State :=
  let due := fun (h : Sheaf) =>
    h.life = .live && !h.saved && h.replays ≠ [] && !(h.resumed && s.parking.any (·.by h.uid))
  ((s.sheaves.filter due).map Sheaf.uid).foldl (fun t u => t.as u fun x => x.reissueAll x.sh.replays) s

/-- A saved sheaf resumes in a residency slot (R454); it issues nothing while what it wrote before is parked (R336). -/
def State.resumeSheaf (s : State) (core seat : Nat) (h : Sheaf) : Sheaf :=
  { h with saved := false, coreHalt := s.halted.any (·.1 = core), resumed := true, seat := seat }

/-- Scoreboard entries of a group's sheaves. -/
def State.groupEntries (s : State) (gid : Nat) : List SbEntry :=
  s.scoreboard.filter fun e => s.sheaves.any fun h => h.uid = e.sheaf && h.group = gid

/-- Register the entries of groups restored together again, after all others and in their own order (R197). -/
def State.reregister (s : State) (gids : List Nat) : State :=
  let mine := fun (e : SbEntry) => s.sheaves.any fun h => h.uid = e.sheaf && gids.contains h.group
  { s with scoreboard := s.scoreboard.filter (fun e => !mine e) ++ s.scoreboard.filter mine }

/-- Scoreboard entries that a saved group brings back to its own core. -/
def State.savedEntries (s : State) (gid : Nat) : Nat :=
  ((s.groupEntries gid).filter fun e => saveKey gid 0 ≤ spadKey e.core e.lo).length

/-- The scoreboards have free entries for those of saved groups that return together, by group and core (R193). DESIGN CHOICE
(LOG 26): R377 and R454 name no such limit, and the groups are restored once there are. -/
def State.entriesFit (s : State) (back : List (Nat × Nat)) : Bool :=
  ((back.map Prod.snd).dedup).all fun core =>
    let own := ((back.filter (·.2 = core)).map fun x => s.savedEntries x.1).foldl (· + ·) 0
    (s.scoreboard.filter (·.core = core)).length + own ≤ Config.scoreboard

/-- Put a saved group on a core (R454); its entries are registered again by `reregister`, before anything of it goes on. An
uncorrectable error in the save area, its records or its scratchpad, ends the context instead (R452); the address of the save area
is not modelled (LOG 26). The cluster's clock runs (R500). -/
def State.restoreAt (s : State) (gid core base : Nat) : State :=
  match s.group gid with
  | none => s
  | some g =>
    if s.badIn (saveKey gid 0) g.spadLen ≠ [] || s.badBetween (recordKey gid 0) (recordKey (gid + 1) 0) then
      s.endForError (((s.task g.task).map Task.tag).getD 0) 0
    else
      let s1 := s.moveSpad (saveKey gid 0) (spadKey core base) g.spadLen
      let seats := s1.freeSeats core
      let ms := (s1.members gid).map Sheaf.uid
      let s2 := s1.mapSheaves fun h =>
        if h.group = gid && h.life = .live then s1.resumeSheaf core (seats.getD (ms.idxOf h.uid) 0) h else h
      let k : Group := { g with saved := false, core := core, spadBase := base }
      State.onCluster { s2 with groups := s2.groups.filter (·.gid ≠ gid) ++ [k] } (core / 8) fun c => { c with gated := false, idle := none }

end Sys2Proof.Machine
end

