-- ==== Sys2Proof/Machine/Tasks.lean ====
section
/-!
DEFINITION. Task operations: SPAWN, node bins (R390-R394), dependence counters and signals (R395, R396, R399), cancel
scopes (R414-R424), launch queues as Iguana reads them (R365-R368, R515), the end of a graph and of a task (R352, R397).
-/

namespace Sys2Proof.Machine

open Sys2Proof

/-! ### Bins (R391-R394) -/

/-- Clusters of the partitions a task runs in, in ascending order (R345, R371). -/
def State.taskClusters (s : State) (t : Task) : List Nat :=
  let ps := s.partitions.filter fun p => if t.lrec.partMask = 0 then p.num = t.part else t.lrec.partMask.getLsbD p.num
  (List.range 64).filter fun c => ps.any fun p => p.clusters.contains c

/-- Free budget of a cluster (R371). -/
def State.clusterFree (s : State) (c : Nat) : Nat :=
  let cs := s.claims
  ((List.range 8).map fun j => freeBudget cs (8 * c + j)).foldl (· + ·) 0

/-- The task's records run in repeatable mode. -/
def Task.repeatable (t : Task) : Bool := t.lrec.flags.getLsbD 0

/-- Change the bin of a node, made on first use. -/
def State.onBin (s : State) (die tid node : Nat) (f : Bin → Bin) : State :=
  let is := fun (b : Bin) => b.die = die && b.task = tid && b.node = node
  if s.bins.any is then { s with bins := s.bins.map fun b => if is b then f b else b }
  else { s with bins := s.bins ++ [f { die := die, task := tid, node := node, sets := [], closed := [], waiting := [] }] }

/-- A bin. -/
def State.bin (s : State) (die tid node : Nat) : Bin :=
  (s.bins.find? fun b => b.die = die && b.task = tid && b.node = node).getD
    { die := die, task := tid, node := node, sets := [], closed := [], waiting := [] }

/-- A closed set goes to the Newt of the die's cluster of the task with the most free budget (R391). -/
def State.giveSet (s : State) (t : Task) (die node n : Nat) : State :=
  match firstMax s.clusterFree ((s.taskClusters t).filter fun c => c / 8 = die) with
  | none => s
  | some c => (s.onCluster c fun k => { k with newt := k.newt ++ [.set die t.tid node n] }).post [.groupPlacement c]

/-- A set closes (R391-R393): it gets its number and goes to a Newt of its die, or is discarded when no number is left.
DESIGN CHOICE (LOG 13): the record of kind 5, which R78 does not name, waits for room like a fault record. -/
def State.closeSet (s : State) (die tid node : Nat) (x : BinSet) : State :=
  match s.task tid with
  | none => s
  | some t =>
    let s1 := s.onBin die tid node fun b => { b with sets := b.sets.filter (·.seq ≠ x.seq) }
    let n := t.lrec.total + t.binSheaves
    if 2 ^ 32 ≤ n then
      let s2 := s1.countDiscarded t.tag x.scope x.records.length
      if t.exhausted then s2
      else
        (s2.notify t.part { gtc := s.gtc, va := BitVec.ofNat 64 t.recVA, kind := 5, access := 0, tag := t.tag
                            core := BitVec.ofNat 16 (576 + die), sheaf := 0xFFFFFFFF
                            value := BitVec.ofNat 32 x.records.length } true).onTask tid fun t => { t with exhausted := true }
    else
      ((s1.onBin die tid node fun b => { b with closed := b.closed ++ [{ x with number := n }] }).onTask tid
        fun t => { t with binSheaves := t.binSheaves + 1 }).giveSet t die node n

/-- A set that takes another record of its scope. -/
def BinSet.open (count : Nat) (scope : BitVec 16) (x : BinSet) : Bool := x.scope = scope && x.records.length < count

/-- The bin takes a record now (R391): room for it, and a set of its scope or one more set. -/
def Bin.takes (b : Bin) (count : Nat) (r : BinRec) : Bool :=
  ((b.sets.map fun x => x.records.length).foldl (· + ·) 0 < 4096) &&
    (b.sets.any (BinSet.open count r.scope) || (b.sets.filter fun x => x.records.length < count).length < 16)

/-- Put a record into its set; a set with the coalescing count closes, at the commit in repeatable mode (R391, R394). -/
def State.binPut (s : State) (die tid node count : Nat) (rep : Bool) (r : BinRec) : State :=
  let b := s.bin die tid node
  let new : BinSet := { scope := r.scope, records := [], first := s.gtc.toNat, seq := s.fresh, number := 0 }
  let old := b.sets.find? (BinSet.open count r.scope)
  let x := old.getD new
  let t := if old.isSome then s else s.tick.onBin die tid node fun b => { b with sets := b.sets ++ [new] }
  let y := { x with records := x.records ++ [r.words] }
  let u := (t.onBin die tid node fun b => { b with sets := b.sets.map fun z => if z.seq = x.seq then y else z }).accepted
    r.sender r.last
  if count ≤ y.records.length && !rep then u.closeSet die tid node y else u

/-- Take the records that wait, in arrival order, while one can be taken: `fuel` of them. -/
def State.binPump (s : State) (die tid node count : Nat) (rep : Bool) : Nat → State
  | 0 => s
  | k + 1 =>
    let b := s.bin die tid node
    match b.waiting.zipIdx.find? fun p => b.takes count p.1 with
    | none => s
    | some (r, j) =>
      ((s.onBin die tid node fun b => { b with waiting := b.waiting.eraseIdx j }).binPut die tid node count rep r).binPump
        die tid node count rep k

/-- Take every record that can be taken. -/
def State.binTake (s : State) (die tid node : Nat) : State :=
  match s.task tid with
  | none => s
  | some t => s.binPump die tid node (((t.nodes[node]?).map NodeEntry.count).getD 1) t.repeatable
      (s.bin die tid node).waiting.length

/-- A record reaches its bin: dropped and counted in a cancelled scope (R417), else it joins those that wait. A node the
table does not have keeps nothing (LOG 23). -/
def State.binArrive (s : State) (die tid node : Nat) (r : BinRec) : State :=
  match s.task tid with
  | none => s.accepted r.sender r.last
  | some t =>
    let s1 := s.onTask tid fun t => { t with recv := t.recv + 1 }
    if (s.context t.tag).all fun c => c.cancelled r.scope then (s1.countDropped t.tag r.scope tid 1).accepted r.sender r.last
    else if t.nodes.length ≤ node then s1.accepted r.sender r.last
    else (s1.onBin die tid node fun b => { b with waiting := b.waiting ++ [r] }).binTake die tid node

/-- BIN_RECORD_ARRIVAL (R391-R393). -/
def execBinRecordArrival (die tid node : Nat) (scope : BitVec 16) (words : List Word) (sender : Nat) (last : Bool)
    (s : State) : Out :=
  .next (s.binArrive die tid node { scope := scope, words := words, sender := sender, last := last })

/-- BIN_SET_TIMER: the first record of the scope's open set has waited the node's time (R391), or a cancellation has made room
for a record that waits; not in repeatable mode (R394). -/
def execBinSetTimer (die tid node : Nat) (scope : BitVec 16) (s : State) : Out :=
  .next (match s.task tid with
    | none => s
    | some t =>
      if t.repeatable then s
      else
        match t.nodes[node]?, (s.bin die tid node).sets.find? (·.scope = scope) with
        | some e, some x => (if s.gtc.toNat < x.first + e.timer then s else s.closeSet die tid node x).binTake die tid node
        | _, _ => s.binTake die tid node)

/-! ### SPAWN -/

/-- The records a SPAWN sends, lane by lane (R399). -/
def State.spawnRecords (s : State) (a : VCode) (len : Nat) : List (List Word) :=
  (lanesOf s.sh.em).map fun l => (List.range len).map fun j => laneOf (s.sh.rd.file (a.toNat + j)) l

/-- Mark the last of some records. -/
def markLast {α : Type} : List α → List (α × Bool)
  | [] => []
  | [x] => [(x, true)]
  | x :: r => (x, false) :: markLast r

/-- SPAWN (R399): one record a lane to the node's bin on the issuer's die. -/
def execSpawn (sa : SCode) (a : VCode) (len : BitVec 6) (s : State) : Out :=
  s.issue (.spawn sa a len) fun s =>
    let node := (s.sh.rd.getS sa).toNat
    let n := ((s.taskOf s.sh).map fun t => t.nodes.length).getD 0
    if n ≤ node then s.trapWord (.spawn sa a len) .range none
    else
      let rs := markLast (s.spawnRecords a len.toNat)
      if rs = [] then s
      else
        let s1 := s.upd fun h => { h with spawns := h.spawns + 1 }
        if s.repeatable then
          s1.upd fun h => { h with defer := h.defer ++ rs.map fun r => .record node h.scope r.1 r.2 }
        else
          (s1.onTask s.sh.task fun t => { t with sent := t.sent + rs.length }).post
            (rs.map fun r => .binRecordArrival (s.core / 64) s.sh.task node s.sh.scope r.1 s.sh.uid r.2)

/-! ### Dependence counters (R395) -/

/-- A decrement at the home port of the counter at a key, by a sheaf whose launch may be traced (R395, R494): the successor
record it sends, with the die of the counter's frame and its node. -/
def State.decrementAt (s : State) (tag : BitVec 12) (va key : Nat) (scope : BitVec 16) (uid : Nat) :
    State × Option (Nat × Nat × BinRec) :=
  let s0 := s.correct [key]
  let count := readLE s0.mem key 4
  if s0.lineBad key then (s0.containError key, none)
  else if count = 0 then (s0, none)
  else
    let bs := leBytes 4 (count - 1)
    let s1 := (s0.putBytes tag key bs).as uid fun t => t.traceMine s0.mem va key bs
    let node := readLE s0.mem (key + 4) 2
    let words := min 6 (readLE s0.mem (key + 6) 1)
    let ws := (List.range words).map fun j => (BitVec.ofNat 32 (readLE s0.mem (key + 8 + 4 * j) 4) : Word)
    (s1, if count = 1 && words ≠ 0 then some ((keyDie key).getD 0, node, { scope := scope, words := ws, sender := 0, last := false })
      else none)

/-- Where an operation issued under an earlier translation is performed: in its page as it is mapped now, else where it was
translated to (R75, R83). -/
def State.homeOf (s : State) (tag : BitVec 12) (va key : Nat) : Nat × Option Mapped :=
  match s.xlat tag va .load with
  | .ok m => (match s.reach tag true m.key with | some k => (k, some m) | none => (key, none))
  | _ => (key, none)

/-- An issued decrement comes to its counter, or parks while the page migrates (R83, R395). -/
def State.decrement (s : State) (tag : BitVec 12) (va key : Nat) (scope : BitVec 16) (uid : Nat) :
    State × Option (Nat × Nat × BinRec) :=
  match s.homeOf tag va key with
  | (k, some m) => if m.wb then (s.parkOp m tag uid none va false (.depdec va k scope), none) else s.decrementAt tag va k scope uid
  | (k, none) => s.decrementAt tag va k scope uid

/-- A successor record goes to its bin (R395, R397). -/
def State.sendRecord (s : State) (tid : Nat) (x : Nat × Nat × BinRec) : State :=
  (s.onTask tid fun k => { k with sent := k.sent + 1 }).post
    [.binRecordArrival x.1 tid x.2.1 x.2.2.scope x.2.2.words x.2.2.sender x.2.2.last]

/-- DEPENDENCE_DECREMENT (R395). -/
def execDependenceDecrement (tag : BitVec 12) (tid : Nat) (x : Located) (scope : BitVec 16) (uid : Nat) (s : State) : Out :=
  .next (match s.decrement tag x.va.toNat x.key scope uid with
    | (t, none) => t
    | (t, some r) => t.sendRecord tid r)

/-- DEPDEC (R399): each active lane's decrement, in lane order. -/
def execDepdec (a : VCode) (s : State) : Out :=
  s.issueWait (.depdec a) fun s =>
    let i := Instr.depdec a
    match s.plan .dev .atomic 32 true (s.laneAddrs .dev a 0) with
    | .error b => s.blocked i .atomic b
    | .ok p =>
      if s.readWaits (s.directSites false p.sites) || s.orderHolds || (!s.repeatable && (s.overtakes p.sites || s.parkingFull p.sites))
        then s.stall i none
      else
        match s.firstBad [] (s.directSites s.repeatable p.sites) with
        | some q => s.meetError i q
        | none =>
          let t := s.unhold.touch p.sites
          let u := if s.repeatable then
              t.upd fun h => { h with defer := h.defer ++ p.sites.map fun q => .depdec (BitVec.ofNat 64 q.va) q.key h.scope }
            else t.post (p.sites.map fun q =>
              .dependenceDecrement s.tag s.sh.task ⟨BitVec.ofNat 64 q.va, q.key⟩ s.sh.scope s.sh.uid)
          if p.rejected = [] then u
          else u.post [.peerHostRejection s.sh.uid s.sh.latch.word 0x1FF (lanesMask p.rejected)]

/-! ### Signals (R396) -/

/-- The space of a signal (R396). -/
def signalSpace (x : BitVec 2) : Space := if x = 0 then .dev else if x = 1 then .host else .peer

/-- What SIGNAL leaves (R396). -/
def signalNew (op : BitVec 2) (old x : DWord) : DWord :=
  if op = 0 then x else if op = 1 then old + x else if old.toNat ≤ x.toNat then x else old

/-- WAITSIG's condition (R396). -/
def signalMet (op : BitVec 2) (old x : DWord) : Bool :=
  if op = 0 then decide (x.toNat ≤ old.toNat) else if op = 1 then old = x else old ≠ x

/-- A trap of an operation that acts once per sheaf names the lanes of em. -/
def Blocked.once (em : DWord) : Blocked → Blocked
  | .trap c _ => .trap c none
  | .park ps => .park ps
  | .bad ps _ => .bad ps em

/-- The signal's place, or why it cannot be reached (R396, R399). -/
def State.signalPlan (s : State) (acc : Access) (sp : BitVec 2) (a : SCode) : Except Blocked Plan :=
  match s.plan (signalSpace sp) acc 8 true [(0, (s.sh.rd.getS a).toNat)] with
  | .ok p => .ok p
  | .error b => .error (b.once s.sh.em)

/-- A SIGNAL whose group has gone is turned away, or not made (R90, R120): it acts once for its sheaf and names em. -/
def Sheaf.signalRejected (h : Sheaf) (word : Word) : Sheaf :=
  if h.life = .live then h.pendAsync .prot h.regs.em (lateAux word 0x1FF) else h

/-- Perform a SIGNAL of a sheaf at its home; in a line in error, or where no route leads, it is not made (R90, R485). -/
def State.signalLands (s : State) (tag : BitVec 12) (uid : Nat) (va : Option Nat) (key : Nat) (op : BitVec 2) (x : DWord) (word : Word) :
    State :=
  if s.cutOff key then s.onSheaf uid fun h => h.signalRejected word
  else if s.lineBad key then (s.containError key).onSheaf uid fun h => h.signalRejected word
  else
    let n := 8
    let bs := leBytes n (signalNew op (BitVec.ofNat 64 (readLE s.mem key n)) x).toNat
    let t := s.land tag key bs false
    let u := if isForeign key then
        t.onSheaf uid fun h => h.addFar ⟨word, 0x1FF, (lanesOf h.regs.em).headD 0⟩ key (readBytes s.mem key n) bs
      else t
    match va with | some v => u.as uid fun y => y.traceMine s.mem v key bs | none => u

/-- Perform a SIGNAL of the sheaf in the issue slot. -/
def State.signalAt (s : State) (va : Option Nat) (key : Nat) (op : BitVec 2) (x : DWord) (word : Word) : State :=
  s.signalLands s.tag s.sh.uid va key op x word

/-- SIGNAL (R396, R399): a release, then the operation, once per sheaf. -/
def execSignal (a : SCode) (sp : BitVec 2) (scope : BitVec 3) (op : BitVec 2) (b : SCode) (s : State) : Out :=
  s.issueWait (.signal a sp scope op b) fun s =>
    let i := Instr.signal a sp scope op b
    match s.signalPlan .atomic sp a with
    | .error e => s.blocked i .atomic e
    | .ok p =>
      if s.parkedMine || s.readWaits (s.directSites false p.sites) || (!s.repeatable && s.parkingFull p.sites) then s.stall i none
      else
        match s.firstBad [] (s.directSites s.repeatable p.sites) with
        | some q => s.meetError i q
        | none =>
          let x := s.sh.rd.getS b
          let t := s.unhold.touch p.sites
          match p.sites with
          | [] => (t.openFar i [] (lanesOf s.sh.em)).post [.peerHostRejection s.sh.uid s.sh.latch.word 0x1FF s.sh.em]
          | q :: _ =>
            if s.repeatable then t.upd fun h => { h with defer := h.defer ++ [.signal (q.map.map fun _ => q.va) q.key op x h.latch.word] }
            else
              match t.parksAt q with
              | some (tag, m, va) => t.parkOp m tag s.sh.uid none va false (.signal va op x s.sh.latch.word)
              | none => (t.openFar i p.sites []).signalAt (q.map.map fun _ => q.va) q.key op x s.sh.latch.word

/-- WAITSIG (R396, R399). A page that goes while it waits parks the sheaf in its wait. -/
def execWaitsig (a : SCode) (sp : BitVec 2) (scope : BitVec 3) (op : BitVec 2) (b : SCode) (s : State) : Out :=
  s.issueWait (.waitsig a sp scope op b) fun s =>
    let i := Instr.waitsig a sp scope op b
    match s.signalPlan .load sp a with
    | .error (.park ps) => if s.sh.wait.isSome then s.park ps .load else s.blocked i .load (.park ps)
    | .error e => s.blocked i .load e
    | .ok p =>
      if s.readWaits p.sites || s.orderHolds then s.stall i none
      else
        match s.firstBad [] p.sites with
        | some q => s.meetError i q
        | none =>
          match p.sites with
          | [] => s.unhold.post [.peerHostRejection s.sh.uid s.sh.latch.word 0x1FF s.sh.em]
          | q :: _ =>
            let t := if s.sh.wait.isSome then s else s.touch p.sites
            t.waitFor i none (signalMet op (BitVec.ofNat 64 (readLE s.mem q.key 8)) (s.sh.rd.getS b)) id

/-- The condition of a WAITSIG holds now. -/
def State.waitsigMet (s : State) (a : SCode) (sp op : BitVec 2) (b : SCode) : Bool :=
  match s.signalPlan .load sp a with
  | .ok ⟨q :: _, _⟩ => !s.readWaits [q] && !s.orderHolds && !s.lineBad q.key && signalMet op (BitVec.ofNat 64 (readLE s.mem q.key 8)) (s.sh.rd.getS b)
  | _ => false

/-- The sheaf in the issue slot is in a wait that may end now: not parked, saved or held back (R336), its round committed (R469). -/
def State.mayWake (s : State) : Bool :=
  s.sh.life = .live && s.sh.parked = [] && !s.sh.saved && !s.sh.coreHalt && !s.heldBack s.sh && !(s.repeatable && s.sh.quantumDone)

/-- SIGNAL_REREAD: the line of a waited-for signal is read again, and the wait ends when its condition holds (R399). -/
def execSignalReread (uid : Nat) (s : State) : Out :=
  .next (s.as uid fun s =>
    match s.sh.wait.map WaitState.instr with
    | some (.waitsig a sp _ op b) => if s.waitsigMet a sp op b && s.mayWake then s.unhold else s
    | _ => s)

/-! ### Cancel scopes (R414-R424) -/

/-- The context of the sheaf in the issue slot. -/
def State.myContext (s : State) : Option Context := s.context s.tag

/-- A sheaf whose scope is cancelled is to be killed (R417). -/
def State.dieIfCancelled (s : State) : State :=
  if s.myContext.any fun c => c.cancelled s.sh.scope then s.postFirst [.sheafKill s.sh.uid] else s

/-- CSOPEN's check: depth 15, or 4,096 scopes (R423); in repeatable mode their number is looked at in the commit, which issues
the IDs (R421). -/
def State.noScope (s : State) : Bool :=
  match s.myContext with
  | none => true
  | some c => (!s.repeatable && c.freeScope.isNone) || (c.scope s.sh.scope).all fun x => 15 ≤ x.depth

/-- Open a child of %scope and move into it (R415, R423); in a commit that finds no ID the wait of the CSOPEN records that. -/
def State.openChild (s : State) (d : SCode) : State :=
  match s.myContext.bind Context.freeScope with
  | none => s.upd fun h => { h with wait := h.wait.map fun w => { w with token := some 1 } }
  | some id =>
    ((s.onContext s.tag fun c => c.openScope id s.sh.scope false).upd fun h =>
      { h with scope := id, regs := h.regs.setS d (id.setWidth 64) }).dieIfCancelled

/-- CSOPEN (R423); at the commit in repeatable mode (R421). -/
def execCsopen (d : SCode) (s : State) : Out :=
  s.issueWait (.csopen d) fun s =>
    if s.token = some 1 then s.unhold.trapWord (.csopen d) .range none
    else if s.sh.wait.isSome then s.unhold
    else if s.noScope then s.trapWord (.csopen d) .range none
    else if s.repeatable then (s.upd fun h => { h with defer := h.defer ++ [.csopen d] }).hold (.csopen d) none
    else s.openChild d

/-- The word ends the quantum of a repeatable sheaf. -/
def State.endQuantum (s : State) : State := s.upd fun h => { h with quantumDone := h.quantumDone || s.repeatable }

/-- CSCLOSE (R423). -/
def execCsclose (s : State) : Out :=
  s.issue .csclose fun s =>
    if s.sh.scope = s.sh.baseScope then s.trapWord .csclose .range none
    else
      let up := ((s.myContext.bind fun c => c.scope s.sh.scope).map Scope.parent).getD 0
      ((s.onContext s.tag fun c => c.onScope s.sh.scope fun x => { x with isOpen := false }).upd fun h =>
        { h with scope := up }).endQuantum

/-- A scope ID in a scalar: none when a high bit is set (R423). -/
def scopeId (x : DWord) : Option (BitVec 16) := if x.extractLsb' 16 48 = 0 then some (x.extractLsb' 0 16) else none

/-- CANCEL (R417, R423); at the commit in repeatable mode (R421). -/
def execCancel (a : SCode) (s : State) : Out :=
  s.issue (.cancel a) fun s =>
    match scopeId (s.sh.rd.getS a) with
    | none => s.trapWord (.cancel a) .range none
    | some id =>
      if id = 0 then s.trapWord (.cancel a) .range none
      else if s.repeatable then (s.upd fun h => { h with defer := h.defer ++ [.cancel id] }).endQuantum
      else s.cancel s.tag id

/-- CWAIT (R419, R423, R424). -/
def execCwait (a d : SCode) (s : State) : Out :=
  s.issueWait (.cwait a d) fun s =>
    match scopeId (s.sh.rd.getS a) with
    | none => s.unhold.trapWord (.cwait a d) .range none
    | some id =>
      if s.myContext.all fun c => c.under id s.sh.scope then s.unhold.trapWord (.cwait a d) .range none
      else
        s.waitFor (.cwait a d) none (s.scopeDone s.tag id) fun s =>
          s.regs fun r => r.setS d (s.countWord s.tag id)

/-- SHEAF_KILL (R418): a sheaf of a cancelled scope ends at its kill point. -/
def execSheafKill (uid : Nat) (s : State) : Out :=
  .next (match s.sheaf uid with
    | none => s
    | some h =>
      if (s.context (s.tagOf h)).any fun c => c.cancelled h.scope then s.kill uid else s)

/-- DRIVER_CANCEL (R418); it waits for a commit while repeatable sheaves run in the subtree (R421). -/
def execDriverCancel (tag : BitVec 12) (scope : BitVec 16) (s : State) : Out :=
  .next (if s.sheaves.any fun h => h.life = .live && s.sheafUnder tag scope h && (s.taskOf h).any Task.repeatable
    then s.onContext tag fun c => { c with cancels := c.cancels ++ [scope] }
    else s.cancel tag scope)

/-! ### Queues and commands -/

/-- A queue's registers. -/
def State.queue (s : State) (fn q : Nat) : Queue := ((s.fns[fn]?).bind fun v => v.queues[q]?).getD Queue.zero
/-- Change a queue. -/
def State.onQueue (s : State) (fn q : Nat) (f : Queue → Queue) : State :=
  s.onFn fn fun v => match v.queues[q]? with | some k => { v with queues := v.queues.setIfInBounds q (f k) } | none => v
/-- Commands a ring holds (R365). -/
def Queue.size (k : Queue) : Nat := 2 ^ ((k.cfg.extractLsb' 8 4).toNat + 4)
/-- BASE (R365). -/
def Queue.base (k : Queue) : Nat := k.cfg.toNat / 4096 * 4096
/-- HOST (R365). -/
def Queue.host (k : Queue) : Bool := k.cfg.getLsbD 2
/-- Where the command with a count lies (R365). -/
def Queue.slot (k : Queue) (count : BitVec 32) : Nat := k.base + 64 * (count.toNat % k.size)
/-- The context the monitor bound a queue to (R365). -/
def State.queueContext (s : State) (fn q : Nat) : Option Context :=
  s.contexts.find? fun c => c.fn = fn && c.queues.contains q && !c.ended
/-! ### Memory as Iguana reaches it (R515) -/

/-- Iguana's module-wide core number and %sheaf in a record (R515). -/
def iguanaCore : BitVec 16 := 584
def iguanaSheaf : BitVec 32 := 0xFFFFFFFE

/-- A page Iguana cannot reach yet: one record of kind 1, and the access waits (R515). -/
def State.iguanaFault (s : State) (tag : BitVec 12) (part va : Nat) (acc : Access) : State :=
  if (s.context tag).any fun c => c.iguana.contains (va / 65536) then s
  else
    ((s.notify part { gtc := s.gtc, va := BitVec.ofNat 64 va, kind := 1, access := acc.code, tag := tag
                      core := iguanaCore, sheaf := iguanaSheaf, value := 0 } true).onContext tag fun c =>
      { c with iguana := c.iguana ++ [va / 65536] }).containWalk tag va

/-- What a read of Iguana meets: the number, a page it must wait for, a line whose parked writes it waits for (R82, R83), a
refused access, or a line in error. -/
inductive IgRead where
  | ok (n : Nat) | fault (va : Nat) | wait | refused | bad (key : Nat)
  deriving DecidableEq, Repr

/-- Iguana reads n bytes of a ring or of a context (R365, R515). -/
def State.iguanaRead (s : State) (fn : Nat) (host : Bool) (tag : BitVec 12) (a n : Nat) : IgRead :=
  if host then .ok (readLE s.mem (hostKey fn a) n)
  else match s.xlat tag a .load with
    | .fault => .fault a
    | .prot => .refused
    | .ok m => match s.reach tag false m.key with
      | none => .refused
      | some k => if s.lineBad k then .bad k else if s.awaitsReplay k then .wait else .ok (readLE s.mem k n)

/-- Iguana has read numbers of 8 bytes at these addresses: errors that the codes of their lines and tables correct are corrected and
logged (R89). -/
def State.igCorrect (s : State) (tag : BitVec 12) (as : List Nat) : State :=
  if s.weak = [] then s
  else s.correct (as.flatMap fun a =>
    walkKeys s.mem a 4 0 (s.root tag) ++ (match s.xlat tag a .load with | .ok m => (s.reach tag false m.key).toList | _ => []))

/-- A write of Iguana is refused: it is not made, and the hub logs it (R515). -/
def State.hubRefuse (s : State) (a : Nat) : State :=
  { s with hublog := s.hublog ++ [{ gtc := s.gtc, what := "Iguana write not made", addr := a }] }

/-- Iguana makes one of its writes, or logs that it is refused (R515); none while it must wait: for its page, for parked writes
that it follows as a release (R368), or for room in a parking buffer (R83). -/
def State.igMake (s : State) (w : IguanaWrite) : Option State :=
  let bs := if w.stamp then leBytes 8 s.gtc.toNat else w.bytes
  if w.release && s.parking.any (·.queue = some (w.fn, w.queue)) then none
  else if w.host then some (s.putBytes 0 (hostKey w.fn w.addr) bs)
  else match s.xlat w.tag w.addr .store with
    | .fault => none
    | .prot => some (s.hubRefuse w.addr)
    | .ok m =>
      match s.reach w.tag true m.key with
      | none => some (s.hubRefuse w.addr)
      | some k =>
        if !m.wb then some ((s.correctWalk w.tag w.addr).land w.tag k bs false)
        else if Config.parking ≤ s.parkedOn (m.die.getD 0) then none
        else some (s.parkOp m w.tag 0 none w.addr false (.bytes w.addr bs false none) (some (w.fn, w.queue)))

/-- The page of a write of Iguana is not there (R515). -/
def State.igMisses (s : State) (w : IguanaWrite) : Bool := !w.host && s.xlat w.tag w.addr .store = .fault

/-- Two writes of one command. -/
def IguanaWrite.mate (w x : IguanaWrite) : Bool := w.fn = x.fn && w.queue = x.queue && w.count = x.count

/-- A command as Iguana reads it (R366): its fields and the bits that must be 0. -/
structure Command where
  kind : Nat
  after : Bool
  addr : Nat
  value : DWord
  cond : Nat
  /-- Some field that its kind does not use is not 0, a condition is unknown or an address misaligned (R366). -/
  malformed : Bool
  deriving DecidableEq, Repr

/-- The fields of a command from its eight 64-bit words (R366). -/
def Command.of (w : Nat → Nat) : Command :=
  let kind := w 0 % 2 ^ 8
  let flags := bits (w 0) 15 8
  let cond := w 3 % 2 ^ 8
  let zeros := flags / 2 ≠ 0 || w 0 / 2 ^ 24 ≠ 0 || w 3 / 2 ^ 8 ≠ 0 || w 6 ≠ 0 || w 7 ≠ 0
  let unused := (kind ≠ 2 && cond ≠ 0) || ((kind = 0 || kind = 1) && w 2 ≠ 0) || (kind = 0 && w 1 ≠ 0)
  let bad := 3 < kind || (kind = 2 && 3 ≤ cond) || (kind = 1 && w 1 % 64 ≠ 0) || ((kind = 2 || kind = 3) && w 1 % 8 ≠ 0)
  { kind := kind, after := flags % 2 = 1, addr := w 1, value := BitVec.ofNat 64 (w 2), cond := cond
    malformed := zeros || unused || bad }

/-- The next command of a queue that is on, not empty and not held, with where it lies; or the page to wait for. -/
inductive NextCommand where
  | none | fault (va : Nat) | refused | bad (key : Nat) | some (c : Command)
  deriving DecidableEq, Repr

/-- The queue holds: a WAIT of it has not completed (R368), or one of its writes waits for its page (R515). -/
def State.queueHolds (s : State) (fn q : Nat) : Bool :=
  s.held.any (fun h => h.command.fn = fn && h.command.queue = q) || s.iwrites.any fun w => w.fn = fn && w.queue = q && s.igMisses w

/-- Read the command at the head of a queue (R365, R515). -/
def State.nextCommand (s : State) (fn q : Nat) : NextCommand :=
  let k := s.queue fn q
  match s.queueContext fn q with
  | none => .none
  | some c =>
    if !k.cfg.getLsbD 0 || k.head = k.tail || !((s.fns[fn]?).any VirtFn.enabled) || s.queueHolds fn q then .none
    else
      let rd := fun j => s.iguanaRead fn k.host c.tag (k.slot k.head + 8 * j) 8
      match rd 0 with
      | .fault va => .fault va
      | .wait => .none
      | .refused => .refused
      | .bad k => .bad k
      | .ok _ => .some (Command.of fun j => match rd j with | .ok n => n | _ => 0)

/-- The command may start: with AFTER only when every earlier one is complete (R368). -/
def State.mayStart (s : State) (fn q : Nat) (c : Command) : Bool :=
  let k := s.queue fn q
  !c.after || k.running = []

/-- The step that takes the next command of a queue (R368). A malformed one of an unknown kind goes with NOP. -/
def State.queueEvent (s : State) (fn q : Nat) : List Event :=
  match s.nextCommand fn q with
  | .none => []
  | .fault _ | .refused | .bad _ => [.cmdNop fn q]
  | .some c =>
    if !s.mayStart fn q c then []
    else match c.kind with | 1 => [.cmdLaunch fn q] | 2 => [.cmdWait fn q] | 3 => [.cmdWrite fn q] | _ => [.cmdNop fn q]

/-- Iguana looks at a queue (R365). -/
def State.queueGo (s : State) (fn q : Nat) : State := s.post ((s.queueEvent fn q).filter fun e => !s.agenda.contains e)

/-- Iguana looks at every queue of a context. -/
def State.queuesGo (s : State) (tag : BitVec 12) : State :=
  match s.context tag with
  | none => s
  | some c => c.queues.foldl (fun t q => t.queueGo c.fn q) s

/-! ### The end of a task (R352, R397) -/

/-- No core holds a sheaf or a batch of the task, and nothing of it is unplaced or undone (R352). -/
def State.taskQuiet (s : State) (t : Task) : Bool :=
  t.units = [] && t.gathered = [] &&
  !(s.sheaves.any fun h => h.task = t.tid && s.working h) &&
  (s.groups.all fun g => g.task ≠ t.tid || g.freed) &&
  !(s.parking.any fun w => s.sheaves.any fun h => h.uid = w.sheaf && h.task = t.tid) &&
  !(s.agenda.any fun e => match e with | .dependenceDecrement _ k _ _ _ => k = t.tid | _ => false)

/-- Every bin, open set and waiting record of the task is empty (R397). -/
def State.binsEmpty (s : State) (tid : Nat) : Bool :=
  s.bins.all fun b => b.task ≠ tid || (b.sets = [] && b.closed = [] && b.waiting = [])

/-- The monitor maps the front of a published page again (R160): PSEL 0 on the frame that is the front now. -/
def State.unpublishPage (s : State) (tag : BitVec 12) (va : Nat) : State :=
  match s.xlat tag va .load with
  | .ok m =>
    let e := readLE s.mem m.pte 8
    if m.psel = 0 then s
    else
      let e1 := e - bits e 7 6 * 64 + (if m.psel = 3 then m.size else 0)
      s.putHost m.pte (leBytes 8 e1)
  | _ => s

/-- Every region of a task is mapped plain again. -/
def State.unpublish (s : State) (t : Task) : State :=
  t.regions.foldl (fun u r => (List.range (r.size / 65536)).foldl (fun u j => u.unpublishPage t.tag (r.base + 65536 * j)) u) s

/-- A command of a queue is complete: no longer among those that run; the queue looks for the next one (R367, R368). -/
def State.commandDone (s : State) (fn q : Nat) (count : BitVec 32) : State :=
  (s.onQueue fn q fun k => { k with running := k.running.filter (· ≠ count) }).queueGo fn q

/-- Iguana makes what it can of its writes, each command's in order (R515); the last of a command completes it. -/
def State.igPump (s : State) : State :=
  let one := fun (x : State × List IguanaWrite) (w : IguanaWrite) =>
    if x.2.any w.mate then (x.1, x.2 ++ [w])
    else
      match x.1.igMake w with
      | some t => (if w.final then t.commandDone w.fn w.queue w.count else t, x.2)
      | none => (if x.1.igMisses w then x.1.iguanaFault w.tag w.part w.addr .store else x.1, x.2 ++ [w])
  let r := s.iwrites.foldl one ({ s with iwrites := [] }, [])
  { r.1 with iwrites := r.2 }

/-- Iguana has these writes to make. -/
def State.igPut (s : State) (ws : List IguanaWrite) : State := State.igPump { s with iwrites := s.iwrites ++ ws }

/-- The same write, of other bytes at an offset from it. -/
def IguanaWrite.at (w : IguanaWrite) (off : Nat) (bs : List Byte) : IguanaWrite := { w with addr := w.addr + off, bytes := bs }

/-- The writes that complete a command (R366, R367): its status, then the GTC. -/
def IguanaWrite.completes (w : IguanaWrite) (status : Nat) : List IguanaWrite :=
  [{ w.at 2 [BitVec.ofNat 8 status] with release := true },
   { w.at 0x28 [] with stamp := true, release := true, final := true }]

/-- The LAUNCH command of a task, as its writes name it. -/
def Task.command (t : Task) : IguanaWrite :=
  { fn := t.fn, queue := t.queue, count := t.cmd, tag := t.tag, part := t.part, host := t.cmdHost, addr := t.cmdAddr, bytes := [] }

/-- Write a status byte of a task's command (R367). -/
def State.setStatus (s : State) (t : Task) (status : Nat) : State := s.igPut [t.command.at 2 [BitVec.ofNat 8 status]]

/-- The task ends (R352): completion value, published pages, task scope, LAUNCH command. After a context end none of its
completions is written (R418). -/
def State.endTask (s : State) (t : Task) : State :=
  let live := (s.context t.tag).any fun c => !c.ended
  let s1 := (if live then s.unpublish t else s).onTask t.tid fun k => { k with ended := true, units := [] }
  let s2 := if t.ownScope then s1.onContext t.tag fun c => c.onScope t.scope fun x => { x with isOpen := false } else s1
  let value : List IguanaWrite := if t.lrec.signal = 0 then []
    else [{ t.command with host := false, addr := t.lrec.signal, bytes := leBytes 8 t.lrec.signalValue.toNat }]
  if live then s2.igPut (value ++ t.command.completes 2) else s2

/-- TASK_END (R352): of a task whose work is over; one with node bins ends by GRAPH_END_SAMPLE (R397). -/
def execTaskEnd (tid : Nat) (s : State) : Out :=
  .next (match s.task tid with
    | none => s
    | some t => if !t.ended && t.nodes = [] && s.taskQuiet t then s.endTask t else s)

/-- GRAPH_END_SAMPLE (R397): two idle samples at least 500 ns apart, records sent equal to received in each, and the sums
equal. -/
def execGraphEndSample (tid : Nat) (s : State) : Out :=
  .next (match s.task tid with
    | none => s
    | some t =>
      if t.ended || t.nodes = [] then s
      else
        let now : EndSample := { gtc := s.gtc.toNat, idle := s.taskQuiet t && s.binsEmpty tid, sent := t.sent, recv := t.recv }
        let keep := s.onTask tid fun t => { t with sample := some now }
        match t.sample with
        | none => keep
        | some p =>
          if now.gtc < p.gtc + 500 then s
          else if p.idle && now.idle && p.sent = p.recv && now.sent = now.recv && p.sent = now.sent then s.endTask t
          else keep)

end Sys2Proof.Machine
end

