-- ==== Sys2Proof/Machine/Versions.lean ====
section
/-!
DEFINITION. Code versions and live transfer (R425-R438): the tables, the state map, recipes, SAFEPT, XFER, XFERQ and the
firmware's requests.
-/

namespace Sys2Proof.Machine

open Sys2Proof

/-! ### Tables, read as data (R425, R426, R432) -/

/-- Why a table cannot be used: it cannot be read yet or at all, or an entry fails (0xFFFF for a descriptor that cannot be read as
R425 lays down). -/
inductive MapErr where
  | stop (c : CodeStop) | wait | bad (index : Nat)
  deriving DecidableEq, Repr

/-- What a table read gives. -/
abbrev MapM := Except MapErr

/-- A 32-bit word of the image of the sheaf in the issue slot, translated as data (R432). -/
def State.imageWord (s : State) (off : Nat) : MapM Nat :=
  let va := (s.lrec.image + off) % 2 ^ 64
  match s.xlat s.tag va .load with
  | .fault => .error (.stop (.page va))
  | .prot => .error (.bad 0xFFFF)
  | .ok m => match s.reach s.tag false m.key with
    | none => .error (.bad 0xFFFF)
    | some k =>
      if s.lineBad k then .error (.stop (.line k))
      else if s.readWaits [{ lane := 0, off := 0, len := 4, va := va, key := k, map := some m }] then .error .wait
      else .ok (readLE s.mem k 4)

/-- The place in memory of a word of the image, as an access of the sheaf in the issue slot reads it. -/
def State.imageSite (s : State) (off : Nat) : Option Site :=
  let va := (s.lrec.image + off) % 2 ^ 64
  match s.xlat s.tag va .load with
  | .ok m => (s.reach s.tag false m.key).map fun k => { lane := 0, off := 0, len := 4, va := va, key := k, map := some m }
  | _ => none

/-- A version slot of the launched function (R349; LOG 7). -/
def State.mySlot (s : State) (v : Nat) : Option VerSlot :=
  (s.taskOf s.sh).bind fun t => t.verSlot (s.sh.ver.extractLsb' 8 16).toNat v

/-- The request that a SAFEPT serves: the one fixed when its map began to be read, else the one in force (R432). -/
def Sheaf.serves (h : Sheaf) : Option XferReq := h.asked.orElse fun _ => h.request

/-- A safe-point entry: SAFEPT address, resume address, directory offset, map count with its zero field (R425). -/
structure SafePoint where
  addr : Nat
  resume : Nat
  dir : Nat
  count : Nat
  deriving DecidableEq, Repr

/-- Entry n of a version's safe-point table; none at or above its count. -/
def State.safePoint (s : State) (v : VerSlot) (n : Nat) : MapM (Option SafePoint) :=
  if v.points ≤ n then .ok none
  else do
    let o := v.spTable + 16 * n
    let a ← s.imageWord o
    let r ← s.imageWord (o + 4)
    let d ← s.imageWord (o + 8)
    let c ← s.imageWord (o + 12)
    pure (some { addr := a, resume := r, dir := d, count := c })

/-- The entry keeps its layout. DESIGN CHOICE (LOG 16): a nonzero zero field traps, as R425 states, though R8 names the field as
one that is ignored. -/
def SafePoint.sound (p : SafePoint) : Bool := p.count ≤ 7 && p.dir % 8 = 0

/-- The descriptor for source `a`: entry count and offset (R425). DESIGN CHOICE (LOG 16): a nonzero zero field traps, as R425 states,
though R8 names the field as one that is ignored. -/
def State.findMap (s : State) (dir a : Nat) : Nat → Nat → MapM (Option (Nat × Nat))
  | 0, _ => .ok none
  | k + 1, j => do
    let w ← s.imageWord (dir + 8 * j)
    let o ← s.imageWord (dir + 8 * j + 4)
    if bits w 15 8 ≠ 0 || 7 < w % 256 || w / 2 ^ 16 = 0 || 255 < w / 2 ^ 16 || o % 4 ≠ 0 then .error (.bad 0xFFFF)
    else if w % 256 = a then pure (some (w / 2 ^ 16, o)) else s.findMap dir a k (j + 1)

/-- A transfer that completes at this SAFEPT: the request, the target's slot and resume address, and its map. -/
structure Transfer where
  req : XferReq
  slot : VerSlot
  resume : Nat
  count : Nat
  offset : Nat
  deriving DecidableEq, Repr

/-- The conditions of R431 at SAFEPT n: none when the SAFEPT has no effect. -/
def State.transfer (s : State) (n : Nat) : MapM (Option Transfer) :=
  match s.sh.serves, s.mySlot (s.sh.ver.toNat % 256) with
  | some r, some va =>
    match s.mySlot r.ver.toNat with
    | none => .ok none
    | some vb =>
      if s.sh.hnd || (s.repeatable && r.firmware && (s.sh.nth ≠ 1 || bits va.flags 2 2 = 0 || bits vb.flags 2 2 = 0)) then
        .ok none
      else do
        let pa ← s.safePoint va n
        match pa with
        | none => pure none
        | some a =>
          if a.addr ≠ s.sh.latch.addr.toNat then pure none
          else do
            let pb ← s.safePoint vb n
            match pb with
            | none => pure none
            | some b =>
              if !a.sound || !b.sound then .error (.bad 0xFFFF)
              else do
                let m ← s.findMap b.dir (s.sh.ver.toNat % 256) b.count 0
                pure (m.map fun p => { req := r, slot := vb, resume := b.resume, count := p.1, offset := p.2 })
  | _, _ => .ok none

/-! ### The state map (R427-R430) -/

/-- Classes of locations (R428). -/
inductive LocClass where
  | vector | scalar | mask | mode | flags
  deriving DecidableEq, Repr

/-- Class of a location code (R428). -/
def locClass (c : Nat) : Option LocClass :=
  if c < 108 then some .vector
  else if 128 ≤ c && c < 192 then some .scalar
  else if 192 ≤ c && c < 201 then some .mask
  else if c = 201 then some .mode else if c = 202 then some .flags else none

/-- What a location holds: lanes or a number. -/
inductive LocVal where
  | row (r : Row) | num (x : DWord)
  deriving DecidableEq, Repr

/-- Read a location (R428). -/
def Sheaf.loc (h : Sheaf) (c : Nat) : LocVal :=
  if c < 108 then .row (h.regs.file c)
  else if c < 192 then .num (h.regs.getS (BitVec.ofNat 6 (c - 128)))
  else if c < 200 then .num (h.regs.getK (BitVec.ofNat 3 (c - 192)))
  else if c = 200 then .num h.regs.em
  else if c = 201 then .num h.regs.mode
  else .num h.fpflags

/-- Write a location (R428). -/
def Sheaf.setLoc (h : Sheaf) (c : Nat) (x : LocVal) : Sheaf :=
  match x with
  | .row r =>
    if c < 104 then { h with regs := h.regs.put c r }
    else { h with regs := { h.regs with w := h.regs.w.setIfInBounds (c - 104) r } }
  | .num n =>
    if c < 192 then { h with regs := h.regs.setS (BitVec.ofNat 6 (c - 128)) n }
    else if c < 200 then { h with regs := h.regs.setK (BitVec.ofNat 3 (c - 192)) n }
    else if c = 200 then { h with regs := { h.regs with em := n } }
    else if c = 201 then { h with regs := { h.regs with mode := n } }
    else { h with fpflags := n }

/-- The low 32 bits of a scalar in every lane (R429). -/
def LocVal.spread : LocVal → Row
  | .row r => r
  | .num x => rowOf fun _ => x.setWidth 32

/-- Bits a class keeps of a constant (R429, R98, R99). -/
def LocClass.fit (c : LocClass) (x : DWord) : LocVal :=
  match c with
  | .vector => .row (rowOf fun _ => x.setWidth 32)
  | .scalar | .mask => .num x
  | .mode => .num (x &&& 0x1F3F)
  | .flags => .num (x &&& 0x1F)

/-- One step's operation (R430). -/
def recipeOp (op : Nat) {n : Nat} (a b : BitVec n) : BitVec n :=
  match op with
  | 1 => a + b
  | 2 => a - b
  | 3 => a * b
  | 4 => if b.toNat < n then a <<< b.toNat else 0
  | _ => if b.toNat < n then a >>> b.toNat else 0

/-- A step on a vector or a scalar accumulator (R430). -/
def recipeStep (op : Nat) (acc x : LocVal) : LocVal :=
  match acc with
  | .row r => .row (rowOf fun i => recipeOp op (laneOf r i) (laneOf x.spread i))
  | .num a => match x with | .num b => .num (recipeOp op a b) | .row _ => .num a

/-- A location a recipe may name for a target of this class (R430, R433). -/
def Sheaf.recipeLoc (h : Sheaf) (pend : List Nat) (tc : LocClass) (c : Nat) : Option LocVal :=
  match locClass c with
  | some .vector => if tc = .scalar || (c < 96 && h.budget ≤ c) || pend.contains c then none else some (h.loc c)
  | some .scalar => if tc = .vector then some (.row (h.loc c).spread) else some (h.loc c)
  | _ => none

/-- The steps of a recipe from an accumulator (R430); none when it fails. The bits of the first end step, and those that an operand
location leaves over, are ignored (R8). -/
def Sheaf.runSteps (h : Sheaf) (pend : List Nat) (tc : LocClass) : LocVal → List Nat → Option LocVal
  | acc, [] => some acc
  | acc, w :: r =>
    let op := w / 2 ^ 29
    if op = 0 then if r.all (· = 0) then some acc else none
    else if 5 < op then none
    else
      let x : Option LocVal :=
        if bits w 28 28 = 1 then
          let k : DWord := (BitVec.ofNat 28 w).signExtend 64
          some (if tc = .vector then .row (rowOf fun _ => k.setWidth 32) else .num k)
        else h.recipeLoc pend tc (w % 2 ^ 9)
      match x with
      | none => none
      | some v => h.runSteps pend tc (recipeStep op acc v) r

/-- A map entry as it is read: the word, and for a rebuild the steps of its recipe, none at or above the recipe count (R426,
R427). -/
structure MapEntry where
  word : Nat
  steps : Option (List Nat)
  deriving DecidableEq, Repr

/-- Read a map entry and its recipe (R432). -/
def State.readEntry (s : State) (v : VerSlot) (off : Nat) : MapM MapEntry := do
  let e ← s.imageWord off
  if e / 2 ^ 29 ≠ 3 then pure { word := e, steps := none }
  else
    let idx := e % 2 ^ 11
    let head ← s.imageWord v.recTable
    if head % 2 ^ 16 ≤ idx then pure { word := e, steps := none }
    else
      let o := v.recTable + 16 + 16 * idx
      let a ← s.imageWord o
      let b ← s.imageWord (o + 4)
      let c ← s.imageWord (o + 8)
      let d ← s.imageWord (o + 12)
      pure { word := e, steps := some [a, b, c, d] }

/-- Read a map whole, with its recipes, before any entry is checked (R432). -/
def State.readMap (s : State) (t : Transfer) : List Nat → MapM (List MapEntry)
  | [] => .ok []
  | j :: r => do
    let e ← s.readEntry t.slot (t.offset + 4 * j)
    let es ← s.readMap t r
    pure (e :: es)

/-- The value of a rebuild (R430). -/
def Sheaf.rebuild (h : Sheaf) (pend : List Nat) (tc : LocClass) (src : Nat) (e : MapEntry) : Option LocVal :=
  if tc ≠ .vector && tc ≠ .scalar then none
  else e.steps.bind fun ws => (h.recipeLoc pend tc src).bind fun acc => h.runSteps pend tc acc ws

/-- One entry of the map (R427, R429): its target and the value it gets; none when it fails. The target's budget is the request's
and the source's is %budget (LOG 16). -/
def Sheaf.mapEntry (h : Sheaf) (t : Transfer) (pend : List Nat) (x : MapEntry) : Option (Nat × LocVal) :=
  let kind := x.word / 2 ^ 29
  let tgt := bits x.word 28 20
  let src := bits x.word 19 11
  let val := x.word % 2 ^ 11
  match locClass tgt with
  | none => none
  | some tc =>
    if 5 < kind || (tgt < 96 && t.req.budget ≤ tgt) then none
    else if kind = 0 then if src ≠ 0 || val ≠ 0 then none else some (tgt, tc.fit 0)
    else if kind = 2 then if src ≠ 0 then none else some (tgt, tc.fit ((BitVec.ofNat 11 val).signExtend 64))
    else
      match locClass src with
      | none => none
      | some sc =>
        if src < 96 && h.budget ≤ src then none
        else if kind = 3 then (h.rebuild pend tc src x).map fun v => (tgt, v)
        else if kind = 5 && (tgt ≠ src || val ≠ 0) then none
        else if kind ≠ 4 && pend.contains src then none
        else if sc = tc then some (tgt, h.loc src)
        else if tc = .vector && sc = .scalar then some (tgt, .row (h.loc src).spread)
        else none

/-- Check every entry, and that no target is named twice (R429, R432): what each target gets, or the first entry that fails. -/
def Sheaf.mapAll (h : Sheaf) (t : Transfer) (pend : List Nat) : Nat → List MapEntry → List (Nat × LocVal) →
    MapM (List (Nat × LocVal))
  | _, [], acc => .ok acc
  | j, e :: r, acc =>
    match h.mapEntry t pend e with
    | none => .error (.bad j)
    | some x => if acc.any (·.1 = x.1) then .error (.bad j) else h.mapAll t pend (j + 1) r (acc ++ [x])

/-- The request that was served is cleared; one that replaced it since its map began to be read takes effect now (R432). -/
def Sheaf.served (h : Sheaf) : Sheaf := { h with asked := none, request := if h.request = h.serves then none else h.request }

/-- The writes of a completing SAFEPT (R429, R432): unnamed locations 0, but em, %mode and %fpflags kept. -/
def Sheaf.transferTo (h : Sheaf) (t : Transfer) (xs : List (Nat × LocVal)) : Sheaf :=
  let clear := { h with regs := { Regs.zero with em := h.regs.em, mode := h.regs.mode } }
  let g := xs.foldl (fun (g : Sheaf) x => g.setLoc x.1 x.2) clear
  { g.served with
    ver := h.ver.extractLsb' 8 16 ++ (t.req.ver.setWidth 8 : BitVec 8)
    budget := t.req.budget
    windows := []
    rpLast := 0
    rpNext := 0
    rpResume := false
    contF := false
    next := BitVec.ofNat 32 t.resume }

/-! ### SAFEPT, XFER, XFERQ -/

/-- The pending set as the number a wait records (R433). -/
def pendCode (cs : List Nat) : Nat := (cs.dedup.map (2 ^ ·)).foldl (· + ·) 0
/-- The pending set a wait recorded. -/
def pendList (x : Nat) : List Nat := (List.range 104).filter fun c => x.testBit c

/-- XFERMAP (R438): the request is cleared, the sheaf goes on in the source version after the handler. -/
def State.mapTrap (s : State) (n index : Nat) : State :=
  let v : BitVec 3 := (s.sh.serves.map XferReq.ver).getD 0
  (s.upd Sheaf.served).pendTrap
    { kind := .soft, cause := .xfermap, pc := some s.sh.pc, mask := BitVec.allOnes 64
      aux := s.sh.latch.word ++ 0#5 ++ v ++ BitVec.ofNat 8 n ++ BitVec.ofNat 16 index }

/-- A SAFEPT cannot read a table (R432): its page is waited for in the SAFEPT's own wait, or refused (R74, R446), or the line is
met as any line in error (R90). -/
def State.safeptStop (s : State) (i : Instr) (token : Nat) : CodeStop → State
  | .page va =>
    if s.sh.badPages.any fun v => v.toNat / 65536 = va / 65536 then s.codeBlocked (s.aux i) s.sh.next (.page va)
    else (s.stall i (some token)).park [va] .load
  | c => s.codeBlocked (s.aux i) s.sh.next c

/-- What becomes of a SAFEPT whose tables give no map. -/
def State.mapFails (s : State) (i : Instr) (n token : Nat) : MapErr → State
  | .stop c => s.safeptStop i token c
  | .wait => s.stall i (some token)
  | .bad k => s.unhold.mapTrap n k

/-- Offsets of the image words that a transfer reads (R425, R426): both safe-point entries, the directory, the map, the recipes. -/
def State.mapReads (s : State) (n : Nat) (t : Transfer) : List Nat :=
  let entry := fun (v : VerSlot) => (List.range 4).map fun j => v.spTable + 16 * n + 4 * j
  let dir := match s.safePoint t.slot n with
    | .ok (some p) => (List.range (2 * p.count)).map fun j => p.dir + 4 * j
    | _ => []
  let recipe := fun (j : Nat) => match s.imageWord (t.offset + 4 * j) with
    | .ok e => if e / 2 ^ 29 = 3 then t.slot.recTable :: (List.range 4).map fun k => t.slot.recTable + 16 + 16 * (e % 2 ^ 11) + 4 * k else []
    | _ => []
  ((s.mySlot (s.sh.ver.toNat % 256)).map entry).getD [] ++ entry t.slot ++ dir ++
    (List.range t.count).flatMap fun j => (t.offset + 4 * j) :: recipe j

/-- The map has been read, as data is: its pages count it, and errors that a code corrects are logged (R80, R89, R432). -/
def State.mapTouch (s : State) (n : Nat) (t : Transfer) : State := s.touch ((s.mapReads n t).filterMap s.imageSite)

/-- Complete the transfer now that nothing is pending (R432): the request in force now is the one that counts, and from here on it
is fixed. -/
def State.completeTransfer (s : State) (i : Instr) (n token : Nat) : State :=
  let s0 := s.upd fun h => { h with asked := h.serves }
  match s0.transfer n with
  | .error e => s0.mapFails i n token e
  | .ok none => (s.upd fun h => { h with asked := none }).unhold
  | .ok (some t) =>
    match (s0.readMap t (List.range t.count)).bind fun es => s0.sh.mapAll t (pendList token) 0 es [] with
    | .error (.bad k) => (s0.mapTouch n t).mapFails i n token (.bad k)
    | .error e => s0.mapFails i n token e
    | .ok xs => ((s0.mapTouch n t).unhold.upd fun h => h.transferTo t xs).roomFreed s.core

/-- SAFEPT (R431, R432, R438). -/
def execSafept (n : BitVec 8) (s : State) : Out :=
  s.issueWait (.safept n) fun s =>
    let i := Instr.safept n
    let token := s.token.getD (pendCode s.sh.pending)
    if s.sh.wait.isNone && s.sh.request.isNone then s
    else if s.sh.pending = [] && s.sh.loops = [] then s.completeTransfer i n.toNat token
    else if s.sh.wait.isSome then s.stall i (some token)
    else
      match s.transfer n.toNat with
      | .ok none => s
      | .error (.stop c) => s.safeptStop i token c
      | _ => s.stall i (some token)

/-- The checks XFER makes whatever request is pending (R438). -/
def State.xferCheck (s : State) (ver : Option (BitVec 3)) : Option Cause :=
  if !s.lrec.flags.getLsbD 2 then some .range
  else match ver with
    | none => none
    | some v =>
      match s.mySlot v.toNat with
      | none => some .range
      | some r => if s.sh.budget < r.budget then some .budget else none

/-- XFER without a firmware request pending (R435, R438). -/
def Sheaf.ask (h : Sheaf) (ver : Option (BitVec 3)) : Sheaf :=
  if h.request.any XferReq.firmware then h
  else
    { h with request := match ver with
        | none => none
        | some v => if v.toNat = h.ver.toNat % 256 then none else some { ver := v, budget := h.budget, firmware := false } }

/-- XFER v (R438). -/
def execXfer (ver : BitVec 3) (s : State) : Out :=
  s.issue (.xfer ver) fun s =>
    match s.xferCheck (some ver) with
    | some c => s.trapWord (.xfer ver) c none
    | none => s.upd fun h => h.ask (some ver)

/-- XFER.clr (R438). -/
def execXferClr (s : State) : Out :=
  s.issue .xferClr fun s =>
    match s.xferCheck none with
    | some c => s.trapWord .xferClr c none
    | none => s.upd fun h => h.ask none

/-- XFERQ (R438). -/
def execXferq (d : SCode) (s : State) : Out :=
  s.issue (.xferq d) fun s => s.regs fun r => r.setS d s.sh.requestWord

/-! ### The firmware's requests (R435, R436) -/

/-- Firmware may ask this of a sheaf: version present, budget between its declared one and %budget; in repeatable mode
both versions exact-equivalent (R435, R436). -/
def Task.mayAsk (t : Task) (h : Sheaf) (ver budget : Nat) : Bool :=
  let f := (h.ver.extractLsb' 8 16).toNat
  match t.verSlot f ver, t.verSlot f (h.ver.toNat % 256) with
  | some b, some a =>
    b.budget ≤ budget && budget ≤ h.budget && budget % 16 = 0 && (!t.repeatable || (bits a.flags 2 2 = 1 && bits b.flags 2 2 = 1))
  | _, _ => false

/-- Record a firmware request in every sheaf of a task that may have it; a SAFEPT that reads its map goes on with the request it has
(R432). -/
def State.recordAsk (s : State) (t : Task) (ver : BitVec 3) (budget : Nat) : State :=
  let on := fun (h : Sheaf) => h.task = t.tid && h.life = .live && t.mayAsk h ver.toNat budget
  let wait := ((s.fns[t.fn]?).bind fun v => v.policy.map Policy.deadline).getD Config.xferDeadline
  (s.mapSheaves fun h => if on h then { h with request := some { ver := ver, budget := budget, firmware := true } } else h).onTask
    t.tid fun t => { t with deadline := some (s.gtc.toNat + wait), ask := none }

/-- FIRMWARE_XFER_REQUEST (R435); recorded at a commit in repeatable mode (R436). -/
def execFirmwareXferRequest (tid : Nat) (ver : BitVec 3) (budget : BitVec 8) (s : State) : Out :=
  .next (match s.task tid with
    | none => s
    | some t =>
      if !t.lrec.flags.getLsbD 2 || t.ended then s
      else if t.repeatable then s.onTask tid fun t => { t with ask := some (ver, budget.toNat) }
      else s.recordAsk t ver budget.toNat)

/-- A group that a firmware request's deadline would pre-empt cannot be drained yet (R435, R450). -/
def State.askDrains (s : State) (tid : Nat) : Bool :=
  let late := s.sheaves.filter fun h => h.task = tid && h.life = .live && h.request.any XferReq.firmware
  s.sheaves.any fun h => late.any (·.group = h.group) && s.drainWaits h

/-- XFER_DEADLINE: a firmware request still pending is withdrawn, and its group pre-empted instead (R435, R378). -/
def execXferDeadline (tid : Nat) (s : State) : Out :=
  .next (match s.task tid with
    | none => s
    | some t =>
      if t.deadline.all (fun d => s.gtc.toNat < d) || s.askDrains tid then s
      else
        let late := s.sheaves.filter fun h => h.task = tid && h.life = .live && h.request.any XferReq.firmware
        let clear := fun (h : Sheaf) => if h.task = tid && h.request.any XferReq.firmware then { h with request := none } else h
        ((s.mapSheaves clear).onTask tid fun t => { t with deadline := none }).post
          ((late.map Sheaf.group).dedup.map fun g => .preemption g))

end Sys2Proof.Machine
end

