-- ==== Sys2Proof/Machine/Sched.lean ====
section
/-!
DEFINITION. The registers and the commands of the launch queues (R365-R368, R515), validation of a launch (R343-R349, R160, R188, R376, R390,
R400, R405, R415), placement units and their way to a core (R371-R378), pre-emption and restoration (R450, R454).
-/

namespace Sys2Proof.Machine

open Sys2Proof

/-! ### Registers of the queues -/

/-- A notify write reaches its register (R365). -/
def Queue.notify (k : Queue) (val : BitVec 32) : Option Queue :=
  if k.size < (val - k.head).toNat || (val - k.head).toNat < (k.tail - k.head).toNat then none else some { k with tail := val }

/-- The write reaches the register of a queue (R365). -/
def State.lqNotify (s : State) (fn q : Nat) (val : BitVec 32) : State :=
  if !(s.fns[fn]?).any (fun v => v.enabled && q < 8) then s
  else match (s.queue fn q).notify val with
    | none => s
    | some k => (s.onQueue fn q fun _ => k).queueGo fn q

/-- A write to a gated aperture is taken into the wake latch; while that is full it waits in the link (R475). -/
def State.latchWrite (s : State) (fn : Nat) (e : Event) : State :=
  if s.latch.length < Config.wakeLatch then State.post { s with latch := s.latch ++ [(fn, e)] } [.apertureWake fn]
  else s.post [.apertureWake fn, e]

/-- LQNOTIFY_WRITE (R365); to a gated aperture it goes through the wake latch (R475). -/
def execLqnotifyWrite (fn q : Nat) (val : BitVec 32) (s : State) : Out :=
  .next (if (s.fns[fn]?).any VirtFn.gated then s.latchWrite fn (.lqnotifyWrite fn q val) else s.lqNotify fn q val)

/-- A queue's register takes a value (R365): reserved bits read 0; EN set anew starts the counts. -/
def Queue.configure (k : Queue) (val : DWord) : Queue :=
  let cfg := val &&& ~~~(0xFA#64)
  if cfg.getLsbD 0 && !k.cfg.getLsbD 0 then { cfg := cfg, head := 0, tail := 0, running := [] } else { k with cfg := cfg }

/-- LQCFG_WRITE (R365); EN cleared truncates a recording trace of the queue's context (R496). -/
def execLqcfgWrite (fn q : Nat) (val : DWord) (s : State) : Out :=
  .next (
    let k := s.queue fn q
    let off := k.cfg.getLsbD 0 && !val.getLsbD 0
    let s1 := s.onQueue fn q (·.configure val)
    if off then
      let s2 := { s1 with held := s1.held.filter fun h => !(h.command.fn = fn && h.command.queue = q) }
      match s.queueContext fn q with | some c => s2.endTrace fn c.tag 584 4 | none => s2
    else s1.queueGo fn q)

/-- The next command of a queue, as Iguana's writes name it. -/
def State.headCommand (s : State) (fn q : Nat) (c : Context) : IguanaWrite :=
  let k := s.queue fn q
  { fn := fn, queue := q, count := k.head, tag := c.tag, part := s.firstPart fn, host := k.host, addr := k.slot k.head, bytes := [] }

/-- A command is taken (R365-R368): the head moves on, the acceptance GTC is written, then what `ws` makes of the command. -/
def State.take (s : State) (fn q : Nat) (c : Context) (ws : IguanaWrite → List IguanaWrite) : State :=
  let w := s.headCommand fn q c
  (s.onQueue fn q fun k => { k with head := k.head + 1, running := k.running ++ [w.count] }).igPut
    (w.at 0x20 (leBytes 8 s.gtc.toNat) :: ws w)

/-- A command is taken and complete at once with a status (R367). -/
def State.takeDone (s : State) (fn q : Nat) (c : Context) (status : Nat) : State :=
  (s.take fn q c fun w => w.completes status).queueGo fn q

/-- A malformed command (R366, R367): status 0x04, where it can be written. -/
def State.malformed (s : State) (fn q : Nat) (c : Context) : State := s.takeDone fn q c 4

/-- Iguana cannot read what the next command of a queue needs (R515): it waits for the page or the line, takes the command for
malformed, or meets the error (R90), and DEDUCED (LOG 28) takes it for malformed where the context lives on. -/
def State.readFails (s : State) (fn q : Nat) (c : Context) : IgRead → State
  | .ok _ | .wait => s
  | .fault va => s.iguanaFault c.tag (s.firstPart fn) va .load
  | .refused => s.malformed fn q c
  | .bad k =>
    let t := s.containError k
    if (t.queueContext fn q).isSome then t.malformed fn q c else t

/-- Iguana has read the command at the head of a queue (R89). -/
def State.headRead (s : State) (fn q : Nat) (c : Context) : State :=
  let k := s.queue fn q
  if k.host then s else s.igCorrect c.tag ((List.range 8).map fun j => k.slot k.head + 8 * j)

/-- Do what a command of a kind asks when it is the queue's next one and may start. -/
def State.command (s : State) (fn q : Nat) (kinds : Nat → Bool) (f : State → Context → Command → State) : State :=
  match s.queueContext fn q with
  | none => s
  | some c =>
    match s.nextCommand fn q with
    | .none => s
    | .fault va => s.readFails fn q c (.fault va)
    | .refused => s.readFails fn q c .refused
    | .bad k => s.readFails fn q c (.bad k)
    | .some k =>
      if !kinds k.kind || !s.mayStart fn q k then s
      else
        let t := s.headRead fn q c
        if k.malformed then t.malformed fn q c else f t c k

/-- CMD_NOP (R368). -/
def execCmdNop (fn q : Nat) (s : State) : Out :=
  .next (s.command fn q (fun k => k = 0 || 3 < k) fun s c _ => s.takeDone fn q c 2)

/-- CMD_WRITE (R367, R368): the store is a release; where it cannot be performed at once the status says that it is under way. -/
def execCmdWrite (fn q : Nat) (s : State) : Out :=
  .next (s.command fn q (· = 3) fun s c k =>
    let store := fun (w : IguanaWrite) =>
      { w with host := false, addr := k.addr, bytes := leBytes 8 k.value.toNat, release := true : IguanaWrite }
    let late := (s.igMake (store (s.headCommand fn q c))).all fun t => t.parking ≠ s.parking
    (s.take fn q c fun w => (if late then [w.at 2 [1]] else []) ++ store w :: w.completes 2).queueGo fn q)

/-- WAIT's condition (R366). -/
def waitMet (cond : Nat) (x v : DWord) : Bool :=
  if cond = 0 then decide (v.toNat ≤ x.toNat) else if cond = 1 then x = v else x ≠ v

/-- CMD_WAIT (R368). -/
def execCmdWait (fn q : Nat) (s : State) : Out :=
  .next (s.command fn q (· = 2) fun s c k =>
    match s.iguanaRead fn false c.tag k.addr 8 with
    | .ok x =>
      let s := s.igCorrect c.tag [k.addr]
      if waitMet k.cond (BitVec.ofNat 64 x) k.value then s.takeDone fn q c 2
      else
        let t := s.take fn q c fun w => [w.at 2 [1]]
        { t with held := t.held ++ [{ command := s.headCommand fn q c, signal := k.addr, value := k.value, cond := k.cond }] }
    | e => s.readFails fn q c e)

/-- What Iguana reads of the signal of a held WAIT. -/
def State.heldRead (s : State) (h : HeldWait) : IgRead := s.iguanaRead h.command.fn false h.command.tag h.signal 8

/-- A held WAIT has something to do now (R368, R515): its condition holds, or its signal cannot be read, which has not been
reported. -/
def State.heldDue (s : State) (h : HeldWait) : Bool :=
  match s.heldRead h with
  | .ok x => waitMet h.cond (BitVec.ofNat 64 x) h.value
  | .fault va => !((s.context h.command.tag).any fun c => c.iguana.contains (va / 65536))
  | .wait => false
  | .refused | .bad _ => true

/-- A held WAIT is over with a status. -/
def State.unholdWait (s : State) (h : HeldWait) (status : Nat) : State :=
  State.igPut { s with held := s.held.filter fun k => !k.command.mate h.command } (h.command.completes status)

/-- WAIT_CONDITION_MET (R368): the signal is read again. -/
def execWaitConditionMet (fn q : Nat) (s : State) : Out :=
  .next (match s.held.find? fun h => h.command.fn = fn && h.command.queue = q with
    | none => s
    | some h =>
      if !s.heldDue h then s
      else match s.heldRead h with
        | .ok _ => (s.igCorrect h.command.tag [h.signal]).unholdWait h 2
        | .fault va => s.iguanaFault h.command.tag h.command.part va .load
        | .wait => s
        | .refused => s.unholdWait h 4
        | .bad k => let t := s.containError k; if t.held.contains h then t.unholdWait h 4 else t)

/-! ### Validation (R343-R349, R160, R188, R376, R390, R400, R405) -/

/-- Read of a launch record, an image or a table: as IgRead. -/
abbrev IgM := Except IgRead

/-- Read n bytes of a context. -/
def State.ig (s : State) (tag : BitVec 12) (a n : Nat) : IgM Nat :=
  match s.iguanaRead (s.fnOf tag) false tag a n with | .ok x => .ok x | e => .error e

/-- Read a list of 64-bit words. -/
def State.igWords (s : State) (tag : BitVec 12) (a : Nat) : Nat → IgM (List Nat)
  | 0 => .ok []
  | n + 1 => do
    let x ← s.ig tag a 8
    let r ← s.igWords tag (a + 8) n
    pure (x :: r)

/-- Read bytes one by one. -/
def State.igBytes (s : State) (tag : BitVec 12) (a : Nat) : Nat → IgM (List Byte)
  | 0 => .ok []
  | n + 1 => do
    let x ← s.ig tag a 1
    let r ← s.igBytes tag (a + 1) n
    pure (BitVec.ofNat 8 x :: r)

/-- Level entries up to the highest that is not zero (R346). -/
def levelWords (ws : List Nat) : List Nat := (ws.reverse.dropWhile (· = 0)).reverse

/-- A level entry (R346). -/
def Level.of (w : Nat) : Level := { extent := w % 2 ^ 32, domain := bits w 35 32, scope := bits w 39 36 }

/-- A launch record from its 32 words (R345). -/
def LaunchRec.of (w : Nat → Nat) : LaunchRec where
  image := w 0
  fn := w 1 % 2 ^ 16
  ver := bits (w 1) 23 16
  flags := BitVec.ofNat 8 (bits (w 1) 31 24)
  budget := bits (w 1) 39 32
  prio := bits (w 1) 47 40
  parent := BitVec.ofNat 16 (bits (w 1) 63 48)
  args := BitVec.ofNat 64 (w 2)
  argBytes := w 3 % 2 ^ 32
  spad := w 3 / 2 ^ 32
  levels := (levelWords ((List.range 7).map fun j => w (4 + j))).map Level.of
  barriers := w 11 % 2 ^ 16
  tiles := bits (w 11) 23 16
  skew := bits (w 11) 31 24
  deps := (List.range 8).map fun j => (BitVec.ofNat 16 (w (12 + j / 4) / 2 ^ (16 * (j % 4)))).toInt
  tileTable := w 14
  nodeTable := w 15
  signal := w 16
  signalValue := BitVec.ofNat 64 (w 17)
  pubTable := w 18
  quantum := w 19 % 2 ^ 32
  barTimeout := w 19 / 2 ^ 32
  partMask := BitVec.ofNat 64 (w 20)
  startGtc := w 21
  owner := 0

/-- The fixed fields of a record hold zero (R345, R347). -/
def recordZeros (w : Nat → Nat) : Bool :=
  bits (w 1) 31 28 = 0 && w 11 / 2 ^ 32 = 0 && (List.range 10).all fun j => w (22 + j) = 0

/-- Legal budgets (R345). -/
def budgetOk (b : Nat) : Bool := b % 16 = 0 && 16 ≤ b && b ≤ 96

/-- What validation reads of an image (R348, R349). -/
structure ImageInfo where
  ok : Bool
  codeBase : Nat
  codeWords : Nat
  fnCount : Nat
  fnTable : Nat
  deriving DecidableEq, Repr

/-- Read an image's header (R348). DEDUCED (LOG 28): code 0x01 covers a code offset that is no multiple of 48, and neither a function
table's offset that is no multiple of 8 nor a nonzero byte at 0x18 to 0x3F, which the header lays down but R347 does not name. -/
def State.imageInfo (s : State) (tag : BitVec 12) (image : Nat) : IgM ImageInfo := do
  let a ← s.ig tag image 8
  let b ← s.ig tag (image + 8) 8
  let c ← s.ig tag (image + 16) 8
  let off := b / 2 ^ 32
  let base := image + off
  pure { ok := a % 2 ^ 32 = 0x4D584B49 && bits a 47 32 = 1 && image % 256 = 0 && off % 48 = 0 && base % 48 = 0
         codeBase := base, codeWords := c % 2 ^ 32, fnCount := a / 2 ^ 48, fnTable := image + c / 2 ^ 32 }

/-- A version of a function as validation needs it: present, its entry and declared budget, its entry legal (R347, R349). -/
def State.versionOf (s : State) (tag : BitVec 12) (im : ImageInfo) (f v : Nat) : IgM (Option (Nat × Nat)) :=
  if !im.ok || im.fnCount ≤ f || 7 < v then .ok none
  else do
    let a ← s.ig tag (im.fnTable + 128 * f + 16 * v) 8
    let e := a % 2 ^ 32
    pure (if bits a 40 40 = 1 && e < im.codeWords && e % 3 = 0 then some (e, bits a 39 32) else none)

/-- The present version slots of an image's function table (R349), by function and version. -/
def State.versionTable (s : State) (tag : BitVec 12) (im : ImageInfo) : Nat → IgM (List (Nat × Nat × VerSlot))
  | 0 => .ok []
  | k + 1 => do
    let r ← s.versionTable tag im k
    let at_ := im.fnTable + 16 * k
    let a ← s.ig tag at_ 8
    let b ← s.ig tag (at_ + 8) 8
    pure (if bits a 40 40 = 1 then r ++ [(k / 8, k % 8, VerSlot.of a b)] else r)

/-- The launch names two or more partitions (R374). -/
def LaunchRec.isGang (r : LaunchRec) : Bool := 2 ≤ ((List.range 64).filter fun p => r.partMask.getLsbD p).length

/-- Levels keep R343, R344, R346 and R400. -/
def LaunchRec.levelsOk (r : LaunchRec) (raw : List Nat) : Bool :=
  let ls := r.levels
  let adjacent := (ls.zip (ls.drop 1)).all fun p => p.1.domain ≤ p.2.domain
  let each := ls.all fun l => 1 ≤ l.extent && l.domain ≤ 6 && l.scope ≤ 5 && (if l.domain = 6 then 4 ≤ l.scope else l.domain ≤ l.scope)
  let paced := !r.flags.getLsbD 1 || (r.domain 2 = 1 && r.extent 2 ≤ 8)
  2 ≤ r.top && r.top ≤ 7 && raw.all (fun w => w / 2 ^ 40 = 0) && r.extent 1 ≤ 32 && r.domain 1 = 0 && adjacent && each &&
    r.total ≤ 2 ^ 32 && (!r.isGang || 4 ≤ r.domain r.top) && (r.domain 2 ≠ 1 || r.extent 2 ≤ 8) && paced

/-- A tile-buffer table entry from its two words, and whether it keeps R188. -/
def TileEntry.of (a b : Nat) : TileEntry × Bool :=
  let e : TileEntry := { base := a % 2 ^ 32, slotBytes := a / 2 ^ 32, count := b % 2 ^ 8, out := bits b 8 8 = 1 }
  (e, e.base % 64 = 0 && e.slotBytes % 64 = 0 && 64 ≤ e.slotBytes && e.slotBytes ≤ 65536 && 1 ≤ e.count && e.count ≤ 8 &&
    bits b 15 9 = 0 && b / 2 ^ 16 = 0)

/-- Two ranges overlap. -/
def meets (a b : Nat × Nat) : Bool := a.1 < b.1 + b.2 && b.1 < a.1 + a.2

/-- No two of these ranges overlap. -/
def disjoint : List (Nat × Nat) → Bool
  | [] => true
  | x :: r => r.all (fun y => !meets x y) && disjoint r

/-- The tile-buffer table of a launch, and whether it keeps R188 and R405. -/
def State.tileTable (s : State) (tag : BitVec 12) (r : LaunchRec) : IgM (List TileEntry × Bool) := do
  let ws ← s.igWords tag r.tileTable (if r.tiles ≤ 32 then 2 * r.tiles else 0)
  let es := (List.range r.tiles).map fun j => TileEntry.of (ws.getD (2 * j) 0) (ws.getD (2 * j + 1) 0)
  let ts := es.map Prod.fst
  let outs := (ts.filter TileEntry.out).map TileEntry.count
  let least := outs.foldl min (outs.headD 0)
  pure (ts, es.all Prod.snd && r.tiles ≤ 32 && disjoint (ts.map fun e => (e.base, e.slotBytes * e.count)) &&
    ts.all (fun e => e.base + e.slotBytes * e.count ≤ padUp r.spad) && (r.tiles = 0 || r.flags.getLsbD 1) &&
    (!r.flags.getLsbD 1 || r.skew = 0 || least ≤ r.skew + 1))

/-- Entries of the published-region table, at most `n`, up to the one that ends it, whose size is 0 (R160). -/
def State.regionEntries (s : State) (tag : BitVec 12) (at_ : Nat) : Nat → IgM (List (Nat × Nat))
  | 0 => .ok []
  | n + 1 => do
    let b ← s.ig tag (at_ + 8) 8
    if b = 0 then pure []
    else do
      let a ← s.ig tag at_ 8
      let r ← if b % 2 ^ 32 = 0 then pure [] else s.regionEntries tag (at_ + 16) n
      pure ((a, b) :: r)

/-- The published-region table, and whether it keeps R160. -/
def State.regionTable (s : State) (tag : BitVec 12) (r : LaunchRec) : IgM (List PubRegion × Bool) :=
  if r.pubTable = 0 then .ok ([], true)
  else do
    let es ← s.regionEntries tag r.pubTable 16
    let writable := fun (va : Nat) => match s.xlat tag va .store with | .ok m => m.size = 65536 && m.psel = 0 | _ => false
    let good := fun (e : Nat × Nat) => e.1 % 65536 = 0 && e.2 % 65536 = 0 && e.2 ≠ 0 && e.2 ≤ 2 ^ 22 &&
      (List.range (e.2 / 65536)).all fun j => writable (e.1 + 65536 * j)
    pure (es.map fun e => { base := e.1, size := e.2 }, es.all good && disjoint es)

/-- A node-table entry from its words (R390), with its version looked up, and whether it keeps its limits. -/
def State.nodeEntry (s : State) (tag : BitVec 12) (im : ImageInfo) (w : Nat → Nat) : IgM (NodeEntry × Bool) := do
  let v ← s.versionOf tag im (w 0 % 2 ^ 16) (bits (w 0) 23 16)
  let e : NodeEntry :=
    { fn := w 0 % 2 ^ 16, ver := bits (w 0) 23 16, budget := bits (w 0) 39 32, prio := bits (w 0) 47 40
      count := bits (w 0) 55 48, words := bits (w 0) 63 56, timer := w 1 % 2 ^ 32, spad := w 1 / 2 ^ 32
      entry := (v.map Prod.fst).getD 0 }
  pure (e, v.any (fun p => p.2 ≤ e.budget) && budgetOk e.budget && e.prio ≤ 3 && 1 ≤ e.count && e.count ≤ 64 &&
    1 ≤ e.words && e.words ≤ 8 && 1 ≤ e.timer && e.spad ≤ Config.spadBytes && bits (w 0) 31 24 = 0 && w 2 = 0 && w 3 = 0)

/-- Entries of a node table, from a table's words. -/
def State.nodeEntries (s : State) (tag : BitVec 12) (im : ImageInfo) (table : Nat) : Nat → Nat → IgM (List (NodeEntry × Bool))
  | 0, _ => .ok []
  | k + 1, j => do
    let ws ← s.igWords tag (table + 32 + 32 * j) 4
    let e ← s.nodeEntry tag im fun i => ws.getD i 0
    let r ← s.nodeEntries tag im table k (j + 1)
    pure (e :: r)

/-- The node table, and whether it keeps R390. -/
def State.nodeTable (s : State) (tag : BitVec 12) (im : ImageInfo) (r : LaunchRec) : IgM (List NodeEntry × Bool) :=
  if r.nodeTable = 0 then .ok ([], true)
  else do
    let h ← s.igWords tag r.nodeTable 4
    let n := h.headD 0 % 2 ^ 16
    let es ← s.nodeEntries tag im r.nodeTable n 0
    pure (es.map Prod.fst, n ≠ 0 && h.headD 0 / 2 ^ 16 = 0 && (h.drop 1).all (· = 0) && es.all Prod.snd)

/-! ### Placement units (R371-R374) -/

/-- Clusters ordered by free budget, most first, the lowest first on ties (R371). -/
def byFree (f : Nat → Nat) : Nat → List Nat → List Nat
  | 0, _ => []
  | k + 1, cs => match firstMax f cs with | none => [] | some c => c :: byFree f k (cs.filter (· ≠ c))

/-- Free budget of a cluster under some claims. -/
def claimsFree (cs : List Claim) (c : Nat) : Nat := ((List.range 8).map fun j => freeBudget cs (8 * c + j)).foldl (· + ·) 0

/-- Plan groups lo to lo + n - 1 in the first cluster that takes them. -/
def LaunchRec.planSome (r : LaunchRec) (cs : List Claim) (clusters : List Nat) (lo n : Nat) : Option (List Claim) :=
  (byFree (claimsFree cs) clusters.length clusters).findSome? fun c => r.planIn cs c [] (r.chunks lo n)

/-- Plan the pieces of a unit one after another. -/
def LaunchRec.planPieces (r : LaunchRec) (cs : List Claim) (clusters : List Nat) : List Claim → List (Nat × Nat) →
    Option (List Claim)
  | plan, [] => some plan
  | plan, p :: rest =>
    match r.planSome (cs ++ plan) clusters p.1 p.2 with | none => none | some q => r.planPieces cs clusters (plan ++ q) rest

/-- The pieces of unit u that go to Newts whole (R371). -/
def LaunchRec.pieces (r : LaunchRec) (u : Nat) : List (Nat × Nat) :=
  (List.range (r.unitSize / r.pieceSize)).map fun j => (u * r.unitSize + j * r.pieceSize, r.pieceSize)

/-- Plan a unit in a partition's clusters: within one die when its domain is die (R344, R371, R374). -/
def LaunchRec.planUnit (r : LaunchRec) (cs : List Claim) (clusters : List Nat) (u : Nat) : Option (List Claim) :=
  if r.domain r.unitLevel ≤ 1 then r.planSome cs clusters (u * r.unitSize) r.unitSize
  else ((clusters.map (· / 8)).dedup).findSome? fun d => r.planPieces cs (clusters.filter (· / 8 = d)) [] (r.pieces u)

/-- Plan units one after another. -/
def LaunchRec.planUnits (r : LaunchRec) (cs : List Claim) (clusters : List Nat) : List Claim → List Nat → Option (List Claim)
  | plan, [] => some plan
  | plan, u :: rest =>
    match r.planUnit (cs ++ plan) clusters u with | none => none | some q => r.planUnits cs clusters (plan ++ q) rest

/-- The units of each named partition of a gang launch: ⌊U/P⌋, and one more for the first U mod P (R374). -/
def LaunchRec.gangRanges (r : LaunchRec) : List (Nat × List Nat) :=
  let ps := (List.range 64).filter fun p => r.partMask.getLsbD p
  let u := r.unitCount
  let size := fun (j : Nat) => u / ps.length + (if j < u % ps.length then 1 else 0)
  ps.zipIdx.map fun p =>
    let lo := ((List.range p.2).map size).foldl (· + ·) 0
    (p.1, (List.range (size p.2)).map (lo + ·))

/-- Clusters of a partition. -/
def State.partClusters (s : State) (p : Nat) : List Nat := ((s.part p).map Partition.clusters).getD []

/-- Reserve every range of a gang (R374): the plan, or none when some partition cannot. -/
def State.gangPlan (s : State) (r : LaunchRec) (cs : List Claim) : Option (List Claim) :=
  let rec go : List Claim → List (Nat × List Nat) → Option (List Claim)
    | plan, [] => some plan
    | plan, x :: rest =>
      match r.planUnits (cs ++ plan) (s.partClusters x.1) [] x.2 with | none => none | some q => go (plan ++ q) rest
  go [] r.gangRanges

/-- Some partition's range exceeds its total capacity (R376). -/
def State.gangTooBig (s : State) (r : LaunchRec) : Bool :=
  r.gangRanges.any fun x => (r.planUnits [] (s.partClusters x.1) [] x.2).isNone

/-- The function is resident on every partition a task runs in (R462). -/
def State.resident (s : State) (fn : Nat) (parts : List Nat) : Bool :=
  (s.fns[fn]?).any fun v => parts.all fun p => v.res.getLsbD p

/-- Partitions of a launch of a function. -/
def State.partsOf (s : State) (fn : Nat) (r : LaunchRec) : List Nat :=
  if r.partMask = 0 then [s.firstPart fn] else (List.range 64).filter fun p => r.partMask.getLsbD p

/-- Dies that hold clusters of a task's partitions, ascending (R371). -/
def State.taskDies (s : State) (t : Task) : List Nat :=
  (List.range 8).filter fun d => (s.taskClusters t).any (· / 8 = d)

/-- Hand the units of a task to the distributors: chunk c to die D[c mod |D|] (R371). -/
def State.handOut (s : State) (t : Task) : State :=
  let ds := s.taskDies t
  let home := fun (u : Nat) => ds.getD (u / 8 % ds.length) 0
  let give := fun (x : State) (d : Nat) =>
    x.onDie d fun k => { k with units := k.units ++ (t.units.filter fun u => home u = d).map fun u => (t.tid, u) }
  ((ds.foldl give s).onTask t.tid fun k => { k with handed := true }).post (ds.map fun d => .unitHandout d)

/-! ### CMD_LAUNCH (R368) -/

/-- Everything validation found of a launch. -/
structure Validated where
  code : Nat
  entry : Nat
  image : ImageInfo
  tiles : List TileEntry
  nodes : List NodeEntry
  regions : List PubRegion
  versions : List (Nat × Nat × VerSlot)
  deriving DecidableEq, Repr

/-- The checks of R347 in the order of their codes; 0 accepts. DESIGN CHOICE (LOG 28): every table is read before any check, so that
one that cannot be read holds or fails the launch whatever lower code another check gives; a launch of a function bound to no
partition fails code 0x07, with mask 0 too. -/
def State.validate (s : State) (fn : Nat) (c : Context) (r : LaunchRec) (w : Nat → Nat) : IgM Validated := do
  let im ← s.imageInfo c.tag r.image
  let v ← s.versionOf c.tag im r.fn r.ver
  let tt ← s.tileTable c.tag r
  let rt ← s.regionTable c.tag r
  let nt ← s.nodeTable c.tag im r
  let vt ← s.versionTable c.tag im (if im.ok then 8 * im.fnCount else 0)
  let parts := ((s.fns[fn]?).map VirtFn.parts).getD 0
  let checks : List (Nat × Bool) :=
    [(1, v.isSome),
     (2, budgetOk r.budget && v.all fun p => p.2 ≤ r.budget),
     (3, r.prio ≤ 3 && recordZeros w && r.signal % 8 = 0),
     (4, r.levelsOk ((List.range 7).map fun j => w (4 + j))),
     (5, r.extent 1 * r.budget ≤ Config.budgetSum && r.spad ≤ Config.spadBytes && r.barriers ≤ Config.barriers && tt.2),
     (6, rt.2),
     (7, r.partMask &&& ~~~parts = 0 && parts ≠ 0),
     (8, nt.2),
     (9, !r.isGang || !s.gangTooBig r),
     (10, c.scopeHeld r.parent || r.parent = 0)]
  pure { code := ((checks.find? fun x => !x.2).map Prod.fst).getD 0, entry := (v.map Prod.fst).getD 0, image := im
         tiles := tt.1, nodes := nt.1, regions := rt.1, versions := vt }

/-- Addresses of the words that validation reads (R345, R347): record, image header, function table, tile, region and node tables. -/
def Validated.reads (x : Validated) (r : LaunchRec) (va : Nat) : List Nat :=
  let words := fun (a n : Nat) => (List.range n).map fun j => a + 8 * j
  words va 32 ++ words r.image 3 ++ words x.image.fnTable (if x.image.ok then 16 * x.image.fnCount else 0) ++
    words r.tileTable (2 * x.tiles.length) ++ (if r.pubTable = 0 then [] else words r.pubTable (2 * min 16 (x.regions.length + 1))) ++
    (if r.nodeTable = 0 then [] else words r.nodeTable (4 + 4 * x.nodes.length))

/-- Copy a range of bytes and descriptors. -/
def State.copyRange (s : State) (src dst len : Nat) : State :=
  let hit := fun (k : Nat) => src ≤ k && k < src + len
  let clear := fun (k : Nat) => dst ≤ k && k < dst + len
  { s with
    mem := (s.mem.filter fun c => hit c.1).foldl (fun m c => writeByte m (c.1 - src + dst) c.2) (s.mem.filter fun c => !clear c.1)
    lines := (s.lines.filter fun c => hit c.1).foldl (fun l c => storeWrite lineDefault l (c.1 - src + dst) c.2)
      (s.lines.filter fun c => !clear c.1) }

/-- The monitor gives a page of a published region its shadow, a copy of the front, and sets PSEL 2 (R160, R69). -/
def State.publishPage (s : State) (tag : BitVec 12) (va : Nat) : State :=
  match s.xlat tag va .load with
  | .ok m => (s.copyRange m.frame (m.frame + m.size) m.size).putHost m.pte [readByte s.mem m.pte ||| 0x80#8]
  | _ => s

/-- Every page of a list of regions. -/
def State.publish (s : State) (tag : BitVec 12) (rs : List PubRegion) : State :=
  rs.foldl (fun u r => (List.range (r.size / 65536)).foldl (fun u j => u.publishPage tag (r.base + 65536 * j)) u) s

/-- The task's scope (R415): a new child of the parent, or the parent itself at depth 15 or when no ID is free. -/
def Context.taskScope (c : Context) (parent : BitVec 16) : Option (BitVec 16) :=
  if (c.scope parent).all fun x => x.depth < 15 then c.freeScope else none

/-- Partitions of a gang that cannot reserve their range now (R374). -/
def State.gangFails (s : State) (r : LaunchRec) : List Nat :=
  (r.gangRanges.filter fun x => (r.planUnits s.claims (s.partClusters x.1) [] x.2).isNone).map Prod.fst

/-- Try to reserve and commit a gang (R374, R375): the groups are placed and held until T. -/
def State.gangTry (s : State) (tid : Nat) : State :=
  match s.task tid with
  | none => s
  | some t =>
    match s.gangPlan t.lrec s.claims with
    | some plan =>
      let at_ := max t.lrec.startGtc (s.gtc.toNat + 1000)
      ((s.placePlan t plan).onTask tid fun t => { t with gang := .committed at_, handed := true }).setStatus t 1
    | none => (s.onTask tid fun t => { t with gang := .rolledBack (s.gangFails t.lrec) }).setStatus t 3

/-- The policy image's highest priority lowers any larger field (R478). -/
def State.policyPrio (s : State) (fn prio : Nat) : Nat :=
  match (s.fns[fn]?).bind VirtFn.policy with | some p => max prio p.maxPrio | none => prio

/-- An accepted launch becomes a task (R12, R345, R350, R415). -/
def State.newTask (s : State) (fn q : Nat) (c : Context) (r : LaunchRec) (va : Nat) (x : Validated) : Task :=
  let k := s.queue fn q
  { tid := s.fresh + 1, tag := c.tag, fn := fn, queue := q, cmd := k.head, cmdHost := k.host, cmdAddr := k.slot k.head
    part := (s.partsOf fn r).headD 0, recVA := va
    lrec := { r with prio := s.policyPrio fn r.prio, owner := s.fresh + 1 }
    codeBase := x.image.codeBase, codeWords := x.image.codeWords, fnCount := x.image.fnCount, fnTable := x.image.fnTable
    versions := x.versions
    entry := x.entry, nodes := x.nodes.map fun n => { n with prio := s.policyPrio fn n.prio }, tiles := x.tiles
    scope := (c.taskScope r.parent).getD r.parent, ownScope := (c.taskScope r.parent).isSome
    units := List.range r.unitCount, handed := false, gang := .none, regions := x.regions
    sent := 0, recv := 0, sample := none, binSheaves := 0, exhausted := false, round := 0, gathered := [], cutting := [], checkpointEvery := 0, pages := []
    deadline := none, ask := none, ended := false }

/-- A launch that passed validation starts (R368, R371, R373, R374, R415-R417). -/
def State.launch (s : State) (fn q : Nat) (c : Context) (r : LaunchRec) (va : Nat) (x : Validated) : State :=
  let t := s.newTask fn q c r va x
  let s2 := (s.take fn q c fun w => [w.at 2 [1]]).publish c.tag t.regions
  let s3 := { s2 with fresh := s.fresh + 1, tasks := s2.tasks ++ [t] }
  let s4 := if t.ownScope then s3.onContext c.tag fun c => c.openScope t.scope r.parent true else s3
  let s5 :=
    if (s4.context c.tag).any fun c => c.cancelled t.scope then
      ((s4.countDropped c.tag t.scope t.tid 1).onTask t.tid fun t => { t with units := [] }).post
        [if t.nodes = [] then .taskEnd t.tid else .graphEndSample t.tid]
    else if r.isGang then s4.gangTry t.tid
    else if t.lrec.startGtc ≤ s.gtc.toNat then s4.handOut t
    else s4
  s5.queueGo fn q

/-- CMD_LAUNCH (R345, R347, R367, R368). It waits while its function is not resident on a partition it names (R462). -/
def execCmdLaunch (fn q : Nat) (s : State) : Out :=
  .next (s.command fn q (· = 1) fun s c k =>
    match s.igWords c.tag k.addr 32 with
    | .error e => s.readFails fn q c e
    | .ok ws =>
      let w := fun j => ws.getD j 0
      let r := LaunchRec.of w
      match s.validate fn c r w with
      | .error e => s.readFails fn q c e
      | .ok x =>
        let s := s.igCorrect c.tag (x.reads r k.addr)
        if x.code ≠ 0 then s.takeDone fn q c (0x80 + x.code)
        else if !s.resident fn (s.partsOf fn r) then s
        else s.launch fn q c r k.addr x)

/-- START_GTC_REACHED (R373). -/
def execStartGtcReached (tid : Nat) (s : State) : Out :=
  .next (match s.task tid with
    | some t => if !t.handed && t.gang = .none && t.units ≠ [] && t.lrec.startGtc ≤ s.gtc.toNat then s.handOut t else s
    | none => s)

/-- The gang could not reserve, and waits to try again (R374). -/
def Gang.waits : Gang → Bool | .rolledBack _ => true | _ => false

/-- GANG_RETRY (R374). -/
def execGangRetry (tid : Nat) (s : State) : Out :=
  .next (match s.task tid with
    | some t => if t.gang.waits && t.units ≠ [] && s.resident t.fn (s.partsOf t.fn t.lrec) then s.gangTry tid else s
    | none => s)

/-- GANG_START (R375). -/
def execGangStart (tid : Nat) (s : State) : Out :=
  .next (match s.task tid with
    | some t =>
      (match t.gang with
        | .committed at_ => if at_ ≤ s.gtc.toNat then s.onTask tid fun t => { t with gang := .started } else s
        | _ => s)
    | none => s)

/-! ### Distributors (R371, R372) -/

/-- The task's function is resident, so its units may move on (R463). -/
def State.taskRuns (s : State) (tid : Nat) : Bool :=
  (s.task tid).any fun t => s.resident t.fn (s.partsOf t.fn t.lrec)

/-- A Newt of the die that holds no unplaced unit: of the task's clusters, the one with the most free budget (R371). -/
def State.newtFor (s : State) (die : Nat) (t : Task) : Option Nat :=
  let idle := fun (c : Nat) => (s.clusters[c]?).any fun k => k.newt.all fun j => match j with | .groups _ _ _ => false | _ => true
  firstMax s.clusterFree ((s.taskClusters t).filter fun c => c / 8 = die && idle c)

/-- Give some groups to a Newt. -/
def State.giveNewt (s : State) (c tid lo n : Nat) : State :=
  (s.onCluster c fun k => { k with newt := k.newt ++ [.groups tid lo n] }).post [.groupPlacement c]

/-- UNIT_HANDOUT: the distributor's next piece or unit goes to a Newt (R371). DESIGN CHOICE (LOG 24): among the units of several
launches, whose order the spec leaves open, the first in its list whose task runs comes next, and the others wait behind it. -/
def execUnitHandout (die : Nat) (s : State) : Out :=
  .next (match s.dies[die]? with
    | none => s
    | some d =>
      match d.pieces.find? fun p => s.taskRuns p.1 with
      | some (tid, lo, n) =>
        (match (s.task tid).bind fun t => s.newtFor die t with
          | none => s
          | some c => ((s.onDie die fun k => { k with pieces := k.pieces.erase (tid, lo, n) }).giveNewt c tid lo n).post
              [.unitHandout die])
      | none =>
        match d.units.find? fun u => s.taskRuns u.1 with
        | none => if d.units = [] then s.post [.unitSteal die] else s
        | some (tid, u) =>
          match s.task tid with
          | none => s.onDie die fun k => { k with units := k.units.erase (tid, u) }
          | some t =>
            let r := t.lrec
            if 2 ≤ r.domain r.unitLevel then
              (s.onDie die fun k => { k with units := k.units.erase (tid, u)
                                             pieces := k.pieces ++ (r.pieces u).map fun p => (tid, p.1, p.2) }).post
                [.unitHandout die]
            else
              match s.newtFor die t with
              | none => s
              | some c =>
                ((s.onDie die fun k => { k with units := k.units.erase (tid, u) }).giveNewt c tid (u * r.unitSize)
                  r.unitSize).post [.unitHandout die])

/-- Units of a die that another die may run. -/
def State.stealable (s : State) (thief : Nat) (d : Nat) : List (Nat × Nat) :=
  (((s.dies[d]?).map Die.units).getD []).filter fun u => (s.task u.1).any fun t => (s.taskDies t).contains thief

/-- UNIT_STEAL (R372): the top half of the units of the die that holds the most. -/
def execUnitSteal (die : Nat) (s : State) : Out :=
  .next (if ((s.dies[die]?).map Die.units) ≠ some [] then s
    else
      match firstMax (fun d => (s.stealable die d).length) ((List.range 8).filter (· ≠ die)) with
      | none => s
      | some d =>
        let us := s.stealable die d
        if us.length < 2 then s
        else
          let top := us.drop (us.length - us.length / 2)
          ((s.onDie d fun k => { k with units := k.units.filter fun u => !top.contains u }).onDie die fun k =>
            { k with units := k.units ++ top }).post [.unitHandout die])

/-! ### Newts (R377, R378) -/

/-- Priority of a job. -/
def State.jobPrio (s : State) (j : Job) : Nat :=
  match j with
  | .groups tid _ _ => ((s.task tid).map fun t => t.lrec.prio).getD 3
  | .set _ tid node _ => (((s.task tid).bind fun t => t.nodes[node]?).map NodeEntry.prio).getD 3

/-- Groups that a unit of priority p may pre-empt on a core: lowest priority first, then the one placed last (R378). -/
def State.candidates (s : State) (core p : Nat) (gone : List Nat) : List Group :=
  let gs := (s.groups.filter fun g => g.core = core && !g.freed && !g.saved && p < g.prio && !gone.contains g.gid).reverse
  [3, 2, 1, 0].flatMap fun k => gs.filter fun g => g.prio = k

/-- Victims on one core, each with its whole group, as few from the front as make the chunk fit (R378). -/
def State.victimsOn (s : State) (cs plan : List Claim) (gone : List Nat) (core : Nat) (k : List (Nat × Need)) :
    List Group → List (List Nat) → Option (List (List Nat) × List Claim)
  | gs, taken =>
    let out := gone ++ taken.flatten
    match fitAll ((cs.filter fun c => !out.contains c.gid || c.gid = 0) ++ plan) core k with
    | some q => some (taken, q)
    | none =>
      match gs with
      | [] => none
      | g :: rest =>
        if out.contains g.gid then s.victimsOn cs plan gone core k rest taken
        else s.victimsOn cs plan gone core k rest (taken ++ [(s.whole g).map Group.gid])

/-- The cores a level-1 group of a unit may go to: the one its core-domain group has already (R378). -/
def LaunchRec.coresOf (r : LaunchRec) (plan : List Claim) (cluster i : Nat) : List Nat :=
  match plan.find? fun p => p.idx / r.coreSize = i / r.coreSize with
  | some p => [p.core]
  | none => r.coresFor plan cluster i

/-- Plan a unit with victims, one level-1 group at a time in index order (R378): the groups to pre-empt, or none. -/
def State.planVictims (s : State) (r : LaunchRec) (cs : List Claim) (cluster p : Nat) :
    List Claim → List Nat → List (Nat × Need) → Option (List Nat)
  | _, gone, [] => some gone
  | plan, gone, k :: rest =>
    let opts := (r.coresOf plan cluster k.1).filterMap fun c => s.victimsOn cs plan gone c [k] (s.candidates c p gone) []
    match firstMax (fun (o : List (List Nat) × List Claim) => 1000 - o.1.length) opts with
    | none => none
    | some o => s.planVictims r cs cluster p (plan ++ o.2) (gone ++ o.1.flatten) rest

/-- The chunks of a job, and the shape that constrains its cores. -/
def State.jobChunks (s : State) (j : Job) : Option (LaunchRec × List (List (Nat × Need))) :=
  match j with
  | .groups tid lo n => (s.task tid).map fun t => (t.lrec, t.lrec.chunks lo n)
  | .set _ tid node _ =>
    (s.task tid).bind fun t => (t.nodes[node]?).map fun e => (LaunchRec.zero, [[(0, t.nodeNeed e)]])

/-- Place a job's plan. -/
def State.placeJob (s : State) (j : Job) (plan : List Claim) : State :=
  match j with
  | .groups tid _ _ => match s.task tid with | some t => s.placePlan t plan | none => s
  | .set die tid node num =>
    match s.task tid with
    | none => s
    | some t =>
      match t.nodes[node]?, (s.bin die tid node).closed.find? (·.number = num), plan with
      | some e, some x, c :: _ =>
        (s.onBin die tid node fun b => { b with closed := b.closed.filter (·.number ≠ num) }).placeSet t e node x c
      | _, _, _ => s

/-- A job whose set has been discarded (R417), or whose task is gone, is no job. -/
def State.jobStands (s : State) (j : Job) : Bool :=
  match j with
  | .groups tid _ _ => (s.task tid).isSome
  | .set die tid node num => (s.bin die tid node).closed.any (·.number = num)

/-- What a Newt does with its jobs in turn: places the first that fits, or pre-empts for the first that can (R377, R378). -/
def State.serve (s : State) (cluster : Nat) : List Job → State
  | [] => s
  | j :: rest =>
    match s.jobChunks j with
    | none => s.serve cluster rest
    | some (r, ks) =>
      match r.planIn s.claims cluster [] ks with
      | some plan =>
        let drop := fun (k : Cluster) => { k with newt := k.newt.erase j }
        ((s.onCluster cluster drop).placeJob j plan).post [.groupPlacement cluster, .unitHandout (cluster / 8)]
      | none =>
        match s.planVictims r s.claims cluster (s.jobPrio j) [] [] ks.flatten with
        | some (v :: vs) => s.post (((v :: vs).dedup.map fun g => .preemption g) ++ [.groupPlacement cluster])
        | _ => s.serve cluster rest

/-- GROUP_PLACEMENT: the Newt serves its queue by priority, then by arrival (R377). -/
def execGroupPlacement (cluster : Nat) (s : State) : Out :=
  .next (match s.clusters[cluster]? with
    | none => s
    | some k =>
      let js := k.newt.filter s.jobStands
      let s1 := s.onCluster cluster fun k => { k with newt := js }
      s1.serve cluster ([0, 1, 2, 3].flatMap fun p => js.filter fun j => s.jobPrio j = p && (match j with
        | .groups tid _ _ => s.taskRuns tid | .set _ tid _ _ => s.taskRuns tid)))

/-! ### Pre-emption and restoration (R450, R454) -/

/-- PREEMPTION: a group and every group that goes with it is drained and saved (R450, R409). -/
def execPreemption (gid : Nat) (s : State) : Out :=
  .next (match s.group gid with
    | none => s
    | some g =>
      let gs := s.whole g
      if g.saved || g.freed || gs.any (fun k => (s.members k.gid).any s.drainWaits) then s
      else gs.foldl (fun t k => (t.saveGroup k.gid).roomFreed k.core) s)

/-- The clusters where a saved group may return, in the order they are asked (R454). -/
def State.returnClusters (s : State) (g : Group) : List Nat :=
  match s.task g.task with
  | none => []
  | some t =>
    let r := t.lrec
    let own := g.core / 8
    let all := s.taskClusters t
    let m := r.levelWithin 1
    -- a bin's group, or one saved with its whole launch, returns to any cluster of the launch's partitions
    let d := if g.fromBin then 6 else if r.top ≤ m then 6 else r.domain (m + 1)
    let first := if all.contains own then [own] else []
    let sameDie := all.filter fun c => c ≠ own && c / 8 = own / 8
    let others := all.filter fun c => c / 8 ≠ own / 8
    if d ≤ 1 then first else if d = 2 then first ++ sameDie else first ++ sameDie ++ others

/-- The groups of a saved whole as chunks: one core each. -/
def State.savedChunks (s : State) (r : LaunchRec) (gs : List Group) : List (List (Nat × Need)) :=
  let one := fun (g : Group) => (r.index g.gi, (s.claimOf g).need)
  let keys := (gs.map fun g => r.index g.gi / r.coreSize).dedup
  keys.map fun k => (gs.filter fun g => r.index g.gi / r.coreSize = k).map one

/-- Restore the groups of a whole as planned. -/
def State.restorePlan (s : State) (r : LaunchRec) (gs : List Group) (plan : List Claim) : State :=
  let t := gs.foldl (fun t g =>
    match plan.find? fun c => c.idx = r.index g.gi with
    | some c => t.restoreAt g.gid c.core c.base
    | none => t) s
  let u := t.reregister (gs.map Group.gid)
  match gs with | [] => u | g :: _ => u.postAdvance g.gid

/-- The group lies in a shadow-store slot (R465). -/
def State.inShadow (s : State) (gid : Nat) : Bool :=
  s.dies.toList.any fun d => d.slots.toList.any fun x => x.any fun h => h.groups.contains gid

/-- The plan of a saved whole's return, where the cores' scoreboards take its entries too (R193, R454). -/
def State.returnPlan (s : State) (r : LaunchRec) (gs : List Group) (ks : List (List (Nat × Need))) (cluster : Nat) :
    Option (List Claim) :=
  (r.planIn s.claims cluster [] ks).filter fun plan => s.entriesFit (plan.filterMap fun c =>
    (gs.find? fun g => r.index g.gi = c.idx).map fun g => (g.gid, c.core))

/-- The launch record that shapes a saved group's return. -/
def State.returnShape (s : State) (g : Group) : LaunchRec :=
  if g.fromBin then LaunchRec.zero else ((s.task g.task).map Task.lrec).getD LaunchRec.zero

/-- A saved group waits for entries of a scoreboard, and has them now (R193). -/
def State.entriesFreed (s : State) (g : Group) : Bool :=
  g.saved && !g.freed && s.groupEntries g.gid ≠ [] && !s.inShadow g.gid && s.taskRuns g.task &&
    (let r := s.returnShape g
     let gs := (s.whole g).filter Group.saved
     (s.returnClusters g).any fun c => (s.returnPlan r gs (s.savedChunks r gs) c).isSome)

/-- GROUP_RESTORE: a saved group returns within its unit, or pre-empts at its own priority, or waits (R454). -/
def execGroupRestore (gid : Nat) (s : State) : Out :=
  .next (match s.group gid with
    | none => s
    | some g =>
      if !g.saved || g.freed || s.inShadow gid || !s.taskRuns g.task then s
      else
        let r := s.returnShape g
        let gs := (s.whole g).filter Group.saved
        let ks := s.savedChunks r gs
        let cs := s.returnClusters g
        match cs.findSome? (s.returnPlan r gs ks) with
        | some plan => s.restorePlan r gs plan
        | none =>
          match cs.findSome? fun c => match s.planVictims r s.claims c g.prio [] [] ks.flatten with | some (v :: vs) => some (v :: vs) | _ => none with
          | some vs => s.post ((vs.dedup.map fun v => .preemption v) ++ [.groupRestore gid])
          | none => s)

end Sys2Proof.Machine
end

