-- ==== Sys2Proof/Machine/Deliver.lean ====
section
/-!
DEFINITION. What reaches a sheaf or a line from outside the instruction stream: deliveries (R120, R132, R140), wakes (R174,
R363), resolved faults and migration (R74, R75, R82-R84), host, monitor and peer writes (R7, R66, R86), scrubbing (R88-R90),
trap entry, debugging and context ends (R441-R447).
-/

namespace Sys2Proof.Machine

open Sys2Proof

/-! ### Deliveries and wakes -/

/-- LOAD_DELIVERY: load k of a sheaf arrives (R140). -/
def execLoadDelivery (uid k : Nat) (s : State) : Out :=
  .next (s.onSheaf uid fun h => if h.life = .live then h.deliver k else h)

/-- ATOMIC_AT_HOME: an atomic is performed indivisibly at its line's port (R132); a line in error is contained (R90). -/
def execAtomicAtHome (tag : BitVec 12) (key : Nat) (op : BitVec 4) (operand : BitVec 128) (s : State) : Out :=
  .next (s.atomLands tag 0 none key op operand none 0 0)

/-- The lanes a peer or the host turned away leave the load, or the returning atomic, that waits for them (R120). -/
def Sheaf.rejectLanes (h : Sheaf) (word : Word) (dest : BitVec 9) (lanes : DWord) : Sheaf :=
  let is := fun (l : PendLoad) =>
    l.word = word && (l.remote || (l.atomic && l.waits = 0)) && (l.dest.head?.map Prod.fst) = some dest.toNat
  match h.loads.findIdx? is with
  | none => h
  | some k => { h with loads := h.loads.modify k fun l => { l with em := l.em &&& ~~~lanes } }

/-- The write of a word that a rejection of these lanes names: one whose lanes were turned away as they left, else the oldest. -/
def Sheaf.farHit (h : Sheaf) (word : Word) (dest : BitVec 9) (lanes : DWord) : Option Nat :=
  let of := fun (sent : Bool) (f : FarWrite) => f.word = word && f.dest = dest &&
    f.lanes.any fun l => lanes.getLsbD l.1 && (sent || l.2.2.2 = [])
  (h.far.findIdx? (of false)).orElse fun _ => h.far.findIdx? (of true)

/-- A rejected lane of a write has no effect: what it left in host or peer memory is taken back (R120). -/
def State.rejectFar (s : State) (uid : Nat) (word : Word) (dest : BitVec 9) (lanes : DWord) : State :=
  match (s.sheaf uid).bind fun h => (h.farHit word dest lanes).bind fun k => (h.far[k]?).map fun f => (k, f) with
  | none => s
  | some (k, f) =>
    (s.undoFar (f.lanes.filter fun l => lanes.getLsbD l.1)).onSheaf uid fun h =>
      { h with far := h.far.modify k fun f => { f with lanes := f.lanes.filter fun l => !lanes.getLsbD l.1 } }

/-- PEER_HOST_REJECTION: an asynchronous PROT of the named lanes, which have no effect (R120, R441); a request of a CPY stops its
batch, which the low bits of `dest` name (R150). -/
def execPeerHostRejection (uid : Nat) (word : Word) (dest : BitVec 9) (lanes : DWord) (s : State) : Out :=
  .next (if fMaj word = 0x37 then s.as uid fun s => s.rejectBatch (dest.setWidth 8)
    else (s.rejectFar uid word dest lanes).onSheaf uid fun h =>
      if h.life = .live then (h.rejectLanes word dest lanes).pendAsync .prot lanes (lateAux word dest) else h)

/-- SLEEPB_WAKE: the GTC has reached the promise of a SLEEPB (R174). -/
def execSleepbWake (uid : Nat) (s : State) : Out :=
  .next (s.as uid fun s =>
    match s.sh.wait.map WaitState.instr with
    | some (.sleepb a ev) =>
      let p := s.sh.rd.getS a
      if s.mayWake && promiseTime s.gtc p ≤ (s.gtc.toNat : Int) then s.sleepbTest (.sleepb a ev) p ev else s
    | _ => s)

/-- SLEEP_WAKE: the GTC has reached a SLEEP's deadline (R363). -/
def execSleepWake (uid : Nat) (s : State) : Out :=
  .next (s.as uid fun s =>
    match s.sh.wait.map WaitState.instr, s.token with
    | some (.sleep _), some t => if s.mayWake && t ≤ s.gtc.toNat then s.unhold else s
    | _, _ => s)

/-! ### Translation faults and migration -/

/-- A sheaf of the context learns of a page (R74, R446): it replays once no page is left, or knows the page for bad. -/
def Sheaf.resolve (h : Sheaf) (page : Nat) (ok : Bool) : Sheaf :=
  if h.parked.any fun p => p.1.toNat / 65536 = page then
    { h with parked := h.parked.filter fun p => p.1.toNat / 65536 ≠ page
             badPages := if ok then h.badPages else h.badPages ++ [BitVec.ofNat 64 (page * 65536)] }
  else h

/-- A paused batch goes on, or DESIGN CHOICE (LOG 27) ends as a protection failure (R74, R150, R162). -/
def State.resolveBatch (s : State) (page : Nat) (ok shut : Bool) (b : Batch) : State :=
  if b.prog.paused ≠ some page then s
  else
    let c := { b with prog := { b.prog with paused := none } }
    if ok then s.setBatch shut c else (s.retireDone (c.stopAt 0 0 3)).setBatch shut (c.stopAt 0 0 3)

/-- The batches of the sheaf in the issue slot learn of a page, the open one too (R74). -/
def State.resolveCopies (s : State) (page : Nat) (ok : Bool) : State :=
  s.sh.batches.foldl (fun t b => t.resolveBatch page ok true b) (s.resolveBatch page ok false s.sh.openBatch)

/-- The collective ring of a function holds descriptors that the hub has not taken: it looks again (R486). -/
def State.ringAgain (s : State) (fn : Nat) : List Event :=
  match s.fns[fn]? with
  | some v => if v.cq.cfg.getLsbD 0 && v.cq.head ≠ v.cq.tail then [.cqnotifyWrite fn v.cq.tail] else []
  | none => []

/-- Work that may go on once memory of a context has changed: its queues, tasks, saved groups, Newts and collective ring. -/
def State.stirContext (s : State) (tag : BitVec 12) : State :=
  (s.queuesGo tag).post (s.ringAgain (s.fnOf tag) ++ (s.tasks.filter fun t => t.tag = tag && !t.ended).map (fun t => .taskEnd t.tid) ++
    (s.held.filter fun h => h.command.tag = tag).map (fun h => .waitConditionMet h.command.fn h.command.queue) ++
    (s.groups.filter fun g => g.saved && !g.freed).map fun g => .groupRestore g.gid)

/-- FAULT_RESOLVED: the driver reports a page resolved, or unresolvable (R74, R446). An access of Iguana waits until the page is
resolved (R515). -/
def execFaultResolved (tag : BitVec 12) (va : DWord) (ok : Bool) (s : State) : Out :=
  .next (
    let page := va.toNat / 65536
    let mine := (s.sheaves.filter fun h => s.tagOf h = tag).map Sheaf.uid
    let s1 := mine.foldl (fun t u => t.as u fun x => (x.upd fun h => h.resolve page ok).resolveCopies page ok) s
    if ok then ((s1.onContext tag fun c => { c with iguana := c.iguana.filter (· ≠ page) }).igPump).stirContext tag else s1)

/-- An address lies in a range. -/
def inSpan (lo len va : Nat) : Bool := lo ≤ va && va < lo + len

/-- Accesses translated before and not performed yet name a range of a context (R75): buffered stores, deferred operations, and
decrements on their way. -/
def State.oldAccess (s : State) (i : BitVec 12 × Nat × Nat) : Bool :=
  let hit := inSpan i.2.1 i.2.2
  let buffered := fun (w : BufWrite) => match w with | .bytes va _ _ _ _ | .desc va _ _ _ => va.any hit | .batch _ => false
  let deferred := fun (d : Deferred) => match d with
    | .atomic va _ _ _ _ _ _ | .signal va _ _ _ _ => va.any hit
    | .depdec va _ _ => hit va.toNat
    | _ => false
  (s.sheaves.any fun h => s.tagOf h = i.1 && (h.buf.any buffered || h.defer.any deferred)) ||
    s.agenda.any fun e => match e with | .dependenceDecrement tag _ x _ _ => tag = i.1 && hit x.va.toNat | _ => false

/-- PAGE_INVALIDATION (R75): the caches drop the pages, and every access after it uses the new entry, which the table holds (LOG 12);
it is complete once the accesses translated before are performed. -/
def execPageInvalidation (tag : BitVec 12) (va : DWord) (len : Nat) (s : State) : Out :=
  .next (
    let t := s.dropTlb tag va.toNat len
    if s.oldAccess (tag, va.toNat, len) then { t with invalids := s.invalids ++ [(tag, va.toNat, len)] } else t)

/-- MIGRATION_COPY: lines with descriptors and owners go to the new frame, and a read of a line with a parked write waits from the
page's new entry on (R82); an error the code corrects is corrected (R89),
and an uncorrectable one leaves the new line cleared and unowned (R90). -/
def execMigrationCopy (oldKey newKey len : Nat) (s : State) : Out :=
  .next (
    let bad := s.badIn oldKey len
    let s0 := s.correct ((s.weak.map Prod.fst).filter (inSpan oldKey len))
    let moved := s0.copyRange oldKey newKey len
    let s1 : State := { moved with badLines := s0.badLines.filter (fun k => !inSpan newKey len k)
                                   moves := s0.moves ++ [(oldKey, newKey, len)] }
    bad.foldl (fun t k => (t.clearRange 0 (k - oldKey + newKey) 64).containError k) s1)

/-- Where a parked operation is performed (R82, R83): in its page as it is mapped now, an engine write in the copy that engine
writes reach (R161), else in the frame it was parked for. -/
def State.replayKey (s : State) (w : ParkedWrite) (va : Nat) : Nat :=
  match s.xlat w.tag va (if w.batch.isSome then .copyDst else .load) with
  | .ok m => (s.reach w.tag true m.key).getD m.key
  | _ => w.frame + (va - w.page)

/-- Perform one operation of a parked line, with its writer's trace (R83, R494); a partial write that meets an error is not made,
and a sheaf's word is told (R90). -/
def State.replayOp (w : ParkedWrite) (s : State) (o : ParkedOp) : State :=
  match o with
  | .bytes va bs whole src =>
    let k := s.replayKey w va
    let t := match src with
      | some x => s.landFrom w.tag w.sheaf x k bs whole
      | none => s.land w.tag k bs whole
    if w.sheaf = 0 || s.cutOff k || (s.lineBad k && !whole) then t else t.as w.sheaf fun u => u.traceMine s.mem va k bs
  | .desc va d src =>
    match src with
    | some x => s.landDescFrom w.tag w.sheaf x (s.replayKey w va) d
    | none => s.landDesc w.tag (s.replayKey w va) d
  | .atom va op operand ret lane word => s.atomLands w.tag w.sheaf (some va) (s.replayKey w va) op operand ret lane word
  | .signal va op x word => s.signalLands w.tag w.sheaf (some va) (s.replayKey w va) op x word
  | .count va page lines remote who => s.bumpCounts (s.replayKey w va) page lines remote who
  | .depdec va _ scope =>
    match s.decrementAt w.tag va (s.replayKey w va) scope w.sheaf with
    | (t, none) => t
    | (t, some x) => t.sendRecord (((t.sheaf w.sheaf).map Sheaf.task).getD 0) x

/-- Perform what the copy engine parked on a line, in order; where a partial write meets an error the batch stops (R162). `k` is where
the line stood among those parked. -/
def State.replayCopy (w : ParkedWrite) (k : Nat) (s : State) : List ParkedOp → State
  | [] => s
  | .bytes va bs whole src :: r =>
    if s.lineBad (s.replayKey w va) && !whole then s.failParked { w with ops := .bytes va bs whole src :: r } k (s.replayKey w va)
    else (s.replayOp w (.bytes va bs whole src)).replayCopy w k r
  | o :: r => (s.replayOp w o).replayCopy w k r

/-- Perform what is parked on one line. -/
def State.replayParked (s : State) (w : ParkedWrite) (k : Nat) : State :=
  if w.batch.isSome then s.replayCopy w k w.ops else w.ops.foldl (State.replayOp w) s

/-- Perform parked lines in arrival order: at most `n` of them. -/
def State.replayAll (s : State) (mine : ParkedWrite → Bool) : Nat → State
  | 0 => s
  | n + 1 =>
    match s.parking.findIdx? mine with
    | none => s
    | some k =>
      match s.parking[k]? with
      | none => s
      | some w => (State.replayParked { s with parking := s.parking.eraseIdx k } w k).replayAll mine n

/-- What is left of a migrated range once the page at some frames has been replayed (R82). -/
def cutMove (lo len : Nat) (x : Nat × Nat × Nat) : List (Nat × Nat × Nat) :=
  let hi := x.2.1 + x.2.2
  if hi ≤ lo || lo + len ≤ x.2.1 then [x]
  else
    (if x.2.1 < lo then [(x.1, x.2.1, lo - x.2.1)] else []) ++
      (if lo + len < hi then [(x.1 + (lo + len - x.2.1), lo + len, hi - (lo + len))] else [])

/-- The counters of a page start at 0 again (R84). -/
def State.resetCounts (s : State) (tag : BitVec 12) (page : Nat) : State :=
  match (s.context tag).bind Context.counters with
  | none => s
  | some base =>
    let va := base + 4 * (page / 65536)
    match s.xlat tag va .load with
    | .ok k => if k.wb then s.parkOp k tag 0 none va false (.bytes va (leBytes 4 0) false none) else s.putHost k.key (leBytes 4 0)
    | _ => s

/-- PARKED_WRITE_REPLAY: the die replays a page's parked writes in arrival order, then clears WB; its counters start at 0 (R82,
R84). -/
def execParkedWriteReplay (tag : BitVec 12) (va : DWord) (s : State) : Out :=
  .next (match s.xlat tag va.toNat .load with
    | .ok m =>
      let mine := fun (w : ParkedWrite) => w.tag = tag && inSpan m.page m.size (64 * w.line)
      let s0 := s.replayAll mine s.parking.length
      let s1 := State.enterParking { s0 with moves := s0.moves.flatMap (cutMove m.frame m.size) }
      let s2 := if m.wb then s1.putHost m.pte [readByte s1.mem m.pte &&& 0xDF#8] else s1
      ((s2.resetCounts tag m.page).igPump).stirContext tag
    | _ => s)

/-! ### Writes from outside (R7, R66, R86) -/

/-- Bytes cut at the ends of lines: pieces with their keys; `fuel` of them. -/
def linePieces : Nat → Nat → List Byte → List (Nat × List Byte)
  | 0, _, _ => []
  | n + 1, k, bs => if bs = [] then [] else (k, bs.take (64 - k % 64)) :: linePieces n (k + (64 - k % 64)) (bs.drop (64 - k % 64))

/-- Write bytes that no sheaf writes (R86, R90), line by line. -/
def State.writeOver (s : State) (key : Nat) (bs : List Byte) : State :=
  (linePieces (bs.length / 64 + 2) key bs).foldl (fun t p => t.land (t.frameOwner p.1) p.1 p.2 (p.2.length = 64)) s

/-- A host or peer write of device memory (R80, R83, R86): a page that migrates parks it. -/
def State.writeOutside (s : State) (key : Nat) (bs : List Byte) : State :=
  let ps := linePieces (bs.length / 64 + 2) key bs
  (ps.map fun p => (p, s.pageOf p.1)).foldl (fun t p =>
    let (k, data) := p.1
    let whole := data.length = 64
    match p.2 with
    | some m => if m.wb then t.parkOp m (t.frameOwner k) 0 none m.va false (.bytes m.va data whole none)
        else t.land (t.frameOwner k) k data whole
    | none => t.land (t.frameOwner k) k data whole) (s.touchOutside (ps.map Prod.fst))

/-- HOST_MEMORY_WRITE: a host write through the CXL.mem window onto the LPDDR tier, of up to 256 GiB (R86, R474). -/
def execHostMemoryWrite (addr : Nat) (data : List Byte) (s : State) : Out :=
  .next (if addr + data.length ≤ 2 ^ 38 && data ≠ [] then s.writeOutside (lpddrKey addr) data else s)

/-- MONITOR_WRITE: the monitor writes device memory on a driver's request (R86). -/
def execMonitorWrite (key : Nat) (data : List Byte) (s : State) : Out :=
  .next (if key + data.length ≤ 2 * spaceSize && data ≠ [] then s.writeOver key data else s)

/-- A peer module's request at this module (R66): the window that covers it. -/
def State.peerWindow (s : State) (source : BitVec 21) (write : Bool) (off n : Nat) : Option Nat :=
  ((s.partitions.flatMap Partition.windows).find? fun w =>
    w.base ≤ off && off + n ≤ w.base + w.size && w.modules.contains source.toNat && (w.writable || !write)).map
    fun w => w.key + (off - w.base)

/-- A write to a page whose function has moved goes on to the module it moved to while the stub lasts; a later one is
answered with a NACK that carries that module's ID, and a load changes nothing (R483). -/
def State.forward (s : State) (source target : BitVec 21) (expiry off : Nat) (op : PeerOp) : State :=
  let k := peerKey (target.toNat * 2 ^ 43 + off)
  match op with
  | .load _ => s
  | _ =>
    if expiry ≤ s.gtc.toNat then { s with nacks := s.nacks ++ [(source, off / 65536, target)] }
    else match op with
    | .load _ => s
    | .store bs => s.putBytes 0 k bs
    | .atomic o d => (s.atomAt 0 k o d).2

/-- PEER_REQUEST: a store or atomic is performed at this module, a load changes nothing; what no window covers is rejected
(R66, R132, R485), and what a forwarding stub covers is passed on (R483). -/
def execPeerRequest (source : BitVec 21) (addr : DWord) (op : PeerOp) (s : State) : Out :=
  .next (
    let off := addr.toNat % 2 ^ 43
    match s.stubs.find? fun x => x.1 = off / 65536 with
    | some x => s.forward source x.2.1 x.2.2 off op
    | none =>
    match op with
    | .load n => (match s.peerWindow source false off n with
        | some k =>
          let t := s.touchOutside ((linePieces (n / 64 + 2) k (List.replicate n 0)).map Prod.fst)
          if t.lineBad k then t.containError k else t
        | none => s)
    | .store bs => (match s.peerWindow source true off bs.length with
        | some k => if bs = [] then s else s.writeOutside k bs
        | none => s)
    | .atomic o d => (match s.peerWindow source true off (atomBytes o) with
        | some k =>
          let t := s.touchOutside [k]
          (match t.pageOf k with
            | some m => if m.wb then t.parkOp m (t.frameOwner k) 0 none m.va false (.atom m.va o d none 0 0)
                else t.atomLands (t.frameOwner k) 0 none k o d none 0 0
            | none => t.atomLands (t.frameOwner k) 0 none k o d none 0 0)
        | none => s))

/-- TRRING takes a value (R494, R495): EN set arms the session, EN cleared leaves it idle. -/
def VirtFn.setTrring (v : VirtFn) (val : DWord) : VirtFn :=
  let x := val &&& ~~~(0xFE#64)
  if x.getLsbD 0 && !v.trring.getLsbD 0 then { v with trring := x, trace := .armed, trtail := 0, stopping := false }
  else if x.getLsbD 0 then { v with trring := x } else { v with trring := x, trace := .idle, stopping := false }

/-- NQCFG takes a value (R76): a ring of another size is not full. -/
def Partition.configure (p : Partition) (val : DWord) : Partition :=
  { p with nqcfg := val, nqfull := p.nqfull && val.extractLsb' 8 4 = p.nqcfg.extractLsb' 8 4 }

/-- REGISTER_WRITE: a register takes a write under its access code (R7): a read-only one ignores it, a write-1-to-clear one
clears the bits written as 1, reserved bits keep reading 0 (R76, R78, R81, R365, R462, R491-R495). The driver's release of frames stands with
them (R86, R510; LOG 20). -/
def execRegisterWrite (reg : PlatformReg) (val : DWord) (s : State) : Out :=
  .next (match reg with
    | .nqcfg p => (s.onPart p fun q => q.configure (val &&& ~~~(0xFE#64))).flushNotices p
    | .nqhead p => (s.onPart p fun q => { q with nqhead := val.setWidth 32, nqfull := false }).flushNotices p
    | .nqtail p => (s.onPart p fun q => { q with nqtail := val.setWidth 32, nqfull := false }).flushNotices p
    | .nqdrop p => s.onPart p fun q => { q with nqdrop := q.nqdrop &&& ~~~(val.setWidth 32) }
    | .cthr p => s.onPart p fun q => { q with cthr := val.setWidth 32 }
    | .vfpart _ | .vfres _ | .lqhead _ _ => s
    | .pcsel fn n => s.onFn fn fun v => { v with psel := v.psel.setIfInBounds n (val &&& 0x1FF) }
    | .smpcfg fn => s.onFn fn fun v => { v with smpcfg := val &&& ~~~(0xE#64) }
    | .smpdrop fn => s.onFn fn fun v => { v with smpdrop := v.smpdrop &&& ~~~(val.setWidth 32) }
    | .trwatch fn j => s.onFn fn fun v => { v with trwatch := v.trwatch.setIfInBounds j (val &&& ~~~(0x3F#64)) }
    | .trring fn => (s.onFn fn fun v => v.setTrring val).traceDropped fn
    | .frames tag => s.releaseFrames tag
    | .trstart fn => s.onFn fn fun v => { v with trstart := val }
    | .trstop fn => s.onFn fn fun v => { v with trstop := val })

/-! ### Scrubbing (R88-R90) -/

/-- Die that holds the registers of a sheaf. -/
def State.sheafDie (s : State) (uid : Nat) : Option Nat :=
  ((s.sheaf uid).bind fun h => s.group h.group).map fun g => g.core / 64

/-- An array that no address names: the registers of a sheaf, a store buffer, a die's buffer, the records of a saved group. -/
def isArray (k : Nat) : Bool := registerKey 0 ≤ k && k < 8 * spaceSize

/-- An uncorrectable error in such an array (R90, R452, R470): the context it belongs to ends. DESIGN CHOICE (LOG 21): a die's buffer
holds copies on their way alone, and its error is logged. -/
def State.arrayError (s : State) (key : Nat) : State :=
  if recordKey 0 0 ≤ key then s.recordError ((key - recordKey 0 0) / 2 ^ 24)
  else if dieBufKey 0 0 ≤ key then s.logAt (keyDie key) "die buffer: uncorrectable error" key 0
  else if bufKey 0 0 ≤ key then s.bufError ((key - bufKey 0 0) / 2 ^ 16)
  else match s.sheaf (key - registerKey 0) with
    | some h => if h.life = .live then s.endContext (s.tagOf h) Cause.ue.code 0 (some h) h.pc 0 0 else s
    | none => s

/-- SCRUB_PASS: the scrubber reads one line, or an array that no address names: an error corrected is logged (R89), one that cannot
be is contained (R90). -/
def execScrubPass (key : Nat) (err : LineError) (s : State) : Out :=
  .next (
    match err with
    | .clean => s
    | .corrected x =>
      if isForeign key then s
      else
        let die := if registerKey 0 ≤ key && key < bufKey 0 0 then s.sheafDie (key - registerKey 0) else keyDie key
        let at_ := if isArray key then key else lineOf key
        State.logAt { s with weak := s.weak.filter (·.1 ≠ at_) } die (keyArray key ++ ": corrected error") at_ x
    | .uncorrectable =>
      if isForeign key then s else if isArray key then s.arrayError key else s.containError key)

/-! ### Traps, debugging, context ends -/

/-- The sheaf stands at a group boundary where it may issue or take a trap. -/
def Sheaf.atBoundary (h : Sheaf) : Bool :=
  h.life = .live && h.wait.isNone && !h.mid && h.parked = [] && !h.saved && !h.coreHalt && !h.dbgHalt && h.entering.isNone

/-- TRAP_ENTRY: a trap waiting for loads and loops enters its handler once they have delivered; at a boundary the pending
trap that is due is delivered (R441, R442). -/
def execTrapEntry (uid : Nat) (s : State) : Out :=
  .next (s.as uid fun s =>
    match s.sh.entering with
    | some (p, pc, nx) =>
      if s.sh.life = .live && !s.sh.saved && !s.sh.coreHalt then
        let t := s.settle
        if t.sh.loops = [] && t.sh.loads = [] && t.sh.replays = [] then ({ t with sh := { t.sh with entering := none } }).enterHandler p pc nx else t
      else s
    | none => if s.sh.atBoundary then s.deliverPend else s)

/-- CONTEXT_END (R447). -/
def execContextEnd (tag : BitVec 12) (cause : BitVec 8) (va : DWord) (s : State) : Out :=
  .next (s.endContext tag cause 0 none 0 0 va)

/-- DEBUG_RESUME: a debug-halted sheaf goes on at %trnext (R445). -/
def execDebugResume (uid : Nat) (s : State) : Out :=
  .next (s.onSheaf uid fun h =>
    if h.dbgHalt && h.life = .live then { h with dbgHalt := false, pc := h.trnext, next := h.trnext } else h)

/-- DEBUGGER_ATTACH (R445). -/
def execDebuggerAttach (tag : BitVec 12) (s : State) : Out := .next (s.onContext tag fun c => { c with debugger := true })

end Sys2Proof.Machine
end

