-- ==== Sys2Proof/Machine/Lanes.lean ====
section
/-!
DEFINITION. Cross-lane words: shuffles, reductions, scans, matching (R318-R324).
-/

namespace Sys2Proof.Machine

open Sys2Proof

/-- The lowest active lane (R320). -/
def firstLane (em : DWord) : Nat := ((List.range 64).find? (em.getLsbD ·)).getD 0

/-- A source lane is valid (R318). -/
def laneValid (em : DWord) (j : Int) : Bool := 0 ≤ j && j < 64 && em.getLsbD j.toNat

/-- The highest active lane below j (R318). -/
def laneBelow (em : DWord) (j : Int) : Option Nat := ((List.range 64).reverse).find? fun l => (l : Int) < j && em.getLsbD l

/-- A keep shuffle: a lane whose source is not valid keeps its own value; k7 marks the valid (R318, R320). -/
def State.shuffleKeep (s : State) (d a b : VCode) (src : (Nat → Word) → Nat → Int) : State :=
  let em := s.sh.em
  let x := laneOf (s.sh.rd.src a)
  let j := src (laneOf (s.sh.rd.src b))
  (s.vecLanes d fun i => if laneValid em (j i) then x (j i).toNat else x i).regs
    fun r => r.setK 7 (maskOf fun i => em.getLsbD i && laneValid em (j i))

/-- A fall-through shuffle: the next active lane below, else the old destination (R318, R320). -/
def State.shuffleFall (s : State) (d a b : VCode) (src : (Nat → Word) → Nat → Int) : State :=
  let em := s.sh.em
  let x := laneOf (s.sh.rd.src a)
  let j := src (laneOf (s.sh.rd.src b))
  let o := s.sh.rd.file d.toNat
  s.vecLanes d fun i =>
    if laneValid em (j i) then x (j i).toNat
    else match laneBelow em (j i) with | some l => x l | none => laneOf o i

/-- The identity of a fold (R321). -/
def foldIdentity (op : BitVec 4) : Nat :=
  match op.toNat with
  | 1 => 0x7FFFFFFF | 2 => 0x80000000 | 3 => 0xFFFFFFFF | 5 => 0xFFFFFFFF | 8 => 0x80000000 | 9 => 0x7F800000
  | 10 => 0xFF800000 | _ => 0

/-- One combination (R321); the inputs have been read, so DAZ is not applied again (R322). -/
def foldStep (op : BitVec 4) (m : FMode) (x y : Nat) : FRes :=
  let a : Word := BitVec.ofNat 32 x
  let b : Word := BitVec.ofNat 32 y
  match op.toNat with
  | 0 => ⟨(a + b).toNat, 0⟩
  | 1 => ⟨if a.slt b then x else y, 0⟩
  | 2 => ⟨if a.slt b then y else x, 0⟩
  | 3 => ⟨min x y, 0⟩
  | 4 => ⟨max x y, 0⟩
  | 5 => ⟨(a &&& b).toNat, 0⟩
  | 6 => ⟨(a ||| b).toNat, 0⟩
  | 7 => ⟨(a ^^^ b).toNat, 0⟩
  | 8 => f32.addSub { m with daz := false } false x y
  | 9 => f32.minMax { m with daz := false } false x y
  | _ => f32.minMax { m with daz := false } true x y

/-- The operation is a floating one. -/
def foldFloat (op : BitVec 4) : Bool := 8 ≤ op.toNat

/-- The fold of a list of lane values, inputs read once (R322). -/
def foldSet (op : BitVec 4) (m : FMode) : List Nat → FRes
  | [] => ⟨foldIdentity op, 0⟩
  | x :: r =>
    let inp := fun v => if foldFloat op then f32.inp m v else v
    let inv := fun v => Exc.invIf (foldFloat op && f32.isSNaN v)
    r.foldl (fun a y => let t := foldStep op m a.val (inp y); ⟨t.val, a.exc ||| t.exc ||| inv y⟩) ⟨inp x, inv x⟩

/-- REDLOG and SCANLOG: each active lane folds the active lanes `keep` names, in ascending order (R322). -/
def State.foldLanes (s : State) (i : Instr) (d a : VCode) (op : BitVec 4) (keep : Nat → Nat → Bool) : State :=
  let x := laneOf (s.sh.rd.src a)
  let act := (List.range 64).filter (s.sh.em.getLsbD ·)
  s.fpLanes i d fun l => foldSet op s.sh.fmode ((act.filter (keep l)).map fun j => (x j).toNat)

/-- Active lanes whose value equals lane i's, in order (R324). -/
def State.equalLanes (s : State) (a : VCode) (i : Nat) : List Nat :=
  let x := laneOf (s.sh.rd.src a)
  (List.range 64).filter fun j => s.sh.em.getLsbD j && x j = x i

/-- SHFL: keep form (R318, R320). -/
def execShfl (d : VCode) (a : VCode) (b : VCode) (s : State) : Out :=
  s.issue (.shfl d a b) fun s => s.shuffleKeep d a b fun y i => (y i).toNat

/-- SHFLX: keep form (R318, R320). -/
def execShflx (d : VCode) (a : VCode) (b : VCode) (s : State) : Out :=
  s.issue (.shflx d a b) fun s => s.shuffleKeep d a b fun y i => (i ^^^ (y i).toNat : Nat)

/-- SHFLR: keep form (R318, R320). -/
def execShflr (d : VCode) (a : VCode) (b : VCode) (s : State) : Out :=
  s.issue (.shflr d a b) fun s => s.shuffleKeep d a b fun y i => (i : Int) - (y i).toInt

/-- BCST: keep form (R318, R320). -/
def execBcst (d : VCode) (a : VCode) (b : VCode) (s : State) : Out :=
  s.issue (.bcst d a b) fun s => s.shuffleKeep d a b fun y _ => (y (firstLane s.sh.em)).toNat

/-- SHFLF: fall-through form (R318, R320). -/
def execShflf (d : VCode) (a : VCode) (b : VCode) (s : State) : Out :=
  s.issue (.shflf d a b) fun s => s.shuffleFall d a b fun y i => (y i).toNat

/-- SHFLXF: fall-through form (R318, R320). -/
def execShflxf (d : VCode) (a : VCode) (b : VCode) (s : State) : Out :=
  s.issue (.shflxf d a b) fun s => s.shuffleFall d a b fun y i => (i ^^^ (y i).toNat : Nat)

/-- SHFLRF: fall-through form (R318, R320). -/
def execShflrf (d : VCode) (a : VCode) (b : VCode) (s : State) : Out :=
  s.issue (.shflrf d a b) fun s => s.shuffleFall d a b fun y i => (i : Int) - (y i).toInt

/-- BCSTF: fall-through form (R318, R320). -/
def execBcstf (d : VCode) (a : VCode) (b : VCode) (s : State) : Out :=
  s.issue (.bcstf d a b) fun s => s.shuffleFall d a b fun y _ => (y (firstLane s.sh.em)).toNat

/-- REDLOG: fold over every active lane (R322). -/
def execRedlog (d : VCode) (a : VCode) (op : BitVec 4) (s : State) : Out :=
  s.issue (.redlog d a op) fun s => s.foldLanes (.redlog d a op) d a op fun _ _ => true

/-- SCANLOG: fold over the active lanes up to this one, or below it (R322). -/
def execScanlog (d : VCode) (a : VCode) (excl : Bool) (op : BitVec 4) (s : State) : Out :=
  s.issue (.scanlog d a excl op) fun s => s.foldLanes (.scanlog d a excl op) d a op fun i l => if excl then l < i else l ≤ i

/-- MATCH: lowest active lane with the same value (R324). -/
def execMatchv (d : VCode) (a : VCode) (s : State) : Out :=
  s.issue (.matchv d a) fun s => s.vecLanes d fun i => BitVec.ofNat 32 (((s.equalLanes a i).head?).getD 0)

/-- MRANK: lower active lanes with the same value (R324). -/
def execMrank (d : VCode) (a : VCode) (s : State) : Out :=
  s.issue (.mrank d a) fun s => s.vecLanes d fun i => BitVec.ofNat 32 ((s.equalLanes a i).filter (· < i)).length

end Sys2Proof.Machine
end

