-- ==== Sys2Proof/Machine/Repeat.lean ====
section
/-!
DEFINITION. Repeatable mode (R468-R472): the end of a quantum, the commit of a round, checkpoints and replay (R497).
-/

namespace Sys2Proof.Machine

open Sys2Proof

/-! ### Quanta -/

/-- Bytes a quantum has buffered (R469): 64 for each distinct line written, and the bytes of each batch. -/
def Sheaf.buffered (h : Sheaf) : Nat :=
  let lines := h.buf.flatMap fun w => match w with
    | .bytes _ k bs _ _ => (List.range ((k + bs.length + 63) / 64 - k / 64)).map fun j => lineOf k + 64 * j
    | .desc _ k _ _ => [lineOf k]
    | .batch _ => []
  let batch := h.buf.map fun w => match w with
    | .batch n => ((((h.batches.filter (·.num = n)).flatMap Batch.cpys).flatMap Cpy.reqs).map CopyReq.size).foldl (· + ·) 0
    | _ => 0
  64 * lines.dedup.length + batch.foldl (· + ·) 0

/-- The quantum has run its count, or its buffer holds 16 KiB (R469). -/
def Sheaf.quantumOver (h : Sheaf) : Bool := h.quant.toNat ≤ h.retired || 16384 ≤ h.buffered

/-- QUANTUM_COUNT_END (R469). -/
def execQuantumCountEnd (uid : Nat) (s : State) : Out :=
  .next (s.as uid fun s =>
    if s.repeatable && s.sh.life = .live && s.sh.quantumOver then s.upd fun h => { h with quantumDone := true, bufBytes := h.buffered }
    else s)

/-! ### The commit of a round -/

/-- Insert by %sheaf. -/
def insertSheaf (h : Sheaf) : List Sheaf → List Sheaf
  | [] => [h]
  | x :: r => if h.sheafNo.toNat < x.sheafNo.toNat then h :: x :: r else x :: insertSheaf h r

/-- The sheaves of a task in ascending %sheaf (R337). -/
def State.inOrder (s : State) (tid : Nat) : List Sheaf :=
  (s.sheaves.filter (·.task = tid)).foldl (fun l h => insertSheaf h l) []

/-- A sheaf takes part in the round that is to commit: it lives, or it ended in this round or left something to commit (R468). -/
def Sheaf.inRound (h : Sheaf) : Bool := h.life = .live || h.quantumDone || h.buf ≠ [] || h.defer ≠ []

/-- Every participant has ended its quantum (R468): every sheaf of the launch is placed, every set closed by an earlier
commit has its sheaf, every live sheaf waits for the commit, and the engine has read the sources of every batch (R166). A group
that is saved would keep a paced neighbour from its advance (R409, R410): the commit waits for it. -/
def State.roundReady (s : State) (t : Task) : Bool :=
  let hs := s.sheaves.filter (·.task = t.tid)
  t.repeatable && !t.ended && t.units = [] && (s.bins.all fun b => b.task ≠ t.tid || b.closed = []) && hs.any Sheaf.inRound &&
    (hs.all fun h => h.life ≠ .live || (h.quantumDone && h.parked = [] && !(h.saved && s.paced h))) &&
    hs.all fun h => h.batches.all fun b => b.cpys.all Cpy.read

/-- Where a buffered or deferred operation of the sheaf in the issue slot is performed, and the page (R75). -/
def State.commitHome (s : State) (va : Option Nat) (key : Nat) : Nat × Option Mapped :=
  match va with
  | none => (key, none)
  | some v => s.homeOf s.tag v key

/-- The parking buffer of a page's die is full (R83). -/
def State.dieFull (s : State) (m : Mapped) : Bool := Config.parking ≤ s.parkedOn (m.die.getD 0)

/-- What the task of the sheaf in the issue slot has parked lies on this page, which keeps the order of arrival, and so that of the
commit (R83, R331, R337). -/
def State.parkedHere (s : State) (m : Option Mapped) : Bool :=
  s.parking.all fun w => !(s.sheaves.any fun h => h.uid = w.sheaf && h.task = s.sh.task) || m.any fun p => p.wb && p.page = w.page

/-- Nothing of the task is parked but by this batch of the sheaf in the issue slot. -/
def State.parkedBefore (s : State) (n : BitVec 8) : Bool :=
  s.parking.all fun w => !(s.sheaves.any fun h => h.uid = w.sheaf && h.task = s.sh.task) || (w.sheaf = s.sh.uid && w.batch = some n)

/-- Perform the first buffered write of the sheaf in the issue slot (R471 step 1), and whether it is done: traced at the commit
(R494), parked on a page that migrates (R83), or turned away where no route leads any more (R485). None while the parking buffer is
full, while a write before it is parked elsewhere (R337), or while the engine cannot go on. -/
def State.commitWrite (s : State) (w : BufWrite) : Option (State × Bool) :=
  match w with
  | .bytes va key bs whole x =>
    let v := va.getD 0
    let (k, m) := s.commitHome va key
    if !s.parkedHere m || m.any (fun p => p.wb && s.dieFull p) then none
    else match m.filter Mapped.wb with
      | some p => some (s.parkWrite p v false (.bytes v bs whole (some x)), true)
      | none =>
        let t := s.landFrom s.tag s.sh.uid x k bs whole
        some (if m.isSome then t.traceMine s.mem v k bs else t, true)
  | .desc va key d x =>
    let v := va.getD 0
    let (k, m) := s.commitHome va key
    if !s.parkedHere m || m.any (fun p => p.wb && s.dieFull p) then none
    else match m.filter Mapped.wb with
      | some p => some (s.parkWrite p v false (.desc v d (some x)), true)
      | none => some (s.landDescFrom s.tag s.sh.uid x k d, true)
  | .batch n =>
    let done := fun (t : State) => t.sh.batches.all fun b => b.num ≠ n || b.cpys.all Cpy.done
    if !s.parkedBefore n then none else
    match s.copyEvent n true with
    | some t => some (t, done t)
    | none => if done s then some (s, true) else none

/-- An arrival deferred to the commit (R385): BARARV's result is the phase before it, BARSYN waits from that phase on. -/
def State.commitArrive (s : State) (bid : Nat) (result : Option SCode) : State :=
  match s.barrier (BitVec.ofNat 9 bid) with
  | none => s
  | some x =>
    if !x.admits s.sh.lsheaf then s
    else
      let t := s.arriveAt (BitVec.ofNat 9 bid)
      match result with
      | some d => t.regs fun r => r.setS d (x.phase.setWidth 64)
      | none => t.upd fun h => { h with wait := h.wait.map fun w => { w with token := some x.phase.toNat } }

/-- Perform a deferred operation of the sheaf in the issue slot (R471 step 2); records and cancellations are gathered for steps 3
and 4. None while it must wait for parked writes before it, for room in a parking buffer, or, a decrement, for its page. -/
def State.commitOp (s : State) (d : Deferred) : Option State :=
  match d with
  | .atomic va key op operand ret lane word =>
    (match s.commitHome va key with
      | (k, m) =>
        if !s.parkedHere m || m.any (fun p => p.wb && s.dieFull p) then none
        else match m.filter Mapped.wb with
          | some p => some (s.parkWrite p (va.getD 0) false (.atom (va.getD 0) op operand ret lane word))
          | none => some (s.atomLands s.tag s.sh.uid (m.bind fun _ => va) k op operand ret lane word))
  | .depdec va key scope =>
    if (s.homeOf s.tag va.toNat key).2.any Mapped.wb then none
    else match s.decrement s.tag va.toNat key scope s.sh.uid with
      | (t, none) => some t
      | (t, some x) => some (t.onTask s.sh.task fun k => { k with sent := k.sent + 1, gathered := k.gathered ++ [x] })
  | .signal va key op x word =>
    (match s.commitHome va key with
      | (k, m) =>
        if !s.parkedHere m || m.any (fun p => p.wb && s.dieFull p) then none
        else match m.filter Mapped.wb with
          | some p => some (s.parkWrite p (va.getD 0) false (.signal (va.getD 0) op x word))
          | none => some (s.signalAt (m.bind fun _ => va) k op x word))
  | .pub n => if s.parkedHere none then some (s.swapRegion s.sh.task n) else none
  | .arrive b d => some (s.commitArrive b d)
  | .stepArrive t =>
    some (s.onGroup s.sh.group fun g =>
        if g.step = t then { g with arrived := g.arrived ||| BitVec.ofNat 32 (2 ^ s.sh.lsheaf.toNat) } else g)
  | .tbfull b t =>
    some (match s.myGroup with
      | some g => s.onSlot g.gid b t fun y z => z.mark y (s.consumers g b) t
      | none => s)
  | .tbempty g b t => some (s.onSlot g b t TileSlot.release)
  | .record node scope ws last =>
    let r : BinRec := { scope := scope, words := ws, sender := s.sh.uid, last := last }
    some (s.onTask s.sh.task fun k => { k with sent := k.sent + 1, gathered := k.gathered ++ [(s.core / 64, node, r)] })
  | .csopen sd => some (s.openChild sd)
  | .cancel id => some (s.onTask s.sh.task fun k => { k with cutting := k.cutting ++ [id] })

/-- Perform buffered writes of the sheaf in the issue slot, as far as they go. -/
def State.commitWrites (s : State) : Nat → State
  | 0 => s
  | n + 1 =>
    match s.sh.buf with
    | [] => s
    | w :: _ =>
      match s.commitWrite w with
      | none => s
      | some (t, false) => t
      | some (t, true) => (t.upd fun h => { h with buf := h.buf.tail }).commitWrites n

/-- Perform deferred operations of the sheaf in the issue slot, as far as they go. -/
def State.commitOps (s : State) : Nat → State
  | 0 => s
  | n + 1 =>
    match s.sh.defer with
    | [] => s
    | d :: _ =>
      match s.commitOp d with
      | none => s
      | some t => (t.upd fun h => { h with defer := h.defer.tail }).commitOps n

/-- Run a stage of the commit for each sheaf in turn, none before the one before it has nothing left (R337). -/
def State.commitStage (s : State) (run : State → State) (left : Sheaf → Bool) : List Nat → State
  | [] => s
  | u :: r =>
    let t := s.as u run
    if (t.sheaf u).any left then t else t.commitStage run left r

/-- Insert a bin's set by node, then by first arrival (R394). -/
def insertSet (x : Nat × Nat × BinSet) : List (Nat × Nat × BinSet) → List (Nat × Nat × BinSet)
  | [] => [x]
  | y :: r => if x.2.1 < y.2.1 || (x.2.1 = y.2.1 && x.2.2.seq < y.2.2.seq) then x :: y :: r else y :: insertSet x r

/-- Close every open set of a task, then take the records that waited, until none is open (R394). -/
def State.closeSets (s : State) (tid : Nat) : Nat → State
  | 0 => s
  | k + 1 =>
    let mine := s.bins.filter (·.task = tid)
    let open_ := (mine.flatMap fun b => b.sets.map fun x => (b.die, b.node, x)).foldl (fun l x => insertSet x l) []
    if open_ = [] then s
    else
      let t := open_.foldl (fun t x => t.closeSet x.1 tid x.2.1 x.2.2) s
      (mine.foldl (fun t b => t.binTake b.die tid b.node) t).closeSets tid k

/-- A participant begins the next round (R468, R469), a wait of its to be evaluated first (R471 step 5); what a kill of this commit
leaves to commit stays (R418). -/
def Sheaf.nextRound (h : Sheaf) : Sheaf :=
  { h with retired := 0, nth := 0, bufBytes := 0, quantumDone := false, round := h.round + 1, look := h.wait.isSome }

/-- The advances of a commit: those whose conditions hold once it is performed, all at once (R410, R471 step 5). -/
def State.commitAdvances (s : State) (tid : Nat) : State :=
  let gs := s.groups.filter fun g => g.task = tid && !g.fromBin && s.canAdvance g
  (gs.map Group.gid).foldl (fun t g => t.advance g) s

/-- A checkpoint (R497): the task's groups as a pre-emption would save them, and the pages of the driver's list. -/
def State.checkpoint (s : State) (t : Task) : State :=
  let gs := s.groups.filter fun g => g.task = t.tid && !g.freed
  let u := (gs.map Group.gid).foldl (fun u g => u.saveGroup g) s
  let ranges := t.pages ++ gs.map fun g => (saveKey g.gid 0, g.spadLen)
  let held := fun (k : Nat) => ranges.any fun r => r.1 ≤ k && k < r.1 + r.2
  let hs := u.sheaves.filter (·.task = t.tid)
  let c : Checkpoint :=
    { task := t, sheaves := hs, groups := u.groups.filter fun g => g.task = t.tid, bins := s.bins.filter (·.task = t.tid)
      entries := u.scoreboard.filter fun e => hs.any fun h => h.uid = e.sheaf
      cells := u.mem.filter fun x => held x.1, lines := u.lines.filter fun x => held x.1 }
  { s with checkpoints := s.checkpoints.filter (fun x => !(x.task.tid = t.tid && x.task.round = t.round)) ++ [c] }

/-- Cancellations of a commit take effect (R421): the sheaves of the task in their subtrees, which stand at a boundary, die at once,
those of other tasks at their kill points. -/
def State.commitCancels (s : State) (t : Task) (ids : List (BitVec 16)) : State :=
  let u := ids.foldl (fun u id => u.cancel t.tag id) s
  let hit := u.sheaves.filter fun h => h.task = t.tid && h.life = .live && (u.context t.tag).any fun c => c.cancelled h.scope
  (hit.map Sheaf.uid).foldl State.kill u

/-- Deaths of a task's paced groups are recorded at the commit (R406, R410). -/
def State.commitDeaths (s : State) (tid : Nat) : State :=
  (s.deaths.filter fun g => (s.group g).any fun x => x.task = tid).foldl State.recordDeath s

/-- Steps 3 to 5 of a commit whose writes and operations are all performed (R471), and what follows them: the request of R436, a
checkpoint (R497), scopes and groups that nothing holds any more. -/
def State.closeRound (s : State) (t : Task) (us : List Nat) : State :=
  let tid := t.tid
  let s1 := t.gathered.foldl (fun u x => u.binArrive x.1 tid x.2.1 x.2.2) s
  let s2 := s1.closeSets tid (t.gathered.length + 4097)
  let asked := t.cutting ++ ((s2.context t.tag).map Context.cancels).getD []
  let s3 := (s2.onContext t.tag fun c => { c with cancels := [] }).onTask tid fun k => { k with gathered := [], cutting := [] }
  let s4 := ((s3.commitCancels t asked).commitDeaths tid).commitAdvances tid
  let s5 := s4.mapSheaves fun h => if h.task = tid then h.nextRound else h
  let s6 := s5.onTask tid fun k => { k with round := k.round + 1 }
  let s7 := match t.ask with | some a => s6.recordAsk t a.1 a.2 | none => s6
  let sampled : State := { s7 with contexts := s7.contexts.map fun c => if c.tag = t.tag then s7.sampleScopes true c else c }
  let s8 := sampled.retire t.tag fun x => sampled.commits t.tag x && !sampled.busyUnder t.tag x.id
  let s9 := if t.checkpointEvery ≠ 0 && (t.round + 1) % t.checkpointEvery = 0 then
      (match s8.task tid with | some k => s8.checkpoint k | none => s8) else s8
  let gs := (us.filterMap fun u => (s9.sheaf u).map Sheaf.group).dedup
  gs.foldl (fun u g => u.reap g) s9

/-- The commit of a round as far as it goes (R471): store buffers in error end their context (R470); writes, operations, and the rest
once nothing of the task is parked, so that no sheaf of the next round issues before the commit is complete (R337). -/
def State.commitRound (s : State) (t : Task) : State :=
  let us := (s.inOrder t.tid).map Sheaf.uid
  let lost := us.filter fun u => s.badBetween (bufKey u 0) (bufKey (u + 1) 0)
  if lost ≠ [] then
    lost.foldl State.bufError { s with badLines := s.badLines.filter fun k => !(lost.any fun u => bufKey u 0 ≤ k && k < bufKey (u + 1) 0) }
  else
  let mine := fun (x : State) => x.sheaves.filter (·.task = t.tid)
  let s1 := s.commitStage (fun u => u.commitWrites (u.sh.buf.length + 1)) (fun h => h.buf ≠ []) us
  if (mine s1).any fun h => h.buf ≠ [] then s1
  else
    let s2 := s1.commitStage (fun u => u.commitOps (u.sh.defer.length + 1)) (fun h => h.defer ≠ []) us
    if (mine s2).any (fun h => h.defer ≠ []) || s2.parking.any (fun w => us.contains w.sheaf) then s2
    else match s2.task t.tid with
      | some k => s2.closeRound k us
      | none => s2

/-- The commit of a round would bring it on: its first write or operation can be performed, or all are. -/
def State.commitMoves (s : State) (t : Task) : Bool :=
  let hs := s.inOrder t.tid
  match hs.find? fun h => h.buf ≠ [] with
  | some h => (h.buf.head?.bind fun w => ({ s with sh := h, peers := s.sheaves.filter (·.uid ≠ h.uid) } : State).commitWrite w).isSome
  | none =>
    match hs.find? fun h => h.defer ≠ [] with
    | some h => (h.defer.head?.bind fun d => ({ s with sh := h, peers := s.sheaves.filter (·.uid ≠ h.uid) } : State).commitOp d).isSome
    | none => !s.parking.any fun w => hs.any fun h => h.uid = w.sheaf

/-- ROUND_COMMIT (R468, R471). -/
def execRoundCommit (tid : Nat) (s : State) : Out :=
  .next (match s.task tid with
    | some t => if s.roundReady t then s.commitRound t else s
    | none => s)

/-! ### Replay (R497) -/

/-- Put back what a checkpoint holds: the task, its groups as saved, its sheaves, bytes and metadata. -/
def State.restoreCheckpoint (s : State) (c : Checkpoint) : State :=
  let tid := c.task.tid
  let ranges := c.task.pages ++ c.groups.map fun g => (saveKey g.gid 0, g.spadLen)
  let held := fun (k : Nat) => ranges.any fun r => r.1 ≤ k && k < r.1 + r.2
  let mine := fun (h : Sheaf) => h.task = tid && h.life ≠ .absent
  let others := s.peers.filter fun h => !mine h
  let fresh := c.sheaves.filter fun h => h.life ≠ .absent
  { s with
    sh := if mine s.sh then Sheaf.absent else s.sh
    peers := others ++ fresh
    parking := s.parking.filter fun w => !(s.sheaves.any fun h => mine h && h.uid = w.sheaf)
    deaths := s.deaths.filter fun g => !(s.group g).any fun x => x.task = tid
    groups := s.groups.filter (fun g => g.task ≠ tid) ++ c.groups
    tasks := s.tasks.map fun t => if t.tid = tid then { c.task with ended := false } else t
    bins := s.bins.filter (fun b => b.task ≠ tid) ++ c.bins
    scoreboard := s.scoreboard.filter (fun e => !(s.sheaves.any fun h => h.uid = e.sheaf && h.task = tid)) ++ c.entries
    mem := c.cells.foldl (fun m x => writeByte m x.1 x.2) (s.mem.filter fun x => !held x.1)
    lines := c.lines.foldl (fun l x => storeWrite lineDefault l x.1 x.2) (s.lines.filter fun x => !held x.1) }

/-- The Newts forget the closed sets of a task, and get those of a checkpoint (R391, R497). -/
def State.regiveSets (s : State) (c : Checkpoint) : State :=
  let keep := fun (j : Job) => match j with | .set _ t _ _ => t ≠ c.task.tid | .groups _ _ _ => true
  let t : State := { s with clusters := Vector.ofFn fun i => { s.clusters[i] with newt := s.clusters[i].newt.filter keep } }
  (c.bins.flatMap fun b => b.closed.map fun x => (b, x.number)).foldl (fun u x => u.giveSet c.task x.1.die x.1.node x.2) t

/-- REPLAY: restore the checkpoint of a round and run the task to a stop point (R497). -/
def execReplay (tid round sheaf stop : Nat) (s : State) : Out :=
  .next (match s.checkpoints.find? fun c => c.task.tid = tid && c.task.round ≤ round && c.task.round + c.task.checkpointEvery > round with
    | none => s
    | some c =>
      (State.post { (s.restoreCheckpoint c).regiveSets c with stop := some (tid, round, sheaf, stop) }
        ((c.groups.filter fun g => g.saved && !g.freed).map fun g => .groupRestore g.gid)))

/-- The sheaf in the issue slot has come to the stop point of a replay (R497). -/
def State.atStop (s : State) : Bool :=
  s.stop.any fun p => p.1 = s.sh.task && p.2.1 = s.sh.round && p.2.2.1 = s.sh.sheafNo.toNat && p.2.2.2 ≤ s.sh.retired

end Sys2Proof.Machine
end

