-- ==== Sys2Proof/Machine/Group.lean ====
section
/-!
DEFINITION. The next group of a sheaf: its words and how they are told from the words after them (R29-R34), and the checks before
it issues (R51, R55, R56).
-/

namespace Sys2Proof.Machine

open Sys2Proof

/-! ### The words of a group (R29, R30, R33) -/

/-- A word of a group: the word and its EXT, where it stands, and what it is. -/
structure GWord where
  word : Word
  ext : Option Word
  addr : Nat
  instr : Except DecErr Instr

/-- What the word names, whether or not its other fields are legal (R51). -/
def GWord.meant (g : GWord) : Option Instr :=
  match g.instr with
  | .ok i => some i
  | .error _ => Sys2Proof.meant g.word (g.ext.map fun x => x.extractLsb' 0 23)

/-- Words from `a` to the end of its packet that exist: at most `k`. -/
def State.packetFrom (s : State) (h : Sheaf) (a : Nat) : Nat → List Word
  | 0 => []
  | k + 1 =>
    if s.codeWords h ≤ a then []
    else match s.codeWord h a with | none => [] | some w => w :: s.packetFrom h (a + 1) k

/-- A VER 01 word and what CH ties to it, up to a word of another VER (R30). -/
def nativeChain : List Word → List Word
  | [] => []
  | [w] => [w]
  | w :: x :: r => if fCh w then (if fVer x = 1 then w :: nativeChain (x :: r) else [w, x]) else [w]

/-- The words of the group that starts at the head (R30, R33). -/
def groupOf : List Word → List Word
  | [] => []
  | w :: r => if fVer w = 1 then nativeChain (w :: r) else w :: (joinedExt w r).toList

/-- A word of the group that breaks R30, by its place: the last one, when its CH ties it to nothing, or one before a word of
another VER. -/
def chainBreak : List Word → Option Nat
  | [] => none
  | [w] => if fVer w = 1 && fCh w then some 0 else none
  | w :: x :: r => if fVer w = 1 && fVer x ≠ 1 then some 0 else if fVer w = 1 then (chainBreak (x :: r)).map (· + 1) else none

/-- Join each EXT to its owner and decode (R33); a word that may not stand there decodes to an error. -/
def parseGroup (a : Nat) : List Word → List GWord
  | [] => []
  | [w] => [{ word := w, ext := none, addr := a, instr := decodeWord w none }]
  | w :: x :: r =>
    if (joinedExt w [x]).isSome then
      { word := w, ext := some x, addr := a, instr := decodeWord w (some (x.extractLsb' 0 23)) } ::
        (if fVer x = fVer w then parseGroup (a + 2) r
          else [{ word := x, ext := none, addr := a + 1, instr := .error .strayExt }])
    else { word := w, ext := none, addr := a, instr := decodeWord w none } :: parseGroup (a + 1) (x :: r)

/-! ### Checks over a group (R51) -/

/-- Pipes for every word at once (R31). -/
def pipesOk (ps : List Pipe) : Bool :=
  let n := fun (p : Pipe) => (ps.filter (· = p)).length
  n .m ≤ 1 && n .s ≤ 1 && n .a ≤ 1 && n .b ≤ 1 && n .a + n .b + n .ab ≤ 2

/-- No two words write the same register (R32). -/
def writesApart : List Use → Bool
  | [] => true
  | u :: r =>
    r.all (fun x => u.writeRegs.all (fun c => !x.writeRegs.contains c) && u.sw.all (fun c => c = 0 || !x.sw.contains c) &&
      u.kw.all (fun c => !x.kw.contains c) && !(u.emw && x.emw)) && writesApart r

/-- The pipe of each word (R31): of a word that does not decode, the pipe of what it names, or of its major. -/
def Sheaf.pipes (h : Sheaf) (gs : List GWord) : List Pipe :=
  gs.filterMap fun g => match g.meant with | some i => some (h.use i).pipe | none => majorPipe g.word

/-- What each word itself writes (R32): the unit, not the MLOOP word, writes an accumulator (R288; LOG 15). -/
def Sheaf.wordUses (h : Sheaf) (gs : List GWord) : List Use :=
  gs.filterMap fun g => match g.meant with
    | some (.mloop la d sa sb) => some { h.use (.mloop la d sa sb) with writes := [] }
    | some i => some (h.use i)
    | none => none

/-- Another word of the group writes a register that an MLOOP of it keeps pending (R55). -/
def Sheaf.loopClash (h : Sheaf) (gs : List GWord) (g : GWord) : Bool :=
  match g.instr with
  | .ok i =>
    let others := gs.filter fun x => x.addr ≠ g.addr
    (h.use i).writeRegs.any fun c => others.any fun x => match x.instr with
      | .ok (.mloop la d sa sb) => ((h.use (.mloop la d sa sb)).readRegs).contains c
      | _ => false
  | .error _ => false

/-- Windows as the next group issues: the group after the last of a window closes it (R55). -/
def stepWindows (ws : List Window) : List Window := (ws.filter (·.rem ≠ 0)).map fun w => { w with rem := w.rem - 1 }

/-- The sheaf with the windows that its next group is checked against (R56). -/
def Sheaf.atGroup (h : Sheaf) : Sheaf := { h with windows := stepWindows h.windows }

/-- The first word for which a check of the seven fails, with its cause (R51): the words of one group, in slot order; `mid` says that
a transfer has led into another group (R34), which like a clash of pipes or of writes (R31, R32) is the lowest slot's. -/
def State.groupCheck (s : State) (mid : Bool) (ws : List Word) (gs : List GWord) : Option (Cause × GWord) :=
  let h := s.sh.atGroup
  let on := fun (p : Instr → Bool) (g : GWord) => match g.instr with | .ok i => p i | .error _ => false
  let first := fun (c : Cause) (p : GWord → Bool) => (gs.find? p).map fun g => (c, g)
  let head := gs.head?.map fun g => (Cause.illgrp, g)
  let at_ := fun (k : Nat) => (ws[k]?).map fun w =>
    ({ word := w, ext := none, addr := ((gs.head?.map GWord.addr).getD 0) + k, instr := .error .unassignedMajor } : GWord)
  match ws.findIdx? fun w => fVer w = 3 with
  | some k => (at_ k).map fun g => (.illop, g)
  | none =>
    if mid || !pipesOk (h.pipes gs) || !writesApart (h.wordUses gs) then head
    else match chainBreak ws with
    | some k => (at_ k).map fun g => (.illgrp, (gs.find? fun x => x.addr = g.addr).getD g)
    | none =>
      (first .illop fun g => match g.instr with | .error _ => true | .ok i => 1 < gs.length && !(h.use i).legal).orElse fun _ =>
      if gs.length ≤ 1 then none
      else
        (first .priv (on fun i => privileged i && s.tag ≠ 0)).orElse fun _ =>
        (first .regbud (on fun i => (h.use i).overBudget h.budget)).orElse fun _ =>
        (first .laviol fun g => on h.violates g || h.loopClash gs g).orElse fun _ =>
        first .qdepth fun g => on (fun i => match (h.use i).queue with | some q => h.full q | none => false) g

/-- What the fetch of the sheaf in the issue slot finds: a fault, a packet it does not get, a trap of the group with the word it
reports, or a group. -/
inductive Fetched where
  | fault (f : Fault)
  | stop (c : CodeStop)
  | trap (c : Cause) (g : GWord)
  | group (gs : List GWord)

/-- The address of the next group's first word: the target of a REP in progress (R235), else the sheaf's. -/
def Sheaf.fetchAt (h : Sheaf) : Nat := if h.rep.isSome then h.pc.toNat + 1 else h.pc.toNat

/-- The words of the next group: of a REP's target, the word of this repeat (R234). -/
def State.nextWords (s : State) : List Word :=
  let a := s.sh.fetchAt
  let ws := groupOf (s.packetFrom s.sh a (3 - a % 3))
  match s.sh.rep, ws with
  | some r, w :: x => repWord r w s.sh.rpNext :: x
  | _, _ => ws

/-- Fetch, form and check the next group (R29-R34, R51). DEDUCED (LOG 7): the packet is fetched whole. -/
def State.fetch (s : State) : Fetched :=
  let a := s.sh.fetchAt
  if s.codeWords s.sh ≤ a then .fault .pastCode
  else match s.codeStop s.sh (packetAt a) with
  | some c => .stop c
  | none =>
    let ws := s.nextWords
    let gs := parseGroup a ws
    match s.groupCheck (s.sh.rep.isNone && s.midGroup s.sh a) ws gs with
    | some (c, g) => .trap c g
    | none => .group gs

/-- Registers of a word that are pending outside every open window (R56). -/
def Sheaf.lateRegs (h : Sheaf) (g : GWord) : List Nat :=
  match g.instr with
  | .error _ => []
  | .ok i =>
    let u := h.use i
    if u.legal then (u.readRegs ++ u.writeRegs).filter fun c =>
      h.pending.contains c && !(h.exempt i).contains c && !(h.windows.any fun w => w.regs.contains c)
    else []

/-- A register the group names is pending outside every open window, so the sheaf stalls (R56). -/
def State.awaits (s : State) (gs : List GWord) : Bool :=
  let h := s.sh.atGroup
  h.pending ≠ [] && gs.any fun g => h.lateRegs g ≠ []

/-- The word that produces the first pending register a group waits for (R56). -/
def Sheaf.producer (h : Sheaf) (gs : List GWord) : Option (BitVec 32) :=
  (gs.flatMap h.atGroup.lateRegs).head?.bind fun c =>
    ((h.loads.find? fun l => l.dest.any fun d => d.1 = c).map PendLoad.pc).orElse fun _ =>
      (h.loops.find? fun l => l.regs.contains c).map Loop.pc

/-- The word is a wait (R53): it begins with its group and ends where its condition holds. An SRD or SWR of %fpflags waits for the
loops of its own group (R100); those of earlier groups hold its group back. -/
def isWait (i : Instr) : Bool :=
  match i with
  | .sleep _ | .sleepb _ _ | .waitb _ _ | .rwait _ _ _ | .mwait _ | .barwt _ _ _ | .barsyn _ _ | .bararv _ _ _
  | .fence _ _ | .fencesc _ | .safept _ | .qend | .stepend | .tbwait _ | .waitsig _ _ _ _ _ | .cwait _ _ | .ldcStep _ _ _ _ _ _ | .pub _ _ | .halt => true
  | .srd p _ | .swr p _ => p = 18
  | _ => false

end Sys2Proof.Machine
end

