-- ==== Sys2Proof/Machine/Platform.lean ====
section
/-!
DEFINITION. The part around the cores: partitions and swaps (R461-R467), virtual functions, firmware and security
(R475-R483), fabric and collectives (R484-R488), observation (R490-R495), clock and power (R498-R500).
-/

namespace Sys2Proof.Machine

open Sys2Proof

/-! ### Residency and swaps (R462-R467) -/

/-- Add a bit to a mask, and take one away. -/
def setBit (x : DWord) (n : Nat) : DWord := x ||| BitVec.ofNat 64 (2 ^ n)
def clearBit (x : DWord) (n : Nat) : DWord := x &&& ~~~(BitVec.ofNat 64 (2 ^ n))

/-- The function becomes resident on a partition, and its slice begins (R462, R463). -/
def State.setResident (s : State) (p fn : Nat) : State :=
  (s.onPart p fun q => { q with resident := some fn, since := s.gtc.toNat }).onFn fn fun v => { v with res := setBit v.res p }

/-- Work of a function that may go on now that it is resident: commands, units, saved groups, gangs (R462, R465). -/
def State.stirFn (s : State) (fn : Nat) : State :=
  let mine := fun (tid : Nat) => (s.task tid).any fun t => t.fn = fn && !t.ended
  let t := (s.contexts.filter fun c => c.fn = fn && !c.ended).foldl (fun u c => u.queuesGo c.tag) s
  t.post (((s.groups.filter fun g => g.saved && !g.freed && mine g.task).map fun g => .groupRestore g.gid) ++
    (((List.range 64).filter fun c => (s.clusters[c]?).any fun k => k.newt ≠ []).map fun c => .groupPlacement c) ++
    (((List.range 8).filter fun d => (s.dies[d]?).any fun k => k.units ≠ [] || k.pieces ≠ []).map fun d => .unitHandout d) ++
    (s.tasks.filter fun k => k.fn = fn && k.gang.waits).map fun k => .gangRetry k.tid)

/-- A function bound to a partition has work that waits: a command not yet complete, or a task not yet ended (R463). -/
def State.wants (s : State) (fn : Nat) : Bool :=
  (s.fns[fn]?).any (fun v => v.queues.toList.any fun q => q.running ≠ [] || (q.cfg.getLsbD 0 && q.head ≠ q.tail)) ||
    s.tasks.any fun t => t.fn = fn && !t.ended

/-- Functions enabled and bound to a partition, in VF order starting after one (R463). -/
def State.turnOf (s : State) (p after : Nat) : List Nat :=
  ((List.range 96).map fun k => (after + 1 + k) % 96).filter fun f =>
    (s.fns[f]?).any fun v => v.enabled && v.parts.getLsbD p

/-- A sheaf has issued its first group (R467). -/
def Sheaf.begun (h : Sheaf) : Bool := h.life ≠ .live || h.retired ≠ 0 || h.round ≠ 0 || h.wait.isSome || h.mid

/-- A committed gang launch holds a partition until each of its sheaves has issued its first group (R467). -/
def State.gangHolds (s : State) (p : Nat) : Bool :=
  s.tasks.any fun t => !t.ended && t.lrec.partMask.getLsbD p && (match t.gang with
    | .committed _ => true
    | .started => s.sheaves.any fun h => h.task = t.tid && !h.fromBin && !h.begun
    | _ => false)

/-- Groups of a function placed on a cluster. -/
def State.fnGroups (s : State) (fn c : Nat) : List Group :=
  s.groups.filter fun g => !g.freed && !g.saved && g.core / 8 = c && (s.task g.task).any fun t => t.fn = fn

/-- A job of a function. -/
def State.jobOf (s : State) (fn : Nat) (j : Job) : Bool :=
  match j with
  | .groups tid _ _ => (s.task tid).any fun t => t.fn = fn
  | .set _ tid _ _ => (s.task tid).any fun t => t.fn = fn

/-- Of some groups with their sizes, those that do not fit what is left of a slot, each taken whole where it fits (R465). -/
def slotSpill : Nat → List (Nat × Nat) → List Nat
  | _, [] => []
  | left, (g, n) :: r => if n ≤ left then slotSpill (left - n) r else g :: slotSpill left r

/-- Bytes of a saved group (R452). -/
def State.groupBytes (s : State) (gid : Nat) : Nat := ((s.group gid).map s.stateBytes).getD 0

/-- Groups of a cluster's state that go to the spill area: its counters and queue lie in the slot (R465). -/
def State.spillOf (s : State) (gs : List Nat) (jobs : Nat) : List Nat :=
  slotSpill (Config.shadowSlot - 128 - 16 * jobs) (gs.map fun g => (g, s.groupBytes g))

/-- The spill of a cluster's state fits its function's area beside what lies there (R465). -/
def State.spillFits (s : State) (x : Shadow) : Bool :=
  let there := (s.dies.toList.flatMap fun d => d.slots.toList.filterMap id).filter fun y => y.fn = x.fn
  x.spill = [] || (((x :: there).flatMap Shadow.spill).map s.groupBytes).foldl (· + ·) 0 ≤ Config.spillArea x.fn

/-- Keep a cluster's state in an empty slot of its die, with a spill where it does not fit, or, with no such slot or no room for the
spill, with what is saved to device memory (R26, R465). -/
def State.keepShadow (s : State) (x : Shadow) : State :=
  match s.dies[x.cluster / 8]? with
  | none => s
  | some d =>
    match (List.range 2).find? fun i => d.slots[i]? = some none && s.spillFits x with
    | some i => s.onDie (x.cluster / 8) fun d => { d with slots := d.slots.setIfInBounds i (some x) }
    | none => { s with saves := s.saves ++ [{ x with spill := [] }] }

/-- The outgoing state of a cluster leaves it: groups, counters, the Newt's queue (R464, R465). -/
def State.swapOut (s : State) (fn c : Nat) : State :=
  match s.clusters[c]? with
  | none => s
  | some k =>
    let gs := (s.fnGroups fn c).map Group.gid
    let mine := k.newt.filter (s.jobOf fn)
    let s1 := gs.foldl State.saveGroup s
    let s2 := s1.onCluster c fun k =>
      { k with counters := Vector.replicate 16 0, newt := k.newt.filter fun j => !mine.contains j }
    s2.keepShadow { fn := fn, cluster := c, spill := s2.spillOf gs mine.length, groups := gs, counters := k.counters, newt := mine }

/-- A group comes back from a slot, or from its spill, to the place it had (R465). -/
def State.unshadow (s : State) (gid : Nat) : State :=
  match s.group gid with
  | none => s
  | some g => if g.saved && !g.freed then s.restoreAt gid g.core g.spadBase else s

/-- Groups come back together: their scoreboard entries keep their order (R197), and paced ones may advance. -/
def State.unshadowAll (s : State) (gs : List Nat) : State :=
  gs.foldl State.postAdvance ((gs.foldl State.unshadow s).reregister gs)

/-- A cluster's counters and queue come back. -/
def State.takeShadow (s : State) (x : Shadow) : State :=
  s.onCluster x.cluster fun k => { k with counters := x.counters, newt := k.newt ++ x.newt }

/-- The incoming state of a cluster is read from the slot that holds it, which becomes empty, or from device memory (R465);
its groups saved there are restored by GROUP_RESTORE. -/
def State.swapIn (s : State) (fn c : Nat) : State :=
  let is := fun (x : Shadow) => x.fn = fn && x.cluster = c
  let slot := ((s.dies[c / 8]?).map fun d => d.slots.toList.filterMap id).getD []
  match slot.find? is with
  | some x =>
    let clear := fun (d : Die) => { d with slots := d.slots.map fun y => if y.any is then none else y }
    ((s.onDie (c / 8) clear).takeShadow x).unshadowAll x.groups
  | none =>
    match s.saves.find? is with
    | some x => ({ s with saves := s.saves.filter fun y => !is y }).takeShadow x
    | none => s

/-- A swap of a partition, cluster by cluster (R464); the first of each pair is written before the second is read. -/
def State.swapPartition (s : State) (p out inn : Nat) : State :=
  let t := (s.partClusters p).foldl (fun u c => (u.swapOut out c).swapIn inn c) s
  ((t.onFn out fun v => { v with res := clearBit v.res p }).setResident p inn).stirFn inn

/-- A function takes a partition that no other holds, with what a swap kept of it (R463, R465). -/
def State.takePartition (s : State) (p inn : Nat) : State :=
  (((s.partClusters p).foldl (fun u c => u.swapIn inn c) s).setResident p inn).stirFn inn

/-- A sheaf on a partition cannot be drained yet (R450, R455). -/
def State.swapWaits (s : State) (p out : Nat) : Bool :=
  (s.partClusters p).any fun c => (s.fnGroups out c).any fun g => (s.members g.gid).any s.drainWaits

/-- TIME_SLICE_END: another bound function with work takes its turn; without one the resident stays (R463, R464, R467). -/
def execTimeSliceEnd (part : Nat) (s : State) : Out :=
  .next (match s.part part with
    | none => s
    | some p =>
      match p.resident with
      | none => (match (s.turnOf part 95).find? s.wants with | some f => s.takePartition part f | none => s)
      | some r =>
        if s.gangHolds part then s
        else match (s.turnOf part r).find? fun f => f ≠ r && s.wants f with
          | none => s.onPart part fun q => { q with since := s.gtc.toNat }
          | some f => if s.swapWaits part r then s else s.swapPartition part r f)

/-- CORE_RELEASE: the Newt releases a halted core; its sheaves go on, the halting one too (R461, R464). -/
def execCoreRelease (core : Nat) (s : State) : Out :=
  .next (State.mapSheaves { s with halted := s.halted.filter (·.1 ≠ core) } fun h =>
    if (s.group h.group).any (·.core = core) then { h with coreHalt := false } else h)

/-! ### Partitions and virtual functions (R24, R25, R462, R478, R500) -/

/-- A cluster is bound to a partition: its state is cleared, as at reset (R85, R500). -/
def State.powerOn (s : State) (c : Nat) : State :=
  ((s.dropRange (spadKey (8 * c) 0) (8 * 2 ^ 20)).emptyTlb c).onCluster c fun _ => { Cluster.zero with powered := true }

/-- A cluster bound to no partition is off (R500). -/
def State.powerOff (s : State) (c : Nat) : State := (s.emptyTlb c).onCluster c fun _ => Cluster.zero

/-- A partition as the monitor makes it, its registers at reset (R76, R81). -/
def Partition.fresh (n : Nat) (cs : List Nat) : Partition :=
  { num := n, clusters := cs, nqcfg := 0, nqtail := 0, nqhead := 0, nqdrop := 0, cthr := 0x01000100, waiting := []
    windows := [], nqfull := false, resident := none, since := 0 }

/-- The clusters named may form the partition: whole, distinct, and no other's (R24). -/
def State.clustersFree (s : State) (part : Nat) (cs : List Nat) : Bool :=
  cs.all (fun c => c < 64 && !(s.partitions.any fun p => p.num ≠ part && p.clusters.contains c)) && cs.dedup = cs

/-- PARTITION_CONFIGURE: create, resize or, with no cluster named, delete a partition that no function is bound to (R462). -/
def execPartitionConfigure (part : Nat) (clusters : List Nat) (s : State) : Out :=
  .next (
    let bound := s.fns.toList.any fun v => v.parts.getLsbD part
    if bound || 64 ≤ part || !s.clustersFree part clusters then s
    else
      let old := s.partClusters part
      let s1 := (old.filter fun c => !clusters.contains c).foldl State.powerOff s
      let s2 := (clusters.filter fun c => !old.contains c).foldl State.powerOn s1
      if clusters = [] then { s2 with partitions := s2.partitions.filter (·.num ≠ part) }
      else if (s2.part part).isSome then s2.onPart part fun p => { p with clusters := clusters }
      else { s2 with partitions := s2.partitions ++ [Partition.fresh part clusters] })

/-- Record one measurement block (R480). -/
def Firmware.measure (f : Firmware) (index digest : Nat) : Firmware :=
  { f with measured := f.measured.filter (·.1 ≠ index) ++ [(index, digest)] }

/-- VF_ENABLE: the function runs with a policy image that the monitor holds, or stays disabled (R478). It is resident on a
partition that no other is resident on (R463). DESIGN CHOICE (LOG 24): R25 binds a function to one partition, R374 and R462 to any
set of them: the monitor binds it to those of `parts` that exist, and to none the function stays disabled, as it does while a
function-level reset drains (R482). -/
def execVfEnable (fn policy : Nat) (parts : DWord) (s : State) : Out :=
  .next (
    match (s.fns[fn]?).bind fun v => if v.enabled || v.resetting then none else s.firmware.policies.find? (·.version = policy) with
    | none => s
    | some x =>
      let ps := (s.partitions.map Partition.num).filter fun p => parts.getLsbD p
      if ps = [] then s else
      let s1 := s.onFn fn fun v => { v with enabled := true, policy := some x, parts := ps.foldl setBit 0 }
      let s2 := ps.foldl (fun t p => t.onPart p fun q => { q with cthr := x.cthr }) s1
      let s3 := { s2 with firmware := s2.firmware.measure (16 + fn) x.image.digest }
      ps.foldl (fun t p => if (t.part p).any (·.resident.isNone) then t.setResident p fn else t) s3)

/-! ### Firmware and security (R479-R481) -/

/-- Proenapin accepts an image: its signature verifies and its security version is not below the fuses' (R479, R480). -/
def imageOk (i : FwImage) (fuses : Nat) : Bool := i.signatureOk && fuses ≤ i.secVersion

/-- MONITOR_UPDATE: a verified image takes over with the tables as they stand; a failed check is reported (R479). -/
def execMonitorUpdate (image : FwImage) (s : State) : Out :=
  .next (
    let f := s.firmware
    if imageOk image f.fuses then { s with firmware := { f with monitor := some image }.measure 2 image.digest }
    else { s with firmware := { f with failures := f.failures ++ ["monitor update refused"] } })

/-- What measurement block 3 covers: the fuse configuration, and the security versions of the fuses and of both images (R480). -/
def fuseDigest (proenapin monitor : FwImage) (fuses : Nat) : Nat :=
  Config.digest (Config.fuseBytes fuses ++ leBytes 8 fuses ++ leBytes 8 proenapin.secVersion ++ leBytes 8 monitor.secVersion)

/-- Firmware after a module reset: each image is verified and measured before it runs, in layer order (R480). -/
def Firmware.boot (proenapin monitor : FwImage) (fuses : Nat) (policies : List Policy) : Firmware :=
  let f := { Firmware.zero with fuses := fuses }
  if !imageOk proenapin fuses then { f with failures := ["Proenapin refused"] }
  else
    let f1 := ({ f with proenapin := some proenapin }.measure 1 proenapin.digest).measure 3 (fuseDigest proenapin monitor fuses)
    if !imageOk monitor fuses then { f1 with failures := ["monitor refused"] }
    else { f1 with monitor := some monitor, policies := policies.filter fun p => imageOk p.image fuses }.measure 2
      monitor.digest

/-- MODULE_RESET: the module is as after reset with its firmware verified; the ring oscillators are measured (R480, R499). -/
def execModuleReset (proenapin monitor : FwImage) (fuses : Nat) (policies : List Policy) (_s : State) : Out :=
  .next { State.reset with
    firmware := Firmware.boot proenapin monitor fuses policies
    agenda := (List.range 8).map fun d => .ageingCheck d (Config.ageing d) }

/-- Function number that names the physical function in an SPDM request. -/
def physicalFn : Nat := 96

/-- Proenapin answers a request of a function, while it runs (R481). -/
def State.answer (s : State) (fn : Nat) (request : String) (content : List Nat) (signed : Option Nat) : State :=
  let f := s.firmware
  if f.proenapin.isNone || physicalFn < fn then s
  else { s with firmware := { f with answers := f.answers ++ [{ fn := fn, request := request, content := content, signed := signed }] } }

/-- GET_VERSION: SPDM 1.3 (R481). -/
def execGetVersion (fn : Nat) (s : State) : Out := .next (s.answer fn "GET_VERSION" [1, 3] none)
/-- GET_CAPABILITIES: the requests answered, 0 to 6 in the order of R481. -/
def execGetCapabilities (fn : Nat) (s : State) : Out := .next (s.answer fn "GET_CAPABILITIES" (List.range 7) none)
/-- NEGOTIATE_ALGORITHMS: RSASSA-4096 and SHA-512 (R481). -/
def execNegotiateAlgorithms (fn : Nat) (s : State) : Out := .next (s.answer fn "NEGOTIATE_ALGORITHMS" [4096, 512] none)
/-- GET_DIGESTS: the digest of the certificate chain (R481). -/
def execGetDigests (fn : Nat) (s : State) : Out :=
  .next (s.answer fn "GET_DIGESTS" [Config.digest (Config.certificate 0)] none)
/-- GET_CERTIFICATE: the chain (R481). -/
def execGetCertificate (fn : Nat) (s : State) : Out :=
  .next (s.answer fn "GET_CERTIFICATE" ((Config.certificate 0).map BitVec.toNat) none)
/-- CHALLENGE: the nonce under Proenapin's signature (R481). -/
def execChallenge (fn nonce : Nat) (s : State) : Out :=
  .next (s.answer fn "CHALLENGE" [nonce] (some (Config.signature nonce)))

/-- Measurement blocks a function may ask for (R481). -/
def mayMeasure (fn index : Nat) : Bool := fn = physicalFn || (1 ≤ index && index ≤ 3) || index = 16 + fn

/-- GET_MEASUREMENTS: the digest of the image that runs now, signed; of another function's block nothing (R481). -/
def execGetMeasurements (fn index : Nat) (s : State) : Out :=
  .next (match s.firmware.measured.find? fun m => m.1 = index && mayMeasure fn index with
    | some m => s.answer fn "GET_MEASUREMENTS" [m.1, m.2] (some (Config.signature m.2))
    | none => s.answer fn "GET_MEASUREMENTS" [] none)

/-! ### Reset and migration of a function (R482, R483) -/

/-- A function leaves its partitions with its counts and its queued jobs, and the next bound one, of those with work if there are,
takes its place with what a swap kept of it (R463, R465, R490). -/
def State.vacate (s : State) (fn : Nat) : State :=
  s.partitions.foldl (fun t p =>
    if p.resident ≠ some fn then t
    else
      let leave := fun (k : Cluster) => { k with counters := Vector.replicate 16 0, newt := k.newt.filter fun j => !t.jobOf fn j }
      let u := p.clusters.foldl (fun u c => u.onCluster c leave) (t.onPart p.num fun q => { q with resident := none })
      let next := (u.turnOf p.num fn).filter (· ≠ fn)
      match (next.find? u.wants).orElse fun _ => next.head? with | some f => u.takePartition p.num f | none => u) s

/-- A function's registers, slots and pinned policy go (R482). -/
def State.shutFn (s : State) (fn : Nat) : State :=
  let keep := fun (x : Shadow) => x.fn ≠ fn
  let clear := fun (d : Die) => { d with slots := d.slots.map fun y => if y.any (fun x => x.fn = fn) then none else y }
  let t := (List.range 8).foldl (fun u d => u.onDie d clear) s
  let f := t.firmware
  State.vacate
    { t.onFn fn fun _ => VirtFn.zero with
      saves := t.saves.filter keep
      latch := t.latch.filter (·.1 ≠ fn)
      held := t.held.filter (·.command.fn ≠ fn)
      iwrites := t.iwrites.filter (·.fn ≠ fn)
      firmware := { f with measured := f.measured.filter (·.1 ≠ 16 + fn) } } fn

/-- A key in host memory. -/
def isHost (k : Nat) : Bool := (2 * spaceSize ≤ k && k < 3 * spaceSize) || 8 * spaceSize ≤ k

/-- A write of a repeatable sheaf goes to host memory. -/
def BufWrite.toHost : BufWrite → Bool | .bytes _ k _ _ _ => isHost k | _ => false

/-- So does a deferred operation. -/
def Deferred.toHost : Deferred → Bool | .atomic _ k _ _ _ _ _ | .signal _ k _ _ _ => isHost k | _ => false

/-- The requests of a batch that write host memory go (R482). -/
def State.cutHost (s : State) (b : Batch) : Batch :=
  let stays := fun (r : CopyReq) => match s.copyKey (routeDst r.route) .copyDst r.dst with | .ok (k, _) => !isHost k | .error _ => true
  { b with cpys := b.cpys.map fun c =>
      { c with reqs := c.reqs.filter stays, held := ((c.reqs.zip c.held).filter fun x => stays x.1).map Prod.snd } }

/-- Host writes of the sheaf in the issue slot that have not been sent are discarded (R482). -/
def State.dropHost (s : State) : State :=
  let s1 := s.upd fun h => { h with buf := h.buf.filter fun w => !w.toHost, defer := h.defer.filter fun d => !d.toHost }
  let cut := fun (shut : Bool) (t : State) (b : Batch) => (t.retireDone (t.cutHost b)).setBatch shut (t.cutHost b)
  s1.sh.batches.foldl (cut true) (if s1.sh.openCpys = [] then s1 else cut false s1 s1.sh.openBatch)

/-- A function under reset whose work in flight has drained is ready: the monitor reclaims what it had, and unpins its policy image
(R482). -/
def State.finishReset (s : State) (fn : Nat) : State :=
  if (s.fns[fn]?).any VirtFn.resetting && s.contexts.all fun c => c.fn ≠ fn || c.released then s.shutFn fn else s

/-- FUNCTION_LEVEL_RESET, in the order of R482: queues off, contexts ended with cause 0x00 (and with them its trace), host writes not
yet sent discarded, its collectives abandoned; its registers and slots are reclaimed once what it issued has drained. -/
def execFunctionLevelReset (fn : Nat) (s : State) : Out :=
  .next (if 96 ≤ fn then s
    else
      let off := fun (q : Queue) => { q with cfg := q.cfg &&& ~~~1#64 }
      let s1 := s.onFn fn fun v => { v with enabled := false, resetting := true, queues := v.queues.map off, cq := off v.cq }
      let s2 := ((s1.contexts.filter (·.fn = fn)).map Context.tag).foldl (fun t g => t.endContext g 0 0 none 0 0 0) s1
      let mine := (s2.sheaves.filter fun h => (s2.taskOf h).any fun t => t.fn = fn).map Sheaf.uid
      let s3 := mine.foldl (fun t u => t.as u State.dropHost) s2
      let s4 := { s3 with parking := s3.parking.filter fun w => !(isHost w.frame && s3.fnOf w.tag = fn) }
      (s4.abandon (s.isMember fn)).finishReset fn)

/-- The function can leave: its groups drain, and its repeatable tasks stand between rounds (R483). -/
def State.mayLeave (s : State) (fn : Nat) : Bool :=
  s.sheaves.all fun h => match s.taskOf h with
    | none => true
    | some t => t.fn ≠ fn || h.life ≠ .live ||
        (!s.drainWaits h && (!t.lrec.flags.getLsbD 0 || (h.retired = 0 && h.buf = [] && h.defer = [])))

/-- Pages of a function that peers reach, by fabric offset (R66, R483). -/
def State.peerPages (s : State) (fn : Nat) : List Nat :=
  let mine := fun (k : Nat) => (s.context (s.frameOwner k)).any fun c => c.fn = fn
  (s.partitions.flatMap Partition.windows).flatMap fun w =>
    ((List.range (w.size / 65536)).filter fun j => mine (w.key + 65536 * j)).map fun j => w.base / 65536 + j

/-- What the function had leaves the module: contexts, tasks, sheaves, groups, bins, frames. -/
def State.removeFn (s : State) (fn : Nat) : State :=
  let ctx := fun (g : BitVec 12) => (s.context g).any fun c => c.fn = fn
  let task := fun (tid : Nat) => (s.task tid).any fun t => t.fn = fn
  let frames := (s.contexts.filter (·.fn = fn)).flatMap Context.frames
  let t := frames.foldl (fun u f => u.clearRange 0 f.1 f.2) s
  { t with
    contexts := t.contexts.filter (·.fn ≠ fn)
    tasks := t.tasks.filter (·.fn ≠ fn)
    groups := t.groups.filter fun g => !task g.task
    bins := t.bins.filter fun b => !task b.task
    parking := t.parking.filter fun w => !ctx w.tag
    peers := t.peers.filter fun h => !task h.task
    sh := if task t.sh.task then Sheaf.absent else t.sh
    checkpoints := t.checkpoints.filter (·.task.fn ≠ fn)
    scoreboard := t.scoreboard.filter fun e => !(s.sheaf e.sheaf).any fun h => task h.task
    partitions := t.partitions.map fun p => { p with windows := p.windows.filter fun w => !ctx (s.frameOwner w.key) } }

/-- VF_MIGRATION: the function's groups are pre-empted and everything it has goes to the target; a stub stays for each page
that peers write (R483). Where this module is the target, what was saved is restored here (R454). -/
def execVfMigration (fn : Nat) (target : BitVec 21) (s : State) : Out :=
  .next (if 96 ≤ fn || !s.mayLeave fn then s
    else
      let gs := (s.groups.filter fun g => (s.task g.task).any fun t => t.fn = fn).map Group.gid
      let s1 := gs.foldl State.saveGroup s
      if target = s.modId then s1.stirFn fn else
      let stubs := (s.peerPages fn).map fun pg => (pg, target, s.gtc.toNat + Config.stubTime)
      let t := (s1.removeFn fn).shutFn fn
      { t with stubs := t.stubs ++ stubs })

/-- FORWARDING_STUB_EXPIRY: later writes to the page are answered with a NACK that carries the target's ID (R483). -/
def execForwardingStubExpiry (page : Nat) (s : State) : Out :=
  .next { s with stubs := s.stubs.map fun x => if x.1 = page then (x.1, x.2.1, 0) else x }

/-! ### Collectives (R486-R488) -/

/-- CQCFG_WRITE (R486): as LQCFGq. -/
def execCqcfgWrite (fn : Nat) (val : DWord) (s : State) : Out :=
  .next (s.onFn fn fun v => { v with cq := v.cq.configure val })

/-- The ops a descriptor may name (R486). -/
def collOpOk (op : Nat) : Bool := op ≤ 3 || (12 ≤ op && op ≤ 15)

/-- A descriptor's fields, and whether they keep R486. -/
structure CollDesc where
  kind : Nat
  op : Nat
  n : Nat
  index : Nat
  cid : Nat
  count : Nat
  src : Nat
  dst : Nat
  table : Nat
  signal : Nat
  value : Nat
  ok : Bool
  deriving DecidableEq, Repr

/-- The fields of a descriptor from its words (R486). -/
def CollDesc.of (w : Nat → Nat) : CollDesc :=
  let kind := w 0 % 2 ^ 8
  let op := bits (w 0) 15 8
  let n := bits (w 0) 23 16
  let index := bits (w 0) 31 24
  { kind := kind, op := op, n := n, index := index, cid := w 1 % 2 ^ 32, count := w 1 / 2 ^ 32, src := w 2, dst := w 3
    table := w 4, signal := w 5, value := w 6
    ok := 1 ≤ kind && kind ≤ 3 && collOpOk op && 2 ≤ n && n ≤ 64 && index < n && w 0 / 2 ^ 40 = 0 }

/-- The hub's writes for a participant: of its function and collective, in order, to its descriptor's memory (R486). -/
def CollMember.write (m : CollMember) (part : Nat) (cid : BitVec 32) : IguanaWrite :=
  { fn := m.fn, queue := 8, count := cid, tag := m.tag, part := part, host := m.host, addr := m.addr, bytes := [] }

/-- Bytes at a device address as the hub writes them, line by line. -/
def IguanaWrite.bytesAt (w : IguanaWrite) (va : Nat) (bs : List Byte) : List IguanaWrite :=
  (linePieces (bs.length / 64 + 2) va bs).map fun p => { w with host := false, addr := p.1, bytes := p.2 }

/-- The write of a descriptor's status (R486). -/
def IguanaWrite.collStatus (w : IguanaWrite) (status : Nat) : IguanaWrite := { w.at 4 [BitVec.ofNat 8 status] with release := true }

/-- The writes of the abandoned mask and the status of a descriptor whose collective is complete (R486). -/
def IguanaWrite.collDone (w : IguanaWrite) (status mask : Nat) : List IguanaWrite := [w.at 0x38 (leBytes 8 mask), w.collStatus status]

/-- A descriptor joins the collective of its ID and table, or begins it (R487). -/
def State.joinCollective (s : State) (d : CollDesc) (table : List Nat) (m : CollMember) : State :=
  let is := fun (c : Collective) => c.cid.toNat = d.cid && c.table = table
  let t := if s.collectives.any is then
      { s with collectives := s.collectives.map fun c =>
          if is c && !c.abandoned.contains m.index then { c with members := c.members ++ [m] } else c }
    else
      { s with collectives := s.collectives ++ [{ cid := BitVec.ofNat 32 d.cid, table := table, kind := d.kind
                                                  op := BitVec.ofNat 4 d.op, count := d.count, members := [m]
                                                  abandoned := [], since := s.gtc.toNat }] }
  t.post ((t.collectives.filter is).map Collective.event)

/-- Bytes of an element (R129, R486). -/
def Collective.bytes (c : Collective) : Nat := c.count * atomBytes c.op

/-- The hub takes the descriptor at the head of a function's ring (R486); none when none is left, or it waits for memory. One it
cannot read in full is not performed (LOG 17). -/
def State.takeDesc (s : State) (fn : Nat) : Option State :=
  match s.fns[fn]? with
  | none => none
  | some v =>
    let k := v.cq
    let tag := s.fnTag fn
    if !k.cfg.getLsbD 0 || k.head = k.tail || !v.enabled then none
    else
      let a := k.slot k.head
      let rd := fun j => s.iguanaRead fn k.host tag (a + 8 * j) 8
      let adv := s.onFn fn fun v => { v with cq := { v.cq with head := v.cq.head + 1 } }
      let d := CollDesc.of fun j => match rd j with | .ok x => x | _ => 0
      let m : CollMember := { index := d.index, fn := fn, tag := tag, dst := d.dst, host := k.host, addr := a
                              signal := d.signal, value := BitVec.ofNat 64 d.value, data := [] }
      let bad := adv.igPut [(m.write (s.firstPart fn) (BitVec.ofNat 32 d.cid)).collStatus 4]
      let fails := fun (e : IgRead) => match e with
        | .fault _ | .wait => none
        | .bad key => some (bad.containError key)
        | _ => some bad
      let table := s.igWords tag d.table (if d.ok then d.n else 0)
      let gives := d.ok && !(d.kind = 3 && d.index ≠ 0)
      let data := s.igBytes tag d.src (if gives then d.count * atomBytes (BitVec.ofNat 4 d.op) else 0)
      match rd 0, table, data with
      | .ok _, .ok ws, .ok bs =>
        some (if d.ok && ws.all (fun e => e / 2 ^ 28 = 0) then adv.joinCollective d ws { m with data := bs } else bad)
      | .ok _, .error e, _ | .ok _, .ok _, .error e => fails e
      | e, _, _ => fails e

/-- The hub takes descriptors while there are any: at most `k`. -/
def State.takeDescs (s : State) (fn : Nat) : Nat → State
  | 0 => s
  | k + 1 => match s.takeDesc fn with | some t => t.takeDescs fn k | none => s

/-- The write reaches the ring's notify register (R486). -/
def State.cqNotify (s : State) (fn : Nat) (val : BitVec 32) : State :=
  match s.fns[fn]? with
  | none => s
  | some v =>
    if !v.enabled then s
    else match v.cq.notify val with
      | none => s
      | some k => (s.onFn fn fun v => { v with cq := k }).takeDescs fn (val - k.head).toNat

/-- CQNOTIFY_WRITE (R486), through the wake latch when the aperture is gated (R475). -/
def execCqnotifyWrite (fn : Nat) (val : BitVec 32) (s : State) : Out :=
  .next (if (s.fns[fn]?).any VirtFn.gated then s.latchWrite fn (.cqnotifyWrite fn val) else s.cqNotify fn val)

/-- Every participant on this module has contributed or is abandoned (R487); what another module's contribute is a free
value (LOG 17). -/
def State.collReady (s : State) (c : Collective) : Bool :=
  (List.range c.table.length).all fun j => c.abandoned.contains j || c.members.any (·.index = j) ||
    (c.table.getD j 0) % 2 ^ 21 ≠ s.modId.toNat

/-- What takes the place of an abandoned participant's element (R488). -/
def identity (op : BitVec 4) : Nat :=
  match op.toNat with
  | 2 => 0x7FFFFFFF
  | 3 => 0x80000000
  | 12 => 0x80000000
  | 13 => 0x8000000000000000
  | 14 => 0x7F800000
  | 15 => 0xFF800000
  | _ => 0

/-- What participant j gives: its bytes, or none when it is abandoned. -/
def State.collData (s : State) (c : Collective) (j : Nat) : Option (List Byte) :=
  if c.abandoned.contains j then none
  else match c.members.find? (·.index = j) with
    | some m => some m.data
    | none => some ((List.range c.bytes).map fun k => Config.contribution s.fresh j k)

/-- Element k of participant j, or the identity (R488). -/
def State.collElem (s : State) (c : Collective) (k j : Nat) : Nat :=
  let z := atomBytes c.op
  match s.collData c j with
  | none => identity c.op
  | some bs => leNat ((bs.drop (k * z)).take z)

/-- One element of an all-reduce: the contributions in ascending participant index (R487). -/
def State.reduced (s : State) (c : Collective) (k : Nat) : Nat :=
  ((List.range (c.table.length - 1)).map (· + 1)).foldl
    (fun x j => atomNew c.op x (BitVec.ofNat 128 (s.collElem c k j))) (s.collElem c k 0)

/-- What every participant receives (R487, R488); none when a broadcast's root is abandoned. -/
def State.collResult (s : State) (c : Collective) : Option (List Byte) :=
  if c.kind = 1 then some ((List.range c.count).flatMap fun k => leBytes (atomBytes c.op) (s.reduced c k))
  else if c.kind = 2 then
    some ((List.range c.table.length).flatMap fun j => (s.collData c j).getD (List.replicate c.bytes 0))
  else s.collData c 0

/-- Bit j for each abandoned participant j (R486). -/
def Collective.mask (c : Collective) : Nat :=
  ((List.range c.table.length).map fun j => if c.abandoned.contains j then 2 ^ j else 0).foldl (· + ·) 0

/-- One participant of this module receives the result, its status and its signal (R486, R488). -/
def State.deliverColl (s : State) (c : Collective) (res : Option (List Byte)) (m : CollMember) : State :=
  let w := m.write (s.firstPart m.fn) c.cid
  let signal : List IguanaWrite := if m.signal = 0 then []
    else [{ w with host := false, addr := m.signal, bytes := leBytes 8 m.value.toNat, release := true }]
  s.igPut (w.bytesAt m.dst (res.getD []) ++ w.collDone (if res.isNone then 6 else if c.abandoned = [] then 2 else 5) c.mask ++ signal)

/-- A collective of a kind whose contributions are all in completes (R487). -/
def State.finishColl (s : State) (kind : Nat) (cid : BitVec 32) : State :=
  match s.collectives.find? fun c => c.kind = kind && c.cid = cid && s.collReady c with
  | none => s
  | some c =>
    let res := s.collResult c
    let t := c.members.foldl (fun u m => u.deliverColl c res m) s
    State.tick { t with collectives := t.collectives.erase c }

/-- ALL_REDUCE (R487). -/
def execAllReduce (cid : BitVec 32) (s : State) : Out := .next (s.finishColl 1 cid)
/-- ALL_GATHER (R487). -/
def execAllGather (cid : BitVec 32) (s : State) : Out := .next (s.finishColl 2 cid)
/-- BROADCAST (R486). -/
def execBroadcast (cid : BitVec 32) (s : State) : Out := .next (s.finishColl 3 cid)

/-- COLLECTIVE_TIMEOUT: a participant that has not contributed in time is abandoned (R488). -/
def execCollectiveTimeout (cid : BitVec 32) (participant : Nat) (s : State) : Out :=
  .next (s.abandon fun c j => c.cid = cid && j = participant && !c.members.any (·.index = j))

/-! ### The fabric (R484, R485) -/

/-- MODULE_ID_ASSIGN: before any partition is enabled; routes name the hub's 16 Z-link ports (R18, R484). -/
def execModuleIdAssign (id : BitVec 21) (routes : List (Nat × List Nat)) (s : State) : Out :=
  .next (if s.fns.toList.any VirtFn.enabled then s else { s with modId := id, routes := routes.map fun r => (r.1, r.2.filter (· < Config.zlinkPorts)) })

/-- Loads in flight to a module that no route reaches are rejected (R120, R485). -/
def Sheaf.stranded (h : Sheaf) (target : Nat) : List Event :=
  let lanes := fun (l : PendLoad) => (l.sites.filter fun p => p.2 / 2 ^ 43 = 3 * 2 ^ 21 + target).map Prod.fst
  (h.loads.filter fun l => l.remote && lanes l ≠ []).map fun l =>
    .peerHostRejection h.uid l.word (((l.dest.head?.map Prod.fst).map (BitVec.ofNat 9)).getD 108) (lanesMask (lanes l))

/-- LINK_FAILURE: a request to a module fails on a port and goes by another route; without one it is rejected (R485). -/
def execLinkFailure (port : Nat) (target : BitVec 21) (s : State) : Out :=
  .next (
    let t : State := { s with routes := s.routes.map fun r => if r.1 = target.toNat then (r.1, r.2.filter (· ≠ port)) else r }
    if t.routes.any fun r => r.1 = target.toNat && r.2 ≠ [] then t
    else t.post (t.sheaves.flatMap fun h => h.stranded target.toNat))

/-! ### Observation (R491-R495) -/

/-- PCVAL_WRITE: the sum takes the value, stored in the lowest-numbered cluster of the function (R491): in the cluster where the
function is resident, else in what a swap has kept of it (R490). -/
def execPcvalWrite (fn n : Nat) (val : DWord) (s : State) : Out :=
  .next (
    let cs := s.fnClusters fn
    let low := cs.foldl min 64
    let set := fun (c : Nat) (ks : Vector DWord 16) => ks.setIfInBounds n (if c = low then val else 0)
    let s1 := (cs.filter (s.holdsCluster fn)).foldl (fun t c => t.onCluster c fun k => { k with counters := set c k.counters }) s
    let one := fun (x : Shadow) => if x.fn = fn then { x with counters := set x.cluster x.counters } else x
    let s2 : State := { s1 with
      saves := s1.saves.map one
      dies := s1.dies.map fun d => { d with slots := d.slots.map fun y => y.map one } }
    if cs = [] || s.holdsCluster fn low || (s.shadows fn).any (fun x => x.cluster = low) then s2
    else { s2 with saves := s2.saves ++
             [{ fn := fn, cluster := low, spill := [], groups := [], counters := set low (Vector.replicate 16 0), newt := [] }] })

/-- The word would stall on a core's resource, the range scoreboard or the matrix unit's queue (R198). -/
def State.coreStalls (s : State) (i : Instr) : Bool :=
  let out := match i with
    | .cpy la r z a b => execCpy la r z a b s
    | .mloop la d sa sb => execMloop la d sa sb s
    | _ => .next s
  match out with | .next t => t.sh.wait.isSome | _ => false

/-- The sheaf is not eligible for a reason that is no stall of its group: parked on a page, halted, at the end of its quantum, before
the entry of its handler, or held back after a restoration (R74, R336, R442, R445, R461, R469). -/
def State.waits (s : State) (h : Sheaf) : Bool :=
  h.parked ≠ [] || h.coreHalt || h.dbgHalt || h.quantumDone || h.entering.isSome || s.heldBack h

/-- Why a sheaf does not issue now, the detail, and the producer it waits for (R493): in a wait, behind a pending register, held
by a core's resource, issuing, or not chosen. DESIGN CHOICE (LOG 25): a sheaf that may not issue with no wait word is in a wait of
detail 0. -/
def State.stallReason (s : State) (h : Sheaf) : Nat × Nat × BitVec 32 :=
  let none_ : BitVec 32 := 0xFFFFFFFF
  let t := { s with sh := h, peers := s.sheaves.filter (·.uid ≠ h.uid) }
  let free := (if h.uid = s.sh.uid then 0 else 6, 0, none_)
  match h.wait with
  | some w => if isWait w.instr then
      (3, if fMaj h.latch.word = 0x2F then bits h.latch.word.toNat 22 17 else (fFn5 h.latch.word).toNat, none_)
    else if s.waits h then (3, 0, none_) else (5, 0, none_)
  | none =>
    if s.waits h then (3, 0, none_)
    else if h.mid || h.pend ≠ [] then free
    else match t.fetch with
      | .group gs =>
        if t.awaits gs then (2, 0, (h.producer gs).getD none_)
        else if gs.any (fun g => match g.instr with | .ok i => t.coreStalls i | .error _ => false) then (5, 0, none_) else free
      | _ => free

/-- Insert a sheaf in order of residency slot. -/
def insertSeat (h : Sheaf) : List Sheaf → List Sheaf
  | [] => [h]
  | x :: r => if h.seat ≤ x.seat then h :: x :: r else x :: insertSeat h r

/-- Sheaves of a function resident on a core, in order of their residency slots (R492). -/
def State.residents (s : State) (fn core : Nat) : List Sheaf :=
  (s.sheaves.filter fun h => h.life = .live && !h.saved && (s.group h.group).any (·.core = core) &&
    (s.taskOf h).any fun t => t.fn = fn).foldr insertSeat []

/-- A stall sample (R493). -/
def State.sampleBytes (s : State) (core : Nat) (h : Sheaf) : List Byte :=
  let r := s.stallReason h
  leBytes 8 s.gtc.toNat ++ leBytes 8 (core + r.1 * 2 ^ 16 + r.2.1 * 2 ^ 24 + h.sheafNo.toNat * 2 ^ 32) ++
  leBytes 8 (h.pc.toNat + r.2.2.toNat * 2 ^ 32) ++ leBytes 8 (h.ver.toNat + (s.tagOf h).toNat * 2 ^ 32)

/-- STALL_SAMPLE: the core samples the next resident sheaf of the function that runs on it (R492, R493). -/
def execStallSample (core : Nat) (s : State) : Out :=
  .next (
    match (s.partitions.find? fun p => p.clusters.contains (core / 8)).bind Partition.resident with
    | none => s
    | some fn =>
      match s.fns[fn]? with
      | none => s
      | some v =>
        let hs := s.residents fn core
        let last := (s.samples.find? (·.1 = core)).map Prod.snd
        match (hs.find? fun h => last.all (· < h.seat)).orElse fun _ => hs.head? with
        | none => s
        | some h =>
          if !v.smpcfg.getLsbD 0 then s
          else
            let t : State := { s with samples := s.samples.filter (·.1 ≠ core) ++ [(core, h.seat)] }
            if v.smptail < 2 ^ ((v.smpcfg.extractLsb' 8 4).toNat + 6) then
              (t.putVA (s.tagOf h) (v.smpcfg.toNat / 4096 * 4096 + 32 * v.smptail) (s.sampleBytes core h)).onFn fn fun w =>
                { w with smptail := w.smptail + 1 }
            else t.onFn fn fun w => { w with smpdrop := w.smpdrop + 1 })

/-- TRACE_ARM: EN of TRRING is set (R495). -/
def execTraceArm (fn : Nat) (s : State) : Out := .next (s.onFn fn fun v => v.setTrring (v.trring ||| 1))

/-- A start or stop condition that a time decides holds (R495): at once, or a GTC. -/
def State.timeCond (s : State) (c : DWord) : Bool :=
  (c.extractLsb' 60 4).toNat = 1 || ((c.extractLsb' 60 4).toNat = 2 && (c.extractLsb' 0 60).toNat ≤ s.gtc.toNat)

/-- TRACE_START: the session records once its start condition holds (R495); the other kinds start where they arise. -/
def execTraceStart (fn : Nat) (s : State) : Out :=
  .next (if (s.fns[fn]?).any fun v => s.timeCond v.trstart then s.beginTrace fn (s.fnTag fn) 585 else s)

/-- TRACE_STOP: the session closes once its stop condition holds (R495). -/
def execTraceStop (fn : Nat) (s : State) : Out :=
  .next (if (s.fns[fn]?).any fun v => s.timeCond v.trstop then s.endTrace fn (s.fnTag fn) 585 3 else s)

/-! ### Clock and power (R475, R498-R500) -/

/-- A die's clock changes its step, and the error log says so (R498). -/
def State.setClock (s : State) (die : Nat) (f : ClockStep → ClockStep) : State :=
  s.onDie die fun d =>
    if f d.clock = d.clock then d
    else { d with clock := f d.clock, errlog := d.errlog ++ [{ gtc := s.gtc, what := "clock step", addr := die }] }

/-- SUPPLY_SAG: to 3/4, and to 1/2 as the sag deepens (R498). -/
def execSupplySag (die : Nat) (s : State) : Out :=
  .next (s.setClock die fun c => match c with | .full => .threeQuarter | _ => .half)

/-- CLOCK_RESTORE: one step back (R498). -/
def execClockRestore (die : Nat) (s : State) : Out :=
  .next (s.setClock die fun c => match c with | .half => .threeQuarter | _ => .full)

/-- AGEING_CHECK, at a module reset and every 24 h: the margin is planned anew, up to its limit; past it an alarm is logged
(R499). -/
def execAgeingCheck (die margin : Nat) (s : State) : Out :=
  .next (s.onDie die fun d =>
    { d with margin := min margin Config.marginLimit
             aged := s.gtc.toNat
             errlog := if Config.marginLimit < margin then
                 d.errlog ++ [{ gtc := s.gtc, what := "ageing alarm", addr := die }] else d.errlog })

/-- A cluster has a resident sheaf or a pending unit (R500). -/
def State.clusterBusy (s : State) (c : Nat) : Bool :=
  (s.clusters[c]?).any (fun k => k.newt ≠ []) ||
    s.groups.any fun g => !g.freed && !g.saved && g.core / 8 = c && s.members g.gid ≠ []

/-- Since when each cluster that has power is idle (R500). -/
def State.noteIdle (s : State) : State :=
  if s.clusters.toList.all fun k => !k.powered then s
  else
    { s with clusters := Vector.ofFn fun i : Fin 64 =>
        let k := s.clusters[i]
        if !k.powered then k else { k with idle := if s.clusterBusy i.val then none else some (k.idle.getD s.gtc.toNat) } }

/-- CLUSTER_CLOCK_GATE: a cluster with no resident sheaf and no pending unit for 100 µs (R500). -/
def execClusterClockGate (cluster : Nat) (s : State) : Out :=
  .next (
    if s.clusterBusy cluster then s
    else s.onCluster cluster fun k =>
      { k with gated := k.gated || (k.powered && k.idle.any fun t => t + Config.gateTime ≤ s.gtc.toNat) })

/-- D3HOT_ENTRY: once every context has ended (R500). -/
def execD3hotEntry (s : State) : Out := .next (if s.contexts.all Context.ended then { s with power := .d3hot } else s)

/-- D3HOT_EXIT (R500). -/
def execD3hotExit (s : State) : Out := .next { s with power := .d0 }

/-- The aperture's function is idle: no queue of it holds a command (R475). -/
def VirtFn.idle (v : VirtFn) : Bool := (v.cq.head = v.cq.tail) && v.queues.toList.all fun q => q.head = q.tail && q.running = []

/-- APERTURE_GATE (R475). -/
def execApertureGate (fn : Nat) (s : State) : Out :=
  .next (s.onFn fn fun v => { v with gated := v.gated || v.idle })

/-- A write the latch holds is applied (R475). -/
def State.applyLatched (s : State) (e : Event) : State :=
  match e with
  | .lqnotifyWrite fn q val => s.lqNotify fn q val
  | .cqnotifyWrite fn val => s.cqNotify fn val
  | _ => s

/-- APERTURE_WAKE: the aperture is ungated and its latched writes are applied in arrival order (R475). -/
def execApertureWake (fn : Nat) (s : State) : Out :=
  .next (
    let t := { s with latch := s.latch.filter (·.1 ≠ fn) }.onFn fn fun v => { v with gated := false }
    ((s.latch.filter (·.1 = fn)).map Prod.snd).foldl State.applyLatched t)

end Sys2Proof.Machine
end

