-- ==== Sys2Proof/Machine/Dispatch.lean ====
section
/-!
DEFINITION. What each instruction does: one arm per row of spec/opcode_table.json, each one call of its meaning.
-/

namespace Sys2Proof.Machine

open Sys2Proof

/-- The meaning of an instruction in a state. -/
def exec (i : Instr) (s : State) : Host.Outcome State Fault Refusal :=
  match i with
  | .iadd d a b => Sys2Proof.Machine.execIadd d a b s
  | .isub d a b => Sys2Proof.Machine.execIsub d a b s
  | .imul d a b => Sys2Proof.Machine.execImul d a b s
  | .imulhi d a b => Sys2Proof.Machine.execImulhi d a b s
  | .imad d a b => Sys2Proof.Machine.execImad d a b s
  | .imin d a b => Sys2Proof.Machine.execImin d a b s
  | .imax d a b => Sys2Proof.Machine.execImax d a b s
  | .iabsd d a b => Sys2Proof.Machine.execIabsd d a b s
  | .nmin d a b => Sys2Proof.Machine.execNmin d a b s
  | .nmax d a b => Sys2Proof.Machine.execNmax d a b s
  | .nmulhi d a b => Sys2Proof.Machine.execNmulhi d a b s
  | .iadds d a b => Sys2Proof.Machine.execIadds d a b s
  | .and d a b => Sys2Proof.Machine.execAnd d a b s
  | .or d a b => Sys2Proof.Machine.execOr d a b s
  | .xor d a b => Sys2Proof.Machine.execXor d a b s
  | .andn d a b => Sys2Proof.Machine.execAndn d a b s
  | .shl d a b => Sys2Proof.Machine.execShl d a b s
  | .shr d a b => Sys2Proof.Machine.execShr d a b s
  | .sar d a b => Sys2Proof.Machine.execSar d a b s
  | .rotl d a b => Sys2Proof.Machine.execRotl d a b s
  | .iaddi d a imm => Sys2Proof.Machine.execIaddi d a imm s
  | .imuli d a imm => Sys2Proof.Machine.execImuli d a imm s
  | .andi d a imm => Sys2Proof.Machine.execAndi d a imm s
  | .ori d a imm => Sys2Proof.Machine.execOri d a imm s
  | .shli d a imm => Sys2Proof.Machine.execShli d a imm s
  | .shri d a imm => Sys2Proof.Machine.execShri d a imm s
  | .sari d a imm => Sys2Proof.Machine.execSari d a imm s
  | .xori d a imm => Sys2Proof.Machine.execXori d a imm s
  | .popc d a => Sys2Proof.Machine.execPopc d a s
  | .clz d a => Sys2Proof.Machine.execClz d a s
  | .brev d a => Sys2Proof.Machine.execBrev d a s
  | .bfx d a b => Sys2Proof.Machine.execBfx d a b s
  | .bfi d a b => Sys2Proof.Machine.execBfi d a b s
  | .sel d a b => Sys2Proof.Machine.execSel d a b s
  | .idp4 d a b => Sys2Proof.Machine.execIdp4 d a b s
  | .ndp4 d a b => Sys2Proof.Machine.execNdp4 d a b s
  | .fadd d a b => Sys2Proof.Machine.execFadd d a b s
  | .fsub d a b => Sys2Proof.Machine.execFsub d a b s
  | .fmul d a b => Sys2Proof.Machine.execFmul d a b s
  | .fma d a b => Sys2Proof.Machine.execFma d a b s
  | .fms d a b => Sys2Proof.Machine.execFms d a b s
  | .fmin d a b => Sys2Proof.Machine.execFmin d a b s
  | .fmax d a b => Sys2Proof.Machine.execFmax d a b s
  | .fcps d a b => Sys2Proof.Machine.execFcps d a b s
  | .fabs d a => Sys2Proof.Machine.execFabs d a s
  | .fneg d a => Sys2Proof.Machine.execFneg d a s
  | .frnd d a => Sys2Proof.Machine.execFrnd d a s
  | .fcls d a => Sys2Proof.Machine.execFcls d a s
  | .dadd d a b => Sys2Proof.Machine.execDadd d a b s
  | .dsub d a b => Sys2Proof.Machine.execDsub d a b s
  | .dmul d a b => Sys2Proof.Machine.execDmul d a b s
  | .dfma d a b => Sys2Proof.Machine.execDfma d a b s
  | .dmin d a b => Sys2Proof.Machine.execDmin d a b s
  | .dmax d a b => Sys2Proof.Machine.execDmax d a b s
  | .drnd d a => Sys2Proof.Machine.execDrnd d a s
  | .dneg d a => Sys2Proof.Machine.execDneg d a s
  | .hadd2 d a b => Sys2Proof.Machine.execHadd2 d a b s
  | .hmul2 d a b => Sys2Proof.Machine.execHmul2 d a b s
  | .hfma2 d a b => Sys2Proof.Machine.execHfma2 d a b s
  | .hmax2 d a b => Sys2Proof.Machine.execHmax2 d a b s
  | .badd2 d a b => Sys2Proof.Machine.execBadd2 d a b s
  | .bmul2 d a b => Sys2Proof.Machine.execBmul2 d a b s
  | .bfma2 d a b => Sys2Proof.Machine.execBfma2 d a b s
  | .bmax2 d a b => Sys2Proof.Machine.execBmax2 d a b s
  | .icmp conj cond kd a b => Sys2Proof.Machine.execIcmp conj cond kd a b s
  | .ncmp conj cond kd a b => Sys2Proof.Machine.execNcmp conj cond kd a b s
  | .fcmp conj cond kd a b => Sys2Proof.Machine.execFcmp conj cond kd a b s
  | .dcmp conj cond kd a b => Sys2Proof.Machine.execDcmp conj cond kd a b s
  | .cvt d a src dst => Sys2Proof.Machine.execCvt d a src dst s
  | .cvtx d a src dst rm => Sys2Proof.Machine.execCvtx d a src dst rm s
  | .pk2 d a b => Sys2Proof.Machine.execPk2 d a b s
  | .hi16 d a => Sys2Proof.Machine.execHi16 d a s
  | .radd d a b => Sys2Proof.Machine.execRadd d a b s
  | .rsub d a b => Sys2Proof.Machine.execRsub d a b s
  | .rfrom d a => Sys2Proof.Machine.execRfrom d a s
  | .rfix d a => Sys2Proof.Machine.execRfix d a s
  | .rscl d a b => Sys2Proof.Machine.execRscl d a b s
  | .readd d a b => Sys2Proof.Machine.execReadd d a b s
  | .refrom d a => Sys2Proof.Machine.execRefrom d a s
  | .refix d a => Sys2Proof.Machine.execRefix d a s
  | .rcp d a => Sys2Proof.Machine.execRcp d a s
  | .rsq d a => Sys2Proof.Machine.execRsq d a s
  | .sqrt d a => Sys2Proof.Machine.execSqrt d a s
  | .exp2 d a => Sys2Proof.Machine.execExp2 d a s
  | .log2 d a => Sys2Proof.Machine.execLog2 d a s
  | .sin d a => Sys2Proof.Machine.execSin d a s
  | .cos d a => Sys2Proof.Machine.execCos d a s
  | .tanh d a => Sys2Proof.Machine.execTanh d a s
  | .shfl d a b => Sys2Proof.Machine.execShfl d a b s
  | .shflx d a b => Sys2Proof.Machine.execShflx d a b s
  | .shflr d a b => Sys2Proof.Machine.execShflr d a b s
  | .bcst d a b => Sys2Proof.Machine.execBcst d a b s
  | .shflf d a b => Sys2Proof.Machine.execShflf d a b s
  | .shflxf d a b => Sys2Proof.Machine.execShflxf d a b s
  | .shflrf d a b => Sys2Proof.Machine.execShflrf d a b s
  | .bcstf d a b => Sys2Proof.Machine.execBcstf d a b s
  | .redlog d a op => Sys2Proof.Machine.execRedlog d a op s
  | .scanlog d a excl op => Sys2Proof.Machine.execScanlog d a excl op s
  | .matchv d a => Sys2Proof.Machine.execMatchv d a s
  | .mrank d a => Sys2Proof.Machine.execMrank d a s
  | .kand kd ka kb => Sys2Proof.Machine.execKand kd ka kb s
  | .kor kd ka kb => Sys2Proof.Machine.execKor kd ka kb s
  | .kxor kd ka kb => Sys2Proof.Machine.execKxor kd ka kb s
  | .kandn kd ka kb => Sys2Proof.Machine.execKandn kd ka kb s
  | .knot kd ka => Sys2Proof.Machine.execKnot kd ka s
  | .kmov kd ka => Sys2Proof.Machine.execKmov kd ka s
  | .kset kd => Sys2Proof.Machine.execKset kd s
  | .kclr kd => Sys2Proof.Machine.execKclr kd s
  | .emset ka => Sys2Proof.Machine.execEmset ka s
  | .emand ka => Sys2Proof.Machine.execEmand ka s
  | .emget kd => Sys2Proof.Machine.execEmget kd s
  | .vote kd a => Sys2Proof.Machine.execVote kd a s
  | .ktos sd k => Sys2Proof.Machine.execKtos sd k s
  | .stok sa k => Sys2Proof.Machine.execStok sa k s
  | .kpop sd k => Sys2Proof.Machine.execKpop sd k s
  | .emtos sd => Sys2Proof.Machine.execEmtos sd s
  | .stoem sa => Sys2Proof.Machine.execStoem sa s
  | .vli d imm => Sys2Proof.Machine.execVli d imm s
  | .vlih d imm => Sys2Proof.Machine.execVlih d imm s
  | .vtos sd a lane => Sys2Proof.Machine.execVtos sd a lane s
  | .stov d sa => Sys2Proof.Machine.execStov d sa s
  | .tfix a => Sys2Proof.Machine.execTfix a s
  | .sadd d a b => Sys2Proof.Machine.execSadd d a b s
  | .ssub d a b => Sys2Proof.Machine.execSsub d a b s
  | .smul d a b => Sys2Proof.Machine.execSmul d a b s
  | .smulhi d a b => Sys2Proof.Machine.execSmulhi d a b s
  | .sand d a b => Sys2Proof.Machine.execSand d a b s
  | .sor d a b => Sys2Proof.Machine.execSor d a b s
  | .sxor d a b => Sys2Proof.Machine.execSxor d a b s
  | .sshl d a b => Sys2Proof.Machine.execSshl d a b s
  | .sshr d a b => Sys2Proof.Machine.execSshr d a b s
  | .ssar d a b => Sys2Proof.Machine.execSsar d a b s
  | .smin d a b => Sys2Proof.Machine.execSmin d a b s
  | .smax d a b => Sys2Proof.Machine.execSmax d a b s
  | .sminn d a b => Sys2Proof.Machine.execSminn d a b s
  | .smaxn d a b => Sys2Proof.Machine.execSmaxn d a b s
  | .seq d a b => Sys2Proof.Machine.execSeq d a b s
  | .sne d a b => Sys2Proof.Machine.execSne d a b s
  | .slt d a b => Sys2Proof.Machine.execSlt d a b s
  | .sltn d a b => Sys2Proof.Machine.execSltn d a b s
  | .sle d a b => Sys2Proof.Machine.execSle d a b s
  | .slen d a b => Sys2Proof.Machine.execSlen d a b s
  | .smov d a => Sys2Proof.Machine.execSmov d a s
  | .ssel d a b => Sys2Proof.Machine.execSsel d a b s
  | .sli d imm => Sys2Proof.Machine.execSli d imm s
  | .slis d imm => Sys2Proof.Machine.execSlis d imm s
  | .saddi d a imm => Sys2Proof.Machine.execSaddi d a imm s
  | .sshli d a imm => Sys2Proof.Machine.execSshli d a imm s
  | .sshri d a imm => Sys2Proof.Machine.execSshri d a imm s
  | .ssari d a imm => Sys2Proof.Machine.execSsari d a imm s
  | .sandi d a imm => Sys2Proof.Machine.execSandi d a imm s
  | .srd spec r => Sys2Proof.Machine.execSrd spec r s
  | .swr spec r => Sys2Proof.Machine.execSwr spec r s
  | .bra ofs => Sys2Proof.Machine.execBra ofs s
  | .call ofs => Sys2Proof.Machine.execCall ofs s
  | .bnz sa ofs => Sys2Proof.Machine.execBnz sa ofs s
  | .bz sa ofs => Sys2Proof.Machine.execBz sa ofs s
  | .bany k ofs => Sys2Proof.Machine.execBany k ofs s
  | .ball k ofs => Sys2Proof.Machine.execBall k ofs s
  | .bnone k ofs => Sys2Proof.Machine.execBnone k ofs s
  | .bemz ofs => Sys2Proof.Machine.execBemz ofs s
  | .loop sa ofs => Sys2Proof.Machine.execLoop sa ofs s
  | .callx a => Sys2Proof.Machine.execCallx a s
  | .nop => Sys2Proof.Machine.execNop s
  | .ret => Sys2Proof.Machine.execRet s
  | .exit => Sys2Proof.Machine.execExit s
  | .trap n => Sys2Proof.Machine.execTrap n s
  | .rett => Sys2Proof.Machine.execRett s
  | .bkpt n => Sys2Proof.Machine.execBkpt n s
  | .sleep sa => Sys2Proof.Machine.execSleep sa s
  | .sleepb sa ev => Sys2Proof.Machine.execSleepb sa ev s
  | .waitb sa ev => Sys2Proof.Machine.execWaitb sa ev s
  | .yield => Sys2Proof.Machine.execYield s
  | .mode hi mask val => Sys2Proof.Machine.execMode hi mask val s
  | .safept n => Sys2Proof.Machine.execSafept n s
  | .xfer ver => Sys2Proof.Machine.execXfer ver s
  | .xferClr => Sys2Proof.Machine.execXferClr s
  | .xferq sd => Sys2Proof.Machine.execXferq sd s
  | .halt => Sys2Proof.Machine.execHalt s
  | .rep cnt stepD stepA stepB stride => Sys2Proof.Machine.execRep cnt stepD stepA stepB stride s
  | .ldk la w d a ext => Sys2Proof.Machine.execLdk la w d a ext s
  | .stk la w d a ext => Sys2Proof.Machine.execStk la w d a ext s
  | .lds la w d a ext => Sys2Proof.Machine.execLds la w d a ext s
  | .ldsDesc la d a ext => Sys2Proof.Machine.execLdsDesc la d a ext s
  | .sts la w d a ext => Sys2Proof.Machine.execSts la w d a ext s
  | .stsDesc la d a ext => Sys2Proof.Machine.execStsDesc la d a ext s
  | .ats la d a ext => Sys2Proof.Machine.execAts la d a ext s
  | .ldc la w d a ext => Sys2Proof.Machine.execLdc la w d a ext s
  | .ldcStep la w d a tb sel => Sys2Proof.Machine.execLdcStep la w d a tb sel s
  | .stc la w d a ext => Sys2Proof.Machine.execStc la w d a ext s
  | .atc la d a ext => Sys2Proof.Machine.execAtc la d a ext s
  | .ldg la w d a ext => Sys2Proof.Machine.execLdg la w d a ext s
  | .ldgDesc la d a ext => Sys2Proof.Machine.execLdgDesc la d a ext s
  | .stg la w d a ext => Sys2Proof.Machine.execStg la w d a ext s
  | .stgDesc la d a ext => Sys2Proof.Machine.execStgDesc la d a ext s
  | .atg la d a ext => Sys2Proof.Machine.execAtg la d a ext s
  | .ldn la w d a m ext => Sys2Proof.Machine.execLdn la w d a m ext s
  | .stn la w d a m ext => Sys2Proof.Machine.execStn la w d a m ext s
  | .atn la d a m ext => Sys2Proof.Machine.execAtn la d a m ext s
  | .ldh la w d a m ext => Sys2Proof.Machine.execLdh la w d a m ext s
  | .sth la w d a m ext => Sys2Proof.Machine.execSth la w d a m ext s
  | .ath la d a m ext => Sys2Proof.Machine.execAth la d a m ext s
  | .cpy la route size a b => Sys2Proof.Machine.execCpy la route size a b s
  | .cpyb sd scope => Sys2Proof.Machine.execCpyb sd scope s
  | .cpybRing sd sr scope => Sys2Proof.Machine.execCpybRing sd sr scope s
  | .rinit sa sb n => Sys2Proof.Machine.execRinit sa sb n s
  | .rwait sa sb n => Sys2Proof.Machine.execRwait sa sb n s
  | .rrel sa sb n => Sys2Proof.Machine.execRrel sa sb n s
  | .rfin sa sb => Sys2Proof.Machine.execRfin sa sb s
  | .mloop la d sa sb => Sys2Proof.Machine.execMloop la d sa sb s
  | .mcfg sa => Sys2Proof.Machine.execMcfg sa s
  | .mcvt d => Sys2Proof.Machine.execMcvt d s
  | .mzero d => Sys2Proof.Machine.execMzero d s
  | .mwait d => Sys2Proof.Machine.execMwait d s
  | .barinit b sa => Sys2Proof.Machine.execBarinit b sa s
  | .bararv b sd scope => Sys2Proof.Machine.execBararv b sd scope s
  | .barwt b sa scope => Sys2Proof.Machine.execBarwt b sa scope s
  | .barsyn b scope => Sys2Proof.Machine.execBarsyn b scope s
  | .barfin b => Sys2Proof.Machine.execBarfin b s
  | .barst b sd => Sys2Proof.Machine.execBarst b sd s
  | .fence kind scope => Sys2Proof.Machine.execFence kind scope s
  | .fencesc scope => Sys2Proof.Machine.execFencesc scope s
  | .qend => Sys2Proof.Machine.execQend s
  | .stepend => Sys2Proof.Machine.execStepend s
  | .tbwait b => Sys2Proof.Machine.execTbwait b s
  | .tbfull b => Sys2Proof.Machine.execTbfull b s
  | .tbempty b sa sel => Sys2Proof.Machine.execTbempty b sa sel s
  | .pub n scope => Sys2Proof.Machine.execPub n scope s
  | .spawn sa a len => Sys2Proof.Machine.execSpawn sa a len s
  | .depdec a => Sys2Proof.Machine.execDepdec a s
  | .signal sa space scope op sb => Sys2Proof.Machine.execSignal sa space scope op sb s
  | .waitsig sa space scope op sb => Sys2Proof.Machine.execWaitsig sa space scope op sb s
  | .csopen sd => Sys2Proof.Machine.execCsopen sd s
  | .csclose => Sys2Proof.Machine.execCsclose s
  | .cancel sa => Sys2Proof.Machine.execCancel sa s
  | .cwait sa sd => Sys2Proof.Machine.execCwait sa sd s
  | .lqnotifyWrite fn q val => Sys2Proof.Machine.execLqnotifyWrite fn q val s
  | .lqcfgWrite fn q val => Sys2Proof.Machine.execLqcfgWrite fn q val s
  | .cmdNop fn q => Sys2Proof.Machine.execCmdNop fn q s
  | .cmdLaunch fn q => Sys2Proof.Machine.execCmdLaunch fn q s
  | .cmdWait fn q => Sys2Proof.Machine.execCmdWait fn q s
  | .cmdWrite fn q => Sys2Proof.Machine.execCmdWrite fn q s
  | .waitConditionMet fn q => Sys2Proof.Machine.execWaitConditionMet fn q s
  | .startGtcReached task => Sys2Proof.Machine.execStartGtcReached task s
  | .unitHandout die => Sys2Proof.Machine.execUnitHandout die s
  | .unitSteal die => Sys2Proof.Machine.execUnitSteal die s
  | .gangRetry task => Sys2Proof.Machine.execGangRetry task s
  | .gangStart task => Sys2Proof.Machine.execGangStart task s
  | .groupPlacement cluster => Sys2Proof.Machine.execGroupPlacement cluster s
  | .preemption group => Sys2Proof.Machine.execPreemption group s
  | .groupRestore group => Sys2Proof.Machine.execGroupRestore group s
  | .loadDelivery sheaf k => Sys2Proof.Machine.execLoadDelivery sheaf k s
  | .atomicAtHome tag key op operand => Sys2Proof.Machine.execAtomicAtHome tag key op operand s
  | .peerHostRejection sheaf word dest lanes => Sys2Proof.Machine.execPeerHostRejection sheaf word dest lanes s
  | .faultResolved tag va ok => Sys2Proof.Machine.execFaultResolved tag va ok s
  | .pageInvalidation tag va len => Sys2Proof.Machine.execPageInvalidation tag va len s
  | .migrationCopy oldKey newKey len => Sys2Proof.Machine.execMigrationCopy oldKey newKey len s
  | .parkedWriteReplay tag va => Sys2Proof.Machine.execParkedWriteReplay tag va s
  | .hostMemoryWrite addr data => Sys2Proof.Machine.execHostMemoryWrite addr data s
  | .scrubPass key err => Sys2Proof.Machine.execScrubPass key err s
  | .copyEventComplete sheaf batch => Sys2Proof.Machine.execCopyEventComplete sheaf batch s
  | .sleepbWake sheaf => Sys2Proof.Machine.execSleepbWake sheaf s
  | .sleepWake sheaf => Sys2Proof.Machine.execSleepWake sheaf s
  | .matrixKstep sheaf k => Sys2Proof.Machine.execMatrixKstep sheaf k s
  | .mloopEnd sheaf k => Sys2Proof.Machine.execMloopEnd sheaf k s
  | .barrierWatchdog group bid => Sys2Proof.Machine.execBarrierWatchdog group bid s
  | .deadlockWatchdog tag => Sys2Proof.Machine.execDeadlockWatchdog tag s
  | .trapEntry sheaf => Sys2Proof.Machine.execTrapEntry sheaf s
  | .contextEnd tag cause va => Sys2Proof.Machine.execContextEnd tag cause va s
  | .sheafKill sheaf => Sys2Proof.Machine.execSheafKill sheaf s
  | .deathRecorded cluster group => Sys2Proof.Machine.execDeathRecorded cluster group s
  | .groupAdvance group => Sys2Proof.Machine.execGroupAdvance group s
  | .binRecordArrival die task node scope words sender last => Sys2Proof.Machine.execBinRecordArrival die task node scope words sender last s
  | .binSetTimer die task node scope => Sys2Proof.Machine.execBinSetTimer die task node scope s
  | .dependenceDecrement tag task va scope sheaf => Sys2Proof.Machine.execDependenceDecrement tag task va scope sheaf s
  | .graphEndSample task => Sys2Proof.Machine.execGraphEndSample task s
  | .taskEnd task => Sys2Proof.Machine.execTaskEnd task s
  | .quantumCountEnd sheaf => Sys2Proof.Machine.execQuantumCountEnd sheaf s
  | .roundCommit task => Sys2Proof.Machine.execRoundCommit task s
  | .firmwareXferRequest task ver budget => Sys2Proof.Machine.execFirmwareXferRequest task ver budget s
  | .xferDeadline task => Sys2Proof.Machine.execXferDeadline task s
  | .timeSliceEnd part => Sys2Proof.Machine.execTimeSliceEnd part s
  | .coreRelease core => Sys2Proof.Machine.execCoreRelease core s
  | .partitionConfigure part clusters => Sys2Proof.Machine.execPartitionConfigure part clusters s
  | .vfEnable fn policy parts => Sys2Proof.Machine.execVfEnable fn policy parts s
  | .monitorUpdate image => Sys2Proof.Machine.execMonitorUpdate image s
  | .moduleReset proenapin monitor fuses policies => Sys2Proof.Machine.execModuleReset proenapin monitor fuses policies s
  | .getVersion fn => Sys2Proof.Machine.execGetVersion fn s
  | .getCapabilities fn => Sys2Proof.Machine.execGetCapabilities fn s
  | .negotiateAlgorithms fn => Sys2Proof.Machine.execNegotiateAlgorithms fn s
  | .getDigests fn => Sys2Proof.Machine.execGetDigests fn s
  | .getCertificate fn => Sys2Proof.Machine.execGetCertificate fn s
  | .challenge fn nonce => Sys2Proof.Machine.execChallenge fn nonce s
  | .getMeasurements fn index => Sys2Proof.Machine.execGetMeasurements fn index s
  | .functionLevelReset fn => Sys2Proof.Machine.execFunctionLevelReset fn s
  | .vfMigration fn target => Sys2Proof.Machine.execVfMigration fn target s
  | .forwardingStubExpiry page => Sys2Proof.Machine.execForwardingStubExpiry page s
  | .cqcfgWrite fn val => Sys2Proof.Machine.execCqcfgWrite fn val s
  | .cqnotifyWrite fn val => Sys2Proof.Machine.execCqnotifyWrite fn val s
  | .allReduce cid => Sys2Proof.Machine.execAllReduce cid s
  | .allGather cid => Sys2Proof.Machine.execAllGather cid s
  | .broadcast cid => Sys2Proof.Machine.execBroadcast cid s
  | .collectiveTimeout cid participant => Sys2Proof.Machine.execCollectiveTimeout cid participant s
  | .pcvalWrite fn n val => Sys2Proof.Machine.execPcvalWrite fn n val s
  | .stallSample core => Sys2Proof.Machine.execStallSample core s
  | .traceArm fn => Sys2Proof.Machine.execTraceArm fn s
  | .traceStart fn => Sys2Proof.Machine.execTraceStart fn s
  | .traceStop fn => Sys2Proof.Machine.execTraceStop fn s
  | .supplySag die => Sys2Proof.Machine.execSupplySag die s
  | .clockRestore die => Sys2Proof.Machine.execClockRestore die s
  | .ageingCheck die margin => Sys2Proof.Machine.execAgeingCheck die margin s
  | .clusterClockGate cluster => Sys2Proof.Machine.execClusterClockGate cluster s
  | .d3hotEntry => Sys2Proof.Machine.execD3hotEntry s
  | .apertureWake fn => Sys2Proof.Machine.execApertureWake fn s
  | .debugResume sheaf => Sys2Proof.Machine.execDebugResume sheaf s
  | .moduleIdAssign id routes => Sys2Proof.Machine.execModuleIdAssign id routes s
  | .registerWrite reg val => Sys2Proof.Machine.execRegisterWrite reg val s
  | .monitorWrite key data => Sys2Proof.Machine.execMonitorWrite key data s
  | .driverCancel tag scope => Sys2Proof.Machine.execDriverCancel tag scope s
  | .debuggerAttach tag => Sys2Proof.Machine.execDebuggerAttach tag s
  | .replay task round sheaf stop => Sys2Proof.Machine.execReplay task round sheaf stop s
  | .peerRequest source addr op => Sys2Proof.Machine.execPeerRequest source addr op s
  | .linkFailure port target => Sys2Proof.Machine.execLinkFailure port target s
  | .signalReread sheaf => Sys2Proof.Machine.execSignalReread sheaf s
  | .apertureGate fn => Sys2Proof.Machine.execApertureGate fn s
  | .d3hotExit => Sys2Proof.Machine.execD3hotExit s

end Sys2Proof.Machine
end

