-- ==== Sys2Proof/Machine/Issue.lean ====
section
/-!
DEFINITION. Issue: the effects of a group's words in order, the end of the group, waits in progress, and the repeats of a REP
(R232-R236).
-/

namespace Sys2Proof.Machine

open Sys2Proof

/-! ### Issue of a group -/

/-- Words that follow the group: where the sheaf goes on unless a word transfers (R30, R235). -/
def Sheaf.follow (h : Sheaf) (gs : List GWord) : BitVec 32 :=
  let n := (gs.map fun g => if g.ext.isSome then 2 else 1).foldl (· + ·) 0
  if h.rep.any fun r => h.rpNext + 1 < r.count then h.pc else BitVec.ofNat 32 (h.fetchAt + n)

/-- The group begins with a CALLX at the RET's target (R361). -/
def Sheaf.keepsF (h : Sheaf) (gs : List GWord) : Bool :=
  h.contF && h.contAt = some (BitVec.ofNat 32 h.fetchAt) &&
    (match gs.head?.map GWord.instr with | some (.ok (.callx _)) => true | _ => false)

/-- The group is a REP. -/
def isRep (gs : List GWord) : Bool :=
  match gs with | [g] => (match g.instr with | .ok (.rep _ _ _ _ _) => true | _ => false) | _ => false

/-- The group holds a YIELD. -/
def holdsYield (gs : List GWord) : Bool := gs.any fun g => match g.instr with | .ok .yield => true | _ => false

/-- The sheaf begins a group (LOG 5): its starvation count returns to 0, unless it yields (R363, R380). A group that is not the REP
a handler returned to ends that REP's progress (R236). -/
def Sheaf.begin (h : Sheaf) (gs : List GWord) : Sheaf :=
  let stale := h.rpResume && !h.hnd && h.rep.isNone && !(isRep gs && h.rpAt = h.pc)
  { h with
    nth := h.nth + 1
    resumed := false
    yielded := false
    starve := if holdsYield gs then h.starve else 0
    next := h.follow gs
    windows := stepWindows h.windows
    contF := h.keepsF gs
    snap := if 1 < gs.length then some h.regs else none
    mid := true
    rest := []
    trapped := none
    rpResume := h.rpResume && !stale
    rpNext := if stale then 0 else h.rpNext
    rpLast := if stale then 0 else h.rpLast }

/-- The latch of a word. -/
def GWord.latch (g : GWord) (more : Bool) : Latch :=
  { word := g.word, addr := BitVec.ofNat 32 g.addr, slot := BitVec.ofNat 2 (g.addr % 3), more := more, native := fVer g.word = 1 }

/-- The order in which the words of a group act (LOG 5): a read of a special register, which sees earlier groups alone (R208); the
words that do not wait, and reads and writes of %fpflags, which program order places among the flags (R100), in slot order; waits
of the M pipe, other waits; RETT, since its group issues in the handler (R458, R459); a write of a special register, which later
groups see (R208); EXIT. -/
def actOrder (h : Sheaf) (i : Instr) : Nat :=
  match i with
  | .srd p _ => if p = 18 then 1 else 0
  | .swr p _ => if p = 18 then 1 else 5
  | .rett => 4
  | .exit => 6
  | _ => if isWait i then (if (h.use i).pipe = .m then 2 else 3) else 1

/-- The words of a group with their latches, in the order they act. -/
def Sheaf.acts (h : Sheaf) (gs : List GWord) : List (Latch × Instr) :=
  let is := gs.filterMap fun g => match g.instr with | .ok i => some (g, i) | .error _ => none
  let sorted := [0, 1, 2, 3, 4, 5, 6].flatMap fun k => is.filter fun x => actOrder h x.2 = k
  sorted.zipIdx.map fun x => (x.1.1.latch (x.2 + 1 < sorted.length), x.1.2)

/-- Put a word in the latch, with the words left after it. -/
def State.load1 (s : State) (l : Latch) (rest : List (Latch × Instr)) : State :=
  s.upd fun h => { h with latch := l, rest := rest }

/-- A repeat is over: the next one, or the end of the REP (R235, R236). -/
def Sheaf.stepRep (h : Sheaf) : Sheaf :=
  match h.rep with
  | none => h
  | some r => if h.rpNext + 1 < r.count then { h with rpNext := h.rpNext + 1 } else { h with rep := none, rpNext := 0, rpLast := 0 }

/-- The group is over: the sheaf goes on at `next`; a group that trapped or parked has no effect, and a parked one keeps its
windows and has not issued (R51, R57, R74, R436). -/
def Sheaf.finish (h : Sheaf) (repeating : Bool) : Sheaf :=
  let g := { h with mid := false, snap := none, rest := [] }
  if h.parked ≠ [] then { g with nth := h.nth - 1, windows := h.windows.map fun w => { w with rem := w.rem + 1 } }
  else if h.trapped.isSome then { g with trapped := none }
  else
    let k := if repeating && h.rep.isSome then g.stepRep else g
    { k with pc := h.next, retired := h.retired + 1 }

/-- Finish the group of the sheaf in the issue slot. -/
def State.finish (s : State) (repeating : Bool) : State := s.upd fun h => h.finish repeating

/-- The word is a floating operation that counter event 3 counts (R491; LOG 12). -/
def isFpWord (w : Word) : Bool := 9 ≤ (fMaj w).toNat && (fMaj w).toNat ≤ 15

/-- The group has issued: one that trapped without effect or parked has not (R51, R74). -/
def Sheaf.hasIssued (h : Sheaf) (retired : Nat) : Bool := h.mid || h.retired ≠ retired || h.life ≠ .live

/-- Charge the events of an issued group (R491). -/
def State.countGroup (s : State) (acts : List (Latch × Instr)) (em : DWord) : State :=
  let n := (acts.filter fun x => isFpWord x.1.word).length * (lanesOf em).length
  ((s.countMine .cycles 1).countMine .groups 1).countMine .fpLanes n

/-- A read or write of %fpflags that loops of earlier groups hold back, with its group (R100). -/
def Sheaf.flagsHeld (h : Sheaf) (i : Instr) : Bool :=
  match i with | .srd p _ | .swr p _ => p = 18 && h.loops ≠ [] | _ => false

/-- The words of a group act one after another on `s`, which `b` begins. A word that traps or parks takes the whole group
back, and one that stalls before issue holds the whole group, which has not issued (R51, R58, R74, R198). -/
def runActs (b : State) (repeating : Bool) : List (Latch × Instr) → State → Option Out
  | [], s => some (.next (s.finish repeating))
  | (l, i) :: r, s =>
    match exec i (s.load1 l r) with
    | .next t =>
      if t.sh.trapped.isSome || (t.sh.parked ≠ [] && t.sh.wait.isNone) then
        match exec i (b.load1 l []) with
        | .next u => some (.next (u.finish repeating))
        | o => some o
      else if t.sh.wait.isSome then
        if (!isWait i && !t.sh.quantumDone) || b.sh.flagsHeld i then none else some (.next t)
      else runActs b repeating r t
    | o => some o

/-- %traux of a word that fails a check of its group (R440). -/
def State.checkAux (s : State) (g : GWord) : DWord :=
  let dest : BitVec 9 := match g.instr with | .ok i => (s.sh.use i).destCode | .error _ => 0x1FF
  g.word ++ 0#14 ++ BitVec.ofNat 2 (g.addr % 3) ++ 0#7 ++ dest

/-- Issue the next group of the sheaf in the issue slot; none while it must wait. -/
def State.issueGroup (s : State) : Option Out :=
  match s.fetch with
  | .fault f => some (.fault f)
  | .stop .wait => none
  | .stop c =>
    let a := s.sh.fetchAt
    let t := s.codeBlocked (Config.unreadWord a ++ 0#14 ++ BitVec.ofNat 2 (a % 3) ++ 0#7 ++ 0x1FF#9) (BitVec.ofNat 32 (a + 1)) c
    some (.next (if t.sh.trapped.isSome then t.finish false else t))
  | .trap c g => some (.next ((s.trapGroup c s.sh.regs.em (s.checkAux g)).finish false))
  | .group gs =>
    if s.awaits gs then none
    else
      let b := ((s.correct (s.codeKeys s.sh (packetAt s.sh.fetchAt))).traceIssue s.sh.fetchAt).upd (·.begin gs)
      let acts := s.sh.acts gs
      match runActs b s.sh.rep.isSome acts b with
      | some (.next t) =>
        some (.next ((if t.sh.hasIssued b.sh.retired then t.countGroup acts s.sh.regs.em else t).traceStopAt s.sh.fetchAt))
      | o => o

/-! ### Waits in progress -/

/-- Finish a group that waited: where its wait ended a quantum of repeatable mode, it counted in that one (R469). -/
def State.finishWaited (s : State) (repeating : Bool) : State :=
  s.upd fun h => let g := h.finish repeating; if s.repeatable && h.nth = 0 then { g with retired := h.retired } else g

/-- The words left of a group act, once the wait before them is over (LOG 5). -/
def runRest (repeating : Bool) : List (Latch × Instr) → State → Out
  | [], s => .next (s.finishWaited repeating)
  | (l, i) :: r, s =>
    match exec i (s.load1 l r) with
    | .next t =>
      if t.sh.trapped.isSome || (t.sh.parked ≠ [] && t.sh.wait.isNone) then .next (t.finishWaited repeating)
      else if t.sh.wait.isSome then .next t
      else runRest repeating r t
    | o => o

/-- Go on with a group in progress whose wait has just been looked at. -/
def State.goOn (s : State) : Out :=
  let rp := s.sh.rep.isSome
  if s.sh.trapped.isSome || (s.sh.parked ≠ [] && s.sh.wait.isNone) then .next (s.finishWaited rp)
  else if s.sh.wait.isSome then .next s
  else if s.sh.mid then runRest rp s.sh.rest s
  else .next s

/-- A wait of the sheaf is looked at again; none while it holds (R53), but that its next quantum ends at it is something
(R469). -/
def State.lookAgain (s : State) (w : WaitState) : Option Out :=
  match exec w.instr (s.upd fun h => { h with look := false }) with
  | .next t => if t.sh.wait = s.sh.wait && t.sh.parked = [] && t.sh.life = .live && t.sh.quantumDone = s.sh.quantumDone then none else some t.goOn
  | o => some o

/-- The wait of the sheaf in the issue slot is evaluated against the state its round's commit has left (R469, R471 step 5): it ends,
or ends the sheaf's next quantum at once. The words after it act when the sheaf is next chosen. -/
def State.lookOnce (s : State) : State :=
  let s0 := s.upd fun h => { h with look := false }
  match s.sh.wait with
  | none => s0
  | some w =>
    match exec w.instr s0 with
    | .next t => if t.sh.trapped.isSome || (t.sh.parked ≠ [] && t.sh.wait.isNone) then t.finishWaited t.sh.rep.isSome else t
    | _ => s0

/-! ### One issue of the sheaf in the slot -/

/-- The sheaf may issue: it is live and resident, not parked, not halted, its quantum not ended, its trap entered, its gang started,
and what it wrote before a pre-emption performed (R74, R336, R375, R379, R445, R461, R469). -/
def State.runnable (s : State) (h : Sheaf) : Bool :=
  h.life = .live && !h.saved && !h.coreHalt && !h.dbgHalt && h.parked = [] && !h.quantumDone && h.entering.isNone &&
    !s.heldBack h &&
    (s.taskOf h).all fun t => match t.gang with | .committed _ => false | _ => true

/-- The stop point of a replay is reached (R497): the sheaf is debug-halted and its driver told, as at a BKPT whose group it stands
before (R445). DEDUCED (LOG 32): the trap registers are those of a BKPT with no word to report. -/
def State.haltAtStop (s : State) : State :=
  { s with
    stop := none
    halts := s.halts ++ [(s.tag, s.sh.sheafNo)]
    sh := { s.sh with dbgHalt := true, trpc := s.sh.pc, trnext := s.sh.pc, trcause := Cause.bkpt.code, trmask := s.sh.regs.em
                      traux := 0 } }

/-- What the sheaf in the issue slot does when it is chosen: looks at its wait, goes on with its group, takes a pending trap
at the boundary (R441), stops for a replay (R497), or issues its next group. None when it can do nothing now. -/
def State.tryIssue (s : State) : Option Out :=
  if !s.runnable s.sh then none
  else match s.sh.wait with
    | some w => s.lookAgain w
    | none =>
      if s.sh.mid then some s.goOn
      else if s.sh.nextPend.isSome then some (.next s.deliverPend)
      else if s.atStop then
        some (.next s.haltAtStop)
      else s.issueGroup

end Sys2Proof.Machine
end

