-- ==== Sys2Proof/Machine/Events.lean ====
section
/-!
DEFINITION. A step of another agent, as the agenda holds it, has the meaning of the instruction of the same name (LOG 1).
-/

namespace Sys2Proof.Machine

open Sys2Proof

/-- Run a step of the agenda. -/
def runEvent (e : Event) (s : State) : Out :=
  match e with
  | .lqnotifyWrite fn q val => execLqnotifyWrite fn q val s
  | .lqcfgWrite fn q val => execLqcfgWrite fn q val s
  | .cmdNop fn q => execCmdNop fn q s
  | .cmdLaunch fn q => execCmdLaunch fn q s
  | .cmdWait fn q => execCmdWait fn q s
  | .cmdWrite fn q => execCmdWrite fn q s
  | .waitConditionMet fn q => execWaitConditionMet fn q s
  | .startGtcReached task => execStartGtcReached task s
  | .unitHandout die => execUnitHandout die s
  | .unitSteal die => execUnitSteal die s
  | .gangRetry task => execGangRetry task s
  | .gangStart task => execGangStart task s
  | .groupPlacement cluster => execGroupPlacement cluster s
  | .preemption group => execPreemption group s
  | .groupRestore group => execGroupRestore group s
  | .loadDelivery sheaf k => execLoadDelivery sheaf k s
  | .atomicAtHome tag key op operand => execAtomicAtHome tag key op operand s
  | .peerHostRejection sheaf word dest lanes => execPeerHostRejection sheaf word dest lanes s
  | .faultResolved tag va ok => execFaultResolved tag va ok s
  | .pageInvalidation tag va len => execPageInvalidation tag va len s
  | .migrationCopy oldKey newKey len => execMigrationCopy oldKey newKey len s
  | .parkedWriteReplay tag va => execParkedWriteReplay tag va s
  | .hostMemoryWrite addr data => execHostMemoryWrite addr data s
  | .scrubPass key err => execScrubPass key err s
  | .copyEventComplete sheaf batch => execCopyEventComplete sheaf batch s
  | .sleepbWake sheaf => execSleepbWake sheaf s
  | .sleepWake sheaf => execSleepWake sheaf s
  | .matrixKstep sheaf k => execMatrixKstep sheaf k s
  | .mloopEnd sheaf k => execMloopEnd sheaf k s
  | .barrierWatchdog group bid => execBarrierWatchdog group bid s
  | .deadlockWatchdog tag => execDeadlockWatchdog tag s
  | .trapEntry sheaf => execTrapEntry sheaf s
  | .contextEnd tag cause va => execContextEnd tag cause va s
  | .sheafKill sheaf => execSheafKill sheaf s
  | .deathRecorded cluster group => execDeathRecorded cluster group s
  | .groupAdvance group => execGroupAdvance group s
  | .binRecordArrival die task node scope words sender last => execBinRecordArrival die task node scope words sender last s
  | .binSetTimer die task node scope => execBinSetTimer die task node scope s
  | .dependenceDecrement tag task va scope sheaf => execDependenceDecrement tag task va scope sheaf s
  | .graphEndSample task => execGraphEndSample task s
  | .taskEnd task => execTaskEnd task s
  | .quantumCountEnd sheaf => execQuantumCountEnd sheaf s
  | .roundCommit task => execRoundCommit task s
  | .firmwareXferRequest task ver budget => execFirmwareXferRequest task ver budget s
  | .xferDeadline task => execXferDeadline task s
  | .timeSliceEnd part => execTimeSliceEnd part s
  | .coreRelease core => execCoreRelease core s
  | .partitionConfigure part clusters => execPartitionConfigure part clusters s
  | .vfEnable fn policy parts => execVfEnable fn policy parts s
  | .monitorUpdate image => execMonitorUpdate image s
  | .moduleReset proenapin monitor fuses policies => execModuleReset proenapin monitor fuses policies s
  | .getVersion fn => execGetVersion fn s
  | .getCapabilities fn => execGetCapabilities fn s
  | .negotiateAlgorithms fn => execNegotiateAlgorithms fn s
  | .getDigests fn => execGetDigests fn s
  | .getCertificate fn => execGetCertificate fn s
  | .challenge fn nonce => execChallenge fn nonce s
  | .getMeasurements fn index => execGetMeasurements fn index s
  | .functionLevelReset fn => execFunctionLevelReset fn s
  | .vfMigration fn target => execVfMigration fn target s
  | .forwardingStubExpiry page => execForwardingStubExpiry page s
  | .cqcfgWrite fn val => execCqcfgWrite fn val s
  | .cqnotifyWrite fn val => execCqnotifyWrite fn val s
  | .allReduce cid => execAllReduce cid s
  | .allGather cid => execAllGather cid s
  | .broadcast cid => execBroadcast cid s
  | .collectiveTimeout cid participant => execCollectiveTimeout cid participant s
  | .pcvalWrite fn n val => execPcvalWrite fn n val s
  | .stallSample core => execStallSample core s
  | .traceArm fn => execTraceArm fn s
  | .traceStart fn => execTraceStart fn s
  | .traceStop fn => execTraceStop fn s
  | .supplySag die => execSupplySag die s
  | .clockRestore die => execClockRestore die s
  | .ageingCheck die margin => execAgeingCheck die margin s
  | .clusterClockGate cluster => execClusterClockGate cluster s
  | .d3hotEntry => execD3hotEntry s
  | .apertureWake fn => execApertureWake fn s
  | .debugResume sheaf => execDebugResume sheaf s
  | .moduleIdAssign id routes => execModuleIdAssign id routes s
  | .registerWrite reg val => execRegisterWrite reg val s
  | .monitorWrite key data => execMonitorWrite key data s
  | .driverCancel tag scope => execDriverCancel tag scope s
  | .debuggerAttach tag => execDebuggerAttach tag s
  | .replay task round sheaf stop => execReplay task round sheaf stop s
  | .peerRequest source addr op => execPeerRequest source addr op s
  | .linkFailure port target => execLinkFailure port target s
  | .signalReread sheaf => execSignalReread sheaf s
  | .apertureGate fn => execApertureGate fn s
  | .d3hotExit => execD3hotExit s

end Sys2Proof.Machine
end

