-- ==== Sys2Proof/Machine/Clock.lean ====
section
/-!
DEFINITION. What goes on beside the issue of groups: time, timers and watchdog counters (R20, R386, R449), the steps of other
agents that have become due, the engines' next step, and the choice of the next sheaf (R379, R380). How these interleave is
the model's own (LOG 1, LOG 12).
-/

namespace Sys2Proof.Machine

open Sys2Proof

/-! ### Timers -/

/-- A sheaf of a context is debug-halted: its timers hold (R445). -/
def State.debugHeld (s : State) (tag : BitVec 12) : Bool := s.sheaves.any fun h => h.life = .live && h.dbgHalt && s.tagOf h = tag

/-- A barrier's timer counts from the first arrival of a phase until the phase completes (R386). -/
def Barrier.tick (b : Barrier) : Barrier := { b with timer := b.timer.map (· + 1) }

/-- Timers of a group count while it is resident (R386, R456). -/
def State.tickGroup (s : State) (g : Group) : Group :=
  if g.saved || g.freed || (s.task g.task).any (fun t => s.debugHeld t.tag) then g else { g with barriers := g.barriers.map Barrier.tick }

/-- The wait is external (R449): its end comes from outside the context. -/
def externalWait (i : Instr) : Bool :=
  match i with
  | .sleep _ | .sleepb _ _ => true
  | .waitsig _ sp sc _ _ => sp ≠ 0 || sc = 5
  | _ => false

/-- The sheaf keeps its context's deadlock counter at 0 (R449): saved, debug-halted, parked, in an external wait, or with a loop or
a load on its way. -/
def Sheaf.stirs (h : Sheaf) : Bool :=
  h.saved || h.dbgHalt || h.parked ≠ [] || h.loops ≠ [] || h.loads.any (·.remote) || h.wait.any fun w => externalWait w.instr

/-- What the sheaf issued is outstanding, though it may have ended (R364, R418, R449). -/
def Sheaf.leaves (h : Sheaf) : Bool := h.batches ≠ [] || h.spawns ≠ 0

/-- Something of a context is outstanding, or none of its sheaves is resident (R449). -/
def State.contextStirs (s : State) (tag : BitVec 12) : Bool :=
  let all := s.sheaves.filter fun h => s.tagOf h = tag
  let hs := all.filter (·.life = .live)
  hs = [] || hs.any Sheaf.stirs || all.any Sheaf.leaves || s.parking.any (·.tag = tag) || s.inFlight tag (fun _ => true) ||
    (s.tasks.any fun t => t.tag = tag && !t.ended && t.units ≠ []) ||
    s.bins.any fun b => (s.task b.task).any (·.tag = tag) && (b.sets ≠ [] || b.closed ≠ [] || b.waiting ≠ [])

/-- A context's deadlock counter after a cycle in which a sheaf of context `who` issued (R449). -/
def State.tickContext (s : State) (who : Option (BitVec 12)) (c : Context) : Context :=
  if c.ended || who = some c.tag || s.contextStirs c.tag then { c with deadlock := 0 } else { c with deadlock := c.deadlock + 1 }

/-- One nanosecond passes (R20; LOG 12). -/
def State.pass (s : State) (who : Option (BitVec 12)) : State :=
  { s with gtc := s.gtc + 1, groups := s.groups.map s.tickGroup, contexts := s.contexts.map (s.tickContext who) }

/-! ### Engines -/

/-- A load of a sheaf that can deliver, the oldest (R140). -/
def loadStep (h : Sheaf) : Option Event :=
  if h.unitRuns then (h.loads.findIdx? fun l => l.waits = 0).map fun k => .loadDelivery h.uid k else none

/-- The next K-step or the end of a loop of a sheaf that is ready (R285, R288). -/
def State.loopStep (s : State) (h : Sheaf) : Option Event :=
  if !h.unitRuns then none
  else match h.loops.findIdx? fun l => !s.loopBlocked h.uid l.d with
    | none => none
    | some k => (h.loops[k]?).map fun l => if l.nextK < l.steps then .matrixKstep h.uid k else .mloopEnd h.uid k

/-- An event would bring a batch of the sheaf on, its open one too (R151, R152, R166). -/
def State.copyReady (s : State) (h : Sheaf) (num : BitVec 8) : Bool :=
  s.copyRuns h && (({ s with sh := h, peers := s.sheaves.filter (·.uid ≠ h.uid) } : State).copyEvent num false).isSome

/-- The next event of a batch of a sheaf. -/
def State.copyStep (s : State) (h : Sheaf) : Option Event :=
  let open_ := if h.openCpys = [] then [] else [h.nextBatch]
  ((h.batches.map Batch.num ++ open_).find? (s.copyReady h)).map fun n => .copyEventComplete h.uid n

/-- The engines' next step: a delivery, a K-step, a copy. -/
def State.engine (s : State) : Option Event :=
  (s.sheaves.findSome? loadStep).orElse fun _ => (s.sheaves.findSome? s.loopStep).orElse fun _ => s.sheaves.findSome? s.copyStep

/-- The engines have nothing left to do for the sheaves of a task. A round's commit waits for that (LOG 1). -/
def State.enginesDone (s : State) (tid : Nat) : Bool :=
  (s.sheaves.filter (·.task = tid)).all fun h => (loadStep h).isNone && (s.loopStep h).isNone && (s.copyStep h).isNone

/-! ### Steps that are due -/

/-- Steps of tasks (R373, R375, R397, R435, R468). -/
def State.dueTask (s : State) (t : Task) : List Event :=
  if t.ended then []
  else
    (if !t.handed && t.gang = .none && t.units ≠ [] && t.lrec.startGtc ≤ s.gtc.toNat then [.startGtcReached t.tid] else []) ++
    (match t.gang with | .committed at_ => if at_ ≤ s.gtc.toNat then [.gangStart t.tid] else [] | _ => []) ++
    (if t.nodes ≠ [] && t.sample.all (fun p => p.gtc + 500 ≤ s.gtc.toNat) then [.graphEndSample t.tid] else []) ++
    (if t.deadline.any (· ≤ s.gtc.toNat) && !s.askDrains t.tid then [.xferDeadline t.tid] else []) ++
    (if s.roundReady t && s.enginesDone t.tid && s.commitMoves t then [.roundCommit t.tid] else [])

/-- Steps of bins (R391): a set has waited its node's time, or a record that waits can be taken. -/
def State.dueBin (s : State) (b : Bin) : List Event :=
  match s.task b.task with
  | none => []
  | some t =>
    if t.repeatable then []
    else match t.nodes[b.node]? with
      | none => []
      | some e =>
        (((b.sets.filter fun x => x.first + e.timer ≤ s.gtc.toNat).map BinSet.scope ++
          ((b.waiting.find? (b.takes e.count)).map BinRec.scope).toList)).map fun x => .binSetTimer b.die b.task b.node x

/-- Steps of sheaves (R441, R469). -/
def State.dueSheaf (s : State) (h : Sheaf) : List Event :=
  if h.life ≠ .live || h.saved then []
  else
    (if h.entering.isSome && !h.coreHalt && h.replays = [] && h.loads.all (·.waits = 0) && h.loops.all (fun l => !s.loopBlocked h.uid l.d)
      then [.trapEntry h.uid] else []) ++
    (if !h.quantumDone && h.wait.isNone && !h.mid && (s.taskOf h).any Task.repeatable && h.quantumOver then [.quantumCountEnd h.uid] else [])

/-- The slice of a partition's resident function is over, where functions share the partition (R463), and what ends it can take place
(R455, R467); a new one begins with the swap, or with none where no other function has work. -/
def State.dueSlice (s : State) (p : Partition) : List Event :=
  match p.resident with
  | none => if ((s.turnOf p.num 95).find? s.wants).isSome then [.timeSliceEnd p.num] else []
  | some r =>
    let slice := (((s.fns[r]?).bind VirtFn.policy).map Policy.slice).getD 2000000
    let others := (s.turnOf p.num r).filter (· ≠ r)
    if p.since + slice ≤ s.gtc.toNat && others ≠ [] && !s.gangHolds p.num && !(s.swapWaits p.num r && others.any s.wants)
      then [.timeSliceEnd p.num] else []

/-- Stall samples of a partition's cores (R492): one every 2^(PER + 10) cycles. -/
def State.dueSamples (s : State) (p : Partition) : List Event :=
  match p.resident.bind fun f => s.fns[f]? with
  | none => []
  | some v =>
    if v.smpcfg.getLsbD 0 && s.gtc.toNat % 2 ^ (min (v.smpcfg.extractLsb' 4 4).toNat 10 + 10) = 0
      then p.clusters.flatMap fun c => (List.range 8).map fun j => .stallSample (8 * c + j) else []

/-- Steps of a virtual function's trace session (R495). -/
def State.dueTrace (s : State) (fn : Nat) (v : VirtFn) : List Event :=
  match v.trace with
  | .armed => if s.timeCond v.trstart then [.traceStart fn, .traceStop fn] else []
  | .recording => if s.timeCond v.trstop then [.traceStop fn] else []
  | _ => []

/-- Steps of a collective (R487, R488): its end, or a participant of this module that is late. -/
def State.dueCollective (s : State) (c : Collective) : List Event :=
  if s.collReady c then [c.event]
  else
    let wait := ((c.members.head?.bind fun m => (s.fns[m.fn]?).bind VirtFn.policy).map Policy.collective).getD 1000000000
    if s.gtc.toNat < c.since + wait then []
    else ((List.range c.table.length).filter fun j => !c.abandoned.contains j && !c.members.any (·.index = j) &&
      (c.table.getD j 0) % 2 ^ 21 = s.modId.toNat).map fun j => .collectiveTimeout c.cid j

/-- Insert a barrier by core, then by its number. -/
def insertBarrier (x : Nat × Nat × Nat) : List (Nat × Nat × Nat) → List (Nat × Nat × Nat)
  | [] => [x]
  | y :: r => if x.1 < y.1 || (x.1 = y.1 && x.2.1 ≤ y.2.1) then x :: y :: r else y :: insertBarrier x r

/-- Watchdogs that have reached their limits (R386, R449): of several barriers the lowest core's first, then the lowest BID's. -/
def State.dueWatchdogs (s : State) : List Event :=
  let late := fun (g : Group) (b : Barrier) =>
    (s.task g.task).any fun t => b.timer.any (barrierLimit t.lrec ≤ ·) && (s.context t.tag).any fun c => !c.ended
  let fired := (s.groups.filter fun g => !g.freed && !g.saved).flatMap fun g =>
    (g.barriers.zipIdx.filter fun b => late g b.1).map fun b => (g.core, b.2, g.gid)
  (fired.foldr insertBarrier []).map (fun x => .barrierWatchdog x.2.2 x.2.1) ++
  (s.contexts.filter fun c => !c.ended && Config.deadlock ≤ c.deadlock).map fun c => .deadlockWatchdog c.tag

/-- Steps of the dies and the clusters (R499, R500): ageing checks, clocks that stop. -/
def State.duePower (s : State) : List Event :=
  (((List.range 8).filter fun d => (s.dies[d]?).any fun k => k.aged + Config.ageingPeriod ≤ s.gtc.toNat).map fun d =>
    .ageingCheck d (Config.ageing (d + 8 * (s.gtc.toNat / Config.ageingPeriod)))) ++
  ((List.range 64).filter fun c => (s.clusters[c]?).any fun k =>
    k.powered && !k.gated && k.idle.any fun t => t + Config.gateTime ≤ s.gtc.toNat).map .clusterClockGate

/-- Every step that is due. -/
def State.due (s : State) : List Event :=
  (s.held.filter s.heldDue).map (fun h => .waitConditionMet h.command.fn h.command.queue) ++ s.tasks.flatMap s.dueTask ++ s.bins.flatMap s.dueBin ++
  s.sheaves.flatMap s.dueSheaf ++ s.partitions.flatMap (fun p => s.dueSlice p ++ s.dueSamples p) ++
  (s.fns.toList.zipIdx.flatMap fun v => s.dueTrace v.2 v.1) ++ s.collectives.flatMap s.dueCollective ++ s.dueWatchdogs ++ s.duePower ++
  (s.groups.filter s.entriesFreed).map (fun g => .groupRestore g.gid) ++
  (s.stubs.filter fun x => 0 < x.2.2 && x.2.2 ≤ s.gtc.toNat).map fun x => .forwardingStubExpiry x.1

/-! ### The next sheaf (R380) -/

/-- A sheaf comes before another whatever their ready stamps (R363, R380): the starving ones, the highest count first and then the
lowest residency slot; then by priority; one that yielded after its equals. -/
def Sheaf.ahead (x h : Sheaf) : Bool :=
  if 256 ≤ x.starve then h.starve < 256 || h.starve < x.starve || (h.starve = x.starve && x.seat < h.seat)
  else h.starve < 256 && (x.prio.toNat < h.prio.toNat || (x.prio = h.prio && !x.yielded && h.yielded))

/-- Insert by rank, before its equals, so that a fold from the right keeps their order. -/
def insertRank (h : Sheaf) : List Sheaf → List Sheaf
  | [] => [h]
  | x :: r => if x.ahead h then x :: insertRank h r else h :: x :: r

/-- The core a sheaf is on. -/
def State.coreOf (s : State) (h : Sheaf) : Nat := ((s.group h.group).map Group.core).getD 0

/-- The sheaf can do something if it is given the issue slot. -/
def State.canIssue (s : State) (h : Sheaf) : Bool :=
  (State.tryIssue { s with sh := h, peers := s.sheaves.filter (·.uid ≠ h.uid) }).isSome

/-- The sheaves with those that have become eligible after the others (R380): a ready stamp is taken when an issue or a wait ends. -/
def State.stamp (s : State) (order : List Sheaf) : List Sheaf :=
  let xs := order.map fun h => (h, s.runnable h && s.canIssue h)
  let new := fun (x : Sheaf × Bool) => x.2 && !x.1.ready
  ((xs.filter fun x => !new x) ++ xs.filter new).map fun x => { x.1 with ready := x.2 }

/-- Put a sheaf in the issue slot; after an issue, the others of its core that were eligible starve by one (R379, R380). -/
def State.seat (s : State) (order : List Sheaf) (h : Sheaf) (issued : Bool) : State :=
  let wait := fun (x : Sheaf) => if issued && x.ready && s.coreOf x = s.coreOf h then { x with starve := x.starve + 1 } else x
  { s with sh := h, peers := (order.filter fun x => x.uid ≠ h.uid).map wait }

/-- The choice of each core that has a sheaf to run (R380), the core of the oldest ready stamp first (LOG 1). -/
def State.choices (s : State) (hs : List Sheaf) : List (List Sheaf) :=
  ((hs.map s.coreOf).reverse.dedup).reverse.map fun c => (hs.filter fun h => s.coreOf h = c).foldr insertRank []

/-- Choose the sheaf for the issue slot: the first choice of a core that can do something. With one candidate there is no
choice, and with none the slot stays as it is. -/
def State.choose (s : State) (issued : Bool) : State :=
  let order := (if issued then s.peers ++ [{ s.sh with ready := false }] else s.sh :: s.peers).filter fun h => h.life ≠ .absent
  match order.filter s.runnable with
  | [] => s
  | [h] => s.seat order h issued
  | _ =>
    let order := s.stamp order
    match (s.choices (order.filter Sheaf.ready)).findSome? List.head? with
    | some h => s.seat order h issued
    | none => s.mapSheaves fun h => { h with ready := false }

/-! ### What follows every step -/

/-- Iguana and the monitor look at the contexts (R416, R419, R447): subtrees are sampled, scopes without work retire, except those
that change at commits alone (R421), an ended context that is quiescent is released, and a function whose contexts all are is
ready again after its reset (R482). -/
def State.lookAtContexts (s : State) : State :=
  let s1 := { s with contexts := s.contexts.map (s.sampleScopes false) }
  let retire := fun (t : State) (c : Context) =>
    if c.scopes.length ≤ 1 then t else t.retire c.tag fun x => !t.commits c.tag x && t.quiet c.tag x
  let s2 := s1.contexts.foldl retire s1
  let s3 := ((s2.contexts.filter Context.ended).map Context.tag).foldl State.releaseContext s2
  if s3.fns.toList.all fun v => !v.resetting then s3 else (List.range 96).foldl State.finishReset s3

/-- The waits of a task whose round has committed are evaluated, in ascending %sheaf, before any sheaf issues in the next round
(R469, R471 step 5). -/
def State.lookAll (s : State) : State :=
  let due := s.sheaves.filter fun h => h.look && s.runnable h
  ((due.foldl (fun l h => insertSheaf h l) []).map Sheaf.uid).foldl (fun t u => t.as u State.lookOnce) s

/-- Stall cycles of a whole sheaf (R56, R491): one for each that a pending register holds. -/
def State.countStalls (s : State) : State :=
  if s.fns.toList.all fun v => v.psel.toList.all fun x => (x.extractLsb' 0 8).toNat ≠ Counted.stalls.code then s
  else
    let held := fun (h : Sheaf) => s.runnable h && h.wait.isNone && !h.mid &&
      (let t : State := { s with sh := h, peers := s.sheaves.filter (·.uid ≠ h.uid) }
       match t.fetch with | .group gs => t.awaits gs | _ => false)
    (s.sheaves.filter held).foldl (fun t h => t.count (t.tagOf h) (t.coreOf h) .stalls 1) s

/-- Cycles slowed by a supply sag (R491, R498): one for each cluster of such a die, for the function that runs on it. -/
def State.countSags (s : State) : State :=
  if s.dies.toList.all fun d => d.clock = .full then s
  else
    let slow := fun (c : Nat) => (s.dies[c / 8]?).any fun d => d.clock ≠ .full
    s.partitions.foldl (fun t p => match p.resident with
      | some f => (p.clusters.filter slow).foldl (fun t c => t.count (t.fnTag f) (8 * c) .sagCycles 1) t
      | none => t) s

/-- Invalidations that no access translated before keeps open are complete (R75). -/
def State.completeInvalids (s : State) : State := { s with invalids := s.invalids.filter s.oldAccess }

/-- What follows every step: trace sessions close, time passes, waits that a commit decides end, loads go out anew, contexts and clusters
are looked at, due steps are added, after an issue an engine's step, and the next sheaf is chosen. -/
def State.after (s : State) (who : Option (BitVec 12)) : State :=
  let r := (((s.closeTraces).pass who).lookAll).replayLoads
  let t := (((r.countStalls.countSags).lookAtContexts).completeInvalids).noteIdle
  let u := t.post (t.due.filter fun e => !t.agenda.contains e)
  let v := if u.agenda = [] && who.isSome then u.post u.engine.toList else u
  v.choose who.isSome

end Sys2Proof.Machine
end

