-- ==== Sys2Proof/Machine/Boot.lean ====
section
/-!
DEFINITION. A program loaded from outside, so that the next step fetches a given instruction (LOG 19): on the running sheaf
where its code maps, else on a context, a task and a sheaf made for it.
-/

namespace Sys2Proof.Machine

open Sys2Proof

/-- Virtual address of word 0 of the loaded code. -/
def bootCode : Nat := 0x30000

/-- The context of the load: its level-0 table lies at device address 0x1000. -/
def bootContext : Context where
  tag := 1
  fn := 0
  root := 0x1000
  diag := 0
  counters := none
  debugger := false
  ended := false
  released := false
  wdDone := false
  deadlock := 0
  scopes := [Scope.root]
  queues := []
  cancels := []
  iguana := []
  frames := []

/-- The task of the load: one sheaf of the code, which an unknown launch record of zeros stands for. -/
def bootTask (tid : Nat) : Task where
  tid := tid
  tag := 1
  fn := 0
  queue := 0
  cmd := 0
  cmdHost := false
  cmdAddr := 0
  part := 0
  recVA := 0x10000
  lrec := { LaunchRec.zero with spad := 65536, levels := [{ extent := 1, domain := 0, scope := 0 }], barriers := 16, owner := tid }
  codeBase := bootCode
  codeWords := 0x10000
  fnCount := 0
  fnTable := 0
  versions := []
  entry := 0
  nodes := []
  tiles := []
  scope := 0
  ownScope := false
  units := []
  handed := true
  gang := .none
  regions := []
  sent := 0
  recv := 0
  sample := none
  binSheaves := 0
  exhausted := false
  round := 0
  gathered := []
  cutting := []
  checkpointEvery := 0
  pages := []
  deadline := none
  ask := none
  ended := false

/-- Tables of the load: virtual addresses below 1 GiB are the device addresses of the same number. -/
def bootTables (m : List Host.Cell) : List Host.Cell :=
  writeBytes (writeBytes m 0x1000 (leBytes 8 0x2001)) 0x2000 (leBytes 8 0x203)

/-- The machine with the load's context, task and group, and its sheaf in the issue slot. -/
def State.boot (s : State) : State :=
  let t := bootTask s.fresh
  let g := t.newGroup s.fresh { core := 0, base := 0, need := t.lrec.need, gid := s.fresh, idx := 0 }
  { s with
    sh := t.newSheaf s.fresh s.fresh 0 0 0 0 0 96 0 (BitVec.allOnes 64) 0
    peers := if s.sh.life = .absent then s.peers else s.peers ++ [s.sh]
    agenda := []
    stop := none
    mem := bootTables s.mem
    contexts := bootContext :: s.contexts.filter fun c => c.tag ≠ 1
    tasks := s.tasks ++ [t]
    groups := s.groups ++ [g]
    fresh := s.fresh + 1 }

/-- A sheaf with nothing that keeps it from fetching its next group. -/
def Sheaf.idle (h : Sheaf) : Sheaf :=
  { h with
    wait := none
    rest := []
    mid := false
    pend := []
    trapped := none
    entering := none
    parked := []
    loads := []
    replays := []
    loops := []
    rep := none
    resumed := false
    saved := false
    coreHalt := false
    dbgHalt := false
    quantumDone := false }

/-- The keys of the next two code words of the sheaf in the issue slot, where both exist and map. -/
def State.fetchKeys (s : State) : Option (Nat × Nat) :=
  let a := s.sh.fetchAt
  match s.taskOf s.sh with
  | none => none
  | some t =>
    if t.codeWords ≤ a + 1 || s.midGroup s.sh a then none
    else match s.xlat t.tag (t.codeBase + 4 * a) .load, s.xlat t.tag (t.codeBase + 4 * (a + 1)) .load with
      | .ok m, .ok n => some (m.key, n.key)
      | _, _ => none

/-- Store two words. -/
def State.putCode (s : State) (at_ : Nat × Nat) (w x : Word) : State :=
  { s with mem := writeBytes (writeBytes s.mem at_.1 (leBytes 4 w.toNat)) at_.2 (leBytes 4 x.toNat) }

/-- The machine about to fetch the two words. -/
def State.loadCode (s : State) (w x : Word) : State :=
  let t := { s with agenda := [], stop := none, sh := s.sh.idle }
  match if t.runnable t.sh then t.fetchKeys else none with
  | some k => t.putCode k w x
  | none => s.boot.putCode (bootCode, bootCode + 4) w x

end Sys2Proof.Machine
end

