-- ==== Sys2Proof/Machine/Step.lean ====
section
/-!
DEFINITION. One step of the machine: a due step of another agent, else the sheaf in the issue slot, else an engine (LOG 1).
-/

namespace Sys2Proof.Machine

open Sys2Proof

/-- What follows a step that answered. -/
def settled (who : Option (BitVec 12)) (o : Host.Outcome State Fault Refusal) : Host.Outcome State Fault Refusal :=
  match o with
  | .next t => .next (t.after who)
  | x => x

/-- One step. -/
def step (s : State) : Host.Outcome State Fault Refusal :=
  match s.agenda with
  | e :: r => settled none (runEvent e { s with agenda := r })
  | [] =>
    match s.tryIssue with
    | some o => settled (some s.tag) o
    | none =>
      match s.engine with
      | some e => settled none (runEvent e s)
      | none => .next (s.after none)

/-- The machine with the instruction of the table's bits stored where the next step fetches: the first word is bits 31:0,
the next bits 63:32 (LOG 19). -/
def State.withFetchWord (s : State) (nbits w : Nat) : State :=
  s.loadCode (BitVec.ofNat 32 (w % 2 ^ nbits)) (BitVec.ofNat 32 (w % 2 ^ nbits / 2 ^ 32))

end Sys2Proof.Machine
end

