-- ==== Sys2Proof/Safety.lean ====
section
/-!
DEFINITION. What counts as a safe run, in the terms the statements use: the form of the module's memory that every step
keeps, a word that issues without a trap or a wait, and a step that goes on.
-/

namespace Sys2Proof.Machine

open Sys2Proof

/-- Memory and line metadata hold their canonical forms, so equal memories are equal data. -/
def State.memOk (s : State) : Prop := Memory.wf s.mem = true ∧ Memory.linesWf s.lines = true

/-- The word in the latch issues: the sheaf waits in nothing, every check of R51 passes (the words of a group of several have
passed them together), and an interlocked word finds room in its queue (R58). -/
def State.issues (s : State) (i : Instr) : Bool :=
  s.sh.wait.isNone && (s.sh.snap.isSome || (s.firstCheck i).isNone) &&
    (match (s.sh.use i).queue with | some q => !s.sh.full q | none => true)

/-- A step that neither faults nor is refused. -/
def goesOn (s : State) : Prop := ∃ t, step s = .next t

end Sys2Proof.Machine
end

