-- ==== Sys2Proof/Certificates/Slice0/Obligations.lean ====
section
/-!
DEFINITION. The statements for the provers. The tables of results are written out from the rules they cite, in integer
arithmetic where the rule is; a table's entry is an instruction with what the rule gives for it.
-/

namespace Sys2Proof.Rules

open Sys2Proof Sys2Proof.Machine

/-! ### What a word leaves unchanged -/

/-- The word wrote registers of its sheaf and nothing else of the machine: no flag, no special register, no memory. -/
def onlyRegs (s t : State) : Prop := { t with sh := { t.sh with regs := s.sh.regs } } = s

/-- The word wrote registers and `%fpflags` of its sheaf and nothing else. -/
def onlyRegsFlags (s t : State) : Prop :=
  { t with sh := { t.sh with regs := s.sh.regs, fpflags := s.sh.fpflags } } = s

/-- The word set where its sheaf goes on, and nothing else. -/
def onlyNext (s t : State) : Prop := { t with sh := { t.sh with next := s.sh.next } } = s

/-- Scalar, predicate and mask registers and `%mode` as before. -/
def sameScalars (r r' : Regs) : Prop := r'.s = r.s ∧ r'.k = r.k ∧ r'.em = r.em ∧ r'.mode = r.mode

/-- Vector, output and last-result registers as before. -/
def sameVectors (r r' : Regs) : Prop := r'.v = r.v ∧ r'.o = r.o ∧ r'.w = r.w

/-! ### Vector results (R237, R238) -/

/-- Register code `d` holds `x` in the lanes of `em`; every other lane and register of v and o is as before. A code that is
no register (108) names none of them. -/
def wrote (em : DWord) (d : Nat) (x : Nat → Word) (r r' : Regs) : Prop :=
  ∀ c i, c < 104 → i < 64 → laneOf (r'.file c) i = if c = d ∧ em.getLsbD i = true then x i else laneOf (r.file c) i

/-- One push: w0 holds the result, 0 in inactive lanes, and the file shifts. -/
def pushed (em : DWord) (x : Nat → Word) (r r' : Regs) : Prop :=
  (∀ i, i < 64 → laneOf (r'.file 104) i = if em.getLsbD i = true then x i else 0) ∧
  r'.file 105 = r.file 104 ∧ r'.file 106 = r.file 105 ∧ r'.file 107 = r.file 106

/-- Two pushes, the low half first. -/
def pushed2 (em : DWord) (lo hi : Nat → Word) (r r' : Regs) : Prop :=
  (∀ i, i < 64 → laneOf (r'.file 104) i = if em.getLsbD i = true then hi i else 0) ∧
  (∀ i, i < 64 → laneOf (r'.file 105) i = if em.getLsbD i = true then lo i else 0) ∧
  r'.file 106 = r.file 104 ∧ r'.file 107 = r.file 105

/-- The registers after a word with the 32-bit result `x`. -/
def vecRegs (s : State) (d : VCode) (x : Nat → Word) (r' : Regs) : Prop :=
  wrote s.sh.em d.toNat x s.sh.regs r' ∧ pushed s.sh.em x s.sh.regs r' ∧ sameScalars s.sh.regs r'

/-- The pair D, D + 1 holds `x` in the active lanes; every other lane and register of v and o is as before. -/
def wrotePair (s : State) (d : VCode) (x : Nat → DWord) (r' : Regs) : Prop :=
  ∀ c i, c < 104 → i < 64 → laneOf (r'.file c) i =
    if s.sh.em.getLsbD i = true ∧ d.toNat < 104 ∧ c = d.toNat then (x i).extractLsb' 0 32
    else if s.sh.em.getLsbD i = true ∧ d.toNat < 104 ∧ c = d.toNat + 1 then (x i).extractLsb' 32 32
    else laneOf (s.sh.regs.file c) i

/-- The registers after a word with the 64-bit result `x` in the pair D, D + 1. -/
def pairRegs (s : State) (d : VCode) (x : Nat → DWord) (r' : Regs) : Prop :=
  wrotePair s d x r' ∧
  pushed2 s.sh.em (fun i => (x i).extractLsb' 0 32) (fun i => (x i).extractLsb' 32 32) s.sh.regs r' ∧
  sameScalars s.sh.regs r'

/-- Lane i of the 32-bit source operand of a code, and of D read as a source. -/
def inA (s : State) (a : VCode) (i : Nat) : Word := laneOf (s.sh.rd.src a) i
def inD (s : State) (d : VCode) (i : Nat) : Word := laneOf (s.sh.rd.file d.toNat) i

/-! ### Integer words (R248-R256) -/

/-- A shift count clamped to the width. -/
def upTo31 (n : Nat) : Nat := min n 31

/-- Set bits of a number of 32 bits (R254). -/
def bitsSet (x : Word) : Nat := ((List.range 32).filter fun j => x.getLsbD j).length

/-- Zero bits above the highest set bit (R254). -/
def zerosAbove (x : Word) : Nat := ((List.range 32).takeWhile fun j => !x.getLsbD (31 - j)).length

/-- BFX (R254). -/
def bfxRule (a b : Word) : Word :=
  let p := b.toNat % 32
  let len := b.toNat / 256 % 32 + 1
  let f := a.toNat / 2 ^ p % 2 ^ len
  BitVec.ofInt 32 (if b.getLsbD 16 = true ∧ 2 ^ (len - 1) ≤ f then (f : Int) - 2 ^ len else f)

/-- BFI (R256): bit j of the result. -/
def bfiRule (a b d : Word) (j : Nat) : Bool :=
  let p := b.toNat % 32
  let len := b.toNat / 256 % 32 + 1
  if p ≤ j ∧ j < p + len then a.getLsbD (j - p) else d.getLsbD j

/-- Byte j of a word, signed and unsigned. -/
def byteS (x : Word) (j : Nat) : Int := (x.extractLsb' (8 * j) 8).toInt
def byteU (x : Word) (j : Nat) : Int := ((x.extractLsb' (8 * j) 8).toNat : Int)

/-- The results of R248, R250 and R256 on a, b and d. -/
def intWords (d a b : VCode) : List (Instr × (Word → Word → Word → Word)) := [
  (.iadd d a b, fun x y _ => BitVec.ofInt 32 (x.toInt + y.toInt)),
  (.isub d a b, fun x y _ => BitVec.ofInt 32 (x.toInt - y.toInt)),
  (.imul d a b, fun x y _ => BitVec.ofInt 32 (x.toInt * y.toInt)),
  (.imulhi d a b, fun x y _ => BitVec.ofInt 32 (x.toInt * y.toInt / 2 ^ 32)),
  (.imad d a b, fun x y o => BitVec.ofInt 32 (x.toInt * y.toInt + o.toInt)),
  (.imin d a b, fun x y _ => BitVec.ofInt 32 (min x.toInt y.toInt)),
  (.imax d a b, fun x y _ => BitVec.ofInt 32 (max x.toInt y.toInt)),
  (.iabsd d a b, fun x y _ => BitVec.ofNat 32 (x.toInt - y.toInt).natAbs),
  (.nmin d a b, fun x y _ => BitVec.ofNat 32 (min x.toNat y.toNat)),
  (.nmax d a b, fun x y _ => BitVec.ofNat 32 (max x.toNat y.toNat)),
  (.nmulhi d a b, fun x y _ => BitVec.ofNat 32 (x.toNat * y.toNat / 2 ^ 32)),
  (.iadds d a b, fun x y _ => BitVec.ofInt 32 (max (-2 ^ 31) (min (2 ^ 31 - 1) (x.toInt + y.toInt)))),
  (.and d a b, fun x y _ => x &&& y),
  (.or d a b, fun x y _ => x ||| y),
  (.xor d a b, fun x y _ => x ^^^ y),
  (.andn d a b, fun x y _ => x &&& ~~~y),
  (.shl d a b, fun x y _ => if y.toNat < 32 then BitVec.ofNat 32 (x.toNat * 2 ^ y.toNat) else 0),
  (.shr d a b, fun x y _ => if y.toNat < 32 then BitVec.ofNat 32 (x.toNat / 2 ^ y.toNat) else 0),
  (.sar d a b, fun x y _ => BitVec.ofInt 32 (x.toInt / 2 ^ upTo31 y.toNat)),
  (.rotl d a b, fun x y _ =>
    BitVec.ofNat 32 (x.toNat * 2 ^ (y.toNat % 32) + x.toNat / 2 ^ (32 - y.toNat % 32))),
  (.bfx d a b, fun x y _ => bfxRule x y),
  (.sel d a b, fun x y o => if o.toNat ≠ 0 then x else y),
  (.idp4 d a b, fun x y o => BitVec.ofInt 32 (o.toInt + byteS x 0 * byteS y 0 + byteS x 1 * byteS y 1 +
    byteS x 2 * byteS y 2 + byteS x 3 * byteS y 3)),
  (.ndp4 d a b, fun x y o => BitVec.ofInt 32 (o.toInt + byteU x 0 * byteU y 0 + byteU x 1 * byteU y 1 +
    byteU x 2 * byteU y 2 + byteU x 3 * byteU y 3))]

/-- The results of R252 (immediates) and R254 (unary words) on a. -/
def immWords (d a : VCode) (m : BitVec 7) : List (Instr × (Word → Word)) := [
  (.iaddi d a m, fun x => BitVec.ofInt 32 (x.toInt + m.toInt)),
  (.imuli d a m, fun x => BitVec.ofInt 32 (x.toInt * m.toInt)),
  (.andi d a m, fun x => x &&& BitVec.ofInt 32 m.toInt),
  (.ori d a m, fun x => x ||| BitVec.ofInt 32 m.toInt),
  (.xori d a m, fun x => x ^^^ BitVec.ofInt 32 m.toInt),
  (.shli d a m, fun x => BitVec.ofNat 32 (x.toNat * 2 ^ m.toNat)),
  (.shri d a m, fun x => BitVec.ofNat 32 (x.toNat / 2 ^ m.toNat)),
  (.sari d a m, fun x => BitVec.ofInt 32 (x.toInt / 2 ^ m.toNat)),
  (.popc d a, fun x => BitVec.ofNat 32 (bitsSet x)),
  (.clz d a, fun x => BitVec.ofNat 32 (zerosAbove x)),
  (.brev d a, fun x => x.reverse)]

/-! ### Moves, classification, residues, equal lanes (R218, R222, R266, R270, R307, R309, R312, R324) -/

/-- The class bit of an f32 encoding (R270). -/
def classBit (x : Word) : Nat :=
  let e := x.toNat / 2 ^ 23 % 256
  let f := x.toNat % 2 ^ 23
  let n := 2 ^ 31 ≤ x.toNat
  if e = 255 ∧ f ≠ 0 then (if f < 2 ^ 22 then 0 else 1)
  else if e = 255 then (if n then 2 else 9)
  else if e ≠ 0 then (if n then 3 else 8)
  else if f ≠ 0 then (if n then 4 else 7)
  else if n then 5 else 6

/-- Channel j of an ra32 word and of an re16 element, reduced, and the moduli (R106-R108). -/
def raCh (x : Word) : Nat → Nat
  | 0 => x.toNat % 1024 % 1023 | 1 => x.toNat / 2 ^ 10 % 1024 | _ => x.toNat / 2 ^ 20 % 2048 % 1025
def raMod : Nat → Nat
  | 0 => 1023 | 1 => 1024 | _ => 1025
def reCh (x : Nat) : Nat → Nat
  | 0 => x % 32 % 31 | 1 => x / 2 ^ 5 % 32 | _ => x / 2 ^ 10 % 64 % 33
def reMod : Nat → Nat
  | 0 => 31 | 1 => 32 | _ => 33

/-- The ra32 word, and the re16 element, with these channels. -/
def raOf (c : Nat → Int) : Word := BitVec.ofInt 32 (c 2 % 1025 * 2 ^ 20 + c 1 % 1024 * 2 ^ 10 + c 0 % 1023)
def reOf (c : Nat → Int) : Int := c 2 % 33 * 2 ^ 10 + c 1 % 32 * 2 ^ 5 + c 0 % 31
/-- The word of two 16-bit elements. -/
def two (f : Nat → Int) : Word := BitVec.ofInt 32 (f 1 % 2 ^ 16 * 2 ^ 16 + f 0 % 2 ^ 16)
/-- Element e of a word, unsigned and signed. -/
def el (x : Word) (e : Nat) : Nat := x.toNat / 2 ^ (16 * e) % 2 ^ 16
def elS (x : Word) (e : Nat) : Int := (BitVec.ofNat 16 (el x e)).toInt

/-- The integer that channels stand for (R110). -/
def standsFor (m1 m2 m3 h c1 c2 c3 : Int) : Int :=
  let a1 := (c1 - c2) % m1
  let a3 := (c2 - c3) % m3
  let b := (a1 - a3) * h % m3
  let x := c2 + m2 * (a1 + m1 * b)
  if m1 * m2 * m3 / 2 ≤ x then x - m1 * m2 * m3 else x

/-- Words whose result in lane i is a function of the lane, with that result. -/
def laneWords (s : State) (d a b : VCode) (sa : SCode) (m : BitVec 16) : List (Instr × (Nat → Word)) :=
  let x := inA s a
  let y := inA s b
  let same := fun (i j : Nat) => s.sh.em.getLsbD j && x j = x i
  [(.vli d m, fun _ => BitVec.ofInt 32 m.toInt),
   (.vlih d m, fun i => BitVec.ofNat 32 (m.toNat * 2 ^ 16 + (inD s d i).toNat % 2 ^ 16)),
   (.stov d sa, fun _ => BitVec.ofNat 32 (s.sh.rd.getS sa).toNat),
   (.pk2 d a b, fun i => BitVec.ofNat 32 ((y i).toNat % 2 ^ 16 * 2 ^ 16 + (x i).toNat % 2 ^ 16)),
   (.hi16 d a, fun i => BitVec.ofNat 32 ((x i).toNat / 2 ^ 16)),
   (.fcps d a b, fun i => (x i &&& 0x7FFFFFFF) ||| (y i &&& 0x80000000)),
   (.fabs d a, fun i => x i &&& 0x7FFFFFFF),
   (.fneg d a, fun i => x i ^^^ 0x80000000),
   (.fcls d a, fun i => BitVec.ofNat 32 (2 ^ classBit (x i))),
   (.matchv d a, fun i => BitVec.ofNat 32 (((List.range 64).find? (same i)).getD 0)),
   (.mrank d a, fun i => BitVec.ofNat 32 ((List.range i).filter (same i)).length),
   (.radd d a b, fun i => raOf fun j => raCh (x i) j + raCh (y i) j),
   (.rsub d a b, fun i => raOf fun j => raCh (x i) j - raCh (y i) j),
   (.rscl d a b, fun i => raOf fun j => raCh (x i) j * ((y i).toInt % raMod j)),
   (.rfrom d a, fun i => raOf fun _ => (x i).toInt),
   (.rfix d a, fun i => BitVec.ofInt 32 (standsFor 1023 1024 1025 513 (raCh (x i) 0) (raCh (x i) 1) (raCh (x i) 2))),
   (.readd d a b, fun i => two fun e => reOf fun j => reCh (el (x i) e) j + reCh (el (y i) e) j),
   (.refrom d a, fun i => two fun e => reOf fun _ => elS (x i) e),
   (.refix d a, fun i => two fun e =>
      standsFor 31 32 33 17 (reCh (el (x i) e) 0) (reCh (el (x i) e) 1) (reCh (el (x i) e) 2))]

/-! ### Shuffles and folds (R318-R322) -/

/-- The source lane j of lane i (R320). -/
def shuffles (s : State) (d a b : VCode) : List (Instr × Instr × (Nat → Int)) :=
  let y := inA s b
  let lowest := ((List.range 64).find? fun l => s.sh.em.getLsbD l).getD 0
  [(.shfl d a b, .shflf d a b, fun i => ((y i).toNat : Int)),
   (.shflx d a b, .shflxf d a b, fun i => ((i ^^^ (y i).toNat : Nat) : Int)),
   (.shflr d a b, .shflrf d a b, fun i => (i : Int) - (y i).toInt),
   (.bcst d a b, .bcstf d a b, fun _ => ((y lowest).toNat : Int))]

/-- Lane j is a valid source (R318). -/
def validLane (s : State) (j : Int) : Prop := 0 ≤ j ∧ j < 64 ∧ s.sh.em.getLsbD j.toNat = true

/-- Combination and identity of the integer and logical folds (R321). -/
def foldRule : List (BitVec 4 × (Word → Word → Word) × Word) := [
  (0, fun x y => BitVec.ofInt 32 (x.toInt + y.toInt), 0),
  (1, fun x y => BitVec.ofInt 32 (min x.toInt y.toInt), 0x7FFFFFFF),
  (2, fun x y => BitVec.ofInt 32 (max x.toInt y.toInt), 0x80000000),
  (3, fun x y => BitVec.ofNat 32 (min x.toNat y.toNat), 0xFFFFFFFF),
  (4, fun x y => BitVec.ofNat 32 (max x.toNat y.toNat), 0),
  (5, fun x y => x &&& y, 0xFFFFFFFF),
  (6, fun x y => x ||| y, 0),
  (7, fun x y => x ^^^ y, 0)]

/-- The left fold over the lanes of em that `keep` names, from the first (R322). -/
def foldOver (s : State) (a : VCode) (f : Word → Word → Word) (e : Word) (keep : Nat → Bool) : Word :=
  match ((List.range 64).filter fun l => s.sh.em.getLsbD l && keep l).map (inA s a) with
  | [] => e
  | x :: r => r.foldl f x

/-! ### Floating point (R91-R104, R241-R243, R258-R272, R304, R314) -/

/-- The value of a finite encoding, and the ordered value of an infinity (R91). -/
noncomputable def val (f : Fmt) (x : Nat) : ℚ := ((f.value x).m : ℚ) * (2 : ℚ) ^ (f.value x).e

/-- No exception is enabled (R99). -/
def quietMode (s : State) : Prop := s.sh.rd.mode.extractLsb' 8 5 = 0

/-- `%fpflags` gains every exception that an active lane raised (R98, R242). -/
def flagsGain (s t : State) (e : Nat → Exc) : Prop :=
  ∀ k, k < 64 → t.sh.fpflags.getLsbD k =
    (s.sh.fpflags.getLsbD k || (decide (k < 5) && (List.range 64).any fun i => s.sh.em.getLsbD i && (e i).getLsbD k))

/-- A 32-bit floating result in every lane. -/
def fpDone (s t : State) (d : VCode) (r : Nat → FRes) : Prop :=
  onlyRegsFlags s t ∧ vecRegs s d (fun i => BitVec.ofNat 32 (r i).val) t.sh.regs ∧ flagsGain s t fun i => (r i).exc

/-- A 64-bit floating result in every lane. -/
def fpDone64 (s t : State) (d : VCode) (r : Nat → FRes) : Prop :=
  onlyRegsFlags s t ∧ pairRegs s d (fun i => BitVec.ofNat 64 (r i).val) t.sh.regs ∧ flagsGain s t fun i => (r i).exc

/-- The f32 words (R258, R264, R268, R314) on a, b and d. -/
def fpWords (d a b : VCode) : List (Instr × (FMode → Nat → Nat → Nat → FRes)) := [
  (.fadd d a b, fun m x y _ => f32.addSub m false x y),
  (.fsub d a b, fun m x y _ => f32.addSub m true x y),
  (.fmul d a b, fun m x y _ => f32.mul m x y),
  (.fma d a b, fun m x y o => f32.fma m false x y o),
  (.fms d a b, fun m x y o => f32.fma m true x y o),
  (.fmin d a b, fun m x y _ => f32.minMax m false x y),
  (.fmax d a b, fun m x y _ => f32.minMax m true x y),
  (.frnd d a, fun m x _ _ => f32.integral m x),
  (.rcp d a, fun m x _ _ => rcpFn m x),
  (.sqrt d a, fun m x _ _ => sqrtFn m x),
  (.rsq d a, fun m x _ _ => approxFn .rsq m x),
  (.exp2 d a, fun m x _ _ => approxFn .exp2 m x),
  (.log2 d a, fun m x _ _ => approxFn .log2 m x),
  (.sin d a, fun m x _ _ => approxFn .sin m x),
  (.cos d a, fun m x _ _ => approxFn .cos m x),
  (.tanh d a, fun m x _ _ => approxFn .tanh m x)]

/-- The f64 words (R260, R264, R268). -/
def fpWords64 (d a b : VCode) : List (Instr × (FMode → Nat → Nat → Nat → FRes)) := [
  (.dadd d a b, fun m x y _ => f64.addSub m false x y),
  (.dsub d a b, fun m x y _ => f64.addSub m true x y),
  (.dmul d a b, fun m x y _ => f64.mul m x y),
  (.dfma d a b, fun m x y o => f64.fma m false x y o),
  (.dmin d a b, fun m x y _ => f64.minMax m false x y),
  (.dmax d a b, fun m x y _ => f64.minMax m true x y),
  (.drnd d a, fun m x _ _ => f64.integral m x)]

/-- The packed words (R262, R264): what each gives for one element. -/
def packedWords (d a b : VCode) : List (Instr × (FMode → Nat → Nat → Nat → FRes)) := [
  (.hadd2 d a b, fun m x y _ => f16.addSub m false x y),
  (.hmul2 d a b, fun m x y _ => f16.mul m x y),
  (.hfma2 d a b, fun m x y o => f16.fma m false x y o),
  (.hmax2 d a b, fun m x y _ => f16.minMax m true x y),
  (.badd2 d a b, fun m x y _ => bf16.addSub m false x y),
  (.bmul2 d a b, fun m x y _ => bf16.mul m x y),
  (.bfma2 d a b, fun m x y o => bf16.fma m false x y o),
  (.bmax2 d a b, fun m x y _ => bf16.minMax m true x y)]

/-- The two elements of a packed result as one lane's result (R242, R262). -/
def packed2 (g : Nat → FRes) : FRes := ⟨(g 1).val * 2 ^ 16 + (g 0).val, (g 0).exc ||| (g 1).exc⟩

/-- The lesser of two values, −0 below +0 (R264). -/
def below (f : Fmt) (x y : Nat) : Prop := val f x < val f y ∨ (val f x = val f y ∧ f.neg x = true ∧ f.neg y = false)

/-- What a minimum or maximum of x and y as read is (R264). -/
def minMaxRule (f : Fmt) (isMax : Bool) (x y : Nat) (r : FRes) : Prop :=
  r.exc = Exc.invIf (f.isSNaN x || f.isSNaN y) ∧
  (f.isNaN x = true → f.isNaN y = true → r.val = f.quieted x) ∧ (f.isNaN x = true → f.isNaN y = false → r.val = y) ∧
  (f.isNaN x = false → f.isNaN y = true → r.val = x) ∧
  (f.isNaN x = false → f.isNaN y = false →
    let yields := if isMax then below f x y else below f y x
    (yields → r.val = y) ∧ (¬ yields → r.val = x))

/-- The integer nearest q in a rounding mode (R94). -/
def nearInt (rm : BitVec 2) (q : ℚ) (n : Int) : Prop :=
  (rm = 0 ∧ |q - n| ≤ 1 / 2 ∧ (|q - n| = 1 / 2 → n % 2 = 0)) ∨ (rm = 1 ∧ n = if 0 ≤ q then ⌊q⌋ else ⌈q⌉) ∨
  (rm = 2 ∧ n = ⌈q⌉) ∨ (rm = 3 ∧ n = ⌊q⌋)

/-- What rounding x as read to an integral value gives (R268). -/
def integralRule (f : Fmt) (rm : BitVec 2) (x : Nat) (r : FRes) : Prop :=
  (f.isNaN x = true → r = ⟨f.quieted x, Exc.invIf (f.isSNaN x)⟩) ∧ (f.isInf x = true ∨ f.isZero x = true → r = ⟨x, 0⟩) ∧
  (f.isNaN x = false → f.isInf x = false → f.isZero x = false → r.exc = 0 ∧ f.neg r.val = f.neg x ∧
    ∃ n : Int, nearInt rm (val f x) n ∧ val f r.val = n)

/-- The special inputs of a special function (R316): an input as read, by a test, with its result and what it raises. -/
def specialInputs (x : Nat) : List (Option ApproxFn × Bool × Nat × Exc) :=
  let zero := f32.isZero x
  let inf := f32.isInf x
  let neg := f32.neg x
  [(some .rsq, zero, f32.signed neg f32.inf, Exc.dz), (some .rsq, inf && !neg, 0, 0), (some .rsq, neg && !zero, 0x7FC00005, Exc.inv),
   (some .exp2, inf && neg, 0, 0), (some .exp2, inf && !neg, f32.inf, 0),
   (some .exp2, !inf && !neg && decide (0x43000000 ≤ x), f32.inf, Exc.ovf ||| Exc.inx),
   (some .log2, zero, f32.signed true f32.inf, Exc.dz), (some .log2, inf && !neg, f32.inf, 0),
   (some .log2, neg && !zero, 0x7FC00005, Exc.inv),
   (some .sin, zero, x, 0), (some .sin, inf, 0x7FC00005, Exc.inv), (some .cos, zero, 0x3F800000, 0),
   (some .cos, inf, 0x7FC00005, Exc.inv), (some .tanh, zero, x, 0), (some .tanh, inf, f32.signed neg 0x3F800000, 0)]

/-- The source of a conversion in lane i (R303, R304). -/
def cvtIn (s : State) (a : VCode) (src : BitVec 3) (i : Nat) : DWord :=
  if src = 2 ∨ src = 6 then s.sh.rd.src64 a i else (inA s a i).setWidth 64

/-- Formats of the selectors that name a float, and bounds of those that name an integer (R303, R304). -/
def cvtF (c : BitVec 3) : Fmt := if c = 3 then f32 else if c = 4 then f16 else if c = 5 then bf16 else f64
def cvtLo (c : BitVec 3) : Int := if c = 0 then -2 ^ 31 else if c = 1 then 0 else -2 ^ 63
def cvtHi (c : BitVec 3) : Int := if c = 0 then 2 ^ 31 - 1 else if c = 1 then 2 ^ 32 - 1 else 2 ^ 63 - 1
/-- An integer in a destination's register shape. -/
def cvtBits (c : BitVec 3) (n : Int) : Nat := if c = 2 then (BitVec.ofInt 64 n).toNat else (BitVec.ofInt 32 n).toNat
/-- The encoding a float source holds, and the number an integer source holds, in the bits a conversion reads (R303). -/
def cvtEnc (c : BitVec 3) (x : DWord) : Nat := if c = 6 then x.toNat else if c = 3 then x.toNat % 2 ^ 32 else x.toNat % 2 ^ 16
def cvtNum (c : BitVec 3) (x : DWord) : Int :=
  if c = 0 then (x.setWidth 32 : Word).toInt else if c = 1 then ((x.toNat % 2 ^ 32 : Nat) : Int) else x.toInt

/-- The exact value q is rounded once to a format; a zero takes the sign given (R94-R96). -/
def roundedOnce (f : Fmt) (md : FMode) (q : ℚ) (neg : Bool) (r : FRes) : Prop :=
  (q = 0 → r = ⟨f.signed neg 0, 0⟩) ∧
  (q ≠ 0 → ∃ (m : Nat) (e : Int), m ≠ 0 ∧ r = f.round md (q < 0) m e ∧ |q| = (m : ℚ) * (2 : ℚ) ^ e)

/-- What a conversion gives (R304, R104): from a float to an integer, to a float from an integer and from a float. -/
def cvtRule (src dst : BitVec 3) (md : FMode) (x : DWord) (r : FRes) : Prop :=
  let f := cvtF src
  let a := f.inp md (cvtEnc src x)
  (3 ≤ src.toNat → dst.toNat < 3 →
    (f.isNaN a = true → r = ⟨0, Exc.inv⟩) ∧
    (f.isInf a = true → r = ⟨cvtBits dst (if f.neg a then cvtLo dst else cvtHi dst), Exc.inv⟩) ∧
    (f.isNaN a = false → f.isInf a = false → ∃ n : Int, nearInt md.rm (val f a) n ∧
      r = if n < cvtLo dst then ⟨cvtBits dst (cvtLo dst), Exc.inv⟩ else if cvtHi dst < n then ⟨cvtBits dst (cvtHi dst), Exc.inv⟩
        else ⟨cvtBits dst n, if (n : ℚ) = val f a then 0 else Exc.inx⟩)) ∧
  (src.toNat < 3 → roundedOnce (cvtF dst) md (cvtNum src x) false r) ∧
  (3 ≤ src.toNat → 3 ≤ dst.toNat → let g := cvtF dst
    (f.isNaN a = true → r = ⟨g.signed (f.neg a) (g.inf + g.quiet + a % f.quiet % g.quiet), Exc.invIf (f.isSNaN a)⟩) ∧
    (f.isInf a = true → r = ⟨g.signed (f.neg a) g.inf, 0⟩) ∧
    (f.isNaN a = false → f.isInf a = false → roundedOnce g md (val f a) (f.neg a) r))

/-- One combination of a floating fold (R321), of values as read. -/
def foldComb (op : BitVec 4) (md : FMode) (x y : Nat) : FRes :=
  let m := { md with daz := false }
  if op = 8 then f32.addSub m false x y else f32.minMax m (op = 10) x y

/-- COND on integers (R49). -/
def condRule (c : BitVec 3) (x y : Int) : Prop :=
  (c = 0 ∧ x = y) ∨ (c = 1 ∧ x ≠ y) ∨ (c = 2 ∧ x < y) ∨ (c = 3 ∧ x ≤ y) ∨ (c = 4 ∧ y < x) ∨ (c = 5 ∧ y ≤ x)

/-- COND on values (R49, R272). -/
def condVal (c : BitVec 3) (x y : ℚ) : Prop :=
  (c = 0 ∧ x = y) ∨ (c = 1 ∧ x ≠ y) ∨ (c = 2 ∧ x < y) ∨ (c = 3 ∧ x ≤ y) ∨ (c = 4 ∧ y < x) ∨ (c = 5 ∧ y ≤ x) ∨ c = 6

/-- A floating compare of two encodings, and what it raises (R272). -/
def fcmpHolds (f : Fmt) (md : FMode) (c : BitVec 3) (a b : Nat) : Prop :=
  let x := f.inp md a
  let y := f.inp md b
  if f.isNaN x || f.isNaN y then c = 1 ∨ c = 7 else condVal c (val f x) (val f y)
def fcmpExc (f : Fmt) (c : BitVec 3) (a b : Nat) : Exc :=
  Exc.invIf (f.isSNaN a || f.isSNaN b || (2 ≤ c.toNat && c.toNat ≤ 5 && (f.isNaN a || f.isNaN b)))

/-- KD after a compare with lane results r (R272): the AND form keeps only bits that were set. -/
def cmpK (s : State) (conj : Bool) (kd : KCode) (r : Nat → Prop) (x : DWord) : Prop :=
  ∀ i, i < 64 → (x.getLsbD i = true ↔
    s.sh.em.getLsbD i = true ∧ r i ∧ (conj = true → (s.sh.rd.getK kd).getLsbD i = true))

/-- The words that can trap for an enabled exception (R101): each with the code of its destination, what its lanes raise, and
what it writes before the trap. -/
def trapWords (s : State) (d a b : VCode) (src dst : BitVec 3) (rm : BitVec 2) (conj : Bool) (c : BitVec 3) (kd : KCode) :
    List (Instr × Nat × (Nat → Exc) × (Regs → Prop)) :=
  let m := s.sh.fmode
  let one := fun (i : Instr) (r : Nat → FRes) =>
    (i, d.toNat, (fun l => (r l).exc), wrote s.sh.em d.toNat (fun l => BitVec.ofNat 32 (r l).val) s.sh.regs)
  let pair := fun (i : Instr) (r : Nat → FRes) =>
    (i, d.toNat, (fun l => (r l).exc), wrotePair s d (fun l => BitVec.ofNat 64 (r l).val))
  let pred := fun (i : Instr) (f : Fmt) (x : VCode → Nat → Nat) =>
    (i, 192 + kd.toNat, (fun l => fcmpExc f c (x a l) (x b l)), fun (r' : Regs) =>
      ∃ k, (∀ j, r'.getK j = if j = kd then k else s.sh.regs.getK j) ∧
        cmpK s conj kd (fun l => fcmpHolds f m c (x a l) (x b l)) k)
  (fpWords d a b).map (fun p => one p.1 fun l => p.2 m (inA s a l).toNat (inA s b l).toNat (inD s d l).toNat) ++
  (fpWords64 d a b).map (fun p =>
    pair p.1 fun l => p.2 m (s.sh.rd.src64 a l).toNat (s.sh.rd.src64 b l).toNat (s.sh.rd.src64 d l).toNat) ++
  (packedWords d a b).map (fun p =>
    one p.1 fun l => packed2 fun e => p.2 m (el (inA s a l) e) (el (inA s b l) e) (el (inD s d l) e)) ++
  [(Instr.cvt d a src dst, m), (.cvtx d a src dst rm, { m with rm := rm })].map (fun p =>
    (if dst = 2 ∨ dst = 6 then pair else one) p.1 fun l => cvtLane src dst p.2 (cvtIn s a src l)) ++
  [pred (.fcmp conj c kd a b) f32 fun v l => (inA s v l).toNat, pred (.dcmp conj c kd a b) f64 fun v l => (s.sh.rd.src64 v l).toNat]

/-! ### Predicate, mask and scalar results -/

/-- A predicate register takes a value; every other register is as before. -/
def predRegs (r : Regs) (kd : KCode) (x : DWord) (r' : Regs) : Prop :=
  (∀ c, r'.getK c = if c = kd then x else r.getK c) ∧ r'.s = r.s ∧ r'.em = r.em ∧ r'.mode = r.mode ∧ sameVectors r r'

/-- A scalar register takes a value, but s0 stays 0; every other register is as before (R206). -/
def scalRegs (r : Regs) (d : SCode) (x : DWord) (r' : Regs) : Prop :=
  (∀ c, r'.getS c = if c = d ∧ c ≠ 0 then x else r.getS c) ∧ r'.k = r.k ∧ r'.em = r.em ∧ r'.mode = r.mode ∧ sameVectors r r'

/-- The mask takes a value. -/
def maskRegs (r : Regs) (x : DWord) (r' : Regs) : Prop := r' = { r with em := x }

/-- Mask words that write a predicate register, with its value (R210, R212, R214, R216). -/
def predWords (s : State) (kd ka kb : KCode) (a : VCode) (sa : SCode) : List (Instr × (Nat → Bool)) :=
  let x := fun i => (s.sh.rd.getK ka).getLsbD i
  let y := fun i => (s.sh.rd.getK kb).getLsbD i
  [(.kand kd ka kb, fun i => x i && y i), (.kor kd ka kb, fun i => x i || y i), (.kxor kd ka kb, fun i => x i != y i),
   (.kandn kd ka kb, fun i => x i && !y i), (.knot kd ka, fun i => !x i), (.kmov kd ka, x), (.kset kd, fun _ => true),
   (.kclr kd, fun _ => false), (.emget kd, fun i => s.sh.rd.em.getLsbD i),
   (.vote kd a, fun i => s.sh.em.getLsbD i && inA s a i != 0),
   (.stok sa kd, fun i => (s.sh.rd.getS sa).getLsbD i)]

/-- Words that write the mask (R212, R216). -/
def emWords (s : State) (ka : KCode) (sa : SCode) : List (Instr × DWord) := [
  (.emset ka, s.sh.rd.getK ka), (.emand ka, s.sh.rd.em &&& s.sh.rd.getK ka), (.stoem sa, s.sh.rd.getS sa)]

/-- Words that write a scalar register from a and b, its old value o and other state (R216, R220, R224-R229). -/
def scalarWords (s : State) (d a b : SCode) (k : KCode) (va : VCode) (lane : BitVec 10) (m17 : BitVec 17) (m11 : BitVec 11)
    (m9 : BitVec 9) : List (Instr × DWord) :=
  let x := s.sh.rd.getS a
  let y := s.sh.rd.getS b
  let o := s.sh.rd.getS d
  let n := y.toNat % 64
  let one := fun (p : Bool) => if p then 1 else (0 : DWord)
  [(.sadd d a b, BitVec.ofInt 64 (x.toInt + y.toInt)), (.ssub d a b, BitVec.ofInt 64 (x.toInt - y.toInt)),
   (.smul d a b, BitVec.ofInt 64 (x.toInt * y.toInt)), (.smulhi d a b, BitVec.ofInt 64 (x.toInt * y.toInt / 2 ^ 64)),
   (.sand d a b, x &&& y), (.sor d a b, x ||| y), (.sxor d a b, x ^^^ y),
   (.sshl d a b, BitVec.ofNat 64 (x.toNat * 2 ^ n)), (.sshr d a b, BitVec.ofNat 64 (x.toNat / 2 ^ n)),
   (.ssar d a b, BitVec.ofInt 64 (x.toInt / 2 ^ n)),
   (.smin d a b, BitVec.ofInt 64 (min x.toInt y.toInt)), (.smax d a b, BitVec.ofInt 64 (max x.toInt y.toInt)),
   (.sminn d a b, BitVec.ofNat 64 (min x.toNat y.toNat)), (.smaxn d a b, BitVec.ofNat 64 (max x.toNat y.toNat)),
   (.seq d a b, one (x = y)), (.sne d a b, one (x ≠ y)), (.slt d a b, one (x.toInt < y.toInt)),
   (.sltn d a b, one (x.toNat < y.toNat)), (.sle d a b, one (x.toInt ≤ y.toInt)), (.slen d a b, one (x.toNat ≤ y.toNat)),
   (.smov d a, x), (.ssel d a b, if o ≠ 0 then x else y),
   (.sli d m17, BitVec.ofInt 64 m17.toInt), (.slis d m17, BitVec.ofNat 64 (o.toNat * 2 ^ 17 + m17.toNat)),
   (.saddi d a m11, BitVec.ofInt 64 (x.toInt + m11.toInt)),
   (.sshli d a m9, BitVec.ofNat 64 (x.toNat * 2 ^ m9.toNat)), (.sshri d a m9, BitVec.ofNat 64 (x.toNat / 2 ^ m9.toNat)),
   (.ssari d a m9, BitVec.ofInt 64 (x.toInt / 2 ^ m9.toNat)), (.sandi d a m9, x &&& BitVec.ofInt 64 m9.toInt),
   (.ktos d k, s.sh.rd.getK k), (.emtos d, s.sh.rd.em),
   (.kpop d k, BitVec.ofNat 64 ((List.range 64).filter fun j => (s.sh.rd.getK k).getLsbD j).length),
   (.vtos d va lane, BitVec.ofNat 64 (inA s va lane.toNat).toNat)]

/-! ### Special registers (R207, R231) -/

/-- What SRD reads, by number: every register of R207 in its place. -/
def specials (s : State) : List DWord :=
  let h := s.sh
  let gi := fun (n : Fin 7) => (((s.myGroup.map fun (g : Machine.Group) => g.gi[n]).getD 0).setWidth 64 : DWord)
  [64, s.gtc, h.sheafNo.setWidth 64, h.lsheaf.setWidth 64, BitVec.ofNat 64 (s.core % 8), BitVec.ofNat 64 (s.core / 8 % 8),
   BitVec.ofNat 64 (s.core / 64 % 8), s.modId.setWidth 64, BitVec.ofNat 64 (s.partOf h % 64),
   gi 0, gi 1, gi 2, gi 3, gi 4, gi 5, gi 6, BitVec.ofNat 64 (s.myStep % 2 ^ 48), h.regs.mode, h.fpflags, h.trpc.setWidth 64,
   h.trnext.setWidth 64, h.trmask, h.trcause.setWidth 64, h.traux, h.trbase, h.trem, h.tsc[0], h.tsc[1], h.tsc[2], h.tsc[3],
   BitVec.ofNat 64 (h.rpLast.toNat * 2 ^ 8 + h.rpNext % 2 ^ 6), h.scope.setWidth 64, h.ver.setWidth 64, BitVec.ofNat 64 h.budget,
   h.prio.setWidth 64, h.quant.setWidth 64, h.late.setWidth 64,
   BitVec.ofNat 64 (h.nextBatch.toNat * 2 ^ 56 + h.openCpys.length % 8 * 2 ^ 48 + h.batches.length % 16 * 2 ^ 44)]

/-- What SWR of x leaves in the sheaf: the writable bits of the register change and nothing else. In a handler the enables of %mode
are the hidden ones (R443), and a write of %trnext clears %rpidx and ends the resumption of a REP (R236). -/
def swrRule (h : Sheaf) (x : DWord) : List (BitVec 6 × Sheaf) := [
  (17, if h.hnd then { h with regs := { h.regs with mode := x &&& 0x3F }, hidMode := x.extractLsb' 8 5 }
    else { h with regs := { h.regs with mode := x &&& 0x1F3F } }), (18, { h with fpflags := x &&& 0x1F }),
  (20, if h.hnd then { h with trnext := x.setWidth 32, rpLast := 0, rpNext := 0, rpResume := false }
    else { h with trnext := x.setWidth 32 }),
  (24, { h with trbase := x &&& 0x80000000FFFFFFFF }), (25, { h with trem := x }), (26, { h with tsc := h.tsc.set 0 x }),
  (27, { h with tsc := h.tsc.set 1 x }), (28, { h with tsc := h.tsc.set 2 x }), (29, { h with tsc := h.tsc.set 3 x }),
  (34, { h with prio := x.setWidth 2 }), (35, { h with quant := x.setWidth 32 }), (36, { h with late := x.setWidth 32 })] ++
  ([0, 1, 2, 3, 4, 5, 6, 7, 8, 9, 10, 11, 12, 13, 14, 15, 16, 19, 21, 22, 23, 30, 31, 32, 33, 37] : List (BitVec 6)).map fun p => (p, h)

/-! ### Waits (R53) -/

/-- The sheaf stays at a word, with what the word records of its wait (R53). -/
def waitsAt (s : State) (i : Instr) (token : Option Nat) : State :=
  { s with sh := { s.sh with wait := some { instr := i, token := token } } }

/-- The wait is over, and nothing else has changed. -/
def waitOver (s : State) : State := { s with sh := { s.sh with wait := none } }

/-! ### Control transfers (R356-R362) -/

/-- The target of a relative transfer, and whether a target is in the code. -/
def targetOf (s : State) (ofs : Int) : Int := (s.sh.latch.addr.toNat : Int) + ofs
def inCode (s : State) (t : Int) : Prop := 0 ≤ t ∧ t < (s.codeWords s.sh : Int)

/-- The sheaf goes on at word t. -/
def jumped (s : State) (t : Int) : State := { s with sh := { s.sh with next := BitVec.ofInt 32 t } }

/-- Conditional transfers with their offsets and conditions (R358, R359). -/
def branches (s : State) (a : SCode) (k : KCode) (o17 : BitVec 17) (o18 : BitVec 18) : List (Instr × Int × Prop) :=
  let x := s.sh.rd.getK k &&& s.sh.em
  [(.bnz a o17, o17.toInt, s.sh.rd.getS a ≠ 0), (.bz a o17, o17.toInt, s.sh.rd.getS a = 0), (.bany k o18, o18.toInt, x ≠ 0),
   (.ball k o18, o18.toInt, x = s.sh.em), (.bnone k o18, o18.toInt, x = 0), (.bemz o18, o18.toInt, s.sh.em = 0)]

/-! ### Traps (R439-R445, R457-R459) -/

/-- A trap that the sheaf can deliver at once to a handler: nothing pending or in flight, none in a handler, %trbase valid. -/
def canTrap (s : State) : Prop :=
  s.sh.hnd = false ∧ s.sh.pend = [] ∧ s.sh.loads = [] ∧ s.sh.loops = [] ∧ s.sh.replays = [] ∧ s.sh.rep = none ∧ s.sh.trbase.getLsbD 63 = true ∧
    s.legalTarget s.sh (s.sh.trbase.extractLsb' 0 32).toNat = true

/-- The handler has been entered (R442): saved registers, hidden state, mask and mode. Vector, scalar and predicate registers
and all of memory are as before. -/
def entered (s t : State) (cause : BitVec 8) (trpc trnext : BitVec 32) (mask aux : DWord) : Prop :=
  t.sh.trpc = trpc ∧ t.sh.trnext = trnext ∧ t.sh.trmask = mask ∧ t.sh.trcause = cause ∧ t.sh.traux = aux ∧
  t.sh.trem = s.sh.regs.em ∧ t.sh.hidW = s.sh.regs.w ∧ t.sh.hidMode = s.sh.regs.mode.extractLsb' 8 5 ∧ t.sh.hidF = s.sh.contF ∧
  t.sh.regs.em = BitVec.allOnes 64 ∧ t.sh.regs.mode = s.sh.regs.mode &&& ~~~0x1F00#64 ∧ t.sh.windows = [] ∧ t.sh.hnd = true ∧
  t.sh.next = s.sh.trbase.extractLsb' 0 32 ∧ t.sh.regs.v = s.sh.regs.v ∧ t.sh.regs.o = s.sh.regs.o ∧ t.sh.regs.s = s.sh.regs.s ∧
  t.sh.regs.k = s.sh.regs.k ∧ t.sh.fpflags = s.sh.fpflags ∧ t.mem = s.mem ∧ t.lines = s.lines ∧ t.groups = s.groups

/-- %traux of a word by R440. -/
def auxOf (s : State) (dest : Nat) : DWord :=
  BitVec.ofNat 64 (s.sh.latch.word.toNat * 2 ^ 32 + s.sh.latch.slot.toNat * 2 ^ 16 + dest)

/-- Every cause has the code of R439. -/
def causeCodes : List (Cause × Nat) := [
  (.illop, 0x01), (.illgrp, 0x02), (.regbud, 0x03), (.budget, 0x04), (.laviol, 0x05), (.qdepth, 0x06), (.priv, 0x07),
  (.trapi, 0x08), (.bkpt, 0x09), (.fpinv, 0x10), (.fpdiv0, 0x11), (.fpovf, 0x12), (.fpunf, 0x13), (.fpinx, 0x14),
  (.align, 0x18), (.range, 0x19), (.atomdup, 0x1A), (.fmtmix, 0x1B), (.scalemix, 0x1C), (.fmtnone, 0x1D), (.xlate, 0x20),
  (.prot, 0x21), (.late, 0x28), (.ringstate, 0x29), (.barstate, 0x2A), (.stepdead, 0x30), (.ue, 0x38), (.wdbar, 0x39),
  (.wddead, 0x3A), (.xfermap, 0x48)]

/-! ### Memory accesses (R115-R146) -/

/-- The loads of the six spaces with a width, and their space. -/
def loadWords (la : BitVec 4) (w : BitVec 3) (d a : VCode) (m : Bool) (e : Option MemExt) : List (Instr × Space) := [
  (.ldk la w d a e, .priv), (.lds la w d a e, .spad), (.ldc la w d a e, .clus), (.ldg la w d a e, .dev), (.ldn la w d a m e, .peer),
  (.ldh la w d a m e, .host)]

/-- The stores of the six spaces with a width, and their space. -/
def storeWords (la : BitVec 4) (w : BitVec 3) (d a : VCode) (m : Bool) (e : Option MemExt) : List (Instr × Space) := [
  (.stk la w d a e, .priv), (.sts la w d a e, .spad), (.stc la w d a e, .clus), (.stg la w d a e, .dev), (.stn la w d a m e, .peer),
  (.sth la w d a m e, .host)]

/-- The atomics, and their space. -/
def atomWords (la : BitVec 4) (d a : VCode) (m : Bool) (e : AtomExt) : List (Instr × Space) := [
  (.ats la d a e, .spad), (.atc la d a e, .clus), (.atg la d a e, .dev), (.atn la d a m e, .peer), (.ath la d a m e, .host)]

/-- No performance counter of the function counts this event (R491). -/
def uncounted (s : State) (e : Nat) : Prop :=
  ∀ v, s.fns[s.fnOf s.tag]? = some v → ∀ (n : Nat) (x : DWord), v.psel[n]? = some x → x.toNat % 256 ≠ e

/-- No piece lies in a page that counts accesses or migrates (R80, R83), a piece that a peer address brings back included. -/
def still (s : State) (sites : List Site) : Prop :=
  ∀ q ∈ sites, (∀ m, q.map = some m → m.ce = false ∧ m.wb = false) ∧
    ∀ k m, q.back = some k → s.pageOf k = some m → m.ce = false ∧ m.wb = false

/-- No performance counter counts what every access may cause: cycles of the banks, translations, walks, misses of the buffers. -/
def uncountedAccess (s : State) : Prop := uncounted s 5 ∧ uncounted s 7 ∧ uncounted s 8 ∧ uncounted s 9

/-- The pieces of an access meet nothing but memory: no page that counts or parks, no line in error, no lane turned away,
nothing parked or buffered, no trace of the launch's writes, no repeatable quantum, no counter of banks, translations or buffers. -/
def plain (s : State) (sites : List Site) : Prop :=
  s.repeatable = false ∧ s.sh.buf = [] ∧ s.badLines = [] ∧ s.weak = [] ∧ s.parking = [] ∧ s.lrec.flags.getLsbD 3 = false ∧
  uncountedAccess s ∧ still s sites

/-- The state but for the record of writes that host or peer memory may still turn away (R120), and for the translation caches, which
look up the pages of an access (R72). -/
def butFar (s t : State) : State := { t with tlb := s.tlb, sh := { t.sh with far := s.sh.far } }

/-- The translation caches have looked up the pages of some pieces (R72), and nothing else has changed. -/
def lookedUp (s : State) (sites : List Site) : State := { s with tlb := (s.lookUpAll sites).tlb }

/-- The key at which this module or another takes an access to a fabric address (R66): a window of this module that is exported to
it, and any place of a module that some route reaches. -/
def peerTakes (s : State) (write : Bool) (a k : Nat) : Prop :=
  let off := a % 2 ^ 43
  (a / 2 ^ 43 = s.modId.toNat ∧ ∃ w ∈ s.partitions.flatMap Partition.windows, w.base ≤ off ∧ off < w.base + w.size ∧
    s.modId.toNat ∈ w.modules ∧ (w.writable = true ∨ write = false) ∧ k = w.key + (off - w.base)) ∨
  (a / 2 ^ 43 ≠ s.modId.toNat ∧ (∃ r ∈ s.routes, r.1 = a / 2 ^ 43 ∧ r.2 ≠ []) ∧ k = peerKey a)

/-- Where a piece of lane p.1's access to the address p.2 lies (R62-R67): the interleaved word of the lane's private frame, the place
in the allocation of its own group or of the one on the core named, the translated page, the peer's window, the host page. -/
def liesAt (s : State) (sp : Space) (acc : Access) (p : Nat × Nat) (y : Site) : Prop :=
  let page := fun (va : Nat) => y.va = va ∧ ∃ m, s.xlat s.tag va acc = .ok m ∧ y.map = some m ∧ s.reach s.tag acc.writes m.key = some y.key
  match sp with
  | .priv =>
    let x := p.2 + y.off
    x / 4 = (x + y.len - 1) / 4 ∧ (s.sh.rd.getS 62).toNat % 256 = 0 ∧
      page (((s.sh.rd.getS 62).toNat + x / 4 * 4 * 64 + 4 * p.1 + x % 4) % 2 ^ 48)
  | .spad => y.off = 0 ∧ ∃ g, s.myGroup = some g ∧ p.2 < g.spadLen ∧ y.key = spadKey g.core (g.spadBase + p.2)
  | .clus => y.off = 0 ∧ p.2 < 2 ^ 23 ∧ ∃ g ∈ s.groups, ∃ k ∈ s.groups, s.myGroup = some g ∧ s.lrec.clusterDomain = true ∧ k.task = g.task ∧
      k.gi.toList.drop 1 = g.gi.toList.drop 1 ∧ g.fromBin = false ∧ k.fromBin = false ∧ k.freed = false ∧ k.saved = false ∧
      k.core = g.core / 8 * 8 + p.2 / 2 ^ 20 ∧ p.2 % 2 ^ 20 < k.spadLen ∧ y.key = spadKey k.core (k.spadBase + p.2 % 2 ^ 20)
  | .dev => y.off = 0 ∧ p.2 < 2 ^ 48 ∧ page p.2
  | .peer => y.off = 0 ∧ peerTakes s acc.writes p.2 y.key
  | .host => y.off = 0 ∧ y.key = hostKey (s.fnOf s.tag) p.2

/-- A byte of memory is one of a piece. -/
def inSite (q : Site) (k : Nat) : Prop := q.key ≤ k ∧ k < q.key + q.len

/-- The little-endian number that the pieces of a lane hold. -/
def numberAt (s : State) (sites : List Site) (lane : Nat) : Nat :=
  leNat ((sites.filter (·.lane = lane)).flatMap fun q => readBytes s.mem q.key q.len)

/-- What register j of D gets of a loaded number (R115, R140). -/
def loadRule (w : BitVec 3) (j x : Nat) : Word :=
  if w = 1 then BitVec.ofInt 32 (BitVec.ofNat 8 x).toInt else if w = 3 then BitVec.ofInt 32 (BitVec.ofNat 16 x).toInt
  else BitVec.ofNat 32 (x / 2 ^ (32 * j))

/-- The number lane l of D stores (R115, R143). -/
def storedNumber (s : State) (w : BitVec 3) (d : VCode) (l : Nat) : Nat :=
  let reg := fun (j : Nat) => (laneOf (s.sh.rd.file (d.toNat + j)) l).toNat
  if w = 5 then (s.sh.rd.src64 d l).toNat
  else if w = 6 then reg 0 + reg 1 * 2 ^ 32 + reg 2 * 2 ^ 64 + reg 3 * 2 ^ 96
  else (inA s d l).toNat

/-- A load is pending with this value for every lane (R54, R140), its window is open (R55), and nothing else but the translation
caches has changed. -/
def loadPending (s t : State) (la : BitVec 4) (n : Nat) (d : VCode) (sites : List Site) (x : Nat → Nat → Word) : Prop :=
  { t with tlb := s.tlb, sh := { t.sh with loads := s.sh.loads, windows := s.sh.windows } } = s ∧
  t.sh.windows = s.sh.windows ++
    (if s.sh.latch.native && la ≠ 0 && d.toNat < 104 then [{ rem := la.toNat, regs := (List.range n).map (d.toNat + ·), pc := s.sh.latch.addr, acc := none }] else []) ∧
  (sites = [] → t.sh.loads = s.sh.loads) ∧
  (sites ≠ [] → ∃ l, t.sh.loads = s.sh.loads ++ [l] ∧ l.waits = 0 ∧
    (∀ i, i < 64 → (l.em.getLsbD i = true ↔ ∃ q ∈ sites, q.lane = i)) ∧
    (d = 108 → l.dest = []) ∧
    (d.toNat < 104 → l.dest.map Prod.fst = (List.range n).map (d.toNat + ·) ∧
      ∀ r ∈ l.dest, ∀ q ∈ sites, laneOf r.2 q.lane = x (r.1 - d.toNat) q.lane))

/-- The operand of an atomic in lane l as one number (R129). -/
def atomNumber (s : State) (op : BitVec 4) (d : VCode) (l : Nat) : Nat :=
  let reg := fun (j : Nat) => (laneOf (s.sh.rd.file (d.toNat + j)) l).toNat
  if op = 1 ∨ op = 10 ∨ op = 13 then reg 0 + reg 1 * 2 ^ 32
  else if op = 11 then reg 0 + reg 1 * 2 ^ 32 + reg 2 * 2 ^ 64 + reg 3 * 2 ^ 96
  else (inA s d l).toNat

/-- A 32-bit number as signed. -/
def s32 (x : Nat) : Int := (BitVec.ofNat 32 x).toInt

/-- What memory becomes, from the old number and the operand (R129, R130). -/
def atomRule (op : BitVec 4) (old d : Nat) : Nat :=
  match op.toNat with
  | 0 => (old + d) % 2 ^ 32
  | 1 => (old + d) % 2 ^ 64
  | 2 => if s32 old < s32 d then old else d
  | 3 => if s32 old < s32 d then d else old
  | 4 => min old d
  | 5 => max old d
  | 6 => old &&& d
  | 7 => old ||| d
  | 8 => old ^^^ d
  | 9 => d
  | 10 => if old = d % 2 ^ 32 then d / 2 ^ 32 else old
  | 11 => if old = d % 2 ^ 64 then d / 2 ^ 64 else old
  | 12 => (f32.addSub FMode.atomic false old d).val
  | 13 => (f64.addSub FMode.atomic false old d).val
  | 14 => (f32.minMax FMode.atomic false old d).val
  | _ => (f32.minMax FMode.atomic true old d).val

/-- The lanes of an atomic one after another: memory after them, and each lane's old number. -/
def atomRun (op : BitVec 4) (n : Nat) (x : Nat → Nat) : List Site → List Host.Cell → List Host.Cell × List (Nat × Nat)
  | [], m => (m, [])
  | q :: r, m =>
    let old := readLE m q.key n
    let rest := atomRun op n x r (writeBytes m q.key (leBytes n (atomRule op old (x q.lane))))
    (rest.1, (q.lane, old) :: rest.2)

/-- Bytes of an atomic, and registers it returns (R129). -/
def atomSize (op : BitVec 4) : Nat := if op = 1 ∨ op = 11 ∨ op = 13 then 8 else 4
def atomBack (op : BitVec 4) : Nat := if op = 1 ∨ op = 11 ∨ op = 13 then 2 else 1

end Sys2Proof.Rules

open Sys2Proof Sys2Proof.Machine Sys2Proof.Rules

/-- Results, pushes and frame of the three-operand integer words (R248, R250, R254, R256), of the immediate and unary integer words
(R252, R254), of the words whose lanes depend on no other result (R218, R222, R266, R270, R307, R309, R312, R324), of BFI bit by bit
(R256), and of DNEG, which pushes twice (R266). -/
def Obligations.VectorWordsWriteTheirTableResult : Prop :=
  (∀ (s : State) (d a b : VCode), ∀ p ∈ intWords d a b, s.issues p.1 = true →
     ∃ t, exec p.1 s = .next t ∧ onlyRegs s t ∧ vecRegs s d (fun i => p.2 (inA s a i) (inA s b i) (inD s d i)) t.sh.regs) ∧
  (∀ (s : State) (d a : VCode) (m : BitVec 7), ∀ p ∈ immWords d a m, s.issues p.1 = true →
     ∃ t, exec p.1 s = .next t ∧ onlyRegs s t ∧ vecRegs s d (fun i => p.2 (inA s a i)) t.sh.regs) ∧
  (∀ (s : State) (d a b : VCode) (sa : SCode) (m : BitVec 16), ∀ p ∈ laneWords s d a b sa m, s.issues p.1 = true →
     ∃ t, exec p.1 s = .next t ∧ onlyRegs s t ∧ vecRegs s d p.2 t.sh.regs) ∧
  (∀ (s : State) (d a b : VCode), s.issues (.bfi d a b) = true →
     ∃ t x, exec (.bfi d a b) s = .next t ∧ onlyRegs s t ∧ vecRegs s d x t.sh.regs ∧
       ∀ i j, j < 32 → (x i).getLsbD j = bfiRule (inA s a i) (inA s b i) (inD s d i) j) ∧
  (∀ (s : State) (d a : VCode), s.issues (.dneg d a) = true →
     ∃ t, exec (.dneg d a) s = .next t ∧ onlyRegs s t ∧
       pairRegs s d (fun i => s.sh.rd.src64 a i ^^^ 0x8000000000000000) t.sh.regs)

/-- R108-R110: an integer of the signed range survives encoding, and a sum, difference or product of residue words stands for
the true result modulo M. -/
def Obligations.ResidueWordsStandForIntegersModuloM : Prop :=
  (∀ x : Int, -536870400 ≤ x → x ≤ 536870399 → raValue (raEncode x) = x) ∧
  (∀ x : Int, -16368 ≤ x → x ≤ 16367 → reValue (reEncode x) = x) ∧
  (∀ x y : Word, (raValue (raOf fun j => raCh x j + raCh y j).toNat - (raValue x.toNat + raValue y.toNat)) % 1073740800 = 0) ∧
  (∀ x y : Word, (raValue (raOf fun j => raCh x j - raCh y j).toNat - (raValue x.toNat - raValue y.toNat)) % 1073740800 = 0) ∧
  (∀ x y : Word, (raValue (raOf fun j => raCh x j * (y.toInt % raMod j)).toNat - raValue x.toNat * y.toInt) % 1073740800 = 0)

/-- R318, R320: the keep shuffles, with k7, and the fall-through shuffles, which take the next active lane below. -/
def Obligations.ShufflesReadValidLanes : Prop :=
  (∀ (s : State) (d a b : VCode), ∀ p ∈ shuffles s d a b, s.issues p.1 = true →
     ∃ t x k, exec p.1 s = .next t ∧ onlyRegs s t ∧ wrote s.sh.em d.toNat x s.sh.regs t.sh.regs ∧
       pushed s.sh.em x s.sh.regs t.sh.regs ∧ t.sh.regs.s = s.sh.regs.s ∧ t.sh.regs.em = s.sh.regs.em ∧
       t.sh.regs.mode = s.sh.regs.mode ∧ (∀ c, t.sh.regs.getK c = if c = 7 then k else s.sh.regs.getK c) ∧
       ∀ i, i < 64 → (s.sh.em.getLsbD i = false → k.getLsbD i = false) ∧ (s.sh.em.getLsbD i = true →
         (validLane s (p.2.2 i) → x i = inA s a (p.2.2 i).toNat ∧ k.getLsbD i = true) ∧
         (¬ validLane s (p.2.2 i) → x i = inA s a i ∧ k.getLsbD i = false))) ∧
  (∀ (s : State) (d a b : VCode), ∀ p ∈ shuffles s d a b, s.issues p.2.1 = true →
     ∃ t x, exec p.2.1 s = .next t ∧ onlyRegs s t ∧ vecRegs s d x t.sh.regs ∧
       ∀ i, i < 64 → s.sh.em.getLsbD i = true →
         (validLane s (p.2.2 i) → x i = inA s a (p.2.2 i).toNat) ∧
         (¬ validLane s (p.2.2 i) →
           (∀ l : Nat, l < 64 → (l : Int) < p.2.2 i → s.sh.em.getLsbD l = true →
             (∀ j : Nat, j < 64 → (j : Int) < p.2.2 i → s.sh.em.getLsbD j = true → j ≤ l) → x i = inA s a l) ∧
           ((∀ l : Nat, l < 64 → (l : Int) < p.2.2 i → s.sh.em.getLsbD l = false) → x i = inD s d i)))

/-- R321, R322: the integer and logical reductions and scans. -/
def Obligations.IntegerReductionsAndScansFoldActiveLanes : Prop :=
  ∀ (s : State) (d a : VCode), ∀ p ∈ foldRule,
    (s.issues (.redlog d a p.1) = true → ∃ t, exec (.redlog d a p.1) s = .next t ∧ onlyRegs s t ∧
      vecRegs s d (fun _ => foldOver s a p.2.1 p.2.2 fun _ => true) t.sh.regs) ∧
    (s.issues (.scanlog d a false p.1) = true → ∃ t, exec (.scanlog d a false p.1) s = .next t ∧ onlyRegs s t ∧
      vecRegs s d (fun i => foldOver s a p.2.1 p.2.2 fun l => l ≤ i) t.sh.regs) ∧
    (s.issues (.scanlog d a true p.1) = true → ∃ t, exec (.scanlog d a true p.1) s = .next t ∧ onlyRegs s t ∧
      vecRegs s d (fun i => foldOver s a p.2.1 p.2.2 fun l => l < i) t.sh.regs)

/-- R258, R260, R262, R264, R268, R314 with R237, R238, R242: results, pushes, flags and frame of the floating words when no
exception is enabled. R264: what a minimum or maximum is. R268: what rounding to an integral value is. R314, R316: RCP and SQRT to
nearest are the nearest values to 1/a and √a; the approximate words ignore RM, quiet a NaN and give their special results. -/
def Obligations.FloatingWordsWriteResultsAndFlags : Prop :=
  (∀ (s : State) (d a b : VCode), quietMode s →
    (∀ p ∈ fpWords d a b, s.issues p.1 = true → ∃ t, exec p.1 s = .next t ∧
      fpDone s t d fun i => p.2 s.sh.fmode (inA s a i).toNat (inA s b i).toNat (inD s d i).toNat) ∧
    (∀ p ∈ fpWords64 d a b, s.issues p.1 = true → ∃ t, exec p.1 s = .next t ∧
      fpDone64 s t d fun i => p.2 s.sh.fmode (s.sh.rd.src64 a i).toNat (s.sh.rd.src64 b i).toNat (s.sh.rd.src64 d i).toNat) ∧
    (∀ p ∈ packedWords d a b, s.issues p.1 = true → ∃ t, exec p.1 s = .next t ∧
      fpDone s t d fun i => packed2 fun e => p.2 s.sh.fmode (el (inA s a i) e) (el (inA s b i) e) (el (inD s d i) e))) ∧
  (∀ f ∈ [f16, bf16, f32, f64], ∀ (md : FMode) (a b : Nat), a < 2 * f.signBit → b < 2 * f.signBit →
    (∀ isMax : Bool, minMaxRule f isMax (f.inp md a) (f.inp md b) (f.minMax md isMax a b)) ∧
    integralRule f md.rm (f.inp md a) (f.integral md a)) ∧
  (∀ (md : FMode) (a : Nat), a < 2 ^ 32 → let x := f32.inp md a
    (f32.isNaN x = true → ∀ r ∈ [rcpFn md a, sqrtFn md a], r = ⟨f32.quieted x, Exc.invIf (f32.isSNaN x)⟩) ∧
    (f32.isZero x = true → rcpFn md a = ⟨f32.signed (f32.neg x) f32.inf, Exc.dz⟩ ∧ sqrtFn md a = ⟨x, 0⟩) ∧
    (f32.isInf x = true → rcpFn md a = ⟨f32.signed (f32.neg x) 0, 0⟩) ∧
    (x = f32.inf → sqrtFn md a = ⟨x, 0⟩) ∧
    (f32.neg x = true → f32.isNaN x = false → f32.isZero x = false → sqrtFn md a = ⟨0x7FC00005, Exc.inv⟩) ∧
    (md.rm = 0 → md.ftz32 = false → f32.isNaN x = false → f32.isInf x = false → f32.isZero x = false →
      let q := val f32 x
      (let r := rcpFn md a
       r.exc.getLsbD 2 = false → ∀ y, y < 2 ^ 32 → f32.isNaN y = false → f32.isInf y = false →
         |1 - q * val f32 r.val| ≤ |1 - q * val f32 y|) ∧
      (f32.neg x = false → let v := val f32 (sqrtFn md a).val
       0 ≤ v ∧ ∀ y, y < 2 ^ 31 → f32.isNaN y = false → f32.isInf y = false → let w := val f32 y
         (v < w → 4 * q ≤ (v + w) ^ 2) ∧ (w < v → (v + w) ^ 2 ≤ 4 * q)))) ∧
  (∀ (fn : ApproxFn) (md : FMode) (a : Nat), a < 2 ^ 32 → let x := f32.inp md a
    (∀ rm, approxFn fn { md with rm := rm } a = approxFn fn md a) ∧
    (f32.isNaN x = true → approxFn fn md a = ⟨f32.quieted x, Exc.invIf (f32.isSNaN x)⟩) ∧
    (f32.isNaN x = false → ∀ p ∈ specialInputs x, p.1 = some fn → p.2.1 = true → approxFn fn md a = ⟨p.2.2.1, p.2.2.2⟩))

/-- R304: CVT in the captured rounding mode and CVTX in that of its EXT. R104, R304: what a conversion gives, from and to each
selector. -/
def Obligations.ConversionsWriteResultsAndFlags : Prop :=
  (∀ (s : State) (d a : VCode) (src dst : BitVec 3) (rm : BitVec 2), quietMode s →
    ∀ p ∈ [(Instr.cvt d a src dst, s.sh.fmode), (.cvtx d a src dst rm, { s.sh.fmode with rm := rm })], s.issues p.1 = true →
      ∃ t, exec p.1 s = .next t ∧
        (if dst = 2 ∨ dst = 6 then fpDone64 s t d else fpDone s t d) fun i => cvtLane src dst p.2 (cvtIn s a src i)) ∧
  (∀ (src dst : BitVec 3) (md : FMode) (x : DWord), src ≠ 7 → dst ≠ 7 → src ≠ dst → (3 ≤ src.toNat ∨ 3 ≤ dst.toNat) →
    cvtRule src dst md x (cvtLane src dst md x))

/-- R322: the floating reductions and scans fold in lane order, each input read once: an empty set gives the identity, one value
itself as read, and each further value is combined with what stands before it; what one combination or one input raises counts. -/
def Obligations.FloatingReductionsFoldInLaneOrder : Prop :=
  (∀ (s : State) (d a : VCode) (op : BitVec 4), 8 ≤ op.toNat → op.toNat ≤ 10 → quietMode s →
    ∀ p ∈ [(Instr.redlog d a op, fun (_ _ : Nat) => true), (.scanlog d a false op, fun i l => decide (l ≤ i)),
        (.scanlog d a true op, fun i l => decide (l < i))], s.issues p.1 = true →
      ∃ t, exec p.1 s = .next t ∧ fpDone s t d fun i =>
        foldSet op s.sh.fmode (((List.range 64).filter fun l => s.sh.em.getLsbD l && p.2 i l).map fun l => (inA s a l).toNat)) ∧
  (∀ (md : FMode), ∀ p ∈ [((8 : BitVec 4), 0x80000000), (9, 0x7F800000), (10, 0xFF800000)],
    foldSet p.1 md [] = ⟨p.2, 0⟩ ∧ (∀ x, foldSet p.1 md [x] = ⟨f32.inp md x, Exc.invIf (f32.isSNaN x)⟩) ∧
    ∀ l x, l ≠ [] → let before := foldSet p.1 md l
      let r := foldComb p.1 md before.val (f32.inp md x)
      foldSet p.1 md (l ++ [x]) = ⟨r.val, before.exc ||| r.exc ||| Exc.invIf (f32.isSNaN x)⟩)

/-- R94: rounding to nearest gives a nearest encoding, and an even one on a tie, when nothing is flushed or overflows. -/
def Obligations.RoundToNearestIsNearestEven : Prop :=
  ∀ f ∈ [f16, bf16, f32, f64], ∀ (md : FMode) (neg : Bool) (m : Nat) (e : Int), m ≠ 0 → md.rm = 0 →
    md.ftz32 = false → md.ftz16 = false → (f.round md neg m e).exc.getLsbD 2 = false →
    ∀ y, y < 2 * f.signBit → f.isNaN y = false → f.isInf y = false →
      let v : ℚ := (if neg then -1 else 1) * (m : ℚ) * (2 : ℚ) ^ e
      let r := (f.round md neg m e).val
      |v - val f r| ≤ |v - val f y| ∧ (|v - val f r| = |v - val f y| → val f r = val f y ∨ r % 2 = 0)

/-- R258, R260, R262: on finite inputs, a sum, difference, product or fused product is the exact value, rounded once. -/
def Obligations.SumsAndProductsRoundTheExactValue : Prop :=
  ∀ f ∈ [f16, bf16, f32, f64], ∀ (md : FMode) (a b c : Nat), md.daz = false →
    (∀ x ∈ [a, b, c], x < 2 * f.signBit ∧ f.isNaN x = false ∧ f.isInf x = false) →
    ∀ p ∈ [(f.addSub md false a b, val f a + val f b), (f.addSub md true a b, val f a - val f b),
        (f.mul md a b, val f a * val f b), (f.fma md false a b c, val f a * val f b + val f c),
        (f.fma md true a b c, val f a * val f b - val f c)],
      (p.2 = 0 → p.1.exc = 0 ∧ f.isZero p.1.val = true) ∧
      (p.2 ≠ 0 → ∃ (m : Nat) (e : Int), m ≠ 0 ∧ p.1 = f.round md (p.2 < 0) m e ∧ |p.2| = (m : ℚ) * (2 : ℚ) ^ e)

/-- R102, R103: a NaN input gives the first NaN quieted; with none, an invalid sum or product gives the generated NaN. -/
def Obligations.NaNResultsFollowTheRules : Prop :=
  ∀ f ∈ [f16, bf16, f32, f64], ∀ (md : FMode) (a b : Nat), a < 2 * f.signBit → b < 2 * f.signBit →
    (∀ r ∈ [f.addSub md false a b, f.addSub md true a b, f.mul md a b],
      (f.isNaN a = true → r = ⟨f.quieted a, Exc.invIf (f.isSNaN a || f.isSNaN b)⟩) ∧
      (f.isNaN a = false → f.isNaN b = true → r = ⟨f.quieted b, Exc.invIf (f.isSNaN b)⟩)) ∧
    f.addSub md false f.inf (f.signBit + f.inf) = ⟨f.genNaN 3, Exc.inv⟩ ∧ f.addSub md true f.inf f.inf = ⟨f.genNaN 3, Exc.inv⟩ ∧
    f.mul md 0 f.inf = ⟨f.genNaN 4, Exc.inv⟩

/-- R272: ICMP and NCMP compare signed and unsigned values in the active lanes. FCMP and DCMP compare the values as read; a NaN makes
every condition but ne and unord false. -/
def Obligations.ComparesWriteThePredicate : Prop :=
  (∀ (s : State) (conj : Bool) (cond : BitVec 3) (kd : KCode) (a b : VCode),
     ∀ p ∈ [(Instr.icmp conj cond kd a b, fun (x : Word) => x.toInt), (.ncmp conj cond kd a b, fun x => (x.toNat : Int))],
       s.issues p.1 = true → ∃ t k, exec p.1 s = .next t ∧ onlyRegs s t ∧ predRegs s.sh.regs kd k t.sh.regs ∧
         cmpK s conj kd (fun i => condRule cond (p.2 (inA s a i)) (p.2 (inA s b i))) k) ∧
  (∀ (s : State) (conj : Bool) (cond : BitVec 3) (kd : KCode) (a b : VCode), quietMode s →
     ∀ p ∈ [(Instr.fcmp conj cond kd a b, f32, fun (c : VCode) i => (inA s c i).toNat),
         (.dcmp conj cond kd a b, f64, fun c i => (s.sh.rd.src64 c i).toNat)],
       s.issues p.1 = true → ∃ t k, exec p.1 s = .next t ∧ onlyRegsFlags s t ∧ predRegs s.sh.regs kd k t.sh.regs ∧
         cmpK s conj kd (fun i => fcmpHolds p.2.1 s.sh.fmode cond (p.2.2 a i) (p.2.2 b i)) k ∧
         flagsGain s t fun i => fcmpExc p.2.1 cond (p.2.2 a i) (p.2.2 b i))

/-- R210, R212, R214, R216: words that write a predicate register, lane by lane, and words that write the execution mask. -/
def Obligations.MaskWordsWriteTheirRegisters : Prop :=
  (∀ (s : State) (kd ka kb : KCode) (a : VCode) (sa : SCode), ∀ p ∈ predWords s kd ka kb a sa, s.issues p.1 = true →
    ∃ t k, exec p.1 s = .next t ∧ onlyRegs s t ∧ predRegs s.sh.regs kd k t.sh.regs ∧ ∀ i, i < 64 → k.getLsbD i = p.2 i) ∧
  (∀ (s : State) (ka : KCode) (sa : SCode), ∀ p ∈ emWords s ka sa, s.issues p.1 = true →
    ∃ t, exec p.1 s = .next t ∧ onlyRegs s t ∧ maskRegs s.sh.regs p.2 t.sh.regs)

/-- R216, R220, R224, R226, R227, R229: words that write a scalar register; s0 discards the write. -/
def Obligations.ScalarWordsWriteTheirTableResult : Prop :=
  ∀ (s : State) (d a b : SCode) (k : KCode) (va : VCode) (lane : BitVec 10) (m17 : BitVec 17) (m11 : BitVec 11) (m9 : BitVec 9),
    ∀ p ∈ scalarWords s d a b k va lane m17 m11 m9, s.issues p.1 = true →
      ∃ t, exec p.1 s = .next t ∧ onlyRegs s t ∧ scalRegs s.sh.regs d p.2 t.sh.regs

/-- R35, R36: what a source code reads; and R206: s0 reads 0. -/
def Obligations.SourceCodesReadTheirOperands : Prop :=
  ∀ (r : Regs) (c : VCode) (i : Nat), i < 64 →
    (∀ h : c.toNat < 96, laneOf (r.src c) i = laneOf (r.v[c.toNat]) i) ∧
    (∀ h : 96 ≤ c.toNat ∧ c.toNat < 104, laneOf (r.src c) i = laneOf (r.o[c.toNat - 96]'(by omega)) i) ∧
    (∀ h : 104 ≤ c.toNat ∧ c.toNat < 108, laneOf (r.src c) i = laneOf (r.w[c.toNat - 104]'(by omega)) i) ∧
    (c = 108 → laneOf (r.src c) i = 0) ∧ (c = 109 → laneOf (r.src c) i = BitVec.ofNat 32 i) ∧
    (c = 110 → laneOf (r.src c) i = 32) ∧ (c = 111 → laneOf (r.src c) i = 16) ∧
    (112 ≤ c.toNat → laneOf (r.src c) i = (r.getS (BitVec.ofNat 6 (c.toNat - 112))).setWidth 32) ∧
    (c.toNat < 104 → c.toNat % 2 = 0 → r.src64 c i = laneOf (r.file (c.toNat + 1)) i ++ laneOf (r.file c.toNat) i) ∧
    r.getS 0 = 0

/-- R207, R231: SRD reads each special register and SWR changes the writable bits of its register and nothing else (R98, R99); a
read-only register ignores it. In a handler the enables of %mode are the hidden ones (R443), and a write of %trnext clears %rpidx
(R236). `%fpflags` waits for the loops in flight (R100); no other register does. -/
def Obligations.SpecialRegistersReadAndWrite : Prop :=
  (∀ (s : State) (p : BitVec 6) (d : SCode), p.toNat < 38 → (p = 18 → s.sh.loops = []) → s.issues (.srd p d) = true →
     ∃ t, exec (.srd p d) s = .next t ∧ onlyRegs s t ∧ scalRegs s.sh.regs d ((specials s).getD p.toNat 0) t.sh.regs) ∧
  (∀ (s : State) (a : SCode), ∀ p ∈ swrRule s.sh (s.sh.rd.getS a), (p.1 = 18 → s.sh.loops = []) → s.issues (.swr p.1 a) = true →
     exec (.swr p.1 a) s = .next { s with sh := p.2 }) ∧
  (∀ (s : State) (r : SCode), s.sh.loops ≠ [] → ∀ i ∈ [Instr.srd 18 r, .swr 18 r], s.issues i = true →
     exec i s = .next (waitsAt s i none))

/-- R50, R207, R461: outside firmware, HALT and an SWR to %prio or %quant trap PRIV and do nothing else. -/
def Obligations.PrivilegedWordsTrapOutsideFirmware : Prop :=
  ∀ (s : State) (a : SCode), canTrap s → s.tag ≠ 0 → s.sh.wait = none → s.sh.snap = none →
    ∀ i ∈ [Instr.halt, .swr 34 a, .swr 35 a], ∃ t, exec i s = .next t ∧
      entered s t 0x07 s.sh.pc s.sh.pc s.sh.em (auxOf s 0x1FF) ∧ t.sh.prio = s.sh.prio ∧ t.sh.quant = s.sh.quant ∧
      t.halted = s.halted

/-- R357-R359: taken and untaken transfers; LOOP counts down and branches while the count is not 0. R356: a taken transfer out of the
code traps RANGE, and its group has no effect. That %traux names no destination for LOOP, which writes a scalar register, is the
model's reading of R440 (LOG 15). -/
def Obligations.BranchesGoToTheirTargets : Prop :=
  ((∀ (s : State) (o23 : BitVec 23) (a : SCode) (k : KCode) (o17 : BitVec 17) (o18 : BitVec 18),
     (s.issues (.bra o23) = true → inCode s (targetOf s o23.toInt) → exec (.bra o23) s = .next (jumped s (targetOf s o23.toInt))) ∧
     (∀ p ∈ branches s a k o17 o18, s.issues p.1 = true →
       (p.2.2 → inCode s (targetOf s p.2.1) → exec p.1 s = .next (jumped s (targetOf s p.2.1))) ∧
       (¬ p.2.2 → exec p.1 s = .next s))) ∧
   (∀ (s : State) (a : SCode) (o : BitVec 17), s.issues (.loop a o) = true →
     let x := s.sh.rd.getS a - 1
     (x = 0 ∨ inCode s (targetOf s o.toInt)) → ∃ t, exec (.loop a o) s = .next t ∧
       scalRegs s.sh.regs a x t.sh.regs ∧ onlyRegs (if x = 0 then s else jumped s (targetOf s o.toInt)) t)) ∧
  (∀ (s : State) (o23 : BitVec 23) (a : SCode) (k : KCode) (o17 : BitVec 17) (o18 : BitVec 18), canTrap s →
     (¬ inCode s (targetOf s o23.toInt) → s.issues (.bra o23) = true → ∃ t, exec (.bra o23) s = .next t ∧
       entered s t 0x19 s.sh.pc s.sh.pc s.sh.em (auxOf s 0x1FF)) ∧
     (∀ p ∈ branches s a k o17 o18, p.2.2 → ¬ inCode s (targetOf s p.2.1) → s.issues p.1 = true → ∃ t, exec p.1 s = .next t ∧
       entered s t 0x19 s.sh.pc s.sh.pc s.sh.em (auxOf s 0x1FF)) ∧
     (s.sh.rd.getS a ≠ 1 → ¬ inCode s (targetOf s o17.toInt) → s.issues (.loop a o17) = true → ∃ t, exec (.loop a o17) s = .next t ∧
       entered s t 0x19 s.sh.pc s.sh.pc s.sh.em (auxOf s 0x1FF)))

/-- R357, R355, R362, R361: CALL links in s63; RET goes to s63 and sets F from its top bit. -/
def Obligations.CallAndRetLinkThroughS63 : Prop :=
  ∀ (s : State) (o : BitVec 23),
    (s.issues (.call o) = true → inCode s (targetOf s o.toInt) → s.overBudget s.sh (targetOf s o.toInt).toNat = false →
      ∃ t, exec (.call o) s = .next t ∧ scalRegs s.sh.regs 63 (s.sh.next.setWidth 64) t.sh.regs ∧
        onlyRegs (jumped s (targetOf s o.toInt)) t) ∧
    (s.issues .ret = true → (s.sh.rd.getS 63).extractLsb' 32 31 = 0 → ((s.sh.rd.getS 63).extractLsb' 0 32).toNat < s.codeWords s.sh →
      exec .ret s = .next { s with sh := { s.sh with next := (s.sh.rd.getS 63).extractLsb' 0 32, contF := (s.sh.rd.getS 63).getLsbD 63,
                                                      contAt := some ((s.sh.rd.getS 63).extractLsb' 0 32) } })

/-- R361: a fresh CALLX goes to the least target of its lanes, and a continuation to the least one above the last; with none
left the mask comes back. -/
def Obligations.CallxServesTargetsInAscendingOrder : Prop :=
  ∀ (s : State) (a : VCode), s.issues (.callx a) = true →
    let e := if s.sh.continues then s.sh.rd.getS 61 else s.sh.em
    let at_ := fun (i : Nat) => (inA s a i).toNat
    let left := fun (i : Nat) => i < 64 ∧ e.getLsbD i = true ∧ (s.sh.continues = true → (s.sh.rd.getS 60).toNat % 2 ^ 32 < at_ i)
    (∀ i, i < 64 → e.getLsbD i = true → at_ i < s.codeWords s.sh ∧ s.overBudget s.sh (at_ i) = false) →
    (s.sh.continues = false → e = 0 → exec (.callx a) s = .next s) ∧
    (s.sh.continues = true → (∀ i, ¬ left i) → ∃ t, exec (.callx a) s = .next t ∧
      t.sh.regs = ({ s.sh.regs with em := e }).setS 60 0 ∧
      { t with sh := { t.sh with regs := s.sh.regs, contF := s.sh.contF } } = s) ∧
    (∀ l, left l → (∀ i, left i → at_ l ≤ at_ i) → ∃ t m, exec (.callx a) s = .next t ∧
      (∀ i, i < 64 → m.getLsbD i = (e.getLsbD i && decide (at_ i = at_ l))) ∧
      t.sh.regs.getS 61 = e ∧ t.sh.regs.getS 60 = BitVec.ofNat 64 (at_ l) ∧
      t.sh.regs.getS 63 = 0x8000000000000000 ||| s.sh.latch.addr.setWidth 64 ∧ t.sh.regs.em = m ∧
      t.sh.next = inA s a l ∧ t.sh.contF = false ∧ (∀ c, c ≠ 60 → c ≠ 61 → c ≠ 63 → t.sh.regs.getS c = s.sh.regs.getS c) ∧
      t.sh.regs.k = s.sh.regs.k ∧ t.sh.regs.mode = s.sh.regs.mode ∧ sameVectors s.sh.regs t.sh.regs ∧
      { t with sh := { t.sh with regs := s.sh.regs, contF := s.sh.contF, next := s.sh.next } } = s)

/-- R363, R460, R438: NOP does nothing; YIELD marks the sheaf youngest; MODE changes the masked bits of one byte; XFERQ reads
the request; SLEEP, WAITB and MWAIT of what has come to pass go on at once. -/
def Obligations.SimpleControlWords : Prop :=
  ∀ (s : State) (hi : Bool) (mask v : BitVec 8) (d a : SCode) (ev : Bool),
    (s.issues .nop = true → exec .nop s = .next s) ∧
    (s.issues .yield = true → exec .yield s = .next { s with sh := { s.sh with yielded := true } }) ∧
    (s.issues (.mode hi mask v) = true → s.sh.hnd = false → exec (.mode hi mask v) s = .next { s with sh := { s.sh with regs :=
      { s.sh.regs with mode :=
        (let m : DWord := mask.setWidth 64 <<< (if hi then 8 else 0)
         (s.sh.regs.mode &&& ~~~m) ||| ((v.setWidth 64 <<< (if hi then 8 else 0)) &&& m)) &&& 0x1F3F } } }) ∧
    (s.issues (.xferq d) = true → ∃ t, exec (.xferq d) s = .next t ∧ onlyRegs s t ∧
      (s.sh.request = none → scalRegs s.sh.regs d 0 t.sh.regs) ∧
      (∀ r, s.sh.request = some r → scalRegs s.sh.regs d
        (BitVec.ofNat 64 (2 ^ 63 + (if r.firmware then 2 ^ 62 else 0) + r.budget % 2 ^ 8 * 2 ^ 8 + r.ver.toNat)) t.sh.regs)) ∧
    (s.issues (.sleep a) = true → s.repeatable = false → (s.sh.rd.getS a).toNat ≤ s.gtc.toNat → exec (.sleep a) s = .next s) ∧
    (s.issues (.waitb a ev) = true → s.repeatable = false → s.sh.eventDone (s.sh.rd.getS a) ev = true →
      exec (.waitb a ev) s = .next s) ∧
    (s.issues (.sleepb a ev) = true → s.repeatable = false → promiseTime s.gtc (s.sh.rd.getS a) ≤ s.gtc.toNat →
      s.sh.eventDone (s.sh.rd.getS a) ev = true → exec (.sleepb a ev) s = .next s)

/-- R364, R166: EXIT ends the sheaf, its engines and its loops' scoreboard entries; its open batch is closed, in repeatable mode for
the commit; memory is untouched. That a trap pending at the EXIT, that of a floating word beside it included, is dropped is the
model's choice (LOG 32). -/
def Obligations.ExitEndsTheSheaf : Prop :=
  ∀ (s : State), s.issues .exit = true → ∃ t, exec .exit s = .next t ∧ t.sh.life = .exited ∧ t.sh.loads = [] ∧
    t.sh.loops = [] ∧ t.sh.pend = [] ∧ t.sh.openCpys = [] ∧ t.sh.defer = s.sh.defer ∧
    t.sh.buf = s.sh.buf ++ (if s.repeatable = true ∧ s.sh.openCpys ≠ [] then [.batch s.sh.nextBatch] else []) ∧
    t.sh.batches = s.sh.batches ++ (if s.sh.openCpys = [] then []
      else [Batch.of s.sh.nextBatch 0 none s.sh.openCpys s.sh.openOut s.sh.openProg 0 0 0]) ∧
    t.scoreboard = s.scoreboard.filter (fun e => !(e.sheaf = s.sh.uid && e.loop)) ∧ t.peers = s.peers ∧ t.mem = s.mem ∧
    t.lines = s.lines

/-- R439: every cause has its code. R442, R457: TRAP and BKPT, alone in their group and with no debugger, enter the handler at the
boundary after it. -/
def Obligations.TrapAndBkptEnterTheHandler : Prop :=
  (∀ p ∈ causeCodes, p.1.code = BitVec.ofNat 8 p.2) ∧
  (∀ (s : State) (n : BitVec 16), canTrap s → s.sh.latch.more = false → s.sh.snap = none →
     (s.context s.tag).any Context.debugger = false →
     ∀ p ∈ [(Instr.trap n, (0x08 : BitVec 8)), (.bkpt n, 0x09)], s.issues p.1 = true → ∃ t, exec p.1 s = .next t ∧
       entered s t p.2 s.sh.pc s.sh.next s.sh.em (auxOf s n.toNat))

/-- R445: with a debugger attached, BKPT halts the sheaf and leaves its mask and mode. R444: a trap that finds no handler ends a
live context. -/
def Obligations.TrapsUnderADebuggerOrWithoutAHandler : Prop :=
  (∀ (s : State) (n : BitVec 16), s.sh.pend = [] → s.sh.loads = [] → s.sh.loops = [] → s.sh.rep = none → s.sh.hnd = false →
    s.sh.latch.more = false → s.sh.snap = none → (s.context s.tag).any Context.debugger = true → s.issues (.bkpt n) = true →
    ∃ t, exec (.bkpt n) s = .next t ∧ t.sh.dbgHalt = true ∧ t.sh.regs = s.sh.regs ∧ t.sh.hnd = false ∧ t.sh.trpc = s.sh.pc ∧
      t.sh.trnext = s.sh.next ∧ t.sh.trcause = 0x09 ∧ t.sh.traux = auxOf s n.toNat ∧ t.sh.next = s.sh.next ∧ t.mem = s.mem) ∧
  (∀ (s : State) (p : PendTrap) (a b : BitVec 32) (c : Context), s.sh.trbase.getLsbD 63 = false → s.sh.hnd = false →
    s.context s.tag = some c → c.ended = false → p.cause ≠ .bkpt →
    (∀ x, (s.enterHandler p a b).context s.tag = some x → x.ended = true) ∧ (s.enterHandler p a b).sh.hnd = false)

/-- R458: RETT restores the mask, the enables, the last-result file and F, and goes on at %trnext. -/
def Obligations.RettRestoresWhatTheHandlerHid : Prop :=
  ∀ (s : State), s.issues .rett = true → s.legalTarget s.sh s.sh.trnext.toNat = true → ∃ t, exec .rett s = .next t ∧
    t.sh.regs.em = s.sh.trem ∧ t.sh.regs.w = s.sh.hidW ∧
    t.sh.regs.mode = (s.sh.regs.mode &&& ~~~0x1F00#64) ||| (s.sh.hidMode.setWidth 64 <<< 8) ∧ t.sh.contF = s.sh.hidF ∧
    t.sh.hnd = false ∧ t.sh.next = s.sh.trnext ∧ t.sh.regs.v = s.sh.regs.v ∧ t.sh.regs.o = s.sh.regs.o ∧
    t.sh.regs.s = s.sh.regs.s ∧ t.sh.regs.k = s.sh.regs.k ∧ t.sh.fpflags = s.sh.fpflags ∧ t.sh.trpc = s.sh.trpc ∧
    t.sh.trcause = s.sh.trcause ∧ t.sh.traux = s.sh.traux ∧ t.sh.trmask = s.sh.trmask ∧ t.mem = s.mem ∧ t.lines = s.lines

/-- R459: TFIX in the handler of a floating trap replaces a 32-bit result in the active lanes and pushes it, or a predicate;
outside a handler it does nothing. -/
def Obligations.TfixReplacesTheTrappedResult : Prop :=
  ∀ (s : State) (a : VCode), s.issues (.tfix a) = true → s.sh.snap = none →
    let target := s.sh.traux.toNat % 512
    let acts := s.sh.hnd = true ∧ 0x10 ≤ s.sh.trcause.toNat ∧ s.sh.trcause.toNat ≤ 0x14 ∧
      fMaj (s.sh.traux.extractLsb' 32 32) ≠ 0x3A
    (¬ acts → exec (.tfix a) s = .next s) ∧
    (acts → target < 104 → wordIsPair (s.sh.traux.extractLsb' 32 32) = false → ∃ t, exec (.tfix a) s = .next t ∧ onlyRegs s t ∧
      vecRegs s (BitVec.ofNat 7 target) (inA s a) t.sh.regs) ∧
    (acts → 192 ≤ target → target < 200 → ∃ t k, exec (.tfix a) s = .next t ∧ onlyRegs s t ∧
      predRegs s.sh.regs (BitVec.ofNat 3 (target - 192)) k t.sh.regs ∧ ∀ i, i < 64 → k.getLsbD i =
        if s.sh.em.getLsbD i = true then decide (inA s a i ≠ 0) else (s.sh.regs.getK (BitVec.ofNat 3 (target - 192))).getLsbD i)

/-- R101, R243: an enabled exception of a lone floating word, of 32 or 64 bits, packed, a conversion or a compare, traps after its
effect, with the lanes and the word it reports. -/
def Obligations.EnabledExceptionsTrapAfterTheEffect : Prop :=
  ∀ (s : State) (d a b : VCode) (src dst : BitVec 3) (rm : BitVec 2) (conj : Bool) (c : BitVec 3) (kd : KCode), canTrap s →
    s.sh.latch.more = false → s.sh.snap = none → ∀ p ∈ trapWords s d a b src dst rm conj c kd,
    s.issues p.1 = true →
    let exc := p.2.2.1
    ∀ k < 5, (∃ i < 64, s.sh.em.getLsbD i = true ∧ (exc i).getLsbD k = true) → s.sh.regs.mode.getLsbD (8 + k) = true →
      (∀ j < k, s.sh.regs.mode.getLsbD (8 + j) = true → ∀ i < 64, s.sh.em.getLsbD i = true → (exc i).getLsbD j = false) →
      ∃ t lanes, exec p.1 s = .next t ∧ (∀ i, i < 64 → lanes.getLsbD i = (s.sh.em.getLsbD i && (exc i).getLsbD k)) ∧
        t.sh.trcause = BitVec.ofNat 8 (0x10 + k) ∧ t.sh.trpc = s.sh.pc ∧ t.sh.trnext = s.sh.next ∧ t.sh.trmask = lanes ∧
        t.sh.traux = auxOf s p.2.1 ∧ t.sh.hnd = true ∧ t.sh.next = s.sh.trbase.extractLsb' 0 32 ∧
        p.2.2.2 t.sh.regs ∧ flagsGain s t exc ∧ t.mem = s.mem

/-- R115, R124, R140: a load that passes its checks fixes each active lane's value and pends its registers. -/
def Obligations.LoadsFixEachLanesValue : Prop :=
  ∀ (s : State) (la : BitVec 4) (w : BitVec 3) (d a : VCode) (m : Bool) (e : Option MemExt), ∀ p ∈ loadWords la w d a m e,
    s.issues p.1 = true → ∀ q, s.plan p.2 .load (widthBytes w) true (s.laneAddrs p.2 a (ofsOf e)) = .ok q → q.rejected = [] →
      plain s q.sites → w ≠ 7 → (d = 108 ∨ d.toNat < 104) →
      ∃ t, exec p.1 s = .next t ∧
        loadPending s t la (if w = 5 then 2 else if w = 6 then 4 else 1) d q.sites fun j l => loadRule w j (numberAt s q.sites l)

/-- R127: a descriptor load reads the descriptor of each lane's line, zero-extended. R128, R407: a step-qualified load whose lanes all
name a full slot of the step reads the slots. -/
def Obligations.DescriptorAndStepLoadsReadTheirLines : Prop :=
  (∀ (s : State) (la : BitVec 4) (d a : VCode) (e : Option MemExt),
     ∀ p ∈ [(Instr.ldsDesc la d a e, Space.spad), (.ldgDesc la d a e, .dev)], s.issues p.1 = true →
       ∀ q, s.plan p.2 .load 1 false (s.laneAddrs p.2 a (ofsOf e)) = .ok q → q.rejected = [] → plain s q.sites →
       (d = 108 ∨ d.toNat < 104) →
       ∃ t, exec p.1 s = .next t ∧
         loadPending s t la 1 d q.sites fun _ l =>
           (((q.sites.find? (·.lane = l)).map fun x => lineDesc s.lines x.key).getD 0).setWidth 32) ∧
  (∀ (s : State) (la : BitVec 4) (w : BitVec 3) (d a : VCode) (tb : BitVec 5) (sel : BitVec 2),
     s.issues (.ldcStep la w d a tb sel) = true → w ≠ 7 → (d = 108 ∨ d.toNat < 104) →
     let ls := (s.laneAddrs .clus a 0).map (s.stepLane tb.toNat (widthBytes w) (s.stepSel sel))
     (∀ l ∈ ls, l.far = false ∧ l.ready = true ∧ l.site.va % 2 ^ 20 % widthBytes w = 0 ∧
       s.touchesRing l.site.key l.site.len = false) → plain s (ls.map StepLane.site) →
     ∃ t, exec (.ldcStep la w d a tb sel) s = .next t ∧
       loadPending s t la (if w = 5 then 2 else if w = 6 then 4 else 1) d (ls.map StepLane.site)
         fun j l => loadRule w j (numberAt s (ls.map StepLane.site) l))

/-- R143, R86, R124: a store that passes its checks writes its lanes' bytes, the higher lane last, takes the lines' ownership,
keeps their descriptors and changes no other byte. That a store of a whole line keeps its descriptor too is the model's choice
(LOG 21). -/
def Obligations.StoresWriteTheirBytesAndNoOthers : Prop :=
  ∀ (s : State) (la : BitVec 4) (w : BitVec 3) (d a : VCode) (m : Bool) (e : Option MemExt), s.memOk →
    ∀ p ∈ storeWords la w d a m e, s.issues p.1 = true →
      ∀ q, s.plan p.2 .store (widthBytes w) true (s.laneAddrs p.2 a (ofsOf e)) = .ok q → q.rejected = [] → plain s q.sites →
      w ≠ 7 → ∃ t, exec p.1 s = .next t ∧ { butFar s t with mem := s.mem, lines := s.lines } = s ∧
        (∀ k, (∀ x ∈ q.sites, ¬ inSite x k) → readByte t.mem k = readByte s.mem k) ∧
        (∀ pre x post, q.sites = pre ++ x :: post → (∀ y ∈ post, ∀ k, inSite x k → ¬ inSite y k) →
          readLE t.mem x.key x.len = storedNumber s w d x.lane / 256 ^ x.off % 256 ^ x.len) ∧
        (∀ k, lineDesc t.lines k = lineDesc s.lines k) ∧
        (∀ x ∈ q.sites, ∀ k, inSite x k → isForeign k = false → (lineMeta t.lines k).extractLsb' 16 12 = s.tag) ∧
        (∀ k, (∀ x ∈ q.sites, ∀ j, inSite x j → lineOf j ≠ lineOf k) → lineMeta t.lines k = lineMeta s.lines k)

/-- R127: a descriptor store writes the descriptors of its lanes' lines and no byte of data. -/
def Obligations.DescriptorStoresWriteTheLines : Prop :=
  ∀ (s : State) (la : BitVec 4) (d a : VCode) (e : Option MemExt), s.memOk →
    ∀ p ∈ [(Instr.stsDesc la d a e, Space.spad), (.stgDesc la d a e, .dev)], s.issues p.1 = true →
      ∀ q, s.plan p.2 .store 1 false (s.laneAddrs p.2 a (ofsOf e)) = .ok q → q.rejected = [] → plain s q.sites →
      (∀ x ∈ q.sites, isForeign x.key = false) →
      ∃ t, exec p.1 s = .next t ∧ { t with lines := s.lines, tlb := s.tlb } = s ∧
        (∀ pre x post, q.sites = pre ++ x :: post → (∀ y ∈ post, lineOf y.key ≠ lineOf x.key) →
          lineDesc t.lines x.key = (inA s d x.lane).setWidth 16 ∧ (lineMeta t.lines x.key).extractLsb' 16 12 = s.tag) ∧
        (∀ k, (∀ x ∈ q.sites, lineOf x.key ≠ lineOf k) → lineMeta t.lines k = lineMeta s.lines k)

/-- R129-R132, R146: an atomic that passes its checks performs its lanes in ascending order; with RET the old values pend. -/
def Obligations.AtomicsUpdateMemoryLaneByLane : Prop :=
  ∀ (s : State) (la : BitVec 4) (d a : VCode) (m : Bool) (e : AtomExt), (e.ra = false ∨ (e.op ≠ 12 ∧ e.op ≠ 13)) →
    ∀ p ∈ atomWords la d a m e, s.issues p.1 = true →
      ∀ q, s.plan p.2 .atomic (atomSize e.op) true (s.laneAddrs p.2 a e.ofs.toInt) = .ok q → q.rejected = [] → plain s q.sites →
      ((p.2 = .spad ∨ p.2 = .clus) → overlapping q.sites = []) → (d = 108 ∨ d.toNat < 104) →
      let run := atomRun e.op (atomSize e.op) (atomNumber s e.op d) q.sites s.mem
      ∃ t, exec p.1 s = .next t ∧ t.mem = run.1 ∧
        { t with mem := s.mem, lines := s.lines, fresh := s.fresh, tlb := s.tlb
                 sh := { t.sh with loads := s.sh.loads, windows := s.sh.windows, far := s.sh.far } } = s ∧
        (e.ret = false ∨ q.sites = [] → t.sh.loads = s.sh.loads) ∧
        (e.ret = true → q.sites ≠ [] → ∃ l, t.sh.loads = s.sh.loads ++ [l] ∧ l.atomic = true ∧ l.waits = 0 ∧
          (d.toNat < 104 → l.dest.map Prod.fst = (List.range (atomBack e.op)).map (d.toNat + ·) ∧
            ∀ r ∈ l.dest, ∀ o ∈ run.2, laneOf r.2 o.1 = BitVec.ofNat 32 (o.2 / 2 ^ (32 * (r.1 - d.toNat)))))

/-- R118, R62: an access with a lane out of range traps RANGE with those lanes, and else one with a misaligned lane traps ALIGN
with those; nothing is performed. R117, R62-R67: the address of a lane in each space, and where the pieces of an access that passes
its checks lie. That a bin's sheaf has no mate is the model's choice (LOG 23), and that a module some route reaches takes every
access until it reports otherwise is PRESUMED (LOG 17). -/
def Obligations.AccessesTrapRangeBeforeAlign : Prop :=
  (∀ (s : State) (a : VCode) (ofs : Int) (l : Nat), l < 64 →
    (∀ sp ∈ [Space.priv, .spad, .clus], (s.laneAddr sp a ofs l : Int) = ((inA s a l).toInt + ofs) % 2 ^ 32) ∧
    (∀ sp ∈ [Space.dev, .peer, .host], (s.laneAddr sp a ofs l : Int) = ((s.sh.rd.src64 a l).toInt + ofs) % 2 ^ 64)) ∧
  (∀ (s : State) (sp : Space) (acc : Access) (w : BitVec 3) (ps : List (Nat × Nat)) (q : Plan), w ≠ 7 →
    s.plan sp acc (widthBytes w) true ps = .ok q →
    (∀ y ∈ q.sites, ∃ p ∈ ps, y.lane = p.1 ∧ y.off + y.len ≤ widthBytes w ∧ liesAt s sp acc p y) ∧
    (∀ p ∈ ps, p.1 ∉ q.rejected → ∀ j < widthBytes w, ∃ y ∈ q.sites, y.lane = p.1 ∧ y.off ≤ j ∧ j < y.off + y.len ∧ liesAt s sp acc p y) ∧
    (sp = .peer → ∀ p ∈ ps, (∀ k, ¬ peerTakes s acc.writes p.2 k) → p.1 ∈ q.rejected)) ∧
  ∀ (s : State) (la : BitVec 4) (w : BitVec 3) (d a : VCode) (e : Option MemExt) (g : Machine.Group), canTrap s → s.sh.snap = none →
    s.myGroup = some g → w ≠ 7 →
    let off := fun (l : Nat) => ((inA s a l).toInt + ofsOf e) % 2 ^ 32
    let dev := fun (l : Nat) => ((s.sh.rd.src64 a l).toInt + ofsOf e) % 2 ^ 64
    ∀ p ∈ [(Instr.lds la w d a e, off, (g.spadLen : Int)), (.sts la w d a e, off, (g.spadLen : Int)),
        (.ldg la w d a e, dev, 2 ^ 48), (.stg la w d a e, dev, 2 ^ 48)], s.issues p.1 = true →
      let far := fun (l : Nat) => p.2.2 ≤ p.2.1 l
      let odd := fun (l : Nat) => p.2.1 l % (widthBytes w : Int) ≠ 0
      ((∃ l < 64, s.sh.em.getLsbD l = true ∧ far l) → ∃ t x, exec p.1 s = .next t ∧ t.sh.trcause = 0x19 ∧ t.sh.trmask = x ∧
        t.sh.hnd = true ∧ t.mem = s.mem ∧ t.sh.loads = [] ∧ ∀ l, l < 64 → (x.getLsbD l = true ↔ s.sh.em.getLsbD l = true ∧ far l)) ∧
      ((∀ l < 64, s.sh.em.getLsbD l = true → ¬ far l) → (∃ l < 64, s.sh.em.getLsbD l = true ∧ odd l) →
        ∃ t x, exec p.1 s = .next t ∧ t.sh.trcause = 0x18 ∧ t.sh.trmask = x ∧ t.sh.hnd = true ∧ t.mem = s.mem ∧ t.sh.loads = [] ∧
          ∀ l, l < 64 → (x.getLsbD l = true ↔ s.sh.em.getLsbD l = true ∧ odd l))

/-- R135, R138: in repeatable mode a store of any space but private is buffered, a line in error or not: memory is untouched, and the
sheaf's own loads see it. -/
def Obligations.RepeatableStoresAreBuffered : Prop :=
  ∀ (s : State) (la : BitVec 4) (w : BitVec 3) (d a : VCode) (m : Bool) (e : Option MemExt), s.repeatable = true → s.weak = [] →
    s.parking = [] → uncountedAccess s → ∀ p ∈ storeWords la w d a m e, p.2 ≠ .priv →
    s.issues p.1 = true → w ≠ 7 → ∀ q, s.plan p.2 .store (widthBytes w) true (s.laneAddrs p.2 a (ofsOf e)) = .ok q →
      q.rejected = [] → still s q.sites → ∃ t, exec p.1 s = .next t ∧ t.mem = s.mem ∧ t.lines = s.lines ∧
        (∀ pre x post, q.sites = pre ++ x :: post → (∀ y ∈ post, ∀ k, inSite x k → ¬ inSite y k) →
          leNat (t.see x.key x.len) = storedNumber s w d x.lane / 256 ^ x.off % 256 ^ x.len)

namespace Sys2Proof.Rules

open Sys2Proof Sys2Proof.Machine

/-! ### Waits, copies, barriers, paced groups, scopes (R53, R148-R180, R384-R423) -/

/-- A fence is done: every earlier access has been performed, and nothing that host or peer memory took can be turned away any more
(R120), which an acquire alone (`acq`) does not ask for. -/
def fenced (acq : Bool) (s : State) : State := { s with sh := { s.sh with far := if acq then s.sh.far else [] } }

/-- A CPYB has closed the open batch on `u` (R152, R153, R171): its number in both promises, and one promise for both events
of an inbound batch. -/
def closedBatch (s u t : State) (sd : SCode) (scope : BitVec 3) (ring : Option Nat) (p0 p1 : DWord) : Prop :=
  t = { u with
    fresh := s.fresh + 2
    sh := { s.sh with
      batches := s.sh.batches ++
        [Batch.of s.sh.nextBatch scope ring s.sh.openCpys s.sh.openOut s.sh.openProg p0 p1 s.gtc]
      openCpys := []
      openProg := CopyProg.zero
      openOut := false
      nextBatch := s.sh.nextBatch + 1
      regs := if sd = 0 then s.sh.regs else (s.sh.regs.setS sd p0).setS (sd + 1) p1 } } ∧
  p0.extractLsb' 56 8 = s.sh.nextBatch ∧ p1.extractLsb' 56 8 = s.sh.nextBatch ∧
  (s.sh.openOut = false → p1 = p0)

/-- A barrier after an arrival (R384): the first of a phase starts its timer, the last stops it (R386). -/
def arrived (l : Nat) (y : Barrier) : Barrier :=
  if y.arr + 1 = y.exp then { y with phase := y.phase + 1, arr := 0, set := 0, timer := none }
  else { y with arr := y.arr + 1, set := y.set ||| BitVec.ofNat 32 (2 ^ l), timer := some (y.timer.getD 0) }

/-- The sheaf may arrive at a barrier of its group (R389). -/
def mayArrive (s : State) (b : BitVec 9) (x : Barrier) : Prop :=
  s.barrier b = some x ∧ x.live = true ∧ x.set.getLsbD s.sh.lsheaf.toNat = false ∧ x.exp ≠ 0

/-- The word BARST reads (R383). -/
def barrierWord (x : Barrier) : DWord :=
  BitVec.ofNat 64 ((if x.live then 2 ^ 63 else 0) + (if x.canc then 2 ^ 62 else 0) + x.exp % 64 * 2 ^ 54 + x.arr % 64 * 2 ^ 48 +
    x.phase.toNat * 2 ^ 32 + x.set.toNat)

/-- What a signal becomes (R396). -/
def signalRule (op : BitVec 2) (old x : Nat) : Nat := if op = 0 then x else if op = 1 then (old + x) % 2 ^ 64 else max old x

/-- When a WAITSIG ends (R396). -/
def signalHolds (op : BitVec 2) (old x : Nat) : Prop := (op = 0 ∧ x ≤ old) ∨ (op = 1 ∧ old = x) ∨ (op ≠ 0 ∧ op ≠ 1 ∧ old ≠ x)

/-- The program's transfer request, which yields to one of the firmware (R432). -/
def asks (s : State) (r : Option XferReq) : State :=
  { s with sh := { s.sh with request := if s.sh.request.any XferReq.firmware then s.sh.request else r } }

/-- What a completing transfer leaves at a location that its map does not name (R429): em, %mode and %fpflags as they were, zero
elsewhere. -/
def unnamed (h : Sheaf) (c : Nat) : LocVal :=
  if c = 200 ∨ c = 201 ∨ c = 202 then h.loc c else if c < 108 then .row Row.zero else .num 0

/-- The records of a SPAWN, one for each lane in lane order, the last one marked (R399). -/
def spawned (s : State) (node : Nat) (a : VCode) (len : Nat) : List Event :=
  (lanesOf s.sh.em).map fun l =>
    .binRecordArrival (s.core / 64) s.sh.task node s.sh.scope ((List.range len).map fun j => laneOf (s.sh.rd.file (a.toNat + j)) l)
      s.sh.uid (decide (some l = (lanesOf s.sh.em).getLast?))

end Sys2Proof.Rules

open Sys2Proof Sys2Proof.Machine Sys2Proof.Rules

/-- R168, R171, R159, R151, R162: CPY appends its lanes' requests to the open batch, none to one that an error has stopped; CPYB closes
it and gives its promises, or stalls while its ring is full. A CPY's requests transfer by destination line, lanes in order within one; a
line of an inbound batch belongs to its first CPY with work left. -/
def Obligations.CopyWordsOpenAndCloseBatches : Prop :=
  (∀ (s : State) (la : BitVec 4) (route : BitVec 3) (size : BitVec 2) (a b : VCode), s.issues (.cpy la route size a b) = true →
    let n := match size.toNat with | 0 => 4 | 1 => 8 | 2 => 16 | _ => 64
    let src := fun l => s.laneAddr (routeSrc route) a 0 l
    let dst := fun l => s.laneAddr (routeDst route) b 0 l
    let reqs := (lanesOf s.sh.em).map fun l =>
      ({ route := route, size := n, src := s.copyAddr (routeSrc route) (src l), dst := s.copyAddr (routeDst route) (dst l) } : CopyReq)
    let work := if s.sh.openProg.status = 0 then reqs else []
    let spans := copySpans s.sh.uid s.fresh (if routeOut route then .read else .write) n
      (work.map fun r => if routeOut route then r.src else r.dst)
    (∀ l, l < 64 → s.sh.em.getLsbD l = true →
      s.inRange (routeSrc route) (l, src l) = true ∧ s.inRange (routeDst route) (l, dst l) = true ∧
        spadOff (routeSrc route) (src l) % n = 0 ∧ spadOff (routeDst route) (dst l) % n = 0) →
    (∀ r ∈ reqs, s.touchesRing r.src n = false ∧ s.touchesRing r.dst n = false) → s.scoreboardFull spans = false →
    exec (.cpy la route size a b) s =
      .next { s with
        fresh := s.fresh + 1
        sh := { s.sh with
          openCpys := s.sh.openCpys ++ [{ sid := s.fresh, reqs := transferOrder work, held := [] }]
          openOut := s.sh.openOut || (routeOut route && decide (reqs ≠ [])) }
        scoreboard := s.scoreboard ++ spans }) ∧
  (∀ (s : State) (sd sr : SCode) (scope : BitVec 3), s.repeatable = false →
    (s.issues (.cpyb sd scope) = true → ∃ t p0 p1, exec (.cpyb sd scope) s = .next t ∧ closedBatch s s t sd scope none p0 p1) ∧
    (s.issues (.cpybRing sd sr scope) = true → ∀ r, s.ringName (s.sh.rd.getS sr) = .ok r →
      (r.fill + r.reserved = r.slots → exec (.cpybRing sd sr scope) s = .next (waitsAt s (.cpybRing sd sr scope) none)) ∧
      (r.fill + r.reserved ≠ r.slots → ∃ t p0 p1, exec (.cpybRing sd sr scope) s = .next t ∧
        closedBatch s (s.onRing s.sh.group r.off fun q => { q with reserved := q.reserved + 1 }) t sd scope (some r.off) p0 p1))) ∧
  (∀ rs : List CopyReq, (transferOrder rs).Perm rs ∧ (transferOrder rs).Pairwise (fun x y => x.dst / 64 ≤ y.dst / 64) ∧
    ∀ line, (transferOrder rs).filter (fun r => r.dst / 64 = line) = rs.filter fun r => r.dst / 64 = line) ∧
  (∀ (s t : State) (shut : Bool) (b b' : Batch) (k : Nat) (c : Cpy), s.repeatable = false → b.outbound = false →
    s.lineStep shut false b = some (t, b') → (∀ j x, j < k → b.cpys[j]? = some x → x.reqs = []) → b.cpys[k]? = some c → c.reqs ≠ [] →
    b'.prog.status = 0 → ∀ j, j ≠ k → b'.cpys[j]? = b.cpys[j]?)

/-- R157, R177: RINIT makes a ring, RWAIT reads its oldest record, RREL releases records, RFIN retires the ring, where no line holds
an error. -/
def Obligations.RingWordsKeepTheRing : Prop :=
  ∀ (s : State) (sa sb : SCode) (n : BitVec 8), s.badLines = [] → s.weak = [] →
    let x := (s.sh.rd.getS sa).toNat
    let hi := x + 16 + 8 * n.toNat
    (s.issues (.rinit sa sb n) = true → ∀ g, s.myGroup = some g → x < 2 ^ 20 → x < g.spadLen → x % 16 = 0 → hi ≤ g.spadLen →
      g.rings.length < 32 → (∀ r ∈ g.rings, hi ≤ r.off ∨ r.off + 16 + 8 * r.slots ≤ x) →
      ∃ t, exec (.rinit sa sb n) s = .next t ∧ scalRegs s.sh.regs sb (BitVec.ofNat 64 hi) t.sh.regs ∧
        { t with sh := { t.sh with regs := s.sh.regs } } = s.onGroup g.gid fun k =>
          { k with rings := k.rings ++ [{ off := x, slots := n.toNat, rd := 0, wr := 0, fill := 0, reserved := 0 }] }) ∧
    ∀ r, s.ringName (s.sh.rd.getS sa) = .ok r →
      (s.issues (.rwait sa sb n) = true → s.repeatable = false → n.toNat ≤ r.slots →
        (n.toNat ≤ r.fill → ∃ t, exec (.rwait sa sb n) s = .next t ∧ onlyRegs s t ∧ scalRegs s.sh.regs sb
          (if r.fill = 0 then 0 else BitVec.ofNat 64 (readLE s.mem (s.myKey (r.off + 16 + 8 * r.rd)) 8)) t.sh.regs) ∧
        (r.fill < n.toNat → exec (.rwait sa sb n) s = .next (waitsAt s (.rwait sa sb n) none))) ∧
      (s.issues (.rrel sa sb n) = true → n.toNat ≤ r.fill → ∃ t, exec (.rrel sa sb n) s = .next t ∧
        scalRegs s.sh.regs sb (BitVec.ofNat 64 (r.fill - n.toNat)) t.sh.regs ∧
        { t with sh := { t.sh with regs := s.sh.regs } } = s.onRing s.sh.group r.off fun q =>
          { q with rd := (q.rd + n.toNat) % q.slots, fill := q.fill - n.toNat }) ∧
      (s.issues (.rfin sa sb) = true → r.reserved = 0 → s.memOk → ∃ t, exec (.rfin sa sb) s = .next t ∧
        scalRegs s.sh.regs sb (BitVec.ofNat 64 r.fill) t.sh.regs ∧
        { t with sh := { t.sh with regs := s.sh.regs }, mem := s.mem, lines := s.lines } =
          (s.onGroup s.sh.group fun g => { g with rings := g.rings.filter (·.off ≠ r.off) }) ∧
        readLE t.mem (s.myKey r.off) 16 =
          (r.rd + r.wr * 2 ^ 8 + r.fill * 2 ^ 16 + r.slots * 2 ^ 24 + 2 * 2 ^ 32) % 2 ^ 128 ∧
        ∀ k, (k < s.myKey r.off ∨ s.myKey r.off + 16 ≤ k) → readByte t.mem k = readByte s.mem k)

/-- R180: PUB waits for the outbound batches and the parked writes, then swaps its region; a swap of a page toggles PSEL
between 2 and 3 in its entry and changes no other byte. That all pages of the region swap in the one step is the model's reading of
R180 (LOG 27). -/
def Obligations.PubSwapsThePagesOfItsRegion : Prop :=
  (∀ (s : State) (n : BitVec 9) (scope : BitVec 3) (k : Task), s.issues (.pub n scope) = true → s.repeatable = false →
    s.taskOf s.sh = some k → n.toNat < k.regions.length →
    ((∀ b ∈ s.sh.batches, b.outbound = false) → s.parkedMine = false →
      exec (.pub n scope) s = .next (s.swapRegion s.sh.task n.toNat)) ∧
    ((∃ b ∈ s.sh.batches, b.outbound = true) ∨ s.parkedMine = true →
      exec (.pub n scope) s = .next (waitsAt s (.pub n scope) none))) ∧
  (∀ (s : State) (tag : BitVec 12) (va : Nat) (m : Mapped), s.memOk → s.badLines = [] → s.weak = [] → s.xlat tag va .load = .ok m →
    (m.psel ≠ 2 → m.psel ≠ 3 → s.swapPage tag va = s) ∧
    (m.psel = 2 ∨ m.psel = 3 → readByte (s.swapPage tag va).mem m.pte = readByte s.mem m.pte ^^^ 0x40#8 ∧
      (∀ k, k ≠ m.pte → readByte (s.swapPage tag va).mem k = readByte s.mem k) ∧
      { s.swapPage tag va with mem := s.mem, lines := s.lines } = s))

/-- R293, R288, R289, R296, R298, R299, R283: the matrix words. -/
def Obligations.MatrixWordsActOnTheirAccumulator : Prop :=
  ∀ (s : State) (la : BitVec 4) (d : VCode) (sa sb : SCode),
    let c := s.sh.mcfg
    let r := s.sh.rd
    (s.issues (.mcfg sa) = true → cfgOk (r.getS sa) = true →
      exec (.mcfg sa) s = .next { s with sh := { s.sh with mcfg := r.getS sa } }) ∧
    (s.issues (.mloop la d sa sb) = true →
      let n := loopSteps r c sa sb
      let ops := (if cfgASrc c then [] else [s.opSpan (r.getS sa) (r.getS (sa + 1)) n d.toNat]) ++
        (if cfgBSrc c then [] else [s.opSpan (r.getS sb) (r.getS (sb + 1)) n d.toNat])
      ∀ es : List SbEntry, ops = es.map Except.ok → s.scoreboardFull es = false → s.coreLoops < 8 →
      ∃ t l, exec (.mloop la d sa sb) s = .next t ∧ t.sh.loops = s.sh.loops ++ [l] ∧ t.scoreboard = s.scoreboard ++ es ∧
        l.cfg = c ∧ l.a0 = r.getS sa ∧ l.a1 = r.getS (sa + 1) ∧ l.b0 = r.getS sb ∧ l.b1 = r.getS (sb + 1) ∧ l.d = d.toNat ∧
        l.mode = r.mode.setWidth 13 ∧ l.steps = n ∧ l.nextK = 0 ∧ l.exc = 0 ∧ l.cvt = [] ∧
        { t with scoreboard := s.scoreboard, sh := { t.sh with loops := s.sh.loops, windows := s.sh.windows } } = s) ∧
    (s.issues (.mcvt d) = true →
      ((∃ l ∈ s.sh.loops, l.d = d.toNat) → exec (.mcvt d) s = .next { s with sh := { s.sh with loops := s.sh.loops.map fun l =>
        if l.d = d.toNat then { l with cvt := l.cvt ++ [(s.sh.latch.word, s.sh.latch.slot, c, r.mode.setWidth 13)] } else l } }) ∧
      ((∀ l ∈ s.sh.loops, l.d ≠ d.toNat) → ∃ t, exec (.mcvt d) s = .next t ∧
        { t with sh := { t.sh with regs := s.sh.regs, fpflags := s.sh.fpflags, pend := s.sh.pend } } = s ∧
        (cfgAcc c = 0 → d.toNat + 16 ≤ 96 →
          let md := FMode.of ((r.mode.setWidth 13).setWidth 64)
          let one := fun (j i : Nat) => convFF f32 (ofmtOf c) md (laneOf (s.sh.regs.file (d.toNat + j)) i).toNat
          (∀ k i, k < 104 → i < 64 → laneOf (t.sh.regs.file k) i =
            if d.toNat ≤ k ∧ k < d.toNat + 16 then BitVec.ofNat 32 (one (k - d.toNat) i).val else laneOf (s.sh.regs.file k) i) ∧
          (∀ k, k < 5 → (t.sh.fpflags.getLsbD k = true ↔
            s.sh.fpflags.getLsbD k = true ∨ ∃ j < 16, ∃ i < 64, (one j i).exc.getLsbD k = true))))) ∧
    (s.issues (.mzero d) = true → d.toNat + accSize c ≤ 96 → ∃ t, exec (.mzero d) s = .next t ∧
      (∀ k i, k < 104 → i < 64 → laneOf (t.sh.regs.file k) i =
        if d.toNat ≤ k ∧ k < d.toNat + accSize c then
          (if cfgSemi c = 1 then 0x7F800000 else if cfgSemi c = 2 then 0xFF800000 else 0)
        else laneOf (s.sh.regs.file k) i) ∧
      t.sh.regs.w = s.sh.regs.w ∧ sameScalars s.sh.regs t.sh.regs ∧
      (∀ j : Fin 2, t.sh.latches[j] = if s.sh.latches[j].valid = true ∧ s.sh.latches[j].vd = d.toNat then
          { s.sh.latches[j] with valid := false, vd := 0 } else s.sh.latches[j]) ∧
      { t with sh := { t.sh with regs := s.sh.regs, latches := s.sh.latches } } = s) ∧
    (s.issues (.mwait d) = true → s.repeatable = false →
      ((if d = 108 then s.sh.loops = [] else ∀ l ∈ s.sh.loops, l.d ≠ d.toNat) → exec (.mwait d) s = .next s) ∧
      (¬ (if d = 108 then s.sh.loops = [] else ∀ l ∈ s.sh.loops, l.d ≠ d.toNat) →
        exec (.mwait d) s = .next (waitsAt s (.mwait d) none)))

/-- R339, R341, R473: a fence completes once every load and atomic before it has its value and nothing of the sheaf is parked, and
holds its sheaf until then; QEND has no effect outside repeatable mode. In repeatable mode each ends the quantum and waits, and
completes after the commit under the same condition. That nothing but fixed values and parked writes is left to order, so that a
fence then completes at once, is the model's choice (LOG 6). -/
def Obligations.FencesAndQendHoldTheirSheaf : Prop :=
  (∀ (s : State) (kind : BitVec 2) (scope : BitVec 3), s.repeatable = false →
    (s.issues .qend = true → exec .qend s = .next s) ∧
    ∀ p ∈ [(Instr.fence kind scope, decide (kind = 1)), (.fencesc scope, false)], s.issues p.1 = true →
      (s.valuesFixed = true → s.parkedMine = false → exec p.1 s = .next (fenced p.2 s)) ∧
      (s.valuesFixed = false ∨ s.parkedMine = true → exec p.1 s = .next (waitsAt s p.1 none))) ∧
  (∀ (s : State) (kind : BitVec 2) (scope : BitVec 3), s.repeatable = true →
    ∀ p ∈ [(Instr.fence kind scope, decide (kind = 1)), (.fencesc scope, false), (.qend, true)],
    (s.issues p.1 = true → exec p.1 s = .next { s with sh := { (waitsAt s p.1 none).sh with quantumDone := true } }) ∧
    (s.sh.wait = some { instr := p.1, token := none } → s.valuesFixed = true → s.parkedMine = false →
      exec p.1 s = .next (fenced p.2 (waitOver s)))) ∧
  (∀ s : State, s.valuesFixed = true ↔ (∀ l ∈ s.sh.loads, l.waits = 0) ∧
    ∀ w ∈ s.parking, w.sheaf = s.sh.uid → w.batch = none → ∀ o ∈ w.ops, ∀ va op x ret lane word, o ≠ .atom va op x ret lane word)

/-- R382-R389: the barrier words of a sheaf whose preconditions hold, outside repeatable mode. -/
def Obligations.BarrierWordsArriveAndWait : Prop :=
  ∀ (s : State) (b : BitVec 9) (d : SCode) (scope : BitVec 3) (x : Barrier), s.barrier b = some x → s.repeatable = false →
    let n := (s.sh.rd.getS d).toNat
    let put := fun (f : Barrier → Barrier) => s.onBarrier s.sh.group b.toNat f
    let complete := x.arr + 1 = x.exp
    (s.issues (.barinit b d) = true → 1 ≤ n → n ≤ 32 → x.live = false → exec (.barinit b d) s = .next (put fun _ =>
      { live := true, canc := false, exp := n, arr := 0, phase := 0, set := 0, timer := none })) ∧
    (mayArrive s b x → s.parkedMine = false → (complete → uncounted s 12) →
      (s.issues (.bararv b d scope) = true → ∃ t, exec (.bararv b d scope) s = .next t ∧
        scalRegs s.sh.regs d (x.phase.setWidth 64) t.sh.regs ∧
        { t with sh := { t.sh with regs := s.sh.regs } } = put (arrived s.sh.lsheaf.toNat)) ∧
      (s.issues (.barsyn b scope) = true →
        (complete → exec (.barsyn b scope) s = .next (put (arrived s.sh.lsheaf.toNat))) ∧
        (¬ complete → exec (.barsyn b scope) s =
          .next (waitsAt (put (arrived s.sh.lsheaf.toNat)) (.barsyn b scope) (some x.phase.toNat))))) ∧
    (s.issues (.barwt b d scope) = true → x.live = true →
      (x.phase ≠ (s.sh.rd.getS d).setWidth 16 → exec (.barwt b d scope) s = .next s) ∧
      (x.phase = (s.sh.rd.getS d).setWidth 16 → exec (.barwt b d scope) s = .next (waitsAt s (.barwt b d scope) none))) ∧
    (s.issues (.barfin b) = true → x.live = true → uncounted s 12 → exec (.barfin b) s = .next (put fun y =>
      { y with live := false, phase := y.phase + 1, arr := 0, set := 0, timer := none })) ∧
    (s.issues (.barst b d) = true → ∃ t, exec (.barst b d) s = .next t ∧ onlyRegs s t ∧
      scalRegs s.sh.regs d (barrierWord x) t.sh.regs)

/-- R404, R407, R408, R413, R190: the words of a paced group, outside repeatable mode. -/
def Obligations.PacedWordsMarkStepsAndSlots : Prop :=
  (∀ (s : State) (b : BitVec 5) (g : Machine.Group), s.paced s.sh = true → s.repeatable = false → s.myGroup = some g →
    let t := g.step
    (s.issues .stepend = true → s.stepDead t = none → s.parkedMine = false → ∃ u, exec .stepend s = .next u ∧
      u.groups = (s.onGroup s.sh.group fun k => { k with arrived := k.arrived ||| BitVec.ofNat 32 (2 ^ s.sh.lsheaf.toNat) }).groups ∧
      u.sh = (waitsAt s .stepend (some t)).sh ∧ { u with groups := s.groups, agenda := s.agenda, sh := s.sh } = s) ∧
    (∀ k, s.sh.wait = some { instr := .stepend, token := some k } → k < t → exec .stepend s = .next (waitOver s)) ∧
    ∀ x, g.tileSlot b.toNat t = some x →
      (s.issues (.tbwait b) = true → x.full = false → x.step = t % 2 ^ 48 → exec (.tbwait b) s = .next s) ∧
      (s.issues (.tbfull b) = true → x.full = false → x.step = t % 2 ^ 48 → s.parkedMine = false →
        exec (.tbfull b) s = .next (s.onSlot g.gid b.toNat t fun y z => z.mark y (s.consumers g b.toNat) t))) ∧
  (∀ (s : State) (b : BitVec 5) (a : SCode) (sel : BitVec 2) (q : Machine.Group) (x : TileSlot), s.paced s.sh = true →
    s.repeatable = false → s.issues (.tbempty b a sel) = true →
    let t := s.stepSel sel
    (s.sh.rd.getS a).toNat < 8 → 0 ≤ t → t < 2 ^ 48 →
    (s.myGroup.bind fun g => (s.dependences g).find? (·.paced = (s.sh.rd.getS a).toNat)) = some q →
    q.tileSlot b.toNat t.toNat = some x → x.full = true → x.step = t.toNat → x.pend ≠ 0 →
    (∀ l ∈ s.sh.loads, ∀ k ∈ l.slots, k.1 = q.gid → k.2.1 ≠ b.toNat) →
    exec (.tbempty b a sel) s = .next (s.onSlot q.gid b.toNat t.toNat TileSlot.release)) ∧
  (∀ (y : TileBuf) (z : TileSlot) (n : Nat), z.step < 2 ^ 48 →
    (z.full = false → TileSlot.mark y z n z.step =
      if n = 0 then { full := false, pend := 0, step := (z.step + y.count) % 2 ^ 48 } else { full := true, pend := n, step := z.step }) ∧
    (z.full = true → z.pend ≠ 0 → TileSlot.release y z =
      if z.pend = 1 then { full := false, pend := 0, step := (z.step + y.count) % 2 ^ 48 } else { z with pend := z.pend - 1 }))

/-- R399, R395, R396: SPAWN sends a record a lane, DEPDEC a decrement a lane, SIGNAL performs its operation once, WAITSIG ends
when its condition holds. -/
def Obligations.TaskWordsSendTheirRecords : Prop :=
  ∀ (s : State) (sa sb : SCode) (a : VCode) (len : BitVec 6) (sp op : BitVec 2) (scope : BitVec 3), s.repeatable = false →
    (∀ k, s.issues (.spawn sa a len) = true → s.taskOf s.sh = some k → (s.sh.rd.getS sa).toNat < k.nodes.length →
      (s.sh.em = 0 → exec (.spawn sa a len) s = .next s) ∧
      (s.sh.em ≠ 0 → exec (.spawn sa a len) s = .next { s with
        sh := { s.sh with spawns := s.sh.spawns + 1 }
        tasks := s.tasks.map fun t => if t.tid = s.sh.task then { t with sent := t.sent + (lanesOf s.sh.em).length } else t
        agenda := s.agenda ++ spawned s (s.sh.rd.getS sa).toNat a len.toNat })) ∧
    (∀ q, s.issues (.depdec a) = true → s.plan .dev .atomic 32 true (s.laneAddrs .dev a 0) = .ok q → q.rejected = [] →
      plain s q.sites → exec (.depdec a) s = .next { lookedUp s q.sites with
        agenda := s.agenda ++ q.sites.map fun x =>
          .dependenceDecrement s.tag s.sh.task ⟨BitVec.ofNat 64 x.va, x.key⟩ s.sh.scope s.sh.uid }) ∧
    (∀ q x r, s.issues (.signal sa sp scope op sb) = true → s.signalPlan .atomic sp sa = .ok q → q.sites = x :: r →
      plain s q.sites → s.memOk → ∃ t, exec (.signal sa sp scope op sb) s = .next t ∧
        { butFar s t with mem := s.mem, lines := s.lines } = s ∧
        readLE t.mem x.key 8 = signalRule op (readLE s.mem x.key 8) (s.sh.rd.getS sb).toNat ∧
        ∀ k, (k < x.key ∨ x.key + 8 ≤ k) → readByte t.mem k = readByte s.mem k) ∧
    (∀ q x r, s.issues (.waitsig sa sp scope op sb) = true → s.signalPlan .load sp sa = .ok q → q.sites = x :: r →
      plain s q.sites →
      (signalHolds op (readLE s.mem x.key 8) (s.sh.rd.getS sb).toNat → exec (.waitsig sa sp scope op sb) s = .next (lookedUp s q.sites)) ∧
      (¬ signalHolds op (readLE s.mem x.key 8) (s.sh.rd.getS sb).toNat →
        exec (.waitsig sa sp scope op sb) s = .next (waitsAt (lookedUp s q.sites) (.waitsig sa sp scope op sb) none)))

/-- R414-R419, R423: CSOPEN opens a child with the lowest free ID and enters it, CSCLOSE leaves the scope, CANCEL has the sheaves of
a live subtree killed and is nothing for a scope that is not live, CWAIT reads the count word once the subtree is retired or quiescent.
R397, R419: that a subtree in which no repeatable task runs is quiescent once every sample of at least 500 ns found it idle is the
model's reading (LOG 23). -/
def Obligations.ScopeWordsMoveThroughTheTree : Prop :=
  ∀ (s : State) (a d : SCode) (c : Context), s.context s.tag = some c → s.repeatable = false →
    (∀ p, s.issues (.csopen d) = true → c.scope s.sh.scope = some p → p.life = .live → p.depth < 15 → ∀ id, c.freeScope = some id →
      ∃ t, exec (.csopen d) s = .next t ∧ t.sh.scope = id ∧ scalRegs s.sh.regs d (id.setWidth 64) t.sh.regs ∧
        { t with contexts := s.contexts, sh := { t.sh with scope := s.sh.scope, regs := s.sh.regs } } = s ∧
        (∀ c', t.context s.tag = some c' → ∃ x, c'.scope id = some x ∧ x.parent = s.sh.scope ∧ x.depth = p.depth + 1 ∧
          x.life = .live ∧ x.isOpen = true) ∧
        id ≠ 0 ∧ c.scopeHeld id = false ∧ ∀ j, 1 ≤ j → j < id.toNat → c.scopeHeld (BitVec.ofNat 16 j) = true) ∧
    (∀ x, s.issues .csclose = true → c.scope s.sh.scope = some x → s.sh.scope ≠ s.sh.baseScope →
      ∃ t, exec .csclose s = .next t ∧ t.sh = { s.sh with scope := x.parent } ∧
        { t with contexts := s.contexts, sh := s.sh } = s ∧
        ∀ c' y, t.context s.tag = some c' → c'.scope s.sh.scope = some y → y.isOpen = false) ∧
    (∀ x, s.issues (.cancel a) = true → let id := (s.sh.rd.getS a).extractLsb' 0 16
      (s.sh.rd.getS a).extractLsb' 16 48 = 0 → id ≠ 0 → c.scope id = some x →
      (x.life ≠ .live → exec (.cancel a) s = .next s) ∧
      (x.life = .live → ∃ t, exec (.cancel a) s = .next t ∧ t.mem = s.mem ∧ t.lines = s.lines ∧ t.sh.regs = s.sh.regs ∧
        (∀ h ∈ s.sheaves, h.life = .live → s.tagOf h = s.tag → c.under id h.scope = true → .sheafKill h.uid ∈ t.agenda) ∧
        ∀ c' y, t.context s.tag = some c' → y ∈ c'.scopes → c.under id y.id = true → y.life ≠ .live)) ∧
    (s.issues (.cwait a d) = true → let id := (s.sh.rd.getS a).extractLsb' 0 16
      (s.sh.rd.getS a).extractLsb' 16 48 = 0 → c.under id s.sh.scope = false →
      let done := ∀ x, c.scope id = some x → x.life = .retired ∨ s.quiet s.tag x = true
      (done → ∃ t, exec (.cwait a d) s = .next t ∧ onlyRegs s t ∧ scalRegs s.sh.regs d (s.countWord s.tag id) t.sh.regs) ∧
      (¬ done → exec (.cwait a d) s = .next (waitsAt s (.cwait a d) none))) ∧
    ∀ x : Scope, s.commits s.tag x = false → (s.quiet s.tag x = true ↔ ∃ since, x.idle = some since ∧ since + 500 ≤ s.gtc.toNat)

/-- R431, R432, R438: SAFEPT does nothing without a request or with one whose conditions do not hold, waits while something is
pending, and completes one whose map reads: every location holds what the map or R429 gives it. XFER and XFER.clr set and clear a
program's request and leave one of the firmware. R232, R461: REP begins its repeats; HALT stops the other sheaves of its core and
reports the core as halted once they have drained. -/
def Obligations.TransferRepAndHaltWords : Prop :=
  ∀ (s : State),
    (∀ n, s.issues (.safept n) = true →
      (s.sh.request = none → exec (.safept n) s = .next s) ∧
      (∀ r, s.sh.request = some r → s.sh.asked = none →
        -- from here on the request is fixed (R432)
        let u := { s with sh := { s.sh with asked := some r } }
        (s.sh.pending = [] → s.sh.loops = [] → u.transfer n.toNat = .ok none → exec (.safept n) s = .next s) ∧
        (s.sh.pending ≠ [] ∨ s.sh.loops ≠ [] → s.transfer n.toNat = .ok none → exec (.safept n) s = .next s) ∧
        (∀ x, s.sh.pending ≠ [] ∨ s.sh.loops ≠ [] → s.transfer n.toNat = .ok (some x) →
          exec (.safept n) s = .next (waitsAt s (.safept n) (some (pendCode s.sh.pending)))) ∧
        (∀ x es xs, s.sh.pending = [] → s.sh.loops = [] → u.transfer n.toNat = .ok (some x) →
          u.readMap x (List.range x.count) = .ok es → u.sh.mapAll x [] 0 es [] = .ok xs → x.req = r →
          s.weak = [] → uncountedAccess s → still s ((u.mapReads n.toNat x).filterMap u.imageSite) →
          (∀ p ∈ xs, p.1 < 108 ↔ ∃ v, p.2 = .row v) →
          ∃ t, exec (.safept n) s = .next t ∧ t.sh.request = none ∧ t.sh.next = BitVec.ofNat 32 x.resume ∧
            t.sh.ver.extractLsb' 0 8 = r.ver.setWidth 8 ∧ t.sh.ver.extractLsb' 8 16 = s.sh.ver.extractLsb' 8 16 ∧
            t.sh.budget = r.budget ∧ t.mem = s.mem ∧ t.lines = s.lines ∧
            (∀ p ∈ xs, p.1 ≠ 128 → t.sh.loc p.1 = p.2) ∧
            (∀ c : Nat, c < 108 ∨ 128 ≤ c ∧ c < 203 → c ∉ xs.map Prod.fst → t.sh.loc c = unnamed s.sh c)))) ∧
    (∀ v r, s.issues (.xfer v) = true → s.lrec.flags.getLsbD 2 = true → s.mySlot v.toNat = some r → r.budget ≤ s.sh.budget →
      exec (.xfer v) s = .next (asks s (if v.toNat = s.sh.ver.toNat % 256 then none
        else some { ver := v, budget := s.sh.budget, firmware := false }))) ∧
    (s.issues .xferClr = true → s.lrec.flags.getLsbD 2 = true → exec .xferClr s = .next (asks s none)) ∧
    (∀ (n : BitVec 6) (d a b : Bool) (st : BitVec 2),
      let r : RepState := { count := n.toNat + 1, stepD := d, stepA := a, stepB := b, stride := 2 ^ st.toNat }
      s.issues (.rep n d a b st) = true → s.repCheck r = none → s.sh.rpResume = false →
      exec (.rep n d a b st) s = .next { s with sh := { s.sh with rep := some r, rpNext := 0, rpLast := 0, next := s.sh.pc } }) ∧
    (s.issues .halt = true → ∃ t, exec .halt s = .next t ∧ t.mem = s.mem ∧ t.lines = s.lines ∧ t.peers.length = s.peers.length ∧
      (∀ h ∈ t.peers, s.onCore s.core h = true → h.coreHalt = true) ∧
      ((∀ h ∈ t.peers, s.onCore s.core h = true → h.loads = []) →
        t.halted = s.halted ++ [(s.core, s.sh.uid)] ∧ t.sh.wait = some { instr := .halt, token := some 1 }) ∧
      ((∃ h ∈ t.peers, s.onCore s.core h = true ∧ h.loads ≠ []) →
        t.halted = s.halted ∧ t.sh.wait = some { instr := .halt, token := some 0 }))

namespace Sys2Proof.Rules

open Sys2Proof Sys2Proof.Machine

/-! ### Steps of other agents -/

/-- The registers of one virtual function have become `w`; those of the others are as before. -/
def fnIs (s t : State) (fn : Nat) (w : VirtFn) : Prop := t.fns[fn]? = some w ∧ ∀ f : Nat, f ≠ fn → t.fns[f]? = s.fns[f]?

/-- The next command of a queue, which may start; its ring lies in host memory, and no write of Iguana and no parked write is
outstanding (R365, R366, R368). -/
def nextIs (s : State) (fn q : Nat) (v : VirtFn) (k : Queue) (c : Context) (x : Command) : Prop :=
  s.fns[fn]? = some v ∧ v.queues[q]? = some k ∧ k.host = true ∧ s.queueContext fn q = some c ∧ s.nextCommand fn q = .some x ∧
    s.mayStart fn q x = true ∧ s.iwrites = [] ∧ s.parking = []

/-- Where a context reaches an address now, in a line without error (R66-R68, R90). -/
def reaches (s : State) (tag : BitVec 12) (va : Nat) (acc : Access) (m : Mapped) (k : Nat) : Prop :=
  s.xlat tag va acc = .ok m ∧ s.reach tag acc.writes m.key = some k ∧ lineOf k ∉ s.badLines

/-- The context's root table lies in device memory (R68). -/
def deviceRoot (s : State) (tag : BitVec 12) : Prop := s.root tag + 4096 ≤ 2 * spaceSize

/-- The command has been taken (R365-R367): its queue is `k'`, its slot of the ring holds its status and its times, and no byte
but those and the bytes of `also` has changed. -/
def taken (s t : State) (fn q : Nat) (v : VirtFn) (k k' : Queue) (status : Nat) (complete : Bool) (also : Nat → Prop) : Prop :=
  let a := hostKey fn (k.slot k.head)
  fnIs s t fn { v with queues := v.queues.setIfInBounds q k' } ∧
  readByte t.mem (a + 2) = BitVec.ofNat 8 status ∧ readLE t.mem (a + 0x20) 8 = s.gtc.toNat ∧
  (complete = true → readLE t.mem (a + 0x28) 8 = s.gtc.toNat) ∧
  ∀ j, j ≠ a + 2 → (j < a + 0x20 ∨ a + (if complete then 0x30 else 0x28) ≤ j) → ¬ also j → readByte t.mem j = readByte s.mem j

/-- The queue after a command that is complete, and after one that goes on (R365, R368). -/
def headOn (k : Queue) : Queue := { k with head := k.head + 1, running := k.running.filter (· ≠ k.head) }
def headRuns (k : Queue) : Queue := { k with head := k.head + 1, running := k.running ++ [k.head] }

/-- WAIT's condition (R366). -/
def waitRule (cond x v : Nat) : Prop := (cond = 0 ∧ v ≤ x) ∨ (cond = 1 ∧ x = v) ∨ (cond ≠ 0 ∧ cond ≠ 1 ∧ x ≠ v)

/-- The sheaf with this handle is the one in the issue slot,
and no other sheaf has its handle. -/
def alone (s : State) (uid : Nat) : Prop := s.sh.uid = uid ∧ ∀ p ∈ s.peers, p.uid ≠ uid

/-- A Newt holds no unplaced unit of a launch (R371). -/
def newtFree (s : State) (c : Nat) : Prop := ∃ k, s.clusters[c]? = some k ∧ ∀ j ∈ k.newt, ∀ a b n, j ≠ .groups a b n

/-- The sheaf may end its wait: live, resident, running, not parked, with nothing to issue anew after a restoration, outside repeatable
mode (R53, R336, R461, R469). -/
def wakes (s : State) : Prop :=
  s.sh.life = .live ∧ s.sh.parked = [] ∧ s.sh.saved = false ∧ s.sh.coreHalt = false ∧ s.sh.replays = [] ∧ s.sh.resumed = false ∧
    s.repeatable = false

/-- The group may advance (R404, R406, R409): every live sheaf has arrived, every dependence has finished the step, no dependent and no
group under the skew limit is too far behind, and its level-2 group is resident. -/
def mayAdvance (s : State) (g : Machine.Group) : Prop :=
  let goes := fun (q : Machine.Group) => s.groupExited q = false ∧ q.dead = false
  g.freed = false ∧ (∀ q ∈ s.mates g, q.saved = false) ∧ g.arrived ≠ 0 ∧
  (∀ h ∈ s.sheaves, h.group = g.gid → h.life = .live → g.arrived.getLsbD h.lsheaf.toNat = true) ∧
  (∀ q ∈ s.dependences g, match q.deathStep with
    | some d => g.step < d
    | none => g.step < q.step ∨ s.groupExited q = true ∧ q.dead = false ∧ g.step ≤ q.step) ∧
  (∀ b ∈ g.tiles, b.out = true → ∀ q ∈ s.dependents g, goes q → g.step + 2 ≤ q.step + b.count) ∧
  (let k := ((s.task g.task).map fun t => t.lrec.skew).getD 0
   k ≠ 0 → ∀ q ∈ s.mates g, goes q → g.step + 1 ≤ q.step + k)

/-- A context has ended, or is gone (R447). -/
def hasEnded (t : State) (tag : BitVec 12) : Prop := ∀ x, t.context tag = some x → x.ended = true

/-- No byte of a range lies in a line that holds an error. -/
def clean (s : State) (key n : Nat) : Prop := ∀ j < n, lineOf (key + j) ∉ s.badLines

/-- No page of device memory counts accesses or migrates (R80, R83). -/
def quietPages (s : State) : Prop := ∀ k p, s.pageOf k = some p → p.ce = false ∧ p.wb = false

/-- The bytes stand from `key` on; every other byte, and every descriptor, is as before. -/
def stored (s t : State) (key : Nat) (bs : List Byte) : Prop :=
  readBytes t.mem key bs.length = bs ∧ (∀ j, j < key ∨ key + bs.length ≤ j → readByte t.mem j = readByte s.mem j) ∧
  (∀ j, lineDesc t.lines j = lineDesc s.lines j) ∧ { t with mem := s.mem, lines := s.lines } = s

/-- Every line that the write touched belongs to the context to which its frame is allotted (R86). -/
def ownedBy (s t : State) (key n : Nat) : Prop :=
  ∀ j < n, (lineMeta t.lines (key + j)).extractLsb' 16 12 = s.frameOwner (max key (lineOf (key + j)))

/-- What a write leaves in a register of a function under its access code (R7, R491, R492, R494, R495): reserved bits read 0,
write-1-to-clear bits clear. -/
def fnRegister (fn n j : Nat) (x : DWord) (v : VirtFn) : List (PlatformReg × VirtFn) := [
  (.vfpart fn, v), (.vfres fn, v), (.lqhead fn n, v),
  (.pcsel fn n, { v with psel := v.psel.setIfInBounds n (x &&& 0x1FF) }),
  (.smpcfg fn, { v with smpcfg := x &&& 0xFFFFFFFFFFFFFFF1 }),
  (.smpdrop fn, { v with smpdrop := v.smpdrop &&& ~~~(x.setWidth 32) }),
  (.trwatch fn j, { v with trwatch := v.trwatch.setIfInBounds j (x &&& 0xFFFFFFFFFFFFFFC0) }),
  (.trstart fn, { v with trstart := x }), (.trstop fn, { v with trstop := x })]

/-- What a write leaves in TRRING and the session (R494, R495): EN set anew arms it, EN cleared leaves it idle. -/
def traceRing (x : DWord) (v : VirtFn) : VirtFn :=
  let y : DWord := x &&& 0xFFFFFFFFFFFFFF01
  if y.getLsbD 0 = true then
    if v.trring.getLsbD 0 = true then { v with trring := y } else { v with trring := y, trace := .armed, trtail := 0, stopping := false }
  else { v with trring := y, trace := .idle, stopping := false }

/-- The same of a partition with no fault record waiting (R76, R78, R81). -/
def partRegister (p : Nat) (x : DWord) (v : Partition) : List (PlatformReg × Partition) := [
  (.nqcfg p, let y : DWord := x &&& 0xFFFFFFFFFFFFFF01
    { v with nqcfg := y, nqfull := v.nqfull && decide (y.extractLsb' 8 4 = v.nqcfg.extractLsb' 8 4) }),
  (.nqhead p, { v with nqhead := x.setWidth 32, nqfull := false }), (.nqtail p, { v with nqtail := x.setWidth 32, nqfull := false }),
  (.nqdrop p, { v with nqdrop := v.nqdrop &&& ~~~(x.setWidth 32) }),
  (.cthr p, { v with cthr := x.setWidth 32 })]

/-- What an answer of Proenapin holds (R481). -/
noncomputable def spdmAnswers (s : State) (fn nonce index : Nat) : List (Instr × SpdmAnswer) :=
  let block := s.firmware.measured.find? fun m => m.1 = index && (fn = 96 || (1 ≤ index && index ≤ 3) || index = 16 + fn)
  [(.getVersion fn, ⟨fn, "GET_VERSION", [1, 3], none⟩), (.getCapabilities fn, ⟨fn, "GET_CAPABILITIES", [0, 1, 2, 3, 4, 5, 6], none⟩),
   (.negotiateAlgorithms fn, ⟨fn, "NEGOTIATE_ALGORITHMS", [4096, 512], none⟩),
   (.getDigests fn, ⟨fn, "GET_DIGESTS", [Config.digest (Config.certificate 0)], none⟩),
   (.getCertificate fn, ⟨fn, "GET_CERTIFICATE", (Config.certificate 0).map BitVec.toNat, none⟩),
   (.challenge fn nonce, ⟨fn, "CHALLENGE", [nonce], some (Config.signature nonce)⟩),
   (.getMeasurements fn index, match block with
     | some m => ⟨fn, "GET_MEASUREMENTS", [m.1, m.2], some (Config.signature m.2)⟩
     | none => ⟨fn, "GET_MEASUREMENTS", [], none⟩)]

/-! ### A K-step (R274, R280-R284) -/

/-- Bytes of an element of a float line, elements of the line, and its format (R112, R276). -/
def mBytes (l : MLine) : Nat := if l.code = 1 then 8 else if l.code = 2 then 4 else 2
def mCount (l : MLine) : Nat := 64 / mBytes l
def mFmt (l : MLine) : Fmt := if l.code = 1 then f64 else if l.code = 2 then f32 else if l.code = 3 then f16 else bf16

/-- Encoding of element e, little-endian, and its value times 2^(E − 127) (R105, R280). -/
def mEnc (l : MLine) (e : Nat) : Nat := leNat ((l.bytes.drop (mBytes l * e)).take (mBytes l))
/-- Element e is a zero, or a subnormal that DAZ reads as one; an infinity; a NaN. -/
def mZero (daz : Bool) (l : MLine) (e : Nat) : Prop :=
  (mFmt l).isZero (mEnc l e) = true ∨ daz = true ∧ (mFmt l).isSub (mEnc l e) = true
def mInf (l : MLine) (e : Nat) : Prop := (mFmt l).isInf (mEnc l e) = true
def mNaN (l : MLine) : Prop := ∃ e < mCount l, (mFmt l).isNaN (mEnc l e) = true
def mNeg (l : MLine) (e : Nat) : Bool := (mFmt l).neg (mEnc l e)
open Classical in
noncomputable def mVal (daz : Bool) (l : MLine) (e : Nat) : ℚ :=
  if mZero daz l e then 0 else val (mFmt l) (mEnc l e) * (2 : ℚ) ^ ((l.scale : Int) - 127)

/-- Element e of an sc8 or sc4 line, and how many there are (R105, R112). -/
def scEl (l : MLine) (e : Nat) : Int :=
  if l.code = 0x10 then (l.bytes.getD e 0).toInt else (BitVec.ofNat 4 ((l.bytes.getD (e / 2) 0).toNat / 16 ^ (e % 2))).toInt
def scCount (l : MLine) : Nat := if l.code = 0x10 then 64 else 128

/-- Element e of a b1 line (R105). -/
def bitEl (l : MLine) (e : Nat) : Bool := (l.bytes.getD (e / 8) 0).getLsbD (e % 8)

/-- What a K-step makes of a float element c, read as its first step reads it, with row a and column b (R280, R281, R284): `r`; and
whether the loop's flags hold invalid afterwards, `v`. -/
noncomputable def floatStep (f : Fmt) (md : FMode) (sem c : Nat) (a b : MLine) (r : Nat) (v : Prop) : Prop :=
  let n := mCount a
  let times := sem = 0 ∨ sem = 3
  let undef := fun (e : Nat) =>
    if times then (mInf a e ∧ mZero md.daz b e) ∨ (mZero md.daz a e ∧ mInf b e) else mInf a e ∧ mInf b e ∧ mNeg a e ≠ mNeg b e
  let isInf := fun (e : Nat) (neg : Bool) => (mInf a e ∨ mInf b e) ∧
    ((times ∧ neg = (mNeg a e != mNeg b e)) ∨ (¬ times ∧ mInf a e ∧ neg = mNeg a e) ∨ (¬ times ∧ ¬ mInf a e ∧ neg = mNeg b e))
  let term := fun (e : Nat) => if times then mVal md.daz a e * mVal md.daz b e else mVal md.daz a e + mVal md.daz b e
  let rounds := fun (q : ℚ) (y : Nat) =>
    ∃ (m : Nat) (e : Int), m ≠ 0 ∧ |q| = (m : ℚ) * (2 : ℚ) ^ e ∧ y = (f.round md (q < 0) m e).val
  (f.isNaN c = true → r = f.quieted c ∧ (f.isSNaN c = true → v)) ∧
  (f.isNaN c = false →
    (a.scale = 255 ∨ b.scale = 255 → r = f.genNaN 2 ∧ v) ∧
    (a.scale ≠ 255 → b.scale ≠ 255 → (mNaN a ∨ mNaN b → r = f.genNaN 1 ∧ v) ∧
      (¬ mNaN a → ¬ mNaN b → ((∃ e < n, undef e) → r = f.genNaN (if times then 4 else 3) ∧ v) ∧
        ((∀ e < n, ¬ undef e) →
          (sem = 0 →
            let pos := (f.isInf c = true ∧ f.neg c = false) ∨ ∃ e < n, isInf e false
            let neg := (f.isInf c = true ∧ f.neg c = true) ∨ ∃ e < n, isInf e true
            let q := val f c + ((List.range n).map term).sum
            (pos → neg → r = f.genNaN 3 ∧ v) ∧ (pos → ¬ neg → r = f.inf) ∧ (¬ pos → neg → r = f.signed true f.inf) ∧
            (¬ pos → ¬ neg → (q = 0 → f.isZero r = true) ∧ (q ≠ 0 → rounds q r))) ∧
          (sem ≠ 0 →
            let wins := decide (sem = 1)
            ((∃ e < n, isInf e wins) → r = f.signed wins f.inf) ∧ ((∀ e < n, isInf e (!wins)) → r = c) ∧
            ∀ best < n, (∀ x, ¬ isInf best x) → term best ≠ 0 →
              (∀ e < n, isInf e (!wins) ∨ ((∀ x, ¬ isInf e x) ∧ if sem = 1 then term best ≤ term e else term e ≤ term best)) →
              ∃ y, rounds (term best) y ∧
                let yields := if sem = 1 then below f y c else below f c y
                (yields → r = y) ∧ (¬ yields → r = c))))))

/-- What a K-step of loop k applies: the lines of row r and of column c, the element of C in register j and lane i before and after. -/
def stepRow (ls : List MLine) (r : Nat) : MLine := ls.getD r ⟨[], 0⟩
def elemC (s : State) (l : Loop) (j i : Nat) : Nat := (laneOf (s.sh.regs.file (l.d + j)) i).toNat

/-- The same of a float accumulator: a register, or a pair for f64 (R274). -/
def elemF (s : State) (l : Loop) (j i : Nat) : Nat :=
  if cfgAcc l.cfg = 1 then
    (laneOf (s.sh.regs.file (l.d + 2 * j)) i).toNat + 2 ^ 32 * (laneOf (s.sh.regs.file (l.d + 2 * j + 1)) i).toNat
  else elemC s l j i

/-- A K-step of loop k is due and passes its checks (R285, R288). -/
def kReady (s : State) (k : Nat) (l : Loop) (a b : List MLine) : Prop :=
  s.sh.loops[k]? = some l ∧ s.sh.life = .live ∧ s.sh.saved = false ∧ s.sh.coreHalt = false ∧ s.badLines = [] ∧ s.weak = [] ∧
  uncounted s 4 ∧ uncounted s 5 ∧
  l.nextK < l.steps ∧ s.loopBlocked s.sh.uid l.d = false ∧ l.d + (if cfgAcc l.cfg = 1 then 32 else 16) ≤ 96 ∧ a = s.opLines l false ∧ b = s.opLines l true ∧
  a.length = 32 ∧ b.length = 32 ∧ stepCheck l.cfg (FMode.of (l.mode.setWidth 64)).daz (scalesOf a ++ scalesOf b) (a ++ b) = none

/-- A collective of this module whose n participants have all contributed `count` elements of its op's size (R486, R487). -/
def gathered (c : Collective) (data : Nat → List Byte) : Prop :=
  c.abandoned = [] ∧ 2 ≤ c.table.length ∧ ∀ j < c.table.length, (data j).length = c.count * atomSize c.op ∧
    (c.members.find? fun m => m.index = j).map CollMember.data = some (data j)

end Sys2Proof.Rules

open Sys2Proof Sys2Proof.Machine Sys2Proof.Rules

/-- R365-R368: setting EN starts a queue's counts; a notify write moves the tail unless it reaches too far or back, and to a gated
aperture it waits in the latch (R475); NOP, WRITE, WAIT and LAUNCH are taken with their status; a held WAIT ends. The rings
here lie in host memory. -/
def Obligations.QueuesTakeTheirCommands : Prop :=
  (∀ (s : State) (fn q : Nat) (val : DWord) (tail : BitVec 32) (v : VirtFn) (k : Queue), s.fns[fn]? = some v →
    v.queues[q]? = some k →
    (val.getLsbD 0 = true → k.cfg.getLsbD 0 = false → ∃ t, exec (.lqcfgWrite fn q val) s = .next t ∧
      fnIs s t fn { v with queues := v.queues.setIfInBounds q { cfg := val &&& 0xFFFFFFFFFFFFFF05, head := 0, tail := 0, running := [] } } ∧
      { t with fns := s.fns } = s) ∧
    (v.enabled = true → v.gated = false →
      let n := (tail - k.head).toNat
      let far := 2 ^ ((k.cfg.extractLsb' 8 4).toNat + 4) < n ∨ n < (k.tail - k.head).toNat
      (far → exec (.lqnotifyWrite fn q tail) s = .next s) ∧
      (¬ far → ∃ t es, exec (.lqnotifyWrite fn q tail) s = .next t ∧
        fnIs s t fn { v with queues := v.queues.setIfInBounds q { k with tail := tail } } ∧ t.agenda = s.agenda ++ es ∧
        { t with fns := s.fns, agenda := s.agenda } = s)) ∧
    (v.gated = true → s.latch.length < 16 → exec (.lqnotifyWrite fn q tail) s = .next { s with
      latch := s.latch ++ [(fn, .lqnotifyWrite fn q tail)], agenda := s.agenda ++ [.apertureWake fn] })) ∧
  (∀ (s : State) (fn q : Nat) (v : VirtFn) (k : Queue) (c : Context) (x : Command), s.memOk → nextIs s fn q v k c x →
    (x.kind = 0 → ∃ t, exec (.cmdNop fn q) s = .next t ∧
      taken s t fn q v k (headOn k) (if x.malformed then 4 else 2) true (fun _ => False) ∧
      { t with fns := s.fns, mem := s.mem, agenda := s.agenda } = s) ∧
    (x.kind = 3 → x.malformed = false → ∀ m d, reaches s c.tag x.addr .store m d → m.wb = false → d + 8 ≤ 2 * spaceSize →
      s.weak = [] → deviceRoot s c.tag → ∃ t, exec (.cmdWrite fn q) s = .next t ∧
        taken s t fn q v k (headOn k) 2 true (fun j => d ≤ j ∧ j < d + 8) ∧ readLE t.mem d 8 = x.value.toNat ∧
        { t with fns := s.fns, mem := s.mem, lines := s.lines, agenda := s.agenda } = s) ∧
    (x.kind = 2 → x.malformed = false → s.weak = [] → ∀ m d, reaches s c.tag x.addr .load m d →
      let met := waitRule x.cond (readLE s.mem d 8) x.value.toNat
      (met → ∃ t, exec (.cmdWait fn q) s = .next t ∧ taken s t fn q v k (headOn k) 2 true (fun _ => False) ∧
        { t with fns := s.fns, mem := s.mem, agenda := s.agenda } = s) ∧
      (¬ met → ∃ t, exec (.cmdWait fn q) s = .next t ∧ taken s t fn q v k (headRuns k) 1 false (fun _ => False) ∧
        t.held = s.held ++ [{ command := s.headCommand fn q c, signal := x.addr, value := x.value, cond := x.cond }] ∧
        { t with fns := s.fns, mem := s.mem, held := s.held } = s)) ∧
    (x.kind = 1 → x.malformed = false → s.weak = [] → ∀ ws y, s.igWords c.tag x.addr 32 = .ok ws →
      let r := LaunchRec.of fun j => ws.getD j 0
      s.validate fn c r (fun j => ws.getD j 0) = .ok y →
      (y.code ≠ 0 → ∃ t, exec (.cmdLaunch fn q) s = .next t ∧
        taken s t fn q v k (headOn k) (0x80 + y.code) true (fun _ => False) ∧
        { t with fns := s.fns, mem := s.mem, agenda := s.agenda } = s) ∧
      (y.code = 0 → s.resident fn (s.partsOf fn r) = true → r.isGang = false → y.regions = [] → s.context c.tag = some c →
        (∀ p, c.scope r.parent = some p → p.life = .live) → s.task (s.fresh + 1) = none →
        ∃ t z, exec (.cmdLaunch fn q) s = .next t ∧
          taken s t fn q v k (headRuns k) 1 false (fun _ => False) ∧
          t.tasks.length = s.tasks.length + 1 ∧ t.task (s.fresh + 1) = some z ∧ z.tag = c.tag ∧ z.recVA = x.addr ∧
          z.cmd = k.head ∧ z.units = List.range r.unitCount ∧ z.handed = decide (r.startGtc ≤ s.gtc.toNat) ∧ z.ended = false ∧
          z.entry = y.entry ∧ { t with fns := s.fns, mem := s.mem, agenda := s.agenda, tasks := s.tasks, contexts := s.contexts, dies := s.dies, fresh := s.fresh } = s))) ∧
  (∀ (s : State) (fn q : Nat) (h : HeldWait) (m : Mapped) (d : Nat), s.memOk →
    (s.held.find? fun x => x.command.fn = fn && x.command.queue = q) = some h → h.command.host = true → s.iwrites = [] →
    s.parking = [] → s.weak = [] → reaches s h.command.tag h.signal .load m d →
    let met := waitRule h.cond (readLE s.mem d 8) h.value.toNat
    let a := hostKey h.command.fn h.command.addr
    (¬ met → exec (.waitConditionMet fn q) s = .next s) ∧
    (met → ∃ t, exec (.waitConditionMet fn q) s = .next t ∧ readByte t.mem (a + 2) = 2 ∧
      readLE t.mem (a + 0x28) 8 = s.gtc.toNat ∧
      t.held = (s.held.filter fun x => !(x.command.fn = h.command.fn && x.command.queue = h.command.queue &&
        x.command.count = h.command.count)) ∧
      t.fns = (s.onQueue h.command.fn h.command.queue fun k =>
        { k with running := k.running.filter (· ≠ h.command.count) }).fns ∧
      { t with mem := s.mem, held := s.held, agenda := s.agenda, fns := s.fns } = s))

/-- R371-R375, R377, R450, R454: units go to the dies of their partition eight at a time, from a die to the Newt with the most free
budget, the lowest on ties, or in pieces, and from a fuller die to an empty one; a gang commits or rolls back, and starts at T; a Newt
places what fits; a pre-emption saves a whole group; a saved group returns to a core of its cluster. That a gang is reserved and
committed in one step, and that the first unit in a distributor's list comes next, are the model's choices (LOG 24). -/
def Obligations.UnitsGoToTheirCores : Prop :=
  (∀ (s : State) (tid : Nat) (k : Task), s.task tid = some k →
    (k.handed = false → k.gang = .none → k.units ≠ [] → k.lrec.startGtc ≤ s.gtc.toNat → s.taskDies k ≠ [] →
      let ds := s.taskDies k
      let share := fun (d : Nat) => (k.units.filter fun u => ds[u / 8 % ds.length]? = some d).map fun u => (tid, u)
      ∃ t, exec (.startGtcReached tid) s = .next t ∧ t.tasks = (s.onTask tid fun x => { x with handed := true }).tasks ∧
        t.agenda = s.agenda ++ ds.map Event.unitHandout ∧
        (∀ (d : Nat) (v : Die), s.dies[d]? = some v → t.dies[d]? = some { v with units := v.units ++ share d }) ∧
        { t with tasks := s.tasks, agenda := s.agenda, dies := s.dies } = s) ∧
    (k.gang.waits = true → k.units ≠ [] → s.resident k.fn (s.partsOf k.fn k.lrec) = true →
      (∀ plan, s.gangPlan k.lrec s.claims = some plan → ∃ t z, exec (.gangRetry tid) s = .next t ∧ t.task tid = some z ∧
        z.gang = .committed (max k.lrec.startGtc (s.gtc.toNat + 1000)) ∧ t.groups.length = s.groups.length + plan.length) ∧
      (s.gangPlan k.lrec s.claims = none → k.cmdHost = true → s.memOk → s.iwrites = [] → ∃ t z,
        exec (.gangRetry tid) s = .next t ∧ t.task tid = some z ∧ z.gang = .rolledBack (s.gangFails k.lrec) ∧ t.groups = s.groups ∧
        readByte t.mem (hostKey k.fn k.cmdAddr + 2) = 3)) ∧
    (∀ at_, k.gang = .committed at_ →
      (at_ ≤ s.gtc.toNat → exec (.gangStart tid) s = .next (s.onTask tid fun x => { x with gang := .started })) ∧
      (s.gtc.toNat < at_ → exec (.gangStart tid) s = .next s))) ∧
  (∀ (s : State) (die tid u : Nat) (v : Die) (k : Task) (rest : List (Nat × Nat)), s.dies[die]? = some v → v.pieces = [] →
    v.units = (tid, u) :: rest → s.taskRuns tid = true → s.task tid = some k →
    let r := k.lrec
    (r.domain r.unitLevel < 2 → (∃ c, c ∈ s.taskClusters k ∧ c / 8 = die ∧ newtFree s c) →
      ∃ t c w, exec (.unitHandout die) s = .next t ∧ c ∈ s.taskClusters k ∧ c / 8 = die ∧ newtFree s c ∧
        (∀ d ∈ s.taskClusters k, d / 8 = die → newtFree s d → s.clusterFree d < s.clusterFree c ∨ s.clusterFree d = s.clusterFree c ∧ c ≤ d) ∧ s.clusters[c]? = some w ∧
        t.clusters[c]? = some { w with newt := w.newt ++ [.groups tid (u * r.unitSize) r.unitSize] } ∧
        t.dies[die]? = some { v with units := rest } ∧ t.agenda = s.agenda ++ [.groupPlacement c, .unitHandout die] ∧
        { t with clusters := s.clusters, dies := s.dies, agenda := s.agenda } = s) ∧
    (2 ≤ r.domain r.unitLevel → ∃ t, exec (.unitHandout die) s = .next t ∧
      t.dies[die]? = some { v with units := rest, pieces := (List.range (r.unitSize / r.pieceSize)).map fun j =>
        (tid, u * r.unitSize + j * r.pieceSize, r.pieceSize) } ∧ t.agenda = s.agenda ++ [.unitHandout die] ∧
      { t with dies := s.dies, agenda := s.agenda } = s)) ∧
  (∀ (s : State) (die d : Nat) (v w : Die), s.dies[die]? = some v → v.units = [] → s.dies[d]? = some w → d ≠ die →
    let us := s.stealable die d
    2 ≤ us.length → (∀ e < 8, e ≠ die → (s.stealable die e).length ≤ us.length) →
    (∀ e < d, e ≠ die → (s.stealable die e).length < us.length) →
    let top := us.drop (us.length - us.length / 2)
    ∃ t, exec (.unitSteal die) s = .next t ∧ t.dies[die]? = some { v with units := top } ∧
      t.dies[d]? = some { w with units := w.units.filter fun u => !top.contains u } ∧ t.agenda = s.agenda ++ [.unitHandout die] ∧
      { t with dies := s.dies, agenda := s.agenda } = s) ∧
  (∀ (s : State) (c tid lo n : Nat) (v : Cluster) (k : Task) (plan : List Claim), s.clusters[c]? = some v →
    v.newt = [.groups tid lo n] → s.task tid = some k → s.taskRuns tid = true → k.lrec.prio ≤ 3 →
    k.lrec.planIn s.claims c [] (k.lrec.chunks lo n) = some plan →
    ∃ t w, exec (.groupPlacement c) s = .next t ∧ t.clusters[c]? = some w ∧ w.newt = [] ∧
      t.groups.length = s.groups.length + plan.length ∧ t.peers.length = s.peers.length + plan.length * k.lrec.extent 1 ∧
      ∀ p ∈ plan, ∃ g ∈ t.groups, g.task = tid ∧ g.core = p.core ∧ g.spadBase = p.base ∧ g.spadLen = p.need.len ∧ g.saved = false) ∧
  (∀ (s : State) (gid : Nat) (g : Machine.Group), s.group gid = some g → (s.groups.map Machine.Group.gid).Nodup →
    g.freed = false → (∀ k ∈ s.whole g, k.saved = false ∧ k.freed = false ∧ ∀ h ∈ s.members k.gid, s.drainWaits h = false) → g.saved = false →
    ∃ t, exec (.preemption gid) s = .next t ∧ ∀ k ∈ s.whole g, (∃ x, t.group k.gid = some x ∧ x.saved = true) ∧
      ∀ h ∈ t.sheaves, h.group = k.gid → h.life = .live → h.saved = true) ∧
  (∀ (s : State) (gid : Nat) (g : Machine.Group) (k : Task) (plan : List Claim), s.group gid = some g → g.saved = true →
    g.freed = false → g.fromBin = true → s.inShadow gid = false → s.taskRuns g.task = true → s.task g.task = some k →
    g.core / 8 ∈ s.taskClusters k → LaunchRec.zero.planIn s.claims (g.core / 8) [] [[(0, (s.claimOf g).need)]] = some plan →
    s.entriesFit (plan.map fun c => (gid, c.core)) = true →
    ∃ t p x, exec (.groupRestore gid) s = .next t ∧ p ∈ plan ∧ t.group gid = some x ∧ x.saved = false ∧ x.core = p.core ∧
      x.spadBase = p.base ∧ ∀ h ∈ t.sheaves, h.group = gid → h.life = .live → h.saved = false)

/-- R462-R464, R24, R461, R478-R480, R482-R484: residency and its turns, the release of a core, partitions, functions and firmware.
The model's choices (LOG 24): VF_ENABLE binds a function to every partition named that exists, and leaves it disabled where there is
none; a swap, a module reset and a migration are one step each, and what they clear is at its value after reset. -/
def Obligations.FunctionsAndPartitionsTakeTurns : Prop :=
  (∀ (s : State) (p f : Nat) (v : Partition) (w : VirtFn), s.part p = some v → p < 64 → s.fns[f]? = some w → v.resident = none →
    (s.turnOf p 95).find? s.wants = some f → ∃ t x y, exec (.timeSliceEnd p) s = .next t ∧ t.part p = some x ∧ x.resident = some f ∧
      x.since = s.gtc.toNat ∧ t.fns[f]? = some y ∧ y.res.getLsbD p = true ∧
      (s.saves = [] → (∀ d ∈ s.dies.toList, ∀ z ∈ d.slots.toList, z = none) → t.mem = s.mem)) ∧
  (∀ (s : State) (p r : Nat) (v : Partition), s.part p = some v → v.resident = some r → s.gangHolds p = false →
    ((∀ f ∈ s.turnOf p r, f ≠ r → s.wants f = false) →
      exec (.timeSliceEnd p) s = .next (s.onPart p fun q => { q with since := s.gtc.toNat })) ∧
    (∀ f a b, ((s.turnOf p r).find? fun f => f ≠ r && s.wants f) = some f → s.swapWaits p r = false → p < 64 →
      s.fns[r]? = some a → s.fns[f]? = some b → ∃ t x y z, exec (.timeSliceEnd p) s = .next t ∧ t.part p = some x ∧
        x.resident = some f ∧ t.fns[f]? = some y ∧ y.res.getLsbD p = true ∧ t.fns[r]? = some z ∧ z.res.getLsbD p = false)) ∧
  (∀ (s : State) (core : Nat), ∃ t, exec (.coreRelease core) s = .next t ∧ t.halted = s.halted.filter (·.1 ≠ core) ∧
    (∀ h ∈ t.sheaves, ∀ g, s.group h.group = some g → g.core = core → h.coreHalt = false) ∧
    { t with halted := s.halted, sh := s.sh, peers := s.peers } = s) ∧
  (∀ (s : State) (p : Nat) (cs : List Nat), p < 64 → (∀ v ∈ s.fns.toList, v.parts.getLsbD p = false) →
    (cs = [] → ∃ t, exec (.partitionConfigure p cs) s = .next t ∧ t.part p = none) ∧
    (s.part p = none → cs ≠ [] → cs.Nodup → (∀ c ∈ cs, c < 64 ∧ ∀ q ∈ s.partitions, c ∉ q.clusters) →
      ∃ t, exec (.partitionConfigure p cs) s = .next t ∧ t.partitions = s.partitions ++ [{ num := p, clusters := cs, nqcfg := 0, nqtail := 0, nqhead := 0, nqdrop := 0, nqfull := false, cthr := 0x01000100, waiting := [], windows := [], resident := none, since := 0 }] ∧
        ∀ c ∈ cs, (∃ k, t.clusters[c]? = some k ∧ k.powered = true ∧ k.newt = [] ∧ ∀ n : Nat, n < 16 → k.counters[n]? = some 0) ∧
          ∀ j < 8, ∀ o < 2 ^ 20, readByte t.mem (spadKey (8 * c + j) o) = 0)) ∧
  (∀ (s : State) (fn n : Nat) (parts : DWord) (v : VirtFn), s.fns[fn]? = some v →
    (v.enabled = true ∨ v.resetting = true ∨ (∀ x ∈ s.firmware.policies, x.version ≠ n) ∨
      (∀ p ∈ s.partitions.map Partition.num, parts.getLsbD p = false) → exec (.vfEnable fn n parts) s = .next s) ∧
    (∀ x, v.enabled = false → v.resetting = false → s.firmware.policies.find? (·.version = n) = some x →
      (∃ p ∈ s.partitions.map Partition.num, parts.getLsbD p = true) → ∃ t w, exec (.vfEnable fn n parts) s = .next t ∧ t.fns[fn]? = some w ∧
      w.enabled = true ∧ w.policy = some x ∧ (16 + fn, x.image.digest) ∈ t.firmware.measured ∧
      ∀ p, p < 64 → (w.parts.getLsbD p = true ↔ parts.getLsbD p = true ∧ p ∈ s.partitions.map Partition.num))) ∧
  (∀ (s : State) (fn : Nat), fn < 96 → (s.contexts.map Context.tag).Nodup → ∃ t w, exec (.functionLevelReset fn) s = .next t ∧
    t.fns[fn]? = some w ∧ w.enabled = false ∧ (∀ c ∈ t.contexts, c.fn = fn → c.ended = true) ∧
    -- what drains still holds the function's resources
    ((∃ c ∈ s.contexts, c.fn = fn ∧ c.released = false) → w.resetting = true ∧ ∀ q ∈ w.queues.toList, q.cfg.getLsbD 0 = false) ∧
    ((∀ c ∈ s.contexts, c.fn = fn → c.released = true) → w = VirtFn.zero ∧ (∀ p ∈ t.partitions, p.resident ≠ some fn) ∧
      (∀ h ∈ t.held, h.command.fn ≠ fn) ∧ (∀ w ∈ t.iwrites, w.fn ≠ fn) ∧ ∀ m ∈ t.firmware.measured, m.1 ≠ 16 + fn)) ∧
  (∀ (s : State) (fn : Nat), fn < 96 → s.mayLeave fn = true → s.badLines = [] → ∃ t, exec (.vfMigration fn s.modId) s = .next t ∧ t.fns = s.fns ∧
    ∀ g ∈ t.groups, ∀ k, s.task g.task = some k → k.fn = fn → k.ended = false → g.freed = false →
      g.saved = true ∧ .groupRestore g.gid ∈ t.agenda) ∧
  (∀ (s : State) (fn : Nat) (target : BitVec 21), fn < 96 → s.mayLeave fn = true → target ≠ s.modId → ∃ t, exec (.vfMigration fn target) s = .next t ∧
    t.fns[fn]? = some VirtFn.zero ∧ (∀ c ∈ t.contexts, c.fn ≠ fn) ∧ (∀ k ∈ t.tasks, k.fn ≠ fn) ∧
    ∀ pg ∈ s.peerPages fn, (pg, target, s.gtc.toNat + 100000000) ∈ t.stubs) ∧
  (∀ (s : State) (page : Nat), exec (.forwardingStubExpiry page) s = .next { s with stubs := s.stubs.map fun x =>
    if x.1 = page then (x.1, x.2.1, 0) else x }) ∧
  (∀ (s : State) (id : BitVec 21) (routes : List (Nat × List Nat)),
    ((∀ v ∈ s.fns.toList, v.enabled = false) → exec (.moduleIdAssign id routes) s =
      .next { s with modId := id, routes := routes.map fun r => (r.1, r.2.filter (· < 16)) }) ∧
    ((∃ v ∈ s.fns.toList, v.enabled = true) → exec (.moduleIdAssign id routes) s = .next s)) ∧
  (∀ (s : State) (image : FwImage), let good := image.signatureOk = true ∧ s.firmware.fuses ≤ image.secVersion
    ∃ t, exec (.monitorUpdate image) s = .next t ∧ { t with firmware := s.firmware } = s ∧
      (good → t.firmware.monitor = some image ∧ (2, image.digest) ∈ t.firmware.measured) ∧
      (¬ good → t.firmware.monitor = s.firmware.monitor ∧ t.firmware.measured = s.firmware.measured ∧
        t.firmware.failures.length = s.firmware.failures.length + 1)) ∧
  (∀ (s : State) (a b : FwImage) (fuses : Nat) (ps : List Policy),
    let good := fun (i : FwImage) => i.signatureOk = true ∧ fuses ≤ i.secVersion
    ∃ t, exec (.moduleReset a b fuses ps) s = .next t ∧ { t with firmware := State.reset.firmware, agenda := [] } = State.reset ∧
      (∀ e ∈ t.agenda, ∃ d < 8, e = .ageingCheck d (Config.ageing d)) ∧ t.agenda.length = 8 ∧
      (good a → good b → t.firmware.proenapin = some a ∧ t.firmware.monitor = some b ∧
        t.firmware.measured = [(1, a.digest), (3, Config.digest (Config.fuseBytes fuses ++ leBytes 8 fuses ++
          leBytes 8 a.secVersion ++ leBytes 8 b.secVersion)), (2, b.digest)]) ∧
      (¬ good a → t.firmware.proenapin = none ∧ t.firmware.monitor = none) ∧ (¬ good b → t.firmware.monitor = none))

/-- R140, R132, R120, R72, R74, R446, R75, R82-R84: deliveries, rejections, resolved faults and migration. A rejected lane of a load is not
written, and one of a store takes its bytes back. R72: a page is looked up in the core's cache, the cluster's, then walked, and
counted as it misses. That an invalidation then waits for nothing but what is buffered rests on LOG 12 (a cache keeps no entry of the
table), the 64 KiB page that a resolution names on LOG 21. -/
def Obligations.DeliveriesAndPagesArrive : Prop :=
  (∀ (s : State) (uid k : Nat) (l : PendLoad), alone s uid → s.sh.life = .live → s.sh.loads[k]? = some l → l.waits = 0 →
    (l.dest.map Prod.fst).Nodup → ∃ t, exec (.loadDelivery uid k) s = .next t ∧ t.sh.loads = s.sh.loads.eraseIdx k ∧
      { t with sh := { t.sh with loads := s.sh.loads, regs := s.sh.regs } } = s ∧ t.sh.regs.w = s.sh.regs.w ∧
      sameScalars s.sh.regs t.sh.regs ∧ ∀ c i, c < 104 → i < 64 → laneOf (t.sh.regs.file c) i =
        match l.dest.find? (fun d => d.1 = c && l.em.getLsbD i) with | some d => laneOf d.2 i | none => laneOf (s.sh.regs.file c) i) ∧
  (∀ (s : State) (tag : BitVec 12) (key : Nat) (op : BitVec 4) (x : BitVec 128), lineOf key ∉ s.badLines → s.weak = [] →
    s.cutOff key = false → x.toNat < 2 ^ (if op = 11 then 128 else if op = 1 ∨ op = 10 ∨ op = 13 then 64 else 32) → ∃ t,
      exec (.atomicAtHome tag key op x) s = .next t ∧ { t with mem := s.mem, lines := s.lines } = s ∧ t.mem =
        writeBytes s.mem key (leBytes (atomSize op) (atomRule op (readLE s.mem key (atomSize op)) x.toNat))) ∧
  (∀ (s : State) (uid : Nat) (word : Word) (dest : BitVec 9) (lanes : DWord), alone s uid → s.sh.life = .live → fMaj word ≠ 0x37 → s.sh.farHit word dest lanes = none →
    let aux : DWord := BitVec.ofNat 64 (word.toNat * 2 ^ 32 + dest.toNat)
    ∃ t, exec (.peerHostRejection uid word dest lanes) s = .next t ∧
      { t with sh := { t.sh with pend := s.sh.pend, loads := s.sh.loads } } = s ∧ t.sh.loads.length = s.sh.loads.length ∧
      ((∀ p ∈ s.sh.pend, p.aux ≠ aux) → t.sh.pend = s.sh.pend ++ [{ kind := .async, cause := .prot, pc := none, mask := lanes, aux := aux }]) ∧
      (∀ p, s.sh.pend = [p] → p.kind = .async → p.cause = .prot → p.aux = aux → p.held = false → p.emMask = false →
        t.sh.pend = [{ p with mask := p.mask ||| lanes }]) ∧
      ∀ l, (s.sh.loads.find? fun l => l.word = word && (l.remote || (l.atomic && l.waits = 0)) &&
          (l.dest.head?.map Prod.fst) = some dest.toNat) = some l →
        ({ l with em := l.em &&& ~~~lanes } : PendLoad) ∈ t.sh.loads) ∧
  (∀ (s : State) (uid : Nat) (word : Word) (dest : BitVec 9) (lanes : DWord) (l k : Nat) (old new : List Byte), alone s uid →
    s.sh.life = .live → fMaj word ≠ 0x37 → s.sh.far = [{ word := word, dest := dest, lanes := [(l, k, old, new)] }] →
    lanes.getLsbD l = true → readBytes s.mem k new.length = new → ∃ t, exec (.peerHostRejection uid word dest lanes) s = .next t ∧
      t.mem = writeBytes s.mem k old ∧ t.sh.far = [{ word := word, dest := dest, lanes := [] }] ∧
      { t with mem := s.mem, sh := { t.sh with far := s.sh.far, pend := s.sh.pend, loads := s.sh.loads } } = s) ∧
  (∀ (s : State) (va : DWord) (ok : Bool), s.sh.parked ≠ [] → (∀ p ∈ s.sh.parked, p.1.toNat / 65536 = va.toNat / 65536) →
    s.iwrites = [] → ∃ t, exec (.faultResolved s.tag va ok) s = .next t ∧ t.sh.parked = [] ∧ t.sh.regs = s.sh.regs ∧ t.sh.pc = s.sh.pc ∧
      t.mem = s.mem ∧ t.sh.badPages = if ok then s.sh.badPages else s.sh.badPages ++ [BitVec.ofNat 64 (va.toNat / 65536 * 65536)]) ∧
  (∀ (s : State) (tag : BitVec 12) (va : DWord) (n : Nat), 
    let kept := s.tlb.filter fun x => !(x.tag = tag && x.page < va.toNat + n && va.toNat < x.page + x.size)
    (∃ t, exec (.pageInvalidation tag va n) s = .next t ∧ { t with invalids := s.invalids, tlb := s.tlb } = s ∧ t.tlb = kept) ∧
    ((∀ h ∈ s.sheaves, s.tagOf h = tag → h.buf = [] ∧ h.defer = []) → s.agenda = [] →
      exec (.pageInvalidation tag va n) s = .next { s with tlb := kept })) ∧
  (∀ (s : State) (p : Nat × Nat) (n : Nat), s.core < 512 → 0 < p.2 →
    let t := s.lookUp p n
    let above := 512 + s.core / 8
    let full := fun (u : State) (c cap : Nat) => cap < (u.tlb.filter fun x => x.cache = c).length
    (s.cached s.core s.tag p.1 = true → t = s) ∧
    (s.cached s.core s.tag p.1 = false →
      { t with tlb := s.tlb } = (if s.cached above s.tag p.1 = true then s.countMine .tlbMisses 1
        else (s.countMine .tlbMisses 1).countMine .walks 1) ∧
      t.cached s.core s.tag p.1 = true ∧ t.cached above s.tag p.1 = true ∧
      (¬ full s s.core 256 → ¬ full t s.core 256) ∧ (¬ full s above 4096 → ¬ full t above 4096) ∧
      ∀ x ∈ t.tlb, x ∈ s.tlb ∨ x.tag = s.tag ∧ x.page = p.1)) ∧
  (∀ (s : State) (a b n : Nat), s.memOk → a % 64 = 0 → b % 64 = 0 → n % 64 = 0 → a + n ≤ 2 * spaceSize → b + n ≤ 2 * spaceSize →
    (a + n ≤ b ∨ b + n ≤ a) → (∀ k ∈ s.badLines, ¬ (a ≤ k ∧ k < a + n)) → s.weak = [] → ∃ t, exec (.migrationCopy a b n) s = .next t ∧
      { t with mem := s.mem, lines := s.lines, badLines := s.badLines, moves := s.moves } = s ∧ t.moves = s.moves ++ [(a, b, n)] ∧
      (∀ k, k ∈ t.badLines ↔ k ∈ s.badLines ∧ ¬ (b ≤ k ∧ k < b + n)) ∧
      (∀ j < n, readByte t.mem (b + j) = readByte s.mem (a + j) ∧ lineMeta t.lines (b + j) = lineMeta s.lines (a + j)) ∧
      ∀ k, (k < b ∨ b + n ≤ k) → readByte t.mem k = readByte s.mem k ∧ lineMeta t.lines k = lineMeta s.lines k) ∧
  (∀ (s : State) (tag : BitVec 12) (va : DWord) (m : Mapped) (c : Context), s.memOk → s.xlat tag va.toNat .load = .ok m →
    s.context tag = some c → c.ended = false → c.counters = none → s.badLines = [] → s.weak = [] → s.iwrites = [] →
    let mine := fun (w : ParkedWrite) => decide (w.tag = tag) && decide (m.page ≤ 64 * w.line) && decide (64 * w.line < m.page + m.size)
    let enter := fun (w : ParkedWrite) => { w with stalled := false }
    ∃ t, exec (.parkedWriteReplay tag va) s = .next t ∧ t.parking.map enter = (s.parking.filter fun w => !mine w).map enter ∧
      (m.wb = true → (readByte t.mem m.pte).getLsbD 5 = false) ∧
      ∀ w a x k q src, s.parking.filter mine = [w] → w.sheaf = 0 → w.batch = none → w.ops = [.bytes a [x] false src] →
        s.xlat tag a .load = .ok k → s.reach tag true k.key = some q → q ≠ m.pte → s.cutOff q = false → readByte t.mem q = x)

/-- R66, R7, R86, R88-R90, R474, R485, R491: writes of the host, the monitor, a peer and the driver take the owner of their frame;
scrubbing logs what a code corrects and contains what it cannot; a failed link. That the ring of fault records is no longer full after
a write of NQHEAD, NQTAIL or another size rests on LOG 13, the routes of a failed link on LOG 31. -/
def Obligations.WritesFromOutsideLandWhereTheySay : Prop :=
  (∀ (s : State) (a : Nat) (bs : List Byte), s.memOk → bs ≠ [] → s.weak = [] →
    (a + bs.length ≤ 2 ^ 38 → clean s (lpddrKey a) bs.length → quietPages s →
      ∃ t, exec (.hostMemoryWrite a bs) s = .next t ∧ stored s t (lpddrKey a) bs ∧ ownedBy s t (lpddrKey a) bs.length) ∧
    (a + bs.length ≤ 2 * spaceSize → clean s a bs.length →
      ∃ t, exec (.monitorWrite a bs) s = .next t ∧ stored s t a bs ∧ ownedBy s t a bs.length)) ∧
  (∀ (s : State) (source : BitVec 21) (addr : DWord) (op : PeerOp) (w : PeerWindow), s.memOk → s.stubs = [] → s.weak = [] →
    quietPages s →
    s.partitions.flatMap Partition.windows = [w] →
    let off := addr.toNat % 2 ^ 43
    let covers := fun (n : Nat) => w.base ≤ off ∧ off + n ≤ w.base + w.size ∧ source.toNat ∈ w.modules
    let key := w.key + (off - w.base)
    (∀ bs, op = .store bs → bs ≠ [] → covers bs.length → w.writable = true → clean s key bs.length →
      ∃ t, exec (.peerRequest source addr op) s = .next t ∧ stored s t key bs ∧
        (key + bs.length ≤ 2 * spaceSize → ownedBy s t key bs.length)) ∧
    (∀ n x, op = .atomic n x → covers (atomSize n) → w.writable = true → lineOf key ∉ s.badLines → s.cutOff key = false →
      x.toNat < 2 ^ (if n = 11 then 128 else if n = 1 ∨ n = 10 ∨ n = 13 then 64 else 32) →
      ∃ t, exec (.peerRequest source addr op) s = .next t ∧ { t with mem := s.mem, lines := s.lines } = s ∧
        t.mem = writeBytes s.mem key (leBytes (atomSize n) (atomRule n (readLE s.mem key (atomSize n)) x.toNat))) ∧
    (∀ n, op = .load n → (covers n → lineOf key ∉ s.badLines) → exec (.peerRequest source addr op) s = .next s) ∧
    (∀ bs, op = .store bs → (¬ covers bs.length ∨ w.writable = false) → exec (.peerRequest source addr op) s = .next s)) ∧
  (∀ (s : State) (key : Nat), exec (.scrubPass key .clean) s = .next s ∧
    (∀ x, ∃ t, exec (.scrubPass key (.corrected x)) s = .next t ∧ { t with dies := s.dies, weak := s.weak } = s ∧
      (key < 2 * spaceSize ∨ isSpad key = true → (∀ w ∈ t.weak, w.1 ≠ lineOf key) ∧ ∀ d, keyDie key = some d →
        t.dies = (s.onDie d fun y => { y with errlog := y.errlog ++
          [{ gtc := s.gtc, what := keyArray key ++ ": corrected error", addr := lineOf key, syndrome := x }] }).dies)) ∧
    (2 * spaceSize ≤ key → key < 4 * spaceSize → exec (.scrubPass key .uncorrectable) s = .next s) ∧
    (∀ uid h, key = 6 * spaceSize + uid → uid < 2 ^ 62 → s.sheaf uid = some h → h.life = .live →
      ∃ t, exec (.scrubPass key .uncorrectable) s = .next t ∧ hasEnded t (s.tagOf h)) ∧
    (key < 2 * spaceSize → (lineMeta s.lines key).extractLsb' 16 12 = 0 → ∃ t, exec (.scrubPass key .uncorrectable) s = .next t ∧
      (∀ j, lineOf j = lineOf key → readByte t.mem j = 0) ∧ (∀ j, lineOf j ≠ lineOf key → readByte t.mem j = readByte s.mem j) ∧
      lineOf key ∉ t.badLines)) ∧
  (∀ (s : State) (port : Nat) (target : BitVec 21),
    let left := s.routes.map fun r => if r.1 = target.toNat then (r.1, r.2.filter (· ≠ port)) else r
    ((∃ r ∈ left, r.1 = target.toNat ∧ r.2 ≠ []) → exec (.linkFailure port target) s = .next { s with routes := left }) ∧
    ((∀ r ∈ left, r.1 = target.toNat → r.2 = []) → ∃ t es, exec (.linkFailure port target) s = .next t ∧ t.routes = left ∧
      t.agenda = s.agenda ++ es ∧ { t with routes := s.routes, agenda := s.agenda } = s ∧
      ∀ h ∈ s.sheaves, ∀ l ∈ h.loads, l.remote = true → (∃ p ∈ l.sites, p.2 / 2 ^ 43 = 3 * 2 ^ 21 + target.toNat) →
        ∃ d m, Event.peerHostRejection h.uid l.word d m ∈ es)) ∧
  (∀ (s : State) (fn n j : Nat) (x : DWord) (v : VirtFn), s.fns[fn]? = some v → n < 16 → j < 4 →
    (∀ p ∈ fnRegister fn n j x v, ∃ t, exec (.registerWrite p.1 x) s = .next t ∧ fnIs s t fn p.2 ∧ { t with fns := s.fns } = s) ∧
    (v.trdrop = 0 → ∃ t, exec (.registerWrite (.trring fn) x) s = .next t ∧ fnIs s t fn (traceRing x v) ∧ { t with fns := s.fns } = s) ∧
    (let cs := s.fnClusters fn
     cs ≠ [] → cs.Nodup → (∀ c ∈ cs, c < 64) → ((s.shadows fn).map Shadow.cluster ++ cs.filter (s.holdsCluster fn)).Nodup →
       ∃ t, exec (.pcvalWrite fn n x) s = .next t ∧ { t with clusters := s.clusters, saves := s.saves, dies := s.dies } = s ∧
       t.pcval fn n = x ∧ ∀ m < 16, m ≠ n → t.pcval fn m = s.pcval fn m)) ∧
  (∀ (s : State) (q : Nat) (x : DWord) (v : Partition), s.part q = some v → v.waiting = [] →
    ∀ p ∈ partRegister q x v, ∃ t, exec (.registerWrite p.1 x) s = .next t ∧ t.part q = some p.2 ∧
      { t with partitions := s.partitions } = s)

/-- R152, R149, R363, R174, R285, R287, R399, R404, R406: a batch completes; sleeps and signal waits end when they may, and a SLEEPB that
is late traps or counts and waits on; a loop makes a K-step and leaves the unit; a paced group advances exactly when R404 lets it; a death
is recorded. -/
def Obligations.EnginesAndWaitsGoOn : Prop :=
  (∀ (s : State) (b : Batch), s.sh.batches = [b] → b.outbound = false → b.ring = none → b.prog.paused = none → b.prog.status = 0 →
    s.sh.life = .live → s.sh.coreHalt = false → (∀ g, s.group s.sh.group = some g → g.saved = false) → s.repeatable = false → s.lrec.flags.getLsbD 3 = false →
    s.sh.buf = [] → s.parking = [] → s.badLines = [] → s.weak = [] → uncounted s 6 → uncountedAccess s → s.memOk →
    (b.cpys = [] → exec (.copyEventComplete s.sh.uid b.num) s = .next { s with sh := { s.sh with batches := [] } }) ∧
    (∀ sid r m q, b.cpys = [{ sid := sid, reqs := [r], held := [] }] → r.route = 0 → s.copyBlocked sid = false →
      s.xlat s.tag r.src .copySrc = .ok m → m.ce = false → s.reach s.tag false m.key = some q →
      ∃ t, exec (.copyEventComplete s.sh.uid b.num) s = .next t ∧
        { t with mem := s.mem, lines := s.lines, tlb := s.tlb } = { s with
          scoreboard := s.scoreboard.filter fun e => !(e.sheaf = s.sh.uid && !e.loop && e.owner = sid)
          sh := { s.sh with batches := [] } } ∧
        readBytes t.mem r.dst r.size = readBytes s.mem q r.size ∧
        ∀ k, (k < r.dst ∨ r.dst + r.size ≤ k) → readByte t.mem k = readByte s.mem k)) ∧
  (∀ (s : State) (a : SCode) (tk : Nat), s.sh.wait = some { instr := .sleep a, token := some tk } → wakes s →
    (tk ≤ s.gtc.toNat → exec (.sleepWake s.sh.uid) s = .next (waitOver s)) ∧
    (s.gtc.toNat < tk → exec (.sleepWake s.sh.uid) s = .next s)) ∧
  (∀ (s : State) (a : SCode) (ev : Bool) (tk : Option Nat), s.sh.wait = some { instr := .sleepb a ev, token := tk } → wakes s →
    (promiseTime s.gtc (s.sh.rd.getS a) ≤ s.gtc.toNat → s.sh.eventDone (s.sh.rd.getS a) ev = true →
      exec (.sleepbWake s.sh.uid) s = .next (waitOver s)) ∧
    (promiseTime s.gtc (s.sh.rd.getS a) ≤ s.gtc.toNat → s.sh.eventDone (s.sh.rd.getS a) ev = false →
      (tk = some 1 → exec (.sleepbWake s.sh.uid) s = .next s) ∧
      (tk ≠ some 1 → s.sh.rd.mode.getLsbD 5 = false → exec (.sleepbWake s.sh.uid) s = .next
        (waitsAt { s with sh := { s.sh with late := if s.sh.late.toNat = 2 ^ 32 - 1 then s.sh.late else s.sh.late + 1 } } (.sleepb a ev) (some 1))) ∧
      (tk ≠ some 1 → s.sh.rd.mode.getLsbD 5 = true → canTrap s → s.sh.latch.more = false → s.sh.mid = false →
        ∃ t, exec (.sleepbWake s.sh.uid) s = .next t ∧ t.sh.wait = none ∧
          entered s t 0x28 s.sh.pc s.sh.next s.sh.em ((s.sh.rd.getS a).extractLsb' 56 8 ++ BitVec.ofNat 8 (if ev then 1 else 0) ++ 0#48))) ∧
    (s.gtc.toNat < promiseTime s.gtc (s.sh.rd.getS a) → exec (.sleepbWake s.sh.uid) s = .next s)) ∧
  (∀ (s : State) (a b : SCode) (sp op : BitVec 2) (scope : BitVec 3) (tk : Option Nat) (q : Plan) (x : Site) (r : List Site),
    s.sh.wait = some { instr := .waitsig a sp scope op b, token := tk } → wakes s → s.parking = [] → s.badLines = [] → s.signalPlan .load sp a = .ok q → q.sites = x :: r →
    (signalHolds op (readLE s.mem x.key 8) (s.sh.rd.getS b).toNat → exec (.signalReread s.sh.uid) s = .next (waitOver s)) ∧
    (¬ signalHolds op (readLE s.mem x.key 8) (s.sh.rd.getS b).toNat → exec (.signalReread s.sh.uid) s = .next s)) ∧
  (∀ (s : State) (k : Nat) (l : Loop), s.sh.loops[k]? = some l → s.sh.life = .live → s.sh.saved = false → s.sh.coreHalt = false →
    s.badLines = [] → s.weak = [] → uncounted s 4 → uncounted s 5 →
    (l.nextK < l.steps → s.loopBlocked s.sh.uid l.d = true → exec (.matrixKstep s.sh.uid k) s = .next s) ∧
    (l.nextK < l.steps → s.loopBlocked s.sh.uid l.d = false → cfgAcc l.cfg ≠ 2 →
      stepCheck l.cfg (FMode.of (l.mode.setWidth 64)).daz [] (s.opLines l false ++ s.opLines l true) = none → l.d + accSize l.cfg ≤ 96 →
      ∃ t x, exec (.matrixKstep s.sh.uid k) s = .next t ∧ t.sh.loops = s.sh.loops.set k x ∧ x.nextK = l.nextK + 1 ∧ x.steps = l.steps ∧
        x.d = l.d ∧ x.cfg = l.cfg ∧ (∀ j, l.exc.getLsbD j = true → x.exc.getLsbD j = true) ∧
        (∀ c i, c < 104 → i < 64 → (c < l.d ∨ l.d + accSize l.cfg ≤ c) → laneOf (t.sh.regs.file c) i = laneOf (s.sh.regs.file c) i) ∧
        t.sh.regs.w = s.sh.regs.w ∧ sameScalars s.sh.regs t.sh.regs ∧
        { t with sh := { t.sh with loops := s.sh.loops, regs := s.sh.regs } } = s) ∧
    (l.steps ≤ l.nextK → l.mode.extractLsb' 8 5 = 0 → l.cvt = [] → exec (.mloopEnd s.sh.uid k) s = .next { s with
      scoreboard := s.scoreboard.filter fun e => !(e.sheaf = s.sh.uid && e.loop && e.owner = l.d)
      sh := { s.sh with loops := s.sh.loops.eraseIdx k, fpflags := s.sh.fpflags ||| l.exc.setWidth 64 } })) ∧
  (∀ (s : State) (gid : Nat) (g : Machine.Group), s.group gid = some g →
    (mayAdvance s g → (∀ k, s.task g.task = some k → k.lrec.flags.getLsbD 0 = false) → ∃ t es,
      exec (.groupAdvance gid) s = .next t ∧ t.groups = (s.onGroup gid fun x => { x with step := x.step + 1, arrived := 0 }).groups ∧
      t.agenda = s.agenda ++ es ∧ { t with groups := s.groups, agenda := s.agenda } = s) ∧
    (¬ mayAdvance s g ∨ (∃ k, s.task g.task = some k ∧ k.lrec.flags.getLsbD 0 = true) →
      exec (.groupAdvance gid) s = .next s) ∧
    (∀ c, ((∀ k, s.task g.task = some k → k.lrec.flags.getLsbD 0 = false) → gid ∈ s.deaths →
        (g.core / 8 ≠ c → exec (.deathRecorded c gid) s = .next { s with agenda := s.agenda ++ [.deathRecorded (g.core / 8) gid] }) ∧
        (g.core / 8 = c → ∃ t es, exec (.deathRecorded c gid) s = .next t ∧ t.deaths = s.deaths.filter (· ≠ gid) ∧
        t.groups = (s.onGroup gid fun x => { x with deathStep := some (x.deathStep.getD x.step) }).groups ∧ t.agenda = s.agenda ++ es ∧
        { t with deaths := s.deaths, groups := s.groups, agenda := s.agenda } = s)) ∧
      (gid ∉ s.deaths → exec (.deathRecorded c gid) s = .next s)))

/-- R274, R280-R284: what a K-step leaves in C. Row r of C lies in register r mod 16, lanes 32 (r div 16) up. A boolean element
becomes 1 where the old one is not 0 or both lines have a 1 in one place. A residue element gains the exact sum of products modulo M,
and a scale latch serves vD with the lines' scales. An f32 or f64 element is the exact C + sum rounded once, or under min-plus, max-plus
and max-times the lesser or greater of C and the rounded best term; NaNs, infinities and their exceptions follow the tables. -/
def Obligations.KStepsApplyTheirSemiring : Prop :=
  ∀ (s : State) (k : Nat) (l : Loop) (a b : List MLine), kReady s k l a b →
    let row := fun (j i : Nat) => stepRow a (16 * (i / 32) + j)
    let col := fun (i : Nat) => stepRow b (i % 32)
    let md := FMode.of (l.mode.setWidth 64)
    (cfgAcc l.cfg = 3 → ∃ t, exec (.matrixKstep s.sh.uid k) s = .next t ∧ ∀ j < 16, ∀ i < 64,
      (elemC t l j i = 0 ∨ elemC t l j i = 1) ∧
      (elemC t l j i = 1 ↔ elemC s l j i ≠ 0 ∨ ∃ e < 512, bitEl (row j i) e = true ∧ bitEl (col i) e = true)) ∧
    (cfgAcc l.cfg = 2 → (l.nextK = 0 ∨ ∃ m : Fin 2, s.sh.latches[m].valid = true ∧ s.sh.latches[m].vd = l.d) →
      (∀ m : Fin 2, s.sh.latches[m].valid = true → s.sh.latches[m].vd = l.d →
        s.sh.latches[m].rows = scalesOf a ∧ s.sh.latches[m].cols = scalesOf b) →
      ∃ t, exec (.matrixKstep s.sh.uid k) s = .next t ∧
        (∃ m : Fin 2, t.sh.latches[m].valid = true ∧ t.sh.latches[m].vd = l.d ∧ t.sh.latches[m].rows = scalesOf a ∧
          t.sh.latches[m].cols = scalesOf b) ∧
        ∀ j < 16, ∀ i < 64, (raValue (elemC t l j i) - raValue (elemC s l j i) -
          ((List.range (scCount (row j i))).map fun e => scEl (row j i) e * scEl (col i) e).sum) % 1073740800 = 0) ∧
    (cfgAcc l.cfg = 0 ∨ cfgAcc l.cfg = 1 → ∃ t x, exec (.matrixKstep s.sh.uid k) s = .next t ∧ t.sh.loops[k]? = some x ∧
      ∀ j < 16, ∀ i < 64,
        let f := if cfgAcc l.cfg = 1 then f64 else f32
        let c := elemF s l j i
        -- DAZ reads a subnormal starting accumulator as a zero (R280)
        let c0 := if md.daz = true ∧ l.nextK = 0 ∧ f.isSub c = true then f.signed (f.neg c) 0 else c
        floatStep f md (cfgSemi l.cfg) c0 (row j i) (col i) (elemF t l j i) (x.exc.getLsbD 0 = true))

/-- R441, R442, R445, R447-R449, R386, R418: a trap that waited enters its handler, a debug-halted sheaf goes on, a context ends and
its queues close, watchdogs end their context, a sheaf of a cancelled scope dies. That a trap waits for loads and loops as a step of its
own rests on LOG 14; that the record of an end that concerns no sheaf names core 0, on LOG 29. -/
def Obligations.TrapsAndContextsEnd : Prop :=
  (∀ (s : State) (p : PendTrap) (pc nx : BitVec 32), s.sh.life = .live → s.sh.saved = false → s.sh.coreHalt = false → s.sh.hnd = false →
    s.sh.loads = [] → s.sh.loops = [] → s.sh.replays = [] → s.sh.trbase.getLsbD 63 = true → s.legalTarget s.sh (s.sh.trbase.extractLsb' 0 32).toNat = true →
    p.cause ≠ .bkpt → s.sh.entering = some (p, pc, nx) → ∃ t, exec (.trapEntry s.sh.uid) s = .next t ∧
      entered s t p.cause.code pc nx (if p.emMask then s.sh.regs.em else p.mask) p.aux ∧ t.sh.entering = none) ∧
  (∀ (s : State) (p : PendTrap), s.sh.entering = none → s.sh.atBoundary = true → canTrap { s with sh := { s.sh with pend := [] } } →
    s.sh.pend = [p] → p.kind = .async → p.cause ≠ .bkpt → ∃ t, exec (.trapEntry s.sh.uid) s = .next t ∧
      entered s t p.cause.code (p.pc.getD s.sh.next) s.sh.next (if p.emMask then s.sh.regs.em else p.mask) p.aux ∧ t.sh.pend = []) ∧
  (∀ (s : State) (uid : Nat), alone s uid → s.sh.life = .live → s.sh.dbgHalt = true → exec (.debugResume uid) s =
    .next { s with sh := { s.sh with dbgHalt := false, pc := s.sh.trnext, next := s.sh.trnext } }) ∧
  (∀ (s : State) (tag : BitVec 12), exec (.debuggerAttach tag) s = .next (s.onContext tag fun c => { c with debugger := true })) ∧
  (∀ (s : State) (tag : BitVec 12) (cause : BitVec 8) (va : DWord) (c : Context), s.context tag = some c →
    (c.ended = true → exec (.contextEnd tag cause va) s = .next s) ∧
    (c.ended = false → ∃ t, exec (.contextEnd tag cause va) s = .next t ∧ hasEnded t tag ∧ (∀ h ∈ t.held, h.command.tag ≠ tag) ∧
      (∀ w ∈ t.iwrites, w.tag ≠ tag) ∧
      (c.fn < 96 → ∀ q ∈ c.queues, q < 8 → (t.queue c.fn q).cfg.getLsbD 0 = false) ∧
      (∀ h ∈ s.sheaves, h.life = .live → s.tagOf h = tag → c.under 0 h.scope = true → (∃ x, c.scope 0 = some x ∧ x.life = .live) →
        Event.sheafKill h.uid ∈ t.agenda) ∧
      (∀ m v q, s.memOk → s.badLines = [] → s.weak = [] → c.diag ≠ 0 → s.xlat tag c.diag .load = .ok m → s.reach tag true m.key = some q → s.fns[c.fn]? = some v →
        v.trace ≠ .recording → readLE t.mem q 8 = s.gtc.toNat ∧
          readLE t.mem (q + 8) 8 = tag.toNat + cause.toNat * 2 ^ 16 ∧ readLE t.mem (q + 16) 8 = 2 ^ 64 - 1 ∧
          readLE t.mem (q + 32) 8 = va.toNat ∧ ∀ k, (k < q ∨ q + 64 ≤ k) → readByte t.mem k = readByte s.mem k))) ∧
  (∀ (s : State) (gid bid : Nat) (g : Machine.Group) (k : Task) (b : Barrier), s.group gid = some g → s.task g.task = some k →
    g.barriers[bid]? = some b →
    let limit := if k.lrec.barTimeout = 0 then 2 ^ 26 else k.lrec.barTimeout * 2 ^ 10
    (∀ n, b.timer = some n → limit ≤ n → ∃ t, exec (.barrierWatchdog gid bid) s = .next t ∧ hasEnded t k.tag) ∧
    (b.timer = none ∨ (∃ n, b.timer = some n ∧ n < limit) → exec (.barrierWatchdog gid bid) s = .next s)) ∧
  (∀ (s : State) (tag : BitVec 12) (c : Context), s.context tag = some c →
    (2 ^ 24 ≤ c.deadlock → ∃ t, exec (.deadlockWatchdog tag) s = .next t ∧ hasEnded t tag) ∧
    (c.deadlock < 2 ^ 24 → exec (.deadlockWatchdog tag) s = .next s)) ∧
  (∀ (s : State) (uid : Nat) (h : Sheaf) (c : Context), s.sheaf uid = some h → s.context (s.tagOf h) = some c →
    (c.cancelled h.scope = true → h.life = .live → ∃ t, exec (.sheafKill uid) s = .next t ∧
      (∀ x, t.sheaf uid = some x → x.life = .killed ∧ x.loads = [] ∧ x.loops = [] ∧ x.regs = h.regs) ∧
      (∀ g x b (i : Nat), s.group h.group = some g → t.group h.group = some x → g.barriers[i]? = some b → b.live = true → b.exp ≠ 0 →
        ∃ y, x.barriers[i]? = some y ∧ y.exp = b.exp - 1 ∧ y.canc = true)) ∧
    (c.cancelled h.scope = false → exec (.sheafKill uid) s = .next s)) ∧
  (∀ (s : State) (tag : BitVec 12) (id : BitVec 16) (c : Context) (x : Scope), s.context tag = some c → c.scope id = some x →
    (∀ h ∈ s.sheaves, h.life = .live → s.sheafUnder tag id h = true → (s.taskOf h).any Machine.Task.repeatable = false) →
    (x.life ≠ .live → exec (.driverCancel tag id) s = .next s) ∧
    (x.life = .live → ∃ t, exec (.driverCancel tag id) s = .next t ∧ t.mem = s.mem ∧ t.lines = s.lines ∧ t.sh.regs = s.sh.regs ∧
      (∀ h ∈ s.sheaves, h.life = .live → s.tagOf h = tag → c.under id h.scope = true → Event.sheafKill h.uid ∈ t.agenda) ∧
      ∀ c' y, t.context tag = some c' → y ∈ c'.scopes → c.under id y.id = true → y.life ≠ .live))

/-- R391-R393, R395, R397, R352, R469, R468, R471, R435, R497: records and their sets, decrements, the end of a task, the rounds of a
repeatable task, firmware transfers, a replay. A record opens a set, joins the open one of its scope, and closes it with the node's count.
Die 0 for the record of a counter whose frame no die owns is the model's choice (LOG 23). -/
def Obligations.TasksRunToTheirEnd : Prop :=
  (∀ (s : State) (die tid node sender : Nat) (scope : BitVec 16) (ws : List Word) (last : Bool) (k : Task) (c : Context) (e : NodeEntry),
    s.task tid = some k → s.context k.tag = some c → k.nodes[node]? = some e → 2 ≤ e.count →
    (∀ b ∈ s.bins, ¬ (b.die = die ∧ b.task = tid ∧ b.node = node)) →
    ∃ t z, exec (.binRecordArrival die tid node scope ws sender last) s = .next t ∧ t.task tid = some z ∧ z.recv = k.recv + 1 ∧
      (c.cancelled scope = true → t.bins = s.bins) ∧
      (c.cancelled scope = false → (t.bin die tid node).waiting = [] ∧ (t.bin die tid node).closed = [] ∧
        ∃ x, (t.bin die tid node).sets = [x] ∧ x.scope = scope ∧ x.records = [ws] ∧ x.first = s.gtc.toNat)) ∧
  (∀ (s : State) (die tid node sender : Nat) (scope : BitVec 16) (ws : List Word) (last : Bool) (k : Task) (c : Context) (e : NodeEntry)
      (b : Bin) (x : BinSet), s.task tid = some k → s.context k.tag = some c → c.cancelled scope = false → k.nodes[node]? = some e →
    s.bin die tid node = b → b.sets = [x] → b.waiting = [] → x.scope = scope → x.records.length < min e.count 4096 →
    let y := { x with records := x.records ++ [ws] }
    ∃ t, exec (.binRecordArrival die tid node scope ws sender last) s = .next t ∧ (t.bin die tid node).waiting = [] ∧
      (y.records.length < e.count ∨ k.lrec.flags.getLsbD 0 = true →
        (t.bin die tid node).sets = [y] ∧ (t.bin die tid node).closed = b.closed) ∧
      (y.records.length = e.count → k.lrec.flags.getLsbD 0 = false → k.lrec.total + k.binSheaves < 2 ^ 32 →
        (t.bin die tid node).sets = [] ∧
        (t.bin die tid node).closed = b.closed ++ [{ y with number := k.lrec.total + k.binSheaves }])) ∧
  (∀ (s : State) (die tid node : Nat) (k : Task) (e : NodeEntry) (x : BinSet), s.task tid = some k → k.nodes[node]? = some e →
    (s.bin die tid node).sets = [x] → (s.bin die tid node).waiting = [] →
    (k.lrec.flags.getLsbD 0 = true ∨ s.gtc.toNat < x.first + e.timer → exec (.binSetTimer die tid node x.scope) s = .next s) ∧
    (k.lrec.flags.getLsbD 0 = false → x.first + e.timer ≤ s.gtc.toNat → k.lrec.total + k.binSheaves < 2 ^ 32 →
      ∃ t z, exec (.binSetTimer die tid node x.scope) s = .next t ∧ t.task tid = some z ∧ z.binSheaves = k.binSheaves + 1 ∧
        (t.bin die tid node).sets = [] ∧
        (t.bin die tid node).closed = (s.bin die tid node).closed ++ [{ x with number := k.lrec.total + k.binSheaves }])) ∧
  (∀ (s : State) (tag : BitVec 12) (tid key : Nat) (va : DWord) (scope : BitVec 16) (m : Mapped) (q : Nat), s.memOk →
    s.lrec.flags.getLsbD 3 = false → s.xlat tag va.toNat .load = .ok m → s.reach tag true m.key = some q → m.wb = false →
    s.weak = [] → lineOf q ∉ s.badLines →
    let n := readLE s.mem q 4
    let ws := min 6 (readLE s.mem (q + 6) 1)
    (n = 0 → exec (.dependenceDecrement tag tid ⟨va, key⟩ scope s.sh.uid) s = .next s) ∧
    (n ≠ 0 → ∃ t, exec (.dependenceDecrement tag tid ⟨va, key⟩ scope s.sh.uid) s = .next t ∧ readLE t.mem q 4 = n - 1 ∧
      (∀ j, (j < q ∨ q + 4 ≤ j) → readByte t.mem j = readByte s.mem j) ∧
      { t with mem := s.mem, lines := s.lines, tasks := s.tasks, agenda := s.agenda } = s ∧
      (¬ (n = 1 ∧ ws ≠ 0) → t.agenda = s.agenda ∧ t.tasks = s.tasks) ∧
      (n = 1 → ws ≠ 0 → t.tasks = (s.onTask tid fun k => { k with sent := k.sent + 1 }).tasks ∧ t.agenda = s.agenda ++
        [.binRecordArrival ((keyDie q).getD 0) tid (readLE s.mem (q + 4) 2) scope
          ((List.range ws).map fun j => BitVec.ofNat 32 (readLE s.mem (q + 8 + 4 * j) 4)) 0 false]))) ∧
  (∀ (s : State) (tid : Nat) (k : Task), s.task tid = some k → k.ended = false →
    (k.nodes = [] → s.taskQuiet k = false → exec (.taskEnd tid) s = .next s) ∧
    (k.nodes = [] → s.taskQuiet k = true → k.lrec.signal = 0 → ∃ t z, exec (.taskEnd tid) s = .next t ∧ t.task tid = some z ∧
      z.ended = true ∧ (s.memOk → s.iwrites = [] → s.parking = [] → k.regions = [] → k.cmdHost = true →
        (∃ c, s.context k.tag = some c ∧ c.ended = false) →
        readByte t.mem (hostKey k.fn k.cmdAddr + 2) = 2 ∧ readLE t.mem (hostKey k.fn k.cmdAddr + 0x28) 8 = s.gtc.toNat)) ∧
    (k.nodes ≠ [] →
      let now : EndSample := { gtc := s.gtc.toNat, idle := s.taskQuiet k && s.binsEmpty tid, sent := k.sent, recv := k.recv }
      (k.sample = none → exec (.graphEndSample tid) s = .next (s.onTask tid fun x => { x with sample := some now })) ∧
      (∀ p, k.sample = some p → s.gtc.toNat < p.gtc + 500 → exec (.graphEndSample tid) s = .next s) ∧
      (∀ p, k.sample = some p → p.gtc + 500 ≤ s.gtc.toNat →
        let done := p.idle = true ∧ now.idle = true ∧ p.sent = p.recv ∧ k.sent = k.recv ∧ p.sent = k.sent
        (¬ done → exec (.graphEndSample tid) s = .next (s.onTask tid fun x => { x with sample := some now })) ∧
        (done → k.lrec.signal = 0 → ∃ t z, exec (.graphEndSample tid) s = .next t ∧ t.task tid = some z ∧ z.ended = true)))) ∧
  (∀ (s : State), s.repeatable = true → s.sh.life = .live → s.sh.quant.toNat ≤ s.sh.retired →
    ∃ t, exec (.quantumCountEnd s.sh.uid) s = .next t ∧ t.sh.quantumDone = true ∧
      { t with sh := { t.sh with quantumDone := s.sh.quantumDone, bufBytes := s.sh.bufBytes } } = s) ∧
  (∀ (s : State) (tid : Nat) (k : Task), s.task tid = some k →
    (s.roundReady k = false → exec (.roundCommit tid) s = .next s) ∧
    (s.roundReady k = true → (s.sheaves.map Sheaf.uid).Nodup →
      (s.badLines = [] → (∀ h ∈ s.sheaves, h.task = tid → h.buf = [] ∧ h.defer = [] ∧ ∀ w ∈ s.parking, w.sheaf ≠ h.uid) →
        ∃ t z, exec (.roundCommit tid) s = .next t ∧ t.task tid = some z ∧ z.round = k.round + 1 ∧
          ∀ h ∈ t.sheaves, h.task = tid → h.retired = 0 ∧ h.nth = 0 ∧ h.quantumDone = false) ∧
      ∀ key bs whole src, s.memOk → s.cutOff key = false → s.inOrder tid = [s.sh] → s.bins = [] → s.parking = [] → s.badLines = [] → s.weak = [] →
        k.gathered = [] → s.sh.defer = [] → s.sh.buf = [.bytes none key bs whole src] →
        ∃ t z, exec (.roundCommit tid) s = .next t ∧ t.task tid = some z ∧ z.round = k.round + 1 ∧
          readBytes t.mem key bs.length = bs ∧ ∀ j, (j < key ∨ key + bs.length ≤ j) → readByte t.mem j = readByte s.mem j)) ∧
  (∀ (s : State) (tid : Nat) (k : Task) (ver : BitVec 3) (budget : BitVec 8) (a b : VerSlot), s.task tid = some k →
    k.lrec.flags.getLsbD 2 = true → k.ended = false → k.lrec.flags.getLsbD 0 = false → s.sh.task = tid → s.sh.life = .live →
    k.verSlot (s.sh.ver.extractLsb' 8 16).toNat ver.toNat = some b →
    k.verSlot (s.sh.ver.extractLsb' 8 16).toNat (s.sh.ver.toNat % 256) = some a →
    b.budget ≤ budget.toNat → budget.toNat ≤ s.sh.budget → budget.toNat % 16 = 0 →
    ∃ t z, exec (.firmwareXferRequest tid ver budget) s = .next t ∧
      t.sh = { s.sh with request := some { ver := ver, budget := budget.toNat, firmware := true } } ∧ t.task tid = some z ∧
      z.deadline.isSome = true ∧ t.mem = s.mem) ∧
  (∀ (s : State) (tid d : Nat) (k : Task), s.task tid = some k → k.deadline = some d →
    (s.gtc.toNat < d → exec (.xferDeadline tid) s = .next s) ∧
    (d ≤ s.gtc.toNat → s.askDrains tid = true → exec (.xferDeadline tid) s = .next s) ∧
    (d ≤ s.gtc.toNat → s.askDrains tid = false → ∃ t z, exec (.xferDeadline tid) s = .next t ∧ t.task tid = some z ∧ z.deadline = none ∧ t.mem = s.mem ∧
      (∀ h ∈ t.sheaves, h.task = tid → ∀ r, h.request = some r → r.firmware = false) ∧
      ∀ h ∈ s.sheaves, h.task = tid → h.life = .live → ∀ r, h.request = some r → r.firmware = true →
        Event.preemption h.group ∈ t.agenda)) ∧
  (∀ (s : State) (tid round n stop : Nat) (c : Checkpoint), s.checkpoints = [c] → c.task.tid = tid → c.task.round ≤ round →
    round < c.task.round + c.task.checkpointEvery → ∃ t, exec (.replay tid round n stop) s = .next t ∧
      t.stop = some (tid, round, n, stop) ∧ (∀ h ∈ c.sheaves, h.life ≠ .absent → h ∈ t.peers) ∧ (∀ g ∈ c.groups, g ∈ t.groups) ∧
      (∀ g ∈ c.groups, g.saved = true → g.freed = false → Event.groupRestore g.gid ∈ t.agenda) ∧
      ∀ z, t.task tid = some z → z.round = c.task.round ∧ z.ended = false)

/-- R475, R481, R486-R488: Proenapin's answers, the collective ring, and what the participants of a collective receive: its result, the
mask of the abandoned, its status and its signal land in their memory. What the answers of a certificate or a signature hold is the model's
free value (LOG 11); that participants of other modules count as having contributed rests on LOG 17, the element size of every kind on
LOG 31. -/
def Obligations.HubAnswersAndCombines : Prop :=
  (∀ (s : State) (fn nonce index : Nat), s.firmware.proenapin.isSome = true → fn ≤ 96 → ∀ p ∈ spdmAnswers s fn nonce index,
    exec p.1 s = .next { s with firmware := { s.firmware with answers := s.firmware.answers ++ [p.2] } }) ∧
  (∀ (s : State) (fn : Nat) (val : DWord) (tail : BitVec 32) (v : VirtFn), s.fns[fn]? = some v →
    (∃ t w, exec (.cqcfgWrite fn val) s = .next t ∧ fnIs s t fn w ∧ { t with fns := s.fns } = s ∧
      w.cq.cfg = val &&& 0xFFFFFFFFFFFFFF05 ∧
      (val.getLsbD 0 = true → v.cq.cfg.getLsbD 0 = false → w.cq.head = 0 ∧ w.cq.tail = 0)) ∧
    (v.gated = true → s.latch.length < 16 → exec (.cqnotifyWrite fn tail) s = .next { s with
      latch := s.latch ++ [(fn, .cqnotifyWrite fn tail)], agenda := s.agenda ++ [.apertureWake fn] }) ∧
    (v.gated = false → v.enabled = true →
      let n := (tail - v.cq.head).toNat
      let far := 2 ^ ((v.cq.cfg.extractLsb' 8 4).toNat + 4) < n ∨ n < (v.cq.tail - v.cq.head).toNat
      (far → exec (.cqnotifyWrite fn tail) s = .next s) ∧
      (¬ far → ∃ t w, exec (.cqnotifyWrite fn tail) s = .next t ∧ t.fns[fn]? = some w ∧ w.cq.tail = tail))) ∧
  (∀ (s : State) (cid : BitVec 32) (c : Collective), ∀ p ∈ [(1, Instr.allReduce cid), (2, .allGather cid), (3, .broadcast cid)],
    (s.collectives.find? fun x => x.kind = p.1 && x.cid = cid && s.collReady x) = some c → s.iwrites = [] → s.badLines = [] →
    ∃ t, exec p.2 s = .next t ∧ t.collectives = s.collectives.erase c ∧ t.fns = s.fns ∧ t.sh = s.sh ∧ t.peers = s.peers) ∧
  (∀ (s : State) (cid : BitVec 32) (c : Collective) (m : CollMember), ∀ p ∈ [(1, Instr.allReduce cid), (2, .allGather cid), (3, .broadcast cid)],
    (s.collectives.find? fun x => x.kind = p.1 && x.cid = cid && s.collReady x) = some c → c.members = [m] → m.host = true →
    s.iwrites = [] → s.badLines = [] → s.weak = [] → s.parking = [] → s.memOk → deviceRoot s m.tag →
    let bs := (s.collResult c).getD []
    let status := if s.collResult c = none then 6 else if c.abandoned = [] then 2 else 5
    let lands := fun (t : State) (d : Nat) (xs : List Byte) =>
      readByte t.mem (hostKey m.fn (m.addr + 4)) = status ∧ readLE t.mem (hostKey m.fn (m.addr + 0x38)) 8 = c.mask % 2 ^ 64 ∧
      readBytes t.mem d xs.length = xs ∧ ∀ j, j ≠ hostKey m.fn (m.addr + 4) →
        (j < hostKey m.fn (m.addr + 0x38) ∨ hostKey m.fn (m.addr + 0x38) + 8 ≤ j) → (j < d ∨ d + xs.length ≤ j) → readByte t.mem j = readByte s.mem j
    (∀ x d, m.signal = 0 → bs ≠ [] → m.dst % 64 + bs.length ≤ 64 → reaches s m.tag m.dst .store x d → x.wb = false →
      d + bs.length ≤ 2 * spaceSize → ∃ t, exec p.2 s = .next t ∧ lands t d bs) ∧
    (∀ x d, m.signal ≠ 0 → bs = [] → reaches s m.tag m.signal .store x d → x.wb = false → d + 8 ≤ 2 * spaceSize →
      ∃ t, exec p.2 s = .next t ∧ lands t d (leBytes 8 m.value.toNat))) ∧
  (∀ (s : State) (cid : BitVec 32), ∀ p ∈ [(1, Instr.allReduce cid), (2, .allGather cid), (3, .broadcast cid)],
    (∀ x ∈ s.collectives, x.kind = p.1 → x.cid = cid → s.collReady x = false) → exec p.2 s = .next s) ∧
  (∀ (s : State) (c : Collective) (data : Nat → List Byte), gathered c data →
    (c.kind = 2 → s.collResult c = some ((List.range c.table.length).flatMap data)) ∧
    (c.kind = 3 → s.collResult c = some (data 0)) ∧
    (c.kind = 1 → c.op = 0 → ∃ bs, s.collResult c = some bs ∧ bs.length = 4 * c.count ∧ ∀ k < c.count,
      leNat ((bs.drop (4 * k)).take 4) =
        (((List.range c.table.length).map fun j => leNat (((data j).drop (4 * k)).take 4)).foldl (· + ·) 0) % 2 ^ 32)) ∧
  (∀ (s : State) (c : Collective) (j : Nat), s.collectives = [c] → j < c.table.length → j ∉ c.abandoned →
    (∀ m ∈ c.members, m.index ≠ j) → ∃ t x es, exec (.collectiveTimeout c.cid j) s = .next t ∧ t.collectives = [x] ∧
      x = { c with abandoned := c.abandoned ++ [j] } ∧ t.agenda = s.agenda ++ es ∧
      { t with collectives := s.collectives, agenda := s.agenda } = s ∧ ∀ k, s.collElem x k j = identity c.op)

/-- R492, R493, R495, R498-R500, R475: samples, trace sessions, the dies' clocks and margins, clock gating, D3hot and the apertures. That
a full ring of samples drops from then on, and that a clock stops as a step of its own, rest on LOG 25; the limit of the margin is LOG 18,
the entries of the error log LOG 30. -/
def Obligations.PlatformFollowsItsConditions : Prop :=
  (∀ (s : State) (core fn : Nat) (v : VirtFn) (p : Partition) (h : Sheaf),
    (s.partitions.find? fun p => p.clusters.contains (core / 8)) = some p → p.resident = some fn → s.fns[fn]? = some v →
    s.residents fn core = [h] → s.badLines = [] → s.weak = [] →
    (v.smpcfg.getLsbD 0 = false → exec (.stallSample core) s = .next s) ∧
    (v.smpcfg.getLsbD 0 = true → ∃ t w, exec (.stallSample core) s = .next t ∧ fnIs s t fn w ∧ (core, h.seat) ∈ t.samples ∧
      { t with fns := s.fns, samples := s.samples, mem := s.mem, lines := s.lines } = s ∧
      (if v.smptail < 2 ^ ((v.smpcfg.extractLsb' 8 4).toNat + 6) then w = { v with smptail := v.smptail + 1 }
        else w = { v with smpdrop := v.smpdrop + 1 } ∧ t.mem = s.mem))) ∧
  (∀ (s : State) (fn : Nat) (v : VirtFn), s.fns[fn]? = some v →
    (v.trring.getLsbD 0 = false → ∃ t w, exec (.traceArm fn) s = .next t ∧ fnIs s t fn w ∧ w.trace = .armed ∧ w.trtail = 0 ∧
      w.trdrop = v.trdrop ∧ w.trring.getLsbD 0 = true ∧ { t with fns := s.fns } = s) ∧
    (let holds := fun (c : DWord) => (c.extractLsb' 60 4).toNat = 1 ∨
        ((c.extractLsb' 60 4).toNat = 2 ∧ (c.extractLsb' 0 60).toNat ≤ s.gtc.toNat)
     (v.trace = .armed → holds v.trstart → ∃ t w, exec (.traceStart fn) s = .next t ∧ fnIs s t fn w ∧ w.trace = .recording) ∧
     (¬ holds v.trstart ∨ v.trace ≠ .armed → exec (.traceStart fn) s = .next s) ∧
     (v.trace = .recording → holds v.trstop → ∃ t w, exec (.traceStop fn) s = .next t ∧ fnIs s t fn w ∧ w.trace = .closed) ∧
     (¬ holds v.trstop ∨ v.trace ≠ .recording → exec (.traceStop fn) s = .next s)) ∧
    (∃ t w, exec (.apertureGate fn) s = .next t ∧ fnIs s t fn w ∧ { t with fns := s.fns } = s ∧
      (w.gated = true ↔ v.gated = true ∨ (v.cq.head = v.cq.tail ∧ ∀ q ∈ v.queues.toList, q.head = q.tail ∧ q.running = []))) ∧
    ((∀ x ∈ s.latch, x.1 ≠ fn) → ∃ t, exec (.apertureWake fn) s = .next t ∧ fnIs s t fn { v with gated := false } ∧
      { t with fns := s.fns } = s) ∧
    (∀ q val, s.latch = [(fn, .lqnotifyWrite fn q val)] → ∃ u, fnIs s u fn { v with gated := false } ∧
      { u with fns := s.fns, latch := s.latch } = s ∧ u.latch = [] ∧ exec (.apertureWake fn) s = exec (.lqnotifyWrite fn q val) u)) ∧
  (∀ (s : State) (die margin : Nat) (v : Die), s.dies[die]? = some v →
    let steps := fun (c : ClockStep) (t : State) => { t with dies := s.dies } = s ∧ ∃ w, t.dies[die]? = some w ∧ w.clock = c ∧
      w.errlog.length = v.errlog.length + (if c = v.clock then 0 else 1) ∧ ∀ d : Nat, d ≠ die → t.dies[d]? = s.dies[d]?
    (∃ t, exec (.supplySag die) s = .next t ∧ steps (if v.clock = .full then .threeQuarter else .half) t) ∧
    (∃ t, exec (.clockRestore die) s = .next t ∧ steps (if v.clock = .half then .threeQuarter else .full) t) ∧
    (∃ t w, exec (.ageingCheck die margin) s = .next t ∧ { t with dies := s.dies } = s ∧ t.dies[die]? = some w ∧ w.clock = v.clock ∧
      w.margin = min margin Config.marginLimit ∧ w.aged = s.gtc.toNat ∧
      w.errlog.length = v.errlog.length + (if Config.marginLimit < margin then 1 else 0))) ∧
  (∀ (s : State) (c : Nat) (k : Cluster), s.clusters[c]? = some k →
    let busy := ∃ g ∈ s.groups, g.freed = false ∧ g.saved = false ∧ g.core / 8 = c ∧ s.members g.gid ≠ []
    let late := ∃ since, k.idle = some since ∧ since + 100000 ≤ s.gtc.toNat
    (busy ∨ k.newt ≠ [] → exec (.clusterClockGate c) s = .next s) ∧
    (¬ busy → k.newt = [] → ∃ t, exec (.clusterClockGate c) s = .next t ∧ { t with clusters := s.clusters } = s ∧
      (k.powered = true → late → t.clusters[c]? = some { k with gated := true }) ∧
      (k.powered = false ∨ ¬ late → t.clusters[c]? = some k))) ∧
  (∀ s : State, ((∀ c ∈ s.contexts, c.ended = true) → exec .d3hotEntry s = .next { s with power := .d3hot }) ∧
    ((∃ c ∈ s.contexts, c.ended = false) → exec .d3hotEntry s = .next s) ∧ exec .d3hotExit s = .next { s with power := .d0 })

/-- R7, R20, R76, R81, R85, R201, R207, R365, R462: what reset leaves: no sheaf runs, the counters and queue registers are 0, a new
partition's counter threshold is 0x0100_0100, and an unlisted line has SCALE 127. Where the spec states no value, zero is the model's choice
(LOG 2): the GTC, the heads and tails of the queues, SMPDROP, TRSTART, TRSTOP, the performance counters and the registers of a sheaf that
does not run. -/
def Obligations.ResetValues : Prop :=
  let s := State.reset
  s.gtc = 0 ∧ s.sh.life = .absent ∧ s.peers = [] ∧ s.contexts = [] ∧ s.tasks = [] ∧ s.partitions = [] ∧ s.sh.fpflags = 0 ∧
  s.sh.regs.mode = 0 ∧ s.sh.trbase = 0 ∧ s.sh.trnext = 0 ∧ s.sh.late = 0 ∧ s.sh.regs = Regs.zero ∧
  (∀ v ∈ s.fns.toList, v.parts = 0 ∧ v.res = 0 ∧ (∀ q ∈ v.queues.toList, q.cfg = 0 ∧ q.head = 0 ∧ q.tail = 0) ∧ v.cq.cfg = 0 ∧
    (∀ x ∈ v.psel.toList, x = 0) ∧ v.smpcfg = 0 ∧ v.smpdrop = 0 ∧ v.trring = 0 ∧ v.trstart = 0 ∧ v.trstop = 0) ∧
  (∀ c ∈ s.clusters.toList, ∀ x ∈ c.counters.toList, x = 0) ∧ (∀ p cs, (Partition.fresh p cs).cthr = 0x01000100) ∧
  ∀ k, isForeign k = false → lineMeta s.lines k = 0x7F00

/-- Memory and line metadata are in their canonical forms right after reset, and an unlisted byte reads 0 (the model's choice,
LOG 3). -/
def Obligations.ResetMemoryIsCanonical : Prop := State.reset.memOk ∧ ∀ k, readByte State.reset.mem k = 0

/-- Every step keeps the canonical forms of memory and line metadata, from whatever state. -/
def Obligations.StepsKeepMemoryCanonical : Prop := ∀ s t : State, s.memOk → step s = .next t → t.memOk

/-- Decoding the words of a well-formed instruction gives it back with its VER and CH, and leaves no word over. -/
def Obligations.DecodingUndoesEncoding : Prop :=
  ∀ (i : Instr) (ver : BitVec 2) (ch : Bool), i.wellFormed = true → ver ≠ 3 →
    decode (encode ver ch i) = .ok ({ ver := ver, ch := if ver = 1 then ch else false, instr := i }, (encode ver ch i).length)

/-- Words as the spec prints them decode to the instructions it names beside them, and words whose major or FN R47 leaves
unassigned, whose reserved field is not 0, or whose mandatory EXT is missing, are refused. -/
def Obligations.PrintedWordsDecode : Prop :=
  decode [0x4002858C] = .ok ({ ver := 1, ch := false, instr := .iadd 10 11 12 }, 1) ∧
  decode [0x44C20387] = .ok ({ ver := 1, ch := false, instr := .fmul 8 7 7 }, 1) ∧
  decode [0x4C8D0200] = .ok ({ ver := 1, ch := false, instr := .kandn 2 0 1 }, 1) ∧
  decode [0x7A1A0404, 0x7F802000] = .ok ({ ver := 1, ch := true, instr := .ldg 3 4 4 2 (some { ofs := 64, ord := 0, scope := 0, hint := 0 }) }, 2) ∧
  decode [0x7A138604, 0x5F852008] = .ok ({ ver := 1, ch := false, instr := .atg 2 6 2 { op := 0, ret := true, ra := false, ord := 2, scope := 2, ofs := 8 } }, 2) ∧
  decode [0x5D020A2A] = .ok ({ ver := 1, ch := false, instr := .mloop 0 32 40 42 }, 1) ∧
  decode [0x56440005] = .ok ({ ver := 1, ch := false, instr := .bnone 1 5 }, 1) ∧
  decode [0x5C851504] = .ok ({ ver := 1, ch := false, instr := .rinit 20 21 4 }, 1) ∧
  decode [0x5E000628] = .ok ({ ver := 1, ch := false, instr := .barinit 3 5 }, 1) ∧
  decode [0x5EB8A006] = .ok ({ ver := 1, ch := false, instr := .cwait 5 6 }, 1) ∧
  decode [0x57880000] = .ok ({ ver := 1, ch := false, instr := .rett }, 1) ∧
  decode [0x53000000] = .error .unassignedMajor ∧ decode [0x5F000000] = .error .unassignedMajor ∧
  decode [0x4CB00000] = .error .unassignedFn ∧ decode [0x579E0000] = .error .unassignedFn ∧
  decode [0x57880001] = .error .zeroField ∧ decode [0x5A138604] = .error .extMissing

/-- When the words at the program counter decode to an instruction whose group ends with it, and nothing stands before it, a step
begins its group and runs `exec` of it; then the group ends, unless the word waits, its events are counted and time passes. A word
that stalls before issue has not issued: an engine's step is taken, else time passes. That one agent acts in a step, that time passes with
it, and that an engine acts after an issue or where nothing can issue, are the model's choices (LOG 1, LOG 12); the order of a group's words
is LOG 5. -/
def Obligations.StepsRunTheDecodedInstruction : Prop :=
  ∀ (s : State) (w : Word) (rest : List Word) (sl : Slot) (n : Nat), s.agenda = [] → s.runnable s.sh = true → s.sh.wait = none →
    s.sh.mid = false → s.sh.nextPend = none → s.atStop = false → s.sh.rep = none →
    let a := s.sh.pc.toNat
    let g : GWord := { word := w, ext := if n = 2 then rest.head? else none, addr := a, instr := .ok sl.instr }
    a < s.codeWords s.sh → s.codeStop s.sh (packetAt a) = none →
    s.packetFrom s.sh a (3 - a % 3) = w :: rest → decode (w :: rest) = .ok (sl, n) → fVer w ≠ 3 → sl.ch = false →
    s.midGroup s.sh a = false → s.awaits [g] = false →
    let l := g.latch false
    let u := (((s.correct (s.codeKeys s.sh (packetAt a))).traceIssue a).upd (·.begin [g])).load1 l []
    let counted := fun (t : State) =>
      ((if t.sh.hasIssued s.sh.retired then t.countGroup [(l, sl.instr)] s.sh.regs.em else t).traceStopAt a).after (some s.tag)
    let stays := fun (t : State) => (isWait sl.instr = true ∨ t.sh.quantumDone = true) ∧ u.sh.flagsHeld sl.instr = false
    (∀ t, exec sl.instr u = .next t →
      (t.sh.wait = none ∨ t.sh.trapped.isSome = true → step s = .next (counted (t.finish false))) ∧
      (t.sh.wait.isSome = true → t.sh.trapped = none →
        (stays t → step s = .next (counted t)) ∧
        (¬ stays t →
          (s.engine = none → step s = .next (s.after none)) ∧ ∀ e, s.engine = some e → step s = settled none (runEvent e s)))) ∧
    (∀ f, exec sl.instr u = .fault f → step s = .fault f) ∧ (∀ r, exec sl.instr u = .refused r → step s = .refused r) ∧
    (s.lrec.flags.getLsbD 3 = false → u.sh.regs = s.sh.regs ∧ u.mem = s.mem ∧ u.lines = s.lines ∧ u.sh.pc = s.sh.pc ∧
      u.sh.next = BitVec.ofNat 32 (a + n) ∧ u.sh.wait = none ∧ u.sh.snap = none ∧ u.groups = s.groups ∧ u.peers = s.peers) ∧
    ∀ t : State, t.sh.parked = [] → t.sh.trapped = none → (t.finish false).sh.pc = t.sh.next ∧ (t.finish false).mem = t.mem ∧
      (t.finish false).sh.regs = t.sh.regs
end

