-- ==== Sys2Proof/Laws/Mem.lean ====
section
/-!
SUPPORT. The laws of memory: a read after a write, a write's frame, and the canonical form that every operation keeps.
-/

namespace Sys2Proof.Machine

open Sys2Proof

variable {α : Type} [DecidableEq α] {dflt : Nat → α}

/-! ### Canonical stores -/

/-- A lower bound may be weakened. -/
theorem storeWfFrom_le {lo lo' : Nat} (h : lo ≤ lo') {m : List (Nat × α)} (hm : storeWfFrom dflt lo' m = true) :
    storeWfFrom dflt lo m = true := by
  cases m with
  | nil => rfl
  | cons c r =>
    obtain ⟨a, v⟩ := c
    simp only [storeWfFrom, Bool.and_eq_true, decide_eq_true_eq] at hm ⊢
    exact ⟨⟨h.trans hm.1.1, hm.1.2⟩, hm.2⟩

theorem storeWfFrom_cons {lo a : Nat} {v : α} {r : List (Nat × α)} :
    storeWfFrom dflt lo ((a, v) :: r) = true ↔ lo ≤ a ∧ v ≠ dflt a ∧ storeWfFrom dflt (a + 1) r = true := by
  simp only [storeWfFrom, Bool.and_eq_true, decide_eq_true_eq, and_assoc]

/-- Below its bound a canonical store lists nothing. -/
theorem storeRead_below {lo k : Nat} (h : k < lo) {m : List (Nat × α)} (hm : storeWfFrom dflt lo m = true) :
    storeRead dflt m k = dflt k := by
  induction m generalizing lo with
  | nil => rfl
  | cons c r ih =>
    obtain ⟨a, v⟩ := c
    obtain ⟨h1, -, h3⟩ := storeWfFrom_cons.1 hm
    have : a ≠ k := by omega
    simp only [storeRead, this, if_false]
    exact ih (by omega) h3

theorem storeInsert_wf {lo k : Nat} {v : α} (hlo : lo ≤ k) (hv : v ≠ dflt k) {m : List (Nat × α)}
    (hm : storeWfFrom dflt lo m = true) : storeWfFrom dflt lo (storeInsert k v m) = true := by
  induction m generalizing lo with
  | nil => exact storeWfFrom_cons.2 ⟨hlo, hv, rfl⟩
  | cons c r ih =>
    obtain ⟨a, w⟩ := c
    obtain ⟨h1, h2, h3⟩ := storeWfFrom_cons.1 hm
    simp only [storeInsert]
    split
    · exact storeWfFrom_cons.2 ⟨h1, h2, ih (by omega) h3⟩
    · split
      · next h => exact storeWfFrom_cons.2 ⟨hlo, hv, by rw [← h]; exact h3⟩
      · exact storeWfFrom_cons.2 ⟨hlo, hv, storeWfFrom_cons.2 ⟨by omega, h2, h3⟩⟩

/-- Taking entries out keeps the form. -/
theorem storeFilter_wf (p : Nat × α → Bool) {lo : Nat} {m : List (Nat × α)} (hm : storeWfFrom dflt lo m = true) :
    storeWfFrom dflt lo (m.filter p) = true := by
  induction m generalizing lo with
  | nil => rfl
  | cons c r ih =>
    obtain ⟨a, w⟩ := c
    obtain ⟨h1, h2, h3⟩ := storeWfFrom_cons.1 hm
    rw [List.filter_cons]
    split
    · exact storeWfFrom_cons.2 ⟨h1, h2, ih h3⟩
    · exact storeWfFrom_le (by omega) (ih h3)

/-- A write keeps the form. -/
theorem storeWrite_wf {lo k : Nat} (v : α) (hlo : lo ≤ k) {m : List (Nat × α)} (hm : storeWfFrom dflt lo m = true) :
    storeWfFrom dflt lo (storeWrite dflt m k v) = true := by
  unfold storeWrite
  split
  · exact storeFilter_wf _ hm
  · exact storeInsert_wf hlo ‹_› hm

theorem storeRead_insert (k j : Nat) (v : α) {lo : Nat} {m : List (Nat × α)} (hm : storeWfFrom dflt lo m = true) :
    storeRead dflt (storeInsert k v m) j = if j = k then v else storeRead dflt m j := by
  induction m generalizing lo with
  | nil => simp only [storeInsert, storeRead, eq_comm]
  | cons c r ih =>
    obtain ⟨a, w⟩ := c
    obtain ⟨-, -, h3⟩ := storeWfFrom_cons.1 hm
    by_cases hj : j = k
    · subst hj
      simp only [storeInsert]
      split
      · rw [storeRead, if_neg (by omega), ih h3, if_pos rfl, if_pos trivial]
      · split <;> simp only [storeRead, if_true]
    · have hk : ¬ k = j := fun h => hj h.symm
      simp only [storeInsert]
      split
      · rw [storeRead, storeRead, ih h3, if_neg hj]
      · split
        · next h => rw [storeRead, storeRead, if_neg hk, if_neg (by omega)]
        · rw [storeRead, if_neg hk]

theorem storeRead_filter (k j : Nat) {lo : Nat} {m : List (Nat × α)} (hm : storeWfFrom dflt lo m = true) :
    storeRead dflt (m.filter fun c => c.1 ≠ k) j = if j = k then dflt k else storeRead dflt m j := by
  induction m generalizing lo with
  | nil => simp only [List.filter_nil, storeRead]; split <;> simp_all
  | cons c r ih =>
    obtain ⟨a, w⟩ := c
    obtain ⟨-, -, h3⟩ := storeWfFrom_cons.1 hm
    rw [List.filter_cons]
    by_cases h : a = k
    · simp only [h, ne_eq, not_true_eq_false, decide_false, Bool.false_eq_true, if_false]
      have := ih h3
      simp only [ne_eq] at this
      rw [this]
      split
      · rfl
      · rw [storeRead, if_neg (by omega)]
    · simp only [ne_eq, h, not_false_eq_true, decide_true, if_true, storeRead]
      have := ih h3
      simp only [ne_eq] at this
      rw [this]
      split <;> split <;> first | rfl | omega

/-- What a key reads after a write. -/
theorem storeRead_write (k j : Nat) (v : α) {m : List (Nat × α)} (hm : storeWfFrom dflt 0 m = true) :
    storeRead dflt (storeWrite dflt m k v) j = if j = k then v else storeRead dflt m j := by
  unfold storeWrite
  split
  · next h => rw [storeRead_filter k j hm, h]
  · exact storeRead_insert k j v hm

/-- Two canonical stores that read alike are equal: the form is canonical. -/
theorem store_ext {lo : Nat} {m n : List (Nat × α)} (hm : storeWfFrom dflt lo m = true) (hn : storeWfFrom dflt lo n = true)
    (h : ∀ k, storeRead dflt m k = storeRead dflt n k) : m = n := by
  induction m generalizing lo n with
  | nil =>
    cases n with
    | nil => rfl
    | cons c r =>
      obtain ⟨a, v⟩ := c
      obtain ⟨-, h2, -⟩ := storeWfFrom_cons.1 hn
      have := h a
      simp only [storeRead, if_true] at this
      exact absurd this.symm h2
  | cons c r ih =>
    obtain ⟨a, v⟩ := c
    obtain ⟨h1, h2, h3⟩ := storeWfFrom_cons.1 hm
    cases n with
    | nil =>
      have := h a
      simp only [storeRead, if_true] at this
      exact absurd this h2
    | cons d t =>
      obtain ⟨b, w⟩ := d
      obtain ⟨g1, g2, g3⟩ := storeWfFrom_cons.1 hn
      have ha := h a
      have hb := h b
      simp only [storeRead, if_true] at ha hb
      have hab : a = b := by
        rcases Nat.lt_trichotomy a b with l | l | l
        · rw [if_neg (by omega), storeRead_below (by omega : a < b + 1) g3] at ha
          exact absurd ha h2
        · exact l
        · rw [if_neg (by omega), storeRead_below (by omega : b < a + 1) h3] at hb
          exact absurd hb.symm g2
      subst hab
      simp only [if_true] at ha
      subst ha
      refine congrArg _ (ih h3 g3 fun k => ?_)
      by_cases hk : k ≤ a
      · rw [storeRead_below (by omega) h3, storeRead_below (by omega) g3]
      · have := h k
        simpa only [storeRead, if_neg (by omega : ¬ a = k)] using this

/-! ### Bytes -/

theorem writeByte_wf (k : Nat) (v : Byte) {m : List Host.Cell} (hm : Memory.wf m = true) :
    Memory.wf (writeByte m k v) = true := storeWrite_wf v (Nat.zero_le k) hm

theorem readByte_writeByte (k j : Nat) (v : Byte) {m : List Host.Cell} (hm : Memory.wf m = true) :
    readByte (writeByte m k v) j = if j = k then v else readByte m j := storeRead_write k j v hm

theorem writeBytes_wf (bs : List Byte) (k : Nat) {m : List Host.Cell} (hm : Memory.wf m = true) :
    Memory.wf (writeBytes m k bs) = true := by
  induction bs generalizing k m with
  | nil => exact hm
  | cons b r ih => exact ih (k + 1) (writeByte_wf k b hm)

/-- What a byte reads after bytes are written from `k` upward. -/
theorem readByte_writeBytes (bs : List Byte) (k j : Nat) {m : List Host.Cell} (hm : Memory.wf m = true) :
    readByte (writeBytes m k bs) j = if k ≤ j ∧ j < k + bs.length then bs.getD (j - k) 0 else readByte m j := by
  induction bs generalizing k m with
  | nil => simp only [writeBytes, List.length_nil]; rw [if_neg (by omega)]
  | cons b r ih =>
    rw [writeBytes, ih (k + 1) (writeByte_wf k b hm), readByte_writeByte k j b hm]
    simp only [List.length_cons]
    by_cases h : j = k
    · subst h
      rw [if_neg (by omega), if_pos rfl, if_pos (by omega)]
      simp
    · rw [if_neg h]
      by_cases g : k + 1 ≤ j ∧ j < k + 1 + r.length
      · rw [if_pos g, if_pos (by omega)]
        have : j - k = (j - (k + 1)) + 1 := by omega
        rw [this, List.getD_cons_succ]
      · rw [if_neg g, if_neg (by omega)]

theorem readBytes_length (m : List Host.Cell) (k n : Nat) : (readBytes m k n).length = n := by
  induction n generalizing k with
  | zero => rfl
  | succ n ih => rw [readBytes, List.length_cons, ih]

theorem leBytes_length (n x : Nat) : (leBytes n x).length = n := by
  induction n generalizing x with
  | zero => rfl
  | succ n ih => rw [leBytes, List.length_cons, ih]

/-- The number of the bytes of a number. -/
theorem leNat_leBytes (n x : Nat) : leNat (leBytes n x) = x % 256 ^ n := by
  induction n generalizing x with
  | zero => simp only [leBytes, leNat, pow_zero, Nat.mod_one]
  | succ n ih =>
    rw [leBytes, leNat, ih, pow_succ', Nat.mod_mul, BitVec.toNat_ofNat]

/-- Bytes read back as written. -/
theorem readBytes_writeBytes (bs : List Byte) (k : Nat) {m : List Host.Cell} (hm : Memory.wf m = true) :
    readBytes (writeBytes m k bs) k bs.length = bs := by
  have key : ∀ (n i : Nat), i + n = bs.length → readBytes (writeBytes m k bs) (k + i) n = bs.drop i := by
    intro n
    induction n with
    | zero => intro i hi; rw [readBytes, List.drop_eq_nil_of_le (by omega)]
    | succ n ih =>
      intro i hi
      rw [readBytes, readByte_writeBytes bs k (k + i) hm, if_pos (by omega), Nat.add_assoc, ih (i + 1) (by omega),
        List.drop_eq_getElem_cons (by omega : i < bs.length)]
      congr 1
      rw [Nat.add_sub_cancel_left, List.getD_eq_getElem?_getD, List.getElem?_eq_getElem (by omega), Option.getD_some]
  exact key bs.length 0 (by omega)

/-- A number reads back as written (R4). -/
theorem readLE_writeBytes (k n x : Nat) {m : List Host.Cell} (hm : Memory.wf m = true) :
    readLE (writeBytes m k (leBytes n x)) k n = x % 256 ^ n := by
  have := readBytes_writeBytes (leBytes n x) k hm
  rw [leBytes_length] at this
  rw [readLE, this, leNat_leBytes]

/-! ### Line metadata -/

theorem setOwner_wf (k : Nat) (tag : BitVec 12) {l : List (Nat × BitVec 32)} (h : Memory.linesWf l = true) :
    Memory.linesWf (setOwner l k tag) = true := by
  unfold setOwner
  split
  · exact h
  · exact storeWrite_wf _ (Nat.zero_le _) h

theorem setDesc_wf (k : Nat) (tag : BitVec 12) (d : BitVec 16) {l : List (Nat × BitVec 32)} (h : Memory.linesWf l = true) :
    Memory.linesWf (setDesc l k tag d) = true := by
  unfold setDesc
  split
  · exact h
  · exact storeWrite_wf _ (Nat.zero_le _) h

theorem setOwners_wf (k : Nat) (tag : BitVec 12) (n : Nat) {l : List (Nat × BitVec 32)} (h : Memory.linesWf l = true) :
    Memory.linesWf (setOwners l k tag n) = true := by
  induction n with
  | zero => exact h
  | succ n ih => exact setOwner_wf _ _ ih

/-- A fold of operations that keep the form keeps it. -/
theorem linesFold_wf {β : Type} (f : List (Nat × BitVec 32) → β → List (Nat × BitVec 32))
    (hf : ∀ l b, Memory.linesWf l = true → Memory.linesWf (f l b) = true) (bs : List β) {l : List (Nat × BitVec 32)}
    (h : Memory.linesWf l = true) : Memory.linesWf (bs.foldl f l) = true := by
  induction bs generalizing l with
  | nil => exact h
  | cons b r ih => exact ih (hf l b h)

/-- Metadata of a line after an owner is set (R86). -/
theorem lineMeta_setOwner (k j : Nat) (tag : BitVec 12) {l : List (Nat × BitVec 32)} (h : Memory.linesWf l = true) :
    lineMeta (setOwner l k tag) j =
      if isForeign k then lineMeta l j else if lineOf j = lineOf k then (0#4 ++ tag) ++ lineDesc l k else lineMeta l j := by
  unfold setOwner lineMeta
  split
  · rfl
  · exact storeRead_write _ _ _ h

/-- Metadata of a line after a descriptor is written (R127). -/
theorem lineMeta_setDesc (k j : Nat) (tag : BitVec 12) (d : BitVec 16) {l : List (Nat × BitVec 32)} (h : Memory.linesWf l = true) :
    lineMeta (setDesc l k tag d) j =
      if isForeign k then lineMeta l j else if lineOf j = lineOf k then (0#4 ++ tag) ++ d else lineMeta l j := by
  unfold setDesc lineMeta
  split
  · rfl
  · exact storeRead_write _ _ _ h

/-! ### The named writes keep the canonical form -/

theorem putBytes_mem_wf (s : State) (tag : BitVec 12) (k : Nat) (bs : List Byte) (h : Memory.wf s.mem = true) :
    Memory.wf (s.putBytes tag k bs).mem = true := writeBytes_wf bs k h

theorem putBytes_lines_wf (s : State) (tag : BitVec 12) (k : Nat) (bs : List Byte) (h : Memory.linesWf s.lines = true) :
    Memory.linesWf (s.putBytes tag k bs).lines = true := by
  simp only [State.putBytes]
  split
  · exact h
  · exact linesFold_wf _ (fun l j hl => setOwner_wf _ _ hl) _ h

theorem putDesc_lines_wf (s : State) (tag : BitVec 12) (k : Nat) (d : BitVec 16) (h : Memory.linesWf s.lines = true) :
    Memory.linesWf (s.putDesc tag k d).lines = true := setDesc_wf _ _ _ h

theorem clearRange_mem_wf (s : State) (tag : BitVec 12) (k len : Nat) (h : Memory.wf s.mem = true) :
    Memory.wf (s.clearRange tag k len).mem = true := storeFilter_wf _ h

/-- The same fold from the right. -/
theorem linesFoldr_wf {β : Type} (f : β → List (Nat × BitVec 32) → List (Nat × BitVec 32))
    (hf : ∀ b l, Memory.linesWf l = true → Memory.linesWf (f b l) = true) (bs : List β) {l : List (Nat × BitVec 32)}
    (h : Memory.linesWf l = true) : Memory.linesWf (bs.foldr f l) = true := by
  induction bs with
  | nil => exact h
  | cons b r ih => exact hf b _ ih

theorem clearRange_lines_wf (s : State) (tag : BitVec 12) (k len : Nat) (h : Memory.linesWf s.lines = true) :
    Memory.linesWf (s.clearRange tag k len).lines = true :=
  linesFoldr_wf _ (fun _ _ hl => setDesc_wf _ _ _ hl) _ h

theorem dropRange_mem_wf (s : State) (k len : Nat) (h : Memory.wf s.mem = true) :
    Memory.wf (s.dropRange k len).mem = true := storeFilter_wf _ h

theorem dropRange_lines_wf (s : State) (k len : Nat) (h : Memory.linesWf s.lines = true) :
    Memory.linesWf (s.dropRange k len).lines = true := storeFilter_wf _ h

/-- A byte of a range put back to reset reads as reset memory does; every other byte reads as before (R85). -/
theorem readByte_dropRange (s : State) (k len j : Nat) :
    readByte (s.dropRange k len).mem j =
      if k ≤ j ∧ j < k + len then 0 else readByte s.mem j := by
  unfold State.dropRange readByte
  induction s.mem with
  | nil => simp only [List.filter_nil, storeRead]; split <;> rfl
  | cons c r ih =>
    obtain ⟨a, v⟩ := c
    simp only at ih
    simp only [List.filter_cons]
    split
    · next h =>
      simp only [Bool.or_eq_true, decide_eq_true_eq] at h
      by_cases hj : a = j
      · subst hj
        simp only [storeRead, if_true]
        rw [if_neg (by omega)]
      · simp only [storeRead, if_neg hj]
        exact ih
    · next h =>
      simp only [Bool.or_eq_true, decide_eq_true_eq] at h
      by_cases hj : a = j
      · subst hj
        rw [ih, if_pos (by omega), if_pos (by omega)]
      · rw [ih, storeRead, if_neg hj]

end Sys2Proof.Machine
end

