-- ==== Sys2Proof/Laws/Regs.lean ====
section
/-!
SUPPORT. The laws of registers: a read after a write, what a write leaves alone, and what a result and its push leave in every
lane of every register (R35, R38, R39, R237, R238).
-/

namespace Sys2Proof.Machine

open Sys2Proof

/-! ### Rows -/

theorem laneOf_rowOf (f : Nat → Word) {i : Nat} (h : i < 64) : laneOf (rowOf f) i = f i := by
  simp [laneOf, rowOf, h]

theorem laneOf_get (r : Row) {i : Nat} (h : i < 64) : laneOf r i = r[i] := by
  simp [laneOf, h]

/-- A row is its lanes. -/
theorem row_ext {a b : Row} (h : ∀ i, i < 64 → laneOf a i = laneOf b i) : a = b := by
  apply Vector.ext
  intro i hi
  have := h i hi
  rwa [laneOf_get a hi, laneOf_get b hi] at this

theorem laneOf_zero (i : Nat) : laneOf Row.zero i = 0 := by
  simp only [laneOf, Row.zero, Vector.toArray_replicate, Array.getD_eq_getD_getElem?, Array.getElem?_replicate]
  split <;> rfl

theorem laneOf_mergeRow (em : DWord) (old x : Row) {i : Nat} (h : i < 64) :
    laneOf (mergeRow em old x) i = if em.getLsbD i then laneOf x i else laneOf old i := laneOf_rowOf _ h

/-! ### Scalar and predicate registers -/

@[simp] theorem Regs.getS_zero (r : Regs) : r.getS 0 = 0 := by simp [Regs.getS]

/-- s0 discards a write; any other scalar register takes it. -/
theorem Regs.getS_setS (r : Regs) (c c' : SCode) (x : DWord) :
    (r.setS c x).getS c' = if c' = c ∧ c' ≠ 0 then x else r.getS c' := by
  unfold Regs.setS Regs.getS
  by_cases h0 : c' = 0
  · simp [h0]
  · by_cases hc : c = 0
    · subst hc; simp
    · simp only [hc, h0, if_false, Vector.getElem_set, ne_eq, not_false_eq_true, and_true]
      by_cases h : c' = c
      · simp [h]
      · have : c.toNat ≠ c'.toNat := fun e => h (BitVec.eq_of_toNat_eq e.symm)
        simp [h, this]

@[simp] theorem Regs.setS_v (r : Regs) (c : SCode) (x : DWord) : (r.setS c x).v = r.v := by unfold Regs.setS; split <;> rfl
@[simp] theorem Regs.setS_o (r : Regs) (c : SCode) (x : DWord) : (r.setS c x).o = r.o := by unfold Regs.setS; split <;> rfl
@[simp] theorem Regs.setS_w (r : Regs) (c : SCode) (x : DWord) : (r.setS c x).w = r.w := by unfold Regs.setS; split <;> rfl
@[simp] theorem Regs.setS_k (r : Regs) (c : SCode) (x : DWord) : (r.setS c x).k = r.k := by unfold Regs.setS; split <;> rfl
@[simp] theorem Regs.setS_em (r : Regs) (c : SCode) (x : DWord) : (r.setS c x).em = r.em := by unfold Regs.setS; split <;> rfl
@[simp] theorem Regs.setS_mode (r : Regs) (c : SCode) (x : DWord) : (r.setS c x).mode = r.mode := by
  unfold Regs.setS; split <;> rfl

theorem Regs.getK_setK (r : Regs) (c c' : KCode) (x : DWord) :
    (r.setK c x).getK c' = if c' = c then x else r.getK c' := by
  unfold Regs.setK Regs.getK
  simp only [Vector.getElem_set]
  by_cases h : c' = c
  · simp [h]
  · have : c.toNat ≠ c'.toNat := fun e => h (BitVec.eq_of_toNat_eq e.symm)
    simp [h, this]

@[simp] theorem Regs.setK_v (r : Regs) (c : KCode) (x : DWord) : (r.setK c x).v = r.v := rfl
@[simp] theorem Regs.setK_o (r : Regs) (c : KCode) (x : DWord) : (r.setK c x).o = r.o := rfl
@[simp] theorem Regs.setK_w (r : Regs) (c : KCode) (x : DWord) : (r.setK c x).w = r.w := rfl
@[simp] theorem Regs.setK_s (r : Regs) (c : KCode) (x : DWord) : (r.setK c x).s = r.s := rfl
@[simp] theorem Regs.setK_em (r : Regs) (c : KCode) (x : DWord) : (r.setK c x).em = r.em := rfl
@[simp] theorem Regs.setK_mode (r : Regs) (c : KCode) (x : DWord) : (r.setK c x).mode = r.mode := rfl

/-! ### Vector registers -/

@[simp] theorem Regs.put_s (r : Regs) (c : Nat) (x : Row) : (r.put c x).s = r.s := by
  unfold Regs.put; split <;> [rfl; (split <;> rfl)]
@[simp] theorem Regs.put_k (r : Regs) (c : Nat) (x : Row) : (r.put c x).k = r.k := by
  unfold Regs.put; split <;> [rfl; (split <;> rfl)]
@[simp] theorem Regs.put_em (r : Regs) (c : Nat) (x : Row) : (r.put c x).em = r.em := by
  unfold Regs.put; split <;> [rfl; (split <;> rfl)]
@[simp] theorem Regs.put_mode (r : Regs) (c : Nat) (x : Row) : (r.put c x).mode = r.mode := by
  unfold Regs.put; split <;> [rfl; (split <;> rfl)]
@[simp] theorem Regs.put_w (r : Regs) (c : Nat) (x : Row) : (r.put c x).w = r.w := by
  unfold Regs.put; split <;> [rfl; (split <;> rfl)]

/-- A destination takes a row; every other register code reads as before. -/
theorem Regs.file_put (r : Regs) (c c' : Nat) (x : Row) :
    (r.put c x).file c' = if c' = c ∧ c < 104 then x else r.file c' := by
  unfold Regs.put Regs.file
  by_cases h1 : c < 96
  · by_cases h : c' = c
    · subst h
      simp only [h1, if_true, true_and, show c' < 104 by omega]
      simp [h1]
    · simp only [h1, if_true, h, false_and, if_false]
      split
      · simp [Array.getD_eq_getD_getElem?, Ne.symm h]
      · rfl
  · by_cases h2 : c < 104
    · by_cases h : c' = c
      · subst h
        simp only [h1, if_false, h2, if_true, true_and]
        have : c' - 96 < 8 := by omega
        simp [this]
      · simp only [h1, if_false, h2, if_true, h, false_and]
        split
        · rfl
        · split
          · have : c - 96 ≠ c' - 96 := by omega
            simp [Array.getD_eq_getD_getElem?, this]
          · rfl
    · simp [h1, h2]

@[simp] theorem Regs.write_s (r : Regs) (em : DWord) (c : Nat) (x : Row) : (r.write em c x).s = r.s := by simp [Regs.write]
@[simp] theorem Regs.write_k (r : Regs) (em : DWord) (c : Nat) (x : Row) : (r.write em c x).k = r.k := by simp [Regs.write]
@[simp] theorem Regs.write_em (r : Regs) (em : DWord) (c : Nat) (x : Row) : (r.write em c x).em = r.em := by simp [Regs.write]
@[simp] theorem Regs.write_mode (r : Regs) (em : DWord) (c : Nat) (x : Row) : (r.write em c x).mode = r.mode := by
  simp [Regs.write]
@[simp] theorem Regs.write_w (r : Regs) (em : DWord) (c : Nat) (x : Row) : (r.write em c x).w = r.w := by simp [Regs.write]

/-- A write changes the lanes of the mask in the register of its code, if there is one (R237). -/
theorem Regs.lane_write (r : Regs) (em : DWord) (c c' : Nat) (x : Row) {i : Nat} (hi : i < 64) :
    laneOf ((r.write em c x).file c') i =
      if c' = c ∧ c < 104 ∧ em.getLsbD i = true then laneOf x i else laneOf (r.file c') i := by
  unfold Regs.write
  rw [Regs.file_put]
  by_cases h : c' = c ∧ c < 104
  · obtain ⟨rfl, h2⟩ := h
    simp only [h2, and_self, if_true, true_and, laneOf_mergeRow _ _ _ hi]
  · have h' : ¬ (c' = c ∧ c < 104 ∧ em.getLsbD i = true) := fun a => h ⟨a.1, a.2.1⟩
    simp only [h, h', if_false]

/-! ### The last-result file -/

@[simp] theorem Regs.push_v (r : Regs) (em : DWord) (x : Row) : (r.push em x).v = r.v := rfl
@[simp] theorem Regs.push_o (r : Regs) (em : DWord) (x : Row) : (r.push em x).o = r.o := rfl
@[simp] theorem Regs.push_s (r : Regs) (em : DWord) (x : Row) : (r.push em x).s = r.s := rfl
@[simp] theorem Regs.push_k (r : Regs) (em : DWord) (x : Row) : (r.push em x).k = r.k := rfl
@[simp] theorem Regs.push_em (r : Regs) (em : DWord) (x : Row) : (r.push em x).em = r.em := rfl
@[simp] theorem Regs.push_mode (r : Regs) (em : DWord) (x : Row) : (r.push em x).mode = r.mode := rfl

/-- A push leaves every v and o register. -/
theorem Regs.file_push (r : Regs) (em : DWord) (x : Row) {c : Nat} (h : c < 104) : (r.push em x).file c = r.file c := by
  unfold Regs.file Regs.push
  simp only [h]
  split <;> rfl

/-- A push shifts w0-w2 down and puts the result into w0 (R38). -/
theorem Regs.file_push_w (r : Regs) (em : DWord) (x : Row) :
    (r.push em x).file 104 = mergeRow em Row.zero x ∧ (r.push em x).file 105 = r.file 104 ∧
      (r.push em x).file 106 = r.file 105 ∧ (r.push em x).file 107 = r.file 106 := by
  refine ⟨?_, ?_, ?_, ?_⟩ <;> simp [Regs.file, Regs.push, Array.getD_eq_getD_getElem?]

/-- The last-result registers read through a write of a v or o register. -/
theorem Regs.file_write_w (r : Regs) (em : DWord) (c : Nat) (x : Row) {c' : Nat} (h : 104 ≤ c') :
    (r.write em c x).file c' = r.file c' := by
  unfold Regs.write
  rw [Regs.file_put]
  split
  · omega
  · rfl

/-! ### Results -/

/-- A 32-bit result: the destination's active lanes, and nothing else of v and o. -/
theorem Regs.result_lane (r : Regs) (em : DWord) (d : VCode) (x : Row) {c i : Nat} (hc : c < 104) (hi : i < 64) :
    laneOf ((r.result em d x).file c) i =
      if c = d.toNat ∧ em.getLsbD i = true then laneOf x i else laneOf (r.file c) i := by
  unfold Regs.result
  rw [Regs.file_push _ _ _ hc, Regs.lane_write _ _ _ _ _ hi]
  by_cases h : c = d.toNat
  · simp [h, h ▸ hc]
  · simp [h]

/-- A 32-bit result: one push. -/
theorem Regs.result_push (r : Regs) (em : DWord) (d : VCode) (x : Row) :
    (∀ i, i < 64 → laneOf ((r.result em d x).file 104) i = if em.getLsbD i = true then laneOf x i else 0) ∧
      (r.result em d x).file 105 = r.file 104 ∧ (r.result em d x).file 106 = r.file 105 ∧
      (r.result em d x).file 107 = r.file 106 := by
  obtain ⟨h1, h2, h3, h4⟩ := Regs.file_push_w (r.write em d.toNat x) em x
  unfold Regs.result
  rw [h1, h2, h3, h4]
  refine ⟨fun i hi => ?_, ?_, ?_, ?_⟩
  · rw [laneOf_mergeRow _ _ _ hi, laneOf_zero]
  all_goals exact Regs.file_write_w _ _ _ _ (by omega)

/-- A 32-bit result leaves the scalar registers, the predicates, the mask and the mode. -/
theorem Regs.result_scalars (r : Regs) (em : DWord) (d : VCode) (x : Row) :
    (r.result em d x).s = r.s ∧ (r.result em d x).k = r.k ∧ (r.result em d x).em = r.em ∧ (r.result em d x).mode = r.mode := by
  simp [Regs.result]

/-- A 64-bit result: the active lanes of the pair, and nothing else of v and o. -/
theorem Regs.result64_lane (r : Regs) (em : DWord) (d : VCode) (f : Nat → DWord) {c i : Nat} (hc : c < 104) (hi : i < 64) :
    laneOf ((r.result64 em d f).file c) i =
      if em.getLsbD i = true ∧ d.toNat < 104 ∧ c = d.toNat then (f i).setWidth 32
      else if em.getLsbD i = true ∧ d.toNat < 104 ∧ c = d.toNat + 1 then (f i).extractLsb' 32 32
      else laneOf (r.file c) i := by
  unfold Regs.result64
  rw [Regs.file_push _ _ _ hc, Regs.file_push _ _ _ hc, Regs.lane_write _ _ _ _ _ hi, Regs.lane_write _ _ _ _ _ hi,
    laneOf_rowOf _ hi, laneOf_rowOf _ hi]
  by_cases he : em.getLsbD i = true
  · by_cases hd : d.toNat < 104
    · by_cases h1 : c = d.toNat
      · simp [he, hd, h1]
      · by_cases h2 : c = d.toNat + 1
        · simp [he, hd, h2, h2 ▸ hc]
        · simp [he, hd, h1, h2]
    · have : c ≠ d.toNat := by omega
      have : c ≠ 127 := by omega
      simp [*]
  · simp [he]

/-- A 64-bit result: two pushes, the low half first (R38). -/
theorem Regs.result64_push (r : Regs) (em : DWord) (d : VCode) (f : Nat → DWord) :
    (∀ i, i < 64 → laneOf ((r.result64 em d f).file 104) i = if em.getLsbD i = true then (f i).extractLsb' 32 32 else 0) ∧
      (∀ i, i < 64 → laneOf ((r.result64 em d f).file 105) i = if em.getLsbD i = true then (f i).setWidth 32 else 0) ∧
      (r.result64 em d f).file 106 = r.file 104 ∧ (r.result64 em d f).file 107 = r.file 105 := by
  unfold Regs.result64
  simp only []
  obtain ⟨a1, a2, a3, a4⟩ := Regs.file_push_w
    (((r.write em d.toNat (rowOf fun i => (f i).setWidth 32)).write em (if d.toNat < 104 then d.toNat + 1 else 127)
      (rowOf fun i => (f i).extractLsb' 32 32)).push em (rowOf fun i => (f i).setWidth 32)) em
    (rowOf fun i => (f i).extractLsb' 32 32)
  obtain ⟨b1, b2, b3, b4⟩ := Regs.file_push_w
    ((r.write em d.toNat (rowOf fun i => (f i).setWidth 32)).write em (if d.toNat < 104 then d.toNat + 1 else 127)
      (rowOf fun i => (f i).extractLsb' 32 32)) em (rowOf fun i => (f i).setWidth 32)
  rw [a1, a2, a3, a4, b1, b2, b3]
  refine ⟨fun i hi => ?_, fun i hi => ?_, ?_, ?_⟩
  · rw [laneOf_mergeRow _ _ _ hi, laneOf_zero, laneOf_rowOf _ hi]
  · rw [laneOf_mergeRow _ _ _ hi, laneOf_zero, laneOf_rowOf _ hi]
  all_goals rw [Regs.file_write_w _ _ _ _ (by omega), Regs.file_write_w _ _ _ _ (by omega)]

theorem Regs.result64_scalars (r : Regs) (em : DWord) (d : VCode) (f : Nat → DWord) :
    (r.result64 em d f).s = r.s ∧ (r.result64 em d f).k = r.k ∧ (r.result64 em d f).em = r.em ∧
      (r.result64 em d f).mode = r.mode := by
  simp [Regs.result64]

/-! ### Masks -/

/-- A mask holds bit i exactly where its predicate does. -/
theorem maskOf_bit (p : Nat → Bool) {i : Nat} (h : i < 64) : (maskOf p).getLsbD i = p i := by
  unfold maskOf
  rw [BitVec.getLsbD_setWidth, BitVec.getLsbD_ofBoolListLE]
  simp [h, List.getD_eq_getElem?_getD]

/-- The lanes of a mask are those whose bit it holds. -/
theorem mem_lanesOf (m : DWord) (i : Nat) : i ∈ lanesOf m ↔ i < 64 ∧ m.getLsbD i = true := by
  simp [lanesOf]

end Sys2Proof.Machine
end

