-- ==== Sys2Proof/Laws/State.lean ====
section
/-!
SUPPORT. What each small update of State leaves in each of its fields, one lemma a field and update, so that no proof unfolds a
record update; and what a change of registers leaves in each field of a sheaf.
-/

namespace Sys2Proof.Machine

open Sys2Proof

/-! ### upd -/

@[simp] theorem State.upd_sh (s : State) (f : Sheaf → Sheaf) : (s.upd f).sh = f s.sh := rfl
@[simp] theorem State.upd_peers (s : State) (f : Sheaf → Sheaf) : (s.upd f).peers = s.peers := rfl
@[simp] theorem State.upd_agenda (s : State) (f : Sheaf → Sheaf) : (s.upd f).agenda = s.agenda := rfl
@[simp] theorem State.upd_gtc (s : State) (f : Sheaf → Sheaf) : (s.upd f).gtc = s.gtc := rfl
@[simp] theorem State.upd_mem (s : State) (f : Sheaf → Sheaf) : (s.upd f).mem = s.mem := rfl
@[simp] theorem State.upd_lines (s : State) (f : Sheaf → Sheaf) : (s.upd f).lines = s.lines := rfl
@[simp] theorem State.upd_badLines (s : State) (f : Sheaf → Sheaf) : (s.upd f).badLines = s.badLines := rfl
@[simp] theorem State.upd_weak (s : State) (f : Sheaf → Sheaf) : (s.upd f).weak = s.weak := rfl
@[simp] theorem State.upd_parking (s : State) (f : Sheaf → Sheaf) : (s.upd f).parking = s.parking := rfl
@[simp] theorem State.upd_moves (s : State) (f : Sheaf → Sheaf) : (s.upd f).moves = s.moves := rfl
@[simp] theorem State.upd_groups (s : State) (f : Sheaf → Sheaf) : (s.upd f).groups = s.groups := rfl
@[simp] theorem State.upd_tasks (s : State) (f : Sheaf → Sheaf) : (s.upd f).tasks = s.tasks := rfl
@[simp] theorem State.upd_contexts (s : State) (f : Sheaf → Sheaf) : (s.upd f).contexts = s.contexts := rfl
@[simp] theorem State.upd_bins (s : State) (f : Sheaf → Sheaf) : (s.upd f).bins = s.bins := rfl
@[simp] theorem State.upd_held (s : State) (f : Sheaf → Sheaf) : (s.upd f).held = s.held := rfl
@[simp] theorem State.upd_iwrites (s : State) (f : Sheaf → Sheaf) : (s.upd f).iwrites = s.iwrites := rfl
@[simp] theorem State.upd_invalids (s : State) (f : Sheaf → Sheaf) : (s.upd f).invalids = s.invalids := rfl
@[simp] theorem State.upd_tlb (s : State) (f : Sheaf → Sheaf) : (s.upd f).tlb = s.tlb := rfl
@[simp] theorem State.upd_halts (s : State) (f : Sheaf → Sheaf) : (s.upd f).halts = s.halts := rfl
@[simp] theorem State.upd_fns (s : State) (f : Sheaf → Sheaf) : (s.upd f).fns = s.fns := rfl
@[simp] theorem State.upd_partitions (s : State) (f : Sheaf → Sheaf) : (s.upd f).partitions = s.partitions := rfl
@[simp] theorem State.upd_dies (s : State) (f : Sheaf → Sheaf) : (s.upd f).dies = s.dies := rfl
@[simp] theorem State.upd_clusters (s : State) (f : Sheaf → Sheaf) : (s.upd f).clusters = s.clusters := rfl
@[simp] theorem State.upd_scoreboard (s : State) (f : Sheaf → Sheaf) : (s.upd f).scoreboard = s.scoreboard := rfl
@[simp] theorem State.upd_halted (s : State) (f : Sheaf → Sheaf) : (s.upd f).halted = s.halted := rfl
@[simp] theorem State.upd_deaths (s : State) (f : Sheaf → Sheaf) : (s.upd f).deaths = s.deaths := rfl
@[simp] theorem State.upd_modId (s : State) (f : Sheaf → Sheaf) : (s.upd f).modId = s.modId := rfl
@[simp] theorem State.upd_routes (s : State) (f : Sheaf → Sheaf) : (s.upd f).routes = s.routes := rfl
@[simp] theorem State.upd_power (s : State) (f : Sheaf → Sheaf) : (s.upd f).power = s.power := rfl
@[simp] theorem State.upd_saves (s : State) (f : Sheaf → Sheaf) : (s.upd f).saves = s.saves := rfl
@[simp] theorem State.upd_samples (s : State) (f : Sheaf → Sheaf) : (s.upd f).samples = s.samples := rfl
@[simp] theorem State.upd_hublog (s : State) (f : Sheaf → Sheaf) : (s.upd f).hublog = s.hublog := rfl
@[simp] theorem State.upd_latch (s : State) (f : Sheaf → Sheaf) : (s.upd f).latch = s.latch := rfl
@[simp] theorem State.upd_irqs (s : State) (f : Sheaf → Sheaf) : (s.upd f).irqs = s.irqs := rfl
@[simp] theorem State.upd_stubs (s : State) (f : Sheaf → Sheaf) : (s.upd f).stubs = s.stubs := rfl
@[simp] theorem State.upd_nacks (s : State) (f : Sheaf → Sheaf) : (s.upd f).nacks = s.nacks := rfl
@[simp] theorem State.upd_collectives (s : State) (f : Sheaf → Sheaf) : (s.upd f).collectives = s.collectives := rfl
@[simp] theorem State.upd_firmware (s : State) (f : Sheaf → Sheaf) : (s.upd f).firmware = s.firmware := rfl
@[simp] theorem State.upd_checkpoints (s : State) (f : Sheaf → Sheaf) : (s.upd f).checkpoints = s.checkpoints := rfl
@[simp] theorem State.upd_stop (s : State) (f : Sheaf → Sheaf) : (s.upd f).stop = s.stop := rfl
@[simp] theorem State.upd_fresh (s : State) (f : Sheaf → Sheaf) : (s.upd f).fresh = s.fresh := rfl

/-! ### regs -/

@[simp] theorem State.regs_sh (s : State) (f : Regs → Regs) : (s.regs f).sh = { s.sh with regs := f s.sh.regs } := rfl
@[simp] theorem State.regs_peers (s : State) (f : Regs → Regs) : (s.regs f).peers = s.peers := rfl
@[simp] theorem State.regs_agenda (s : State) (f : Regs → Regs) : (s.regs f).agenda = s.agenda := rfl
@[simp] theorem State.regs_gtc (s : State) (f : Regs → Regs) : (s.regs f).gtc = s.gtc := rfl
@[simp] theorem State.regs_mem (s : State) (f : Regs → Regs) : (s.regs f).mem = s.mem := rfl
@[simp] theorem State.regs_lines (s : State) (f : Regs → Regs) : (s.regs f).lines = s.lines := rfl
@[simp] theorem State.regs_badLines (s : State) (f : Regs → Regs) : (s.regs f).badLines = s.badLines := rfl
@[simp] theorem State.regs_weak (s : State) (f : Regs → Regs) : (s.regs f).weak = s.weak := rfl
@[simp] theorem State.regs_parking (s : State) (f : Regs → Regs) : (s.regs f).parking = s.parking := rfl
@[simp] theorem State.regs_moves (s : State) (f : Regs → Regs) : (s.regs f).moves = s.moves := rfl
@[simp] theorem State.regs_groups (s : State) (f : Regs → Regs) : (s.regs f).groups = s.groups := rfl
@[simp] theorem State.regs_tasks (s : State) (f : Regs → Regs) : (s.regs f).tasks = s.tasks := rfl
@[simp] theorem State.regs_contexts (s : State) (f : Regs → Regs) : (s.regs f).contexts = s.contexts := rfl
@[simp] theorem State.regs_bins (s : State) (f : Regs → Regs) : (s.regs f).bins = s.bins := rfl
@[simp] theorem State.regs_held (s : State) (f : Regs → Regs) : (s.regs f).held = s.held := rfl
@[simp] theorem State.regs_iwrites (s : State) (f : Regs → Regs) : (s.regs f).iwrites = s.iwrites := rfl
@[simp] theorem State.regs_invalids (s : State) (f : Regs → Regs) : (s.regs f).invalids = s.invalids := rfl
@[simp] theorem State.regs_tlb (s : State) (f : Regs → Regs) : (s.regs f).tlb = s.tlb := rfl
@[simp] theorem State.regs_halts (s : State) (f : Regs → Regs) : (s.regs f).halts = s.halts := rfl
@[simp] theorem State.regs_fns (s : State) (f : Regs → Regs) : (s.regs f).fns = s.fns := rfl
@[simp] theorem State.regs_partitions (s : State) (f : Regs → Regs) : (s.regs f).partitions = s.partitions := rfl
@[simp] theorem State.regs_dies (s : State) (f : Regs → Regs) : (s.regs f).dies = s.dies := rfl
@[simp] theorem State.regs_clusters (s : State) (f : Regs → Regs) : (s.regs f).clusters = s.clusters := rfl
@[simp] theorem State.regs_scoreboard (s : State) (f : Regs → Regs) : (s.regs f).scoreboard = s.scoreboard := rfl
@[simp] theorem State.regs_halted (s : State) (f : Regs → Regs) : (s.regs f).halted = s.halted := rfl
@[simp] theorem State.regs_deaths (s : State) (f : Regs → Regs) : (s.regs f).deaths = s.deaths := rfl
@[simp] theorem State.regs_modId (s : State) (f : Regs → Regs) : (s.regs f).modId = s.modId := rfl
@[simp] theorem State.regs_routes (s : State) (f : Regs → Regs) : (s.regs f).routes = s.routes := rfl
@[simp] theorem State.regs_power (s : State) (f : Regs → Regs) : (s.regs f).power = s.power := rfl
@[simp] theorem State.regs_saves (s : State) (f : Regs → Regs) : (s.regs f).saves = s.saves := rfl
@[simp] theorem State.regs_samples (s : State) (f : Regs → Regs) : (s.regs f).samples = s.samples := rfl
@[simp] theorem State.regs_hublog (s : State) (f : Regs → Regs) : (s.regs f).hublog = s.hublog := rfl
@[simp] theorem State.regs_latch (s : State) (f : Regs → Regs) : (s.regs f).latch = s.latch := rfl
@[simp] theorem State.regs_irqs (s : State) (f : Regs → Regs) : (s.regs f).irqs = s.irqs := rfl
@[simp] theorem State.regs_stubs (s : State) (f : Regs → Regs) : (s.regs f).stubs = s.stubs := rfl
@[simp] theorem State.regs_nacks (s : State) (f : Regs → Regs) : (s.regs f).nacks = s.nacks := rfl
@[simp] theorem State.regs_collectives (s : State) (f : Regs → Regs) : (s.regs f).collectives = s.collectives := rfl
@[simp] theorem State.regs_firmware (s : State) (f : Regs → Regs) : (s.regs f).firmware = s.firmware := rfl
@[simp] theorem State.regs_checkpoints (s : State) (f : Regs → Regs) : (s.regs f).checkpoints = s.checkpoints := rfl
@[simp] theorem State.regs_stop (s : State) (f : Regs → Regs) : (s.regs f).stop = s.stop := rfl
@[simp] theorem State.regs_fresh (s : State) (f : Regs → Regs) : (s.regs f).fresh = s.fresh := rfl

/-! ### mapSheaves -/

@[simp] theorem State.mapSheaves_sh (s : State) (f : Sheaf → Sheaf) : (s.mapSheaves f).sh = f s.sh := rfl
@[simp] theorem State.mapSheaves_peers (s : State) (f : Sheaf → Sheaf) : (s.mapSheaves f).peers = s.peers.map f := rfl
@[simp] theorem State.mapSheaves_agenda (s : State) (f : Sheaf → Sheaf) : (s.mapSheaves f).agenda = s.agenda := rfl
@[simp] theorem State.mapSheaves_gtc (s : State) (f : Sheaf → Sheaf) : (s.mapSheaves f).gtc = s.gtc := rfl
@[simp] theorem State.mapSheaves_mem (s : State) (f : Sheaf → Sheaf) : (s.mapSheaves f).mem = s.mem := rfl
@[simp] theorem State.mapSheaves_lines (s : State) (f : Sheaf → Sheaf) : (s.mapSheaves f).lines = s.lines := rfl
@[simp] theorem State.mapSheaves_badLines (s : State) (f : Sheaf → Sheaf) : (s.mapSheaves f).badLines = s.badLines := rfl
@[simp] theorem State.mapSheaves_weak (s : State) (f : Sheaf → Sheaf) : (s.mapSheaves f).weak = s.weak := rfl
@[simp] theorem State.mapSheaves_parking (s : State) (f : Sheaf → Sheaf) : (s.mapSheaves f).parking = s.parking := rfl
@[simp] theorem State.mapSheaves_moves (s : State) (f : Sheaf → Sheaf) : (s.mapSheaves f).moves = s.moves := rfl
@[simp] theorem State.mapSheaves_groups (s : State) (f : Sheaf → Sheaf) : (s.mapSheaves f).groups = s.groups := rfl
@[simp] theorem State.mapSheaves_tasks (s : State) (f : Sheaf → Sheaf) : (s.mapSheaves f).tasks = s.tasks := rfl
@[simp] theorem State.mapSheaves_contexts (s : State) (f : Sheaf → Sheaf) : (s.mapSheaves f).contexts = s.contexts := rfl
@[simp] theorem State.mapSheaves_bins (s : State) (f : Sheaf → Sheaf) : (s.mapSheaves f).bins = s.bins := rfl
@[simp] theorem State.mapSheaves_held (s : State) (f : Sheaf → Sheaf) : (s.mapSheaves f).held = s.held := rfl
@[simp] theorem State.mapSheaves_iwrites (s : State) (f : Sheaf → Sheaf) : (s.mapSheaves f).iwrites = s.iwrites := rfl
@[simp] theorem State.mapSheaves_invalids (s : State) (f : Sheaf → Sheaf) : (s.mapSheaves f).invalids = s.invalids := rfl
@[simp] theorem State.mapSheaves_tlb (s : State) (f : Sheaf → Sheaf) : (s.mapSheaves f).tlb = s.tlb := rfl
@[simp] theorem State.mapSheaves_halts (s : State) (f : Sheaf → Sheaf) : (s.mapSheaves f).halts = s.halts := rfl
@[simp] theorem State.mapSheaves_fns (s : State) (f : Sheaf → Sheaf) : (s.mapSheaves f).fns = s.fns := rfl
@[simp] theorem State.mapSheaves_partitions (s : State) (f : Sheaf → Sheaf) : (s.mapSheaves f).partitions = s.partitions := rfl
@[simp] theorem State.mapSheaves_dies (s : State) (f : Sheaf → Sheaf) : (s.mapSheaves f).dies = s.dies := rfl
@[simp] theorem State.mapSheaves_clusters (s : State) (f : Sheaf → Sheaf) : (s.mapSheaves f).clusters = s.clusters := rfl
@[simp] theorem State.mapSheaves_scoreboard (s : State) (f : Sheaf → Sheaf) : (s.mapSheaves f).scoreboard = s.scoreboard := rfl
@[simp] theorem State.mapSheaves_halted (s : State) (f : Sheaf → Sheaf) : (s.mapSheaves f).halted = s.halted := rfl
@[simp] theorem State.mapSheaves_deaths (s : State) (f : Sheaf → Sheaf) : (s.mapSheaves f).deaths = s.deaths := rfl
@[simp] theorem State.mapSheaves_modId (s : State) (f : Sheaf → Sheaf) : (s.mapSheaves f).modId = s.modId := rfl
@[simp] theorem State.mapSheaves_routes (s : State) (f : Sheaf → Sheaf) : (s.mapSheaves f).routes = s.routes := rfl
@[simp] theorem State.mapSheaves_power (s : State) (f : Sheaf → Sheaf) : (s.mapSheaves f).power = s.power := rfl
@[simp] theorem State.mapSheaves_saves (s : State) (f : Sheaf → Sheaf) : (s.mapSheaves f).saves = s.saves := rfl
@[simp] theorem State.mapSheaves_samples (s : State) (f : Sheaf → Sheaf) : (s.mapSheaves f).samples = s.samples := rfl
@[simp] theorem State.mapSheaves_hublog (s : State) (f : Sheaf → Sheaf) : (s.mapSheaves f).hublog = s.hublog := rfl
@[simp] theorem State.mapSheaves_latch (s : State) (f : Sheaf → Sheaf) : (s.mapSheaves f).latch = s.latch := rfl
@[simp] theorem State.mapSheaves_irqs (s : State) (f : Sheaf → Sheaf) : (s.mapSheaves f).irqs = s.irqs := rfl
@[simp] theorem State.mapSheaves_stubs (s : State) (f : Sheaf → Sheaf) : (s.mapSheaves f).stubs = s.stubs := rfl
@[simp] theorem State.mapSheaves_nacks (s : State) (f : Sheaf → Sheaf) : (s.mapSheaves f).nacks = s.nacks := rfl
@[simp] theorem State.mapSheaves_collectives (s : State) (f : Sheaf → Sheaf) : (s.mapSheaves f).collectives = s.collectives := rfl
@[simp] theorem State.mapSheaves_firmware (s : State) (f : Sheaf → Sheaf) : (s.mapSheaves f).firmware = s.firmware := rfl
@[simp] theorem State.mapSheaves_checkpoints (s : State) (f : Sheaf → Sheaf) : (s.mapSheaves f).checkpoints = s.checkpoints := rfl
@[simp] theorem State.mapSheaves_stop (s : State) (f : Sheaf → Sheaf) : (s.mapSheaves f).stop = s.stop := rfl
@[simp] theorem State.mapSheaves_fresh (s : State) (f : Sheaf → Sheaf) : (s.mapSheaves f).fresh = s.fresh := rfl

/-! ### post -/

@[simp] theorem State.post_sh (s : State) (es : List Event) : (s.post es).sh = s.sh := rfl
@[simp] theorem State.post_peers (s : State) (es : List Event) : (s.post es).peers = s.peers := rfl
@[simp] theorem State.post_agenda (s : State) (es : List Event) : (s.post es).agenda = s.agenda ++ es := rfl
@[simp] theorem State.post_gtc (s : State) (es : List Event) : (s.post es).gtc = s.gtc := rfl
@[simp] theorem State.post_mem (s : State) (es : List Event) : (s.post es).mem = s.mem := rfl
@[simp] theorem State.post_lines (s : State) (es : List Event) : (s.post es).lines = s.lines := rfl
@[simp] theorem State.post_badLines (s : State) (es : List Event) : (s.post es).badLines = s.badLines := rfl
@[simp] theorem State.post_weak (s : State) (es : List Event) : (s.post es).weak = s.weak := rfl
@[simp] theorem State.post_parking (s : State) (es : List Event) : (s.post es).parking = s.parking := rfl
@[simp] theorem State.post_moves (s : State) (es : List Event) : (s.post es).moves = s.moves := rfl
@[simp] theorem State.post_groups (s : State) (es : List Event) : (s.post es).groups = s.groups := rfl
@[simp] theorem State.post_tasks (s : State) (es : List Event) : (s.post es).tasks = s.tasks := rfl
@[simp] theorem State.post_contexts (s : State) (es : List Event) : (s.post es).contexts = s.contexts := rfl
@[simp] theorem State.post_bins (s : State) (es : List Event) : (s.post es).bins = s.bins := rfl
@[simp] theorem State.post_held (s : State) (es : List Event) : (s.post es).held = s.held := rfl
@[simp] theorem State.post_iwrites (s : State) (es : List Event) : (s.post es).iwrites = s.iwrites := rfl
@[simp] theorem State.post_invalids (s : State) (es : List Event) : (s.post es).invalids = s.invalids := rfl
@[simp] theorem State.post_tlb (s : State) (es : List Event) : (s.post es).tlb = s.tlb := rfl
@[simp] theorem State.post_halts (s : State) (es : List Event) : (s.post es).halts = s.halts := rfl
@[simp] theorem State.post_fns (s : State) (es : List Event) : (s.post es).fns = s.fns := rfl
@[simp] theorem State.post_partitions (s : State) (es : List Event) : (s.post es).partitions = s.partitions := rfl
@[simp] theorem State.post_dies (s : State) (es : List Event) : (s.post es).dies = s.dies := rfl
@[simp] theorem State.post_clusters (s : State) (es : List Event) : (s.post es).clusters = s.clusters := rfl
@[simp] theorem State.post_scoreboard (s : State) (es : List Event) : (s.post es).scoreboard = s.scoreboard := rfl
@[simp] theorem State.post_halted (s : State) (es : List Event) : (s.post es).halted = s.halted := rfl
@[simp] theorem State.post_deaths (s : State) (es : List Event) : (s.post es).deaths = s.deaths := rfl
@[simp] theorem State.post_modId (s : State) (es : List Event) : (s.post es).modId = s.modId := rfl
@[simp] theorem State.post_routes (s : State) (es : List Event) : (s.post es).routes = s.routes := rfl
@[simp] theorem State.post_power (s : State) (es : List Event) : (s.post es).power = s.power := rfl
@[simp] theorem State.post_saves (s : State) (es : List Event) : (s.post es).saves = s.saves := rfl
@[simp] theorem State.post_samples (s : State) (es : List Event) : (s.post es).samples = s.samples := rfl
@[simp] theorem State.post_hublog (s : State) (es : List Event) : (s.post es).hublog = s.hublog := rfl
@[simp] theorem State.post_latch (s : State) (es : List Event) : (s.post es).latch = s.latch := rfl
@[simp] theorem State.post_irqs (s : State) (es : List Event) : (s.post es).irqs = s.irqs := rfl
@[simp] theorem State.post_stubs (s : State) (es : List Event) : (s.post es).stubs = s.stubs := rfl
@[simp] theorem State.post_nacks (s : State) (es : List Event) : (s.post es).nacks = s.nacks := rfl
@[simp] theorem State.post_collectives (s : State) (es : List Event) : (s.post es).collectives = s.collectives := rfl
@[simp] theorem State.post_firmware (s : State) (es : List Event) : (s.post es).firmware = s.firmware := rfl
@[simp] theorem State.post_checkpoints (s : State) (es : List Event) : (s.post es).checkpoints = s.checkpoints := rfl
@[simp] theorem State.post_stop (s : State) (es : List Event) : (s.post es).stop = s.stop := rfl
@[simp] theorem State.post_fresh (s : State) (es : List Event) : (s.post es).fresh = s.fresh := rfl

/-! ### postFirst -/

@[simp] theorem State.postFirst_sh (s : State) (es : List Event) : (s.postFirst es).sh = s.sh := rfl
@[simp] theorem State.postFirst_peers (s : State) (es : List Event) : (s.postFirst es).peers = s.peers := rfl
@[simp] theorem State.postFirst_agenda (s : State) (es : List Event) : (s.postFirst es).agenda = es ++ s.agenda := rfl
@[simp] theorem State.postFirst_gtc (s : State) (es : List Event) : (s.postFirst es).gtc = s.gtc := rfl
@[simp] theorem State.postFirst_mem (s : State) (es : List Event) : (s.postFirst es).mem = s.mem := rfl
@[simp] theorem State.postFirst_lines (s : State) (es : List Event) : (s.postFirst es).lines = s.lines := rfl
@[simp] theorem State.postFirst_badLines (s : State) (es : List Event) : (s.postFirst es).badLines = s.badLines := rfl
@[simp] theorem State.postFirst_weak (s : State) (es : List Event) : (s.postFirst es).weak = s.weak := rfl
@[simp] theorem State.postFirst_parking (s : State) (es : List Event) : (s.postFirst es).parking = s.parking := rfl
@[simp] theorem State.postFirst_moves (s : State) (es : List Event) : (s.postFirst es).moves = s.moves := rfl
@[simp] theorem State.postFirst_groups (s : State) (es : List Event) : (s.postFirst es).groups = s.groups := rfl
@[simp] theorem State.postFirst_tasks (s : State) (es : List Event) : (s.postFirst es).tasks = s.tasks := rfl
@[simp] theorem State.postFirst_contexts (s : State) (es : List Event) : (s.postFirst es).contexts = s.contexts := rfl
@[simp] theorem State.postFirst_bins (s : State) (es : List Event) : (s.postFirst es).bins = s.bins := rfl
@[simp] theorem State.postFirst_held (s : State) (es : List Event) : (s.postFirst es).held = s.held := rfl
@[simp] theorem State.postFirst_iwrites (s : State) (es : List Event) : (s.postFirst es).iwrites = s.iwrites := rfl
@[simp] theorem State.postFirst_invalids (s : State) (es : List Event) : (s.postFirst es).invalids = s.invalids := rfl
@[simp] theorem State.postFirst_tlb (s : State) (es : List Event) : (s.postFirst es).tlb = s.tlb := rfl
@[simp] theorem State.postFirst_halts (s : State) (es : List Event) : (s.postFirst es).halts = s.halts := rfl
@[simp] theorem State.postFirst_fns (s : State) (es : List Event) : (s.postFirst es).fns = s.fns := rfl
@[simp] theorem State.postFirst_partitions (s : State) (es : List Event) : (s.postFirst es).partitions = s.partitions := rfl
@[simp] theorem State.postFirst_dies (s : State) (es : List Event) : (s.postFirst es).dies = s.dies := rfl
@[simp] theorem State.postFirst_clusters (s : State) (es : List Event) : (s.postFirst es).clusters = s.clusters := rfl
@[simp] theorem State.postFirst_scoreboard (s : State) (es : List Event) : (s.postFirst es).scoreboard = s.scoreboard := rfl
@[simp] theorem State.postFirst_halted (s : State) (es : List Event) : (s.postFirst es).halted = s.halted := rfl
@[simp] theorem State.postFirst_deaths (s : State) (es : List Event) : (s.postFirst es).deaths = s.deaths := rfl
@[simp] theorem State.postFirst_modId (s : State) (es : List Event) : (s.postFirst es).modId = s.modId := rfl
@[simp] theorem State.postFirst_routes (s : State) (es : List Event) : (s.postFirst es).routes = s.routes := rfl
@[simp] theorem State.postFirst_power (s : State) (es : List Event) : (s.postFirst es).power = s.power := rfl
@[simp] theorem State.postFirst_saves (s : State) (es : List Event) : (s.postFirst es).saves = s.saves := rfl
@[simp] theorem State.postFirst_samples (s : State) (es : List Event) : (s.postFirst es).samples = s.samples := rfl
@[simp] theorem State.postFirst_hublog (s : State) (es : List Event) : (s.postFirst es).hublog = s.hublog := rfl
@[simp] theorem State.postFirst_latch (s : State) (es : List Event) : (s.postFirst es).latch = s.latch := rfl
@[simp] theorem State.postFirst_irqs (s : State) (es : List Event) : (s.postFirst es).irqs = s.irqs := rfl
@[simp] theorem State.postFirst_stubs (s : State) (es : List Event) : (s.postFirst es).stubs = s.stubs := rfl
@[simp] theorem State.postFirst_nacks (s : State) (es : List Event) : (s.postFirst es).nacks = s.nacks := rfl
@[simp] theorem State.postFirst_collectives (s : State) (es : List Event) : (s.postFirst es).collectives = s.collectives := rfl
@[simp] theorem State.postFirst_firmware (s : State) (es : List Event) : (s.postFirst es).firmware = s.firmware := rfl
@[simp] theorem State.postFirst_checkpoints (s : State) (es : List Event) : (s.postFirst es).checkpoints = s.checkpoints := rfl
@[simp] theorem State.postFirst_stop (s : State) (es : List Event) : (s.postFirst es).stop = s.stop := rfl
@[simp] theorem State.postFirst_fresh (s : State) (es : List Event) : (s.postFirst es).fresh = s.fresh := rfl

/-! ### tick -/

@[simp] theorem State.tick_sh (s : State) : (s.tick).sh = s.sh := rfl
@[simp] theorem State.tick_peers (s : State) : (s.tick).peers = s.peers := rfl
@[simp] theorem State.tick_agenda (s : State) : (s.tick).agenda = s.agenda := rfl
@[simp] theorem State.tick_gtc (s : State) : (s.tick).gtc = s.gtc := rfl
@[simp] theorem State.tick_mem (s : State) : (s.tick).mem = s.mem := rfl
@[simp] theorem State.tick_lines (s : State) : (s.tick).lines = s.lines := rfl
@[simp] theorem State.tick_badLines (s : State) : (s.tick).badLines = s.badLines := rfl
@[simp] theorem State.tick_weak (s : State) : (s.tick).weak = s.weak := rfl
@[simp] theorem State.tick_parking (s : State) : (s.tick).parking = s.parking := rfl
@[simp] theorem State.tick_moves (s : State) : (s.tick).moves = s.moves := rfl
@[simp] theorem State.tick_groups (s : State) : (s.tick).groups = s.groups := rfl
@[simp] theorem State.tick_tasks (s : State) : (s.tick).tasks = s.tasks := rfl
@[simp] theorem State.tick_contexts (s : State) : (s.tick).contexts = s.contexts := rfl
@[simp] theorem State.tick_bins (s : State) : (s.tick).bins = s.bins := rfl
@[simp] theorem State.tick_held (s : State) : (s.tick).held = s.held := rfl
@[simp] theorem State.tick_iwrites (s : State) : (s.tick).iwrites = s.iwrites := rfl
@[simp] theorem State.tick_invalids (s : State) : (s.tick).invalids = s.invalids := rfl
@[simp] theorem State.tick_tlb (s : State) : (s.tick).tlb = s.tlb := rfl
@[simp] theorem State.tick_halts (s : State) : (s.tick).halts = s.halts := rfl
@[simp] theorem State.tick_fns (s : State) : (s.tick).fns = s.fns := rfl
@[simp] theorem State.tick_partitions (s : State) : (s.tick).partitions = s.partitions := rfl
@[simp] theorem State.tick_dies (s : State) : (s.tick).dies = s.dies := rfl
@[simp] theorem State.tick_clusters (s : State) : (s.tick).clusters = s.clusters := rfl
@[simp] theorem State.tick_scoreboard (s : State) : (s.tick).scoreboard = s.scoreboard := rfl
@[simp] theorem State.tick_halted (s : State) : (s.tick).halted = s.halted := rfl
@[simp] theorem State.tick_deaths (s : State) : (s.tick).deaths = s.deaths := rfl
@[simp] theorem State.tick_modId (s : State) : (s.tick).modId = s.modId := rfl
@[simp] theorem State.tick_routes (s : State) : (s.tick).routes = s.routes := rfl
@[simp] theorem State.tick_power (s : State) : (s.tick).power = s.power := rfl
@[simp] theorem State.tick_saves (s : State) : (s.tick).saves = s.saves := rfl
@[simp] theorem State.tick_samples (s : State) : (s.tick).samples = s.samples := rfl
@[simp] theorem State.tick_hublog (s : State) : (s.tick).hublog = s.hublog := rfl
@[simp] theorem State.tick_latch (s : State) : (s.tick).latch = s.latch := rfl
@[simp] theorem State.tick_irqs (s : State) : (s.tick).irqs = s.irqs := rfl
@[simp] theorem State.tick_stubs (s : State) : (s.tick).stubs = s.stubs := rfl
@[simp] theorem State.tick_nacks (s : State) : (s.tick).nacks = s.nacks := rfl
@[simp] theorem State.tick_collectives (s : State) : (s.tick).collectives = s.collectives := rfl
@[simp] theorem State.tick_firmware (s : State) : (s.tick).firmware = s.firmware := rfl
@[simp] theorem State.tick_checkpoints (s : State) : (s.tick).checkpoints = s.checkpoints := rfl
@[simp] theorem State.tick_stop (s : State) : (s.tick).stop = s.stop := rfl
@[simp] theorem State.tick_fresh (s : State) : (s.tick).fresh = s.fresh + 1 := rfl

/-! ### stall -/

@[simp] theorem State.stall_sh (s : State) (i : Instr) (k : Option Nat) : (s.stall i k).sh = { s.sh with wait := some { instr := i, token := k } } := rfl
@[simp] theorem State.stall_peers (s : State) (i : Instr) (k : Option Nat) : (s.stall i k).peers = s.peers := rfl
@[simp] theorem State.stall_agenda (s : State) (i : Instr) (k : Option Nat) : (s.stall i k).agenda = s.agenda := rfl
@[simp] theorem State.stall_gtc (s : State) (i : Instr) (k : Option Nat) : (s.stall i k).gtc = s.gtc := rfl
@[simp] theorem State.stall_mem (s : State) (i : Instr) (k : Option Nat) : (s.stall i k).mem = s.mem := rfl
@[simp] theorem State.stall_lines (s : State) (i : Instr) (k : Option Nat) : (s.stall i k).lines = s.lines := rfl
@[simp] theorem State.stall_badLines (s : State) (i : Instr) (k : Option Nat) : (s.stall i k).badLines = s.badLines := rfl
@[simp] theorem State.stall_weak (s : State) (i : Instr) (k : Option Nat) : (s.stall i k).weak = s.weak := rfl
@[simp] theorem State.stall_parking (s : State) (i : Instr) (k : Option Nat) : (s.stall i k).parking = s.parking := rfl
@[simp] theorem State.stall_moves (s : State) (i : Instr) (k : Option Nat) : (s.stall i k).moves = s.moves := rfl
@[simp] theorem State.stall_groups (s : State) (i : Instr) (k : Option Nat) : (s.stall i k).groups = s.groups := rfl
@[simp] theorem State.stall_tasks (s : State) (i : Instr) (k : Option Nat) : (s.stall i k).tasks = s.tasks := rfl
@[simp] theorem State.stall_contexts (s : State) (i : Instr) (k : Option Nat) : (s.stall i k).contexts = s.contexts := rfl
@[simp] theorem State.stall_bins (s : State) (i : Instr) (k : Option Nat) : (s.stall i k).bins = s.bins := rfl
@[simp] theorem State.stall_held (s : State) (i : Instr) (k : Option Nat) : (s.stall i k).held = s.held := rfl
@[simp] theorem State.stall_iwrites (s : State) (i : Instr) (k : Option Nat) : (s.stall i k).iwrites = s.iwrites := rfl
@[simp] theorem State.stall_invalids (s : State) (i : Instr) (k : Option Nat) : (s.stall i k).invalids = s.invalids := rfl
@[simp] theorem State.stall_tlb (s : State) (i : Instr) (k : Option Nat) : (s.stall i k).tlb = s.tlb := rfl
@[simp] theorem State.stall_halts (s : State) (i : Instr) (k : Option Nat) : (s.stall i k).halts = s.halts := rfl
@[simp] theorem State.stall_fns (s : State) (i : Instr) (k : Option Nat) : (s.stall i k).fns = s.fns := rfl
@[simp] theorem State.stall_partitions (s : State) (i : Instr) (k : Option Nat) : (s.stall i k).partitions = s.partitions := rfl
@[simp] theorem State.stall_dies (s : State) (i : Instr) (k : Option Nat) : (s.stall i k).dies = s.dies := rfl
@[simp] theorem State.stall_clusters (s : State) (i : Instr) (k : Option Nat) : (s.stall i k).clusters = s.clusters := rfl
@[simp] theorem State.stall_scoreboard (s : State) (i : Instr) (k : Option Nat) : (s.stall i k).scoreboard = s.scoreboard := rfl
@[simp] theorem State.stall_halted (s : State) (i : Instr) (k : Option Nat) : (s.stall i k).halted = s.halted := rfl
@[simp] theorem State.stall_deaths (s : State) (i : Instr) (k : Option Nat) : (s.stall i k).deaths = s.deaths := rfl
@[simp] theorem State.stall_modId (s : State) (i : Instr) (k : Option Nat) : (s.stall i k).modId = s.modId := rfl
@[simp] theorem State.stall_routes (s : State) (i : Instr) (k : Option Nat) : (s.stall i k).routes = s.routes := rfl
@[simp] theorem State.stall_power (s : State) (i : Instr) (k : Option Nat) : (s.stall i k).power = s.power := rfl
@[simp] theorem State.stall_saves (s : State) (i : Instr) (k : Option Nat) : (s.stall i k).saves = s.saves := rfl
@[simp] theorem State.stall_samples (s : State) (i : Instr) (k : Option Nat) : (s.stall i k).samples = s.samples := rfl
@[simp] theorem State.stall_hublog (s : State) (i : Instr) (k : Option Nat) : (s.stall i k).hublog = s.hublog := rfl
@[simp] theorem State.stall_latch (s : State) (i : Instr) (k : Option Nat) : (s.stall i k).latch = s.latch := rfl
@[simp] theorem State.stall_irqs (s : State) (i : Instr) (k : Option Nat) : (s.stall i k).irqs = s.irqs := rfl
@[simp] theorem State.stall_stubs (s : State) (i : Instr) (k : Option Nat) : (s.stall i k).stubs = s.stubs := rfl
@[simp] theorem State.stall_nacks (s : State) (i : Instr) (k : Option Nat) : (s.stall i k).nacks = s.nacks := rfl
@[simp] theorem State.stall_collectives (s : State) (i : Instr) (k : Option Nat) : (s.stall i k).collectives = s.collectives := rfl
@[simp] theorem State.stall_firmware (s : State) (i : Instr) (k : Option Nat) : (s.stall i k).firmware = s.firmware := rfl
@[simp] theorem State.stall_checkpoints (s : State) (i : Instr) (k : Option Nat) : (s.stall i k).checkpoints = s.checkpoints := rfl
@[simp] theorem State.stall_stop (s : State) (i : Instr) (k : Option Nat) : (s.stall i k).stop = s.stop := rfl
@[simp] theorem State.stall_fresh (s : State) (i : Instr) (k : Option Nat) : (s.stall i k).fresh = s.fresh := rfl

/-! ### unhold -/

@[simp] theorem State.unhold_sh (s : State) : (s.unhold).sh = { s.sh with wait := none } := rfl
@[simp] theorem State.unhold_peers (s : State) : (s.unhold).peers = s.peers := rfl
@[simp] theorem State.unhold_agenda (s : State) : (s.unhold).agenda = s.agenda := rfl
@[simp] theorem State.unhold_gtc (s : State) : (s.unhold).gtc = s.gtc := rfl
@[simp] theorem State.unhold_mem (s : State) : (s.unhold).mem = s.mem := rfl
@[simp] theorem State.unhold_lines (s : State) : (s.unhold).lines = s.lines := rfl
@[simp] theorem State.unhold_badLines (s : State) : (s.unhold).badLines = s.badLines := rfl
@[simp] theorem State.unhold_weak (s : State) : (s.unhold).weak = s.weak := rfl
@[simp] theorem State.unhold_parking (s : State) : (s.unhold).parking = s.parking := rfl
@[simp] theorem State.unhold_moves (s : State) : (s.unhold).moves = s.moves := rfl
@[simp] theorem State.unhold_groups (s : State) : (s.unhold).groups = s.groups := rfl
@[simp] theorem State.unhold_tasks (s : State) : (s.unhold).tasks = s.tasks := rfl
@[simp] theorem State.unhold_contexts (s : State) : (s.unhold).contexts = s.contexts := rfl
@[simp] theorem State.unhold_bins (s : State) : (s.unhold).bins = s.bins := rfl
@[simp] theorem State.unhold_held (s : State) : (s.unhold).held = s.held := rfl
@[simp] theorem State.unhold_iwrites (s : State) : (s.unhold).iwrites = s.iwrites := rfl
@[simp] theorem State.unhold_invalids (s : State) : (s.unhold).invalids = s.invalids := rfl
@[simp] theorem State.unhold_tlb (s : State) : (s.unhold).tlb = s.tlb := rfl
@[simp] theorem State.unhold_halts (s : State) : (s.unhold).halts = s.halts := rfl
@[simp] theorem State.unhold_fns (s : State) : (s.unhold).fns = s.fns := rfl
@[simp] theorem State.unhold_partitions (s : State) : (s.unhold).partitions = s.partitions := rfl
@[simp] theorem State.unhold_dies (s : State) : (s.unhold).dies = s.dies := rfl
@[simp] theorem State.unhold_clusters (s : State) : (s.unhold).clusters = s.clusters := rfl
@[simp] theorem State.unhold_scoreboard (s : State) : (s.unhold).scoreboard = s.scoreboard := rfl
@[simp] theorem State.unhold_halted (s : State) : (s.unhold).halted = s.halted := rfl
@[simp] theorem State.unhold_deaths (s : State) : (s.unhold).deaths = s.deaths := rfl
@[simp] theorem State.unhold_modId (s : State) : (s.unhold).modId = s.modId := rfl
@[simp] theorem State.unhold_routes (s : State) : (s.unhold).routes = s.routes := rfl
@[simp] theorem State.unhold_power (s : State) : (s.unhold).power = s.power := rfl
@[simp] theorem State.unhold_saves (s : State) : (s.unhold).saves = s.saves := rfl
@[simp] theorem State.unhold_samples (s : State) : (s.unhold).samples = s.samples := rfl
@[simp] theorem State.unhold_hublog (s : State) : (s.unhold).hublog = s.hublog := rfl
@[simp] theorem State.unhold_latch (s : State) : (s.unhold).latch = s.latch := rfl
@[simp] theorem State.unhold_irqs (s : State) : (s.unhold).irqs = s.irqs := rfl
@[simp] theorem State.unhold_stubs (s : State) : (s.unhold).stubs = s.stubs := rfl
@[simp] theorem State.unhold_nacks (s : State) : (s.unhold).nacks = s.nacks := rfl
@[simp] theorem State.unhold_collectives (s : State) : (s.unhold).collectives = s.collectives := rfl
@[simp] theorem State.unhold_firmware (s : State) : (s.unhold).firmware = s.firmware := rfl
@[simp] theorem State.unhold_checkpoints (s : State) : (s.unhold).checkpoints = s.checkpoints := rfl
@[simp] theorem State.unhold_stop (s : State) : (s.unhold).stop = s.stop := rfl
@[simp] theorem State.unhold_fresh (s : State) : (s.unhold).fresh = s.fresh := rfl

/-! ### onTask -/

@[simp] theorem State.onTask_sh (s : State) (n : Nat) (f : Task → Task) : (s.onTask n f).sh = s.sh := rfl
@[simp] theorem State.onTask_peers (s : State) (n : Nat) (f : Task → Task) : (s.onTask n f).peers = s.peers := rfl
@[simp] theorem State.onTask_agenda (s : State) (n : Nat) (f : Task → Task) : (s.onTask n f).agenda = s.agenda := rfl
@[simp] theorem State.onTask_gtc (s : State) (n : Nat) (f : Task → Task) : (s.onTask n f).gtc = s.gtc := rfl
@[simp] theorem State.onTask_mem (s : State) (n : Nat) (f : Task → Task) : (s.onTask n f).mem = s.mem := rfl
@[simp] theorem State.onTask_lines (s : State) (n : Nat) (f : Task → Task) : (s.onTask n f).lines = s.lines := rfl
@[simp] theorem State.onTask_badLines (s : State) (n : Nat) (f : Task → Task) : (s.onTask n f).badLines = s.badLines := rfl
@[simp] theorem State.onTask_weak (s : State) (n : Nat) (f : Task → Task) : (s.onTask n f).weak = s.weak := rfl
@[simp] theorem State.onTask_parking (s : State) (n : Nat) (f : Task → Task) : (s.onTask n f).parking = s.parking := rfl
@[simp] theorem State.onTask_moves (s : State) (n : Nat) (f : Task → Task) : (s.onTask n f).moves = s.moves := rfl
@[simp] theorem State.onTask_groups (s : State) (n : Nat) (f : Task → Task) : (s.onTask n f).groups = s.groups := rfl
@[simp] theorem State.onTask_tasks (s : State) (n : Nat) (f : Task → Task) : (s.onTask n f).tasks = s.tasks.map fun t => if t.tid = n then f t else t := rfl
@[simp] theorem State.onTask_contexts (s : State) (n : Nat) (f : Task → Task) : (s.onTask n f).contexts = s.contexts := rfl
@[simp] theorem State.onTask_bins (s : State) (n : Nat) (f : Task → Task) : (s.onTask n f).bins = s.bins := rfl
@[simp] theorem State.onTask_held (s : State) (n : Nat) (f : Task → Task) : (s.onTask n f).held = s.held := rfl
@[simp] theorem State.onTask_iwrites (s : State) (n : Nat) (f : Task → Task) : (s.onTask n f).iwrites = s.iwrites := rfl
@[simp] theorem State.onTask_invalids (s : State) (n : Nat) (f : Task → Task) : (s.onTask n f).invalids = s.invalids := rfl
@[simp] theorem State.onTask_tlb (s : State) (n : Nat) (f : Task → Task) : (s.onTask n f).tlb = s.tlb := rfl
@[simp] theorem State.onTask_halts (s : State) (n : Nat) (f : Task → Task) : (s.onTask n f).halts = s.halts := rfl
@[simp] theorem State.onTask_fns (s : State) (n : Nat) (f : Task → Task) : (s.onTask n f).fns = s.fns := rfl
@[simp] theorem State.onTask_partitions (s : State) (n : Nat) (f : Task → Task) : (s.onTask n f).partitions = s.partitions := rfl
@[simp] theorem State.onTask_dies (s : State) (n : Nat) (f : Task → Task) : (s.onTask n f).dies = s.dies := rfl
@[simp] theorem State.onTask_clusters (s : State) (n : Nat) (f : Task → Task) : (s.onTask n f).clusters = s.clusters := rfl
@[simp] theorem State.onTask_scoreboard (s : State) (n : Nat) (f : Task → Task) : (s.onTask n f).scoreboard = s.scoreboard := rfl
@[simp] theorem State.onTask_halted (s : State) (n : Nat) (f : Task → Task) : (s.onTask n f).halted = s.halted := rfl
@[simp] theorem State.onTask_deaths (s : State) (n : Nat) (f : Task → Task) : (s.onTask n f).deaths = s.deaths := rfl
@[simp] theorem State.onTask_modId (s : State) (n : Nat) (f : Task → Task) : (s.onTask n f).modId = s.modId := rfl
@[simp] theorem State.onTask_routes (s : State) (n : Nat) (f : Task → Task) : (s.onTask n f).routes = s.routes := rfl
@[simp] theorem State.onTask_power (s : State) (n : Nat) (f : Task → Task) : (s.onTask n f).power = s.power := rfl
@[simp] theorem State.onTask_saves (s : State) (n : Nat) (f : Task → Task) : (s.onTask n f).saves = s.saves := rfl
@[simp] theorem State.onTask_samples (s : State) (n : Nat) (f : Task → Task) : (s.onTask n f).samples = s.samples := rfl
@[simp] theorem State.onTask_hublog (s : State) (n : Nat) (f : Task → Task) : (s.onTask n f).hublog = s.hublog := rfl
@[simp] theorem State.onTask_latch (s : State) (n : Nat) (f : Task → Task) : (s.onTask n f).latch = s.latch := rfl
@[simp] theorem State.onTask_irqs (s : State) (n : Nat) (f : Task → Task) : (s.onTask n f).irqs = s.irqs := rfl
@[simp] theorem State.onTask_stubs (s : State) (n : Nat) (f : Task → Task) : (s.onTask n f).stubs = s.stubs := rfl
@[simp] theorem State.onTask_nacks (s : State) (n : Nat) (f : Task → Task) : (s.onTask n f).nacks = s.nacks := rfl
@[simp] theorem State.onTask_collectives (s : State) (n : Nat) (f : Task → Task) : (s.onTask n f).collectives = s.collectives := rfl
@[simp] theorem State.onTask_firmware (s : State) (n : Nat) (f : Task → Task) : (s.onTask n f).firmware = s.firmware := rfl
@[simp] theorem State.onTask_checkpoints (s : State) (n : Nat) (f : Task → Task) : (s.onTask n f).checkpoints = s.checkpoints := rfl
@[simp] theorem State.onTask_stop (s : State) (n : Nat) (f : Task → Task) : (s.onTask n f).stop = s.stop := rfl
@[simp] theorem State.onTask_fresh (s : State) (n : Nat) (f : Task → Task) : (s.onTask n f).fresh = s.fresh := rfl

/-! ### onGroup -/

@[simp] theorem State.onGroup_sh (s : State) (n : Nat) (f : Group → Group) : (s.onGroup n f).sh = s.sh := rfl
@[simp] theorem State.onGroup_peers (s : State) (n : Nat) (f : Group → Group) : (s.onGroup n f).peers = s.peers := rfl
@[simp] theorem State.onGroup_agenda (s : State) (n : Nat) (f : Group → Group) : (s.onGroup n f).agenda = s.agenda := rfl
@[simp] theorem State.onGroup_gtc (s : State) (n : Nat) (f : Group → Group) : (s.onGroup n f).gtc = s.gtc := rfl
@[simp] theorem State.onGroup_mem (s : State) (n : Nat) (f : Group → Group) : (s.onGroup n f).mem = s.mem := rfl
@[simp] theorem State.onGroup_lines (s : State) (n : Nat) (f : Group → Group) : (s.onGroup n f).lines = s.lines := rfl
@[simp] theorem State.onGroup_badLines (s : State) (n : Nat) (f : Group → Group) : (s.onGroup n f).badLines = s.badLines := rfl
@[simp] theorem State.onGroup_weak (s : State) (n : Nat) (f : Group → Group) : (s.onGroup n f).weak = s.weak := rfl
@[simp] theorem State.onGroup_parking (s : State) (n : Nat) (f : Group → Group) : (s.onGroup n f).parking = s.parking := rfl
@[simp] theorem State.onGroup_moves (s : State) (n : Nat) (f : Group → Group) : (s.onGroup n f).moves = s.moves := rfl
@[simp] theorem State.onGroup_groups (s : State) (n : Nat) (f : Group → Group) : (s.onGroup n f).groups = s.groups.map fun g => if g.gid = n then f g else g := rfl
@[simp] theorem State.onGroup_tasks (s : State) (n : Nat) (f : Group → Group) : (s.onGroup n f).tasks = s.tasks := rfl
@[simp] theorem State.onGroup_contexts (s : State) (n : Nat) (f : Group → Group) : (s.onGroup n f).contexts = s.contexts := rfl
@[simp] theorem State.onGroup_bins (s : State) (n : Nat) (f : Group → Group) : (s.onGroup n f).bins = s.bins := rfl
@[simp] theorem State.onGroup_held (s : State) (n : Nat) (f : Group → Group) : (s.onGroup n f).held = s.held := rfl
@[simp] theorem State.onGroup_iwrites (s : State) (n : Nat) (f : Group → Group) : (s.onGroup n f).iwrites = s.iwrites := rfl
@[simp] theorem State.onGroup_invalids (s : State) (n : Nat) (f : Group → Group) : (s.onGroup n f).invalids = s.invalids := rfl
@[simp] theorem State.onGroup_tlb (s : State) (n : Nat) (f : Group → Group) : (s.onGroup n f).tlb = s.tlb := rfl
@[simp] theorem State.onGroup_halts (s : State) (n : Nat) (f : Group → Group) : (s.onGroup n f).halts = s.halts := rfl
@[simp] theorem State.onGroup_fns (s : State) (n : Nat) (f : Group → Group) : (s.onGroup n f).fns = s.fns := rfl
@[simp] theorem State.onGroup_partitions (s : State) (n : Nat) (f : Group → Group) : (s.onGroup n f).partitions = s.partitions := rfl
@[simp] theorem State.onGroup_dies (s : State) (n : Nat) (f : Group → Group) : (s.onGroup n f).dies = s.dies := rfl
@[simp] theorem State.onGroup_clusters (s : State) (n : Nat) (f : Group → Group) : (s.onGroup n f).clusters = s.clusters := rfl
@[simp] theorem State.onGroup_scoreboard (s : State) (n : Nat) (f : Group → Group) : (s.onGroup n f).scoreboard = s.scoreboard := rfl
@[simp] theorem State.onGroup_halted (s : State) (n : Nat) (f : Group → Group) : (s.onGroup n f).halted = s.halted := rfl
@[simp] theorem State.onGroup_deaths (s : State) (n : Nat) (f : Group → Group) : (s.onGroup n f).deaths = s.deaths := rfl
@[simp] theorem State.onGroup_modId (s : State) (n : Nat) (f : Group → Group) : (s.onGroup n f).modId = s.modId := rfl
@[simp] theorem State.onGroup_routes (s : State) (n : Nat) (f : Group → Group) : (s.onGroup n f).routes = s.routes := rfl
@[simp] theorem State.onGroup_power (s : State) (n : Nat) (f : Group → Group) : (s.onGroup n f).power = s.power := rfl
@[simp] theorem State.onGroup_saves (s : State) (n : Nat) (f : Group → Group) : (s.onGroup n f).saves = s.saves := rfl
@[simp] theorem State.onGroup_samples (s : State) (n : Nat) (f : Group → Group) : (s.onGroup n f).samples = s.samples := rfl
@[simp] theorem State.onGroup_hublog (s : State) (n : Nat) (f : Group → Group) : (s.onGroup n f).hublog = s.hublog := rfl
@[simp] theorem State.onGroup_latch (s : State) (n : Nat) (f : Group → Group) : (s.onGroup n f).latch = s.latch := rfl
@[simp] theorem State.onGroup_irqs (s : State) (n : Nat) (f : Group → Group) : (s.onGroup n f).irqs = s.irqs := rfl
@[simp] theorem State.onGroup_stubs (s : State) (n : Nat) (f : Group → Group) : (s.onGroup n f).stubs = s.stubs := rfl
@[simp] theorem State.onGroup_nacks (s : State) (n : Nat) (f : Group → Group) : (s.onGroup n f).nacks = s.nacks := rfl
@[simp] theorem State.onGroup_collectives (s : State) (n : Nat) (f : Group → Group) : (s.onGroup n f).collectives = s.collectives := rfl
@[simp] theorem State.onGroup_firmware (s : State) (n : Nat) (f : Group → Group) : (s.onGroup n f).firmware = s.firmware := rfl
@[simp] theorem State.onGroup_checkpoints (s : State) (n : Nat) (f : Group → Group) : (s.onGroup n f).checkpoints = s.checkpoints := rfl
@[simp] theorem State.onGroup_stop (s : State) (n : Nat) (f : Group → Group) : (s.onGroup n f).stop = s.stop := rfl
@[simp] theorem State.onGroup_fresh (s : State) (n : Nat) (f : Group → Group) : (s.onGroup n f).fresh = s.fresh := rfl

/-! ### onContext -/

@[simp] theorem State.onContext_sh (s : State) (n : BitVec 12) (f : Context → Context) : (s.onContext n f).sh = s.sh := rfl
@[simp] theorem State.onContext_peers (s : State) (n : BitVec 12) (f : Context → Context) : (s.onContext n f).peers = s.peers := rfl
@[simp] theorem State.onContext_agenda (s : State) (n : BitVec 12) (f : Context → Context) : (s.onContext n f).agenda = s.agenda := rfl
@[simp] theorem State.onContext_gtc (s : State) (n : BitVec 12) (f : Context → Context) : (s.onContext n f).gtc = s.gtc := rfl
@[simp] theorem State.onContext_mem (s : State) (n : BitVec 12) (f : Context → Context) : (s.onContext n f).mem = s.mem := rfl
@[simp] theorem State.onContext_lines (s : State) (n : BitVec 12) (f : Context → Context) : (s.onContext n f).lines = s.lines := rfl
@[simp] theorem State.onContext_badLines (s : State) (n : BitVec 12) (f : Context → Context) : (s.onContext n f).badLines = s.badLines := rfl
@[simp] theorem State.onContext_weak (s : State) (n : BitVec 12) (f : Context → Context) : (s.onContext n f).weak = s.weak := rfl
@[simp] theorem State.onContext_parking (s : State) (n : BitVec 12) (f : Context → Context) : (s.onContext n f).parking = s.parking := rfl
@[simp] theorem State.onContext_moves (s : State) (n : BitVec 12) (f : Context → Context) : (s.onContext n f).moves = s.moves := rfl
@[simp] theorem State.onContext_groups (s : State) (n : BitVec 12) (f : Context → Context) : (s.onContext n f).groups = s.groups := rfl
@[simp] theorem State.onContext_tasks (s : State) (n : BitVec 12) (f : Context → Context) : (s.onContext n f).tasks = s.tasks := rfl
@[simp] theorem State.onContext_contexts (s : State) (n : BitVec 12) (f : Context → Context) : (s.onContext n f).contexts = s.contexts.map fun c => if c.tag = n then f c else c := rfl
@[simp] theorem State.onContext_bins (s : State) (n : BitVec 12) (f : Context → Context) : (s.onContext n f).bins = s.bins := rfl
@[simp] theorem State.onContext_held (s : State) (n : BitVec 12) (f : Context → Context) : (s.onContext n f).held = s.held := rfl
@[simp] theorem State.onContext_iwrites (s : State) (n : BitVec 12) (f : Context → Context) : (s.onContext n f).iwrites = s.iwrites := rfl
@[simp] theorem State.onContext_invalids (s : State) (n : BitVec 12) (f : Context → Context) : (s.onContext n f).invalids = s.invalids := rfl
@[simp] theorem State.onContext_tlb (s : State) (n : BitVec 12) (f : Context → Context) : (s.onContext n f).tlb = s.tlb := rfl
@[simp] theorem State.onContext_halts (s : State) (n : BitVec 12) (f : Context → Context) : (s.onContext n f).halts = s.halts := rfl
@[simp] theorem State.onContext_fns (s : State) (n : BitVec 12) (f : Context → Context) : (s.onContext n f).fns = s.fns := rfl
@[simp] theorem State.onContext_partitions (s : State) (n : BitVec 12) (f : Context → Context) : (s.onContext n f).partitions = s.partitions := rfl
@[simp] theorem State.onContext_dies (s : State) (n : BitVec 12) (f : Context → Context) : (s.onContext n f).dies = s.dies := rfl
@[simp] theorem State.onContext_clusters (s : State) (n : BitVec 12) (f : Context → Context) : (s.onContext n f).clusters = s.clusters := rfl
@[simp] theorem State.onContext_scoreboard (s : State) (n : BitVec 12) (f : Context → Context) : (s.onContext n f).scoreboard = s.scoreboard := rfl
@[simp] theorem State.onContext_halted (s : State) (n : BitVec 12) (f : Context → Context) : (s.onContext n f).halted = s.halted := rfl
@[simp] theorem State.onContext_deaths (s : State) (n : BitVec 12) (f : Context → Context) : (s.onContext n f).deaths = s.deaths := rfl
@[simp] theorem State.onContext_modId (s : State) (n : BitVec 12) (f : Context → Context) : (s.onContext n f).modId = s.modId := rfl
@[simp] theorem State.onContext_routes (s : State) (n : BitVec 12) (f : Context → Context) : (s.onContext n f).routes = s.routes := rfl
@[simp] theorem State.onContext_power (s : State) (n : BitVec 12) (f : Context → Context) : (s.onContext n f).power = s.power := rfl
@[simp] theorem State.onContext_saves (s : State) (n : BitVec 12) (f : Context → Context) : (s.onContext n f).saves = s.saves := rfl
@[simp] theorem State.onContext_samples (s : State) (n : BitVec 12) (f : Context → Context) : (s.onContext n f).samples = s.samples := rfl
@[simp] theorem State.onContext_hublog (s : State) (n : BitVec 12) (f : Context → Context) : (s.onContext n f).hublog = s.hublog := rfl
@[simp] theorem State.onContext_latch (s : State) (n : BitVec 12) (f : Context → Context) : (s.onContext n f).latch = s.latch := rfl
@[simp] theorem State.onContext_irqs (s : State) (n : BitVec 12) (f : Context → Context) : (s.onContext n f).irqs = s.irqs := rfl
@[simp] theorem State.onContext_stubs (s : State) (n : BitVec 12) (f : Context → Context) : (s.onContext n f).stubs = s.stubs := rfl
@[simp] theorem State.onContext_nacks (s : State) (n : BitVec 12) (f : Context → Context) : (s.onContext n f).nacks = s.nacks := rfl
@[simp] theorem State.onContext_collectives (s : State) (n : BitVec 12) (f : Context → Context) : (s.onContext n f).collectives = s.collectives := rfl
@[simp] theorem State.onContext_firmware (s : State) (n : BitVec 12) (f : Context → Context) : (s.onContext n f).firmware = s.firmware := rfl
@[simp] theorem State.onContext_checkpoints (s : State) (n : BitVec 12) (f : Context → Context) : (s.onContext n f).checkpoints = s.checkpoints := rfl
@[simp] theorem State.onContext_stop (s : State) (n : BitVec 12) (f : Context → Context) : (s.onContext n f).stop = s.stop := rfl
@[simp] theorem State.onContext_fresh (s : State) (n : BitVec 12) (f : Context → Context) : (s.onContext n f).fresh = s.fresh := rfl

/-! ### onPart -/

@[simp] theorem State.onPart_sh (s : State) (n : Nat) (f : Partition → Partition) : (s.onPart n f).sh = s.sh := rfl
@[simp] theorem State.onPart_peers (s : State) (n : Nat) (f : Partition → Partition) : (s.onPart n f).peers = s.peers := rfl
@[simp] theorem State.onPart_agenda (s : State) (n : Nat) (f : Partition → Partition) : (s.onPart n f).agenda = s.agenda := rfl
@[simp] theorem State.onPart_gtc (s : State) (n : Nat) (f : Partition → Partition) : (s.onPart n f).gtc = s.gtc := rfl
@[simp] theorem State.onPart_mem (s : State) (n : Nat) (f : Partition → Partition) : (s.onPart n f).mem = s.mem := rfl
@[simp] theorem State.onPart_lines (s : State) (n : Nat) (f : Partition → Partition) : (s.onPart n f).lines = s.lines := rfl
@[simp] theorem State.onPart_badLines (s : State) (n : Nat) (f : Partition → Partition) : (s.onPart n f).badLines = s.badLines := rfl
@[simp] theorem State.onPart_weak (s : State) (n : Nat) (f : Partition → Partition) : (s.onPart n f).weak = s.weak := rfl
@[simp] theorem State.onPart_parking (s : State) (n : Nat) (f : Partition → Partition) : (s.onPart n f).parking = s.parking := rfl
@[simp] theorem State.onPart_moves (s : State) (n : Nat) (f : Partition → Partition) : (s.onPart n f).moves = s.moves := rfl
@[simp] theorem State.onPart_groups (s : State) (n : Nat) (f : Partition → Partition) : (s.onPart n f).groups = s.groups := rfl
@[simp] theorem State.onPart_tasks (s : State) (n : Nat) (f : Partition → Partition) : (s.onPart n f).tasks = s.tasks := rfl
@[simp] theorem State.onPart_contexts (s : State) (n : Nat) (f : Partition → Partition) : (s.onPart n f).contexts = s.contexts := rfl
@[simp] theorem State.onPart_bins (s : State) (n : Nat) (f : Partition → Partition) : (s.onPart n f).bins = s.bins := rfl
@[simp] theorem State.onPart_held (s : State) (n : Nat) (f : Partition → Partition) : (s.onPart n f).held = s.held := rfl
@[simp] theorem State.onPart_iwrites (s : State) (n : Nat) (f : Partition → Partition) : (s.onPart n f).iwrites = s.iwrites := rfl
@[simp] theorem State.onPart_invalids (s : State) (n : Nat) (f : Partition → Partition) : (s.onPart n f).invalids = s.invalids := rfl
@[simp] theorem State.onPart_tlb (s : State) (n : Nat) (f : Partition → Partition) : (s.onPart n f).tlb = s.tlb := rfl
@[simp] theorem State.onPart_halts (s : State) (n : Nat) (f : Partition → Partition) : (s.onPart n f).halts = s.halts := rfl
@[simp] theorem State.onPart_fns (s : State) (n : Nat) (f : Partition → Partition) : (s.onPart n f).fns = s.fns := rfl
@[simp] theorem State.onPart_partitions (s : State) (n : Nat) (f : Partition → Partition) : (s.onPart n f).partitions = s.partitions.map fun q => if q.num = n then f q else q := rfl
@[simp] theorem State.onPart_dies (s : State) (n : Nat) (f : Partition → Partition) : (s.onPart n f).dies = s.dies := rfl
@[simp] theorem State.onPart_clusters (s : State) (n : Nat) (f : Partition → Partition) : (s.onPart n f).clusters = s.clusters := rfl
@[simp] theorem State.onPart_scoreboard (s : State) (n : Nat) (f : Partition → Partition) : (s.onPart n f).scoreboard = s.scoreboard := rfl
@[simp] theorem State.onPart_halted (s : State) (n : Nat) (f : Partition → Partition) : (s.onPart n f).halted = s.halted := rfl
@[simp] theorem State.onPart_deaths (s : State) (n : Nat) (f : Partition → Partition) : (s.onPart n f).deaths = s.deaths := rfl
@[simp] theorem State.onPart_modId (s : State) (n : Nat) (f : Partition → Partition) : (s.onPart n f).modId = s.modId := rfl
@[simp] theorem State.onPart_routes (s : State) (n : Nat) (f : Partition → Partition) : (s.onPart n f).routes = s.routes := rfl
@[simp] theorem State.onPart_power (s : State) (n : Nat) (f : Partition → Partition) : (s.onPart n f).power = s.power := rfl
@[simp] theorem State.onPart_saves (s : State) (n : Nat) (f : Partition → Partition) : (s.onPart n f).saves = s.saves := rfl
@[simp] theorem State.onPart_samples (s : State) (n : Nat) (f : Partition → Partition) : (s.onPart n f).samples = s.samples := rfl
@[simp] theorem State.onPart_hublog (s : State) (n : Nat) (f : Partition → Partition) : (s.onPart n f).hublog = s.hublog := rfl
@[simp] theorem State.onPart_latch (s : State) (n : Nat) (f : Partition → Partition) : (s.onPart n f).latch = s.latch := rfl
@[simp] theorem State.onPart_irqs (s : State) (n : Nat) (f : Partition → Partition) : (s.onPart n f).irqs = s.irqs := rfl
@[simp] theorem State.onPart_stubs (s : State) (n : Nat) (f : Partition → Partition) : (s.onPart n f).stubs = s.stubs := rfl
@[simp] theorem State.onPart_nacks (s : State) (n : Nat) (f : Partition → Partition) : (s.onPart n f).nacks = s.nacks := rfl
@[simp] theorem State.onPart_collectives (s : State) (n : Nat) (f : Partition → Partition) : (s.onPart n f).collectives = s.collectives := rfl
@[simp] theorem State.onPart_firmware (s : State) (n : Nat) (f : Partition → Partition) : (s.onPart n f).firmware = s.firmware := rfl
@[simp] theorem State.onPart_checkpoints (s : State) (n : Nat) (f : Partition → Partition) : (s.onPart n f).checkpoints = s.checkpoints := rfl
@[simp] theorem State.onPart_stop (s : State) (n : Nat) (f : Partition → Partition) : (s.onPart n f).stop = s.stop := rfl
@[simp] theorem State.onPart_fresh (s : State) (n : Nat) (f : Partition → Partition) : (s.onPart n f).fresh = s.fresh := rfl

/-! ### putBytes -/

@[simp] theorem State.putBytes_sh (s : State) (tag : BitVec 12) (k : Nat) (bs : List Byte) : (s.putBytes tag k bs).sh = s.sh := rfl
@[simp] theorem State.putBytes_peers (s : State) (tag : BitVec 12) (k : Nat) (bs : List Byte) : (s.putBytes tag k bs).peers = s.peers := rfl
@[simp] theorem State.putBytes_agenda (s : State) (tag : BitVec 12) (k : Nat) (bs : List Byte) : (s.putBytes tag k bs).agenda = s.agenda := rfl
@[simp] theorem State.putBytes_gtc (s : State) (tag : BitVec 12) (k : Nat) (bs : List Byte) : (s.putBytes tag k bs).gtc = s.gtc := rfl
@[simp] theorem State.putBytes_badLines (s : State) (tag : BitVec 12) (k : Nat) (bs : List Byte) : (s.putBytes tag k bs).badLines = s.badLines := rfl
@[simp] theorem State.putBytes_weak (s : State) (tag : BitVec 12) (k : Nat) (bs : List Byte) : (s.putBytes tag k bs).weak = s.weak := rfl
@[simp] theorem State.putBytes_parking (s : State) (tag : BitVec 12) (k : Nat) (bs : List Byte) : (s.putBytes tag k bs).parking = s.parking := rfl
@[simp] theorem State.putBytes_moves (s : State) (tag : BitVec 12) (k : Nat) (bs : List Byte) : (s.putBytes tag k bs).moves = s.moves := rfl
@[simp] theorem State.putBytes_groups (s : State) (tag : BitVec 12) (k : Nat) (bs : List Byte) : (s.putBytes tag k bs).groups = s.groups := rfl
@[simp] theorem State.putBytes_tasks (s : State) (tag : BitVec 12) (k : Nat) (bs : List Byte) : (s.putBytes tag k bs).tasks = s.tasks := rfl
@[simp] theorem State.putBytes_contexts (s : State) (tag : BitVec 12) (k : Nat) (bs : List Byte) : (s.putBytes tag k bs).contexts = s.contexts := rfl
@[simp] theorem State.putBytes_bins (s : State) (tag : BitVec 12) (k : Nat) (bs : List Byte) : (s.putBytes tag k bs).bins = s.bins := rfl
@[simp] theorem State.putBytes_held (s : State) (tag : BitVec 12) (k : Nat) (bs : List Byte) : (s.putBytes tag k bs).held = s.held := rfl
@[simp] theorem State.putBytes_iwrites (s : State) (tag : BitVec 12) (k : Nat) (bs : List Byte) : (s.putBytes tag k bs).iwrites = s.iwrites := rfl
@[simp] theorem State.putBytes_invalids (s : State) (tag : BitVec 12) (k : Nat) (bs : List Byte) : (s.putBytes tag k bs).invalids = s.invalids := rfl
@[simp] theorem State.putBytes_tlb (s : State) (tag : BitVec 12) (k : Nat) (bs : List Byte) : (s.putBytes tag k bs).tlb = s.tlb := rfl
@[simp] theorem State.putBytes_halts (s : State) (tag : BitVec 12) (k : Nat) (bs : List Byte) : (s.putBytes tag k bs).halts = s.halts := rfl
@[simp] theorem State.putBytes_fns (s : State) (tag : BitVec 12) (k : Nat) (bs : List Byte) : (s.putBytes tag k bs).fns = s.fns := rfl
@[simp] theorem State.putBytes_partitions (s : State) (tag : BitVec 12) (k : Nat) (bs : List Byte) : (s.putBytes tag k bs).partitions = s.partitions := rfl
@[simp] theorem State.putBytes_dies (s : State) (tag : BitVec 12) (k : Nat) (bs : List Byte) : (s.putBytes tag k bs).dies = s.dies := rfl
@[simp] theorem State.putBytes_clusters (s : State) (tag : BitVec 12) (k : Nat) (bs : List Byte) : (s.putBytes tag k bs).clusters = s.clusters := rfl
@[simp] theorem State.putBytes_scoreboard (s : State) (tag : BitVec 12) (k : Nat) (bs : List Byte) : (s.putBytes tag k bs).scoreboard = s.scoreboard := rfl
@[simp] theorem State.putBytes_halted (s : State) (tag : BitVec 12) (k : Nat) (bs : List Byte) : (s.putBytes tag k bs).halted = s.halted := rfl
@[simp] theorem State.putBytes_deaths (s : State) (tag : BitVec 12) (k : Nat) (bs : List Byte) : (s.putBytes tag k bs).deaths = s.deaths := rfl
@[simp] theorem State.putBytes_modId (s : State) (tag : BitVec 12) (k : Nat) (bs : List Byte) : (s.putBytes tag k bs).modId = s.modId := rfl
@[simp] theorem State.putBytes_routes (s : State) (tag : BitVec 12) (k : Nat) (bs : List Byte) : (s.putBytes tag k bs).routes = s.routes := rfl
@[simp] theorem State.putBytes_power (s : State) (tag : BitVec 12) (k : Nat) (bs : List Byte) : (s.putBytes tag k bs).power = s.power := rfl
@[simp] theorem State.putBytes_saves (s : State) (tag : BitVec 12) (k : Nat) (bs : List Byte) : (s.putBytes tag k bs).saves = s.saves := rfl
@[simp] theorem State.putBytes_samples (s : State) (tag : BitVec 12) (k : Nat) (bs : List Byte) : (s.putBytes tag k bs).samples = s.samples := rfl
@[simp] theorem State.putBytes_hublog (s : State) (tag : BitVec 12) (k : Nat) (bs : List Byte) : (s.putBytes tag k bs).hublog = s.hublog := rfl
@[simp] theorem State.putBytes_latch (s : State) (tag : BitVec 12) (k : Nat) (bs : List Byte) : (s.putBytes tag k bs).latch = s.latch := rfl
@[simp] theorem State.putBytes_irqs (s : State) (tag : BitVec 12) (k : Nat) (bs : List Byte) : (s.putBytes tag k bs).irqs = s.irqs := rfl
@[simp] theorem State.putBytes_stubs (s : State) (tag : BitVec 12) (k : Nat) (bs : List Byte) : (s.putBytes tag k bs).stubs = s.stubs := rfl
@[simp] theorem State.putBytes_nacks (s : State) (tag : BitVec 12) (k : Nat) (bs : List Byte) : (s.putBytes tag k bs).nacks = s.nacks := rfl
@[simp] theorem State.putBytes_collectives (s : State) (tag : BitVec 12) (k : Nat) (bs : List Byte) : (s.putBytes tag k bs).collectives = s.collectives := rfl
@[simp] theorem State.putBytes_firmware (s : State) (tag : BitVec 12) (k : Nat) (bs : List Byte) : (s.putBytes tag k bs).firmware = s.firmware := rfl
@[simp] theorem State.putBytes_checkpoints (s : State) (tag : BitVec 12) (k : Nat) (bs : List Byte) : (s.putBytes tag k bs).checkpoints = s.checkpoints := rfl
@[simp] theorem State.putBytes_stop (s : State) (tag : BitVec 12) (k : Nat) (bs : List Byte) : (s.putBytes tag k bs).stop = s.stop := rfl
@[simp] theorem State.putBytes_fresh (s : State) (tag : BitVec 12) (k : Nat) (bs : List Byte) : (s.putBytes tag k bs).fresh = s.fresh := rfl

/-! ### putDesc -/

@[simp] theorem State.putDesc_sh (s : State) (tag : BitVec 12) (k : Nat) (x : BitVec 16) : (s.putDesc tag k x).sh = s.sh := rfl
@[simp] theorem State.putDesc_peers (s : State) (tag : BitVec 12) (k : Nat) (x : BitVec 16) : (s.putDesc tag k x).peers = s.peers := rfl
@[simp] theorem State.putDesc_agenda (s : State) (tag : BitVec 12) (k : Nat) (x : BitVec 16) : (s.putDesc tag k x).agenda = s.agenda := rfl
@[simp] theorem State.putDesc_gtc (s : State) (tag : BitVec 12) (k : Nat) (x : BitVec 16) : (s.putDesc tag k x).gtc = s.gtc := rfl
@[simp] theorem State.putDesc_mem (s : State) (tag : BitVec 12) (k : Nat) (x : BitVec 16) : (s.putDesc tag k x).mem = s.mem := rfl
@[simp] theorem State.putDesc_badLines (s : State) (tag : BitVec 12) (k : Nat) (x : BitVec 16) : (s.putDesc tag k x).badLines = s.badLines := rfl
@[simp] theorem State.putDesc_weak (s : State) (tag : BitVec 12) (k : Nat) (x : BitVec 16) : (s.putDesc tag k x).weak = s.weak := rfl
@[simp] theorem State.putDesc_parking (s : State) (tag : BitVec 12) (k : Nat) (x : BitVec 16) : (s.putDesc tag k x).parking = s.parking := rfl
@[simp] theorem State.putDesc_moves (s : State) (tag : BitVec 12) (k : Nat) (x : BitVec 16) : (s.putDesc tag k x).moves = s.moves := rfl
@[simp] theorem State.putDesc_groups (s : State) (tag : BitVec 12) (k : Nat) (x : BitVec 16) : (s.putDesc tag k x).groups = s.groups := rfl
@[simp] theorem State.putDesc_tasks (s : State) (tag : BitVec 12) (k : Nat) (x : BitVec 16) : (s.putDesc tag k x).tasks = s.tasks := rfl
@[simp] theorem State.putDesc_contexts (s : State) (tag : BitVec 12) (k : Nat) (x : BitVec 16) : (s.putDesc tag k x).contexts = s.contexts := rfl
@[simp] theorem State.putDesc_bins (s : State) (tag : BitVec 12) (k : Nat) (x : BitVec 16) : (s.putDesc tag k x).bins = s.bins := rfl
@[simp] theorem State.putDesc_held (s : State) (tag : BitVec 12) (k : Nat) (x : BitVec 16) : (s.putDesc tag k x).held = s.held := rfl
@[simp] theorem State.putDesc_iwrites (s : State) (tag : BitVec 12) (k : Nat) (x : BitVec 16) : (s.putDesc tag k x).iwrites = s.iwrites := rfl
@[simp] theorem State.putDesc_invalids (s : State) (tag : BitVec 12) (k : Nat) (x : BitVec 16) : (s.putDesc tag k x).invalids = s.invalids := rfl
@[simp] theorem State.putDesc_tlb (s : State) (tag : BitVec 12) (k : Nat) (x : BitVec 16) : (s.putDesc tag k x).tlb = s.tlb := rfl
@[simp] theorem State.putDesc_halts (s : State) (tag : BitVec 12) (k : Nat) (x : BitVec 16) : (s.putDesc tag k x).halts = s.halts := rfl
@[simp] theorem State.putDesc_fns (s : State) (tag : BitVec 12) (k : Nat) (x : BitVec 16) : (s.putDesc tag k x).fns = s.fns := rfl
@[simp] theorem State.putDesc_partitions (s : State) (tag : BitVec 12) (k : Nat) (x : BitVec 16) : (s.putDesc tag k x).partitions = s.partitions := rfl
@[simp] theorem State.putDesc_dies (s : State) (tag : BitVec 12) (k : Nat) (x : BitVec 16) : (s.putDesc tag k x).dies = s.dies := rfl
@[simp] theorem State.putDesc_clusters (s : State) (tag : BitVec 12) (k : Nat) (x : BitVec 16) : (s.putDesc tag k x).clusters = s.clusters := rfl
@[simp] theorem State.putDesc_scoreboard (s : State) (tag : BitVec 12) (k : Nat) (x : BitVec 16) : (s.putDesc tag k x).scoreboard = s.scoreboard := rfl
@[simp] theorem State.putDesc_halted (s : State) (tag : BitVec 12) (k : Nat) (x : BitVec 16) : (s.putDesc tag k x).halted = s.halted := rfl
@[simp] theorem State.putDesc_deaths (s : State) (tag : BitVec 12) (k : Nat) (x : BitVec 16) : (s.putDesc tag k x).deaths = s.deaths := rfl
@[simp] theorem State.putDesc_modId (s : State) (tag : BitVec 12) (k : Nat) (x : BitVec 16) : (s.putDesc tag k x).modId = s.modId := rfl
@[simp] theorem State.putDesc_routes (s : State) (tag : BitVec 12) (k : Nat) (x : BitVec 16) : (s.putDesc tag k x).routes = s.routes := rfl
@[simp] theorem State.putDesc_power (s : State) (tag : BitVec 12) (k : Nat) (x : BitVec 16) : (s.putDesc tag k x).power = s.power := rfl
@[simp] theorem State.putDesc_saves (s : State) (tag : BitVec 12) (k : Nat) (x : BitVec 16) : (s.putDesc tag k x).saves = s.saves := rfl
@[simp] theorem State.putDesc_samples (s : State) (tag : BitVec 12) (k : Nat) (x : BitVec 16) : (s.putDesc tag k x).samples = s.samples := rfl
@[simp] theorem State.putDesc_hublog (s : State) (tag : BitVec 12) (k : Nat) (x : BitVec 16) : (s.putDesc tag k x).hublog = s.hublog := rfl
@[simp] theorem State.putDesc_latch (s : State) (tag : BitVec 12) (k : Nat) (x : BitVec 16) : (s.putDesc tag k x).latch = s.latch := rfl
@[simp] theorem State.putDesc_irqs (s : State) (tag : BitVec 12) (k : Nat) (x : BitVec 16) : (s.putDesc tag k x).irqs = s.irqs := rfl
@[simp] theorem State.putDesc_stubs (s : State) (tag : BitVec 12) (k : Nat) (x : BitVec 16) : (s.putDesc tag k x).stubs = s.stubs := rfl
@[simp] theorem State.putDesc_nacks (s : State) (tag : BitVec 12) (k : Nat) (x : BitVec 16) : (s.putDesc tag k x).nacks = s.nacks := rfl
@[simp] theorem State.putDesc_collectives (s : State) (tag : BitVec 12) (k : Nat) (x : BitVec 16) : (s.putDesc tag k x).collectives = s.collectives := rfl
@[simp] theorem State.putDesc_firmware (s : State) (tag : BitVec 12) (k : Nat) (x : BitVec 16) : (s.putDesc tag k x).firmware = s.firmware := rfl
@[simp] theorem State.putDesc_checkpoints (s : State) (tag : BitVec 12) (k : Nat) (x : BitVec 16) : (s.putDesc tag k x).checkpoints = s.checkpoints := rfl
@[simp] theorem State.putDesc_stop (s : State) (tag : BitVec 12) (k : Nat) (x : BitVec 16) : (s.putDesc tag k x).stop = s.stop := rfl
@[simp] theorem State.putDesc_fresh (s : State) (tag : BitVec 12) (k : Nat) (x : BitVec 16) : (s.putDesc tag k x).fresh = s.fresh := rfl

/-! ### clearRange -/

@[simp] theorem State.clearRange_sh (s : State) (tag : BitVec 12) (k n : Nat) : (s.clearRange tag k n).sh = s.sh := rfl
@[simp] theorem State.clearRange_peers (s : State) (tag : BitVec 12) (k n : Nat) : (s.clearRange tag k n).peers = s.peers := rfl
@[simp] theorem State.clearRange_agenda (s : State) (tag : BitVec 12) (k n : Nat) : (s.clearRange tag k n).agenda = s.agenda := rfl
@[simp] theorem State.clearRange_gtc (s : State) (tag : BitVec 12) (k n : Nat) : (s.clearRange tag k n).gtc = s.gtc := rfl
@[simp] theorem State.clearRange_weak (s : State) (tag : BitVec 12) (k n : Nat) : (s.clearRange tag k n).weak = s.weak := rfl
@[simp] theorem State.clearRange_parking (s : State) (tag : BitVec 12) (k n : Nat) : (s.clearRange tag k n).parking = s.parking := rfl
@[simp] theorem State.clearRange_moves (s : State) (tag : BitVec 12) (k n : Nat) : (s.clearRange tag k n).moves = s.moves := rfl
@[simp] theorem State.clearRange_groups (s : State) (tag : BitVec 12) (k n : Nat) : (s.clearRange tag k n).groups = s.groups := rfl
@[simp] theorem State.clearRange_tasks (s : State) (tag : BitVec 12) (k n : Nat) : (s.clearRange tag k n).tasks = s.tasks := rfl
@[simp] theorem State.clearRange_contexts (s : State) (tag : BitVec 12) (k n : Nat) : (s.clearRange tag k n).contexts = s.contexts := rfl
@[simp] theorem State.clearRange_bins (s : State) (tag : BitVec 12) (k n : Nat) : (s.clearRange tag k n).bins = s.bins := rfl
@[simp] theorem State.clearRange_held (s : State) (tag : BitVec 12) (k n : Nat) : (s.clearRange tag k n).held = s.held := rfl
@[simp] theorem State.clearRange_iwrites (s : State) (tag : BitVec 12) (k n : Nat) : (s.clearRange tag k n).iwrites = s.iwrites := rfl
@[simp] theorem State.clearRange_invalids (s : State) (tag : BitVec 12) (k n : Nat) : (s.clearRange tag k n).invalids = s.invalids := rfl
@[simp] theorem State.clearRange_tlb (s : State) (tag : BitVec 12) (k n : Nat) : (s.clearRange tag k n).tlb = s.tlb := rfl
@[simp] theorem State.clearRange_halts (s : State) (tag : BitVec 12) (k n : Nat) : (s.clearRange tag k n).halts = s.halts := rfl
@[simp] theorem State.clearRange_fns (s : State) (tag : BitVec 12) (k n : Nat) : (s.clearRange tag k n).fns = s.fns := rfl
@[simp] theorem State.clearRange_partitions (s : State) (tag : BitVec 12) (k n : Nat) : (s.clearRange tag k n).partitions = s.partitions := rfl
@[simp] theorem State.clearRange_dies (s : State) (tag : BitVec 12) (k n : Nat) : (s.clearRange tag k n).dies = s.dies := rfl
@[simp] theorem State.clearRange_clusters (s : State) (tag : BitVec 12) (k n : Nat) : (s.clearRange tag k n).clusters = s.clusters := rfl
@[simp] theorem State.clearRange_scoreboard (s : State) (tag : BitVec 12) (k n : Nat) : (s.clearRange tag k n).scoreboard = s.scoreboard := rfl
@[simp] theorem State.clearRange_halted (s : State) (tag : BitVec 12) (k n : Nat) : (s.clearRange tag k n).halted = s.halted := rfl
@[simp] theorem State.clearRange_deaths (s : State) (tag : BitVec 12) (k n : Nat) : (s.clearRange tag k n).deaths = s.deaths := rfl
@[simp] theorem State.clearRange_modId (s : State) (tag : BitVec 12) (k n : Nat) : (s.clearRange tag k n).modId = s.modId := rfl
@[simp] theorem State.clearRange_routes (s : State) (tag : BitVec 12) (k n : Nat) : (s.clearRange tag k n).routes = s.routes := rfl
@[simp] theorem State.clearRange_power (s : State) (tag : BitVec 12) (k n : Nat) : (s.clearRange tag k n).power = s.power := rfl
@[simp] theorem State.clearRange_saves (s : State) (tag : BitVec 12) (k n : Nat) : (s.clearRange tag k n).saves = s.saves := rfl
@[simp] theorem State.clearRange_samples (s : State) (tag : BitVec 12) (k n : Nat) : (s.clearRange tag k n).samples = s.samples := rfl
@[simp] theorem State.clearRange_hublog (s : State) (tag : BitVec 12) (k n : Nat) : (s.clearRange tag k n).hublog = s.hublog := rfl
@[simp] theorem State.clearRange_latch (s : State) (tag : BitVec 12) (k n : Nat) : (s.clearRange tag k n).latch = s.latch := rfl
@[simp] theorem State.clearRange_irqs (s : State) (tag : BitVec 12) (k n : Nat) : (s.clearRange tag k n).irqs = s.irqs := rfl
@[simp] theorem State.clearRange_stubs (s : State) (tag : BitVec 12) (k n : Nat) : (s.clearRange tag k n).stubs = s.stubs := rfl
@[simp] theorem State.clearRange_nacks (s : State) (tag : BitVec 12) (k n : Nat) : (s.clearRange tag k n).nacks = s.nacks := rfl
@[simp] theorem State.clearRange_collectives (s : State) (tag : BitVec 12) (k n : Nat) : (s.clearRange tag k n).collectives = s.collectives := rfl
@[simp] theorem State.clearRange_firmware (s : State) (tag : BitVec 12) (k n : Nat) : (s.clearRange tag k n).firmware = s.firmware := rfl
@[simp] theorem State.clearRange_checkpoints (s : State) (tag : BitVec 12) (k n : Nat) : (s.clearRange tag k n).checkpoints = s.checkpoints := rfl
@[simp] theorem State.clearRange_stop (s : State) (tag : BitVec 12) (k n : Nat) : (s.clearRange tag k n).stop = s.stop := rfl
@[simp] theorem State.clearRange_fresh (s : State) (tag : BitVec 12) (k n : Nat) : (s.clearRange tag k n).fresh = s.fresh := rfl

/-! ### dropRange -/

@[simp] theorem State.dropRange_sh (s : State) (k n : Nat) : (s.dropRange k n).sh = s.sh := rfl
@[simp] theorem State.dropRange_peers (s : State) (k n : Nat) : (s.dropRange k n).peers = s.peers := rfl
@[simp] theorem State.dropRange_agenda (s : State) (k n : Nat) : (s.dropRange k n).agenda = s.agenda := rfl
@[simp] theorem State.dropRange_gtc (s : State) (k n : Nat) : (s.dropRange k n).gtc = s.gtc := rfl
@[simp] theorem State.dropRange_weak (s : State) (k n : Nat) : (s.dropRange k n).weak = s.weak := rfl
@[simp] theorem State.dropRange_parking (s : State) (k n : Nat) : (s.dropRange k n).parking = s.parking := rfl
@[simp] theorem State.dropRange_moves (s : State) (k n : Nat) : (s.dropRange k n).moves = s.moves := rfl
@[simp] theorem State.dropRange_groups (s : State) (k n : Nat) : (s.dropRange k n).groups = s.groups := rfl
@[simp] theorem State.dropRange_tasks (s : State) (k n : Nat) : (s.dropRange k n).tasks = s.tasks := rfl
@[simp] theorem State.dropRange_contexts (s : State) (k n : Nat) : (s.dropRange k n).contexts = s.contexts := rfl
@[simp] theorem State.dropRange_bins (s : State) (k n : Nat) : (s.dropRange k n).bins = s.bins := rfl
@[simp] theorem State.dropRange_held (s : State) (k n : Nat) : (s.dropRange k n).held = s.held := rfl
@[simp] theorem State.dropRange_iwrites (s : State) (k n : Nat) : (s.dropRange k n).iwrites = s.iwrites := rfl
@[simp] theorem State.dropRange_invalids (s : State) (k n : Nat) : (s.dropRange k n).invalids = s.invalids := rfl
@[simp] theorem State.dropRange_tlb (s : State) (k n : Nat) : (s.dropRange k n).tlb = s.tlb := rfl
@[simp] theorem State.dropRange_halts (s : State) (k n : Nat) : (s.dropRange k n).halts = s.halts := rfl
@[simp] theorem State.dropRange_fns (s : State) (k n : Nat) : (s.dropRange k n).fns = s.fns := rfl
@[simp] theorem State.dropRange_partitions (s : State) (k n : Nat) : (s.dropRange k n).partitions = s.partitions := rfl
@[simp] theorem State.dropRange_dies (s : State) (k n : Nat) : (s.dropRange k n).dies = s.dies := rfl
@[simp] theorem State.dropRange_clusters (s : State) (k n : Nat) : (s.dropRange k n).clusters = s.clusters := rfl
@[simp] theorem State.dropRange_scoreboard (s : State) (k n : Nat) : (s.dropRange k n).scoreboard = s.scoreboard := rfl
@[simp] theorem State.dropRange_halted (s : State) (k n : Nat) : (s.dropRange k n).halted = s.halted := rfl
@[simp] theorem State.dropRange_deaths (s : State) (k n : Nat) : (s.dropRange k n).deaths = s.deaths := rfl
@[simp] theorem State.dropRange_modId (s : State) (k n : Nat) : (s.dropRange k n).modId = s.modId := rfl
@[simp] theorem State.dropRange_routes (s : State) (k n : Nat) : (s.dropRange k n).routes = s.routes := rfl
@[simp] theorem State.dropRange_power (s : State) (k n : Nat) : (s.dropRange k n).power = s.power := rfl
@[simp] theorem State.dropRange_saves (s : State) (k n : Nat) : (s.dropRange k n).saves = s.saves := rfl
@[simp] theorem State.dropRange_samples (s : State) (k n : Nat) : (s.dropRange k n).samples = s.samples := rfl
@[simp] theorem State.dropRange_hublog (s : State) (k n : Nat) : (s.dropRange k n).hublog = s.hublog := rfl
@[simp] theorem State.dropRange_latch (s : State) (k n : Nat) : (s.dropRange k n).latch = s.latch := rfl
@[simp] theorem State.dropRange_irqs (s : State) (k n : Nat) : (s.dropRange k n).irqs = s.irqs := rfl
@[simp] theorem State.dropRange_stubs (s : State) (k n : Nat) : (s.dropRange k n).stubs = s.stubs := rfl
@[simp] theorem State.dropRange_nacks (s : State) (k n : Nat) : (s.dropRange k n).nacks = s.nacks := rfl
@[simp] theorem State.dropRange_collectives (s : State) (k n : Nat) : (s.dropRange k n).collectives = s.collectives := rfl
@[simp] theorem State.dropRange_firmware (s : State) (k n : Nat) : (s.dropRange k n).firmware = s.firmware := rfl
@[simp] theorem State.dropRange_checkpoints (s : State) (k n : Nat) : (s.dropRange k n).checkpoints = s.checkpoints := rfl
@[simp] theorem State.dropRange_stop (s : State) (k n : Nat) : (s.dropRange k n).stop = s.stop := rfl
@[simp] theorem State.dropRange_fresh (s : State) (k n : Nat) : (s.dropRange k n).fresh = s.fresh := rfl

/-! ### hold -/

@[simp] theorem State.hold_peers (s : State) (i : Instr) (k : Option Nat) : (s.hold i k).peers = s.peers := rfl
@[simp] theorem State.hold_agenda (s : State) (i : Instr) (k : Option Nat) : (s.hold i k).agenda = s.agenda := rfl
@[simp] theorem State.hold_gtc (s : State) (i : Instr) (k : Option Nat) : (s.hold i k).gtc = s.gtc := rfl
@[simp] theorem State.hold_mem (s : State) (i : Instr) (k : Option Nat) : (s.hold i k).mem = s.mem := rfl
@[simp] theorem State.hold_lines (s : State) (i : Instr) (k : Option Nat) : (s.hold i k).lines = s.lines := rfl
@[simp] theorem State.hold_badLines (s : State) (i : Instr) (k : Option Nat) : (s.hold i k).badLines = s.badLines := rfl
@[simp] theorem State.hold_weak (s : State) (i : Instr) (k : Option Nat) : (s.hold i k).weak = s.weak := rfl
@[simp] theorem State.hold_parking (s : State) (i : Instr) (k : Option Nat) : (s.hold i k).parking = s.parking := rfl
@[simp] theorem State.hold_moves (s : State) (i : Instr) (k : Option Nat) : (s.hold i k).moves = s.moves := rfl
@[simp] theorem State.hold_groups (s : State) (i : Instr) (k : Option Nat) : (s.hold i k).groups = s.groups := rfl
@[simp] theorem State.hold_tasks (s : State) (i : Instr) (k : Option Nat) : (s.hold i k).tasks = s.tasks := rfl
@[simp] theorem State.hold_contexts (s : State) (i : Instr) (k : Option Nat) : (s.hold i k).contexts = s.contexts := rfl
@[simp] theorem State.hold_bins (s : State) (i : Instr) (k : Option Nat) : (s.hold i k).bins = s.bins := rfl
@[simp] theorem State.hold_held (s : State) (i : Instr) (k : Option Nat) : (s.hold i k).held = s.held := rfl
@[simp] theorem State.hold_iwrites (s : State) (i : Instr) (k : Option Nat) : (s.hold i k).iwrites = s.iwrites := rfl
@[simp] theorem State.hold_invalids (s : State) (i : Instr) (k : Option Nat) : (s.hold i k).invalids = s.invalids := rfl
@[simp] theorem State.hold_tlb (s : State) (i : Instr) (k : Option Nat) : (s.hold i k).tlb = s.tlb := rfl
@[simp] theorem State.hold_halts (s : State) (i : Instr) (k : Option Nat) : (s.hold i k).halts = s.halts := rfl
@[simp] theorem State.hold_fns (s : State) (i : Instr) (k : Option Nat) : (s.hold i k).fns = s.fns := rfl
@[simp] theorem State.hold_partitions (s : State) (i : Instr) (k : Option Nat) : (s.hold i k).partitions = s.partitions := rfl
@[simp] theorem State.hold_dies (s : State) (i : Instr) (k : Option Nat) : (s.hold i k).dies = s.dies := rfl
@[simp] theorem State.hold_clusters (s : State) (i : Instr) (k : Option Nat) : (s.hold i k).clusters = s.clusters := rfl
@[simp] theorem State.hold_scoreboard (s : State) (i : Instr) (k : Option Nat) : (s.hold i k).scoreboard = s.scoreboard := rfl
@[simp] theorem State.hold_halted (s : State) (i : Instr) (k : Option Nat) : (s.hold i k).halted = s.halted := rfl
@[simp] theorem State.hold_deaths (s : State) (i : Instr) (k : Option Nat) : (s.hold i k).deaths = s.deaths := rfl
@[simp] theorem State.hold_modId (s : State) (i : Instr) (k : Option Nat) : (s.hold i k).modId = s.modId := rfl
@[simp] theorem State.hold_routes (s : State) (i : Instr) (k : Option Nat) : (s.hold i k).routes = s.routes := rfl
@[simp] theorem State.hold_power (s : State) (i : Instr) (k : Option Nat) : (s.hold i k).power = s.power := rfl
@[simp] theorem State.hold_saves (s : State) (i : Instr) (k : Option Nat) : (s.hold i k).saves = s.saves := rfl
@[simp] theorem State.hold_samples (s : State) (i : Instr) (k : Option Nat) : (s.hold i k).samples = s.samples := rfl
@[simp] theorem State.hold_hublog (s : State) (i : Instr) (k : Option Nat) : (s.hold i k).hublog = s.hublog := rfl
@[simp] theorem State.hold_latch (s : State) (i : Instr) (k : Option Nat) : (s.hold i k).latch = s.latch := rfl
@[simp] theorem State.hold_irqs (s : State) (i : Instr) (k : Option Nat) : (s.hold i k).irqs = s.irqs := rfl
@[simp] theorem State.hold_stubs (s : State) (i : Instr) (k : Option Nat) : (s.hold i k).stubs = s.stubs := rfl
@[simp] theorem State.hold_nacks (s : State) (i : Instr) (k : Option Nat) : (s.hold i k).nacks = s.nacks := rfl
@[simp] theorem State.hold_collectives (s : State) (i : Instr) (k : Option Nat) : (s.hold i k).collectives = s.collectives := rfl
@[simp] theorem State.hold_firmware (s : State) (i : Instr) (k : Option Nat) : (s.hold i k).firmware = s.firmware := rfl
@[simp] theorem State.hold_checkpoints (s : State) (i : Instr) (k : Option Nat) : (s.hold i k).checkpoints = s.checkpoints := rfl
@[simp] theorem State.hold_stop (s : State) (i : Instr) (k : Option Nat) : (s.hold i k).stop = s.stop := rfl
@[simp] theorem State.hold_fresh (s : State) (i : Instr) (k : Option Nat) : (s.hold i k).fresh = s.fresh := rfl

/-! ### The sheaf's other fields under a change of its registers, and when a wait ends -/

@[simp] theorem State.regs_sh_uid (s : State) (f : Regs → Regs) : (s.regs f).sh.uid = s.sh.uid := rfl
@[simp] theorem State.regs_sh_life (s : State) (f : Regs → Regs) : (s.regs f).sh.life = s.sh.life := rfl
@[simp] theorem State.regs_sh_snap (s : State) (f : Regs → Regs) : (s.regs f).sh.snap = s.sh.snap := rfl
@[simp] theorem State.regs_sh_pc (s : State) (f : Regs → Regs) : (s.regs f).sh.pc = s.sh.pc := rfl
@[simp] theorem State.regs_sh_next (s : State) (f : Regs → Regs) : (s.regs f).sh.next = s.sh.next := rfl
@[simp] theorem State.regs_sh_latch (s : State) (f : Regs → Regs) : (s.regs f).sh.latch = s.sh.latch := rfl
@[simp] theorem State.regs_sh_trapped (s : State) (f : Regs → Regs) : (s.regs f).sh.trapped = s.sh.trapped := rfl
@[simp] theorem State.regs_sh_task (s : State) (f : Regs → Regs) : (s.regs f).sh.task = s.sh.task := rfl
@[simp] theorem State.regs_sh_group (s : State) (f : Regs → Regs) : (s.regs f).sh.group = s.sh.group := rfl
@[simp] theorem State.regs_sh_lsheaf (s : State) (f : Regs → Regs) : (s.regs f).sh.lsheaf = s.sh.lsheaf := rfl
@[simp] theorem State.regs_sh_sheafNo (s : State) (f : Regs → Regs) : (s.regs f).sh.sheafNo = s.sh.sheafNo := rfl
@[simp] theorem State.regs_sh_fpflags (s : State) (f : Regs → Regs) : (s.regs f).sh.fpflags = s.sh.fpflags := rfl
@[simp] theorem State.regs_sh_trpc (s : State) (f : Regs → Regs) : (s.regs f).sh.trpc = s.sh.trpc := rfl
@[simp] theorem State.regs_sh_trnext (s : State) (f : Regs → Regs) : (s.regs f).sh.trnext = s.sh.trnext := rfl
@[simp] theorem State.regs_sh_trmask (s : State) (f : Regs → Regs) : (s.regs f).sh.trmask = s.sh.trmask := rfl
@[simp] theorem State.regs_sh_trcause (s : State) (f : Regs → Regs) : (s.regs f).sh.trcause = s.sh.trcause := rfl
@[simp] theorem State.regs_sh_traux (s : State) (f : Regs → Regs) : (s.regs f).sh.traux = s.sh.traux := rfl
@[simp] theorem State.regs_sh_trbase (s : State) (f : Regs → Regs) : (s.regs f).sh.trbase = s.sh.trbase := rfl
@[simp] theorem State.regs_sh_trem (s : State) (f : Regs → Regs) : (s.regs f).sh.trem = s.sh.trem := rfl
@[simp] theorem State.regs_sh_tsc (s : State) (f : Regs → Regs) : (s.regs f).sh.tsc = s.sh.tsc := rfl
@[simp] theorem State.regs_sh_rpLast (s : State) (f : Regs → Regs) : (s.regs f).sh.rpLast = s.sh.rpLast := rfl
@[simp] theorem State.regs_sh_rpNext (s : State) (f : Regs → Regs) : (s.regs f).sh.rpNext = s.sh.rpNext := rfl
@[simp] theorem State.regs_sh_rpResume (s : State) (f : Regs → Regs) : (s.regs f).sh.rpResume = s.sh.rpResume := rfl
@[simp] theorem State.regs_sh_rpAt (s : State) (f : Regs → Regs) : (s.regs f).sh.rpAt = s.sh.rpAt := rfl
@[simp] theorem State.regs_sh_rep (s : State) (f : Regs → Regs) : (s.regs f).sh.rep = s.sh.rep := rfl
@[simp] theorem State.regs_sh_scope (s : State) (f : Regs → Regs) : (s.regs f).sh.scope = s.sh.scope := rfl
@[simp] theorem State.regs_sh_baseScope (s : State) (f : Regs → Regs) : (s.regs f).sh.baseScope = s.sh.baseScope := rfl
@[simp] theorem State.regs_sh_ver (s : State) (f : Regs → Regs) : (s.regs f).sh.ver = s.sh.ver := rfl
@[simp] theorem State.regs_sh_budget (s : State) (f : Regs → Regs) : (s.regs f).sh.budget = s.sh.budget := rfl
@[simp] theorem State.regs_sh_prio (s : State) (f : Regs → Regs) : (s.regs f).sh.prio = s.sh.prio := rfl
@[simp] theorem State.regs_sh_quant (s : State) (f : Regs → Regs) : (s.regs f).sh.quant = s.sh.quant := rfl
@[simp] theorem State.regs_sh_late (s : State) (f : Regs → Regs) : (s.regs f).sh.late = s.sh.late := rfl
@[simp] theorem State.regs_sh_hnd (s : State) (f : Regs → Regs) : (s.regs f).sh.hnd = s.sh.hnd := rfl
@[simp] theorem State.regs_sh_contF (s : State) (f : Regs → Regs) : (s.regs f).sh.contF = s.sh.contF := rfl
@[simp] theorem State.regs_sh_contAt (s : State) (f : Regs → Regs) : (s.regs f).sh.contAt = s.sh.contAt := rfl
@[simp] theorem State.regs_sh_hidW (s : State) (f : Regs → Regs) : (s.regs f).sh.hidW = s.sh.hidW := rfl
@[simp] theorem State.regs_sh_hidMode (s : State) (f : Regs → Regs) : (s.regs f).sh.hidMode = s.sh.hidMode := rfl
@[simp] theorem State.regs_sh_hidF (s : State) (f : Regs → Regs) : (s.regs f).sh.hidF = s.sh.hidF := rfl
@[simp] theorem State.regs_sh_pend (s : State) (f : Regs → Regs) : (s.regs f).sh.pend = s.sh.pend := rfl
@[simp] theorem State.regs_sh_windows (s : State) (f : Regs → Regs) : (s.regs f).sh.windows = s.sh.windows := rfl
@[simp] theorem State.regs_sh_loads (s : State) (f : Regs → Regs) : (s.regs f).sh.loads = s.sh.loads := rfl
@[simp] theorem State.regs_sh_replays (s : State) (f : Regs → Regs) : (s.regs f).sh.replays = s.sh.replays := rfl
@[simp] theorem State.regs_sh_spawns (s : State) (f : Regs → Regs) : (s.regs f).sh.spawns = s.sh.spawns := rfl
@[simp] theorem State.regs_sh_nextBatch (s : State) (f : Regs → Regs) : (s.regs f).sh.nextBatch = s.sh.nextBatch := rfl
@[simp] theorem State.regs_sh_openCpys (s : State) (f : Regs → Regs) : (s.regs f).sh.openCpys = s.sh.openCpys := rfl
@[simp] theorem State.regs_sh_openProg (s : State) (f : Regs → Regs) : (s.regs f).sh.openProg = s.sh.openProg := rfl
@[simp] theorem State.regs_sh_openOut (s : State) (f : Regs → Regs) : (s.regs f).sh.openOut = s.sh.openOut := rfl
@[simp] theorem State.regs_sh_batches (s : State) (f : Regs → Regs) : (s.regs f).sh.batches = s.sh.batches := rfl
@[simp] theorem State.regs_sh_mcfg (s : State) (f : Regs → Regs) : (s.regs f).sh.mcfg = s.sh.mcfg := rfl
@[simp] theorem State.regs_sh_latches (s : State) (f : Regs → Regs) : (s.regs f).sh.latches = s.sh.latches := rfl
@[simp] theorem State.regs_sh_loops (s : State) (f : Regs → Regs) : (s.regs f).sh.loops = s.sh.loops := rfl
@[simp] theorem State.regs_sh_request (s : State) (f : Regs → Regs) : (s.regs f).sh.request = s.sh.request := rfl
@[simp] theorem State.regs_sh_wait (s : State) (f : Regs → Regs) : (s.regs f).sh.wait = s.sh.wait := rfl
@[simp] theorem State.regs_sh_rest (s : State) (f : Regs → Regs) : (s.regs f).sh.rest = s.sh.rest := rfl
@[simp] theorem State.regs_sh_mid (s : State) (f : Regs → Regs) : (s.regs f).sh.mid = s.sh.mid := rfl
@[simp] theorem State.regs_sh_entering (s : State) (f : Regs → Regs) : (s.regs f).sh.entering = s.sh.entering := rfl
@[simp] theorem State.regs_sh_parked (s : State) (f : Regs → Regs) : (s.regs f).sh.parked = s.sh.parked := rfl
@[simp] theorem State.regs_sh_badPages (s : State) (f : Regs → Regs) : (s.regs f).sh.badPages = s.sh.badPages := rfl
@[simp] theorem State.regs_sh_dbgHalt (s : State) (f : Regs → Regs) : (s.regs f).sh.dbgHalt = s.sh.dbgHalt := rfl
@[simp] theorem State.regs_sh_saved (s : State) (f : Regs → Regs) : (s.regs f).sh.saved = s.sh.saved := rfl
@[simp] theorem State.regs_sh_coreHalt (s : State) (f : Regs → Regs) : (s.regs f).sh.coreHalt = s.sh.coreHalt := rfl
@[simp] theorem State.regs_sh_resumed (s : State) (f : Regs → Regs) : (s.regs f).sh.resumed = s.sh.resumed := rfl
@[simp] theorem State.regs_sh_seat (s : State) (f : Regs → Regs) : (s.regs f).sh.seat = s.sh.seat := rfl
@[simp] theorem State.regs_sh_starve (s : State) (f : Regs → Regs) : (s.regs f).sh.starve = s.sh.starve := rfl
@[simp] theorem State.regs_sh_yielded (s : State) (f : Regs → Regs) : (s.regs f).sh.yielded = s.sh.yielded := rfl
@[simp] theorem State.regs_sh_fromBin (s : State) (f : Regs → Regs) : (s.regs f).sh.fromBin = s.sh.fromBin := rfl
@[simp] theorem State.regs_sh_buf (s : State) (f : Regs → Regs) : (s.regs f).sh.buf = s.sh.buf := rfl
@[simp] theorem State.regs_sh_defer (s : State) (f : Regs → Regs) : (s.regs f).sh.defer = s.sh.defer := rfl
@[simp] theorem State.regs_sh_round (s : State) (f : Regs → Regs) : (s.regs f).sh.round = s.sh.round := rfl
@[simp] theorem State.regs_sh_retired (s : State) (f : Regs → Regs) : (s.regs f).sh.retired = s.sh.retired := rfl
@[simp] theorem State.regs_sh_nth (s : State) (f : Regs → Regs) : (s.regs f).sh.nth = s.sh.nth := rfl
@[simp] theorem State.regs_sh_bufBytes (s : State) (f : Regs → Regs) : (s.regs f).sh.bufBytes = s.sh.bufBytes := rfl
@[simp] theorem State.regs_sh_quantumDone (s : State) (f : Regs → Regs) : (s.regs f).sh.quantumDone = s.sh.quantumDone := rfl
@[simp] theorem State.regs_sh_regs (s : State) (f : Regs → Regs) : (s.regs f).sh.regs = f s.sh.regs := rfl
@[simp] theorem State.regs_sh_asked (s : State) (f : Regs → Regs) : (s.regs f).sh.asked = s.sh.asked := rfl
@[simp] theorem State.regs_sh_look (s : State) (f : Regs → Regs) : (s.regs f).sh.look = s.sh.look := rfl
@[simp] theorem State.regs_sh_far (s : State) (f : Regs → Regs) : (s.regs f).sh.far = s.sh.far := rfl
@[simp] theorem State.regs_sh_ready (s : State) (f : Regs → Regs) : (s.regs f).sh.ready = s.sh.ready := rfl
@[simp] theorem State.unhold_sh_uid (s : State) : s.unhold.sh.uid = s.sh.uid := rfl
@[simp] theorem State.unhold_sh_life (s : State) : s.unhold.sh.life = s.sh.life := rfl
@[simp] theorem State.unhold_sh_regs (s : State) : s.unhold.sh.regs = s.sh.regs := rfl
@[simp] theorem State.unhold_sh_snap (s : State) : s.unhold.sh.snap = s.sh.snap := rfl
@[simp] theorem State.unhold_sh_pc (s : State) : s.unhold.sh.pc = s.sh.pc := rfl
@[simp] theorem State.unhold_sh_next (s : State) : s.unhold.sh.next = s.sh.next := rfl
@[simp] theorem State.unhold_sh_latch (s : State) : s.unhold.sh.latch = s.sh.latch := rfl
@[simp] theorem State.unhold_sh_trapped (s : State) : s.unhold.sh.trapped = s.sh.trapped := rfl
@[simp] theorem State.unhold_sh_task (s : State) : s.unhold.sh.task = s.sh.task := rfl
@[simp] theorem State.unhold_sh_group (s : State) : s.unhold.sh.group = s.sh.group := rfl
@[simp] theorem State.unhold_sh_lsheaf (s : State) : s.unhold.sh.lsheaf = s.sh.lsheaf := rfl
@[simp] theorem State.unhold_sh_sheafNo (s : State) : s.unhold.sh.sheafNo = s.sh.sheafNo := rfl
@[simp] theorem State.unhold_sh_fpflags (s : State) : s.unhold.sh.fpflags = s.sh.fpflags := rfl
@[simp] theorem State.unhold_sh_trpc (s : State) : s.unhold.sh.trpc = s.sh.trpc := rfl
@[simp] theorem State.unhold_sh_trnext (s : State) : s.unhold.sh.trnext = s.sh.trnext := rfl
@[simp] theorem State.unhold_sh_trmask (s : State) : s.unhold.sh.trmask = s.sh.trmask := rfl
@[simp] theorem State.unhold_sh_trcause (s : State) : s.unhold.sh.trcause = s.sh.trcause := rfl
@[simp] theorem State.unhold_sh_traux (s : State) : s.unhold.sh.traux = s.sh.traux := rfl
@[simp] theorem State.unhold_sh_trbase (s : State) : s.unhold.sh.trbase = s.sh.trbase := rfl
@[simp] theorem State.unhold_sh_trem (s : State) : s.unhold.sh.trem = s.sh.trem := rfl
@[simp] theorem State.unhold_sh_tsc (s : State) : s.unhold.sh.tsc = s.sh.tsc := rfl
@[simp] theorem State.unhold_sh_rpLast (s : State) : s.unhold.sh.rpLast = s.sh.rpLast := rfl
@[simp] theorem State.unhold_sh_rpNext (s : State) : s.unhold.sh.rpNext = s.sh.rpNext := rfl
@[simp] theorem State.unhold_sh_rpResume (s : State) : s.unhold.sh.rpResume = s.sh.rpResume := rfl
@[simp] theorem State.unhold_sh_rpAt (s : State) : s.unhold.sh.rpAt = s.sh.rpAt := rfl
@[simp] theorem State.unhold_sh_rep (s : State) : s.unhold.sh.rep = s.sh.rep := rfl
@[simp] theorem State.unhold_sh_scope (s : State) : s.unhold.sh.scope = s.sh.scope := rfl
@[simp] theorem State.unhold_sh_baseScope (s : State) : s.unhold.sh.baseScope = s.sh.baseScope := rfl
@[simp] theorem State.unhold_sh_ver (s : State) : s.unhold.sh.ver = s.sh.ver := rfl
@[simp] theorem State.unhold_sh_budget (s : State) : s.unhold.sh.budget = s.sh.budget := rfl
@[simp] theorem State.unhold_sh_prio (s : State) : s.unhold.sh.prio = s.sh.prio := rfl
@[simp] theorem State.unhold_sh_quant (s : State) : s.unhold.sh.quant = s.sh.quant := rfl
@[simp] theorem State.unhold_sh_late (s : State) : s.unhold.sh.late = s.sh.late := rfl
@[simp] theorem State.unhold_sh_hnd (s : State) : s.unhold.sh.hnd = s.sh.hnd := rfl
@[simp] theorem State.unhold_sh_contF (s : State) : s.unhold.sh.contF = s.sh.contF := rfl
@[simp] theorem State.unhold_sh_contAt (s : State) : s.unhold.sh.contAt = s.sh.contAt := rfl
@[simp] theorem State.unhold_sh_hidW (s : State) : s.unhold.sh.hidW = s.sh.hidW := rfl
@[simp] theorem State.unhold_sh_hidMode (s : State) : s.unhold.sh.hidMode = s.sh.hidMode := rfl
@[simp] theorem State.unhold_sh_hidF (s : State) : s.unhold.sh.hidF = s.sh.hidF := rfl
@[simp] theorem State.unhold_sh_pend (s : State) : s.unhold.sh.pend = s.sh.pend := rfl
@[simp] theorem State.unhold_sh_windows (s : State) : s.unhold.sh.windows = s.sh.windows := rfl
@[simp] theorem State.unhold_sh_loads (s : State) : s.unhold.sh.loads = s.sh.loads := rfl
@[simp] theorem State.unhold_sh_replays (s : State) : s.unhold.sh.replays = s.sh.replays := rfl
@[simp] theorem State.unhold_sh_spawns (s : State) : s.unhold.sh.spawns = s.sh.spawns := rfl
@[simp] theorem State.unhold_sh_nextBatch (s : State) : s.unhold.sh.nextBatch = s.sh.nextBatch := rfl
@[simp] theorem State.unhold_sh_openCpys (s : State) : s.unhold.sh.openCpys = s.sh.openCpys := rfl
@[simp] theorem State.unhold_sh_openProg (s : State) : s.unhold.sh.openProg = s.sh.openProg := rfl
@[simp] theorem State.unhold_sh_openOut (s : State) : s.unhold.sh.openOut = s.sh.openOut := rfl
@[simp] theorem State.unhold_sh_batches (s : State) : s.unhold.sh.batches = s.sh.batches := rfl
@[simp] theorem State.unhold_sh_mcfg (s : State) : s.unhold.sh.mcfg = s.sh.mcfg := rfl
@[simp] theorem State.unhold_sh_latches (s : State) : s.unhold.sh.latches = s.sh.latches := rfl
@[simp] theorem State.unhold_sh_loops (s : State) : s.unhold.sh.loops = s.sh.loops := rfl
@[simp] theorem State.unhold_sh_request (s : State) : s.unhold.sh.request = s.sh.request := rfl
@[simp] theorem State.unhold_sh_rest (s : State) : s.unhold.sh.rest = s.sh.rest := rfl
@[simp] theorem State.unhold_sh_mid (s : State) : s.unhold.sh.mid = s.sh.mid := rfl
@[simp] theorem State.unhold_sh_entering (s : State) : s.unhold.sh.entering = s.sh.entering := rfl
@[simp] theorem State.unhold_sh_parked (s : State) : s.unhold.sh.parked = s.sh.parked := rfl
@[simp] theorem State.unhold_sh_badPages (s : State) : s.unhold.sh.badPages = s.sh.badPages := rfl
@[simp] theorem State.unhold_sh_dbgHalt (s : State) : s.unhold.sh.dbgHalt = s.sh.dbgHalt := rfl
@[simp] theorem State.unhold_sh_saved (s : State) : s.unhold.sh.saved = s.sh.saved := rfl
@[simp] theorem State.unhold_sh_coreHalt (s : State) : s.unhold.sh.coreHalt = s.sh.coreHalt := rfl
@[simp] theorem State.unhold_sh_resumed (s : State) : s.unhold.sh.resumed = s.sh.resumed := rfl
@[simp] theorem State.unhold_sh_seat (s : State) : s.unhold.sh.seat = s.sh.seat := rfl
@[simp] theorem State.unhold_sh_starve (s : State) : s.unhold.sh.starve = s.sh.starve := rfl
@[simp] theorem State.unhold_sh_yielded (s : State) : s.unhold.sh.yielded = s.sh.yielded := rfl
@[simp] theorem State.unhold_sh_fromBin (s : State) : s.unhold.sh.fromBin = s.sh.fromBin := rfl
@[simp] theorem State.unhold_sh_buf (s : State) : s.unhold.sh.buf = s.sh.buf := rfl
@[simp] theorem State.unhold_sh_defer (s : State) : s.unhold.sh.defer = s.sh.defer := rfl
@[simp] theorem State.unhold_sh_round (s : State) : s.unhold.sh.round = s.sh.round := rfl
@[simp] theorem State.unhold_sh_retired (s : State) : s.unhold.sh.retired = s.sh.retired := rfl
@[simp] theorem State.unhold_sh_nth (s : State) : s.unhold.sh.nth = s.sh.nth := rfl
@[simp] theorem State.unhold_sh_bufBytes (s : State) : s.unhold.sh.bufBytes = s.sh.bufBytes := rfl
@[simp] theorem State.unhold_sh_quantumDone (s : State) : s.unhold.sh.quantumDone = s.sh.quantumDone := rfl
@[simp] theorem State.unhold_sh_wait (s : State) : s.unhold.sh.wait = none := rfl
@[simp] theorem State.unhold_sh_asked (s : State) : s.unhold.sh.asked = s.sh.asked := rfl
@[simp] theorem State.unhold_sh_look (s : State) : s.unhold.sh.look = s.sh.look := rfl
@[simp] theorem State.unhold_sh_far (s : State) : s.unhold.sh.far = s.sh.far := rfl
@[simp] theorem State.unhold_sh_ready (s : State) : s.unhold.sh.ready = s.sh.ready := rfl

end Sys2Proof.Machine
end

