-- ==== Sys2Proof/Laws/Issue.lean ====
section
/-!
SUPPORT. What the shared operations of issue can do: a word that issues has its effect, one that fails a check traps, a wait ends or
holds, a trap enters the handler, and a lane-wise result writes and pushes.
-/

namespace Sys2Proof.Machine

open Sys2Proof

/-! ### Issue (R51, R53, R58) -/

theorem State.unhold_of_wait {s : State} (h : s.sh.wait = none) : s.unhold = s := by
  obtain ⟨sh, rest⟩ := s
  obtain ⟨_⟩ := sh
  simp_all [State.unhold]

theorem State.issues_wait {s : State} {i : Instr} (h : s.issues i = true) : s.sh.wait = none := by
  simp only [State.issues, Bool.and_eq_true, Option.isNone_iff_eq_none] at h
  exact h.1.1

/-- A word alone in its group that issues has passed every check of R51. -/
theorem State.issues_check {s : State} {i : Instr} (h : s.issues i = true) (hs : s.sh.snap = none) : s.firstCheck i = none := by
  simp only [State.issues, Bool.and_eq_true, hs, Option.isSome_none, Bool.false_or, Option.isNone_iff_eq_none] at h
  exact h.1.2

/-- Its operand codes are legal (R35, R36). -/
theorem State.issues_legal {s : State} {i : Instr} (h : s.issues i = true) (hs : s.sh.snap = none) :
    (s.sh.use i).legal = true := by
  have := s.issues_check h hs
  unfold State.firstCheck at this
  cases hl : (s.sh.use i).legal with
  | true => rfl
  | false => simp [hl] at this

/-- A word that issues has its effect. -/
theorem State.issueWait_of_issues {s : State} {i : Instr} (h : s.issues i = true) (f : State → State) :
    s.issueWait i f = .next (f s) := by
  have hw := s.issues_wait h
  simp only [State.issues, Bool.and_eq_true, Bool.or_eq_true, Option.isNone_iff_eq_none] at h
  obtain ⟨⟨-, hc⟩, hq⟩ := h
  have hchk : (if (s.sh.snap.isSome || s.sh.wait.isSome) = true then none else s.firstCheck i) = none := by
    rcases hc with hc | hc
    · simp [hc]
    · simp [hc]
  simp only [State.issueWait, hchk]
  cases hu : (s.sh.use i).queue with
  | none => simp
  | some q =>
    have : s.sh.full q = false := by simpa [hu] using hq
    simp [this]

/-- A word that issues and does not wait has its effect. -/
theorem State.issue_of_issues {s : State} {i : Instr} (h : s.issues i = true) (f : State → State) :
    s.issue i f = .next (f s) := by
  rw [State.issue, State.issueWait_of_issues h, State.unhold_of_wait (s.issues_wait h)]

/-- A word that fails a check traps and has no effect. -/
theorem State.issueWait_traps {s : State} {i : Instr} {c : Cause} (hw : s.sh.wait = none) (hs : s.sh.snap = none)
    (h : s.firstCheck i = some c) (f : State → State) : s.issueWait i f = .next (s.trapWord i c none) := by
  simp [State.issueWait, hw, hs, h]

theorem State.issue_traps {s : State} {i : Instr} {c : Cause} (hw : s.sh.wait = none) (hs : s.sh.snap = none)
    (h : s.firstCheck i = some c) (f : State → State) : s.issue i f = .next (s.trapWord i c none) :=
  State.issueWait_traps hw hs h _

/-- A wait outside repeatable mode ends when its condition holds, and holds the sheaf otherwise (R53). -/
theorem State.waitFor_plain {s : State} (h : s.repeatable = false) (i : Instr) (k : Option Nat) (ready : Bool)
    (fin : State → State) : s.waitFor i k ready fin = if ready = true then fin s.unhold else s.stall i k := by
  simp only [State.waitFor, h, Bool.false_and, Bool.false_eq_true, if_false, State.hold, Bool.or_false]

/-- In repeatable mode a wait first ends the quantum (R469). -/
theorem State.waitFor_quantum {s : State} (h : s.repeatable = true) (hw : s.sh.wait = none) (i : Instr) (k : Option Nat)
    (ready : Bool) (fin : State → State) : s.waitFor i k ready fin = s.hold i k := by
  simp [State.waitFor, h, hw]

/-! ### Traps (R441, R442) -/

/-- With nothing in flight there is nothing to drain. -/
theorem State.settle_idle {s : State} (hl : s.sh.loads = []) (ho : s.sh.loops = []) : s.settle = s := by
  simp [State.settle, hl, ho]

theorem Sheaf.leaveRep_none {h : Sheaf} (hr : h.rep = none) (k : PendKind) : h.leaveRep k = h := by
  simp [Sheaf.leaveRep, hr]

/-- With nothing in flight, nothing to issue anew and no REP, a trap is entered at once. -/
theorem State.takeTrap_idle {s : State} (hl : s.sh.loads = []) (ho : s.sh.loops = []) (hp : s.sh.replays = [])
    (hr : s.sh.rep = none) (p : PendTrap) (a b : BitVec 32) : s.takeTrap p a b = s.enterHandler p a b := by
  have h : s.upd (·.leaveRep p.kind) = s := by simp [State.upd, Sheaf.leaveRep_none hr]
  simp [State.takeTrap, h, State.settle_idle hl ho, hl, ho, hp]

theorem State.deliverPend_none {s : State} (h : s.sh.pend = []) : s.deliverPend = s := by
  simp [State.deliverPend, Sheaf.nextPend, h]

/-- A trap is entered at a valid handler (R442): the saved registers, the hidden state, the mask and the mode, and the sheaf goes on
at the handler's address. -/
theorem State.enterHandler_valid {s : State} {p : PendTrap} {a b : BitVec 32} (hh : s.sh.hnd = false)
    (hd : (p.cause = .bkpt && (s.context s.tag).any Context.debugger) = false) (hv : s.sh.trbase.getLsbD 63 = true)
    (hl : s.legalTarget s.sh (s.sh.trbase.extractLsb' 0 32).toNat = true) :
    s.enterHandler p a b = { s with sh := { s.sh with
      trpc := a, trnext := b, trmask := if p.emMask then s.sh.regs.em else p.mask, trcause := p.cause.code, traux := p.aux, trem := s.sh.regs.em
      hidW := s.sh.regs.w, hidMode := s.sh.regs.mode.extractLsb' 8 5, hidF := s.sh.contF, contF := false
      regs := { s.sh.regs with mode := s.sh.regs.mode &&& ~~~(0x1F00#64), em := BitVec.allOnes 64 }
      windows := [], pend := s.sh.pend.map fun q => { q with held := true }, hnd := true
      pc := s.sh.trbase.extractLsb' 0 32, next := s.sh.trbase.extractLsb' 0 32, wait := none, asked := none, rest := [], mid := false
      snap := none } } := by
  simp only [State.enterHandler, hh, hd, Bool.false_and, Bool.false_eq_true, if_false, hv, hl, Bool.not_true, Bool.or_self]

/-! ### Lane-wise results (R237, R238) -/

/-- A result in every lane: the destination's active lanes, one push, and nothing else of the state. -/
theorem State.vecLanes_lane (s : State) (d : VCode) (f : Nat → Word) {c i : Nat} (hc : c < 104) (hi : i < 64) :
    laneOf ((s.vecLanes d f).sh.regs.file c) i =
      if c = d.toNat ∧ s.sh.em.getLsbD i = true then f i else laneOf (s.sh.regs.file c) i := by
  simp only [State.vecLanes, State.regs_sh_regs]
  rw [Regs.result_lane _ _ _ _ hc hi, laneOf_rowOf _ hi]

theorem State.vecLanes_push (s : State) (d : VCode) (f : Nat → Word) :
    (∀ i, i < 64 → laneOf ((s.vecLanes d f).sh.regs.file 104) i = if s.sh.em.getLsbD i = true then f i else 0) ∧
      (s.vecLanes d f).sh.regs.file 105 = s.sh.regs.file 104 ∧ (s.vecLanes d f).sh.regs.file 106 = s.sh.regs.file 105 ∧
      (s.vecLanes d f).sh.regs.file 107 = s.sh.regs.file 106 := by
  obtain ⟨h1, h2⟩ := Regs.result_push s.sh.regs s.sh.em d (rowOf f)
  exact ⟨fun i hi => by
    have := h1 i hi
    rw [laneOf_rowOf _ hi] at this
    exact this, h2⟩

theorem State.vecLanes_scalars (s : State) (d : VCode) (f : Nat → Word) :
    (s.vecLanes d f).sh.regs.s = s.sh.regs.s ∧ (s.vecLanes d f).sh.regs.k = s.sh.regs.k ∧
      (s.vecLanes d f).sh.regs.em = s.sh.regs.em ∧ (s.vecLanes d f).sh.regs.mode = s.sh.regs.mode :=
  Regs.result_scalars _ _ _ _

theorem State.vecLanes_frame (s : State) (d : VCode) (f : Nat → Word) :
    ({ s.vecLanes d f with sh := { (s.vecLanes d f).sh with regs := s.sh.regs } } : State) = s := rfl

/-! ### Memory of a state keeps its form -/

theorem State.putBytes_memOk {s : State} (h : s.memOk) (tag : BitVec 12) (k : Nat) (bs : List Byte) :
    (s.putBytes tag k bs).memOk :=
  ⟨putBytes_mem_wf s tag k bs h.1, putBytes_lines_wf s tag k bs h.2⟩

/-- A range that is dropped or cleared leaves the forms of memory and metadata (R65, R85). -/
theorem State.clearRange_memOk {s : State} (h : s.memOk) (tag : BitVec 12) (k len : Nat) : (s.clearRange tag k len).memOk :=
  ⟨clearRange_mem_wf s tag k len h.1, clearRange_lines_wf s tag k len h.2⟩

/-- Logging an error changes the dies alone (R89). -/
theorem State.logAt_frame (s : State) (die : Option Nat) (what : String) (addr syn : Nat) :
    ({ s.logAt die what addr syn with dies := s.dies } : State) = s := by
  unfold State.logAt State.onDie
  split
  · split <;> rfl
  · rfl

/-- Correcting errors changes the dies' logs and the lines known to be weak alone (R88, R89). -/
theorem State.correct_frame (s : State) (ks : List Nat) :
    ({ s.correct ks with weak := s.weak, dies := s.dies } : State) = s := by
  have fold : ∀ (ws : List (Nat × Nat)) (t : State), ({ t with weak := s.weak, dies := s.dies } : State) = s →
      ({ ws.foldl (fun t w => t.logAt (keyDie w.1) (keyArray w.1 ++ ": corrected error") w.1 w.2) t with
        weak := s.weak, dies := s.dies } : State) = s := by
    intro ws
    induction ws with
    | nil => exact fun _ h => h
    | cons w r ih =>
      intro t h
      refine ih _ ?_
      have := congrArg (fun x => ({ x with weak := s.weak, dies := s.dies } : State))
        (t.logAt_frame (keyDie w.1) (keyArray w.1 ++ ": corrected error") w.1 w.2)
      exact this.trans h
  unfold State.correct
  split
  · rfl
  · exact fold _ _ rfl

/-- With no error that codes correct, none is corrected (R89). -/
theorem State.correct_none {s : State} (h : s.weak = []) (ks : List Nat) : s.correct ks = s := by
  simp [State.correct, h]

theorem State.logAt_memOk {s : State} (h : s.memOk) (die : Option Nat) (what : String) (addr syn : Nat) :
    (s.logAt die what addr syn).memOk := by
  have f := s.logAt_frame die what addr syn
  exact ⟨(congrArg State.mem f).symm ▸ h.1, (congrArg State.lines f).symm ▸ h.2⟩

theorem State.correct_memOk {s : State} (h : s.memOk) (ks : List Nat) : (s.correct ks).memOk := by
  have f := s.correct_frame ks
  exact ⟨(congrArg State.mem f).symm ▸ h.1, (congrArg State.lines f).symm ▸ h.2⟩

/-- Meeting a line keeps the forms of memory and metadata: it corrects, ends, replaces or clears (R89, R90). -/
theorem State.meetLine_memOk {s : State} (h : s.memOk) (k : Nat) (whole : Bool) : (s.meetLine k whole).1.memOk := by
  have g := State.correct_memOk h [k]
  unfold State.meetLine
  simp only
  split
  · exact g
  · split
    · exact g
    · split
      · exact g
      · exact State.logAt_memOk (State.clearRange_memOk g _ _ _) _ _ _ _

/-- A write that no instruction makes keeps the forms of memory and metadata (R86, R90). -/
theorem State.putFor_memOk {s : State} (h : s.memOk) (tag : BitVec 12) (k : Nat) (bs : List Byte) : (s.putFor tag k bs).memOk := by
  have g := State.meetLine_memOk h k (bs.length = 64 && k % 64 = 0)
  unfold State.putFor
  split <;> rename_i e <;> rw [e] at g
  · exact State.putBytes_memOk g _ _ _
  · exact g

theorem State.putVA_memOk {s : State} (h : s.memOk) (tag : BitVec 12) (va : Nat) (bs : List Byte) : (s.putVA tag va bs).memOk := by
  have g : (s.correctWalk tag va).memOk := by
    unfold State.correctWalk
    split
    · exact h
    · exact State.correct_memOk h _
  unfold State.putVA
  split
  · exact h
  · simp only
    split
    · split
      · exact State.putFor_memOk g _ _ _
      · exact g
    · exact g

/-- Where no line is in error a write that no instruction makes is made (R89, R90). -/
theorem State.meetLine_plain {s : State} (hw : s.weak = []) (hb : s.badLines = []) (k : Nat) (whole : Bool) :
    s.meetLine k whole = (s, true) := by
  simp [State.meetLine, State.correct_none hw, State.lineBad, hb]

theorem State.putFor_plain {s : State} (hw : s.weak = []) (hb : s.badLines = []) (tag : BitVec 12) (k : Nat) (bs : List Byte) :
    s.putFor tag k bs = s.putBytes tag k bs := by
  simp [State.putFor, State.meetLine_plain hw hb]

/-- Taking back what lanes left in host or peer memory keeps the forms of memory and metadata (R120). -/
theorem State.undoFar_memOk {s : State} (h : s.memOk) (ls : List (Nat × Nat × List Byte × List Byte)) : (s.undoFar ls).memOk := by
  unfold State.undoFar
  induction ls.reverse generalizing s with
  | nil => exact h
  | cons l r ih =>
    refine ih ?_
    dsimp only
    split
    · exact ⟨writeBytes_wf _ _ h.1, h.2⟩
    · exact h

/-! ### Waits (R53, R469) -/

/-- Outside repeatable mode a wait whose condition holds ends with its word. -/
theorem State.waitFor_ready {s : State} (h : s.repeatable = false) (i : Instr) (token : Option Nat) (fin : State → State) :
    s.waitFor i token true fin = fin s.unhold := by
  simp [State.waitFor, h]

/-- A wait whose condition fails holds its sheaf at the word. -/
theorem State.waitFor_holds {s : State} (i : Instr) (token : Option Nat) (fin : State → State) :
    s.waitFor i token false fin = s.hold i token := by
  simp only [State.waitFor, Bool.false_eq_true, if_false, ite_self]

end Sys2Proof.Machine
end

