-- ==== Sys2Proof/Laws/Access.lean ====
section
/-!
SUPPORT. What the parts of a memory access do when nothing counts, parks, errs or buffers: they are the bare reads and writes
(R79, R83, R90, R135, R140, R143).
-/

namespace Sys2Proof.Machine

open Sys2Proof

/-- With no page counted and none reached through a peer address, counting leaves the state. -/
theorem State.countPages_none (s : State) {qs : List Site} (h : ∀ q ∈ qs, ∀ m, q.map = some m → m.ce = false)
    (hb : ∀ q ∈ qs, q.back = none) : s.countPages qs = s := by
  have : (qs.filterMap fun q => q.map.bind fun m => if m.ce then some (m, lineOf q.key) else none) = [] := by
    rw [List.filterMap_eq_nil_iff]
    intro q hq
    cases hm : q.map with
    | none => rfl
    | some m => simp [h q hq m hm]
  have none : qs.filterMap Site.back = [] := List.filterMap_eq_nil_iff.mpr hb
  simp only [State.countPages, this, none]
  rfl

theorem State.firstBad_none {s : State} (h : s.badLines = []) (ws : List Nat) (qs : List Site) : s.firstBad ws qs = none := by
  simp [State.firstBad, h]

theorem State.readWaits_none {s : State} (h : s.parking = []) (qs : List Site) : s.readWaits qs = false := by
  simp [State.readWaits, h]

theorem State.parkedMine_none {s : State} (h : s.parking = []) : s.parkedMine = false := by simp [State.parkedMine, h]

theorem State.orderHolds_none {s : State} (h : s.parking = []) : s.orderHolds = false := by simp [State.orderHolds, h]

theorem State.overtakes_none {s : State} (h : s.parking = []) (qs : List Site) : s.overtakes qs = false := by
  simp [State.overtakes, h]

/-- A page that the core's cache holds is not looked for further (R72). -/
theorem State.lookUp_hit {s : State} {p : Nat × Nat} (h : s.cached s.core s.tag p.1 = true) (n : Nat) : s.lookUp p n = s := by
  simp [State.lookUp, h]

/-- Pieces of scratchpad and of far memory name no page (R72). -/
theorem State.lookUpAll_none (s : State) {qs : List Site} (h : ∀ q ∈ qs, q.map = none) : s.lookUpAll qs = s := by
  have : qs.filterMap Site.map = [] := List.filterMap_eq_nil_iff.mpr h
  simp [State.lookUpAll, this]

/-- With no counter on them, misses of the dies' buffers are not counted (R17, R491). -/
theorem State.countBuffer_none {s : State} (h : s.counts .bufferMisses = false) (qs : List Site) : s.countBuffer qs = s := by
  simp [State.countBuffer, h]

/-- With no counter on them, the banks' cycles are not counted (R184, R491). -/
theorem State.countBanks_none {s : State} (h : s.counts .bankExcess = false) (qs : List Site) : s.countBanks qs = s := by
  simp [State.countBanks, h]

/-- An event that no counter of the function selects is not counted (R491). -/
theorem State.countMine_none {s : State} {e : Counted} (h : s.counts e = false) (n : Nat) : s.countMine e n = s := by
  unfold State.countMine State.count
  split
  · rfl
  · dsimp only
    split
    · rfl
    · rename_i v hv
      have off (k : Nat) : (((v.psel[k]?).getD 0).extractLsb' 0 8).toNat ≠ e.code := by
        intro hk
        simp only [State.counts, hv, Option.any_some, List.any_eq_false, decide_eq_true_eq] at h
        cases hx : v.psel[k]? with
        | none => rw [hx] at hk; cases e <;> simp [Counted.code] at hk
        | some x => rw [hx] at hk; exact h x (Vector.mem_toList_iff.mpr (Vector.mem_of_getElem? hx)) hk
      exact List.foldlRecOn (List.range 16) _ (motive := fun t => t = s) rfl fun t ht k _ => by rw [if_pos (off k), ht]

/-- A look-up that no counter counts changes the caches alone (R72, R491). -/
theorem State.lookUp_frame {s : State} (ht : s.counts .tlbMisses = false) (hk : s.counts .walks = false) (p : Nat × Nat) (n : Nat) :
    s.lookUp p n = { s with tlb := (s.lookUp p n).tlb } := by
  unfold State.lookUp
  simp only [State.countMine_none ht, State.countMine_none hk]
  split
  · rfl
  · split <;> rfl

theorem State.lookUpAll_frame {s : State} (ht : s.counts .tlbMisses = false) (hk : s.counts .walks = false) (qs : List Site) :
    s.lookUpAll qs = { s with tlb := (s.lookUpAll qs).tlb } := by
  unfold State.lookUpAll
  generalize ((qs.filterMap Site.map).map fun m => (m.page, m.size)).dedup.zipIdx = ps
  induction ps generalizing s with
  | nil => rfl
  | cons p r ih =>
    rw [List.foldl_cons, State.lookUp_frame ht hk]
    exact ih (s := { s with tlb := (s.lookUp p.1 p.2).tlb }) ht hk

/-- An access that nothing counts and no error meets changes the translation caches beside its effect (R72, R79, R80, R89). -/
theorem State.touch_none {s : State} {qs : List Site} (hw : s.weak = []) (hc : ∀ q ∈ qs, ∀ m, q.map = some m → m.ce = false)
    (hb : ∀ q ∈ qs, q.back = none) (ht : s.counts .tlbMisses = false) (hk : s.counts .walks = false)
    (hm : s.counts .bufferMisses = false) (hx : s.counts .bankExcess = false) :
    s.touch qs = { s with tlb := (s.lookUpAll qs).tlb } := by
  have e := State.lookUpAll_frame ht hk qs
  have hm' : (s.lookUpAll qs).counts .bufferMisses = false := by rw [e]; exact hm
  have hx' : (s.lookUpAll qs).counts .bankExcess = false := by rw [e]; exact hx
  rw [State.touch, State.correct_none hw, State.countPages_none s hc hb, State.countBuffer_none hm', State.countBanks_none hx']
  exact e

/-- Bytes that land where no line is in error are written (R86, R90). -/
theorem State.land_plain {s : State} (hw : s.weak = []) (hb : s.badLines = []) (tag : BitVec 12) (k : Nat) (bs : List Byte)
    (whole : Bool) : s.land tag k bs whole = s.putBytes tag k bs := by
  have h : (if whole = true then s.badLines.filter (· ≠ lineOf k) else s.badLines) = s.badLines := by
    rw [hb]
    cases whole <;> rfl
  have g : ({ s with badLines := if whole = true then s.badLines.filter (· ≠ lineOf k) else s.badLines } : State) = s :=
    congrArg (fun x => ({ s with badLines := x } : State)) h
  have n : s.lineBad k = false := by simp [State.lineBad, hb]
  simp only [State.land, State.correct_none hw, n, Bool.false_and, Bool.false_eq_true, if_false]
  rw [g]

/-- A sheaf with nothing buffered sees memory itself. -/
theorem State.see_plain {s : State} (h : s.sh.buf = []) (k n : Nat) : s.see k n = readBytes s.mem k n := by
  simp [State.see, h]

theorem State.seeDesc_plain {s : State} (h : s.sh.buf = []) (k : Nat) : s.seeDesc k = lineDesc s.lines k := by
  simp [State.seeDesc, h]

/-- A write is not traced unless the launch asks for it. -/
theorem State.traceMine_none {s : State} (h : s.lrec.flags.getLsbD 3 = false) (old : List Host.Cell) (va k : Nat) (bs : List Byte) :
    s.traceMine old va k bs = s := by
  unfold State.traceMine
  rw [if_neg (by simp only [h]; decide)]

/-- A piece outside a migrating page, host and peer memory and a repeatable quantum is written at once. -/
theorem State.writeSite_plain {s : State} (h : s.lrec.flags.getLsbD 3 = false) (hw : s.weak = []) (hb : s.badLines = [])
    {q : Site} (hp : s.parksAt q = none) (hf : isForeign q.key = false) (holds : Bool) (whole : List Nat) (x : Issuer)
    (bs : List Byte) : s.writeSite false holds whole x q bs = s.putBytes s.tag q.key bs := by
  simp only [State.writeSite, Bool.false_eq_true, if_false, hp, State.landSite, hf, State.land_plain hw hb]
  split
  · exact State.traceMine_none (s := s.putBytes s.tag q.key bs) h _ _ _ _
  · rfl

/-- A buffered piece is added to the sheaf's buffer and leaves memory (R135). -/
theorem State.writeSite_buffered (s : State) (holds : Bool) (whole : List Nat) (x : Issuer) (q : Site) (bs : List Byte) :
    s.writeSite true holds whole x q bs = s.upd fun h => { h with buf := h.buf ++
      [.bytes (q.map.map fun _ => q.va) q.key bs (whole.contains (lineOf q.key)) x] } := rfl

/-- A descriptor outside a migrating page and a repeatable quantum is written at once (R127). -/
theorem State.writeDesc_plain {s : State} (hb : s.badLines = []) {q : Site} (hp : s.parksAt q = none) (holds : Bool) (x : Issuer)
    (v : BitVec 16) : s.writeDesc false holds x q v = s.putDesc s.tag q.key v := by
  simp [State.writeDesc, hp, State.landDesc, State.lineBad, hb]

/-- Where the sheaf's page is not migrating and no peer address leads back here, a piece parks nowhere (R83). -/
theorem State.parksAt_none {s : State} {q : Site} (hq : ∀ m, q.map = some m → m.wb = false) (hb : q.back = none) :
    s.parksAt q = none := by
  unfold State.parksAt
  cases hm : q.map with
  | none => simp [hb]
  | some m => simp [Option.filter, hq m hm, hb]

/-- The window of a word: open only under VER 01 with a count and a register, and nothing else changes (R55). -/
theorem State.openWindow_eq (s : State) (la : BitVec 4) (rs : List Nat) (acc : Option (Nat × Nat)) :
    s.openWindow la rs acc = s.upd fun h => { h with windows :=
      h.windows ++ if h.latch.native && la ≠ 0 && rs ≠ [] then
        [{ rem := la.toNat, regs := rs, pc := h.latch.addr, acc := acc }] else [] } := by
  unfold State.openWindow State.upd
  split
  · next h => simp only [h, if_true]
  · next h =>
    simp only [h, Bool.false_eq_true, if_false, List.append_nil]

/-- A load with an active lane is pending; one without leaves the state (R204). -/
theorem State.pendLoad_some {s : State} {l : PendLoad} (h : l.em ≠ 0) :
    s.pendLoad l = s.upd fun x => { x with loads := x.loads ++ [l] } := by
  unfold State.pendLoad
  rw [if_neg h]
  rfl

theorem State.pendLoad_none {s : State} {l : PendLoad} (h : l.em = 0) : s.pendLoad l = s := by
  unfold State.pendLoad
  rw [if_pos h]

/-- An atomic at its home port answers the old number and writes the new one (R132). -/
theorem State.atomAt_eq (s : State) (tag : BitVec 12) (k : Nat) (op : BitVec 4) (d : BitVec 128) :
    s.atomAt tag k op d = (readLE s.mem k (atomBytes op),
      s.putBytes tag k (leBytes (atomBytes op) (atomNew op (readLE s.mem k (atomBytes op)) d))) := rfl

end Sys2Proof.Machine
end

