-- ==== Sys2Proof/Tests/Slice0.lean ====
section
/-!
SUPPORT. Tests: ill-formed terms, decoding of words the spec prints, results its rules work out, and for every statement states and
operands that meet its hypotheses (theorems named hyp_…).
-/

namespace Sys2Proof.Tests

set_option Elab.async false

open Sys2Proof Sys2Proof.Machine Sys2Proof.Rules

/-! ### WellFormed refuses -/

theorem test_load_width : (Instr.lds 0 7 4 4 none).wellFormed = false := by decide +kernel
theorem test_store_width : (Instr.stg 0 3 4 4 none).wellFormed = false := by decide +kernel
theorem test_step_load_width : (Instr.ldcStep 0 7 4 4 0 0).wellFormed = false := by decide +kernel
theorem test_event : Instr.d3hotEntry.wellFormed = false := by decide +kernel
theorem test_word : (Instr.iadd 1 2 3).wellFormed = true ∧ (Instr.stg 0 4 4 4 none).wellFormed = true := by decide +kernel

/-! ### Words of the spec decode to the instructions it prints beside them -/

/-- Words with the instructions they decode to. -/
def read (ws : List (Nat × Instr)) : Bool := ws.all fun p => decodeTableWord 32 p.1 = some p.2

/-- Words of vector and lane instructions, and their operands as the spec lists them (R96 of 02, 09, 11, 24, 25). -/
theorem test_decode_vector : read [(0x4002858C, .iadd 10 11 12), (0x4481C286, .fadd 7 5 6), (0x44804086, .fadd 1 1 6),
    (0x430136 * 256 + 0x82, .shli 4 109 2), (0x4665_0206, .dfma 20 4 6), (0x4700_C082, .hadd2 3 1 2), (0x4D86_0100, .vli 6 256),
    (0x4940_C0EC, .rfrom 3 1), (0x4880_C098, .cvt 3 1 3 0)] = true := by decide +kernel
theorem test_decode_lanes : read [(0x4B40_C082, .shflr 3 1 2), (0x4BC1_0082, .shflrf 4 1 2), (0x4C21_4088, .scanlog 5 1 false 8),
    (0x4C01_8088, .redlog 6 1 8), (0x4C02_8480, .redlog 10 9 0)] = true := by decide +kernel
/-- Scalar words and transfers (23, 24). -/
theorem test_decode_scalar : read [(0x520A_4802, .sshli 5 9 2), (0x5000_5141, .sadd 5 5 1), (0x5192_4801, .saddi 9 9 1),
    (0x5216_4E01, .sandi 11 9 1), (0x520C_323F, .sshri 6 6 63), (0x5092_2710, .sli 9 10000), (0x5283_0C00, .srd 3 3)] = true := by decide +kernel
theorem test_decode_transfers : read [(0x5596_0002, .bz 11 2), (0x5517_FFF7, .bnz 11 (-9)), (0x5400_0004, .bra 4), (0x5693_FFFD, .loop 9 (-3)),
    (0x5780_0000, .nop), (0x5782_0000, .ret), (0x5784_0000, .exit), (0x5788_0000, .rett), (0x5792_0000, .yield),
    (0x578C_A000, .sleep 20), (0x5796_0005, .safept 5), (0x5798_0001, .xfer 1), (0x579A_3800, .xferq 7), (0x579C_0000, .halt),
    (0x5794_0302, .mode false 3 2), (0x5795_0101, .mode true 1 1)] = true := by decide +kernel
/-- Memory, copy, ring and matrix words (05, 06, 10, 24). -/
theorem test_decode_memory : read [(0x5A06_0E04, .stg 0 4 14 2 none), (0x5902_0928, .lds 0 4 9 20 none), (0x5906_0508, .sts 0 4 5 4 none),
    (0x5A02_06EA, .ldg 0 4 6 117 none), (0x5A06_78EE, .stg 0 4 120 119 none), (0x5B80_0114, .cpy 0 0 0 2 20), (0x5C25_2800, .cpybRing 10 20 0),
    (0x5C85_1504, .rinit 20 21 4), (0x5C95_0C01, .rwait 20 12 1), (0x578E_5000, .sleepb 10 false), (0x5D02_0A2A, .mloop 0 32 40 42)]
    = true := by decide +kernel
theorem test_decode_ext : decodeTableWord 64 (0x7A1A0404 + 0x7F802000 * 2 ^ 32) =
      some (.ldg 3 4 4 2 (some { ofs := 64, ord := 0, scope := 0, hint := 0 })) ∧
    decodeTableWord 64 (0x7A138504 + 0x5FE40000 * 2 ^ 32) =
      some (.atg 2 5 2 { op := 12, ret := true, ra := false, ord := 0, scope := 0, ofs := 0 }) ∧
    decodeTableWord 64 (0x68A0C098 + 0x5FA00000 * 2 ^ 32) = some (.cvtx 3 1 3 0 1) := by decide +kernel
/-- Barriers, tasks, scopes and fences (14, 16, 23, 24). -/
theorem test_decode_tasks : read [(0x5E00_0628, .barinit 3 5), (0x5E0C_0600, .barsyn 3 0), (0x5E14_0030, .barst 0 6),
    (0x5E80_8282, .spawn 4 10 2), (0x5E88_0180, .depdec 6), (0x5E92_8455, .signal 20 0 4 1 21), (0x5EA0_A000, .csopen 5),
    (0x5EA8_0000, .csclose), (0x5EB0_A000, .cancel 5), (0x5EB8_A006, .cwait 5 6), (0x5E18_0005, .fence 0 5)] = true := by decide +kernel

/-! ### States -/

/-- A sheaf about to run a NOP, on core 0, with a task and a context of its own. -/
def b : State := State.reset.withFetchWord 32 0x57800000

/-- Give a v register one value in every lane. -/
def setV (s : State) (c : Nat) (x : Word) : State := s.regs fun r => r.put c (rowOf fun _ => x)
/-- Give a v register a value by lane. -/
def setRow (s : State) (c : Nat) (f : Nat → Word) : State := s.regs fun r => r.put c (rowOf f)
/-- Give a scalar register a value. -/
def setS (s : State) (c : SCode) (x : DWord) : State := s.regs fun r => r.setS c x
/-- Change the sheaf. -/
def up (f : Sheaf → Sheaf) : State := b.upd f

/-- What an outcome leaves in lane i of a register. -/
def gives (o : Out) (c i : Nat) (x : Word) : Bool := match o with | .next t => laneOf (t.sh.regs.file c) i = x | _ => false
/-- What an outcome leaves in a scalar register. -/
def givesS (o : Out) (c : SCode) (x : DWord) : Bool := match o with | .next t => t.sh.regs.getS c = x | _ => false
/-- A property of the state an outcome answers. -/
def holds (o : Out) (f : State → Bool) : Bool := match o with | .next t => f t | _ => false

/-! ### Results the spec works out -/

theorem test_iadds : gives (exec (.iadds 6 4 5) (setV (setV b 4 0x7FFFFFF0) 5 0x20)) 6 63 0x7FFFFFFF = true := by decide +kernel
theorem test_hadd2 : gives (exec (.hadd2 3 1 2) (setV (setV b 1 0x3C003C00) 2 0x40007BFF)) 3 0 0x42007BFF = true := by decide +kernel
theorem test_cvt : gives (exec (.cvt 3 1 3 0) (setV b 1 0x40200000)) 3 7 2 = true := by decide +kernel
theorem test_cvtx_rtz : gives (exec (.cvtx 3 1 3 0 1) (setV b 1 0xC02CCCCD)) 3 7 0xFFFFFFFE = true := by decide +kernel
theorem test_pk2 : gives (exec (.pk2 5 3 4) (setV (setV b 3 0x3C00) 4 0x4000)) 5 0 0x40003C00 = true := by decide +kernel
theorem test_rfrom : gives (exec (.rfrom 3 1) (setV b 1 0xFFFB6C20)) 3 0 0x145082FA = true := by decide +kernel
theorem test_rscl : gives (exec (.rscl 4 3 2) (setV (setV b 3 0x145082FA) 2 2)) 4 0 0x28A101F5 = true := by decide +kernel
theorem test_rfix : gives (exec (.rfix 5 4) (setV b 4 0x28A101F5)) 5 0 0xFFF6D840 = true := by decide +kernel
theorem test_refrom : gives (exec (.refrom 6 1) (setV b 1 0xFFFF0005)) 6 0 0x83FE14A5 = true := by decide +kernel
/-- A step runs the word it fetches: the XFER of a launch without the flag traps RANGE and, with no handler, ends the context. -/
theorem test_step_nop : holds (step b) (fun t => t.sh.pc = 1) = true := by decide +kernel
theorem test_step_vli : holds (step (State.reset.withFetchWord 32 0x4D81002A)) (fun t => laneOf (t.sh.regs.file 1) 63 = 42) = true := by decide +kernel
theorem test_step_exit : holds (step (State.reset.withFetchWord 32 0x57840000)) (fun t => t.sh.life = .exited) = true := by decide +kernel
theorem test_step_xfer : holds (step (State.reset.withFetchWord 32 0x57980001)) (fun t => (t.context 1).all Context.ended) = true := by decide +kernel

/-! ### Hypotheses that something meets: registers and lanes -/

/-- Every word of a table issues. -/
def allIssue {α : Type} (s : State) (ws : List (Instr × α)) : Bool := ws.all fun p => s.issues p.1

theorem hyp_VectorWordsWriteTheirTableResult :
    (allIssue b (intWords 10 11 12) && allIssue b (intWords 108 111 127) && allIssue b (immWords 10 11 31) &&
      allIssue b (laneWords b 10 11 12 5 0xFFFF) && b.issues (.bfi 10 11 12) && b.issues (.dneg 10 12) && b.issues (.dneg 108 12)) = true := by
  decide +kernel
/-- The ends of the signed ranges of R109 and R110 meet the hypotheses. -/
theorem hyp_ResidueWordsStandForIntegersModuloM : (-536870400 : Int) ≤ 536870399 ∧ (-16368 : Int) ≤ 16367 := by decide
theorem hyp_ShufflesReadValidLanes :
    ((shuffles b 10 11 12).all fun p => b.issues p.1 && b.issues p.2.1) = true := by decide +kernel
theorem hyp_IntegerReductionsAndScansFoldActiveLanes : (foldRule.all fun p =>
    b.issues (.redlog 10 11 p.1) && b.issues (.scanlog 10 11 false p.1) && b.issues (.scanlog 10 11 true p.1)) = true := by decide +kernel
theorem hyp_FloatingWordsWriteResultsAndFlags : quietMode b ∧
    (allIssue b (fpWords 10 11 12) && allIssue b (fpWords64 10 12 14) && allIssue b (packedWords 10 11 12)) = true :=
  ⟨by unfold quietMode; decide +kernel, by decide +kernel⟩
/-- Every special input of the approximate words; a NaN, zeros, infinities, a negative and a positive number under RCP and SQRT. -/
theorem hyp_FloatingWordsWriteResultsAndFlags_values :
    ((List.range 12).all fun k => [0, 0x7F800000, 0xFF800000, 0x80000000, 0xBF800000, 0x43000000].any fun x =>
      ((specialInputs x)[k]?).any fun p => p.2.1 && !f32.isNaN x) = true ∧
    ((FMode.of 0).rm = 0 ∧ (FMode.of 0).ftz32 = false) ∧ f32.isNaN 0x7F800001 = true ∧ f32.isZero 0x80000000 = true ∧ f32.isInf 0xFF800000 = true ∧
    (f32.neg 0xBF800000 && !f32.isNaN 0xBF800000 && !f32.isZero 0xBF800000 && !f32.isInf 0xBF800000) = true ∧
    (rcpFn (FMode.of 0) 0x40400000).exc.getLsbD 2 = false ∧ f32.neg 0x40400000 = false := by decide +kernel
theorem hyp_ConversionsWriteResultsAndFlags : quietMode b ∧
    (b.issues (.cvt 10 12 3 2) && b.issues (.cvt 11 12 2 4) && b.issues (.cvtx 10 12 6 5 3)) = true :=
  ⟨by unfold quietMode; decide +kernel, by decide +kernel⟩
theorem hyp_FloatingReductionsFoldInLaneOrder : quietMode b ∧ ([8, 9, 10].all fun op =>
    b.issues (.redlog 10 11 op) && b.issues (.scanlog 10 11 false op) && b.issues (.scanlog 10 11 true op)) = true :=
  ⟨by unfold quietMode; decide +kernel, by decide +kernel⟩
/-- Sources and destinations at the ends of their classes; an f32 NaN, an infinity and a number. -/
theorem hyp_ConversionsWriteResultsAndFlags_values : ([(3, 0), (6, 2), (0, 3), (2, 6), (3, 6), (4, 5)] : List (BitVec 3 × BitVec 3)).all (fun p =>
    p.1 ≠ 7 && p.2 ≠ 7 && p.1 ≠ p.2 && (3 ≤ p.1.toNat || 3 ≤ p.2.toNat)) = true ∧ ([0x7FC00000, 0x7F800000, 0x3F800000].map fun x =>
      ((cvtF 3).isNaN x, (cvtF 3).isInf x)) = [(true, false), (false, true), (false, false)] := by decide +kernel
/-- 1 + 2^-24 lies half way between two f32 numbers, and no exception stops it. -/
theorem hyp_RoundToNearestIsNearestEven :
    (f32.round (FMode.of 0) false 0x1000001 (-24)).exc.getLsbD 2 = false ∧ (f32.round (FMode.of 0) false 0x1000001 (-24)).val = 0x3F800000 ∧
      (FMode.of 0).rm = 0 ∧ (FMode.of 0).ftz32 = false ∧ (FMode.of 0).ftz16 = false ∧ f32.isNaN 0x3F800001 = false := by decide +kernel
theorem hyp_SumsAndProductsRoundTheExactValue : (FMode.of 0).daz = false ∧
    ∀ x ∈ [0x3F800000, 0x80000001, 0x7F7FFFFF], x < 2 * f32.signBit ∧ f32.isNaN x = false ∧ f32.isInf x = false := by decide +kernel
/-- A signalling and a quiet NaN, on either side of a number. -/
theorem hyp_NaNResultsFollowTheRules : f32.isNaN 0x7F800001 = true ∧ f32.isSNaN 0x7F800001 = true ∧ f32.isNaN 0x7FC00000 = true ∧
    f32.isNaN 0x3F800000 = false := by decide +kernel
theorem hyp_ComparesWriteThePredicate : quietMode b ∧ ([0, 1, 2, 3, 4, 5].all fun c =>
    b.issues (.icmp true c 7 10 11) && b.issues (.ncmp false c 0 10 11)) = true ∧ ([0, 5, 6, 7].all fun c =>
    b.issues (.fcmp true c 7 10 11) && b.issues (.dcmp false c 0 10 12)) = true :=
  ⟨by unfold quietMode; decide +kernel, by decide +kernel, by decide +kernel⟩
theorem hyp_MaskWordsWriteTheirRegisters : (allIssue b (predWords b 2 0 1 10 5) && allIssue b (emWords b 1 5)) = true := by decide +kernel
/-- Lane 63 and a shift by 63 are the last that issue. -/
theorem hyp_ScalarWordsWriteTheirTableResult : (allIssue b (scalarWords b 5 6 7 1 10 63 9 9 63) &&
    allIssue b (scalarWords b 0 6 7 1 10 0 9 9 0)) = true := by decide +kernel
/-- A code of each range of R35 and R36. -/
theorem hyp_SourceCodesReadTheirOperands : (95 : VCode).toNat < 96 ∧ (96 ≤ (103 : VCode).toNat ∧ (103 : VCode).toNat < 104) ∧
    (104 ≤ (104 : VCode).toNat ∧ (104 : VCode).toNat < 108) ∧ 112 ≤ (112 : VCode).toNat ∧ (102 : VCode).toNat % 2 = 0 := by decide
theorem hyp_SpecialRegistersReadAndWrite : b.sh.loops = [] ∧ b.sh.hnd = false ∧
    ((List.range 38).all fun p => b.issues (.srd (BitVec.ofNat 6 p) 5)) = true ∧
    ((swrRule b.sh 5).all fun p => p.1 = 34 || p.1 = 35 || b.issues (.swr p.1 5)) = true ∧
    (let s : State := { b with tasks := [], contexts := [] }
     s.issues (.swr 34 5) && s.issues (.swr 35 5)) = true ∧
    (let s := up fun h => { h with hnd := true }
     s.issues (.swr 17 5) && s.issues (.swr 20 5) && s.sh.loops = []) = true := by decide +kernel

/-! ### Control transfers and traps -/

/-- The sheaf with a handler at word 9. -/
def tr : State := up fun h => { h with trbase := 0x8000000000000009, regs := h.regs.setS 5 1 }
/-- The sheaf in the handler of a floating trap of the word `w` with this destination. -/
def inHandler (w : Word) (dest : DWord) : State :=
  up fun h => { h with hnd := true, trcause := 0x10, traux := w.setWidth 64 <<< 32 ||| dest, trnext := 5 }

theorem canTrap_tr : canTrap tr := by unfold canTrap; decide +kernel
theorem hyp_PrivilegedWordsTrapOutsideFirmware : canTrap tr ∧ tr.tag ≠ 0 ∧ tr.sh.wait = none ∧ tr.sh.snap = none :=
  ⟨canTrap_tr, by decide +kernel, by decide +kernel, by decide +kernel⟩
/-- Targets at word 0, the last word, one before the first and one past the last. -/
theorem hyp_BranchesGoToTheirTargets : (allIssue tr (branches tr 5 1 0 0) && tr.issues (.bra 0) && tr.issues (.loop 5 0)) = true ∧
    canTrap tr ∧ inCode tr (targetOf tr 0) ∧ inCode tr (targetOf tr 0xFFFF) ∧ ¬ inCode tr (targetOf tr (-1)) ∧
    ¬ inCode tr (targetOf tr 0x10000) ∧ tr.sh.rd.getS 5 - 1 = 0 ∧ tr.sh.rd.getS 5 ≠ 0 ∧ (tr.sh.rd.getS 6 = 0 ∧ tr.sh.rd.getS 6 ≠ 1) := by
  unfold inCode targetOf
  exact ⟨by decide +kernel, canTrap_tr, by decide +kernel, by decide +kernel, by decide +kernel, by decide +kernel, by decide +kernel,
    by decide +kernel, by decide +kernel⟩
theorem hyp_CallAndRetLinkThroughS63 : tr.issues (.call 0) = true ∧ tr.issues .ret = true ∧ tr.overBudget tr.sh 0 = false ∧
    (tr.sh.rd.getS 63).extractLsb' 32 31 = 0 ∧ ((tr.sh.rd.getS 63).extractLsb' 0 32).toNat < tr.codeWords tr.sh ∧ inCode tr (targetOf tr 0) := by
  unfold inCode targetOf
  decide +kernel
/-- A fresh CALLX, one with no lane, and a continuation that has served every target. -/
theorem hyp_CallxServesTargetsInAscendingOrder :
    tr.issues (.callx 10) = true ∧ tr.sh.continues = false ∧ tr.sh.em ≠ 0 ∧ (up fun h => { h with regs := { h.regs with em := 0 } }).sh.em = 0 ∧
    (∀ i < 64, (inA tr 10 i).toNat < tr.codeWords tr.sh ∧ tr.overBudget tr.sh (inA tr 10 i).toNat = false) ∧
    (let t := up fun h => { h with contF := true, contAt := some h.latch.addr, regs := (h.regs.setS 61 7).setS 60 0 }
     t.sh.continues = true ∧ t.issues (.callx 10) = true ∧ (inA t 10 0).toNat ≤ (t.sh.rd.getS 60).toNat) := by decide +kernel
/-- The sheaf at time 100 with a request, a promise that is past and one to come. -/
def late : State := { setS (setS b 4 90) 6 101 with gtc := 100 }
theorem hyp_SimpleControlWords : (b.issues .nop && b.issues .yield && b.issues (.mode true 1 1) && b.issues (.xferq 7) && late.issues (.sleep 4) &&
    late.issues (.waitb 4 true) && late.issues (.sleepb 4 false)) = true ∧ b.sh.hnd = false ∧ b.sh.request = none ∧ late.repeatable = false ∧
    (late.sh.rd.getS 4).toNat ≤ late.gtc.toNat ∧ late.sh.eventDone (late.sh.rd.getS 4) true = true ∧
    promiseTime late.gtc (late.sh.rd.getS 4) ≤ late.gtc.toNat ∧
    (up fun h => { h with request := some ⟨1, 16, true⟩ }).issues (.xferq 7) = true := by decide +kernel
theorem hyp_ExitEndsTheSheaf : b.issues .exit = true := by decide +kernel
theorem hyp_TrapAndBkptEnterTheHandler : canTrap tr ∧ tr.sh.latch.more = false ∧ tr.sh.snap = none ∧
    (tr.context tr.tag).any Context.debugger = false ∧ tr.issues (.trap 7) = true ∧ tr.issues (.bkpt 0) = true :=
  ⟨canTrap_tr, by decide +kernel, by decide +kernel, by decide +kernel, by decide +kernel, by decide +kernel⟩
theorem hyp_TrapsUnderADebuggerOrWithoutAHandler :
    (let s := b.onContext 1 fun c => { c with debugger := true }
     s.sh.pend = [] ∧ s.sh.loads = [] ∧ s.sh.loops = [] ∧ s.sh.rep = none ∧ s.sh.hnd = false ∧ s.sh.latch.more = false ∧ s.sh.snap = none ∧
       (s.context s.tag).any Context.debugger = true ∧ s.issues (.bkpt 0) = true) ∧
    b.sh.trbase.getLsbD 63 = false ∧ b.sh.hnd = false ∧ (∃ c, b.context b.tag = some c ∧ c.ended = false) :=
  ⟨by decide +kernel, by decide +kernel, by decide +kernel, bootContext, by decide +kernel, rfl⟩
theorem hyp_RettRestoresWhatTheHandlerHid : (inHandler 0 0).issues .rett = true ∧
    (inHandler 0 0).legalTarget (inHandler 0 0).sh (inHandler 0 0).sh.trnext.toNat = true := by decide +kernel
/-- In the handler of an FADD to v3 (0x4481_8286), of a compare to k1 (0x4844_4205), and outside a handler. -/
theorem hyp_TfixReplacesTheTrappedResult : b.issues (.tfix 7) = true ∧ b.sh.snap = none ∧ b.sh.hnd = false ∧
    ([inHandler 0x44818286 3, inHandler 0x44818286 103, inHandler 0x48444205 192, inHandler 0x48444205 199].all fun s =>
      s.issues (.tfix 7) && s.sh.hnd && decide (0x10 ≤ s.sh.trcause.toNat ∧ s.sh.trcause.toNat ≤ 0x14 ∧
        fMaj (s.sh.traux.extractLsb' 32 32) ≠ 0x3A ∧ wordIsPair (s.sh.traux.extractLsb' 32 32) = false ∧
        (s.sh.traux.toNat % 512 < 104 ∨ (192 ≤ s.sh.traux.toNat % 512 ∧ s.sh.traux.toNat % 512 < 200)))) = true := by decide +kernel
/-- v4, the low half of v4:v5 and both halves of v4 are signalling NaNs of their formats, with the invalid exception enabled: every word
raises it, conversions of 32 and of 64 bits and both forms of a compare among them. -/
theorem hyp_EnabledExceptionsTrapAfterTheEffect :
    let s := up fun h => { h with trbase := 0x8000000000000009, regs := { (h.regs.put 4 (rowOf fun _ => 0x7F817C01)).put 5 (rowOf fun _ => 0x7FF00000) with
      mode := 0x100 } }
    canTrap s ∧ s.sh.latch.more = false ∧ s.sh.snap = none ∧ s.sh.regs.mode.getLsbD 8 = true ∧ s.sh.em.getLsbD 0 = true ∧
      ([(3, 0, false), (6, 2, true)].all fun (x : BitVec 3 × BitVec 3 × Bool) => (trapWords s 6 4 8 x.1 x.2.1 1 x.2.2 2 1).all fun p =>
        s.issues p.1 && (p.2.2.1 0).getLsbD 0) = true :=
  ⟨by unfold canTrap; decide +kernel, by decide +kernel, by decide +kernel, by decide +kernel, by decide +kernel, by decide +kernel⟩

/-! ### Memory accesses -/

/-- No counter of the sheaf's function counts this event. -/
def uncB (s : State) (e : Nat) : Bool :=
  match s.fns[s.fnOf s.tag]? with | none => true | some v => v.psel.toList.all fun x => x.toNat % 256 ≠ e

theorem uncB_uncounted {s : State} {e : Nat} (h : uncB s e = true) : uncounted s e := by
  intro v hv n x hx
  simp only [uncB, hv, List.all_eq_true, decide_eq_true_eq] at h
  exact h x (by rw [Vector.mem_toList_iff]; exact Vector.mem_of_getElem? hx)

/-- None counts what every access may cause. -/
def uncAccB (s : State) : Bool := uncB s 5 && uncB s 7 && uncB s 8 && uncB s 9
theorem uncAccB_uncounted {s : State} (h : uncAccB s = true) : uncountedAccess s := by
  simp only [uncAccB, Bool.and_eq_true] at h
  exact ⟨uncB_uncounted h.1.1.1, uncB_uncounted h.1.1.2, uncB_uncounted h.1.2, uncB_uncounted h.2⟩

/-- No piece lies in a page that counts or migrates. -/
def stillB (s : State) (sites : List Site) : Bool :=
  sites.all fun q => (q.map.all fun m => !m.ce && !m.wb) && q.back.all fun k => (s.pageOf k).all fun m => !m.ce && !m.wb
theorem stillB_still {s : State} {sites : List Site} (h : stillB s sites = true) : still s sites := by
  intro q hq
  have hs := (List.all_eq_true.1 h) q hq
  rw [Bool.and_eq_true] at hs
  refine ⟨fun m hm => ?_, fun k m hk hm => ?_⟩
  · simpa [hm] using hs.1
  · simpa [hk, hm] using hs.2

/-- The accesses a sheaf makes here meet nothing but memory. -/
def plainB (s : State) (sites : List Site) : Bool :=
  !s.repeatable && s.sh.buf = [] && s.badLines = [] && s.weak = [] && s.parking = [] && !s.lrec.flags.getLsbD 3 && uncAccB s && stillB s sites

theorem plainB_plain {s : State} {sites : List Site} (h : plainB s sites = true) : plain s sites := by
  simp only [plainB, Bool.and_eq_true, Bool.not_eq_true', decide_eq_true_eq] at h
  obtain ⟨⟨⟨⟨⟨⟨⟨h1, h2⟩, h3⟩, hw⟩, h4⟩, h5⟩, h7⟩, h6⟩ := h
  exact ⟨h1, h2, h3, hw, h4, h5, uncAccB_uncounted h7, stillB_still h6⟩

/-- A result exists and has a property. -/
def okB {ε α : Type} (r : Except ε α) (f : α → Bool) : Bool := match r with | .ok q => f q | .error _ => false

theorem okB_plan {ε α : Type} {r : Except ε α} {f : α → Bool} (h : okB r f = true) : ∃ q, r = .ok q ∧ f q = true := by
  cases r with
  | ok q => exact ⟨q, rfl, h⟩
  | error e => exact absurd h (by simp [okB])

theorem any_some {α : Type} {o : Option α} {f : α → Bool} (h : o.any f = true) : ∃ x, o = some x ∧ f x = true := by
  cases o with
  | some x => exact ⟨x, rfl, h⟩
  | none => exact absurd h (by simp)

/-- Every word of a table issues, and its plan passes. -/
def allMeet (s : State) (ws : List (Instr × Space)) (plan : Space → Except Blocked Plan) (f : Plan → Bool) : Bool :=
  ws.all fun p => s.issues p.1 && okB (plan p.2) fun q => q.rejected = [] && plainB s q.sites && f q

theorem allMeet_meets {s : State} {ws : List (Instr × Space)} {plan : Space → Except Blocked Plan} {f : Plan → Bool}
    (h : allMeet s ws plan f = true) :
    ∀ p ∈ ws, s.issues p.1 = true ∧ ∃ q, plan p.2 = .ok q ∧ q.rejected = [] ∧ plain s q.sites ∧ f q = true := by
  intro p hp
  have := (List.all_eq_true.1 h) p hp
  simp only [Bool.and_eq_true] at this
  obtain ⟨q, hq, hf⟩ := okB_plan this.2
  simp only [Bool.and_eq_true, decide_eq_true_eq] at hf
  exact ⟨this.1, q, hq, hf.1.1, plainB_plain hf.1.2, hf.2⟩

/-- A peer window of the module itself, over device memory. -/
def ownWindow : Partition where
  num := 0
  clusters := [0, 1]
  nqcfg := 0
  nqtail := 0
  nqhead := 0
  nqdrop := 0
  nqfull := false
  cthr := 0x01000100
  waiting := []
  windows := [{ base := 0, size := 0x100000, key := 0x100000, writable := true, modules := [0] }]
  resident := some 0
  since := 0

/-- Lanes 0 and 63 with 16-byte aligned addresses in v20:v21, a private frame in s62, a cluster-domain launch, a peer window. -/
def acc : State :=
  let s := (setRow (setS b 62 0x80000) 20 fun i => BitVec.ofNat 32 (0x4000 + 16 * i)).upd fun h =>
    { h with regs := { h.regs with em := 0x8000000000000001 } }
  { s with partitions := [ownWindow],
           tasks := s.tasks.map fun t => { t with lrec := { t.lrec with levels := t.lrec.levels ++ [{ extent := 1, domain := 1, scope := 0 }] } } }

theorem hyp_LoadsFixEachLanesValue : ∀ w ∈ ([0, 1, 2, 3, 4, 5, 6] : List (BitVec 3)), ∀ d ∈ ([40, 108] : List VCode),
    ∀ p ∈ loadWords 15 w d 20 false none, acc.issues p.1 = true ∧ ∃ q, acc.plan p.2 .load (widthBytes w) true (acc.laneAddrs p.2 20 (ofsOf none)) = .ok q ∧
      q.rejected = [] ∧ plain acc q.sites ∧ (q.sites ≠ []) = true := by
  intro w hw d hd
  have h : ([0, 1, 2, 3, 4, 5, 6] : List (BitVec 3)).all (fun w => ([40, 108] : List VCode).all fun d => allMeet acc (loadWords 15 w d 20 false none)
    (fun sp => acc.plan sp .load (widthBytes w) true (acc.laneAddrs sp 20 (ofsOf none))) fun q => q.sites ≠ []) = true := by decide +kernel
  have := allMeet_meets (List.all_eq_true.1 (List.all_eq_true.1 h w hw) d hd)
  simpa using this

/-- A paced launch of two groups on cores 0 and 1, each at step 2: slot 0 of group 1's tile buffer is full for step 2, that of group 0 is
empty. -/
def paced : State :=
  let slots := fun (full : Bool) => [({ full := full, pend := if full then 1 else 0, step := 2 } : TileSlot), { full := false, pend := 0, step := 3 }]
  let tile := fun (full : Bool) => ({ base := 1024, slotBytes := 256, count := 2, out := true, slots := slots full } : TileBuf)
  let mk := fun (g : Machine.Group) => [{ g with tiles := [tile false], step := 2, gi := g.gi.set 0 0 },
    { g with gid := 77, core := 1, tiles := [tile true], step := 2, gi := g.gi.set 0 1 }]
  let s := setS (setRow b 20 fun i => BitVec.ofNat 32 (2 ^ 20 + 4 * i)) 9 1
  let levels : List Level := [{ extent := 1, domain := 0, scope := 0 }, { extent := 2, domain := 1, scope := 0 }]
  { s with groups := s.groups.flatMap mk
           tasks := s.tasks.map (fun t => { t with lrec := { t.lrec with flags := 2, levels := levels, deps := [1, -1] } })
           peers := [{ Sheaf.absent with uid := 99, life := .live, task := s.sh.task, group := 77 }] }

theorem hyp_DescriptorAndStepLoadsReadTheirLines :
    (∀ p ∈ [(Instr.ldsDesc 3 40 20 none, Space.spad), (.ldgDesc 3 40 20 none, .dev)], acc.issues p.1 = true ∧
      ∃ q, acc.plan p.2 .load 1 false (acc.laneAddrs p.2 20 (ofsOf none)) = .ok q ∧ q.rejected = [] ∧ plain acc q.sites ∧ true = true) ∧
    paced.issues (.ldcStep 3 4 40 20 0 0) = true ∧
    (let ls := (paced.laneAddrs .clus 20 0).map (paced.stepLane 0 4 (paced.stepSel 0))
     (∀ l ∈ ls, l.far = false ∧ l.ready = true ∧ l.site.va % 2 ^ 20 % widthBytes 4 = 0 ∧ paced.touchesRing l.site.key l.site.len = false) ∧ plain paced (ls.map StepLane.site)) := by
  have h : allMeet acc [(Instr.ldsDesc 3 40 20 none, Space.spad), (.ldgDesc 3 40 20 none, .dev)]
    (fun sp => acc.plan sp .load 1 false (acc.laneAddrs sp 20 (ofsOf none))) (fun _ => true) = true := by decide +kernel
  exact ⟨allMeet_meets h, by decide +kernel, by decide +kernel, plainB_plain (by decide +kernel)⟩

theorem hyp_StoresWriteTheirBytesAndNoOthers : acc.memOk ∧ ∀ w ∈ ([0, 2, 4, 5, 6] : List (BitVec 3)),
    ∀ p ∈ storeWords 0 w 40 20 false none, acc.issues p.1 = true ∧ ∃ q, acc.plan p.2 .store (widthBytes w) true (acc.laneAddrs p.2 20 (ofsOf none)) = .ok q ∧
      q.rejected = [] ∧ plain acc q.sites ∧ (q.sites ≠ []) = true := by
  refine ⟨by unfold State.memOk; decide +kernel, fun w hw => ?_⟩
  have h : ([0, 2, 4, 5, 6] : List (BitVec 3)).all (fun w => allMeet acc (storeWords 0 w 40 20 false none)
    (fun sp => acc.plan sp .store (widthBytes w) true (acc.laneAddrs sp 20 (ofsOf none))) fun q => q.sites ≠ []) = true := by decide +kernel
  have := allMeet_meets (List.all_eq_true.1 h w hw)
  simpa using this

theorem hyp_DescriptorStoresWriteTheLines : acc.memOk ∧
    ∀ p ∈ [(Instr.stsDesc 3 40 20 none, Space.spad), (.stgDesc 3 40 20 none, .dev)], acc.issues p.1 = true ∧
      ∃ q, acc.plan p.2 .store 1 false (acc.laneAddrs p.2 20 (ofsOf none)) = .ok q ∧ q.rejected = [] ∧ plain acc q.sites ∧
        (q.sites.all fun x => !isForeign x.key) = true := by
  have h : allMeet acc [(Instr.stsDesc 3 40 20 none, Space.spad), (.stgDesc 3 40 20 none, .dev)]
    (fun sp => acc.plan sp .store 1 false (acc.laneAddrs sp 20 (ofsOf none))) (fun q => q.sites.all fun x => !isForeign x.key) = true := by
    decide +kernel
  exact ⟨by unfold State.memOk; decide +kernel, allMeet_meets h⟩

theorem hyp_AtomicsUpdateMemoryLaneByLane : ∀ op ∈ ([0, 1, 9, 10, 11, 12, 13, 15] : List (BitVec 4)), ∀ ret ∈ [true, false],
    ∀ p ∈ (atomWords 3 40 20 false { op := op, ret := ret, ra := false, ord := 0, scope := 0, ofs := 0 }).take (if 12 ≤ op.toNat then 4 else 5), acc.issues p.1 = true ∧
      ∃ q, acc.plan p.2 .atomic (atomSize op) true (acc.laneAddrs p.2 20 0) = .ok q ∧ q.rejected = [] ∧ plain acc q.sites ∧
        (overlapping q.sites = [] && q.sites ≠ []) = true := by
  intro op ho ret hr
  have h : ([0, 1, 9, 10, 11, 12, 13, 15] : List (BitVec 4)).all (fun op => [true, false].all fun ret =>
    allMeet acc ((atomWords 3 40 20 false { op := op, ret := ret, ra := false, ord := 0, scope := 0, ofs := 0 }).take (if 12 ≤ op.toNat then 4 else 5))
    (fun sp => acc.plan sp .atomic (atomSize op) true (acc.laneAddrs sp 20 0)) fun q => overlapping q.sites = [] && q.sites ≠ []) = true := by
    decide +kernel
  have := allMeet_meets (List.all_eq_true.1 (List.all_eq_true.1 h op ho) ret hr)
  exact this

/-- A lane at the first offset outside the allocation, or at the first device address outside 48 bits; and a misaligned lane. -/
theorem hyp_AccessesTrapRangeBeforeAlign :
    let s := tr
    let far := setRow s 20 fun i => if i = 5 then 0x10000 else 0
    let fard := setRow s 21 fun i => if i = 5 then 0x10000 else 0
    let odd := setRow s 20 fun i => if i = 63 then 0xFFFE else 0xFFFC
    (∃ g, s.myGroup = some g ∧ decide (g.spadLen = 0x10000) = true) ∧ canTrap s ∧ canTrap far ∧ canTrap fard ∧ canTrap odd ∧
      (far.issues (.lds 0 4 40 20 none) && far.issues (.sts 0 4 40 20 none) && fard.issues (.ldg 0 4 40 20 none) &&
        fard.issues (.stg 0 4 40 20 none) && odd.issues (.lds 0 4 40 20 none) && odd.issues (.stg 0 4 40 20 none)) = true ∧
      (0x10000 : Int) ≤ ((inA far 20 5).toInt + ofsOf none) % 2 ^ 32 ∧ (2 ^ 48 : Int) ≤ ((fard.sh.rd.src64 20 5).toInt + ofsOf none) % 2 ^ 64 ∧
      (∀ l < 64, ¬ (0x10000 : Int) ≤ ((inA odd 20 l).toInt + ofsOf none) % 2 ^ 32) ∧
      ((inA odd 20 63).toInt + ofsOf none) % 2 ^ 32 % 4 ≠ 0 ∧ odd.sh.em.getLsbD 63 = true := by
  refine ⟨any_some (by decide +kernel), ?_, ?_, ?_, ?_, by decide +kernel, by decide +kernel, by decide +kernel, by decide +kernel,
    by decide +kernel, by decide +kernel⟩ <;> unfold canTrap <;> decide +kernel

/-- Lanes 0 and 63 of an access to each space, and a lane of a peer access that no window takes (module 5, to which no route leads). -/
theorem hyp_AccessesTrapRangeBeforeAlign_addresses :
    (∀ sp ∈ [Space.priv, .spad, .clus, .dev, .peer, .host], ∀ w ∈ ([1, 6] : List (BitVec 3)), ∃ q, acc.plan sp .store (widthBytes w) true (acc.laneAddrs sp 20 0) = .ok q ∧
      (q.rejected = [] && q.sites.map (·.lane) ≠ [] && q.sites.all fun y => y.lane = 0 || y.lane = 63) = true) ∧
    ∃ q, acc.plan .peer .load 4 true [(3, 5 * 2 ^ 43)] = .ok q ∧ (q.rejected.contains 3 && acc.routes = [] && acc.modId ≠ 5) = true := by
  refine ⟨fun sp hs w hw => ?_, okB_plan (by decide +kernel)⟩
  have h : ([Space.priv, .spad, .clus, .dev, .peer, .host].all fun sp => ([1, 6] : List (BitVec 3)).all fun w =>
      okB (acc.plan sp .store (widthBytes w) true (acc.laneAddrs sp 20 0)) fun q =>
        q.rejected = [] && q.sites.map (·.lane) ≠ [] && q.sites.all fun y => y.lane = 0 || y.lane = 63) = true := by decide +kernel
  exact okB_plan (List.all_eq_true.1 (List.all_eq_true.1 h sp hs) w hw)

/-- The same accesses in a repeatable launch. -/
def rept : State := { acc with tasks := acc.tasks.map fun t => { t with lrec := { t.lrec with flags := 1 } } }
theorem hyp_RepeatableStoresAreBuffered : rept.repeatable = true ∧ rept.weak = [] ∧ rept.parking = [] ∧ uncountedAccess rept ∧
    ∀ p ∈ (storeWords 0 4 40 20 false none).filter (fun p => p.2 ≠ .priv), rept.issues p.1 = true ∧
      ∃ q, rept.plan p.2 .store 4 true (rept.laneAddrs p.2 20 (ofsOf none)) = .ok q ∧ q.rejected = [] ∧ still rept q.sites := by
  refine ⟨by decide +kernel, by decide +kernel, by decide +kernel, uncAccB_uncounted (by decide +kernel), fun p hp => ?_⟩
  have h : (((storeWords 0 4 40 20 false none).filter fun p => p.2 ≠ .priv).all fun p => rept.issues p.1 &&
    okB (rept.plan p.2 .store 4 true (rept.laneAddrs p.2 20 (ofsOf none))) fun q => q.rejected = [] && stillB rept q.sites) = true := by
    decide +kernel
  have := (List.all_eq_true.1 h) p hp
  rw [Bool.and_eq_true] at this
  obtain ⟨q, hq, hf⟩ := okB_plan this.2
  rw [Bool.and_eq_true, decide_eq_true_eq] at hf
  exact ⟨this.1, q, hq, hf.1, stillB_still hf.2⟩

/-! ### Copies, rings, publication, the matrix unit -/

/-- `acc` with a batch's sources in v20:v21, destinations at the end of the allocation in v22, and a ring of four slots at offset 96. -/
def cp (fill res : Nat) : State :=
  let s := setS (setV acc 22 0xFFF0) 7 96
  { s with groups := s.groups.map fun g => { g with rings := [{ off := 96, slots := 4, rd := 1, wr := 3, fill := fill, reserved := res }] } }

theorem hyp_CopyWordsOpenAndCloseBatches :
    (let s := cp 2 0
     let src := fun l => s.laneAddr (routeSrc 0) 20 0 l
     let dst := fun l => s.laneAddr (routeDst 0) 22 0 l
     let reqs := (lanesOf s.sh.em).map fun l =>
       ({ route := 0, size := 16, src := s.copyAddr (routeSrc 0) (src l), dst := s.copyAddr (routeDst 0) (dst l) } : CopyReq)
     s.issues (.cpy 0 0 2 20 22) = true ∧ (∀ l < 64, s.sh.em.getLsbD l = true →
       s.inRange (routeSrc 0) (l, src l) = true ∧ s.inRange (routeDst 0) (l, dst l) = true ∧ spadOff (routeSrc 0) (src l) % 16 = 0 ∧
         spadOff (routeDst 0) (dst l) % 16 = 0) ∧
       (∀ r ∈ reqs, s.touchesRing r.src 16 = false ∧ s.touchesRing r.dst 16 = false) ∧
       s.scoreboardFull (copySpans s.sh.uid s.fresh .write 16 ((if s.sh.openProg.status = 0 then reqs else []).map fun r => r.dst)) = false) ∧
    (cp 2 0).repeatable = false ∧ ((cp 2 0).issues (.cpyb 10 0) && (cp 2 0).issues (.cpyb 0 5)) = true ∧
    ((cp 2 2).issues (.cpybRing 10 7 0) && (cp 2 1).issues (.cpybRing 10 7 0)) = true ∧
    (∃ r, (cp 2 2).ringName ((cp 2 2).sh.rd.getS 7) = .ok r ∧ decide (r.fill + r.reserved = r.slots) = true) ∧
    (∃ r, (cp 2 1).ringName ((cp 2 1).sh.rd.getS 7) = .ok r ∧ decide (r.fill + r.reserved ≠ r.slots) = true) :=
  ⟨by decide +kernel, by decide +kernel, by decide +kernel, by decide +kernel, okB_plan (by decide +kernel), okB_plan (by decide +kernel)⟩

/-- RINIT whose ring ends with the allocation; as many records as the ring holds, one more, and none reserved. -/
theorem hyp_RingWordsKeepTheRing :
    (let s := setS (cp 2 0) 8 65488
     s.issues (.rinit 8 11 4) = true ∧ ∃ g, s.myGroup = some g ∧ decide (65488 < g.spadLen ∧ 65488 % 16 = 0 ∧ 65488 + 16 + 8 * 4 ≤ g.spadLen ∧
       g.rings.length < 32 ∧ ∀ r ∈ g.rings, 65488 + 48 ≤ r.off ∨ r.off + 16 + 8 * r.slots ≤ 65488) = true) ∧
    (let s := cp 2 0
     s.badLines = [] ∧ s.weak = [] ∧ (s.issues (.rwait 7 11 2) && s.issues (.rwait 7 11 3) && s.issues (.rrel 7 11 2) && s.issues (.rfin 7 11)) = true ∧ s.repeatable = false ∧
       s.memOk ∧ ∃ r, s.ringName (s.sh.rd.getS 7) = .ok r ∧ decide (2 ≤ r.fill ∧ r.fill < 3 ∧ 3 ≤ r.slots ∧ r.reserved = 0) = true) :=
  ⟨⟨by decide +kernel, any_some (by decide +kernel)⟩, by decide +kernel, by decide +kernel, by decide +kernel, by decide +kernel,
    by unfold State.memOk; decide +kernel, okB_plan (by decide +kernel)⟩

/-- A region of one 64 KiB page, whose entry holds PSEL `p`, and a batch. -/
def pubS (p : Nat) (out : Bool) : State :=
  let w := fun (m : List Host.Cell) k x => (writeBytes m k (leBytes 8 x) : List Host.Cell)
  { b with mem := w (w (w b.mem 0x2008 0x3001) 0x3000 0x4001) 0x4000 (0x100003 + p * 64)
           tasks := b.tasks.map (fun t => { t with regions := [⟨0x40000000, 0x10000⟩] })
           sh := { b.sh with batches := [Batch.of 3 0 none [] out CopyProg.zero 0 0 0] } }

/-- A translation with a property. -/
def mapsB (x : Xlat) (f : Mapped → Bool) : Bool := match x with | .ok m => f m | _ => false
theorem mapsB_map {x : Xlat} {f : Mapped → Bool} (h : mapsB x f = true) : ∃ m, x = .ok m ∧ f m = true := by
  cases x with
  | ok m => exact ⟨m, rfl, h⟩
  | _ => exact absurd h (by simp [mapsB])

theorem hyp_PubSwapsThePagesOfItsRegion : (∀ out ∈ [true, false], (pubS 2 out).issues (.pub 0 0) = true ∧ (pubS 2 out).repeatable = false ∧
      (pubS 2 out).parkedMine = false ∧ (∃ k, (pubS 2 out).taskOf (pubS 2 out).sh = some k ∧ decide (0 < k.regions.length) = true) ∧
      (∀ x ∈ (pubS 2 out).sh.batches, x.outbound = out)) ∧
    ∀ p ∈ [0, 2, 3], (pubS p false).memOk ∧ ∃ m, (pubS p false).xlat 1 0x40000010 .load = .ok m ∧ decide (m.psel = p) = true := by
  refine ⟨fun out ho => ?_, fun p hp => ?_⟩
  · have h : ∀ out ∈ [true, false], (pubS 2 out).issues (.pub 0 0) = true ∧ (pubS 2 out).repeatable = false ∧ (pubS 2 out).parkedMine = false ∧
        ((pubS 2 out).taskOf (pubS 2 out).sh).any (fun k => decide (0 < k.regions.length)) = true ∧
        ∀ x ∈ (pubS 2 out).sh.batches, x.outbound = out := by decide +kernel
    obtain ⟨h1, h2, h3, h4, h5⟩ := h out ho
    exact ⟨h1, h2, h3, any_some h4, h5⟩
  · have h : ∀ p ∈ [0, 2, 3], (Memory.wf (pubS p false).mem = true ∧ Memory.linesWf (pubS p false).lines = true) ∧
      mapsB ((pubS p false).xlat 1 0x40000010 .load) (fun m => decide (m.psel = p)) = true := by decide +kernel
    exact ⟨(h p hp).1, mapsB_map (h p hp).2⟩

/-- An f32 accumulator with OFMT bf16 and two-step operands at offsets 0 and 0x1000 of the scratchpad. -/
def mx : State :=
  (setS (setS (setS (setS (setS b 20 0x4000000000) 21 0x200000800) 22 0x4000001000) 23 0x200000800) 9 0x30000000000).upd fun h =>
    { h with mcfg := 0x30000000000 }
/-- The same with a loop in flight on v32. -/
def mxl : State := match exec (.mloop 0 32 20 22) mx with | .next t => t | _ => mx

theorem hyp_MatrixWordsActOnTheirAccumulator :
    (mx.issues (.mcfg 9) && cfgOk (mx.sh.rd.getS 9) && mx.issues (.mloop 0 32 20 22) && mx.issues (.mcvt 32) && mx.issues (.mcvt 80) &&
      mx.issues (.mzero 80) && mx.issues (.mwait 32) && mx.issues (.mwait 108) && mxl.issues (.mcvt 32) && mxl.issues (.mwait 32) &&
      mxl.issues (.mwait 108)) = true ∧
    (cfgASrc mx.sh.mcfg = false ∧ cfgBSrc mx.sh.mcfg = false ∧ cfgAcc mx.sh.mcfg = 0 ∧ (80 : VCode).toNat + accSize mx.sh.mcfg ≤ 96) ∧
    (let n := loopSteps mx.sh.rd mx.sh.mcfg 20 22
     ∃ x, mx.opSpan (mx.sh.rd.getS 20) (mx.sh.rd.getS 21) n 32 = .ok x ∧
       okB (mx.opSpan (mx.sh.rd.getS 22) (mx.sh.rd.getS 23) n 32) (fun y => mx.scoreboardFull [x, y] = false) = true) ∧ mx.coreLoops < 8 ∧
    (∃ l ∈ mxl.sh.loops, l.d = 32) ∧ mx.sh.loops = [] ∧ mx.repeatable = false ∧ mxl.repeatable = false :=
  ⟨by decide +kernel, by decide +kernel, okB_plan (f := fun x => okB (mx.opSpan (mx.sh.rd.getS 22) (mx.sh.rd.getS 23)
      (loopSteps mx.sh.rd mx.sh.mcfg 20 22) 32) fun y => mx.scoreboardFull [x, y] = false) (by decide +kernel), by decide +kernel, by decide +kernel,
    by decide +kernel, by decide +kernel, by decide +kernel⟩

/-! ### Fences, barriers, paced groups, tasks, scopes -/

/-- A load with `n` lanes whose value is not fixed. -/
def load0 (n : Nat) : PendLoad where
  atomic := true
  remote := false
  slots := []
  em := 5
  dest := [(10, rowOf fun i => BitVec.ofNat 32 (i + 100)), (20, rowOf fun i => BitVec.ofNat 32 (i + 200))]
  word := 0
  pc := 0
  instr := .nop
  ref := 0
  waits := n
  sites := []

/-- The sheaf has an atomic without a return parked at 0x4000, and waits at a word or not. -/
def fenced (i : Option Instr) : State :=
  let s := up fun h => { h with wait := i.map fun i => { instr := i, token := none } }
  let w : ParkedWrite :=
    { die := 0, page := 0x4000, frame := 0x4000, line := 0x100, at_ := 0, sheaf := s.sh.uid, batch := none, tag := 1, holds := false
      ops := [.atom 0x4000 0 1 none 0 0] }
  { s with parking := [w] }

/-- A PUB behind a parked write of its own, with no outbound batch; its pages hold no error. -/
theorem hyp_PubSwapsThePagesOfItsRegion_parked : (let s : State := { pubS 2 false with parking := (fenced none).parking }
    s.issues (.pub 0 0) && s.parkedMine && s.sh.batches.all fun x => !x.outbound) = true ∧ (pubS 2 false).badLines = [] ∧ (pubS 2 false).weak = [] := by
  decide +kernel
/-- SRD and SWR of %fpflags beside a loop in flight. -/
theorem hyp_SpecialRegistersReadAndWrite_waits : mxl.sh.loops ≠ [] ∧ (mxl.issues (.srd 18 5) && mxl.issues (.swr 18 5)) = true := by decide +kernel

/-- A fence with nothing before it, behind a load without its value, behind a parked store and behind a parked atomic; in repeatable mode a
fence that begins and one after its commit. -/
theorem hyp_FencesAndQendHoldTheirSheaf : (b.issues (.fence 2 4) && b.issues (.fencesc 4) && b.issues .qend) = true ∧ b.repeatable = false ∧
    (b.valuesFixed && !b.parkedMine) = true ∧
    (let s := up fun h => { h with loads := [load0 1] }
     (s.issues (.fence 1 4) && s.issues (.fencesc 4) && !s.valuesFixed) = true) ∧
    (let s : State := { fenced none with parking := (fenced none).parking.map fun w => { w with ops := [.bytes 0x4000 [1] false none] } }
     (s.issues (.fence 1 4) && s.issues (.fence 0 4) && s.issues (.fencesc 4) && s.valuesFixed && s.parkedMine && !s.repeatable) = true) ∧
    ((fenced none).issues (.fence 1 4) && !(fenced none).valuesFixed && !(fenced none).repeatable) = true ∧
    rept.repeatable = true ∧ (rept.issues (.fence 0 4) && rept.issues (.fencesc 4) && rept.issues .qend) = true ∧
    ([Instr.fence 0 4, .fencesc 4, .qend].all fun i =>
      let s := rept.upd fun h => { h with wait := some { instr := i, token := none } }
      s.repeatable && s.sh.wait = some { instr := i, token := none } && s.valuesFixed && !s.parkedMine) = true := by decide +kernel

/-- The sheaf with this barrier as number 3 of its group, and s12. -/
def br (x : Barrier) (n : DWord) : State :=
  let s := setS b 12 n
  { s with groups := s.groups.map fun g => { g with barriers := g.barriers.set 3 x } }
/-- A live barrier of two members in phase 7, with this many arrived. -/
def bar (arr : Nat) : Barrier :=
  { live := true, canc := false, exp := 2, arr := arr, phase := 7, set := BitVec.ofNat 32 (2 * arr), timer := none }

theorem mayArrive_of {s : State} {k : BitVec 9} {x : Barrier}
    (h : (s.barrier k = some x && x.live && !x.set.getLsbD s.sh.lsheaf.toNat && x.exp ≠ 0) = true) : mayArrive s k x := by
  simp only [Bool.and_eq_true, decide_eq_true_eq, Bool.not_eq_true'] at h
  exact ⟨h.1.1.1, h.1.1.2, h.1.2, h.2⟩

/-- The barrier of `br` may be met. -/
def arvB (a : Nat) : Bool :=
  let s := br (bar a) 0
  s.issues (.bararv 3 12 0) && s.issues (.barsyn 3 0) && !s.repeatable && !s.parkedMine

/-- A barrier of 1 and of 32 members, an arrival that completes the phase and one that does not, and both answers of BARWT. -/
theorem hyp_BarrierWordsArriveAndWait :
    ([(1 : DWord), 32].all fun n => (br Barrier.zero n).issues (.barinit 3 12) && (br Barrier.zero n).barrier 3 = some Barrier.zero &&
      1 ≤ ((br Barrier.zero n).sh.rd.getS 12).toNat && ((br Barrier.zero n).sh.rd.getS 12).toNat ≤ 32) = true ∧
    mayArrive (br (bar 0) 0) 3 (bar 0) ∧ mayArrive (br (bar 1) 0) 3 (bar 1) ∧ (arvB 0 && arvB 1) = true ∧ uncounted (br (bar 1) 0) 12 ∧
    (bar 1).arr + 1 = (bar 1).exp ∧ (bar 0).arr + 1 ≠ (bar 0).exp ∧
    ((br (bar 0) 7).issues (.barwt 3 12 0) && (br (bar 0) 6).issues (.barwt 3 12 0) && (br (bar 0) 0).issues (.barfin 3) &&
      (br (bar 0) 0).issues (.barst 3 12)) = true ∧
    (((br (bar 0) 7).sh.rd.getS 12).setWidth 16 = (bar 0).phase && ((br (bar 0) 6).sh.rd.getS 12).setWidth 16 ≠ (bar 0).phase) = true :=
  ⟨by decide +kernel, mayArrive_of (by decide +kernel), mayArrive_of (by decide +kernel), by decide +kernel, uncB_uncounted (by decide +kernel),
    by decide +kernel, by decide +kernel, by decide +kernel, by decide +kernel⟩

theorem hyp_PacedWordsMarkStepsAndSlots : paced.paced paced.sh = true ∧ paced.repeatable = false ∧
    (paced.issues .stepend && paced.issues (.tbwait 0) && paced.issues (.tbfull 0) && paced.issues (.tbempty 0 9 0)) = true ∧
    paced.stepDead 2 = none ∧ paced.parkedMine = false ∧
    (∃ g, paced.myGroup = some g ∧ decide (g.step = 2) = true) ∧
    (∃ g, paced.myGroup = some g ∧ ((g.tileSlot 0 2).any fun x => x.full = false && x.step = 2) = true) ∧
    (∃ q, (paced.myGroup.bind fun g => (paced.dependences g).find? (·.paced = (paced.sh.rd.getS 9).toNat)) = some q ∧
      ((q.tileSlot 0 2).any fun x => x.full = true && x.step = 2 && x.pend ≠ 0) = true) ∧
    paced.stepSel 0 = 2 ∧ paced.sh.loads = [] :=
  ⟨by decide +kernel, by decide +kernel, by decide +kernel, by decide +kernel, by decide +kernel, any_some (by decide +kernel),
    any_some (by decide +kernel), any_some (by decide +kernel), by decide +kernel, by decide +kernel⟩

/-- Two nodes; 32-byte aligned counters in v20:v21, a signal at s9 and its operand in s10. -/
def tk (x : DWord) : State :=
  let e : NodeEntry := { fn := 0, ver := 0, budget := 16, prio := 0, count := 2, words := 3, timer := 100, spad := 0, entry := 0 }
  let s := setS (setS (setRow acc 20 fun i => BitVec.ofNat 32 (0x4000 + 32 * i)) 9 0x40008) 10 x
  { s with mem := writeBytes s.mem 0x40008 (leBytes 8 5), tasks := s.tasks.map fun t => { t with nodes := [e, e] } }

/-- Node 1 is the last; lanes and none; a signal of 5 against 5 and 6. -/
theorem hyp_TaskWordsSendTheirRecords :
    (let s := setS (tk 5) 9 1
     s.issues (.spawn 9 20 3) = true ∧ s.sh.em ≠ 0 ∧ (∃ k, s.taskOf s.sh = some k ∧ decide ((s.sh.rd.getS 9).toNat < k.nodes.length) = true)) ∧
    (let s := (tk 5).upd fun h => { h with regs := { h.regs with em := 0 } }
     s.issues (.spawn 0 20 3) = true ∧ s.sh.em = 0) ∧ (tk 5).repeatable = false ∧
    ((tk 5).issues (.depdec 20) && (tk 5).issues (.signal 9 0 0 1 10) && (tk 5).issues (.waitsig 9 0 0 0 10) && (tk 6).issues (.waitsig 9 0 0 1 10)) = true ∧
    (∃ q, (tk 5).plan .dev .atomic 32 true ((tk 5).laneAddrs .dev 20 0) = .ok q ∧ (plainB (tk 5) q.sites && q.sites ≠ []) = true) ∧
    (∃ q, (tk 5).signalPlan .atomic 0 9 = .ok q ∧ (plainB (tk 5) q.sites && q.sites ≠ []) = true) ∧ (tk 5).memOk ∧
    (∃ q, (tk 5).signalPlan .load 0 9 = .ok q ∧ (plainB (tk 5) q.sites && q.sites.any fun x => x.key = 0x40008) = true) ∧
    readLE (tk 5).mem 0x40008 8 = 5 :=
  ⟨⟨by decide +kernel, by decide +kernel, any_some (by decide +kernel)⟩, by decide +kernel, by decide +kernel, by decide +kernel,
    okB_plan (by decide +kernel), okB_plan (by decide +kernel), by unfold State.memOk; decide +kernel, okB_plan (by decide +kernel), by decide +kernel⟩

/-- Scopes 1 and 2 below the root, 2 below 1, cancelled and idle since 500; the sheaf in scope `at_`, another of its task in scope 1; the clock is
at 1000. -/
def sc (at_ : BitVec 16) (s9 : DWord) : State :=
  let mk := fun (id parent : BitVec 16) (d : Nat) (l : ScopeLife) =>
    { Scope.root with id := id, parent := parent, depth := d, life := l, idle := if l = .live then none else some 500 }
  let s := setS b 9 s9
  { s with gtc := 1000, contexts := s.contexts.map (fun c => { c with scopes := [Scope.root, mk 1 0 1 .live, mk 2 1 2 .cancelled] })
           sh := { s.sh with scope := at_ }
           peers := [{ s.sh with uid := 99, scope := 1 }] }

theorem hyp_ScopeWordsMoveThroughTheTree :
    ((sc 1 1).issues (.csopen 13) && (sc 1 1).issues .csclose && (sc 0 1).issues (.cancel 9) && (sc 0 2).issues (.cancel 9) &&
      (sc 0 1).issues (.cwait 9 13) && (sc 0 2).issues (.cwait 9 13) && (sc 0 3).issues (.cwait 9 13)) = true ∧
    (∃ c, (sc 1 1).context (sc 1 1).tag = some c ∧ ((c.scope 1).any (fun p => p.life = .live && p.depth < 15) && c.freeScope = some 3 &&
      (c.scope 2).any (fun x => x.life ≠ .live) && !c.under 1 0 && c.scopeHeld 1 && !c.scopeHeld 3) = true) ∧
    (sc 1 1).sh.scope ≠ (sc 1 1).sh.baseScope ∧ (sc 1 1).repeatable = false ∧ (sc 0 1).sh.scope = 0 ∧
    (∃ c, (sc 0 1).context 1 = some c ∧ ((c.scopes.all fun x => !(sc 0 1).commits 1 x) && (c.scope 1).any (fun x => x.life ≠ .retired && !(sc 0 1).quiet 1 x) &&
      (c.scope 2).any (fun x => (sc 0 2).quiet 1 x && !({ sc 0 2 with gtc := 999 } : State).quiet 1 x) && c.scope 3 = none && !c.under 2 0) = true) ∧
    (sc 0 1).tag = 1 ∧ ((sc 0 1).sh.rd.getS 9).extractLsb' 16 48 = 0 :=
  ⟨by decide +kernel, any_some (by decide +kernel), by decide +kernel, by decide +kernel, by decide +kernel, any_some (by decide +kernel),
    by decide +kernel, by decide +kernel⟩

/-- Bytes of numbers of 8 and of 4 bytes from an address on. -/
def words (m : List Host.Cell) (a : Nat) (xs : List Nat) : List Host.Cell := writeBytes m a (xs.flatMap (leBytes 8))
def words4 (m : List Host.Cell) (a : Nat) (xs : List Nat) : List Host.Cell := writeBytes m a (xs.flatMap (leBytes 4))

/-- A present version of budget 16 with one safe point. -/
def slotAt (entry sp : Nat) : VerSlot := { entry := entry, budget := 16, flags := 1, points := 1, spTable := sp, recTable := 0 }
/-- A launch with two versions of function 0, each with one safe point at word 0, and a map of three locations between them. -/
def vers (req : Option XferReq) : State :=
  let e := fun (kind tgt src val : Nat) => kind * 2 ^ 29 + tgt * 2 ^ 20 + src * 2 ^ 11 + val
  let n := words4 (words4 (words4 (words4 b.mem 0x90400 [0, 3, 0, 0]) 0x90440 [8, 9, 0x500, 1]) 0x90500 [3 * 2 ^ 16, 0x600]) 0x90600
    [e 1 5 7 0, e 2 130 0 1, e 1 131 140 0]
  { b with mem := n
           tasks := b.tasks.map (fun t => { t with versions := [(0, 0, slotAt 0 0x400), (0, 1, slotAt 8 0x440)], lrec := { t.lrec with flags := 4, image := 0x90000 } })
           sh := { b.sh with request := req } }
def ask : XferReq := { ver := 1, budget := 32, firmware := false }

/-- Firmware's sheaf, with a context of tag 0. -/
def fw : State :=
  { b with tasks := b.tasks.map (fun t => { t with tag := 0 }), contexts := b.contexts.map (fun c => { c with tag := 0 })
           peers := [{ b.sh with uid := 99 }] }

theorem hyp_TransferRepAndHaltWords : ((vers none).issues (.safept 0) && (vers (some ask)).issues (.safept 0) && (vers none).issues (.xfer 1) &&
      (vers none).issues (.xfer 0) && (vers none).issues .xferClr && fw.issues .halt) = true ∧ (vers none).sh.request = none ∧
    (let s := vers (some ask)
     s.sh.request = some ask ∧ s.sh.pending = [] ∧ s.sh.loops = [] ∧ ∃ x, s.transfer 0 = .ok x ∧
       (x.any fun y => y.req = ask && okB (s.readMap y (List.range y.count)) fun es =>
         okB (s.sh.mapAll y [] 0 es []) fun xs => xs.map Prod.fst = [5, 130, 131]) = true) ∧
    (vers none).lrec.flags.getLsbD 2 = true ∧ ((vers none).mySlot 1).any (fun r => r.budget ≤ (vers none).sh.budget) = true ∧
    (let s : State := { b with mem := words4 b.mem 0x30004 [0x4002858C] }
     s.issues (.rep 63 true true true 0) = true ∧ s.sh.rpResume = false ∧
       s.repCheck { count := 64, stepD := true, stepA := true, stepB := true, stride := 1 } = none) :=
  ⟨by decide +kernel, by decide +kernel, ⟨by decide +kernel, by decide +kernel, by decide +kernel, okB_plan (by decide +kernel)⟩, by decide +kernel,
    by decide +kernel, by decide +kernel⟩

/-- The sheaf with its request fixed (R432). -/
def asking : State := let s := vers (some ask); { s with sh := { s.sh with asked := some ask } }
def isRow (x : LocVal) : Bool := match x with | .row _ => true | _ => false
theorem isRow_iff {x : LocVal} : isRow x = true ↔ ∃ v, x = .row v := by cases x <;> simp [isRow]

/-- A transfer that may complete, one that waits for a load, one whose point does not stand here; cores that have drained or not. -/
theorem hyp_TransferRepAndHaltWords_more :
    ((vers (some ask)).sh.asked = none ∧ (vers (some ask)).weak = [] ∧ uncountedAccess (vers (some ask))) ∧
    (∃ t, asking.transfer 0 = .ok t ∧ (t.any fun x => x.req = ask && stillB (vers (some ask)) ((asking.mapReads 0 x).filterMap asking.imageSite) &&
      okB (asking.readMap x (List.range x.count)) fun es => okB (asking.sh.mapAll x [] 0 es []) fun xs =>
        xs.all fun p => decide (p.1 < 108) == isRow p.2) = true) ∧
    (let s := (vers (some ask)).upd fun h => { h with loads := [load0 0] }
     s.issues (.safept 0) = true ∧ s.sh.asked = none ∧ s.sh.pending ≠ [] ∧ ∃ t, s.transfer 0 = .ok t ∧ t.isSome = true) ∧
    (let s := (vers (some ask)).upd fun h => { h with loads := [load0 0], latch := { h.latch with addr := 5 } }
     s.issues (.safept 0) = true ∧ s.sh.pending ≠ [] ∧ ∃ t, s.transfer 0 = .ok t ∧ t.isNone = true) ∧
    (let s := asking.upd fun h => { h with latch := { h.latch with addr := 5 } }
     s.sh.pending = [] ∧ s.sh.loops = [] ∧ ∃ t, s.transfer 0 = .ok t ∧ t.isNone = true) ∧
    holds (exec .halt fw) (fun t => t.peers.all fun h => !fw.onCore fw.core h || h.loads = []) = true ∧
    (let s : State := { fw with peers := fw.peers.map fun h => { h with loads := [load0 1] } }
     holds (exec .halt s) fun t => t.peers.any fun h => s.onCore s.core h && h.loads ≠ []) = true :=
  ⟨⟨by decide +kernel, by decide +kernel, uncAccB_uncounted (by decide +kernel)⟩, okB_plan (by decide +kernel),
    ⟨by decide +kernel, by decide +kernel, by decide +kernel, okB_plan (by decide +kernel)⟩, ⟨by decide +kernel, by decide +kernel, okB_plan (by decide +kernel)⟩,
    ⟨by decide +kernel, by decide +kernel, okB_plan (by decide +kernel)⟩, by decide +kernel, by decide +kernel⟩

/-! ### Steps of other agents -/

/-- A partition of clusters 0, 1 and 9, with function 0 resident. -/
def part1 : Partition := { ownWindow with clusters := [0, 1, 9], windows := [] }

/-- Function 0 with one queue over a host ring that holds this command. -/
def queued (cmd : List Nat) : State :=
  let s := b.onFn 0 fun v => { v with enabled := true, parts := 1, res := 1, queues := v.queues.set 0 { cfg := 0x1005, head := 0, tail := 1, running := [] } }
  { s with gtc := 1000, partitions := [part1], contexts := s.contexts.map (fun c => { c with queues := [0] })
           mem := words (words s.mem (hostKey 0 0x1000) cmd) 0x70000 [5] }

/-- An image with one function of one version at 0x60000 and a launch record at 0x50000; `bad` makes the budget illegal. -/
def launching (bad : Bool) : State :=
  let s := queued [1, 0x50000]
  let m := words (words s.mem 0x60000 [0x4D584B49 + 2 ^ 32 + 2 ^ 48, 192 * 2 ^ 32, 9 + 0x100 * 2 ^ 32]) 0x60100 [16 * 2 ^ 32 + 2 ^ 40, 0]
  { s with mem := words m 0x50000 [0x60000, (if bad then 8 else 16) * 2 ^ 32, 0, 0, 1, 1 + 2 ^ 32 + 2 ^ 36] }

/-- The next command of queue 0 of function 0, with a property. -/
def nextB (s : State) (f : Queue → Context → Command → Bool) : Bool :=
  (s.fns[0]?).any fun v => (v.queues[0]?).any fun k => k.host && (s.queueContext 0 0).any fun c =>
    match s.nextCommand 0 0 with | .some x => s.mayStart 0 0 x && s.iwrites = [] && s.parking = [] && f k c x | _ => false

theorem nextB_next {s : State} {f : Queue → Context → Command → Bool} (h : nextB s f = true) :
    ∃ v k c x, nextIs s 0 0 v k c x ∧ f k c x = true := by
  obtain ⟨v, hv, h⟩ := any_some h
  obtain ⟨k, hk, h⟩ := any_some h
  rw [Bool.and_eq_true] at h
  obtain ⟨c, hc, h2⟩ := any_some h.2
  cases hx : s.nextCommand 0 0 with
  | some x =>
    rw [hx] at h2
    simp only [Bool.and_eq_true, decide_eq_true_eq] at h2
    exact ⟨v, k, c, x, ⟨hv, hk, h.1, hc, hx, h2.1.1.1, h2.1.1.2, h2.1.2⟩, h2.2⟩
  | _ => rw [hx] at h2; exact absurd h2 (by simp)

/-- Where a context reaches an address, with a property of the page and the key. -/
def reachB (s : State) (tag : BitVec 12) (va : Nat) (acc : Access) (f : Mapped → Nat → Bool) : Bool :=
  mapsB (s.xlat tag va acc) fun m => (s.reach tag acc.writes m.key).any fun k => decide (lineOf k ∉ s.badLines) && f m k
theorem reachB_reaches {s : State} {tag : BitVec 12} {va : Nat} {acc : Access} {f : Mapped → Nat → Bool} (h : reachB s tag va acc f = true) :
    ∃ m k, reaches s tag va acc m k ∧ f m k = true := by
  obtain ⟨m, hm, h⟩ := mapsB_map h
  obtain ⟨k, hk, h⟩ := any_some h
  rw [Bool.and_eq_true, decide_eq_true_eq] at h
  exact ⟨m, k, ⟨hm, hk, h.1⟩, h.2⟩
/-- A page of the context's root lies in device memory. -/
def rootB (s : State) (tag : BitVec 12) : Bool := s.root tag + 4096 ≤ 2 * spaceSize

/-- What the launch's record and image read as. -/
def launchB (s : State) (f : LaunchRec → Validated → Bool) : Bool :=
  okB (s.igWords 1 0x50000 32) fun ws => (s.context 1).any fun c =>
    okB (s.validate 0 c (LaunchRec.of fun j => ws.getD j 0) fun j => ws.getD j 0) (f (LaunchRec.of fun j => ws.getD j 0))

/-- The first slot of a queue as a command that has begun. -/
def heldCmd : IguanaWrite := { fn := 0, queue := 0, count := 0, tag := 1, part := 0, host := true, addr := 0x1000, bytes := [] }
/-- What a WRITE to 0x70000 and a WAIT for `v` there meet. -/
def writeB (s : State) (x : Command) : Bool := x.kind = 3 && !x.malformed && s.weak = [] && rootB s 1 &&
  reachB s 1 x.addr .store fun m k => !m.wb && k + 8 ≤ 2 * spaceSize
def waitB (s : State) (v c : Nat) (x : Command) : Bool := x.kind = 2 && !x.malformed && x.value = BitVec.ofNat 64 v && x.cond = c &&
  reachB s 1 x.addr .load fun _ k => readLE s.mem k 8 = 5
/-- A launch that is refused and one that is accepted. -/
def refusedB (s : State) (x : Command) : Bool :=
  x.kind = 1 && !x.malformed && x.addr = 0x50000 && launchB s fun _ y => y.code ≠ 0
def acceptedB (s : State) (c : Context) (x : Command) : Bool :=
  x.kind = 1 && !x.malformed && x.addr = 0x50000 && s.context c.tag = some c && (c.scope 0).any (fun p => p.life = .live) && launchB s fun r y =>
    y.code = 0 && s.resident 0 (s.partsOf 0 r) && !r.isGang && y.regions = [] && r.parent = 0 && s.task (s.fresh + 1) = none

/-- A malformed and a well-formed NOP, a WRITE, WAITs for 5 that hold and that do not at the value 5, and LAUNCHes; held WAITs for 5 and 6. -/
theorem hyp_QueuesTakeTheirCommands :
    (∃ v k c x, nextIs (queued [0]) 0 0 v k c x ∧ (x.kind = 0 && !x.malformed) = true) ∧
    (∃ v k c x, nextIs (queued [0, 1]) 0 0 v k c x ∧ (x.kind = 0 && x.malformed) = true) ∧
    (∃ v k c x, nextIs (queued [3, 0x70000, 9]) 0 0 v k c x ∧ (c.tag = 1 && writeB (queued [3, 0x70000, 9]) x) = true) ∧
    ((queued [0]).memOk ∧ (queued [3, 0x70000, 9]).memOk ∧ (queued [2, 0x70000, 5, 0]).memOk ∧ (launching true).memOk ∧ (launching false).memOk) ∧
    (∀ p ∈ [(5, 0), (6, 0), (5, 1), (4, 1), (4, 2), (5, 2)], ∃ v k c x, nextIs (queued [2, 0x70000, p.1, p.2]) 0 0 v k c x ∧
      (c.tag = 1 && waitB (queued [2, 0x70000, p.1, p.2]) p.1 p.2 x) = true) ∧
    (∃ v k c x, nextIs (launching true) 0 0 v k c x ∧ refusedB (launching true) x = true) ∧
    (∃ v k c x, nextIs (launching false) 0 0 v k c x ∧ acceptedB (launching false) c x = true) ∧
    ([(5 : DWord), 6].all fun v => let w : HeldWait := { command := heldCmd, signal := 0x70000, value := v, cond := 0 }
     let s : State := { queued [0] with held := [w] }
     (s.held.find? fun x => x.command.fn = 0 && x.command.queue = 0) = some w && s.iwrites = [] && s.parking = [] &&
       reachB s 1 0x70000 .load fun _ k => readLE s.mem k 8 = 5) = true ∧
    ((queued [0]).fns[0]?).any (fun v => v.enabled && !v.gated && (v.queues[0]?).any fun k => 2 ^ ((k.cfg.extractLsb' 8 4).toNat + 4) = 16) = true ∧
    (b.fns[0]?).any (fun v => (v.queues[0]?).any fun k => !k.cfg.getLsbD 0) = true ∧
    ((b.onFn 0 fun v => { v with gated := true }).fns[0]?).any VirtFn.gated = true ∧ b.latch.length < 16 := by
  refine ⟨nextB_next (f := fun _ _ x => x.kind = 0 && !x.malformed) (by decide +kernel),
    nextB_next (f := fun _ _ x => x.kind = 0 && x.malformed) (by decide +kernel),
    nextB_next (f := fun _ c x => c.tag = 1 && writeB (queued [3, 0x70000, 9]) x) (by decide +kernel), ?_, ?_,
    nextB_next (f := fun _ _ x => refusedB (launching true) x) (by decide +kernel),
    nextB_next (f := fun _ c x => acceptedB (launching false) c x) (by decide +kernel),
    by decide +kernel, by decide +kernel, by decide +kernel, by decide +kernel, by decide +kernel⟩
  · unfold State.memOk; decide +kernel
  · intro p hp
    have h : ([(5, 0), (6, 0), (5, 1), (4, 1), (4, 2), (5, 2)].all fun p => nextB (queued [2, 0x70000, p.1, p.2]) fun _ c x =>
      c.tag = 1 && waitB (queued [2, 0x70000, p.1, p.2]) p.1 p.2 x) = true := by decide +kernel
    exact nextB_next ((List.all_eq_true.1 h) p hp)

/-- A task 50 with 20 units, over the boot task's program; the clock is at 5000. -/
def units (l : LaunchRec) : State :=
  let s := b.onFn 0 fun v => { v with enabled := true, parts := 1, res := 1 }
  { s with gtc := 5000, partitions := [part1], tasks := s.tasks ++ [{ bootTask 50 with lrec := { l with owner := 50 }, units := List.range 20, handed := false }] }
/-- Pairs of sheaves on a core: one unit of one pair; and a unit that spans a die. -/
def small : LaunchRec :=
  { LaunchRec.zero with spad := 2048, levels := [⟨2, 0, 0⟩, ⟨2, 0, 0⟩, ⟨20, 1, 1⟩], barriers := 3, budget := 16, startGtc := 5000 }
def wide : LaunchRec := { small with levels := [⟨2, 0, 0⟩, ⟨2, 0, 0⟩, ⟨2, 2, 2⟩] }
/-- A gang over partitions 0 and 1, its command in host memory. -/
def gang (cl : List Nat) (g : Gang) : State :=
  let s := (units { small with levels := [⟨2, 0, 0⟩, ⟨2, 0, 0⟩, ⟨4, 1, 4⟩, ⟨2, 4, 4⟩], partMask := 3 }).onFn 0 fun v => { v with res := 3, parts := 3 }
  let t := { s with partitions := [ownWindow, { ownWindow with num := 1, clusters := cl }] }
  t.onTask 50 fun x => { x with gang := g, cmdHost := true, cmdAddr := 0x1000 }
def back : Gang := .rolledBack [1]
/-- Die 0 holds units 0 to 7 of the task. -/
def onDie0 (l : LaunchRec) : State := (units l).onDie 0 fun d => { d with units := (List.range 8).map fun u => (50, u) }
/-- The same with die 2 in the partition. -/
def two : State := { onDie0 small with partitions := [{ part1 with clusters := [0, 1, 9, 17] }] }
/-- Cluster 0's Newt holds groups 6 and 7. -/
def place : State := (units small).onCluster 0 fun c => { c with newt := [.groups 50 6 2] }
/-- A saved group 60 of a bin, on core 8. -/
def saved : State :=
  let s := units small
  let g := s.groups.map fun g => { g with gid := 60, fromBin := true, saved := true, task := 50, core := 8 }
  { s with groups := s.groups ++ g, peers := [{ s.sh with uid := 61, group := 60, task := 50, saved := true, fromBin := true }] }
def newtFreeB (s : State) (c : Nat) : Bool := (s.clusters[c]?).any fun k => k.newt = []

theorem newtFreeB_free {s : State} {c : Nat} (h : newtFreeB s c = true) : newtFree s c := by
  obtain ⟨k, hk, h⟩ := any_some h
  exact ⟨k, hk, by simp [of_decide_eq_true h]⟩

theorem hyp_UnitsGoToTheirCores :
    (∃ k, (units small).task 50 = some k ∧ (!k.handed && k.gang = .none && k.units ≠ [] && k.lrec.startGtc ≤ (units small).gtc.toNat &&
      (units small).taskDies k ≠ []) = true) ∧
    (∃ k, (gang [8, 9] back).task 50 = some k ∧ (k.gang.waits && k.units ≠ [] && (gang [8, 9] back).resident k.fn ((gang [8, 9] back).partsOf k.fn k.lrec) &&
      ((gang [8, 9] back).gangPlan k.lrec (gang [8, 9] back).claims).isSome) = true) ∧
    (∃ k, (gang [] back).task 50 = some k ∧ (k.gang.waits && k.units ≠ [] && k.cmdHost && (gang [] back).resident k.fn ((gang [] back).partsOf k.fn k.lrec) &&
      (gang [] back).gangPlan k.lrec (gang [] back).claims = none && (gang [] back).iwrites = []) = true) ∧ (gang [] back).memOk ∧
    (∀ at_ ∈ [5000, 5001], ∃ k, (gang [8] (.committed at_)).task 50 = some k ∧ decide (k.gang = .committed at_) = true) ∧
    (∃ v, (onDie0 small).dies[0]? = some v ∧ (v.pieces = [] && v.units.head? = some (50, 0)) = true) ∧
    (∃ k, (onDie0 small).task 50 = some k ∧ ((onDie0 small).taskRuns 50 && k.lrec.domain k.lrec.unitLevel < 2 &&
      ((onDie0 small).taskClusters k).contains 1 && newtFreeB (onDie0 small) 1) = true) ∧ newtFree (onDie0 small) 1 ∧
    (∃ k, (onDie0 wide).task 50 = some k ∧ ((onDie0 wide).taskRuns 50 && k.lrec.domain k.lrec.unitLevel = 2) = true) ∧
    (∃ v, two.dies[2]? = some v ∧ (v.units = [] && two.dies[0]?.isSome && (two.stealable 2 0).length = 8 &&
      (List.range 8).all fun e => e = 2 || (two.stealable 2 e).length ≤ 8) = true) ∧
    (∃ v, place.clusters[0]? = some v ∧ (v.newt = [.groups 50 6 2] && place.taskRuns 50) = true) ∧
    (∃ k, place.task 50 = some k ∧ (k.lrec.prio ≤ 3 && (k.lrec.planIn place.claims 0 [] (k.lrec.chunks 6 2)).isSome) = true) ∧
    (∃ g, b.group b.sh.group = some g ∧ (!g.freed && !g.saved && (b.whole g).all fun k => !k.saved && !k.freed &&
      (b.members k.gid).all fun h => !b.drainWaits h) = true) ∧ (b.groups.map Machine.Group.gid).Nodup ∧
    (∃ g, saved.group 60 = some g ∧ (g.saved && !g.freed && g.fromBin && !saved.inShadow 60 && saved.taskRuns g.task && g.task = 50 && g.core / 8 = 1 &&
      (LaunchRec.zero.planIn saved.claims (g.core / 8) [] [[(0, (saved.claimOf g).need)]]).any fun cs => saved.entriesFit (cs.map fun c => (60, c.core))) = true) ∧
    (∃ k, saved.task 50 = some k ∧ (saved.taskClusters k).contains 1 = true) := by
  refine ⟨any_some (by decide +kernel), any_some (by decide +kernel), any_some (by decide +kernel), ?_, ?_, any_some (by decide +kernel),
    any_some (by decide +kernel), newtFreeB_free (by decide +kernel), any_some (by decide +kernel), any_some (by decide +kernel), any_some (by decide +kernel),
    any_some (by decide +kernel), any_some (by decide +kernel), by decide +kernel, any_some (by decide +kernel), any_some (by decide +kernel)⟩
  · unfold State.memOk; decide +kernel
  · intro a ha
    have h : ([5000, 5001].all fun a => ((gang [8] (.committed a)).task 50).any fun k => k.gang = .committed a) = true := by decide +kernel
    exact any_some ((List.all_eq_true.1 h) a ha)

/-- Functions 0 and 3 on partition 0, function 3 with work; `r` is resident. -/
def turn (r : Option Nat) (work : Bool) : State :=
  let s := { b with partitions := [{ part1 with resident := r }], gtc := 500, tasks := [], groups := [], sh := Sheaf.absent,
                    contexts := [{ bootContext with tag := 2, fn := 3, queues := [0] }] }
  (s.onFn 3 fun v => { v with enabled := true, parts := 1, queues := v.queues.set 0 { cfg := 5, head := 0, tail := if work then 1 else 0, running := [] } }).onFn 0
    fun v => { v with enabled := true, parts := 1, res := 1 }
/-- An image that Proenapin starts, with the lowest security version it may have, a policy, and function 5 turned off. -/
def img : FwImage := { version := 1, secVersion := 3, digest := 77, signatureOk := true }
def pol : Policy := { version := 4, slice := 1, deadline := 1, maxPrio := 0, cthr := 0, collective := 0, image := img }
def fwst : State := { b with partitions := [part1], firmware := { Firmware.zero with policies := [pol], fuses := 3, monitor := some img } }
/-- A module with nothing but function 0. -/
def alone0 : State := { b with tasks := [], groups := [], sh := Sheaf.absent, contexts := [] }

theorem hyp_FunctionsAndPartitionsTakeTurns :
    (∃ v, (turn none true).part 0 = some v ∧ (v.resident = none && ((turn none true).turnOf 0 95).find? (turn none true).wants = some 3) = true) ∧
    (∃ v, (turn (some 0) false).part 0 = some v ∧ (v.resident = some 0 && !(turn (some 0) false).gangHolds 0 &&
      ((turn (some 0) false).turnOf 0 0).all fun f => f = 0 || !(turn (some 0) false).wants f) = true) ∧
    (∃ v, (turn (some 0) true).part 0 = some v ∧ (v.resident = some 0 && !(turn (some 0) true).gangHolds 0 && !(turn (some 0) true).swapWaits 0 0 &&
      ((turn (some 0) true).turnOf 0 0).find? (fun f => f ≠ 0 && (turn (some 0) true).wants f) = some 3) = true) ∧
    ((turn none true).fns[3]?).isSome = true ∧ ((turn none true).fns[0]?).isSome = true ∧
    (b.fns.toList.all fun v => !v.parts.getLsbD 63) = true ∧ b.part 63 = none ∧ b.partitions = [] ∧ [(0 : Nat), 63].Nodup ∧
    (∃ v, fwst.fns[5]? = some v ∧ (!v.enabled && fwst.firmware.policies.find? (·.version = 4) = some pol && fwst.firmware.policies.all (·.version ≠ 5)) = true) ∧
    (b.contexts.map Context.tag).Nodup ∧ (alone0.mayLeave 95 && alone0.mayLeave 0) = true ∧
    (b.fns.toList.all fun v => !v.enabled) = true ∧ ((turn none true).fns.toList.any VirtFn.enabled) = true ∧
    (img.signatureOk && fwst.firmware.fuses = img.secVersion) = true ∧ ¬ fwst.firmware.fuses ≤ { img with secVersion := 2 }.secVersion := by
  refine ⟨any_some (by decide +kernel), any_some (by decide +kernel), any_some (by decide +kernel), by decide +kernel, by decide +kernel, by decide +kernel,
    by decide +kernel, by decide +kernel, by decide +kernel, any_some (by decide +kernel), by decide +kernel, by decide +kernel, by decide +kernel, by decide +kernel,
    by decide +kernel, by decide +kernel⟩

/-- VF_ENABLE of a mask that names no partition, and of a function that drains; a reset with a context that is not released and with none;
the function's groups move to their own module. -/
theorem hyp_FunctionsAndPartitionsTakeTurns_more : (fwst.partitions.map Partition.num).all (fun p => !(2 : DWord).getLsbD p) = true ∧
    ((fwst.onFn 5 fun v => { v with resetting := true }).fns[5]?).any (fun v => v.resetting && !v.enabled) = true ∧
    (fwst.partitions.map Partition.num).contains 0 = true ∧ (fwst.fns[5]?).any (fun v => !v.resetting) = true ∧
    b.contexts.any (fun c => c.fn = 0 && !c.released) = true ∧ (b.contexts.map Context.tag).Nodup ∧
    (let s : State := { b with contexts := b.contexts.map fun c => { c with released := true } }
     s.contexts.all (fun c => c.fn ≠ 0 || c.released) = true ∧ (s.contexts.map Context.tag).Nodup) ∧
    ((queued [0]).mayLeave 0 && (queued [0]).badLines = []) = true ∧ (queued [0]).groups.any (fun g => !g.freed) = true ∧
    ((queued [0]).saves = [] ∧ ((queued [0]).dies.toList.all fun d => d.slots.toList.all Option.isNone) = true) := by decide +kernel

/-! ### Deliveries, pages, writes from outside -/

/-- Two loads under way, the first remote. -/
def carries : State := up fun h => { h with loads := [{ load0 0 with remote := true }, { load0 0 with em := 9 }] }
/-- A page of the map at 0x4000_0000 that waits for its copy, and one write of firmware parked on it. -/
def parkedOn : State :=
  let mm := words (words (words b.mem 0x2008 [0x3001]) 0x3000 [0x4001]) 0x4000 [0x100003 + 32]
  let w : ParkedWrite :=
    { die := 0, page := 0x40000000, frame := 0x100000, line := 0x1000000, at_ := 0, sheaf := 0, batch := none, tag := 1, holds := false
      ops := [.bytes 0x40000010 [0x77] false none] }
  { b with mem := mm, parking := [w] }
def stuck : State := up fun h => { h with parked := [(0x50010, 0), (0x5FFFF, 1)] }

/-- A rejected load's traps: none, one of the same word and destination, and one of another. -/
def rejected (p : List PendTrap) : State := carries.upd fun h => { h with pend := p }
def prot (aux : DWord) : PendTrap := { kind := .async, cause := .prot, pc := none, mask := 1, aux := aux }

/-- The least and the greatest byte of a page's line, a whole and a partial atomic, two loads, merging and separate rejections. -/
theorem hyp_DeliveriesAndPagesArrive : alone carries carries.sh.uid ∧ carries.sh.life = .live ∧
    (∃ l, carries.sh.loads[0]? = some l ∧ (l.waits = 0 && l.remote && (l.dest.map Prod.fst) = [10, 20] &&
      (carries.sh.loads.find? fun l => l.remote && (l.dest.head?.map Prod.fst) = some 10) = some l) = true) ∧ ([10, 20] : List Nat).Nodup ∧
    (∃ l, carries.sh.loads[1]? = some l ∧ decide (l.waits = 0) = true) ∧
    ([(11, (2 ^ 128 - 1 : Nat)), (13, 2 ^ 64 - 1), (0, 2 ^ 32 - 1)].all fun p => (BitVec.ofNat 128 p.2).toNat <
      2 ^ (if p.1 = 11 then 128 else if p.1 = 1 ∨ p.1 = 10 ∨ p.1 = 13 then 64 else 32)) = true ∧ (b.badLines = [] ∧ b.weak = []) ∧
    (fMaj 0x6A000000 ≠ 0x37 ∧ ([[], [prot 11]].all fun ps => (rejected ps).sh.pend.all fun p => p.aux ≠ BitVec.ofNat 64 (0x6A000000 * 2 ^ 32 + 10)) = true ∧
      (let p := prot (BitVec.ofNat 64 (0x6A000000 * 2 ^ 32 + 10))
       ((rejected [p]).sh.pend = [p] && p.kind = .async && p.cause = .prot && !p.held && !p.emMask) = true)) ∧
    stuck.sh.parked ≠ [] ∧ (stuck.sh.parked.all fun p => p.1.toNat / 65536 = (0x50000 : DWord).toNat / 65536) = true ∧ stuck.iwrites = [] ∧
    (b.sheaves.all fun h => b.tagOf h ≠ 1 || (h.buf = [] && h.defer = [])) = true ∧ b.agenda = [] ∧
    b.memOk ∧ 0x90000 + 128 ≤ 2 * spaceSize ∧ parkedOn.memOk ∧
    (∃ m, parkedOn.xlat 1 0x40000000 .load = .ok m ∧ (m.wb && parkedOn.badLines = [] && parkedOn.weak = [] && parkedOn.iwrites = [] &&
      (parkedOn.parking.filter fun w => w.tag = 1 && m.page ≤ 64 * w.line && 64 * w.line < m.page + m.size) = parkedOn.parking &&
      parkedOn.parking.map (fun w => (w.sheaf, w.batch, w.ops)) = [(0, none, [.bytes 0x40000010 [0x77] false none])]) = true) ∧
    (∃ m, parkedOn.xlat 1 0x40000010 .load = .ok m ∧ ((parkedOn.reach 1 true m.key).any fun k => k ≠ m.pte) = true) ∧
    (∃ c, parkedOn.context 1 = some c ∧ (!c.ended && c.counters = none) = true) := by
  refine ⟨⟨rfl, by decide +kernel⟩, by decide +kernel, any_some (by decide +kernel), by decide +kernel, any_some (by decide +kernel), by decide +kernel,
    by decide +kernel, by decide +kernel, by decide +kernel, by decide +kernel, by decide +kernel, by decide +kernel, by decide +kernel,
    by unfold State.memOk; decide +kernel, by decide +kernel, by unfold State.memOk; decide +kernel,
    mapsB_map (by decide +kernel), mapsB_map (by decide +kernel), any_some (by decide +kernel)⟩

/-- A store to host memory whose lane 2 the host turns away; a load turned away that the trap of its word names. -/
def sentFar : State := { (up fun h => { h with far := [{ word := 7, dest := 10, lanes := [(2, hostKey 0 0x100, [9, 9, 0, 9], [1, 2, 3, 4])] }] }) with
  mem := writeBytes b.mem (hostKey 0 0x100) [1, 2, 3, 4] }
theorem hyp_DeliveriesAndPagesArrive_more : alone sentFar sentFar.sh.uid ∧ sentFar.sh.life = .live ∧ fMaj 7 ≠ 0x37 ∧
    sentFar.sh.far = [{ word := 7, dest := 10, lanes := [(2, hostKey 0 0x100, [9, 9, 0, 9], [1, 2, 3, 4])] }] ∧ (4 : DWord).getLsbD 2 = true ∧
    readBytes sentFar.mem (hostKey 0 0x100) 4 = [1, 2, 3, 4] ∧ carries.sh.farHit 7 10 4 = none ∧ b.cutOff 0x40000 = false ∧
    (∃ l, (carries.sh.loads.find? fun l => l.word = 0 && (l.remote || (l.atomic && l.waits = 0)) && (l.dest.head?.map Prod.fst) = some 10) = some l ∧
      l.remote = true) ∧ (parkedOn.cutOff 0x100010 = false ∧ parkedOn.iwrites = []) := by
  exact ⟨⟨rfl, by decide +kernel⟩, by decide +kernel, by decide +kernel, by decide +kernel, by decide +kernel, by decide +kernel, by decide +kernel, by decide +kernel,
    any_some (by decide +kernel), by decide +kernel⟩

/-- The core's cache holds the page at 0x40000000, or the cluster's alone does. -/
def warm : State := { b with tlb := [⟨0, 1, 0x40000000, 0x10000⟩, ⟨512, 1, 0x40000000, 0x10000⟩] }
def lukewarm : State := { b with tlb := [⟨512, 1, 0x40000000, 0x10000⟩] }
theorem hyp_DeliveriesAndPagesArrive_caches : b.core < 512 ∧ 0 < 0x10000 ∧ warm.cached warm.core warm.tag 0x40000000 = true ∧
    lukewarm.cached lukewarm.core lukewarm.tag 0x40000000 = false ∧ lukewarm.cached (512 + lukewarm.core / 8) lukewarm.tag 0x40000000 = true ∧
    b.cached b.core b.tag 0x40000000 = false ∧ b.cached (512 + b.core / 8) b.tag 0x40000000 = false ∧
    ¬ 256 < (b.tlb.filter fun x => x.cache = b.core).length ∧ ¬ 4096 < (b.tlb.filter fun x => x.cache = 512 + b.core / 8).length := by
  decide +kernel

/-- R72: a page not seen before enters the caches of its core and its cluster, and its next look-up changes nothing; R75: an
invalidation of it empties them. -/
theorem test_lookUp : (b.lookUp (0x40000000, 0x10000) 0).tlb = [⟨512, 1, 0x40000000, 0x10000⟩, ⟨0, 1, 0x40000000, 0x10000⟩] ∧
    (warm.lookUp (0x40000000, 0x10000) 0).tlb = warm.tlb ∧ (warm.dropTlb 1 0x40000000 64).tlb = [] ∧
    (warm.dropTlb 1 0x40010000 64).tlb = warm.tlb := by decide +kernel

/-- Where no context was allotted a frame and the table of tag 0 is empty, no page of device memory counts or migrates. -/
theorem quietPages_of {s : State} (hf : (s.contexts.all fun c => c.frames = []) = true) (ht : tableEntries s.mem (s.root 0) 512 = []) : quietPages s := by
  intro k p hp
  have ho : s.frameOwner k = 0 := by
    unfold State.frameOwner
    have : (s.contexts.find? fun c => c.frames.any fun f => f.1 ≤ k && k < f.1 + f.2) = none := by
      refine List.find?_eq_none.2 fun c hc => ?_
      have hn := of_decide_eq_true ((List.all_eq_true.1 hf) c hc)
      simp [hn]
    rw [this]; rfl
  have hn : pagesOf s.mem k 4 0 (s.root 0) 0 = [] := by
    unfold pagesOf
    rw [if_neg (by decide), ht]
    rfl
  rw [State.pageOf, ho, State.pagesAt, hn] at hp
  exact absurd hp (by simp)

/-- One peer window of 0x100 bytes at 0x1000, to which module 7 may write, or only read. -/
def window (w : Bool) : State :=
  { b with partitions := [{ ownWindow with windows := [{ base := 0x1000, size := 0x100, key := 0x80000, writable := w, modules := [7] }] }] }
/-- The last byte of host memory and of both spaces; the window's last 4 bytes and 4 that reach out of it. -/
theorem hyp_WritesFromOutsideLandWhereTheySay : b.memOk ∧ (b.badLines = [] ∧ b.weak = []) ∧ quietPages b ∧ quietPages (window true) ∧ quietPages (window false) ∧
    clean b (lpddrKey (2 ^ 38 - 4)) 4 ∧ (2 ^ 38 - 4) + 4 ≤ 2 ^ 38 ∧ (2 * spaceSize - 4) + 4 ≤ 2 * spaceSize ∧ (window true).weak = [] ∧ (window false).weak = [] ∧
    (6 * spaceSize + b.sh.uid < 8 * spaceSize ∧ 2 * spaceSize ≤ 3 * spaceSize ∧ 3 * spaceSize < 4 * spaceSize) ∧ (window true).memOk ∧ (window false).stubs = [] ∧
    ([true, false].all fun w => ((window w).partitions.flatMap Partition.windows).map (fun x => (x.base, x.size, x.writable, x.modules)) = [(0x1000, 0x100, w, [7])]) = true ∧
    (window true).badLines = [] ∧ (0x10FC + 4 ≤ 0x1000 + 0x100 ∧ ¬ 0x10FD + 4 ≤ 0x1000 + 0x100) ∧
    (∃ h, b.sheaf b.sh.uid = some h ∧ decide (h.life = .live) = true) ∧ (lineMeta b.lines 0x90000).extractLsb' 16 12 = 0 ∧
    (let left := [(5, [2]), (6, [])]
     ([(5, [1, 2]), (6, [1])] : List (Nat × List Nat)).map (fun r => (r.1, r.2.filter (· ≠ 1))) = left) ∧
    ((b.fns[0]?).isSome && (b.fns[95]?).isSome) = true ∧
    (let s := { b with partitions := [part1] }.onFn 0 fun v => { v with enabled := true, parts := 1 }
     s.fnClusters 0 ≠ [] ∧ (s.fnClusters 0).Nodup ∧ ((s.fnClusters 0).all (· < 64)) = true) ∧
    (∃ v, (window true).part 0 = some v ∧ decide (v.waiting = []) = true) := by
  refine ⟨by unfold State.memOk; decide +kernel, by decide +kernel, quietPages_of (by decide +kernel) (by decide +kernel),
    quietPages_of (by decide +kernel) (by decide +kernel), quietPages_of (by decide +kernel) (by decide +kernel), by unfold clean; decide +kernel,
    by decide +kernel, by decide +kernel, by decide +kernel, by decide +kernel, by decide +kernel, by unfold State.memOk; decide +kernel, by decide +kernel,
    by decide +kernel, by decide +kernel, by decide +kernel, any_some (by decide +kernel), by decide +kernel, by decide +kernel, by decide +kernel, by decide +kernel,
    any_some (by decide +kernel)⟩

/-- A line with an error that its code corrects, of a die; a register with nothing dropped; a function's counters in three clusters, one of
which holds another function while its own lie in a shadow store. -/
theorem hyp_WritesFromOutsideLandWhereTheySay_more : keyDie 0x90000 = some 0 ∧ isSpad (spadKey 3 100) = true ∧
    (b.fns[0]?).any (fun v => v.trdrop = 0) = true ∧
    (let sh : Shadow := { fn := 0, cluster := 1, spill := [], groups := [], counters := Vector.replicate 16 7, newt := [] }
     let s : State := ({ b with partitions := [{ part1 with resident := some 3 }], saves := [sh] } : State).onFn 0 fun v => { v with enabled := true, parts := 1 }
     s.fnClusters 0 = [0, 1, 9] ∧ ((s.shadows 0).map Shadow.cluster ++ (s.fnClusters 0).filter (s.holdsCluster 0)).Nodup) ∧
    (window true).cutOff 0x80000 = false ∧ fMaj 0 ≠ 0x37 := by decide +kernel

/-! ### Engines, waits, traps, contexts -/

/-- An inbound batch 3 of one CPY of these requests, or of none. -/
def batch (r : List CopyReq) : Batch := Batch.of 3 0 none (if r = [] then [] else [{ sid := 5, reqs := r, held := [] }]) false CopyProg.zero 7 7 0
def copying (r : List CopyReq) : State :=
  { up fun h => { h with batches := [batch r] } with mem := words b.mem 0x50000 [0x1122334455667788] }
def fetchReq : CopyReq := { route := 0, size := 8, src := 0x50000, dst := spadKey 0 64 }
/-- A wait, with s4 and s6, at 100. -/
def waiting (i : Instr) (t : Option Nat) (x y : DWord) : State :=
  let s := (setS (setS b 4 x) 6 y).upd fun h => { h with wait := some { instr := i, token := t } }
  { s with gtc := 100, mem := words b.mem 0x50008 [99] }
theorem wakes_of {s : State} (h : (s.sh.life = .live && s.sh.parked = [] && !s.sh.saved && !s.sh.coreHalt && s.sh.replays = [] && !s.sh.resumed && !s.repeatable) = true) :
    wakes s := by
  simp only [Bool.and_eq_true, decide_eq_true_eq, Bool.not_eq_true'] at h
  obtain ⟨⟨⟨⟨⟨⟨h1, h2⟩, h3⟩, h4⟩, h5⟩, h6⟩, h7⟩ := h
  exact ⟨h1, h2, h3, h4, h5, h6, h7⟩

theorem batch_waits (r : List CopyReq) : (copying r).sh.batches = [batch r] := rfl

/-- The line of two CPYs with work left goes to the first, and with none left in it to the second. -/
theorem hyp_CopyWordsOpenAndCloseBatches_lines : [([fetchReq], 0), ([], 1)].all (fun p =>
    let x : Batch := Batch.of 3 0 none [{ sid := 5, reqs := p.1, held := [] }, { sid := 6, reqs := [fetchReq], held := [] }] false CopyProg.zero 7 7 0
    !(copying []).repeatable && !x.outbound && ((copying []).lineStep true false x).any fun y => y.2.prog.status = 0 &&
      (x.cpys[p.2]?).any fun c => c.reqs ≠ []) = true := by decide +kernel

/-- A paced group of one sheaf that has arrived, whose death is on its way, and one with a second sheaf that has not. -/
def pacedOne : State :=
  { b with tasks := b.tasks.map fun t => { t with lrec := { t.lrec with flags := 2 } }
           groups := b.groups.map fun g => { g with arrived := 1, step := 4 }
           deaths := b.groups.map Machine.Group.gid }
def pacedTwo : State := { pacedOne with peers := [{ b.sh with uid := 99, lsheaf := 1 }] }

/-- A loop under MCFG `c` on v32, whose operand lines carry format `code` and scale 127; the first element of both operands is `x`, four bytes. -/
def matrix (c : DWord) (code : BitVec 16) (x : Nat) : State :=
  let s := mx.upd fun h => { h with mcfg := c, regs := (h.regs.setS 21 0x200001000).setS 23 0x200001000 }
  let s := { s with mem := writeBytes (writeBytes s.mem (spadKey 0 0) (leBytes 4 x)) (spadKey 0 0x1000) (leBytes 4 x)
                    lines := (List.range 192).map fun j => (spadKey 0 (64 * j), 0x17F00 + code.setWidth 32) }
  match exec (.mloop 0 32 20 22) s with | .next t => t | _ => s
def kB (s : State) : Bool :=
  (s.sh.loops[0]?).any fun l => s.sh.life = .live && !s.sh.saved && !s.sh.coreHalt && s.badLines = [] && s.weak = [] && uncB s 4 && uncB s 5 && l.nextK < l.steps && !s.loopBlocked s.sh.uid l.d &&
    l.d + (if cfgAcc l.cfg = 1 then 32 else 16) ≤ 96 && (s.opLines l false).length = 32 && (s.opLines l true).length = 32 &&
    stepCheck l.cfg (FMode.of (l.mode.setWidth 64)).daz (scalesOf (s.opLines l false) ++ scalesOf (s.opLines l true)) (s.opLines l false ++ s.opLines l true) = none
theorem kB_ready {s : State} (h : kB s = true) : ∃ l, kReady s 0 l (s.opLines l false) (s.opLines l true) := by
  obtain ⟨l, hl, h⟩ := any_some h
  simp only [Bool.and_eq_true, decide_eq_true_eq, Bool.not_eq_true'] at h
  obtain ⟨⟨⟨⟨⟨⟨⟨⟨⟨⟨⟨⟨h1, h2⟩, h3⟩, h4⟩, hw⟩, h5⟩, hb⟩, h6⟩, h7⟩, h8⟩, h9⟩, h10⟩, h11⟩ := h
  exact ⟨l, hl, h1, h2, h3, h4, hw, uncB_uncounted h5, uncB_uncounted hb, h6, h7, h8, rfl, rfl, h9, h10, h11⟩

/-- That loop with no K-step left, and behind an older write to its operands. -/
def loopOver : State := (matrix 0 2 0).upd fun h => { h with loops := h.loops.map fun l => { l with nextK := l.steps } }
def loopHeld : State :=
  { matrix 0 2 0 with scoreboard := { core := 0, lo := 0, hi := 64, kind := .write, loop := false, sheaf := b.sh.uid, owner := 3 } :: (matrix 0 2 0).scoreboard }

/-- Sleeps at their time and one before it, a promise in the past and one to come, a signal word of 99 under every comparison. -/
theorem hyp_EnginesAndWaitsGoOn :
    ([[], [fetchReq]].all fun r => let s := copying r; (s.group s.sh.group).any (fun g => !g.saved) && s.sh.life = .live && !s.repeatable && !s.lrec.flags.getLsbD 3 &&
      s.sh.buf = [] && s.badLines = [] && s.weak = [] && s.parking = [] && !s.copyBlocked 5 && uncB s 6 && uncB s 7 && uncB s 8 && s.sh.batches = [batch r] &&
      !(batch r).outbound && (batch r).prog.paused = none && (batch r).ring = none && (batch r).prog.status = 0 &&
      (batch r).cpys = (if r = [] then [] else [{ sid := 5, reqs := r, held := [] }])) = true ∧
    ((copying []).memOk ∧ (copying [fetchReq]).memOk) ∧
    (∃ m, (copying [fetchReq]).xlat (copying [fetchReq]).tag 0x50000 .copySrc = .ok m ∧ (!m.ce && ((copying [fetchReq]).reach 1 false m.key).isSome) = true) ∧
    wakes (waiting (.sleep 4) (some 100) 0 0) ∧ (waiting (.sleep 4) (some 100) 0 0).gtc.toNat = 100 ∧
    (wakes (waiting (.sleepb 4 true) none 90 0) ∧ promiseTime 100 90 ≤ 100 ∧ (waiting (.sleepb 4 true) none 90 0).sh.eventDone 90 true = true ∧
      ¬ promiseTime 100 101 ≤ 100) ∧
    (∃ q, (waiting (.waitsig 4 0 0 0 6) none 0x50008 99).signalPlan .load 0 4 = .ok q ∧ (q.sites.head?.any fun x => x.key = 0x50008) = true) ∧
    (readLE (waiting (.waitsig 4 0 0 0 6) none 0x50008 99).mem 0x50008 8 = 99 ∧ signalHolds 0 99 99 ∧ signalHolds 1 99 99 ∧ ¬ signalHolds 2 99 99 ∧ ¬ signalHolds 0 99 100) ∧
    (∃ l, (matrix 0 2 0).sh.loops[0]? = some l ∧ (l.nextK < l.steps && !(matrix 0 2 0).loopBlocked (matrix 0 2 0).sh.uid l.d && cfgAcc l.cfg ≠ 2 && l.d + accSize l.cfg ≤ 96 &&
      stepCheck l.cfg (FMode.of (l.mode.setWidth 64)).daz [] ((matrix 0 2 0).opLines l false ++ (matrix 0 2 0).opLines l true) = none) = true) ∧
    (∃ l, loopOver.sh.loops[0]? = some l ∧ (l.steps ≤ l.nextK && l.mode.extractLsb' 8 5 = 0 && l.cvt = [] && loopOver.sh.life = .live && !loopOver.sh.saved &&
      !loopOver.sh.coreHalt && loopOver.badLines = [] && loopOver.weak = [] && uncB loopOver 4) = true) ∧
    (∃ l, loopHeld.sh.loops[0]? = some l ∧ (l.nextK < l.steps && loopHeld.loopBlocked loopHeld.sh.uid l.d) = true) ∧
    (∃ g, pacedOne.group b.sh.group = some g ∧ (pacedOne.canAdvance g && pacedOne.deaths.contains g.gid && g.core / 8 = 0 && (pacedOne.task g.task).any fun k => !k.lrec.flags.getLsbD 0) = true) ∧
    (pacedOne.deaths.contains 7777) = false ∧
    (∃ g, pacedTwo.group b.sh.group = some g ∧ (!g.arrived.getLsbD 1 && pacedTwo.sheaves.any fun h => h.group = g.gid && h.life = .live && h.lsheaf = 1) = true) := by
  refine ⟨by decide +kernel, ⟨by unfold State.memOk; decide +kernel, by unfold State.memOk; decide +kernel⟩, mapsB_map (by decide +kernel),
    wakes_of (by decide +kernel), by decide +kernel, ⟨wakes_of (by decide +kernel), by decide +kernel, by decide +kernel, by decide +kernel⟩,
    okB_plan (by decide +kernel), ?_, any_some (by decide +kernel), any_some (by decide +kernel), any_some (by decide +kernel), any_some (by decide +kernel),
    by decide +kernel, any_some (by decide +kernel)⟩
  unfold signalHolds
  decide +kernel

/-- A SLEEPB at its time whose batch is not done: as it becomes late, once it is late, and where lateness traps; a paced group that may advance,
with groups that hold it back: a dependence that has not finished the step, a dependent two steps behind a buffer of two slots, and a mate the
skew limit binds it to. -/
def lateAt (tk : Option Nat) (m : DWord) : State := (waiting (.sleepb 4 true) tk (0x0300000000000000 + 90) 0).upd fun h =>
  { h with batches := [batch [fetchReq]], trbase := 0x8000000000000009, regs := { h.regs with mode := m } }
def behind (own other skew : Nat) (deps : List Int) (out : Bool) : State :=
  { paced with groups := paced.groups.map (fun g => { g with step := if g.gid = 77 then other else own, arrived := 1
                                                             tiles := g.tiles.map fun t => { t with out := out } })
               tasks := paced.tasks.map fun t => { t with lrec := { t.lrec with deps := deps, skew := skew } } }
/-- R404's condition, computed. -/
def advB (s : State) (g : Machine.Group) : Bool :=
  let goes := fun (q : Machine.Group) => !s.groupExited q && !q.dead
  !g.freed && ((s.mates g).all fun q => !q.saved) && decide (g.arrived ≠ 0) &&
  (s.sheaves.all fun h => !decide (h.group = g.gid) || !decide (h.life = .live) || g.arrived.getLsbD h.lsheaf.toNat) &&
  ((s.dependences g).all fun q => match q.deathStep with
    | some d => decide (g.step < d)
    | none => decide (g.step < q.step ∨ s.groupExited q = true ∧ q.dead = false ∧ g.step ≤ q.step)) &&
  (g.tiles.all fun b => !b.out || (s.dependents g).all fun q => !goes q || decide (g.step + 2 ≤ q.step + b.count)) &&
  (let k : Nat := ((s.task g.task).map fun t => t.lrec.skew).getD 0
   decide (k = 0) || (s.mates g).all fun q => !goes q || decide (g.step + 1 ≤ q.step + k))

theorem advB_iff (s : State) (g : Machine.Group) : advB s g = true ↔ mayAdvance s g := by
  have dep : ∀ q : Machine.Group, (match q.deathStep with
      | some d => decide (g.step < d)
      | none => decide (g.step < q.step ∨ s.groupExited q = true ∧ q.dead = false ∧ g.step ≤ q.step)) = true ↔
    (match q.deathStep with | some d => g.step < d | none => g.step < q.step ∨ s.groupExited q = true ∧ q.dead = false ∧ g.step ≤ q.step) := by
    intro q; split <;> simp
  have or_imp : ∀ (a : Bool) (p : Prop), (a = false ∨ p) ↔ (a = true → p) := by intro a p; cases a <;> simp
  simp only [advB, mayAdvance, Bool.and_eq_true, List.all_eq_true, dep, Bool.or_eq_true, Bool.not_eq_true', decide_eq_true_eq,
    decide_eq_false_iff_not, or_imp, Bool.and_eq_false_iff, and_assoc]
  constructor
  · rintro ⟨h1, h2, h3, h4, h5, h6, h7⟩
    refine ⟨h1, h2, h3, fun h hh e l => ?_, h5, fun b hb o q hq go => ?_, fun k q hq go => ?_⟩
    · rcases h4 h hh with (h | h) | h
      · exact absurd e h
      · exact absurd l h
      · exact h
    · exact (h6 b hb o q hq).resolve_left (by simp [go.1, go.2])
    · exact ((h7.resolve_left k) q hq).resolve_left (by simp [go.1, go.2])
  · rintro ⟨h1, h2, h3, h4, h5, h6, h7⟩
    refine ⟨h1, h2, h3, fun h hh => ?_, h5, fun b hb o q hq => ?_, ?_⟩
    · by_cases e : h.group = g.gid
      · by_cases l : h.life = .live
        · exact .inr (h4 h hh e l)
        · exact .inl (.inr l)
      · exact .inl (.inl e)
    · by_cases go : s.groupExited q = false ∧ q.dead = false
      · exact .inr (h6 b hb o q hq go)
      · exact .inl (by rcases hd : q.dead <;> rcases he : s.groupExited q <;> simp_all)
    · by_cases k : ((s.task g.task).map fun t => t.lrec.skew).getD 0 = 0
      · exact .inl k
      · refine .inr fun q hq => ?_
        by_cases go : s.groupExited q = false ∧ q.dead = false
        · exact .inr (h7 k q hq go)
        · exact .inl (by rcases hd : q.dead <;> rcases he : s.groupExited q <;> simp_all)

/-- The group of the sheaf may advance, or may not. -/
theorem adv_of {s : State} (h : (s.group b.sh.group).any (advB s) = true) : ∃ g, s.group b.sh.group = some g ∧ mayAdvance s g := by
  obtain ⟨g, hg, h⟩ := any_some h
  exact ⟨g, hg, (advB_iff s g).1 h⟩
theorem not_adv_of {s : State} (h : (s.group b.sh.group).any (fun g => !advB s g) = true) : ∃ g, s.group b.sh.group = some g ∧ ¬ mayAdvance s g := by
  obtain ⟨g, hg, h⟩ := any_some h
  exact ⟨g, hg, fun m => by simp [(advB_iff s g).2 m] at h⟩

theorem hyp_EnginesAndWaitsGoOn_more :
    (wakes (lateAt none 0) ∧ wakes (lateAt (some 1) 0) ∧ wakes (lateAt none 0x20) ∧ canTrap (lateAt none 0x20)) ∧
    ((lateAt none 0).sh.eventDone ((lateAt none 0).sh.rd.getS 4) true = false ∧ promiseTime (lateAt none 0).gtc ((lateAt none 0).sh.rd.getS 4) ≤ 100) ∧
    ((lateAt none 0x20).sh.rd.mode.getLsbD 5 && !(lateAt none 0x20).sh.latch.more && !(lateAt none 0x20).sh.mid) = true ∧
    (∃ g, pacedOne.group b.sh.group = some g ∧ mayAdvance pacedOne g) ∧
    (∃ g, (behind 2 2 0 [1, -1] false).group b.sh.group = some g ∧ ¬ mayAdvance (behind 2 2 0 [1, -1] false) g) ∧
    (∃ g, (behind 2 1 0 [-1] true).group b.sh.group = some g ∧ ¬ mayAdvance (behind 2 1 0 [-1] true) g) ∧
    (∃ g, (behind 2 1 1 [] false).group b.sh.group = some g ∧ ¬ mayAdvance (behind 2 1 1 [] false) g) := by
  refine ⟨⟨wakes_of (by decide +kernel), wakes_of (by decide +kernel), wakes_of (by decide +kernel), by unfold canTrap; decide +kernel⟩,
    by decide +kernel, by decide +kernel, adv_of (by decide +kernel), not_adv_of (by decide +kernel), not_adv_of (by decide +kernel), not_adv_of (by decide +kernel)⟩

/-- After the loop's first K-step. -/
def stepped (s : State) : State := match execMatrixKstep s.sh.uid 0 s with | .next t => t | _ => s
/-- Latches of accumulator v32 with the scales of the next lines. -/
def latchB (s : State) : Bool := (s.sh.loops[0]?).any fun l => cfgAcc l.cfg = 2 && l.nextK = 1 &&
  s.sh.latches.toList.any (fun x => x.valid && x.vd = l.d) && s.sh.latches.toList.all fun x => !x.valid || x.vd ≠ l.d ||
    (x.rows = scalesOf (s.opLines l false) && x.cols = scalesOf (s.opLines l true))

/-- Loops of every accumulator class; with a first element of −1 the best term of element (0, 0) under min-plus is −2. -/
theorem hyp_KStepsApplyTheirSemiring :
    (∀ p ∈ [(0x34, 0x20, 0xFF), (0x20, 0x10, 0x7F80), (0, 2, 0x3F800000), (1, 2, 0xBF800000)], ∃ l, kReady (matrix p.1 p.2.1 p.2.2) 0 l
      ((matrix p.1 p.2.1 p.2.2).opLines l false) ((matrix p.1 p.2.1 p.2.2).opLines l true)) ∧
    (latchB (stepped (matrix 0x20 0x10 0x7F80)) && kB (stepped (matrix 0x20 0x10 0x7F80))) = true ∧
    (∃ l, (matrix 1 2 0xBF800000).sh.loops[0]? = some l ∧
      let a := stepRow ((matrix 1 2 0xBF800000).opLines l false) 0
      let c := stepRow ((matrix 1 2 0xBF800000).opLines l true) 0
      (cfgAcc l.cfg = 0 && cfgSemi l.cfg = 1 && !(FMode.of (l.mode.setWidth 64)).daz && a.scale = 127 && c.scale = 127 && mCount a = 16 &&
        (List.range 16).all (fun e => !(mFmt a).isNaN (mEnc a e) && !(mFmt a).isInf (mEnc a e) && mEnc a e = (if e = 0 then 0xBF800000 else 0) &&
          mEnc c e = mEnc a e) && elemC (matrix 1 2 0xBF800000) l 0 0 = 0) = true) := by
  refine ⟨?_, by decide +kernel, any_some (by decide +kernel)⟩
  intro p hp
  have h : ([(0x34, 0x20, 0xFF), (0x20, 0x10, 0x7F80), (0, 2, 0x3F800000), (1, 2, 0xBF800000)].all fun p => kB (matrix p.1 p.2.1 p.2.2)) = true := by
    decide +kernel
  exact kB_ready ((List.all_eq_true.1 h) p hp)

/-- A trap that waits for its loads, one at a boundary, a debug halt. -/
def late1 : PendTrap := { kind := .async, cause := .prot, pc := none, mask := 77, aux := 5 }
def enters : State := tr.upd fun h => { h with entering := some (late1, 3, 4) }
/-- Scopes 1 and 2 below the root, this much of 2; a second sheaf in scope 2; a queue of function 0 with a held wait; a barrier; a deadlock count. -/
def ends (l : ScopeLife) (bar : Barrier) (dl : Nat) : State :=
  let mk := fun (id parent : BitVec 16) (d : Nat) (l : ScopeLife) => { Scope.root with id := id, parent := parent, depth := d, life := l }
  let s := queued [0]
  { s with peers := [{ b.sh with uid := 99, scope := 2 }]
           held := [{ command := heldCmd, signal := 0, value := 0, cond := 0 }]
           contexts := s.contexts.map (fun c => { c with diag := 0x70000, deadlock := dl, scopes := [Scope.root, mk 1 0 1 .live, mk 2 1 2 l] })
           groups := s.groups.map fun g => { g with barriers := g.barriers.set 2 bar } }
def barAt (arr t : Nat) : Barrier := { live := true, canc := false, exp := 2, arr := arr, phase := 0, set := 1, timer := some t }
def plainEnds : State := ends .live (barAt 1 3) 0

theorem hyp_TrapsAndContextsEnd_more : enters.sh.replays = [] ∧ plainEnds.badLines = [] ∧ plainEnds.weak = [] := by decide +kernel
/-- A barrier's timer at its limit and one before it, a barrier none has reached, the deadlock count at its limit and one before it. -/
theorem hyp_TrapsAndContextsEnd :
    (enters.sh.life = .live && !enters.sh.saved && !enters.sh.coreHalt && !enters.sh.hnd && enters.sh.loads = [] && enters.sh.loops = [] &&
      enters.sh.trbase.getLsbD 63 && enters.legalTarget enters.sh (enters.sh.trbase.extractLsb' 0 32).toNat && late1.cause ≠ .bkpt &&
      enters.sh.entering = some (late1, 3, 4)) = true ∧
    canTrap { (tr.upd fun h => { h with pend := [late1] }) with sh := { (tr.upd fun h => { h with pend := [late1] }).sh with pend := [] } } ∧
    (let s := tr.upd fun h => { h with pend := [late1] }
     (s.sh.entering = none && s.sh.atBoundary && late1.kind = .async) = true) ∧ alone tr tr.sh.uid ∧ (up fun h => { h with dbgHalt := true }).sh.dbgHalt = true ∧
    (∃ c, plainEnds.context 1 = some c ∧ (!c.ended && c.fn < 96 && c.queues = [0] && c.under 0 2 && c.diag ≠ 0 &&
      (c.scope 0).any (fun x => x.life = .live) && plainEnds.sheaves.any fun h => h.life = .live && plainEnds.tagOf h = 1) = true) ∧
    (∃ c, ({ b with contexts := [{ bootContext with tag := 5, ended := true }] } : State).context 5 = some c ∧ c.ended = true) ∧ plainEnds.memOk ∧
    (∃ m, plainEnds.xlat 1 0x70000 .load = .ok m ∧ decide (m.key = 0x70000) = true) ∧ (plainEnds.fns[0]?).any (fun v => v.trace ≠ .recording) = true ∧
    ([(1, 2 ^ 26), (1, 2 ^ 26 - 1), (0, 2 ^ 26)].all fun p => let s := ends .live (barAt p.1 p.2) 0
      (s.group b.sh.group).any fun g => g.barriers[2]? = some (barAt p.1 p.2) && (s.task g.task).any fun k => k.lrec.barTimeout = 0) = true ∧
    ([2 ^ 24, 2 ^ 24 - 1].all fun d => ((ends .live (barAt 0 0) d).context 1).any fun c => c.deadlock = d) = true ∧
    (let s := ends .cancelled (barAt 1 3) 0
     (∃ c, s.context 1 = some c ∧ ((s.sheaf 99).any (fun h => s.tagOf h = 1 && c.cancelled h.scope && h.life = .live && (s.group h.group).any fun g =>
       (g.barriers[2]?).any fun x => x.live && x.exp ≠ 0) && !c.cancelled b.sh.scope && (c.scope 2).any (fun x => x.life ≠ .live) && (c.scope 1).any fun x => x.life = .live) = true) ∧
     (s.sheaves.all fun h => (s.taskOf h).any Machine.Task.repeatable = false) = true) := by
  refine ⟨by decide +kernel, by unfold canTrap; decide +kernel, by decide +kernel, ⟨rfl, by decide +kernel⟩, by decide +kernel, any_some (by decide +kernel),
    ⟨_, rfl, rfl⟩, by unfold State.memOk; decide +kernel, mapsB_map (by decide +kernel), by decide +kernel, by decide +kernel, by decide +kernel,
    any_some (by decide +kernel), by decide +kernel⟩

/-! ### Tasks -/

def node1 : NodeEntry := { fn := 0, ver := 0, budget := 16, prio := 0, count := 2, words := 3, timer := 100, spad := 0, entry := 0 }
/-- A task with this many nodes, and a cancelled scope 1. -/
def graph (n : Nat) (bins : List Bin) : State :=
  let s : State := { b with gtc := 1000, bins := bins, tasks := b.tasks.map (fun t => { t with nodes := List.replicate n node1, cmdHost := true, cmdAddr := 0x1000 }) }
  { s with contexts := s.contexts.map fun c => { c with scopes := [Scope.root, { Scope.root with id := 1, depth := 1, life := .cancelled }] } }
/-- A bin of node 1 with one set from `t` on. -/
def binFrom (t : Nat) : List Bin := [{ die := 0, task := b.sh.task, node := 1, sets := [{ scope := 0, records := [[1]], first := t, seq := 3, number := 0 }], closed := [], waiting := [] }]
/-- No sheaf, group or record left. -/
def quiet (n : Nat) (smp : Option EndSample) : State :=
  let s := graph n []
  { s with sh := { s.sh with life := .exited }, groups := s.groups.map (fun g => { g with freed := true })
           tasks := s.tasks.map fun t => { t with sent := 4, recv := 4, sample := smp } }
/-- A counter of this many, with this many words. -/
def counter (n ws : Nat) : State := { graph 2 [] with mem := words b.mem 0x50000 [n + 2 ^ 32 + ws * 2 ^ 48, 5, 6, 7] }
/-- A repeatable sheaf of 16384 retired words, its quantum, and one whose quantum is over. -/
def rounds (ended : Bool) : State :=
  let s := up fun h => { h with retired := h.quant.toNat, quantumDone := ended, buf := if ended then [.bytes none 0x70000 [1, 2, 0, 4] false ⟨0, 0, 0⟩] else [] }
  { s with tasks := s.tasks.map fun t => { t with lrec := { t.lrec with flags := 1 } } }
/-- The same with nothing buffered. -/
def roundsEmpty : State := (rounds true).upd fun h => { h with buf := [] }
def kept : Checkpoint :=
  { task := { bootTask b.sh.task with round := 4, checkpointEvery := 3 }, sheaves := [{ b.sh with saved := true }]
    groups := b.groups.map (fun g => { g with saved := true }), bins := [], entries := [], cells := [], lines := [] }

/-- A record that joins the open set of its scope, in a node of three and in one of two, which it fills, and in a repeatable task. -/
theorem hyp_TasksRunToTheirEnd_joins : ([(3, (0 : BitVec 8)), (2, 0), (2, 1)].all fun p =>
    let s := graph 2 (binFrom 900)
    let s : State := { s with tasks := s.tasks.map fun t => { t with nodes := [node1, { node1 with count := p.1 }], lrec := { t.lrec with flags := p.2 } } }
    let k := s.bin 0 b.sh.task 1
    (s.task b.sh.task).any (fun t => (t.nodes[1]?).any (fun e => e.count = p.1 && k.sets.all fun x => x.records.length < min e.count 4096) &&
      t.lrec.total + t.binSheaves < 2 ^ 32 && (s.context t.tag).any fun c => !c.cancelled 0) &&
      k.sets.map (·.scope) = [0] && k.waiting = []) = true ∧
    ((counter 1 3).weak = [] ∧ (counter 1 3).badLines = []) ∧ (rounds true).cutOff 0x70000 = false ∧ (rounds true).weak = [] := by decide +kernel

theorem hyp_TasksRunToTheirEnd :
    (∃ k, (graph 2 []).task b.sh.task = some k ∧ ((k.nodes[1]?).any (fun e => e.count = 2) && ((graph 2 []).context k.tag).any fun c => c.cancelled 1 && !c.cancelled 0) = true) ∧
    (graph 2 []).bins = [] ∧
    ([900, 901].all fun t => ((graph 2 (binFrom t)).bin 0 b.sh.task 1).waiting = [] && ((graph 2 (binFrom t)).bin 0 b.sh.task 1).sets.map (·.first) = [t] &&
      (graph 2 (binFrom t)).gtc = 1000 && ((graph 2 (binFrom t)).task b.sh.task).any fun k => (k.nodes[1]?).any (fun e => e.timer = 100) && !k.lrec.flags.getLsbD 0 &&
        k.lrec.total + k.binSheaves < 2 ^ 32) = true ∧
    ([(0, 3), (1, 0), (1, 3), (2, 7)].all fun p => !(counter p.1 p.2).lrec.flags.getLsbD 3 && mapsB ((counter p.1 p.2).xlat 1 0x50000 .atomic) fun m =>
      readLE (counter p.1 p.2).mem m.key 4 = p.1 && readLE (counter p.1 p.2).mem (m.key + 6) 1 = p.2) = true ∧ ((counter 1 3).memOk ∧ (counter 2 7).memOk) ∧
    (∃ k, (graph 0 []).task b.sh.task = some k ∧ (!k.ended && k.nodes = [] && !(graph 0 []).taskQuiet k) = true) ∧
    (∃ k, (quiet 0 none).task b.sh.task = some k ∧ (!k.ended && k.nodes = [] && (quiet 0 none).taskQuiet k && k.lrec.signal = 0 && k.regions = [] && k.cmdHost &&
      ((quiet 0 none).context k.tag).any fun c => !c.ended) = true) ∧ (quiet 0 none).memOk ∧
    ([(501, true, 4), (500, true, 4), (500, false, 4), (500, true, 3)].all fun p => let e : EndSample := { gtc := p.1, idle := p.2.1, sent := p.2.2, recv := p.2.2 }
      ((quiet 1 (some e)).task b.sh.task).any fun k => !k.ended && k.nodes ≠ [] && k.sample = some e && (quiet 1 (some e)).taskQuiet k &&
        (quiet 1 (some e)).binsEmpty b.sh.task) = true ∧ ((quiet 1 none).task b.sh.task).any (fun k => k.sample = none) = true ∧
    ((rounds false).repeatable && (rounds false).sh.life = .live && (rounds false).sh.quant.toNat ≤ (rounds false).sh.retired) = true ∧
    (∃ k, (rounds false).task b.sh.task = some k ∧ (!(rounds false).roundReady k) = true) ∧
    (∃ k, (rounds true).task b.sh.task = some k ∧ ((rounds true).roundReady k && (rounds true).inOrder b.sh.task = [(rounds true).sh] && (rounds true).bins = [] &&
      (rounds true).sh.defer = [] && (rounds true).parking = [] && (rounds true).badLines = [] && (rounds true).weak = [] && k.gathered = []) = true) ∧
    (∃ k, roundsEmpty.task b.sh.task = some k ∧ (roundsEmpty.roundReady k && roundsEmpty.parking = [] && roundsEmpty.sheaves.all fun h => h.buf = [] && h.defer = []) = true) ∧
    (roundsEmpty.sheaves.map Sheaf.uid).Nodup ∧ (rounds true).memOk ∧
    (∃ k, (vers none).task b.sh.task = some k ∧ (k.lrec.flags.getLsbD 2 && !k.ended && !k.lrec.flags.getLsbD 0 && (vers none).sh.life = .live && (vers none).sh.budget = 96 &&
      (k.verSlot 0 0).any (·.budget = 16) && (k.verSlot 0 1).any (·.budget = 16)) = true) ∧
    ([499, 500].all fun g => let s : State := { vers (some ⟨1, 32, true⟩) with gtc := BitVec.ofNat 64 g, tasks := b.tasks.map fun t => { t with deadline := some 500 } }
      (s.task b.sh.task).any fun k => k.deadline = some 500 && s.sh.request.any XferReq.firmware && s.sh.life = .live && !s.askDrains b.sh.task &&
        ({ s with parking := (fenced none).parking.map fun w => { w with ops := [.atom 0x4000 0 1 (some 3) 0 0] } } : State).askDrains b.sh.task) = true ∧
    (let s : State := { b with checkpoints := [kept] }
     s.checkpoints = [kept] ∧ kept.task.tid = b.sh.task ∧ kept.task.round ≤ 6 ∧ 6 < kept.task.round + kept.task.checkpointEvery ∧ ¬ 7 < kept.task.round + kept.task.checkpointEvery ∧
       (kept.sheaves.all fun h => h.life ≠ .absent) = true ∧ (kept.groups.any fun g => g.saved && !g.freed) = true) := by
  refine ⟨any_some (by decide +kernel), by decide +kernel, by decide +kernel, by decide +kernel, ⟨by unfold State.memOk; decide +kernel, by unfold State.memOk; decide +kernel⟩,
    any_some (by decide +kernel), any_some (by decide +kernel), by unfold State.memOk; decide +kernel, by decide +kernel, by decide +kernel, by decide +kernel,
    any_some (by decide +kernel), any_some (by decide +kernel), any_some (by decide +kernel), by decide +kernel, by unfold State.memOk; decide +kernel,
    any_some (by decide +kernel), by decide +kernel,
    ⟨rfl, by decide +kernel, by decide +kernel, by decide +kernel, by decide +kernel, by decide +kernel, by decide +kernel⟩⟩

/-! ### The hub and the platform -/

/-- Participant j of collective 9, at the end of host memory's first page. -/
def member (j : Nat) (d : List Byte) : CollMember :=
  { index := j, fn := 0, tag := 1, dst := 0x70000 + 64 * j, host := true, addr := 0x1000 + 64 * j, signal := 0x70800 + 8 * j, value := 77, data := d }
def coll (kind n : Nat) : Collective :=
  { cid := 9, table := [0, 0], kind := kind, op := 0, count := 1, members := (List.range n).map fun j => member j [1, 2, 3, BitVec.ofNat 8 (255 - j)]
    abandoned := [], since := 0 }
/-- Function 0's collective ring of 16 entries, at head 7 and tail 9. -/
def ringAt (g : Bool) : State := b.onFn 0 fun v => { v with enabled := true, gated := g, cq := { cfg := 0x5004, head := 7, tail := 9, running := [] } }

theorem hyp_HubAnswersAndCombines :
    (let s : State := { b with firmware := { Firmware.zero with proenapin := some img, measured := [(1, 77), (16, 5)] } }
     s.firmware.proenapin.isSome = true ∧ (spdmAnswers s 96 0 1).length = 7 ∧ (spdmAnswers s 0 0 17).length = 7) ∧
    ((ringAt false).fns[0]?).any (fun v => v.enabled && !v.gated && 2 ^ ((v.cq.cfg.extractLsb' 8 4).toNat + 4) = 16) = true ∧
    ((ringAt true).fns[0]?).any VirtFn.gated = true ∧ b.latch.length < 16 ∧
    (([(23, false), (24, true), (9, false), (8, true)] : List (Nat × Bool)).all fun p => let n := ((BitVec.ofNat 32 p.1 : BitVec 32) - 7).toNat
      decide (16 < n ∨ n < 2) = p.2) = true ∧
    ([1, 2, 3].all fun k => let s : State := { b with collectives := [coll k 2] }
      (s.collectives.find? fun x => x.kind = k && x.cid = 9 && s.collReady x) = some (coll k 2)) = true ∧
    ([1, 2, 3].all fun k => let s : State := { b with collectives := [coll k 1] }
      s.collectives.all fun x => x.kind = k && x.cid = 9 && !s.collReady x) = true ∧
    (∀ k ∈ [1, 2, 3], gathered (coll k 2) fun j => [1, 2, 3, BitVec.ofNat 8 (255 - j)]) ∧
    (1 < (coll 1 1).table.length ∧ 1 ∉ (coll 1 1).abandoned ∧ ∀ m ∈ (coll 1 1).members, m.index ≠ 1) := by
  refine ⟨⟨by decide +kernel, by simp only [spdmAnswers, List.length_cons, List.length_nil], by simp only [spdmAnswers, List.length_cons, List.length_nil]⟩, by decide +kernel, by decide +kernel, by decide +kernel, by decide +kernel, by decide +kernel, by decide +kernel, ?_, by decide +kernel⟩
  intro k _
  refine ⟨rfl, Nat.le_refl 2, fun j hj => ⟨by simp [coll, atomSize], ?_⟩⟩
  obtain rfl | rfl : j = 0 ∨ j = 1 := by have : j < 2 := hj; omega
  all_goals rfl

/-- One participant of this module with the others of another or abandoned: its result lands in one line, or its signal where there is none. -/
def lone (kind : Nat) (sig : DWord) (gone : Bool) : State :=
  { b with collectives := [{ coll kind 1 with table := [0, if gone then 0 else 5], abandoned := if gone then [1] else [], members := [{ member 0 [1, 2, 3, 4] with signal := sig.toNat }] }] }
/-- The root of this broadcast was abandoned. -/
def rootless : State := { b with collectives := [{ coll 3 0 with abandoned := [0], members := [member 1 []] }] }
theorem hyp_HubAnswersAndCombines_lands :
    ([1, 2, 3].all fun k => [true, false].all fun g => let s := lone k 0 g
      s.collectives.any fun c => c.kind = k && s.collReady c && c.members.map (fun m => (m.host, m.signal, m.dst)) = [(true, 0, 0x70000)] &&
        (s.collResult c).getD [] ≠ [] && ((s.collResult c).getD []).length ≤ 64) = true ∧
    (rootless.collectives.any fun c => c.kind = 3 && rootless.collReady c && (rootless.collResult c).isNone && c.members.map (fun m => (m.host, m.signal)) = [(true, 0x70808)]) = true ∧
    ([0x70000, 0x70808].all fun a => reachB b 1 a .store fun m k => !m.wb && k + 64 ≤ 2 * spaceSize) = true ∧
    (b.iwrites = [] ∧ b.badLines = [] ∧ b.weak = [] ∧ b.parking = []) ∧ b.memOk ∧ rootB b 1 = true := by
  refine ⟨by decide +kernel, by decide +kernel, by decide +kernel, by decide +kernel, by unfold State.memOk; decide +kernel, by decide +kernel⟩

/-- A core whose one sheaf function 0 samples, and a ring with this many samples. -/
def sampled (cfg : DWord) (tail : Nat) : State :=
  { b with partitions := [part1] }.onFn 0 fun v => { v with enabled := true, parts := 1, res := 1, smpcfg := cfg, smptail := tail }
/-- Function 0's trace in this life with these conditions, at 100. -/
def traced (l : TraceState) (c d : DWord) : State :=
  { b with gtc := 100 }.onFn 0 fun v => { v with trring := 0x50001, trace := l, trstart := c, trstop := d }

/-- The sheaf of core 0 is alone there, and the ring is as `sampled` made it. -/
def sampledB (cfg : DWord) (tail : Nat) : Bool :=
  let s := sampled cfg tail
  ((s.partitions.find? fun p => p.clusters.contains (0 / 8)) = some part1) && (s.residents 0 0 = [b.sh]) &&
    (s.fns[0]?).any (fun v => v.smpcfg = cfg && v.smptail = tail)
/-- A condition holds at 100, and the armed and the recording trace carry it. -/
def tracedB (c : DWord) (h : Bool) : Bool :=
  (decide ((c.extractLsb' 60 4).toNat = 1 ∨ ((c.extractLsb' 60 4).toNat = 2 ∧ (c.extractLsb' 0 60).toNat ≤ 100)) == h) &&
    ((traced .armed c 0).fns[0]?).any (fun v => v.trace = .armed && v.trstart = c) &&
    ((traced .recording 0 c).fns[0]?).any (fun v => v.trace = .recording && v.trstop = c)

/-- A cluster idle for 100 µs, for one nanosecond less, and not idle; contexts that have all ended. -/
theorem hyp_PlatformFollowsItsConditions_more : ([(some 0, true), (some 1, false), (none, false)].all fun p =>
    let s := ({ b with gtc := 100000 } : State).onCluster 3 fun k => { k with powered := true, idle := p.1 }
    (s.clusters[3]?).any fun k => k.newt = [] && (k.idle.any fun x => x + 100000 ≤ s.gtc.toNat) = p.2) = true ∧
    (({ b with contexts := b.contexts.map fun c => { c with ended := true } } : State).contexts.all Context.ended) = true ∧ b.badLines = [] := by decide +kernel
/-- The last free sample and the full ring; conditions 1 and 2 with a time that is now and one later; gated and open apertures. -/
theorem hyp_PlatformFollowsItsConditions :
    (sampledB 0x50001 63 && sampledB 0x50001 64 && sampledB 0x50000 0) = true ∧ part1.resident = some 0 ∧
    ((0x50001 : DWord).extractLsb' 8 4).toNat + 6 = 6 ∧ (b.fns[0]?).any (fun v => !v.trring.getLsbD 0) = true ∧
    (tracedB 0x1000000000000000 true && tracedB 0x2000000000000064 true && tracedB 0x2000000000000065 false && tracedB 0 false) = true ∧
    (b.fns[0]?).any (fun v => v.cq.head = v.cq.tail && v.queues.toList.all fun q => q.head = q.tail && q.running = []) = true ∧
    ((queued [0]).fns[0]?).any (fun v => v.queues.toList.any fun q => q.head ≠ q.tail) = true ∧ b.latch = [] ∧
    (let s := { b with latch := [(0, .lqnotifyWrite 0 0 3)] }
     s.latch = [(0, .lqnotifyWrite 0 0 3)] ∧ (s.fns[0]?).isSome = true) ∧
    ([ClockStep.full, .threeQuarter, .half].all fun c => ((b.onDie 2 fun d => { d with clock := c }).dies[2]?).any fun v => v.clock = c) = true ∧
    (∃ g ∈ b.groups, g.freed = false ∧ g.saved = false ∧ g.core / 8 = 0 ∧ b.members g.gid ≠ []) ∧ (b.clusters[0]?).isSome = true ∧
    (let s := b.onCluster 3 fun k => { k with powered := true }
     (s.clusters[3]?).any (fun k => k.powered && k.newt = []) = true ∧ ¬ ∃ g ∈ s.groups, g.freed = false ∧ g.saved = false ∧ g.core / 8 = 3 ∧ s.members g.gid ≠ []) ∧
    alone0.contexts = [] ∧ b.contexts ≠ [] := by decide +kernel

/-! ### Steps and encodings -/

/-- The first word and its instruction at the program counter of a sheaf that may step. -/
def stepB (s : State) : Bool :=
  s.agenda = [] && s.runnable s.sh && s.sh.wait.isNone && !s.sh.mid && s.sh.nextPend.isNone && !s.atStop && s.sh.rep.isNone &&
    match s.packetFrom s.sh s.sh.pc.toNat (3 - s.sh.pc.toNat % 3) with
    | [] => false
    | w :: rest => okB (decode (w :: rest)) fun p => fVer w ≠ 3 && !p.1.ch && !s.midGroup s.sh s.sh.pc.toNat &&
        decide (s.sh.pc.toNat < s.codeWords s.sh) && (s.codeStop s.sh (packetAt s.sh.pc.toNat)).isNone &&
        !s.awaits [{ word := w, ext := if p.2 = 2 then rest.head? else none, addr := s.sh.pc.toNat, instr := .ok p.1.instr }]

/-- A CPY at the program counter of a core whose scoreboard is full; with a batch in the engine, or none. -/
def stalled (bs : List Batch) : State :=
  let s := State.reset.withFetchWord 32 ((encode 1 false (.cpy 0 0 2 20 22)).headD 0).toNat
  { s with scoreboard := List.replicate 16 { core := 0, lo := 0, hi := 64, kind := .write, loop := false, sheaf := 77, owner := 1 }
           sh := { s.sh with batches := bs } }

/-- It stalls before issue: it waits, in the group that has begun, and is neither a wait of its own nor the end of a quantum. -/
theorem hyp_StepsRunTheDecodedInstruction_stall : ([([], false), ([Batch.of 3 0 none [] false CopyProg.zero 7 7 0], true)].all fun p =>
    let s := stalled p.1
    let i := Instr.cpy 0 0 2 20 22
    let g : GWord := { word := (encode 1 false i).headD 0, ext := none, addr := 0, instr := .ok i }
    stepB s && s.engine.isSome = p.2 && !isWait i &&
      holds (exec i (((s.traceIssue 0).upd (·.begin [g])).load1 (g.latch false) [])) fun t =>
        t.sh.wait.isSome && t.sh.trapped.isNone && !t.sh.quantumDone) = true := by decide +kernel

/-- A plain word, one with its EXT, a branch, a word that ends the sheaf, one that waits. -/
theorem hyp_StepsRunTheDecodedInstruction : ([0x4002858C, 0x57800000, 0x54800003, 0x57840000, 0x578CA000].all fun w =>
    stepB (State.reset.withFetchWord 32 w)) = true ∧ stepB (State.reset.withFetchWord 64 (0x5A138604 + 2 ^ 29 + 0x5F852008 * 2 ^ 32)) = true ∧
    b.lrec.flags.getLsbD 3 = false ∧ b.sh.parked = [] ∧ b.sh.trapped = none := by decide +kernel
theorem hyp_StepsKeepMemoryCanonical : b.memOk ∧ holds (step b) (fun _ => true) = true := by unfold State.memOk; decide +kernel
/-- Words of every kind with their fields at the ends of their ranges. -/
theorem hyp_DecodingUndoesEncoding : ([.iadd 0 511 255, .ldg 3 4 4 2 (some { ofs := 64, ord := 0, scope := 0, hint := 0 }), .stg 0 4 4 4 none, .bra 0xFFFF,
    .cvtx 3 1 3 0 1, .rep 63 true true true 0, .halt] : List Instr).all Instr.wellFormed = true ∧ (1 : BitVec 2) ≠ 3 := by decide +kernel

end Sys2Proof.Tests
end

section
/-!
PROOFS. Lines of memory: what a write of bytes leaves in their metadata, and writes cut at the ends of lines (R85, R86, R90).
-/

namespace Sys2Proof.Machine

open Sys2Proof Sys2Proof.Rules

/-! ### Lines -/

/-- The bytes of a line lie in the same memory as its key (R85). -/
theorem isForeign_lineOf (k : Nat) : isForeign (lineOf k) = isForeign k := by
  have le (n : Nat) : n * spaceSize ≤ lineOf k ↔ n * spaceSize ≤ k := by
    simp only [lineOf, spaceSize]
    omega
  have lt : lineOf k < 4 * spaceSize ↔ k < 4 * spaceSize := by
    simp only [lineOf, spaceSize]
    omega
  simp only [isForeign, le, lt]

theorem isForeign_iff (k : Nat) : isForeign k = true ↔ (2 * spaceSize ≤ k ∧ k < 4 * spaceSize) ∨ 8 * spaceSize ≤ k := by
  simp only [isForeign, Bool.or_eq_true, Bool.and_eq_true, decide_eq_true_eq]

theorem isSpad_iff (k : Nat) : isSpad k = true ↔ 4 * spaceSize ≤ k ∧ k < 5 * spaceSize := by
  simp only [isSpad, Bool.and_eq_true, decide_eq_true_eq]

theorem isArray_iff (k : Nat) : isArray k = true ↔ 6 * spaceSize ≤ k ∧ k < 8 * spaceSize := by
  simp only [isArray, Bool.and_eq_true, decide_eq_true_eq]
  rfl

/-- Bytes below the tiers' end carry metadata (R85). -/
theorem isForeign_device {k : Nat} (h : k < 2 * spaceSize) : isForeign k = false := by
  rw [Bool.eq_false_iff, Ne, isForeign_iff]
  omega

theorem lineDesc_append (tag : BitVec 12) (d : BitVec 16) : ((0#4 ++ tag) ++ d).extractLsb' 0 16 = d :=
  BitVec.extractLsb'_append_eq_right

/-- OWNER stands in bits 16 up of a line's metadata (R85). -/
theorem owner_append (tag : BitVec 12) (d : BitVec 16) : ((0#4 ++ tag) ++ d).extractLsb' 16 12 = tag := by
  ext i hi
  rw [BitVec.getElem_extractLsb' hi, BitVec.getLsbD_append, if_neg (by omega), BitVec.getLsbD_append, if_pos (by omega),
    Nat.add_sub_cancel_left, BitVec.getLsbD_eq_getElem hi]

/-- Marking an owner keeps every line's descriptor (R86). -/
theorem lineDesc_setOwner (k j : Nat) (tag : BitVec 12) {l : List (Nat × BitVec 32)} (h : Memory.linesWf l = true) :
    lineDesc (setOwner l k tag) j = lineDesc l j := by
  unfold lineDesc
  rw [lineMeta_setOwner k j tag h]
  split
  · rfl
  · split
    · next e => rw [lineDesc_append, lineDesc, lineMeta, lineMeta, e]
    · rfl

/-- The first `m` lines from a key's on, marked one after another, as a write of bytes does (R86). -/
def markLines (l : List (Nat × BitVec 32)) (k : Nat) (tag : BitVec 12) (m : Nat) : List (Nat × BitVec 32) :=
  (List.range m).foldl (fun l i => setOwner l (lineOf k + 64 * i) tag) l

theorem markLines_succ (l : List (Nat × BitVec 32)) (k : Nat) (tag : BitVec 12) (m : Nat) :
    markLines l k tag (m + 1) = setOwner (markLines l k tag m) (lineOf k + 64 * m) tag := by
  rw [markLines, List.range_succ, List.foldl_append, List.foldl_cons, List.foldl_nil, markLines]

theorem markLines_wf (k m : Nat) (tag : BitVec 12) {l : List (Nat × BitVec 32)} (h : Memory.linesWf l = true) :
    Memory.linesWf (markLines l k tag m) = true :=
  linesFold_wf _ (fun _ _ hl => setOwner_wf _ _ hl) _ h

theorem lineDesc_markLines (k j m : Nat) (tag : BitVec 12) {l : List (Nat × BitVec 32)} (h : Memory.linesWf l = true) :
    lineDesc (markLines l k tag m) j = lineDesc l j := by
  induction m with
  | zero => rfl
  | succ m ih => rw [markLines_succ, lineDesc_setOwner _ j tag (markLines_wf k m tag h), ih]

/-- The marked lines, and no others, have the new owner (R86). -/
theorem lineMeta_markLines (k j m : Nat) (tag : BitVec 12) {l : List (Nat × BitVec 32)} (h : Memory.linesWf l = true) :
    lineMeta (markLines l k tag m) j =
      if isForeign j = false ∧ lineOf k ≤ j ∧ j < lineOf k + 64 * m then (0#4 ++ tag) ++ lineDesc l j else lineMeta l j := by
  induction m with
  | zero =>
    rw [if_neg (by omega)]
    rfl
  | succ m ih =>
    rw [markLines_succ, lineMeta_setOwner _ j tag (markLines_wf k m tag h), lineDesc_markLines k _ m tag h, ih]
    have line : lineOf j = lineOf (lineOf k + 64 * m) ↔ lineOf k + 64 * m ≤ j ∧ j < lineOf k + 64 * (m + 1) := by
      simp only [lineOf]
      omega
    by_cases e : lineOf j = lineOf (lineOf k + 64 * m)
    · have f : isForeign (lineOf k + 64 * m) = isForeign j := by rw [← isForeign_lineOf, ← e, isForeign_lineOf]
      have d : lineDesc l (lineOf k + 64 * m) = lineDesc l j := by simp only [lineDesc, lineMeta, e]
      have r := line.1 e
      rw [if_pos e, f, d]
      cases isForeign j
      · rw [if_neg Bool.false_ne_true, if_pos ⟨rfl, by omega⟩]
      · simp
    · have r : (lineOf k ≤ j ∧ j < lineOf k + 64 * m) ↔ (lineOf k ≤ j ∧ j < lineOf k + 64 * (m + 1)) := by
        have := mt line.2 e
        omega
      simp only [e, if_false, ite_self, r]

/-- A write of bytes marks the lines it touches (R86). -/
theorem State.putBytes_lines (s : State) (tag : BitVec 12) (k : Nat) {bs : List Byte} (hb : bs ≠ []) :
    (s.putBytes tag k bs).lines = markLines s.lines k tag ((k + bs.length - 1) / 64 - k / 64 + 1) := by
  simp only [State.putBytes, List.isEmpty_iff, hb, if_false, markLines]

/-- A write of bytes keeps every descriptor (R86). -/
theorem State.putBytes_lineDesc {s : State} (h : Memory.linesWf s.lines = true) (tag : BitVec 12) (k : Nat) (bs : List Byte) (j : Nat) :
    lineDesc (s.putBytes tag k bs).lines j = lineDesc s.lines j := by
  by_cases hb : bs = []
  · subst hb
    rfl
  · rw [State.putBytes_lines s tag k hb, lineDesc_markLines k j _ tag h]

/-- A write of bytes gives the lines it touches, and no others, to their new owner (R86). -/
theorem State.putBytes_lineMeta {s : State} (h : Memory.linesWf s.lines = true) (tag : BitVec 12) (k : Nat) {bs : List Byte}
    (hb : bs ≠ []) (j : Nat) : lineMeta (s.putBytes tag k bs).lines j =
      if isForeign j = false ∧ lineOf k ≤ j ∧ lineOf j < k + bs.length then (0#4 ++ tag) ++ lineDesc s.lines j
      else lineMeta s.lines j := by
  have n : bs.length ≠ 0 := by simpa using hb
  have touched : (lineOf k ≤ j ∧ j < lineOf k + 64 * ((k + bs.length - 1) / 64 - k / 64 + 1)) ↔
      (lineOf k ≤ j ∧ lineOf j < k + bs.length) := by
    simp only [lineOf]
    omega
  simp only [State.putBytes_lines s tag k hb, lineMeta_markLines k j _ tag h, touched]

theorem State.lineBad_false {s : State} {k : Nat} (h : lineOf k ∉ s.badLines) : s.lineBad k = false := by
  simpa [State.lineBad] using h

/-- Bytes that land in a line without error are written (R86, R89, R90). -/
theorem State.land_clean {s : State} (hw : s.weak = []) {k : Nat} (hb : lineOf k ∉ s.badLines) (tag : BitVec 12) (bs : List Byte)
    (whole : Bool) : s.land tag k bs whole = s.putBytes tag k bs := by
  have keep : s.badLines.filter (· ≠ lineOf k) = s.badLines := by
    rw [List.filter_eq_self]
    intro l hl
    exact decide_eq_true fun e => hb (e ▸ hl)
  simp only [State.land, State.correct_none hw, State.lineBad_false hb, Bool.false_and, Bool.false_eq_true, if_false, keep, ite_self]

/-! ### Bytes cut at the ends of lines -/

theorem writeBytes_take_drop (n k : Nat) (bs : List Byte) (m : List Host.Cell) :
    writeBytes (writeBytes m k (bs.take n)) (k + n) (bs.drop n) = writeBytes m k bs := by
  induction n generalizing k bs m with
  | zero => rfl
  | succ n ih =>
    cases bs with
    | nil => rfl
    | cons b r =>
      rw [List.take_succ_cons, List.drop_succ_cons, writeBytes, writeBytes, ← ih (k + 1) r, Nat.add_right_comm k 1 n,
        Nat.add_assoc]

/-- The pieces of a write, each for the owner of its own frame (R86). -/
def State.landPieces (s : State) (ps : List (Nat × List Byte)) : State :=
  ps.foldl (fun t p => t.putBytes (t.frameOwner p.1) p.1 p.2) s

theorem State.landPieces_cons (s : State) (p : Nat × List Byte) (ps : List (Nat × List Byte)) :
    s.landPieces (p :: ps) = (s.putBytes (s.frameOwner p.1) p.1 p.2).landPieces ps := rfl

theorem State.landPieces_frame (s : State) (ps : List (Nat × List Byte)) :
    ({ s.landPieces ps with mem := s.mem, lines := s.lines } : State) = s := by
  induction ps generalizing s with
  | nil => rfl
  | cons p ps ih =>
    have := congrArg (fun t => ({ t with mem := s.mem, lines := s.lines } : State)) (ih (s.putBytes (s.frameOwner p.1) p.1 p.2))
    exact this

theorem State.landPieces_lineDesc {s : State} (h : Memory.linesWf s.lines = true) (ps : List (Nat × List Byte)) (j : Nat) :
    lineDesc (s.landPieces ps).lines j = lineDesc s.lines j := by
  induction ps generalizing s with
  | nil => rfl
  | cons p ps ih =>
    rw [State.landPieces_cons, ih (putBytes_lines_wf s _ _ _ h), State.putBytes_lineDesc h]

theorem linePieces_succ {n k : Nat} {bs : List Byte} (h : bs ≠ []) :
    linePieces (n + 1) k bs = (k, bs.take (64 - k % 64)) :: linePieces n (k + (64 - k % 64)) (bs.drop (64 - k % 64)) := by
  rw [linePieces, if_neg h]

/-- Enough pieces hold every byte. -/
theorem State.landPieces_mem (s : State) {n k : Nat} {bs : List Byte} (hn : k % 64 + bs.length ≤ 64 * n) :
    (s.landPieces (linePieces n k bs)).mem = writeBytes s.mem k bs := by
  induction n generalizing s k bs with
  | zero =>
    obtain rfl : bs = [] := List.eq_nil_of_length_eq_zero (by omega)
    rfl
  | succ n ih =>
    by_cases h : bs = []
    · subst h
      rfl
    · rw [linePieces_succ h, State.landPieces_cons, ih _ (by rw [List.length_drop]; omega)]
      exact writeBytes_take_drop _ _ _ _

/-- Pieces from a line's start on leave the lines before it alone. -/
theorem State.landPieces_lineMeta_before {s : State} (hl : Memory.linesWf s.lines = true) (n : Nat) {k j : Nat}
    (hk : k % 64 = 0) (hj : j < k) (bs : List Byte) :
    lineMeta (s.landPieces (linePieces n k bs)).lines j = lineMeta s.lines j := by
  induction n generalizing s k bs with
  | zero => rfl
  | succ n ih =>
    by_cases h : bs = []
    · subst h
      rfl
    · have ht : bs.take (64 - k % 64) ≠ [] := by simp [h, hk]
      rw [linePieces_succ h, State.landPieces_cons, ih (putBytes_lines_wf s _ _ _ hl) (by omega) (by omega),
        State.putBytes_lineMeta hl _ _ ht, if_neg (by simp only [lineOf]; omega)]

/-- Every line that the pieces touch belongs to the owner of its first byte's frame (R86). -/
theorem State.landPieces_owner {s : State} (hl : Memory.linesWf s.lines = true) {n k : Nat} {bs : List Byte}
    (hn : k % 64 + bs.length ≤ 64 * n) (hd : k + bs.length ≤ 2 * spaceSize) {j : Nat} (hj : j < bs.length) :
    (lineMeta (s.landPieces (linePieces n k bs)).lines (k + j)).extractLsb' 16 12 = s.frameOwner (max k (lineOf (k + j))) := by
  induction n generalizing s k bs j with
  | zero => omega
  | succ n ih =>
    have h : bs ≠ [] := List.ne_nil_of_length_pos (by omega)
    have ht : bs.take (64 - k % 64) ≠ [] := by
      simp only [ne_eq, List.take_eq_nil_iff, h, or_false]
      omega
    have wf := putBytes_lines_wf s (s.frameOwner k) k (bs.take (64 - k % 64)) hl
    have hlen := List.length_take (i := 64 - k % 64) (l := bs)
    rw [linePieces_succ h, State.landPieces_cons]
    by_cases first : j < 64 - k % 64
    · have line : max k (lineOf (k + j)) = k := by simp only [lineOf]; omega
      rw [State.landPieces_lineMeta_before wf n (by omega) (by omega), State.putBytes_lineMeta hl _ _ ht,
        if_pos ⟨isForeign_device (by omega), by simp only [lineOf]; omega, by rw [hlen]; simp only [lineOf]; omega⟩,
        owner_append, line]
    · have later := ih wf (k := k + (64 - k % 64)) (bs := bs.drop (64 - k % 64)) (j := j - (64 - k % 64))
        (by rw [List.length_drop]; omega) (by rw [List.length_drop]; omega) (by rw [List.length_drop]; omega)
      have back : k + (64 - k % 64) + (j - (64 - k % 64)) = k + j := by omega
      have line : max (k + (64 - k % 64)) (lineOf (k + j)) = max k (lineOf (k + j)) := by simp only [lineOf]; omega
      rw [back, line] at later
      exact later

/-- The fuel of `writeOver` and `writeOutside` is enough. -/
theorem linePieces_fuel (k : Nat) (bs : List Byte) : k % 64 + bs.length ≤ 64 * (bs.length / 64 + 2) := by
  omega

/-- A piece begins at one of the bytes of the write. -/
theorem mem_linePieces {n k : Nat} {bs : List Byte} {p : Nat × List Byte} (h : p ∈ linePieces n k bs) :
    ∃ j < bs.length, p.1 = k + j := by
  induction n generalizing k bs with
  | zero => exact absurd h List.not_mem_nil
  | succ n ih =>
    by_cases e : bs = []
    · subst e
      exact absurd h List.not_mem_nil
    · rw [linePieces_succ e, List.mem_cons] at h
      obtain rfl | h := h
      · exact ⟨0, List.length_pos_iff.2 e, rfl⟩
      · obtain ⟨j, hj, hp⟩ := ih h
        rw [List.length_drop] at hj
        exact ⟨64 - k % 64 + j, by omega, by omega⟩

/-- Pieces that meet no error land (R89, R90). -/
theorem State.foldl_land {s : State} (hw : s.weak = []) {ps : List (Nat × List Byte)}
    (hb : ∀ p ∈ ps, lineOf p.1 ∉ s.badLines) :
    ps.foldl (fun t p => t.land (t.frameOwner p.1) p.1 p.2 (p.2.length = 64)) s = s.landPieces ps := by
  induction ps generalizing s with
  | nil => rfl
  | cons p ps ih =>
    rw [List.foldl_cons, State.land_clean hw (hb p List.mem_cons_self), State.landPieces_cons]
    exact ih (s := s.putBytes (s.frameOwner p.1) p.1 p.2) hw fun q hq => hb q (List.mem_cons_of_mem _ hq)

theorem clean_linePieces {s : State} {k : Nat} {bs : List Byte} (h : clean s k bs.length) (n : Nat) :
    ∀ p ∈ linePieces n k bs, lineOf p.1 ∉ s.badLines := by
  intro p hp
  obtain ⟨j, hj, e⟩ := mem_linePieces hp
  exact e ▸ h j hj

theorem State.writeOver_clean {s : State} (hw : s.weak = []) {k : Nat} {bs : List Byte} (hc : clean s k bs.length) :
    s.writeOver k bs = s.landPieces (linePieces (bs.length / 64 + 2) k bs) :=
  State.foldl_land hw (clean_linePieces hc _)

/-- Where no page counts or migrates, accesses from outside leave the state (R80, R83). -/
theorem State.touchOutside_quiet {s : State} (hw : s.weak = []) (hq : quietPages s) (ks : List Nat) : s.touchOutside ks = s := by
  have none : (ks.filterMap fun k => (s.pageOf k).bind fun m => if m.ce then some (s.frameOwner k, m.page) else none) = [] := by
    rw [List.filterMap_eq_nil_iff]
    intro k _
    cases hp : s.pageOf k with
    | none => rfl
    | some m => simp [(hq k m hp).1]
  simp only [State.touchOutside, none, State.correct_none hw]
  rfl

theorem State.writeOutside_clean {s : State} (hw : s.weak = []) (hq : quietPages s) {k : Nat} {bs : List Byte}
    (hc : clean s k bs.length) : s.writeOutside k bs = s.landPieces (linePieces (bs.length / 64 + 2) k bs) := by
  simp only [State.writeOutside, State.touchOutside_quiet hw hq, List.foldl_map]
  rw [← State.foldl_land hw (clean_linePieces hc _)]
  congr 1
  funext t p
  cases hp : s.pageOf p.1 with
  | none => rfl
  | some m => simp [(hq p.1 m hp).2]

/-- Bytes written line by line stand in memory, and no others change. -/
theorem State.landPieces_stored {s : State} (h : s.memOk) (k : Nat) (bs : List Byte) :
    stored s (s.landPieces (linePieces (bs.length / 64 + 2) k bs)) k bs := by
  have m := s.landPieces_mem (linePieces_fuel k bs)
  refine ⟨?_, fun j hj => ?_, State.landPieces_lineDesc h.2 _, s.landPieces_frame _⟩
  · rw [m, readBytes_writeBytes bs k h.1]
  · rw [m, readByte_writeBytes bs k j h.1, if_neg (by omega)]

theorem State.landPieces_ownedBy {s : State} (h : s.memOk) {k : Nat} {bs : List Byte} (hd : k + bs.length ≤ 2 * spaceSize) :
    ownedBy s (s.landPieces (linePieces (bs.length / 64 + 2) k bs)) k bs.length :=
  fun _ hj => State.landPieces_owner h.2 (linePieces_fuel k bs) hd hj

/-- A host or peer write lands, each line with the owner of its frame (R66, R86). -/
theorem State.writeOutside_lands {s : State} (h : s.memOk) (hw : s.weak = []) (hq : quietPages s) {k : Nat} {bs : List Byte}
    (hc : clean s k bs.length) : stored s (s.writeOutside k bs) k bs ∧
      (k + bs.length ≤ 2 * spaceSize → ownedBy s (s.writeOutside k bs) k bs.length) := by
  rw [State.writeOutside_clean hw hq hc]
  exact ⟨State.landPieces_stored h k bs, State.landPieces_ownedBy h⟩

end Sys2Proof.Machine
end

section
/-!
PROOFS. What a logged error, a cleared line and the end of a context leave (R89, R90, R447).
-/

namespace Sys2Proof.Machine

open Sys2Proof Sys2Proof.Rules

/-! ### Logged errors and cleared lines (R89, R90) -/

theorem State.logAt_weak (s : State) (die : Option Nat) (what : String) (addr syn : Nat) : (s.logAt die what addr syn).weak = s.weak :=
  have f := congrArg State.weak (s.logAt_frame die what addr syn)
  f

theorem State.logAt_mem (s : State) (die : Option Nat) (what : String) (addr syn : Nat) : (s.logAt die what addr syn).mem = s.mem :=
  have f := congrArg State.mem (s.logAt_frame die what addr syn)
  f

theorem State.logAt_badLines (s : State) (die : Option Nat) (what : String) (addr syn : Nat) :
    (s.logAt die what addr syn).badLines = s.badLines :=
  have f := congrArg State.badLines (s.logAt_frame die what addr syn)
  f

/-- What a log gains does not depend on the errors that are known (R89). -/
theorem State.logAt_dies_weak (s : State) (ws : List (Nat × Nat)) (die : Nat) (what : String) (addr syn : Nat) :
    (({ s with weak := ws } : State).logAt (some die) what addr syn).dies = (s.onDie die fun y => { y with errlog := y.errlog ++
      [{ gtc := s.gtc, what := what, addr := addr, syndrome := syn }] }).dies := by
  simp only [State.logAt, State.onDie]
  split <;> rfl

/-- A byte of a cleared range reads 0, every other as before (R90). -/
theorem State.readByte_clearRange (s : State) (tag : BitVec 12) (k len j : Nat) :
    readByte (s.clearRange tag k len).mem j = if k ≤ j ∧ j < k + len then 0 else readByte s.mem j :=
  readByte_dropRange s k len j

theorem lineOf_eq_iff (j k : Nat) : lineOf j = lineOf k ↔ lineOf k ≤ j ∧ j < lineOf k + 64 := by
  simp only [lineOf]
  omega

theorem State.readByte_clearLine (s : State) (k j : Nat) :
    readByte (s.clearLine k).mem j = if lineOf j = lineOf k then 0 else readByte s.mem j := by
  simp only [State.clearLine, State.logAt_mem, State.readByte_clearRange, lineOf_eq_iff]

theorem State.clearLine_badLines (s : State) (k : Nat) : lineOf k ∉ (s.clearLine k).badLines := by
  simp only [State.clearLine, State.logAt_badLines, State.clearRange, List.mem_filter, Bool.or_eq_true, decide_eq_true_eq]
  omega

/-- A line of no context in error is cleared (R90). -/
theorem State.containError_unowned {s : State} {k : Nat} (h : (lineMeta s.lines k).extractLsb' 16 12 = 0) :
    s.containError k = s.clearLine k := by
  have : s.liveOwner k = none := by simp [State.liveOwner, h]
  rw [State.containError, this]

/-! ### The end of a context stays (R447) -/

/-- Changing contexts, their tags kept, maps what is found. -/
theorem State.context_onContext (s : State) (n m : BitVec 12) {f : Context → Context} (hf : ∀ c, (f c).tag = c.tag) :
    (s.onContext n f).context m = (s.context m).map fun c => if c.tag = n then f c else c := by
  rw [State.context, State.onContext_contexts, List.find?_map]
  congr 2
  funext c
  simp only [Function.comp_apply]
  split <;> simp only [hf]

/-- A change that neither renames nor revives a context leaves it ended. -/
theorem hasEnded_onContext {s : State} {tag : BitVec 12} (h : hasEnded s tag) (n : BitVec 12) {f : Context → Context}
    (ht : ∀ c, (f c).tag = c.tag) (he : ∀ c, (f c).ended = c.ended) : hasEnded (s.onContext n f) tag := by
  intro x hx
  rw [State.context_onContext s n tag ht, Option.map_eq_some_iff] at hx
  obtain ⟨c, hc, rfl⟩ := hx
  have := h c hc
  split
  · rw [he, this]
  · exact this

theorem hasEnded_of_contexts {s t : State} (e : t.contexts = s.contexts) {tag : BitVec 12} (h : hasEnded s tag) : hasEnded t tag := by
  intro x hx
  rw [State.context, e] at hx
  exact h x hx

theorem Context.onUp_tag_ended (c : Context) (f : Scope → Scope) (n : Nat) (x : BitVec 16) :
    (c.onUp f n x).tag = c.tag ∧ (c.onUp f n x).ended = c.ended := by
  induction n generalizing c x with
  | zero => exact ⟨rfl, rfl⟩
  | succ n ih =>
    rw [Context.onUp]
    split
    · exact ⟨rfl, rfl⟩
    · split
      · exact ⟨rfl, rfl⟩
      · exact ih _ _

theorem hasEnded_countDropped {s : State} {tag : BitVec 12} (h : hasEnded s tag) (n : BitVec 12) (id : BitVec 16) (tid k : Nat) :
    hasEnded (s.countDropped n id tid k) tag :=
  hasEnded_onContext h n (fun c => (c.onUp_tag_ended _ _ _).1) (fun c => (c.onUp_tag_ended _ _ _).2)

theorem hasEnded_accepted {s : State} {tag : BitVec 12} (h : hasEnded s tag) (sender : Nat) (last : Bool) :
    hasEnded (s.accepted sender last) tag := by
  unfold State.accepted
  split
  · exact h
  · exact h

theorem hasEnded_foldl {β : Type} {tag : BitVec 12} {f : State → β → State} (hf : ∀ t b, hasEnded t tag → hasEnded (f t b) tag)
    (bs : List β) {s : State} (h : hasEnded s tag) : hasEnded (bs.foldl f s) tag :=
  List.foldlRecOn bs f h fun t ht b _ => hf t b ht

theorem hasEnded_ite {p : Prop} [Decidable p] {tag : BitVec 12} {s t : State} (hs : hasEnded s tag) (ht : hasEnded t tag) :
    hasEnded (if p then s else t) tag := by
  split
  · exact hs
  · exact ht

/-- A cancellation revives no context (R417). -/
theorem hasEnded_cancel {s : State} {tag : BitVec 12} (h : hasEnded s tag) (n : BitVec 12) (id : BitVec 16) :
    hasEnded (s.cancel n id) tag := by
  unfold State.cancel
  split
  · exact h
  · refine hasEnded_ite h (hasEnded_of_contexts (s := List.foldl _ _ _) rfl ?_)
    refine hasEnded_foldl (fun t k ht => hasEnded_countDropped ht _ _ _ _) _ ?_
    refine hasEnded_of_contexts (s := List.foldl _ _ _) rfl ?_
    refine hasEnded_foldl (fun t b ht => hasEnded_ite ?_ ht) _ (hasEnded_onContext h _ (fun _ => rfl) (fun _ => rfl))
    refine hasEnded_foldl (fun t x ht => hasEnded_ite (hasEnded_accepted (hasEnded_countDropped ht _ _ _ _) _ _) ht) _ ?_
    exact hasEnded_foldl (fun t x ht => hasEnded_ite (hasEnded_countDropped ht _ _ _ _) ht) _ ht

theorem hasEnded_ending (s : State) (tag : BitVec 12) :
    hasEnded (s.onContext tag fun c => { c with ended := true }) tag := by
  intro x hx
  rw [State.context_onContext s tag tag (f := fun c => { c with ended := true }) fun _ => rfl, Option.map_eq_some_iff] at hx
  obtain ⟨c, hc, rfl⟩ := hx
  have t : c.tag = tag := by simpa using List.find?_some hc
  rw [if_pos t]

/-- A context that is to end has ended (R447). -/
theorem State.endContext_hasEnded (s : State) (tag : BitVec 12) (cause : BitVec 8) (flags : Nat) (who : Option Sheaf) (pc : BitVec 32)
    (aux va : DWord) : hasEnded (s.endContext tag cause flags who pc aux va) tag := by
  unfold State.endContext State.endContextAt
  split
  · next none =>
    intro x hx
    rw [none] at hx
    cases hx
  · next c hc =>
    split
    · next ended =>
      intro x hx
      rw [hc, Option.some.injEq] at hx
      exact hx ▸ ended
    · exact hasEnded_of_contexts (s := State.cancel _ _ _) rfl (hasEnded_cancel (hasEnded_ending _ tag) tag 0)

end Sys2Proof.Machine
end

section
/-!
PROOFS. Atomics on numbers, and atomics that no core here issued (R129, R130, R132).
-/

namespace Sys2Proof.Machine

open Sys2Proof Sys2Proof.Rules

/-! ### Atomics of peers (R129, R130, R132) -/

theorem atomBytes_eq (op : BitVec 4) : atomBytes op = atomSize op := by
  simp only [atomBytes, atomSize, Bool.or_eq_true, decide_eq_true_eq, or_assoc]

theorem leNat_lt (bs : List Byte) : leNat bs < 256 ^ bs.length := by
  induction bs with
  | nil => exact Nat.one_pos
  | cons b r ih =>
    have := b.isLt
    rw [leNat, List.length_cons, pow_succ']
    omega

theorem readLE_lt (m : List Host.Cell) (k n : Nat) : readLE m k n < 256 ^ n := by
  have := leNat_lt (readBytes m k n)
  rwa [readBytes_length] at this

/-- The bits that the operand of an atomic holds (R129). -/
def atomOperandBits (op : BitVec 4) : Nat := if op = 11 then 128 else if op = 1 ∨ op = 10 ∨ op = 13 then 64 else 32

theorem extract_word (x : BitVec 128) : x.extractLsb' 0 32 = BitVec.ofNat 32 x.toNat := by
  apply BitVec.eq_of_toNat_eq
  rw [BitVec.extractLsb'_toNat, BitVec.toNat_ofNat, Nat.shiftRight_zero]

theorem extract_dword (x : BitVec 128) : x.extractLsb' 0 64 = BitVec.ofNat 64 x.toNat := by
  apply BitVec.eq_of_toNat_eq
  rw [BitVec.extractLsb'_toNat, BitVec.toNat_ofNat, Nat.shiftRight_zero]

theorem slt_ofNat (a b : Nat) : (BitVec.ofNat 32 a).slt (BitVec.ofNat 32 b) = decide (s32 a < s32 b) := rfl

theorem ult_ofNat {a b : Nat} (ha : a < 2 ^ 32) (hb : b < 2 ^ 32) :
    (BitVec.ofNat 32 a).ult (BitVec.ofNat 32 b) = decide (a < b) := by
  rw [BitVec.ult, BitVec.toNat_ofNat, BitVec.toNat_ofNat, Nat.mod_eq_of_lt ha, Nat.mod_eq_of_lt hb]

/-- A compare and swap on a number that fits its word (R130). -/
theorem ofNat_eq_ofNat_iff {w a : Nat} (ha : a < 2 ^ w) (b : Nat) : BitVec.ofNat w a = BitVec.ofNat w b ↔ a = b % 2 ^ w := by
  rw [← BitVec.toNat_inj, BitVec.toNat_ofNat, BitVec.toNat_ofNat, Nat.mod_eq_of_lt ha]

/-- The operations on 32-bit words with an operand of one register (R129, R130). -/
theorem atomNew_word {op : BitVec 4} {old : Nat} {x : BitVec 128} (ho : old < 2 ^ 32) (hx : x.toNat < 2 ^ 32)
    (hop : op ≠ 1 ∧ op ≠ 10 ∧ op ≠ 11 ∧ op ≠ 13) : atomNew op old x = atomRule op old x.toNat := by
  have o := Nat.mod_eq_of_lt ho
  have d := Nat.mod_eq_of_lt hx
  have ops : op = 0 ∨ op = 2 ∨ op = 3 ∨ op = 4 ∨ op = 5 ∨ op = 6 ∨ op = 7 ∨ op = 8 ∨ op = 9 ∨ op = 12 ∨ op = 14 ∨ op = 15 := by
    revert op
    decide
  have low : (x.extractLsb' 0 32).toNat = x.toNat := by rw [extract_word, BitVec.toNat_ofNat, d]
  have old' : (BitVec.ofNat 32 old).toNat = old := by rw [BitVec.toNat_ofNat, o]
  have slt : (BitVec.ofNat 32 old).slt (x.extractLsb' 0 32) = decide (s32 old < s32 x.toNat) := by rw [extract_word, slt_ofNat]
  have ult : (BitVec.ofNat 32 old).ult (x.extractLsb' 0 32) = decide (old < x.toNat) := by rw [extract_word, ult_ofNat ho hx]
  obtain rfl | rfl | rfl | rfl | rfl | rfl | rfl | rfl | rfl | rfl | rfl | rfl := ops
  · exact (BitVec.toNat_add _ _).trans (by rw [low, old']; rfl)
  · change (if (BitVec.ofNat 32 old).slt (x.extractLsb' 0 32) then BitVec.ofNat 32 old else x.extractLsb' 0 32).toNat = if _ then _ else _
    simp only [slt, apply_ite BitVec.toNat, low, old', decide_eq_true_eq]
  · change (if (BitVec.ofNat 32 old).slt (x.extractLsb' 0 32) then x.extractLsb' 0 32 else BitVec.ofNat 32 old).toNat = if _ then _ else _
    simp only [slt, apply_ite BitVec.toNat, low, old', decide_eq_true_eq]
  · change (if (BitVec.ofNat 32 old).ult (x.extractLsb' 0 32) then BitVec.ofNat 32 old else x.extractLsb' 0 32).toNat = min _ _
    simp only [ult, apply_ite BitVec.toNat, low, old', decide_eq_true_eq]
    split <;> omega
  · change (if (BitVec.ofNat 32 old).ult (x.extractLsb' 0 32) then x.extractLsb' 0 32 else BitVec.ofNat 32 old).toNat = max _ _
    simp only [ult, apply_ite BitVec.toNat, low, old', decide_eq_true_eq]
    split <;> omega
  · exact (BitVec.toNat_and _ _).trans (by rw [low, old']; rfl)
  · exact (BitVec.toNat_or _ _).trans (by rw [low, old']; rfl)
  · exact (BitVec.toNat_xor _ _).trans (by rw [low, old']; rfl)
  · exact low
  · exact congrArg (fun y => (f32.addSub FMode.atomic false old y).val) low
  · exact congrArg (fun y => (f32.minMax FMode.atomic false old y).val) low
  · exact congrArg (fun y => (f32.minMax FMode.atomic true old y).val) low

/-- The number that an atomic leaves, on numbers instead of words (R129, R130). -/
theorem atomNew_eq_atomRule (op : BitVec 4) {old : Nat} {x : BitVec 128} (ho : old < 256 ^ atomSize op)
    (hx : x.toNat < 2 ^ atomOperandBits op) : atomNew op old x = atomRule op old x.toNat := by
  by_cases wide : op = 1 ∨ op = 10 ∨ op = 11 ∨ op = 13
  · obtain rfl | rfl | rfl | rfl := wide
    · change (BitVec.ofNat 64 old + x.extractLsb' 0 64).toNat = (old + x.toNat) % 2 ^ 64
      simp [extract_dword]
    · change (if BitVec.ofNat 32 old = x.extractLsb' 0 32 then (x.extractLsb' 32 32).toNat else old) =
        if old = x.toNat % 2 ^ 32 then x.toNat / 2 ^ 32 else old
      have hi : (x.extractLsb' 32 32).toNat = x.toNat / 2 ^ 32 := by
        rw [BitVec.extractLsb'_toNat, Nat.shiftRight_eq_div_pow]
        exact Nat.mod_eq_of_lt (Nat.div_lt_of_lt_mul hx)
      simp only [extract_word, ofNat_eq_ofNat_iff (w := 32) ho, hi]
    · change (if BitVec.ofNat 64 old = x.extractLsb' 0 64 then (x.extractLsb' 64 64).toNat else old) =
        if old = x.toNat % 2 ^ 64 then x.toNat / 2 ^ 64 else old
      have hi : (x.extractLsb' 64 64).toNat = x.toNat / 2 ^ 64 := by
        rw [BitVec.extractLsb'_toNat, Nat.shiftRight_eq_div_pow]
        exact Nat.mod_eq_of_lt (Nat.div_lt_of_lt_mul hx)
      simp only [extract_dword, ofNat_eq_ofNat_iff (w := 64) ho, hi]
    · have d : (x.extractLsb' 0 64).toNat = x.toNat := by
        rw [extract_dword, BitVec.toNat_ofNat]
        exact Nat.mod_eq_of_lt hx
      exact congrArg (fun y => (f64.addSub FMode.atomic false old y).val) d
  · simp only [not_or] at wide
    obtain ⟨h1, h10, h11, h13⟩ := wide
    refine atomNew_word ?_ ?_ ⟨h1, h10, h11, h13⟩
    · rwa [atomSize, if_neg (by simp only [h1, h11, h13, or_self, not_false_eq_true])] at ho
    · rwa [atomOperandBits, if_neg h11, if_neg (by simp only [h1, h10, h13, or_self, not_false_eq_true])] at hx

/-- An atomic that no sheaf here issued and that meets no error is made (R132, R134). -/
theorem State.atomLands_clean {s : State} (hw : s.weak = []) {k : Nat} (hb : lineOf k ∉ s.badLines) (hc : s.cutOff k = false)
    (tag : BitVec 12) (uid : Nat) (op : BitVec 4) (x : BitVec 128) (lane : Nat) (w : Word) :
    s.atomLands tag uid none k op x none lane w =
      s.putBytes tag k (leBytes (atomBytes op) (atomNew op (readLE s.mem k (atomBytes op)) x)) := by
  simp only [State.atomLands, State.correct_none hw, hc, State.lineBad_false hb, Bool.false_eq_true, if_false, State.atomAt_eq]

/-- It leaves what the table of atomics says, and changes no other memory (R129, R130, R132). -/
theorem State.atomLands_rule {s : State} (hw : s.weak = []) {k : Nat} (hb : lineOf k ∉ s.badLines) (hc : s.cutOff k = false)
    (tag : BitVec 12) (uid : Nat) {op : BitVec 4} {x : BitVec 128} (hx : x.toNat < 2 ^ atomOperandBits op) (lane : Nat) (w : Word) :
    let t := s.atomLands tag uid none k op x none lane w
    ({ t with mem := s.mem, lines := s.lines } : State) = s ∧
      t.mem = writeBytes s.mem k (leBytes (atomSize op) (atomRule op (readLE s.mem k (atomSize op)) x.toNat)) := by
  dsimp only
  rw [State.atomLands_clean hw hb hc, atomBytes_eq, atomNew_eq_atomRule op (readLE_lt _ _ _) hx]
  exact ⟨rfl, rfl⟩

end Sys2Proof.Machine
end

section
/-!
PROOFS. What steps that change the registers of a function, a partition or the links leave (R7, R76, R485, R491-R495).
-/

namespace Sys2Proof.Machine

open Sys2Proof Sys2Proof.Rules

/-! ### A failed link (R485) -/

/-- The routes that a failed port leaves (R485; LOG 31). -/
def State.routesWithout (s : State) (port : Nat) (target : BitVec 21) : List (Nat × List Nat) :=
  s.routes.map fun r => if r.1 = target.toNat then (r.1, r.2.filter (· ≠ port)) else r

/-- A load with a lane on its way to the module is rejected (R120). -/
theorem Sheaf.stranded_rejects {h : Sheaf} {l : PendLoad} (hl : l ∈ h.loads) (hr : l.remote = true) {target : Nat}
    (hp : ∃ p ∈ l.sites, p.2 / 2 ^ 43 = 3 * 2 ^ 21 + target) :
    ∃ d m, Event.peerHostRejection h.uid l.word d m ∈ h.stranded target := by
  obtain ⟨p, hp, e⟩ := hp
  have lane : p.1 ∈ (l.sites.filter fun p => p.2 / 2 ^ 43 = 3 * 2 ^ 21 + target).map Prod.fst :=
    List.mem_map_of_mem (List.mem_filter.2 ⟨hp, decide_eq_true e⟩)
  refine ⟨_, _, List.mem_map_of_mem (List.mem_filter.2 ⟨hl, ?_⟩)⟩
  rw [hr, Bool.true_and]
  exact decide_eq_true (List.ne_nil_of_mem lane)

theorem linkFailure_reroutes {s : State} {port : Nat} {target : BitVec 21}
    (h : ∃ r ∈ s.routesWithout port target, r.1 = target.toNat ∧ r.2 ≠ []) :
    exec (.linkFailure port target) s = .next { s with routes := s.routesWithout port target } := by
  have any : (s.routesWithout port target).any (fun r => r.1 = target.toNat && r.2 ≠ []) = true := by
    simpa only [List.any_eq_true, Bool.and_eq_true, decide_eq_true_eq] using h
  exact congrArg Host.Outcome.next (if_pos any)

theorem linkFailure_strands {s : State} {port : Nat} {target : BitVec 21}
    (h : ∀ r ∈ s.routesWithout port target, r.1 = target.toNat → r.2 = []) :
    exec (.linkFailure port target) s = .next (({ s with routes := s.routesWithout port target } : State).post
      (s.sheaves.flatMap fun h => h.stranded target.toNat)) := by
  have none : ¬ (s.routesWithout port target).any (fun r => r.1 = target.toNat && r.2 ≠ []) = true := by
    simp only [List.any_eq_true, Bool.and_eq_true, decide_eq_true_eq]
    rintro ⟨r, hr, e, ne⟩
    exact ne (h r hr e)
  exact congrArg Host.Outcome.next (if_neg none)

/-! ### Registers of a function (R7, R491-R495) -/

/-- Changing a function's registers changes those of no other and nothing else. -/
theorem State.onFn_is {s : State} {fn : Nat} {v : VirtFn} (h : s.fns[fn]? = some v) (f : VirtFn → VirtFn) :
    fnIs s (s.onFn fn f) fn (f v) ∧ ({ s.onFn fn f with fns := s.fns } : State) = s := by
  obtain ⟨hn, _⟩ := Vector.getElem?_eq_some_iff.1 h
  rw [State.onFn, h]
  refine ⟨⟨?_, fun g hg => ?_⟩, rfl⟩
  · rw [Vector.getElem?_setIfInBounds, if_pos rfl, if_pos hn]
  · rw [Vector.getElem?_setIfInBounds, if_neg hg.symm]

/-- A step that changes one function's registers alone. -/
theorem onFn_step {s : State} {fn : Nat} {v w : VirtFn} (h : s.fns[fn]? = some v) {i : Instr} {f : VirtFn → VirtFn}
    (hi : exec i s = .next (s.onFn fn f)) (hw : f v = w) :
    ∃ t, exec i s = .next t ∧ fnIs s t fn w ∧ ({ t with fns := s.fns } : State) = s :=
  ⟨_, hi, hw ▸ State.onFn_is h f⟩

theorem registerWrite_fnRegister {s : State} {fn : Nat} {v : VirtFn} (h : s.fns[fn]? = some v) (n j : Nat) (x : DWord)
    {p : PlatformReg × VirtFn} (hp : p ∈ fnRegister fn n j x v) :
    ∃ t, exec (.registerWrite p.1 x) s = .next t ∧ fnIs s t fn p.2 ∧ ({ t with fns := s.fns } : State) = s := by
  have readOnly : fnIs s s fn v ∧ ({ s with fns := s.fns } : State) = s := ⟨⟨h, fun _ _ => rfl⟩, rfl⟩
  simp only [fnRegister, List.mem_cons, List.not_mem_nil, or_false] at hp
  obtain rfl | rfl | rfl | rfl | rfl | rfl | rfl | rfl | rfl := hp
  · exact ⟨s, rfl, readOnly⟩
  · exact ⟨s, rfl, readOnly⟩
  · exact ⟨s, rfl, readOnly⟩
  · exact onFn_step h rfl rfl
  · exact onFn_step h rfl rfl
  · exact onFn_step h rfl rfl
  · exact onFn_step h rfl rfl
  · exact onFn_step h rfl rfl
  · exact onFn_step h rfl rfl

theorem VirtFn.setTrring_eq (v : VirtFn) (x : DWord) : v.setTrring x = traceRing x v := by
  have mask : x &&& ~~~(0xFE#64) = x &&& 0xFFFFFFFFFFFFFF01 := rfl
  simp only [VirtFn.setTrring, traceRing, mask]
  cases (x &&& 0xFFFFFFFFFFFFFF01).getLsbD 0 <;> cases v.trring.getLsbD 0 <;> rfl

theorem traceRing_trdrop (x : DWord) (v : VirtFn) : (traceRing x v).trdrop = v.trdrop := by
  simp only [traceRing]
  split
  · split <;> rfl
  · rfl

/-- With no drop to tell of, a ring with space again writes no record (R494). -/
theorem State.traceDropped_none {s : State} {fn : Nat} {v : VirtFn} (h : s.fns[fn]? = some v) (hd : v.trdrop = 0) :
    s.traceDropped fn = s := by
  simp [State.traceDropped, h, hd]

theorem registerWrite_trring {s : State} {fn : Nat} {v : VirtFn} (h : s.fns[fn]? = some v) (hd : v.trdrop = 0) (x : DWord) :
    ∃ t, exec (.registerWrite (.trring fn) x) s = .next t ∧ fnIs s t fn (traceRing x v) ∧ ({ t with fns := s.fns } : State) = s := by
  refine onFn_step h (f := fun v => v.setTrring x) ?_ (v.setTrring_eq x)
  refine congrArg Host.Outcome.next (State.traceDropped_none (State.onFn_is h _).1.1 ?_)
  rw [VirtFn.setTrring_eq, traceRing_trdrop, hd]

/-! ### Registers of a partition (R7, R76, R78, R81) -/

theorem State.part_onPart {s : State} {p : Nat} {v : Partition} (h : s.part p = some v) {f : Partition → Partition}
    (hf : ∀ q, (f q).num = q.num) : (s.onPart p f).part p = some (f v) := by
  rw [State.part] at h ⊢
  have num : v.num = p := by simpa using List.find?_some h
  have same : (fun q : Partition => decide (q.num = p)) ∘ (fun q => if q.num = p then f q else q) = fun q => decide (q.num = p) := by
    funext q
    simp only [Function.comp_apply]
    split <;> simp only [hf]
  rw [State.onPart_partitions, List.find?_map, same, h, Option.map_some, if_pos num]

/-- With no record waiting, none is written when room comes free (R78). -/
theorem State.flushNotices_none {s : State} {p : Nat} {v : Partition} (h : s.part p = some v) (hw : v.waiting = []) :
    s.flushNotices p = s.onPart p fun q => { q with waiting := [] } := by
  simp [State.flushNotices, h, hw]

/-- What a step that changes a register of a partition leaves; `f` keeps what is no register. -/
theorem State.onPart_register {s : State} {p : Nat} {v : Partition} (h : s.part p = some v) {f : Partition → Partition}
    (hf : ∀ q, (f q).num = q.num) :
    (s.onPart p f).part p = some (f v) ∧ ({ s.onPart p f with partitions := s.partitions } : State) = s :=
  ⟨State.part_onPart h hf, rfl⟩

theorem State.onPart_flush {s : State} {p : Nat} {v w : Partition} (h : s.part p = some v) {f : Partition → Partition}
    (hf : ∀ q, (f q).num = q.num) (hw : f v = w) (he : w.waiting = []) :
    ((s.onPart p f).flushNotices p).part p = some w ∧
      ({ (s.onPart p f).flushNotices p with partitions := s.partitions } : State) = s := by
  subst hw
  have g := State.part_onPart h hf
  rw [State.flushNotices_none g he]
  have w := State.part_onPart g (f := fun q => { q with waiting := [] }) fun _ => rfl
  refine ⟨w.trans (congrArg some ?_), rfl⟩
  rw [← he]

theorem registerWrite_partRegister {s : State} {q : Nat} {v : Partition} (h : s.part q = some v) (hw : v.waiting = []) (x : DWord)
    {p : PlatformReg × Partition} (hp : p ∈ partRegister q x v) :
    ∃ t, exec (.registerWrite p.1 x) s = .next t ∧ t.part q = some p.2 ∧ ({ t with partitions := s.partitions } : State) = s := by
  simp only [partRegister, List.mem_cons, List.not_mem_nil, or_false] at hp
  obtain rfl | rfl | rfl | rfl | rfl := hp
  · exact ⟨_, rfl, State.onPart_flush h (f := fun q => q.configure (x &&& ~~~(0xFE#64))) (fun _ => rfl) rfl hw⟩
  · exact ⟨_, rfl, State.onPart_flush h (f := fun q => { q with nqhead := x.setWidth 32, nqfull := false }) (fun _ => rfl) rfl hw⟩
  · exact ⟨_, rfl, State.onPart_flush h (f := fun q => { q with nqtail := x.setWidth 32, nqfull := false }) (fun _ => rfl) rfl hw⟩
  · exact ⟨_, rfl, State.onPart_register h (f := fun q => { q with nqdrop := q.nqdrop &&& ~~~(x.setWidth 32) }) fun _ => rfl⟩
  · exact ⟨_, rfl, State.onPart_register h (f := fun q => { q with cthr := x.setWidth 32 }) fun _ => rfl⟩

end Sys2Proof.Machine
end

section
/-!
PROOFS. The parts of a performance counter, and PCVAL_WRITE (R490, R491).
-/

namespace Sys2Proof.Machine

open Sys2Proof Sys2Proof.Rules

/-! ### Clusters and the counters of a function (R490, R491) -/

theorem State.onCluster_clusters (s : State) (n c : Nat) (f : Cluster → Cluster) :
    (s.onCluster n f).clusters[c]? = if c = n then s.clusters[c]?.map f else s.clusters[c]? := by
  unfold State.onCluster
  split
  · next v hv =>
    obtain ⟨hn, _⟩ := Vector.getElem?_eq_some_iff.1 hv
    by_cases e : c = n
    · subst e
      rw [Vector.getElem?_setIfInBounds, if_pos rfl, if_pos hn, if_pos rfl, hv, Option.map_some]
    · rw [Vector.getElem?_setIfInBounds, if_neg (Ne.symm e), if_neg e]
  · next none =>
    split
    · next e => rw [e, none]; rfl
    · rfl

theorem State.onCluster_frame (s : State) (n : Nat) (f : Cluster → Cluster) :
    ({ s.onCluster n f with clusters := s.clusters } : State) = s := by
  unfold State.onCluster
  split <;> rfl

/-- Every cluster of a list is changed, once or several times alike. -/
theorem State.foldl_onCluster_clusters (s : State) (cs : List Nat) (f : Nat → Cluster → Cluster) (hf : ∀ c k, f c (f c k) = f c k)
    (c : Nat) : (cs.foldl (fun t c => t.onCluster c (f c)) s).clusters[c]? =
      if c ∈ cs then s.clusters[c]?.map (f c) else s.clusters[c]? := by
  induction cs generalizing s with
  | nil => rfl
  | cons a cs ih =>
    rw [List.foldl_cons, ih, State.onCluster_clusters]
    by_cases e : c = a
    · subst e
      have twice : f c ∘ f c = f c := funext (hf c)
      simp [twice]
    · simp [e]

theorem State.foldl_onCluster_frame (s : State) (cs : List Nat) (f : Nat → Cluster → Cluster) :
    ({ cs.foldl (fun t c => t.onCluster c (f c)) s with clusters := s.clusters } : State) = s := by
  induction cs generalizing s with
  | nil => rfl
  | cons a cs ih =>
    have := congrArg (fun t => ({ t with clusters := s.clusters } : State)) (ih (s.onCluster a (f a)))
    exact this.trans (s.onCluster_frame a (f a))

/-- The places that hold a part of a function's counter `n`, by cluster, with that part: its clusters, and what a swap took out of
them (R490). -/
def State.counterParts (s : State) (fn n : Nat) : List (Nat × DWord) :=
  ((s.fnClusters fn).filter (s.holdsCluster fn)).map (fun c => (c, ((s.clusters[c]?).bind fun k => k.counters[n]?).getD 0)) ++
    (s.shadows fn).map fun x => (x.cluster, (x.counters[n]?).getD 0)

/-- The clusters of these places. -/
def State.counterPlaces (s : State) (fn : Nat) : List Nat :=
  (s.fnClusters fn).filter (s.holdsCluster fn) ++ (s.shadows fn).map Shadow.cluster

/-- A counter reads the sum of its parts (R491). -/
theorem State.pcval_eq_sum (s : State) (fn n : Nat) : s.pcval fn n = ((s.counterParts fn n).map Prod.snd).sum := by
  rw [List.sum_eq_foldl, State.pcval, State.counterParts, List.map_append, List.map_map, List.map_map]
  rfl

theorem mem_shadows {s : State} {fn : Nat} {x : Shadow} (h : x ∈ s.shadows fn) : x.fn = fn :=
  of_decide_eq_true (List.mem_filter.1 h).2

/-- A counter that takes a value where its cluster is `low`, else 0. -/
def setCounter (n low : Nat) (val : DWord) (c : Nat) (ks : Vector DWord 16) : Vector DWord 16 :=
  ks.setIfInBounds n (if c = low then val else 0)

theorem setCounter_same {n : Nat} (hn : n < 16) (low : Nat) (val : DWord) (c : Nat) (ks : Vector DWord 16) :
    (setCounter n low val c ks)[n]? = some (if c = low then val else 0) := by
  simp [setCounter, hn]

theorem setCounter_other {n m : Nat} (h : m ≠ n) (low : Nat) (val : DWord) (c : Nat) (ks : Vector DWord 16) :
    (setCounter n low val c ks)[m]? = ks[m]? := by
  simp [setCounter, Ne.symm h]

theorem setCounter_twice (n low : Nat) (val : DWord) (c : Nat) (ks : Vector DWord 16) :
    setCounter n low val c (setCounter n low val c ks) = setCounter n low val c ks := by
  ext i hi
  simp [setCounter, Vector.getElem_setIfInBounds]

/-- What a swap took out of a function's cluster, with one counter set. -/
def Shadow.setPart (fn n low : Nat) (val : DWord) (x : Shadow) : Shadow :=
  if x.fn = fn then { x with counters := setCounter n low val x.cluster x.counters } else x

theorem Shadow.setPart_fn (fn n low : Nat) (val : DWord) (x : Shadow) : (x.setPart fn n low val).fn = x.fn := by
  unfold Shadow.setPart
  split <;> rfl

/-- The lowest-numbered cluster of a function (R491). -/
def State.lowCluster (s : State) (fn : Nat) : Nat := (s.fnClusters fn).foldl min 64

theorem State.lowCluster_mem {s : State} {fn : Nat} (h : s.fnClusters fn ≠ []) (hc : ∀ c ∈ s.fnClusters fn, c < 64) :
    s.lowCluster fn ∈ s.fnClusters fn := by
  obtain ⟨m, hm⟩ := Option.isSome_iff_exists.1 (List.isSome_min?_of_ne_nil h)
  have mem := List.min?_mem hm
  rw [State.lowCluster, List.foldl_min, hm, Option.getD_some, Nat.min_eq_right (hc m mem).le]
  exact mem

/-- PCVAL_WRITE where some place stands for the lowest cluster: every place is set. -/
def State.setParts (s : State) (fn n : Nat) (val : DWord) : State :=
  let t := ((s.fnClusters fn).filter (s.holdsCluster fn)).foldl
    (fun t c => t.onCluster c fun k => { k with counters := setCounter n (s.lowCluster fn) val c k.counters }) s
  { t with
    saves := t.saves.map (Shadow.setPart fn n (s.lowCluster fn) val)
    dies := t.dies.map fun d => { d with slots := d.slots.map fun y => y.map (Shadow.setPart fn n (s.lowCluster fn) val) } }

/-- What stands for the lowest cluster where nothing did. -/
def Shadow.lowest (fn n low : Nat) (val : DWord) : Shadow :=
  { fn := fn, cluster := low, spill := [], groups := [], counters := setCounter n low val low (Vector.replicate 16 0), newt := [] }

theorem execPcvalWrite_eq (fn n : Nat) (val : DWord) (s : State) : execPcvalWrite fn n val s = .next (
    if s.fnClusters fn = [] || s.holdsCluster fn (s.lowCluster fn) || (s.shadows fn).any (fun x => x.cluster = s.lowCluster fn)
    then s.setParts fn n val
    else { s.setParts fn n val with saves := (s.setParts fn n val).saves ++ [Shadow.lowest fn n (s.lowCluster fn) val] }) := rfl

theorem State.setParts_frame (s : State) (fn n : Nat) (val : DWord) :
    ({ s.setParts fn n val with clusters := s.clusters, saves := s.saves, dies := s.dies } : State) = s := by
  have := s.foldl_onCluster_frame ((s.fnClusters fn).filter (s.holdsCluster fn))
    (fun c k => { k with counters := setCounter n (s.lowCluster fn) val c k.counters })
  exact congrArg (fun t => ({ t with saves := s.saves, dies := s.dies } : State)) this

theorem State.setParts_clusters (s : State) (fn n : Nat) (val : DWord) {c : Nat} (hc : c ∈ (s.fnClusters fn).filter (s.holdsCluster fn)) :
    (s.setParts fn n val).clusters[c]? =
      s.clusters[c]?.map fun k => { k with counters := setCounter n (s.lowCluster fn) val c k.counters } := by
  have := s.foldl_onCluster_clusters ((s.fnClusters fn).filter (s.holdsCluster fn))
    (fun c k => { k with counters := setCounter n (s.lowCluster fn) val c k.counters })
    (fun c k => by simp only [setCounter_twice]) c
  rw [if_pos hc] at this
  exact this

/-- The shadows of a function, each with its counter set. -/
theorem State.setParts_shadows (s : State) (fn n : Nat) (val : DWord) :
    (s.setParts fn n val).shadows fn = (s.shadows fn).map (Shadow.setPart fn n (s.lowCluster fn) val) := by
  have keeps := s.foldl_onCluster_frame ((s.fnClusters fn).filter (s.holdsCluster fn))
    (fun c k => { k with counters := setCounter n (s.lowCluster fn) val c k.counters })
  have dies := congrArg State.dies keeps
  have saves := congrArg State.saves keeps
  have kept : (fun x : Shadow => decide (x.fn = fn)) ∘ Shadow.setPart fn n (s.lowCluster fn) val = fun x => decide (x.fn = fn) := by
    funext x
    simp only [Function.comp_apply, Shadow.setPart_fn]
  have slots (l : List (Option Shadow)) : (l.map fun y => y.map (Shadow.setPart fn n (s.lowCluster fn) val)).filterMap id =
      (l.filterMap id).map (Shadow.setPart fn n (s.lowCluster fn) val) := by
    rw [List.filterMap_map, List.map_filterMap]
    rfl
  dsimp only at dies saves
  simp only [State.shadows, State.setParts, dies, saves, Vector.toList_map, List.flatMap_map, slots, ← List.map_flatMap,
    ← List.map_append, List.filter_map, kept]

theorem State.setParts_fnClusters (s : State) (fn n : Nat) (val : DWord) : (s.setParts fn n val).fnClusters fn = s.fnClusters fn := by
  have f := congrArg State.fns (s.setParts_frame fn n val)
  have p := congrArg State.partitions (s.setParts_frame fn n val)
  dsimp only at f p
  simp only [State.fnClusters, f, p]

theorem State.setParts_holdsCluster (s : State) (fn n : Nat) (val : DWord) :
    (s.setParts fn n val).holdsCluster fn = s.holdsCluster fn := by
  have p := congrArg State.partitions (s.setParts_frame fn n val)
  dsimp only at p
  funext c
  simp only [State.holdsCluster, p]

section
variable {s : State} {fn n : Nat}

/-- Every part is 0 but that of the lowest cluster, which is the value (R491). -/
theorem State.setParts_same (hc : ∀ c ∈ s.fnClusters fn, c < 64) (hn : n < 16) (val : DWord) :
    (s.setParts fn n val).counterParts fn n = (s.counterPlaces fn).map fun c => (c, if c = s.lowCluster fn then val else 0) := by
  rw [State.counterParts, State.setParts_fnClusters, State.setParts_holdsCluster, State.setParts_shadows, State.counterPlaces,
    List.map_append, List.map_map, List.map_map]
  refine congrArg₂ (· ++ ·) (List.map_congr_left fun c h => ?_) (List.map_congr_left fun x h => ?_)
  · have : c < 64 := hc c (List.mem_filter.1 h).1
    rw [State.setParts_clusters s fn n val h, Vector.getElem?_eq_getElem this]
    simp only [Option.map_some, Option.bind_some, setCounter_same hn, Option.getD_some]
  · simp only [Function.comp_apply, Shadow.setPart, mem_shadows h, if_true, setCounter_same hn, Option.getD_some]

/-- The other counters keep their parts. -/
theorem State.setParts_other {m : Nat} (h : m ≠ n) (val : DWord) :
    (s.setParts fn n val).counterParts fn m = s.counterParts fn m := by
  rw [State.counterParts, State.setParts_fnClusters, State.setParts_holdsCluster, State.setParts_shadows, State.counterParts, List.map_map]
  refine congrArg₂ (· ++ ·) (List.map_congr_left fun c hc => ?_) (List.map_congr_left fun x hx => ?_)
  · rw [State.setParts_clusters s fn n val hc]
    cases s.clusters[c]? with
    | none => rfl
    | some k => simp only [Option.map_some, Option.bind_some, setCounter_other h]
  · simp only [Function.comp_apply, Shadow.setPart, mem_shadows hx, if_true, setCounter_other h]

/-- A new place adds its part. -/
theorem State.counterParts_lowest (t : State) (low : Nat) (val : DWord) (m : Nat) :
    ({ t with saves := t.saves ++ [Shadow.lowest fn n low val] } : State).counterParts fn m =
      t.counterParts fn m ++ [(low, ((setCounter n low val low (Vector.replicate 16 0))[m]?).getD 0)] := by
  have : ({ t with saves := t.saves ++ [Shadow.lowest fn n low val] } : State).shadows fn = t.shadows fn ++ [Shadow.lowest fn n low val] := by
    simp [State.shadows, Shadow.lowest]
  simp only [State.counterParts, this, List.map_append, List.map_cons, List.map_nil, List.append_assoc]
  rfl

/-- Among places set so, the value counts once for each that stands for the lowest cluster. -/
theorem sum_setPlaces (cs : List Nat) (low : Nat) (val : DWord) :
    ((cs.map fun c => (c, if c = low then val else 0)).map Prod.snd).sum = cs.count low • val := by
  have := List.sum_map_ite_eq cs (fun _ => val) (fun _ => 0) low
  rw [List.map_map]
  exact this.trans (by simp)

theorem pcvalWrite_sets (hne : s.fnClusters fn ≠ []) (hc : ∀ c ∈ s.fnClusters fn, c < 64) (hn : n < 16)
    (hd : (s.counterPlaces fn).Nodup) (x : DWord) :
    ∃ t, exec (.pcvalWrite fn n x) s = .next t ∧ ({ t with clusters := s.clusters, saves := s.saves, dies := s.dies } : State) = s ∧
      t.pcval fn n = x ∧ ∀ m < 16, m ≠ n → t.pcval fn m = s.pcval fn m := by
  have low := State.lowCluster_mem hne hc
  have stands : (s.fnClusters fn = [] || s.holdsCluster fn (s.lowCluster fn) ||
      (s.shadows fn).any fun x => x.cluster = s.lowCluster fn) = true ↔ s.lowCluster fn ∈ s.counterPlaces fn := by
    simp [State.counterPlaces, hne, low]
  refine ⟨_, execPcvalWrite_eq fn n x s, ?_⟩
  by_cases h : s.lowCluster fn ∈ s.counterPlaces fn
  · rw [if_pos (stands.2 h)]
    refine ⟨s.setParts_frame fn n x, ?_, fun m _ hm => ?_⟩
    · rw [State.pcval_eq_sum, State.setParts_same hc hn, sum_setPlaces, List.count_eq_one_of_mem hd h, one_nsmul]
    · rw [State.pcval_eq_sum, State.setParts_other hm, State.pcval_eq_sum]
  · rw [if_neg (mt stands.1 h)]
    refine ⟨s.setParts_frame fn n x, ?_, fun m hm ne => ?_⟩
    · rw [State.pcval_eq_sum, State.counterParts_lowest, State.setParts_same hc hn, List.map_append, List.sum_append, sum_setPlaces,
        List.count_eq_zero_of_not_mem h, setCounter_same hn]
      simp
    · rw [State.pcval_eq_sum, State.counterParts_lowest, State.setParts_other ne, List.map_append, List.sum_append, setCounter_other ne,
        ← State.pcval_eq_sum]
      simp [hm]

end

end Sys2Proof.Machine
end

section
/-!
PROOFS. The values after reset (R7, R20, R76, R81, R85, R201, R207, R365, R462).
-/

namespace Sys2Proof.Machine

open Sys2Proof Sys2Proof.Rules

/-! ### Reset (R7, R20, R76, R81, R85, R201) -/

/-- Every function is at its values before it is enabled. -/
theorem State.reset_fns {v : VirtFn} (h : v ∈ State.reset.fns.toList) : v = VirtFn.zero :=
  Vector.eq_of_mem_replicate (Vector.mem_toList_iff.1 h)

theorem State.reset_clusters {c : Cluster} (h : c ∈ State.reset.clusters.toList) : c = Cluster.zero :=
  Vector.eq_of_mem_replicate (Vector.mem_toList_iff.1 h)

/-- An unlisted line of the module has SCALE 127 and FMT 0 (R85). -/
theorem State.lineMeta_reset {k : Nat} (h : isForeign k = false) : lineMeta State.reset.lines k = 0x7F00 := by
  change lineDefault (lineOf k) = 0x7F00
  rw [lineDefault, isForeign_lineOf, h]
  rfl

/-- Settles O55: the registers, queues and counters of a function and a cluster at reset are copies of `VirtFn.zero` and
`Cluster.zero`. -/
theorem resetValues : Obligations.ResetValues := by
  have fns : ∀ v ∈ State.reset.fns.toList, v.parts = 0 ∧ v.res = 0 ∧
      (∀ q ∈ v.queues.toList, q.cfg = 0 ∧ q.head = 0 ∧ q.tail = 0) ∧ v.cq.cfg = 0 ∧
      (∀ x ∈ v.psel.toList, x = 0) ∧ v.smpcfg = 0 ∧ v.smpdrop = 0 ∧ v.trring = 0 ∧ v.trstart = 0 ∧ v.trstop = 0 := by
    intro v hv
    obtain rfl := State.reset_fns hv
    refine ⟨rfl, rfl, fun q hq => ?_, rfl, fun x hx => ?_, rfl, rfl, rfl, rfl, rfl⟩
    · obtain rfl : q = Queue.zero := Vector.eq_of_mem_replicate (Vector.mem_toList_iff.1 hq)
      exact ⟨rfl, rfl, rfl⟩
    · exact Vector.eq_of_mem_replicate (Vector.mem_toList_iff.1 hx)
  have clusters : ∀ c ∈ State.reset.clusters.toList, ∀ x ∈ c.counters.toList, x = 0 := by
    intro c hc x hx
    obtain rfl := State.reset_clusters hc
    exact Vector.eq_of_mem_replicate (Vector.mem_toList_iff.1 hx)
  exact ⟨rfl, rfl, rfl, rfl, rfl, rfl, rfl, rfl, rfl, rfl, rfl, rfl, fns, clusters, fun _ _ => rfl,
    fun _ => State.lineMeta_reset⟩

end Sys2Proof.Machine
end

section
/-!
PROOFS. Writes of the host, the monitor and peers, and scrubbing (R66, R86, R88-R90, R474, R485).
-/

namespace Sys2Proof.Machine

open Sys2Proof Sys2Proof.Rules

/-! ### Writes of the host and the monitor (R86, R474) -/

theorem hostMemoryWrite_lands {s : State} (h : s.memOk) {a : Nat} {bs : List Byte} (hb : bs ≠ []) (hw : s.weak = [])
    (ha : a + bs.length ≤ 2 ^ 38) (hc : clean s (lpddrKey a) bs.length) (hq : quietPages s) :
    ∃ t, exec (.hostMemoryWrite a bs) s = .next t ∧ stored s t (lpddrKey a) bs ∧ ownedBy s t (lpddrKey a) bs.length := by
  have hd : lpddrKey a + bs.length ≤ 2 * spaceSize := by simp only [lpddrKey, spaceSize]; omega
  obtain ⟨st, own⟩ := State.writeOutside_lands h hw hq hc
  refine ⟨_, ?_, st, own hd⟩
  change execHostMemoryWrite a bs s = _
  simp only [execHostMemoryWrite, ha, hb, ne_eq, not_false_eq_true, decide_true, Bool.and_self, if_true]

theorem monitorWrite_lands {s : State} (h : s.memOk) {k : Nat} {bs : List Byte} (hb : bs ≠ []) (hw : s.weak = [])
    (hd : k + bs.length ≤ 2 * spaceSize) (hc : clean s k bs.length) :
    ∃ t, exec (.monitorWrite k bs) s = .next t ∧ stored s t k bs ∧ ownedBy s t k bs.length := by
  refine ⟨_, ?_, State.landPieces_stored h _ _, State.landPieces_ownedBy h hd⟩
  change execMonitorWrite k bs s = _
  simp only [execMonitorWrite, hd, hb, State.writeOver_clean hw hc, ne_eq, not_false_eq_true, decide_true, Bool.and_self, if_true]

/-! ### Requests of peers (R66, R485) -/

/-- A single window covers a request, or nothing does (R66). -/
theorem State.peerWindow_single {s : State} {w : PeerWindow} (h : s.partitions.flatMap Partition.windows = [w])
    (source : BitVec 21) (write : Bool) (off n : Nat) :
    s.peerWindow source write off n =
      if (w.base ≤ off ∧ off + n ≤ w.base + w.size ∧ source.toNat ∈ w.modules) ∧ (w.writable = true ∨ write = false)
      then some (w.key + (off - w.base)) else none := by
  simp only [State.peerWindow, h, List.find?_cons, List.find?_nil]
  have covers : (decide (w.base ≤ off) && decide (off + n ≤ w.base + w.size) && w.modules.contains source.toNat &&
      (w.writable || !write)) =
      decide ((w.base ≤ off ∧ off + n ≤ w.base + w.size ∧ source.toNat ∈ w.modules) ∧ (w.writable = true ∨ write = false)) := by
    rw [Bool.eq_iff_iff]
    simp only [Bool.and_eq_true, decide_eq_true_eq, List.contains_iff_mem, Bool.or_eq_true, Bool.not_eq_true', and_assoc]
  rw [covers]
  by_cases c : (w.base ≤ off ∧ off + n ≤ w.base + w.size ∧ source.toNat ∈ w.modules) ∧ (w.writable = true ∨ write = false)
  · rw [decide_eq_true c, if_pos c, Option.map_some]
  · rw [decide_eq_false c, if_neg c, Option.map_none]

section
variable {s : State} (hs : s.stubs = []) {source : BitVec 21} {addr : DWord}
include hs

/-- A peer's request that no window covers is turned away (R66, R485). -/
theorem peerRequest_store_rejected {bs : List Byte} (h : s.peerWindow source true (addr.toNat % 2 ^ 43) bs.length = none) :
    exec (.peerRequest source addr (.store bs)) s = .next s := by
  change execPeerRequest source addr _ s = _
  simp only [execPeerRequest, hs, List.find?_nil, h]

theorem peerRequest_load_rejected {n : Nat} (h : s.peerWindow source false (addr.toNat % 2 ^ 43) n = none) :
    exec (.peerRequest source addr (.load n)) s = .next s := by
  change execPeerRequest source addr _ s = _
  simp only [execPeerRequest, hs, List.find?_nil, h]

theorem peerRequest_store {bs : List Byte} (hb : bs ≠ []) {k : Nat}
    (h : s.peerWindow source true (addr.toNat % 2 ^ 43) bs.length = some k) :
    exec (.peerRequest source addr (.store bs)) s = .next (s.writeOutside k bs) := by
  change execPeerRequest source addr _ s = _
  simp only [execPeerRequest, hs, List.find?_nil, h, hb, if_false]

theorem peerRequest_load (hw : s.weak = []) (hq : quietPages s) {n k : Nat}
    (h : s.peerWindow source false (addr.toNat % 2 ^ 43) n = some k) (hb : lineOf k ∉ s.badLines) :
    exec (.peerRequest source addr (.load n)) s = .next s := by
  change execPeerRequest source addr _ s = _
  simp only [execPeerRequest, hs, List.find?_nil, h, State.touchOutside_quiet hw hq, State.lineBad_false hb, Bool.false_eq_true, if_false]

theorem peerRequest_atomic (hw : s.weak = []) (hq : quietPages s) {op : BitVec 4} {k : Nat} (x : BitVec 128)
    (h : s.peerWindow source true (addr.toNat % 2 ^ 43) (atomBytes op) = some k) :
    exec (.peerRequest source addr (.atomic op x)) s = .next (s.atomLands (s.frameOwner k) 0 none k op x none 0 0) := by
  change execPeerRequest source addr _ s = _
  simp only [execPeerRequest, hs, List.find?_nil, h, State.touchOutside_quiet hw hq]
  cases hp : s.pageOf k with
  | none => rfl
  | some m => simp only [(hq k m hp).2, Bool.false_eq_true, if_false]

end

/-! ### SCRUB_PASS -/

section
variable {key : Nat}

theorem isForeign_of_scrubbed (h : key < 2 * spaceSize ∨ isSpad key = true) : isForeign key = false ∧ key < 5 * spaceSize := by
  rw [isSpad_iff] at h
  rw [Bool.eq_false_iff, Ne, isForeign_iff]
  omega

/-- Below the arrays that no address names, the scrubber reads a line (R88). -/
theorem isArray_of_lt (h : key < 5 * spaceSize) : isArray key = false ∧ ¬ registerKey 0 ≤ key := by
  rw [Bool.eq_false_iff, Ne, isArray_iff, registerKey]
  omega

theorem scrubPass_corrected_frame (s : State) (key x : Nat) :
    ∃ t, exec (.scrubPass key (.corrected x)) s = .next t ∧ ({ t with dies := s.dies, weak := s.weak } : State) = s := by
  refine ⟨_, rfl, ?_⟩
  dsimp only
  split
  · rfl
  · exact congrArg (fun t => ({ t with weak := s.weak } : State)) (State.logAt_frame _ _ _ _ _)

/-- A corrected error of a line is taken away and logged (R89). -/
theorem scrubPass_corrected {s : State} (h : key < 2 * spaceSize ∨ isSpad key = true) (x : Nat) :
    exec (.scrubPass key (.corrected x)) s = .next (({ s with weak := s.weak.filter (·.1 ≠ lineOf key) } : State).logAt (keyDie key)
      (keyArray key ++ ": corrected error") (lineOf key) x) := by
  obtain ⟨f, l⟩ := isForeign_of_scrubbed h
  obtain ⟨a, r⟩ := isArray_of_lt l
  change execScrubPass key (.corrected x) s = _
  simp only [execScrubPass, f, a, r, decide_false, Bool.false_and, Bool.false_eq_true, if_false]

theorem scrubPass_foreign (s : State) (h : 2 * spaceSize ≤ key) (g : key < 4 * spaceSize) :
    exec (.scrubPass key .uncorrectable) s = .next s := by
  have f : isForeign key = true := (isForeign_iff key).2 (.inl ⟨h, g⟩)
  change execScrubPass key .uncorrectable s = _
  simp only [execScrubPass, f, if_true]

/-- The registers of sheaves lie below the other arrays that no address names (R88). -/
theorem below_bufKey {uid : Nat} (hu : uid < 2 ^ 62) : ¬ bufKey 0 0 ≤ 6 * spaceSize + uid ∧
    ¬ dieBufKey 0 0 ≤ 6 * spaceSize + uid ∧ ¬ recordKey 0 0 ≤ 6 * spaceSize + uid := by
  refine ⟨?_, ?_, ?_⟩
  · rw [bufKey]
    omega
  · rw [dieBufKey]
    omega
  · rw [recordKey, spaceSize]
    omega

/-- An error in a sheaf's registers ends its context (R90). -/
theorem scrubPass_registers {s : State} {uid : Nat} (hu : uid < 2 ^ 62) {h : Sheaf} (hs : s.sheaf uid = some h) (hl : h.life = .live) :
    ∃ t, exec (.scrubPass (6 * spaceSize + uid) .uncorrectable) s = .next t ∧ hasEnded t (s.tagOf h) := by
  have size : uid < spaceSize := hu.trans (by decide)
  have f : isForeign (6 * spaceSize + uid) = false := by
    rw [Bool.eq_false_iff, Ne, isForeign_iff]
    omega
  have a : isArray (6 * spaceSize + uid) = true := by
    rw [isArray_iff]
    omega
  obtain ⟨b, d, r⟩ := below_bufKey hu
  have u : 6 * spaceSize + uid - registerKey 0 = uid := by rw [registerKey]; omega
  refine ⟨s.endContext (s.tagOf h) Cause.ue.code 0 (some h) h.pc 0 0, ?_, State.endContext_hasEnded _ _ _ _ _ _ _ _⟩
  change execScrubPass _ .uncorrectable s = _
  simp only [execScrubPass, f, a, State.arrayError, r, d, b, u, hs, hl, Bool.false_eq_true, if_false, if_true]

/-- A line of no context that holds an error is cleared (R90). -/
theorem scrubPass_unowned {s : State} (h : key < 2 * spaceSize) (ho : (lineMeta s.lines key).extractLsb' 16 12 = 0) :
    exec (.scrubPass key .uncorrectable) s = .next (s.clearLine key) := by
  obtain ⟨f, l⟩ := isForeign_of_scrubbed (.inl h)
  obtain ⟨a, _⟩ := isArray_of_lt l
  change execScrubPass key .uncorrectable s = _
  simp only [execScrubPass, f, a, State.containError_unowned ho, Bool.false_eq_true, if_false]

end

/-- What a peer's requests do at a module with one window (R66, R132, R485). -/
theorem peerRequest_throughWindow {s : State} {source : BitVec 21} {addr : DWord} {w : PeerWindow} (h : s.memOk) (hs : s.stubs = [])
    (hw : s.weak = []) (hq : quietPages s) (hwin : s.partitions.flatMap Partition.windows = [w]) :
    let off := addr.toNat % 2 ^ 43
    let covers := fun (n : Nat) => w.base ≤ off ∧ off + n ≤ w.base + w.size ∧ source.toNat ∈ w.modules
    let key := w.key + (off - w.base)
    (∀ bs, bs ≠ [] → covers bs.length → w.writable = true → clean s key bs.length →
      ∃ t, exec (.peerRequest source addr (.store bs)) s = .next t ∧ stored s t key bs ∧
        (key + bs.length ≤ 2 * spaceSize → ownedBy s t key bs.length)) ∧
    (∀ n x, covers (atomSize n) → w.writable = true → lineOf key ∉ s.badLines → s.cutOff key = false →
      x.toNat < 2 ^ atomOperandBits n →
      ∃ t, exec (.peerRequest source addr (.atomic n x)) s = .next t ∧ ({ t with mem := s.mem, lines := s.lines } : State) = s ∧
        t.mem = writeBytes s.mem key (leBytes (atomSize n) (atomRule n (readLE s.mem key (atomSize n)) x.toNat))) ∧
    (∀ n, (covers n → lineOf key ∉ s.badLines) → exec (.peerRequest source addr (.load n)) s = .next s) ∧
    (∀ bs, (¬ covers bs.length ∨ w.writable = false) → exec (.peerRequest source addr (.store bs)) s = .next s) := by
  intro off covers key
  have window (write : Bool) (n : Nat) := State.peerWindow_single hwin source write off n
  refine ⟨fun bs hb hcov hwr hc => ?_, fun n x hcov hwr hb hc hx => ?_, fun n hb => ?_, fun bs hno => ?_⟩
  · obtain ⟨st, own⟩ := State.writeOutside_lands h hw hq hc
    exact ⟨_, peerRequest_store hs hb ((window true bs.length).trans (if_pos ⟨hcov, .inl hwr⟩)), st, own⟩
  · have k := (window true (atomBytes n)).trans (if_pos ⟨atomBytes_eq n ▸ hcov, .inl hwr⟩)
    exact ⟨_, peerRequest_atomic hs hw hq x k, State.atomLands_rule hw hb hc _ _ hx _ _⟩
  · by_cases hcov : covers n
    · exact peerRequest_load hs hw hq ((window false n).trans (if_pos ⟨hcov, .inr rfl⟩)) (hb hcov)
    · exact peerRequest_load_rejected hs ((window false n).trans (if_neg fun c => hcov c.1))
  · refine peerRequest_store_rejected hs ((window true bs.length).trans (if_neg ?_))
    rintro ⟨hcov, hwr⟩
    obtain no | no := hno
    · exact no hcov
    · simp [no] at hwr

/-- Settles O48: a write from outside falls into pieces, one a line, that land with the owner of their frame; a peer's request does
so through its window; a scrub logs, clears, or ends a context; a register keeps its reserved bits, and the parts of a counter add
up to what was written. -/
theorem writesFromOutsideLandWhereTheySay : Obligations.WritesFromOutsideLandWhereTheySay := by
  unfold Obligations.WritesFromOutsideLandWhereTheySay
  refine ⟨fun s a bs h hb hw => ⟨hostMemoryWrite_lands h hb hw, monitorWrite_lands h hb hw⟩,
    fun s source addr op w h hs hw hq hwin => ?_, fun s key => ⟨rfl, fun x => ?_, scrubPass_foreign s, ?_, fun hk ho => ?_⟩,
    fun s port target => ⟨linkFailure_reroutes, fun none => ?_⟩,
    fun s fn n j x v hv hn hj => ⟨fun p hp => registerWrite_fnRegister hv n j x hp, fun hd => registerWrite_trring hv hd x, ?_⟩,
    fun s q x v hv hw p hp => registerWrite_partRegister hv hw x hp⟩
  · obtain ⟨store, atomic, load, rejected⟩ := peerRequest_throughWindow (source := source) (addr := addr) h hs hw hq hwin
    refine ⟨?_, ?_, ?_, ?_⟩
    · rintro bs rfl
      exact store bs
    · rintro n x rfl
      exact atomic n x
    · rintro n rfl
      exact load n
    · rintro bs rfl
      exact rejected bs
  · obtain ⟨t, run, frame⟩ := scrubPass_corrected_frame s key x
    refine ⟨t, run, frame, fun hk => ?_⟩
    obtain rfl : _ = t := Host.Outcome.next.inj ((scrubPass_corrected hk x).symm.trans run)
    refine ⟨fun w hw => ?_, fun d hd => by rw [hd, State.logAt_dies_weak]⟩
    rw [State.logAt_weak] at hw
    exact of_decide_eq_true (List.mem_filter.1 hw).2
  · rintro uid h rfl hu hs hl
    exact scrubPass_registers hu hs hl
  · exact ⟨_, scrubPass_unowned hk ho, fun j hj => by rw [State.readByte_clearLine, if_pos hj],
      fun j hj => by rw [State.readByte_clearLine, if_neg hj], s.clearLine_badLines key⟩
  · exact ⟨_, _, linkFailure_strands none, rfl, rfl, rfl, fun h hh l hl hr hp =>
      (Sheaf.stranded_rejects hl hr hp).imp fun d ⟨m, hm⟩ => ⟨m, List.mem_flatMap.2 ⟨h, hh, hm⟩⟩⟩
  · intro cs hne hnd hc hparts
    exact pcvalWrite_sets hne hc hn ((List.perm_append_comm.nodup_iff).1 hparts) x

end Sys2Proof.Machine
end

section
/-!
PROOFS. What pre-empting a function's groups for a migration to their own module saves, and what it cannot reach: of two groups with
one handle, only the first (R450, R454, R483).
-/

namespace Sys2Proof.Machine

open Sys2Proof Sys2Proof.Rules

/-! ### Saving groups (R450) -/

/-- What is looked up under a handle is saved or freed already, and nothing is saved (R450). -/
theorem State.saveGroup_done {s : State} {gid : Nat} {g : Group} (h : s.group gid = some g) (hd : (g.saved || g.freed) = true) :
    s.saveGroup gid = s := by
  simp only [State.saveGroup, h, hd, if_true]

/-- A group after the groups with these handles have been saved. -/
def Group.savedAmong (gids : List Nat) (g : Group) : Group :=
  if g.gid ∈ gids ∧ g.freed = false then { g with saved := true } else g

theorem Group.savedAmong_gid (gids : List Nat) (g : Group) : (g.savedAmong gids).gid = g.gid := by
  unfold Group.savedAmong
  split <;> rfl

theorem Group.savedAmong_task (gids : List Nat) (g : Group) : (g.savedAmong gids).task = g.task := by
  unfold Group.savedAmong
  split <;> rfl

theorem Group.savedAmong_freed (gids : List Nat) (g : Group) : (g.savedAmong gids).freed = g.freed := by
  unfold Group.savedAmong
  split <;> rfl

theorem Group.savedAmong_nil : Group.savedAmong [] = id := by
  funext g
  exact if_neg fun h => List.not_mem_nil h.1

theorem Group.savedAmong_cons (gid : Nat) (gids : List Nat) :
    Group.savedAmong gids ∘ Group.savedAmong [gid] = Group.savedAmong (gid :: gids) := by
  funext g
  cases live : g.freed with
  | true => simp [Group.savedAmong, live]
  | false =>
    by_cases e : g.gid = gid
    · simp [Group.savedAmong, live, e]
    · simp [Group.savedAmong, live, e]

/-- Where handles are distinct, every group is the one looked up under its handle. -/
theorem State.group_of_mem {s : State} (distinct : (s.groups.map Group.gid).Nodup) {g : Group} (h : g ∈ s.groups) :
    s.group g.gid = some g := by
  cases hx : s.group g.gid with
  | none => exact absurd (decide_eq_true rfl) (List.find?_eq_none.1 hx g h)
  | some k =>
    have gid : k.gid = g.gid := by simpa using List.find?_some hx
    rw [List.inj_on_of_nodup_map distinct (List.mem_of_find?_eq_some hx) h gid]

/-- Moving scratchpad, with no line in error, changes bytes, their lines, and what names the range. -/
theorem State.moveSpad_frame {s : State} (clean : s.badLines = []) (src dst len : Nat) :
    ({ s.moveSpad src dst len with sh := s.sh, peers := s.peers, mem := s.mem, lines := s.lines, scoreboard := s.scoreboard } : State) =
      s := by
  unfold State.moveSpad
  split
  · rfl
  · simp only [State.moveRange, State.mapSheaves, clean, List.map_nil]
    rw [← clean]

theorem State.moveSpad_groups {s : State} (clean : s.badLines = []) (src dst len : Nat) : (s.moveSpad src dst len).groups = s.groups :=
  have f := congrArg State.groups (State.moveSpad_frame clean src dst len)
  f

/-- The live sheaves of a group at their pre-emption points (R450). -/
def State.saveSheaves (s : State) (gid : Nat) : State :=
  s.mapSheaves fun h => if h.group = gid && h.life = .live then h.save else h

/-- A group still placed is saved: its sheaves, then its scratchpad, and no line is in error (R450, R452). -/
theorem State.saveGroup_placed {s : State} (clean : s.badLines = []) {gid : Nat} {g : Group} (h : s.group gid = some g)
    (hd : (g.saved || g.freed) = false) : s.saveGroup gid =
      ((s.saveSheaves gid).moveSpad (spadKey g.core g.spadBase) (saveKey gid 0) g.spadLen).onGroup gid fun k =>
        { k with saved := true } := by
  simp only [State.saveGroup, State.saveSheaves, h, hd, State.badIn, clean, List.filter_nil, List.foldl_nil, Bool.false_eq_true, if_false]

/-- Saving a group, with no line in error, changes sheaves, memory, the scoreboard and groups alone (R450, R452). -/
theorem State.saveGroup_frame {s : State} (clean : s.badLines = []) (gid : Nat) :
    ({ s.saveGroup gid with sh := s.sh, peers := s.peers, mem := s.mem, lines := s.lines, scoreboard := s.scoreboard
                            groups := s.groups } : State) = s := by
  cases h : s.group gid with
  | none => simp only [State.saveGroup, h]
  | some g =>
    cases hd : g.saved || g.freed with
    | true => rw [State.saveGroup_done h hd]
    | false =>
      rw [State.saveGroup_placed clean h hd]
      have moved := State.moveSpad_frame (s := s.saveSheaves gid) clean (spadKey g.core g.spadBase) (saveKey gid 0) g.spadLen
      exact congrArg (fun t => ({ t with sh := s.sh, peers := s.peers, groups := s.groups } : State)) moved

/-- Where handles are distinct, saving a group marks it and no other (R450). -/
theorem State.saveGroup_groups {s : State} (clean : s.badLines = []) (distinct : (s.groups.map Group.gid).Nodup) (gid : Nat) :
    (s.saveGroup gid).groups = s.groups.map (Group.savedAmong [gid]) := by
  have only {g : Group} (h : s.group gid = some g) {k : Group} (hk : k ∈ s.groups) (e : k.gid = gid) : k = g :=
    Option.some.inj ((State.group_of_mem distinct hk).symm.trans (e ▸ h))
  cases h : s.group gid with
  | none =>
    have no (k : Group) (hk : k ∈ s.groups) : k.gid ≠ gid := by simpa using List.find?_eq_none.1 h k hk
    have same : s.groups.map (Group.savedAmong [gid]) = s.groups.map id :=
      List.map_congr_left fun k hk => if_neg (by simp [no k hk])
    simp only [State.saveGroup, h, same, List.map_id]
  | some g =>
    cases hd : g.saved || g.freed with
    | true =>
      have same : s.groups.map (Group.savedAmong [gid]) = s.groups.map id := by
        refine List.map_congr_left fun k hk => ?_
        unfold Group.savedAmong
        split
        · next named =>
          obtain ⟨e, live⟩ := named
          obtain rfl := only h hk (List.mem_singleton.1 e)
          have saved : k.saved = true := by simpa [live] using hd
          simp only [id, ← saved]
        · rfl
      rw [State.saveGroup_done h hd, same, List.map_id]
    | false =>
      have moved := State.moveSpad_groups (s := s.saveSheaves gid) clean (spadKey g.core g.spadBase) (saveKey gid 0) g.spadLen
      have groups : (s.saveSheaves gid).groups = s.groups := rfl
      rw [State.saveGroup_placed clean h hd, State.onGroup_groups, moved, groups]
      refine List.map_congr_left fun k hk => ?_
      unfold Group.savedAmong
      by_cases e : k.gid = gid
      · obtain rfl := only h hk e
        have live : k.freed = false := (Bool.or_eq_false_iff.1 hd).2
        rw [if_pos e, if_pos ⟨List.mem_singleton.2 e, live⟩]
      · rw [if_neg e, if_neg (by simp [e])]

/-- Groups saved one after another. -/
def State.saveGroups (s : State) (gids : List Nat) : State := gids.foldl State.saveGroup s

theorem State.saveGroups_frame {s : State} (clean : s.badLines = []) (gids : List Nat) :
    ({ s.saveGroups gids with sh := s.sh, peers := s.peers, mem := s.mem, lines := s.lines, scoreboard := s.scoreboard
                              groups := s.groups } : State) = s := by
  induction gids generalizing s with
  | nil => rfl
  | cons gid gids ih =>
    have one := State.saveGroup_frame clean gid
    have clean' : (s.saveGroup gid).badLines = [] := (congrArg State.badLines one).trans clean
    exact (congrArg (fun t => ({ t with sh := s.sh, peers := s.peers, mem := s.mem, lines := s.lines, scoreboard := s.scoreboard
                                        groups := s.groups } : State)) (ih clean')).trans one

theorem State.saveGroups_fns {s : State} (clean : s.badLines = []) (gids : List Nat) : (s.saveGroups gids).fns = s.fns :=
  have f := congrArg State.fns (State.saveGroups_frame clean gids)
  f

theorem State.saveGroups_tasks {s : State} (clean : s.badLines = []) (gids : List Nat) : (s.saveGroups gids).tasks = s.tasks :=
  have f := congrArg State.tasks (State.saveGroups_frame clean gids)
  f

/-- Where handles are distinct, the groups named are marked, and no others. -/
theorem State.saveGroups_groups {s : State} (clean : s.badLines = []) (distinct : (s.groups.map Group.gid).Nodup) (gids : List Nat) :
    (s.saveGroups gids).groups = s.groups.map (Group.savedAmong gids) := by
  induction gids generalizing s with
  | nil => simp only [State.saveGroups, List.foldl_nil, Group.savedAmong_nil, List.map_id]
  | cons gid gids ih =>
    have clean' : (s.saveGroup gid).badLines = [] := (congrArg State.badLines (State.saveGroup_frame clean gid)).trans clean
    have one := State.saveGroup_groups clean distinct gid
    have handles : (s.saveGroup gid).groups.map Group.gid = s.groups.map Group.gid := by
      rw [one, List.map_map]
      exact List.map_congr_left fun g _ => g.savedAmong_gid [gid]
    exact (ih clean' (handles ▸ distinct)).trans (by rw [one, List.map_map, Group.savedAmong_cons])

/-! ### What a function that may go on stirs (R462, R465) -/

theorem State.queuesGo_frame (s : State) (tag : BitVec 12) : ({ s.queuesGo tag with agenda := s.agenda } : State) = s := by
  have each (fn : Nat) (qs : List Nat) (t : State) : ({ qs.foldl (fun t q => t.queueGo fn q) t with agenda := t.agenda } : State) = t := by
    induction qs generalizing t with
    | nil => rfl
    | cons q qs ih => exact congrArg (fun u => ({ u with agenda := t.agenda } : State)) (ih (t.queueGo fn q))
  unfold State.queuesGo
  split
  · rfl
  · exact each _ _ s

/-- It posts steps and does nothing else. -/
theorem State.stirFn_frame (s : State) (fn : Nat) : ({ s.stirFn fn with agenda := s.agenda } : State) = s := by
  have all (cs : List Context) (t : State) :
      ({ cs.foldl (fun u c => u.queuesGo c.tag) t with agenda := t.agenda } : State) = t := by
    induction cs generalizing t with
    | nil => rfl
    | cons c cs ih =>
      exact (congrArg (fun u => ({ u with agenda := t.agenda } : State)) (ih (t.queuesGo c.tag))).trans (t.queuesGo_frame c.tag)
  exact all _ s

theorem State.stirFn_fns (s : State) (fn : Nat) : (s.stirFn fn).fns = s.fns :=
  have f := congrArg State.fns (s.stirFn_frame fn)
  f

theorem State.stirFn_groups (s : State) (fn : Nat) : (s.stirFn fn).groups = s.groups :=
  have f := congrArg State.groups (s.stirFn_frame fn)
  f

/-- The restoration of each saved group of a task that has not ended is posted (R465). -/
theorem State.stirFn_restores {s : State} {fn : Nat} {g : Group} (h : g ∈ s.groups) (saved : g.saved = true) (live : g.freed = false)
    {k : Task} (hk : s.task g.task = some k) (mine : k.fn = fn) (runs : k.ended = false) :
    .groupRestore g.gid ∈ (s.stirFn fn).agenda := by
  refine List.mem_append_right _ (List.mem_append_left _ (List.mem_append_left _ (List.mem_append_left _ ?_)))
  exact List.mem_map_of_mem (List.mem_filter.2 ⟨h, by simp [saved, live, hk, mine, runs]⟩)

/-! ### A migration to this module (R454, R483) -/

/-- Handles of a function's groups. -/
def State.handlesOf (s : State) (fn : Nat) : List Nat :=
  (s.groups.filter fun g => (s.task g.task).any fun t => t.fn = fn).map Group.gid

/-- A function that may leave and comes back here has its groups saved, and goes on (R454, R483). -/
theorem vfMigration_home {s : State} {fn : Nat} (hf : fn < 96) (leaves : s.mayLeave fn = true) :
    exec (.vfMigration fn s.modId) s = .next ((s.saveGroups (s.handlesOf fn)).stirFn fn) := by
  have goes : ¬ (decide (96 ≤ fn) || !s.mayLeave fn) = true := by simp [hf, leaves]
  exact congrArg Host.Outcome.next ((if_neg goes).trans (if_pos rfl))

/-- The clause of O46 on a migration to this module, where handles are distinct: no function changes, and each group of a task that
goes on is saved with its restoration posted. -/
theorem vfMigration_home_saves {s : State} {fn : Nat} (hf : fn < 96) (leaves : s.mayLeave fn = true) (clean : s.badLines = [])
    (distinct : (s.groups.map Group.gid).Nodup) :
    ∃ t, exec (.vfMigration fn s.modId) s = .next t ∧ t.fns = s.fns ∧
      ∀ g ∈ t.groups, ∀ k, s.task g.task = some k → k.fn = fn → k.ended = false → g.freed = false →
        g.saved = true ∧ .groupRestore g.gid ∈ t.agenda := by
  refine ⟨_, vfMigration_home hf leaves, (State.stirFn_fns _ fn).trans (State.saveGroups_fns clean _),
    fun g hg k hk mine runs live => ?_⟩
  rw [State.stirFn_groups] at hg
  have task : (s.saveGroups (s.handlesOf fn)).task g.task = some k := by rw [State.task, State.saveGroups_tasks clean, ← hk, State.task]
  have saved : g.saved = true := by
    rw [State.saveGroups_groups clean distinct] at hg
    obtain ⟨g₀, mem, rfl⟩ := List.mem_map.1 hg
    rw [Group.savedAmong_task] at hk
    rw [Group.savedAmong_freed] at live
    have among : g₀.gid ∈ s.handlesOf fn := List.mem_map_of_mem (List.mem_filter.2 ⟨mem, by simp [hk, mine]⟩)
    rw [Group.savedAmong, if_pos ⟨among, live⟩]
  exact ⟨saved, State.stirFn_restores hg saved live task mine runs⟩

/-! ### Two groups with one handle -/

/-- A group of task 1, with handle 1. -/
def handle1 : Group := (bootTask 1).newGroup 1 { gid := 1, idx := 0, core := 0, base := 0, need := (bootTask 1).lrec.need }

/-- Two groups of function 0's task, both with handle 1: the first is freed, the second still placed. -/
def sharedHandle : State := { State.reset with tasks := [bootTask 1], groups := [{ handle1 with freed := true }, handle1] }

/-- Handle 1 names the freed group, so the placed one is not saved. -/
theorem sharedHandle_keeps : sharedHandle.saveGroups (sharedHandle.handlesOf 0) = sharedHandle := by
  have freed : sharedHandle.saveGroup 1 = sharedHandle := State.saveGroup_done (g := { handle1 with freed := true }) rfl rfl
  have handles : sharedHandle.handlesOf 0 = [1, 1] := rfl
  rw [handles, State.saveGroups, List.foldl_cons, freed, List.foldl_cons, freed, List.foldl_nil]

/-- Refutes O46 by its clause on a migration to this module, which does not ask that groups have distinct handles (placement numbers
them apart, LOG 4): in `sharedHandle` function 0 may leave, and comes back with a placed group that is not saved. With distinct handles
the clause holds (`vfMigration_home_saves`). -/
theorem not_functionsAndPartitionsTakeTurns : ¬ Obligations.FunctionsAndPartitionsTakeTurns := by
  unfold Obligations.FunctionsAndPartitionsTakeTurns
  rintro ⟨-, -, -, -, -, -, migratesHome, -⟩
  have leaves : sharedHandle.mayLeave 0 = true := rfl
  obtain ⟨t, run, -, saves⟩ := migratesHome sharedHandle 0 (by decide) leaves rfl
  rw [vfMigration_home (by decide) leaves, sharedHandle_keeps] at run
  obtain rfl := Host.Outcome.next.inj run
  have placed : handle1 ∈ (sharedHandle.stirFn 0).groups := by
    rw [State.stirFn_groups]
    exact List.mem_cons_of_mem _ List.mem_cons_self
  have saved : handle1.saved = true := (saves handle1 placed (bootTask 1) rfl rfl rfl rfl).1
  exact Bool.false_ne_true saved

end Sys2Proof.Machine
end

section
/-!
PROOFS. The decoder undoes the encoder: the fields of an encoded word, the words of each format, an owner and its EXT (R27-R49).
-/

namespace Sys2Proof

/-! ### Fields of words put together (R27, R40) -/

/-- Core's `extractLsb'_append_eq_of_add_le` in the form in which `simp` meets words: with widths that are numerals. -/
@[simp] theorem extractLsb'_append_low {v w k n : Nat} {x : BitVec v} {y : BitVec w} (h : k + n ≤ w) :
    BitVec.extractLsb' (n := no_index (v + w)) k n (HAppend.hAppend (γ := BitVec (no_index (v + w))) x y) = y.extractLsb' k n :=
  BitVec.extractLsb'_append_eq_of_add_le h

/-- Core's `extractLsb'_append_eq_of_le`, likewise. -/
@[simp] theorem extractLsb'_append_high {v w k n : Nat} {x : BitVec v} {y : BitVec w} (h : w ≤ k) :
    BitVec.extractLsb' (n := no_index (v + w)) k n (HAppend.hAppend (γ := BitVec (no_index (v + w))) x y) = x.extractLsb' (k - w) n :=
  BitVec.extractLsb'_append_eq_of_le h

/-- A field that spans the cut is zero when both of its parts are. -/
@[simp] theorem extractLsb'_append_eq_zero {v w k n : Nat} {x : BitVec v} {y : BitVec w} (low : k < w) (high : w < k + n) :
    BitVec.extractLsb' (n := no_index (v + w)) k n (HAppend.hAppend (γ := BitVec (no_index (v + w))) x y) = 0#n ↔
      x.extractLsb' 0 (k + n - w) = 0#(k + n - w) ∧ y.extractLsb' k (w - k) = 0#(w - k) := by
  simp only [BitVec.eq_of_getLsbD_eq_iff, BitVec.getLsbD_extractLsb', BitVec.getLsbD_append, BitVec.getLsbD_zero]
  constructor
  · intro h
    refine ⟨fun i hi => ?_, fun i hi => ?_⟩
    · have := h (i + (w - k)) (by omega)
      grind
    · have := h i (by omega)
      grind
  · rintro ⟨hx, hy⟩ i hi
    by_cases hc : k + i < w
    · have := hy i (by omega)
      grind
    · have := hx (k + i - w) (by omega)
      grind

@[simp] theorem ofBool_eq_one {c : Bool} : BitVec.ofBool c = 1#1 ↔ c = true := by cases c <;> decide

@[simp] theorem fVer_mkWord (v : BitVec 2) (c : Bool) (b : BitVec 29) : fVer (mkWord v c b) = v := by simp [fVer, mkWord]

@[simp] theorem fCh_mkWord (v : BitVec 2) (c : Bool) (b : BitVec 29) : fCh (mkWord v c b) = c := by simp [fCh, mkWord]

@[simp] theorem fMaj_mkWord (v : BitVec 2) (c : Bool) (m : BitVec 6) (b : BitVec 23) : fMaj (mkWord v c (mj m b)) = m := by
  simp [fMaj, mkWord, mj]

@[simp] theorem extractLsb'_mkWord {v : BitVec 2} {c : Bool} {m : BitVec 6} {b : BitVec 23} {k n : Nat} (h : k + n ≤ 23) :
    (mkWord v c (mj m b)).extractLsb' k n = b.extractLsb' k n := by
  have h29 : k + n ≤ 29 := by omega
  simp [mkWord, mj, h, h29]

@[simp] theorem memExt_payload (e : MemExt) : memExt e.payload = e := by simp [memExt, MemExt.payload]

@[simp] theorem atomExt_payload (e : AtomExt) : atomExt e.payload = e := by simp [atomExt, AtomExt.payload]

@[simp] theorem memExt_comp_payload : memExt ∘ MemExt.payload = id := funext memExt_payload

/-! ### The words of each format -/

/-- Whatever their VER and CH, words of this body whose EXT holds `x` stand for `i`. -/
def ReadsAs (b : BitVec 29) (x : Option Payload) (i : Instr) : Prop :=
  ∀ v c, decodeMajor (fMaj (mkWord v c b)) (mkWord v c b) x = .ok i

/-- A body stands for what the decoder `dec` of its major gives. -/
theorem readsAs_mj {m : BitVec 6} {b : BitVec 23} {x : Option Payload} {i : Instr} (dec : Word → DecRes)
    (major : ∀ w, decodeMajor m w x = dec w) (h : ∀ v c, dec (mkWord v c (mj m b)) = .ok i) : ReadsAs (mj m b) x i := by
  intro v c
  rw [fMaj_mkWord, major]
  exact h v c

/-- A body of a major whose words are all instructions. -/
theorem readsAs_ok {m : BitVec 6} {b : BitVec 23} {x : Option Payload} {i : Instr} (g : Word → Instr)
    (major : ∀ w, decodeMajor m w x = .ok (g w)) (h : ∀ v c, g (mkWord v c (mj m b)) = i) : ReadsAs (mj m b) x i :=
  readsAs_mj _ major fun v c => congrArg Except.ok (h v c)

theorem readsAs_v3 {m : BitVec 6} {fn : BitVec 2} {d a b : VCode} {x : Option Payload} {i : Instr} (dec : Word → DecRes)
    (major : ∀ w, decodeMajor m w x = dec w) (h : ∀ w, fFn2 w = fn → fD w = d → fA w = a → fB w = b → dec w = .ok i) :
    ReadsAs (v3 m fn d a b) x i :=
  readsAs_mj dec major fun v c => h _ (by simp [fFn2]) (by simp [fD]) (by simp [fA]) (by simp [fB])

/-- Reserved fields of KF span the fields of its other rows (R47): they are zero when those are. -/
theorem readsAs_kf {fn : BitVec 5} {kd ka kb : KCode} {a : VCode} {i : Instr}
    (h : ∀ w, fFn5 w = fn → w.extractLsb' 15 3 = kd → w.extractLsb' 12 3 = ka → w.extractLsb' 9 3 = kb → w.extractLsb' 2 7 = a →
      w.extractLsb' 0 2 = 0#2 → (w.extractLsb' 0 9 = 0#9 ↔ a = 0#7) → (w.extractLsb' 0 12 = 0#12 ↔ kb = 0#3 ∧ a = 0#7) →
      (w.extractLsb' 0 15 = 0#15 ↔ (ka = 0#3 ∧ kb = 0#3) ∧ a = 0#7) → dec19 w = .ok i) : ReadsAs (kf fn kd ka kb a) none i :=
  readsAs_mj dec19 (fun _ => rfl) fun v c =>
    h _ (by simp [fFn5]) (by simp) (by simp) (by simp) (by simp) (by simp) (by simp) (by simp) (by simp)

theorem readsAs_s3 {fn : BitVec 5} {d a b : SCode} {i : Instr}
    (h : ∀ w, fFn5 w = fn → fSD w = d → fSA w = a → fSB w = b → dec20 w = .ok i) : ReadsAs (s3 fn d a b) none i :=
  readsAs_mj dec20 (fun _ => rfl) fun v c => h _ (by simp [fFn5]) (by simp [fSD]) (by simp [fSA]) (by simp [fSB])

theorem readsAs_memw {m : BitVec 6} {l : BitVec 4} {st b : Bool} {wd : BitVec 3} {d a : VCode} {x : Option Payload} {i : Instr}
    (dec : Word → Option Payload → DecRes) (major : ∀ w, decodeMajor m w x = dec w x)
    (h : ∀ w, fLA w = l → fST w = st → fW w = wd → fMD w = d → fMA w = a → fM w = b → dec w x = .ok i) :
    ReadsAs (memw m l st wd d a b) x i :=
  readsAs_mj (dec · x) major fun v c =>
    h _ (by simp [fLA]) (by simp [fST]) (by simp [fW]) (by simp [fMD]) (by simp [fMA]) (by simp [fM])

/-- A load of a width code that it may have. -/
theorem asLoad_ok {w : Word} {wd : BitVec 3} (hw : fW w = wd) (h : loadWidthOk wd = true) (i : Instr) : asLoad w i = .ok i := by
  rw [asLoad, hw, h]; rfl

theorem asStore_ok {w : Word} {wd : BitVec 3} (hw : fW w = wd) (h : storeWidthOk wd = true) (i : Instr) : asStore w i = .ok i := by
  rw [asStore, hw, h]; rfl

/-- Width code 7 names no load (R48). -/
theorem ne_seven_of_loadWidthOk {wd : BitVec 3} (h : loadWidthOk wd = true) : wd ≠ 7#3 := of_decide_eq_true h

/-! ### The decoder undoes the encoder -/

/-- The words of every well-formed instruction stand for it: one case for each major of R47. -/
theorem readsAs_body (i : Instr) (h : i.wellFormed = true) : ReadsAs i.body i.ext i := by
  cases i with
  | iadd d a b | isub d a b | imul d a b | imulhi d a b =>
    exact readsAs_v3 dec00 (fun _ => rfl) fun w hf hd ha hb => by simp [dec00, hf, hd, ha, hb]
  | imad d a b | imin d a b | imax d a b | iabsd d a b =>
    exact readsAs_v3 dec01 (fun _ => rfl) fun w hf hd ha hb => by simp [dec01, hf, hd, ha, hb]
  | nmin d a b | nmax d a b | nmulhi d a b | iadds d a b =>
    exact readsAs_v3 dec02 (fun _ => rfl) fun w hf hd ha hb => by simp [dec02, hf, hd, ha, hb]
  | and d a b | or d a b | xor d a b | andn d a b =>
    exact readsAs_v3 dec03 (fun _ => rfl) fun w hf hd ha hb => by simp [dec03, hf, hd, ha, hb]
  | shl d a b | shr d a b | sar d a b | rotl d a b =>
    exact readsAs_v3 dec04 (fun _ => rfl) fun w hf hd ha hb => by simp [dec04, hf, hd, ha, hb]
  | popc d a | clz d a | brev d a | bfx d a b =>
    exact readsAs_v3 dec07 (fun _ => rfl) fun w hf hd ha hb => by simp [dec07, unary, hf, hd, ha, hb]
  | bfi d a b | sel d a b | idp4 d a b | ndp4 d a b =>
    exact readsAs_v3 dec08 (fun _ => rfl) fun w hf hd ha hb => by simp [dec08, hf, hd, ha, hb]
  | fadd d a b | fsub d a b | fmul d a b | fma d a b =>
    exact readsAs_v3 dec09 (fun _ => rfl) fun w hf hd ha hb => by simp [dec09, hf, hd, ha, hb]
  | fms d a b | fmin d a b | fmax d a b | fcps d a b =>
    exact readsAs_v3 dec0A (fun _ => rfl) fun w hf hd ha hb => by simp [dec0A, hf, hd, ha, hb]
  | fabs d a | fneg d a | frnd d a | fcls d a =>
    exact readsAs_v3 dec0B (fun _ => rfl) fun w hf hd ha hb => by simp [dec0B, unary, hf, hd, ha, hb]
  | dadd d a b | dsub d a b | dmul d a b | dfma d a b =>
    exact readsAs_v3 dec0C (fun _ => rfl) fun w hf hd ha hb => by simp [dec0C, hf, hd, ha, hb]
  | dmin d a b | dmax d a b | drnd d a | dneg d a =>
    exact readsAs_v3 dec0D (fun _ => rfl) fun w hf hd ha hb => by simp [dec0D, unary, hf, hd, ha, hb]
  | hadd2 d a b | hmul2 d a b | hfma2 d a b | hmax2 d a b =>
    exact readsAs_v3 dec0E (fun _ => rfl) fun w hf hd ha hb => by simp [dec0E, hf, hd, ha, hb]
  | badd2 d a b | bmul2 d a b | bfma2 d a b | bmax2 d a b =>
    exact readsAs_v3 dec0F (fun _ => rfl) fun w hf hd ha hb => by simp [dec0F, hf, hd, ha, hb]
  | radd d a b | rsub d a b | rfrom d a | rfix d a =>
    exact readsAs_v3 dec12 (fun _ => rfl) fun w hf hd ha hb => by simp [dec12, unary, hf, hd, ha, hb]
  | rscl d a b | readd d a b | refrom d a | refix d a =>
    exact readsAs_v3 dec13 (fun _ => rfl) fun w hf hd ha hb => by simp [dec13, unary, hf, hd, ha, hb]
  | rcp d a | rsq d a | sqrt d a | exp2 d a =>
    exact readsAs_v3 dec14 (fun _ => rfl) fun w hf hd ha hb => by simp [dec14, unary, hf, hd, ha, hb]
  | log2 d a | sin d a | cos d a | tanh d a =>
    exact readsAs_v3 dec15 (fun _ => rfl) fun w hf hd ha hb => by simp [dec15, unary, hf, hd, ha, hb]
  | shfl d a b | shflx d a b | shflr d a b | bcst d a b =>
    exact readsAs_v3 dec16 (fun _ => rfl) fun w hf hd ha hb => by simp [dec16, hf, hd, ha, hb]
  | shflf d a b | shflxf d a b | shflrf d a b | bcstf d a b =>
    exact readsAs_v3 dec17 (fun _ => rfl) fun w hf hd ha hb => by simp [dec17, hf, hd, ha, hb]
  | iaddi d a imm | imuli d a imm | andi d a imm | ori d a imm =>
    exact readsAs_v3 dec05 (fun _ => rfl) fun w hf hd ha hb => by simp [dec05, hf, hd, ha, hb]
  | shli d a imm | shri d a imm | sari d a imm | xori d a imm =>
    exact readsAs_v3 dec06 (fun _ => rfl) fun w hf hd ha hb => by simp [dec06, hf, hd, ha, hb]
  | icmp n q k a b | ncmp n q k a b | fcmp n q k a b | dcmp n q k a b =>
    exact readsAs_mj dec10 (fun _ => rfl) fun v c => by simp [dec10, fFn2, fA, fB]
  | cvt d a s t =>
    exact readsAs_mj (dec11 · none) (fun _ => rfl) fun v c => by simp [dec11, fFn2, fD, fA, reservedThen]
  | cvtx d a s t r =>
    exact readsAs_mj (dec11 · (some (r ++ 0#21))) (fun _ => rfl) fun v c => by simp [dec11, fFn2, fD, fA, zeroThen]
  | pk2 d a b | hi16 d a =>
    exact readsAs_v3 (dec11 · none) (fun _ => rfl) fun w hf hd ha hb => by simp [dec11, unary, hf, hd, ha, hb]
  | redlog d a o | scanlog d a x o =>
    exact readsAs_mj dec18 (fun _ => rfl) fun v c => by simp [dec18, fFn2, fD, fA, reservedThen]
  | matchv d a | mrank d a =>
    exact readsAs_v3 dec18 (fun _ => rfl) fun w hf hd ha hb => by simp [dec18, unary, hf, hd, ha, hb]
  | kand kd ka kb | kor kd ka kb | kxor kd ka kb | kandn kd ka kb | knot kd ka | kmov kd ka | kset kd | kclr kd | emset ka | emand ka
  | emget kd | vote kd a =>
    exact readsAs_kf fun w hf hd ha hb hv z2 z9 z12 z15 => by simp [dec19, zeroThen, hf, hd, ha, hb, hv, z2, z9, z12, z15]
  | ktos s k | stok s k | kpop s k | emtos s | stoem s =>
    exact readsAs_mj dec1A (fun _ => rfl) fun v c => by simp [dec1A, fFn3, zeroThen]
  | sadd d a b | ssub d a b | smul d a b | smulhi d a b | sand d a b | sor d a b | sxor d a b | sshl d a b | sshr d a b | ssar d a b
  | smin d a b | smax d a b | sminn d a b | smaxn d a b | seq d a b | sne d a b | slt d a b | sltn d a b | sle d a b | slen d a b
  | smov d a | ssel d a b =>
    exact readsAs_s3 fun w hf hd ha hb => by simp [dec20, zeroThen, hf, hd, ha, hb]
  | sshli d a i | sshri d a i | ssari d a i | sandi d a i =>
    exact readsAs_mj dec24 (fun _ => rfl) fun v c => by simp [dec24, fS17]
  | srd p s | swr p s =>
    exact readsAs_mj dec25 (fun _ => rfl) fun v c => by simp [dec25, zeroThen]
  | bany k o | ball k o | bnone k o | bemz o =>
    exact readsAs_mj dec2C (fun _ => rfl) fun v c => by simp [dec2C, fFn2, zeroThen]
  | nop | ret | exit | trap n | rett | bkpt n | sleep s | sleepb s e | waitb s e | yield | mode h m v | safept n | xfer v | xferClr
  | xferq s | halt =>
    exact readsAs_mj dec2F (fun _ => rfl) fun v c => by simp [dec2F, zeroThen]
  | rep c x y z t =>
    exact readsAs_mj dec30 (fun _ => rfl) fun v c => by simp [dec30, fS17, zeroThen]
  | ldk l wd d a e =>
    exact readsAs_memw (x := e.map MemExt.payload) dec31 (fun _ => rfl) fun w hl hs hw hd ha hm => by
      simp [dec31, asLoad_ok hw h, hl, hs, hw, hd, ha, hm]
  | stk l wd d a e =>
    exact readsAs_memw (x := e.map MemExt.payload) dec31 (fun _ => rfl) fun w hl hs hw hd ha hm => by
      simp [dec31, asStore_ok hw h, hl, hs, hw, hd, ha, hm]
  | lds l wd d a e =>
    exact readsAs_memw (x := e.map MemExt.payload) dec32 (fun _ => rfl) fun w hl hs hw hd ha hm => by
      simp [dec32, ne_seven_of_loadWidthOk h, asLoad_ok hw h, hl, hs, hw, hd, ha, hm]
  | sts l wd d a e =>
    exact readsAs_memw (x := e.map MemExt.payload) dec32 (fun _ => rfl) fun w hl hs hw hd ha hm => by
      simp [dec32, asStore_ok hw h, hl, hs, hw, hd, ha, hm]
  | ldsDesc l d a e | stsDesc l d a e =>
    exact readsAs_memw (x := e.map MemExt.payload) dec32 (fun _ => rfl) fun w hl hs hw hd ha hm => by
      simp [dec32, widthThen, hl, hs, hw, hd, ha, hm]
  | ats l d a e =>
    exact readsAs_memw (x := some e.payload) dec32 (fun _ => rfl) fun w hl hs hw hd ha hm => by
      simp [dec32, asAtom, reservedThen, hl, hs, hw, hd, ha, hm]
  | ldc l wd d a e =>
    exact readsAs_memw (x := e.map MemExt.payload) dec33 (fun _ => rfl) fun w hl hs hw hd ha hm => by
      simp [dec33, ne_seven_of_loadWidthOk h, asLoad_ok hw h, hl, hs, hw, hd, ha, hm]
  | ldcStep l wd d a t n =>
    exact readsAs_memw (x := some (t ++ n ++ 0#16)) dec33 (fun _ => rfl) fun w hl hs hw hd ha hm => by
      simp [dec33, ne_seven_of_loadWidthOk h, zeroThen, hl, hs, hw, hd, ha, hm]
  | stc l wd d a e =>
    exact readsAs_memw (x := e.map MemExt.payload) dec33 (fun _ => rfl) fun w hl hs hw hd ha hm => by
      simp [dec33, asStore_ok hw h, hl, hs, hw, hd, ha, hm]
  | atc l d a e =>
    exact readsAs_memw (x := some e.payload) dec33 (fun _ => rfl) fun w hl hs hw hd ha hm => by
      simp [dec33, asAtom, reservedThen, hl, hs, hw, hd, ha, hm]
  | ldg l wd d a e =>
    exact readsAs_memw (x := e.map MemExt.payload) dec34 (fun _ => rfl) fun w hl hs hw hd ha hm => by
      simp [dec34, ne_seven_of_loadWidthOk h, asLoad_ok hw h, hl, hs, hw, hd, ha, hm]
  | stg l wd d a e =>
    exact readsAs_memw (x := e.map MemExt.payload) dec34 (fun _ => rfl) fun w hl hs hw hd ha hm => by
      simp [dec34, asStore_ok hw h, hl, hs, hw, hd, ha, hm]
  | ldgDesc l d a e | stgDesc l d a e =>
    exact readsAs_memw (x := e.map MemExt.payload) dec34 (fun _ => rfl) fun w hl hs hw hd ha hm => by
      simp [dec34, widthThen, hl, hs, hw, hd, ha, hm]
  | atg l d a e =>
    exact readsAs_memw (x := some e.payload) dec34 (fun _ => rfl) fun w hl hs hw hd ha hm => by
      simp [dec34, asAtom, reservedThen, hl, hs, hw, hd, ha, hm]
  | ldn l wd d a m e =>
    exact readsAs_memw (x := e.map MemExt.payload) dec35 (fun _ => rfl) fun w hl hs hw hd ha hm => by
      simp [dec35, ne_seven_of_loadWidthOk h, asLoad_ok hw h, hl, hs, hw, hd, ha, hm]
  | stn l wd d a m e =>
    exact readsAs_memw (x := e.map MemExt.payload) dec35 (fun _ => rfl) fun w hl hs hw hd ha hm => by
      simp [dec35, asStore_ok hw h, hl, hs, hw, hd, ha, hm]
  | atn l d a m e =>
    exact readsAs_memw (x := some e.payload) dec35 (fun _ => rfl) fun w hl hs hw hd ha hm => by
      simp [dec35, asAtom, reservedThen, hl, hs, hw, hd, ha, hm]
  | ldh l wd d a m e =>
    exact readsAs_memw (x := e.map MemExt.payload) dec36 (fun _ => rfl) fun w hl hs hw hd ha hm => by
      simp [dec36, ne_seven_of_loadWidthOk h, asLoad_ok hw h, hl, hs, hw, hd, ha, hm]
  | sth l wd d a m e =>
    exact readsAs_memw (x := e.map MemExt.payload) dec36 (fun _ => rfl) fun w hl hs hw hd ha hm => by
      simp [dec36, asStore_ok hw h, hl, hs, hw, hd, ha, hm]
  | ath l d a m e =>
    exact readsAs_memw (x := some e.payload) dec36 (fun _ => rfl) fun w hl hs hw hd ha hm => by
      simp [dec36, asAtom, reservedThen, hl, hs, hw, hd, ha, hm]
  | cpyb sd sc | cpybRing sd sr sc =>
    exact readsAs_mj dec38 (fun _ => rfl) fun v c => by simp [dec38, fFn2, zeroThen]
  | rinit a b n | rwait a b n | rrel a b n | rfin a b =>
    exact readsAs_mj dec39 (fun _ => rfl) fun v c => by simp [dec39, fFn3, zeroThen]
  | mcfg s | mcvt d | mzero d | mwait d =>
    exact readsAs_mj dec3B (fun _ => rfl) fun v c => by simp [dec3B, fFn3, zeroThen, reservedThen]
  | barinit b s | bararv b s c | barwt b s c | barsyn b c | barfin b | barst b s | fence k c | fencesc c | qend | stepend | tbwait t
  | tbfull t | tbempty t s l | pub n c =>
    exact readsAs_mj dec3C (fun _ => rfl) fun v c => by simp [dec3C, fFn5, zeroThen]
  | spawn s a t | depdec a | csopen s | csclose | cancel s | cwait s t | signal s p q r t | waitsig s p q r t =>
    exact readsAs_mj dec3D (fun _ => rfl) fun v c => by simp [dec3D, zeroThen]
  | vli d i | vlih d i | vtos s a l | sli d i | slis d i | saddi d a i | bra o | call o | bnz s o | bz s o | loop s o | cpy l r z a b
  | mloop l d a b =>
    exact readsAs_ok _ (fun _ => rfl) fun v c => by simp [fD16, fS17, fLA, fA, fB, fSA, fSB]
  | stov d s =>
    exact readsAs_mj (fun w => zeroThen (w.extractLsb' 0 10 = 0) (.stov (fD16 w) (w.extractLsb' 10 6))) (fun _ => rfl) fun v c => by
      simp [fD16, zeroThen]
  | tfix a =>
    exact readsAs_mj (fun w => zeroThen (w.extractLsb' 0 16 = 0) (.tfix (fD16 w))) (fun _ => rfl) fun v c => by simp [fD16, zeroThen]
  | callx a =>
    exact readsAs_mj (fun w => zeroThen (w.extractLsb' 0 16 = 0) (.callx (fD16 w))) (fun _ => rfl) fun v c => by simp [fD16, zeroThen]
  | _ => exact nomatch h

/-- Words that may have an EXT take one (R33, R46). -/
theorem takesExt_mkWord {i : Instr} {p : Payload} (h : i.ext = some p) (v : BitVec 2) (c : Bool) :
    takesExt (mkWord v c i.body) = true := by
  have memory : ∀ {m : BitVec 6} (b : BitVec 23), (0x31 ≤ m.toNat && m.toNat ≤ 0x36) = true →
      takesExt (mkWord v c (mj m b)) = true := by
    intro m b hm
    rw [takesExt, fMaj_mkWord, hm]
    rfl
  cases i with
  | ldk | stk | lds | ldsDesc | sts | stsDesc | ats | ldc | ldcStep | stc | atc | ldg | ldgDesc | stg | stgDesc | atg | ldn | stn | atn
  | ldh | sth | ath => exact memory _ rfl
  | cvtx d a s t r =>
    change takesExt (mkWord v c (v3 0x11 1 d a (0#1 ++ s ++ t))) = true
    simp [takesExt, v3, fFn2]
  | _ => exact nomatch h

/-- An owner and the EXT after it join, where the owner's CH allows it (R33). -/
theorem joinedExt_mkWord {i : Instr} {p : Payload} (h : i.ext = some p) (v : BitVec 2) (c : Bool) :
    joinedExt (mkWord v true i.body) [mkWord v c (mj 0x3F#6 p)] = some (mkWord v c (mj 0x3F#6 p)) := by
  simp [joinedExt, takesExt_mkWord h, isExt]

theorem ReadsAs.decodeWord {b : BitVec 29} {x : Option Payload} {i : Instr} (h : ReadsAs b x i) (v : BitVec 2) (c : Bool) :
    decodeWord (mkWord v c b) x = .ok i := by
  rw [Sys2Proof.decodeWord, h v c]
  rfl

/-- Settles O58: encoded words are one word, or an owner and its EXT, and `readsAs_body` reads each back. -/
theorem decodingUndoesEncoding : Obligations.DecodingUndoesEncoding := by
  unfold Obligations.DecodingUndoesEncoding
  intro i ver ch wf _
  have reads := readsAs_body i wf
  cases hx : i.ext with
  | none =>
    rw [hx] at reads
    simp [encode, hx, decode, joinedExt, reads.decodeWord, Except.map]
  | some p =>
    rw [hx] at reads
    simp [encode, hx, decode, joinedExt_mkWord hx, reads.decodeWord, Except.map]

/-- Settles O59, by running the decoder on each word. -/
theorem printedWordsDecode : Obligations.PrintedWordsDecode :=
  ⟨rfl, rfl, rfl, rfl, rfl, rfl, rfl, rfl, rfl, rfl, rfl, rfl, rfl, rfl, rfl, rfl, rfl⟩

end Sys2Proof
end

section
/-!
PROOFS. What source codes read (R35, R36, R206).
-/

namespace Sys2Proof.Machine

open Sys2Proof

theorem Regs.file_v (r : Regs) {c : Nat} (h : c < 96) : r.file c = r.v[c] := by
  simp [Regs.file, h]

theorem Regs.file_o (r : Regs) {c : Nat} (h : 96 ≤ c ∧ c < 104) : r.file c = r.o[c - 96]'(by omega) := by
  have v : ¬ c < 96 := by omega
  have o : c - 96 < 8 := by omega
  simp [Regs.file, v, h.2, o]

theorem Regs.file_w (r : Regs) {c : Nat} (h : 104 ≤ c ∧ c < 108) : r.file c = r.w[c - 104]'(by omega) := by
  have v : ¬ c < 96 := by omega
  have o : ¬ c < 104 := by omega
  have w : c - 104 < 4 := by omega
  simp [Regs.file, v, o, h.2, w]

theorem Regs.src_file (r : Regs) {c : VCode} (h : c.toNat < 108) : r.src c = r.file c.toNat := if_pos h

theorem Regs.src_zero (r : Regs) : r.src 108 = Row.zero := rfl

theorem Regs.src_index (r : Regs) : r.src 109 = rowOf fun i => BitVec.ofNat 32 i := rfl

theorem Regs.src_32 (r : Regs) : r.src 110 = rowOf fun _ => 32 := rfl

theorem Regs.src_16 (r : Regs) : r.src 111 = rowOf fun _ => 16 := rfl

/-- A code from 112 on reads s0 to s15 in every lane. -/
theorem Regs.src_scalar (r : Regs) {c : VCode} (h : 112 ≤ c.toNat) :
    r.src c = rowOf fun _ => (r.getS (BitVec.ofNat 6 (c.toNat - 112))).setWidth 32 := by
  have code : c.setWidth 6 - 48 = BitVec.ofNat 6 (c.toNat - 112) := by
    have := c.isLt
    apply BitVec.eq_of_toNat_eq
    change (c.setWidth 6 - 48#6).toNat = _
    rw [BitVec.toNat_sub, BitVec.toNat_setWidth, BitVec.toNat_ofNat, BitVec.toNat_ofNat]
    omega
  have file : ¬ c.toNat < 108 := by omega
  have named : ∀ k : VCode, k.toNat < 112 → c ≠ k := by rintro k hk rfl; omega
  rw [Regs.src, if_neg file, if_neg (named 108 (by decide)), if_neg (named 109 (by decide)), if_neg (named 110 (by decide)),
    if_neg (named 111 (by decide)), code]

/-- Settles O14: one case for each range of codes. -/
theorem sourceCodesReadTheirOperands : Obligations.SourceCodesReadTheirOperands := by
  unfold Obligations.SourceCodesReadTheirOperands
  intro r c i hi
  refine ⟨fun v => ?_, fun o => ?_, fun w => ?_, ?_, ?_, ?_, ?_, fun s => ?_, fun vo _ => if_pos (by omega), r.getS_zero⟩
  · rw [r.src_file (by omega), r.file_v v]
  · rw [r.src_file (by omega), r.file_o o]
  · rw [r.src_file (by omega), r.file_w w]
  · rintro rfl
    rw [Regs.src_zero, laneOf_zero]
  · rintro rfl
    rw [Regs.src_index, laneOf_rowOf _ hi]
  · rintro rfl
    rw [Regs.src_32, laneOf_rowOf _ hi]
  · rintro rfl
    rw [Regs.src_16, laneOf_rowOf _ hi]
  · rw [r.src_scalar s, laneOf_rowOf _ hi]

end Sys2Proof.Machine
end

section
/-!
PROOFS. Traps of the word in issue, and words that firmware alone may run (R50, R440-R442, R461).
-/

namespace Sys2Proof.Machine

open Sys2Proof Sys2Proof.Rules

theorem toNat_append_add {v w : Nat} (x : BitVec v) (y : BitVec w) : (x ++ y).toNat = x.toNat * 2 ^ w + y.toNat := by
  rw [BitVec.toNat_append, ← Nat.shiftLeft_add_eq_or_of_lt y.isLt, Nat.shiftLeft_eq]

/-- %traux packs the word in issue, its slot and its destination code (R440). -/
theorem State.aux_eq_auxOf (s : State) (i : Instr) : s.aux i = auxOf s (s.sh.use i).destCode.toNat := by
  have := s.sh.latch.word.isLt
  have := s.sh.latch.slot.isLt
  have := (s.sh.use i).destCode.isLt
  apply BitVec.eq_of_toNat_eq
  rw [State.aux, auxOf, BitVec.toNat_ofNat]
  simp only [toNat_append_add, BitVec.toNat_ofNat]
  omega

/-- Where traps are taken at once, a trap enters the handler (R441, R442). -/
theorem State.takeTrap_enters {s : State} (h : canTrap s) {p : PendTrap} (bkpt : p.cause ≠ .bkpt) (named : p.emMask = false)
    (a b : BitVec 32) : entered s (s.takeTrap p a b) p.cause.code a b p.mask p.aux ∧ (s.takeTrap p a b).sh.prio = s.sh.prio ∧
      (s.takeTrap p a b).sh.quant = s.sh.quant ∧ (s.takeTrap p a b).halted = s.halted := by
  obtain ⟨hnd, -, loads, loops, replays, rep, base, target⟩ := h
  have mask : (if p.emMask then s.sh.regs.em else p.mask) = p.mask := by rw [named]; rfl
  rw [State.takeTrap_idle loads loops replays rep, State.enterHandler_valid hnd (by simp [bkpt]) base target, mask]
  exact ⟨⟨rfl, rfl, rfl, rfl, rfl, rfl, rfl, rfl, rfl, rfl, rfl, rfl, rfl, rfl, rfl, rfl, rfl, rfl, rfl, rfl, rfl, rfl⟩,
    rfl, rfl, rfl⟩

/-- A trap of the word in issue takes its group back and reports the word (R440, R441). -/
theorem State.trapWord_enters {s : State} (h : canTrap s) {c : Cause} (bkpt : c ≠ .bkpt) (i : Instr) :
    entered s (s.trapWord i c none) c.code s.sh.pc s.sh.pc s.sh.em (s.aux i) ∧ (s.trapWord i c none).sh.prio = s.sh.prio ∧
      (s.trapWord i c none).sh.quant = s.sh.quant ∧ (s.trapWord i c none).halted = s.halted :=
  State.takeTrap_enters (s := s.upd fun h => { h with trapped := some ⟨c, s.sh.em, s.aux i⟩ })
    (p := { kind := .group, cause := c, pc := some s.sh.pc, mask := s.sh.em, aux := s.aux i }) h bkpt rfl s.sh.pc s.sh.pc

/-- A legal word that firmware alone may run fails the check of R50 elsewhere. -/
theorem State.firstCheck_priv {s : State} {i : Instr} (legal : (s.sh.use i).legal = true) (priv : privileged i = true)
    (outside : s.tag ≠ 0) : s.firstCheck i = some .priv := by
  have gate : (privileged i && decide (s.tag ≠ 0)) = true := by rw [priv, decide_eq_true outside]; rfl
  simp only [State.firstCheck, legal, gate, Bool.not_true, Bool.false_eq_true, if_false, if_true]

/-- Such a word enters the handler with PRIV, and has no effect of its own (R50, R442). -/
theorem State.issueWait_priv {s : State} (h : canTrap s) (outside : s.tag ≠ 0) (wait : s.sh.wait = none) (snap : s.sh.snap = none)
    {i : Instr} (legal : (s.sh.use i).legal = true) (priv : privileged i = true) (dest : (s.sh.use i).destCode = 0x1FF)
    (f : State → State) : ∃ t, s.issueWait i f = .next t ∧ entered s t 0x07 s.sh.pc s.sh.pc s.sh.em (auxOf s 0x1FF) ∧
      t.sh.prio = s.sh.prio ∧ t.sh.quant = s.sh.quant ∧ t.halted = s.halted := by
  have aux : s.aux i = auxOf s 0x1FF := by rw [State.aux_eq_auxOf, dest]; rfl
  refine ⟨_, State.issueWait_traps wait snap (State.firstCheck_priv legal priv outside) f, ?_⟩
  rw [← aux]
  exact State.trapWord_enters h (by decide) i

/-- Settles O16: each of the three is a privileged word whose other checks before R50's hold. -/
theorem privilegedWordsTrapOutsideFirmware : Obligations.PrivilegedWordsTrapOutsideFirmware := by
  unfold Obligations.PrivilegedWordsTrapOutsideFirmware
  intro s a can outside wait snap i hi
  simp only [List.mem_cons, List.not_mem_nil, or_false] at hi
  rcases hi with rfl | rfl | rfl
  · change ∃ t, execHalt s = .next t ∧ _
    exact State.issueWait_priv (i := .halt) can outside wait snap rfl rfl rfl _
  · change ∃ t, execSwr 34 a s = .next t ∧ _
    exact State.issueWait_priv (i := .swr 34 a) can outside wait snap rfl rfl rfl _
  · change ∃ t, execSwr 35 a s = .next t ∧ _
    exact State.issueWait_priv (i := .swr 35 a) can outside wait snap rfl rfl rfl _

end Sys2Proof.Machine
end

section
/-!
PROOFS. A step runs the instruction of a lone word (R29, R30, R33, R52).
-/

namespace Sys2Proof.Machine

open Sys2Proof

/-! ### What leaves the sheaf in the issue slot (R86, R89, R494, R495) -/

theorem State.logAt_sh (s : State) (die : Option Nat) (what : String) (addr syn : Nat) : (s.logAt die what addr syn).sh = s.sh :=
  have f := congrArg State.sh (s.logAt_frame die what addr syn)
  f

theorem State.correct_sh (s : State) (ks : List Nat) : (s.correct ks).sh = s.sh :=
  have f := congrArg State.sh (s.correct_frame ks)
  f

theorem State.meetLine_sh (s : State) (k : Nat) (whole : Bool) : (s.meetLine k whole).1.sh = s.sh := by
  unfold State.meetLine
  simp only
  split
  · exact s.correct_sh [k]
  · split
    · exact s.correct_sh [k]
    · split
      · exact s.correct_sh [k]
      · exact (State.logAt_sh _ _ _ _ _).trans (s.correct_sh [k])

theorem State.putFor_sh (s : State) (tag : BitVec 12) (k : Nat) (bs : List Byte) : (s.putFor tag k bs).sh = s.sh := by
  have met := s.meetLine_sh k (bs.length = 64 && k % 64 = 0)
  unfold State.putFor
  split <;> rename_i e <;> rw [e] at met <;> exact met

theorem State.putVA_sh (s : State) (tag : BitVec 12) (va : Nat) (bs : List Byte) : (s.putVA tag va bs).sh = s.sh := by
  have walked : (s.correctWalk tag va).sh = s.sh := by
    unfold State.correctWalk
    split
    · rfl
    · exact s.correct_sh _
  unfold State.putVA
  split
  · rfl
  · simp only
    split
    · split
      · exact (State.putFor_sh _ _ _ _).trans walked
      · exact walked
    · exact walked

theorem State.onFn_sh (s : State) (fn : Nat) (f : VirtFn → VirtFn) : (s.onFn fn f).sh = s.sh := by
  unfold State.onFn
  split <;> rfl

theorem State.traceRec_sh (s : State) (fn : Nat) (tag : BitVec 12) (bs : List Byte) : (s.traceRec fn tag bs).sh = s.sh := by
  unfold State.traceRec
  split
  · rfl
  · simp only
    split
    · exact (State.onFn_sh _ _ _).trans (s.putVA_sh _ _ _)
    · exact s.onFn_sh _ _

theorem State.beginTrace_sh (s : State) (fn : Nat) (tag : BitVec 12) (source : Nat) : (s.beginTrace fn tag source).sh = s.sh := by
  unfold State.beginTrace
  split
  · split
    · exact (State.traceRec_sh _ _ _ _).trans (s.onFn_sh _ _)
    · rfl
  · rfl

theorem State.traceIssue_sh (s : State) (a : Nat) : (s.traceIssue a).sh = s.sh := by
  unfold State.traceIssue
  split
  · simp only
    split
    · rfl
    · split
      · exact s.beginTrace_sh _ _ _
      · rfl
  · rfl

/-! ### The words of a lone instruction (R30, R33) -/

/-- What the decoder accepts: one word, or an owner and the EXT after it. -/
theorem decode_ok {w : Word} {rest : List Word} {sl : Slot} {n : Nat} (h : decode (w :: rest) = .ok (sl, n)) :
    (joinedExt w rest = none ∧ n = 1 ∧ decodeWord w none = .ok sl.instr ∧ sl.ch = if fVer w = 1 then fCh w else false) ∨
    (∃ x r, rest = x :: r ∧ joinedExt w [x] = some x ∧ n = 2 ∧ fVer x = fVer w ∧
      decodeWord w (some (x.extractLsb' 0 23)) = .ok sl.instr ∧ sl.ch = if fVer w = 1 then fCh x else false) := by
  unfold decode at h
  cases hj : joinedExt w rest with
  | none =>
    simp only [hj] at h
    left
    cases hd : decodeWord w none with
    | error e => simp [hd, Except.map] at h
    | ok i =>
      simp only [hd, Except.map, Except.ok.injEq, Prod.mk.injEq] at h
      obtain ⟨rfl, rfl⟩ := h
      exact ⟨rfl, rfl, rfl, rfl⟩
  | some x =>
    simp only [hj] at h
    right
    cases rest with
    | nil => simp [joinedExt] at hj
    | cons y r =>
      have joins : joinedExt w [y] = some x := hj
      obtain rfl : y = x := by
        simp only [joinedExt] at hj
        split at hj
        · exact Option.some.inj hj
        · cases hj
      split at h
      · cases h
      · next ver =>
        cases hd : decodeWord w (some (y.extractLsb' 0 23)) with
        | error e => simp [hd, Except.map] at h
        | ok i =>
          simp only [hd, Except.map, Except.ok.injEq, Prod.mk.injEq] at h
          obtain ⟨rfl, rfl⟩ := h
          exact ⟨y, r, rfl, joins, rfl, not_not.1 ver, hd, rfl⟩

/-- The word and its EXT, as the group of a lone instruction holds them. -/
def loneWord (w : Word) (rest : List Word) (a n : Nat) (i : Instr) : GWord :=
  { word := w, ext := if n = 2 then rest.head? else none, addr := a, instr := .ok i }

/-- A lone instruction's words are its group: they break no chain, and parse to the one word. -/
theorem lone_group {w : Word} {rest : List Word} {sl : Slot} {n : Nat} (h : decode (w :: rest) = .ok (sl, n)) (ver : fVer w ≠ 3#2)
    (ch : sl.ch = false) (a : Nat) : ∃ ws, groupOf (w :: rest) = ws ∧ parseGroup a ws = [loneWord w rest a n sl.instr] ∧
      chainBreak ws = none ∧ (ws.findIdx? fun x => fVer x = 3#2) = none := by
  rcases decode_ok h with ⟨alone, rfl, dec, hc⟩ | ⟨x, r, rfl, joins, rfl, vx, dec, hc⟩
  · have last : fVer w = 1#2 → fCh w = false := fun v => by simpa [v, ch] using hc.symm
    refine ⟨[w], ?_, ?_, ?_, ?_⟩
    · by_cases v : fVer w = 1#2
      · cases rest <;> simp [groupOf, nativeChain, v, last]
      · simp [groupOf, v, alone]
    · simp [parseGroup, loneWord, dec]
    · simpa [chainBreak] using last
    · simp [ver]
  · have last : fVer x = 1#2 → fCh x = false := fun v => by simpa [vx, ← v, ch] using hc.symm
    have owner : fVer w = 1#2 → fCh w = true := by
      intro v
      simp only [joinedExt] at joins
      split at joins
      · next c =>
        simp only [v, Bool.and_eq_true, Bool.or_eq_true] at c
        simpa using c.2
      · cases joins
    have join : joinedExt w (x :: r) = some x := joins
    refine ⟨[w, x], ?_, ?_, ?_, ?_⟩
    · by_cases v : fVer w = 1#2
      · have vx' : fVer x = 1#2 := vx.trans v
        cases r <;> simp [groupOf, nativeChain, v, vx', owner v, last vx']
      · simp [groupOf, v, join]
    · simp [parseGroup, loneWord, dec, joins, vx]
    · by_cases v : fVer w = 1#2
      · have vx' : fVer x = 1#2 := vx.trans v
        simp [chainBreak, v, vx', last vx']
      · simp [chainBreak, v, vx]
    · simp [ver, vx]

/-- How many words the instruction takes. -/
theorem loneWord_words {w : Word} {rest : List Word} {sl : Slot} {n : Nat} (h : decode (w :: rest) = .ok (sl, n)) (a : Nat) :
    (if (loneWord w rest a n sl.instr).ext.isSome then 2 else 1) = n := by
  rcases decode_ok h with ⟨-, rfl, -⟩ | ⟨x, r, rfl, -, rfl, -⟩ <;> rfl

/-! ### A group of one word (R31, R32, R51) -/

theorem writesApart_one (us : List Use) (h : us.length ≤ 1) : writesApart us = true := by
  match us, h with
  | [], _ => rfl
  | [u], _ => rfl

theorem pipesOk_one (ps : List Pipe) (h : ps.length ≤ 1) : pipesOk ps = true := by
  match ps, h with
  | [], _ => rfl
  | [p], _ => cases p <;> rfl

/-- A word that decodes and breaks no chain passes the checks of a group alone in it; its own checks come as it acts (R51). -/
theorem State.groupCheck_one (s : State) {ws : List Word} {g : GWord} {i : Instr} (hi : g.instr = .ok i) (chain : chainBreak ws = none)
    (vers : (ws.findIdx? fun x => fVer x = 3#2) = none) : s.groupCheck false ws [g] = none := by
  have pipes : pipesOk (s.sh.atGroup.pipes [g]) = true := pipesOk_one _ (List.length_filterMap_le _ _)
  have writes : writesApart (s.sh.atGroup.wordUses [g]) = true := writesApart_one _ (List.length_filterMap_le _ _)
  simp [State.groupCheck, vers, chain, pipes, writes, hi]

theorem State.fetch_one {s : State} {w : Word} {rest : List Word} {sl : Slot} {n : Nat} (rep : s.sh.rep = none)
    (inCode : s.sh.pc.toNat < s.codeWords s.sh) (arrived : s.codeStop s.sh (packetAt s.sh.pc.toNat) = none)
    (words : s.packetFrom s.sh s.sh.pc.toNat (3 - s.sh.pc.toNat % 3) = w :: rest) (dec : decode (w :: rest) = .ok (sl, n))
    (ver : fVer w ≠ 3#2) (ch : sl.ch = false) (start : s.midGroup s.sh s.sh.pc.toNat = false) :
    s.fetch = .group [loneWord w rest s.sh.pc.toNat n sl.instr] := by
  obtain ⟨ws, group, parse, chain, vers⟩ := lone_group dec ver ch s.sh.pc.toNat
  have at_ : s.sh.fetchAt = s.sh.pc.toNat := by simp [Sheaf.fetchAt, rep]
  have next : s.nextWords = ws := by simp [State.nextWords, rep, at_, words, group]
  have check : s.groupCheck false ws [loneWord w rest s.sh.pc.toNat n sl.instr] = none := s.groupCheck_one rfl chain vers
  simp [State.fetch, at_, Nat.not_le.2 inCode, arrived, next, parse, start, check]

theorem actOrder_le (h : Sheaf) (i : Instr) : actOrder h i ≤ 6 := by
  have plain : ∀ j, (actOrder h j = if isWait j then (if (h.use j).pipe = .m then 2 else 3) else 1) → actOrder h j ≤ 6 := by
    intro j hj
    rw [hj]
    split
    · split <;> decide
    · decide
  have special : ∀ (p : BitVec 6) {k : Nat}, k ≤ 6 → (if p = 18 then 1 else k) ≤ 6 := by
    intro p k hk
    split
    · decide
    · exact hk
  cases i with
  | srd p => exact special p (by decide : 0 ≤ 6)
  | swr p => exact special p (by decide : 5 ≤ 6)
  | rett => exact (by decide : 4 ≤ 6)
  | exit => exact Nat.le_refl 6
  | _ => exact plain _ rfl

/-- The one word of a group acts, and it is the last. -/
theorem Sheaf.acts_one (h : Sheaf) {g : GWord} {i : Instr} (hi : g.instr = .ok i) : h.acts [g] = [(g.latch false, i)] := by
  have le := actOrder_le h i
  have : actOrder h i = 0 ∨ actOrder h i = 1 ∨ actOrder h i = 2 ∨ actOrder h i = 3 ∨ actOrder h i = 4 ∨ actOrder h i = 5 ∨
    actOrder h i = 6 := by omega
  rcases this with k | k | k | k | k | k | k <;> simp [Sheaf.acts, hi, k]

/-! ### The word acts, and its group ends, waits or stalls (R51, R53, R58) -/

section
variable {b t : State} {l : Latch} {i : Instr}

theorem runActs_ends (run : exec i (b.load1 l []) = .next t) (ended : t.sh.wait = none ∨ t.sh.trapped.isSome = true) :
    runActs b false [(l, i)] b = some (.next (t.finish false)) := by
  simp only [runActs, run]
  split
  · rfl
  · next kept =>
    have going : t.sh.wait.isSome = false := by
      rcases ended with wait | trapped
      · rw [wait]; rfl
      · simp [trapped] at kept
    simp [going]

theorem runActs_waits (run : exec i (b.load1 l []) = .next t) (wait : t.sh.wait.isSome = true) (untrapped : t.sh.trapped = none) :
    runActs b false [(l, i)] b =
      if (isWait i = true ∨ t.sh.quantumDone = true) ∧ b.sh.flagsHeld i = false then some (.next t) else none := by
  have waiting : t.sh.wait.isNone = false := by rw [Option.isNone_eq_false_iff, wait]
  simp only [runActs, run, untrapped, wait, waiting]
  cases isWait i <;> cases t.sh.quantumDone <;> cases b.sh.flagsHeld i <;> simp

theorem runActs_stops {o : Out} (run : exec i (b.load1 l []) = o) (stop : ∀ t, o ≠ .next t) : runActs b false [(l, i)] b = some o := by
  cases o with
  | next t => exact absurd rfl (stop t)
  | fault f => simp [runActs, run]
  | refused r => simp [runActs, run]

end

/-- The state in which a group that has been fetched begins. -/
def State.begun (s : State) (gs : List GWord) : State :=
  ((s.correct (s.codeKeys s.sh (packetAt s.sh.fetchAt))).traceIssue s.sh.fetchAt).upd (·.begin gs)

theorem State.begun_sh (s : State) (gs : List GWord) : (s.begun gs).sh = s.sh.begin gs := by
  rw [State.begun, State.upd, State.traceIssue_sh, State.correct_sh]

theorem Sheaf.follow_one {h : Sheaf} (rep : h.rep = none) (g : GWord) :
    h.follow [g] = BitVec.ofNat 32 (h.fetchAt + if g.ext.isSome then 2 else 1) := by
  simp [Sheaf.follow, rep]

theorem State.begun_load1_sh (s : State) (gs : List GWord) (l : Latch) :
    ((s.begun gs).load1 l []).sh = { s.sh.begin gs with latch := l, rest := [] } := by
  rw [State.load1, State.upd, State.begun_sh]

/-- Outside traced tasks the group begins in the state that the fetch leaves (R89, R495). -/
theorem State.begun_untraced {s : State} (plain : s.lrec.flags.getLsbD 3 = false) (gs : List GWord) :
    s.begun gs = (s.correct (s.codeKeys s.sh (packetAt s.sh.fetchAt))).upd (·.begin gs) := by
  have lrec : (s.correct (s.codeKeys s.sh (packetAt s.sh.fetchAt))).lrec = s.lrec :=
    have frame := congrArg State.lrec (s.correct_frame (s.codeKeys s.sh (packetAt s.sh.fetchAt)))
    frame
  rw [State.begun, State.traceIssue, lrec, plain]
  rfl

theorem State.begun_memory {s : State} (plain : s.lrec.flags.getLsbD 3 = false) (gs : List GWord) :
    (s.begun gs).mem = s.mem ∧ (s.begun gs).lines = s.lines ∧ (s.begun gs).groups = s.groups ∧ (s.begun gs).peers = s.peers := by
  have frame := s.correct_frame (s.codeKeys s.sh (packetAt s.sh.fetchAt))
  have mem := congrArg State.mem frame
  have lines := congrArg State.lines frame
  have groups := congrArg State.groups frame
  have peers := congrArg State.peers frame
  rw [State.begun_untraced plain]
  exact ⟨mem, lines, groups, peers⟩

/-- A group of one word acts, and its events are counted where it has issued. -/
theorem State.issueGroup_one {s : State} {g : GWord} {i : Instr} (fetched : s.fetch = .group [g]) (hi : g.instr = .ok i)
    (free : s.awaits [g] = false) (rep : s.sh.rep = none) :
    s.issueGroup = match runActs (s.begun [g]) false [(g.latch false, i)] (s.begun [g]) with
      | some (.next t) => some (.next ((if t.sh.hasIssued s.sh.retired then t.countGroup [(g.latch false, i)] s.sh.regs.em
          else t).traceStopAt s.sh.fetchAt))
      | o => o := by
  have retired : (s.begun [g]).sh.retired = s.sh.retired := by rw [State.begun_sh]; rfl
  rw [← retired]
  simp only [State.issueGroup, fetched, free, s.sh.acts_one hi, rep]
  rfl

/-! ### A step (R52; LOG 1) -/

theorem State.tryIssue_group {s : State} (runs : s.runnable s.sh = true) (wait : s.sh.wait = none) (mid : s.sh.mid = false)
    (pend : s.sh.nextPend = none) (stop : s.atStop = false) : s.tryIssue = s.issueGroup := by
  simp [State.tryIssue, runs, wait, mid, pend, stop]

theorem step_of_tryIssue {s : State} (agenda : s.agenda = []) {o : Out} (h : s.tryIssue = some o) :
    step s = settled (some s.tag) o := by
  simp [step, agenda, h]

theorem step_of_idle {s : State} (agenda : s.agenda = []) (h : s.tryIssue = none) :
    (s.engine = none → step s = .next (s.after none)) ∧ ∀ e, s.engine = some e → step s = settled none (runEvent e s) := by
  refine ⟨fun idle => ?_, fun e busy => ?_⟩
  · simp [step, agenda, h, idle]
  · simp [step, agenda, h, busy]

/-- Settles O60: the step issues the group of one word, and what follows is how `runActs` ends on it. -/
theorem stepsRunTheDecodedInstruction : Obligations.StepsRunTheDecodedInstruction := by
  unfold Obligations.StepsRunTheDecodedInstruction
  intro s w rest sl n agenda runs wait mid pend stop rep a g inCode arrived words dec ver ch start free l u counted stays
  have at_ : s.sh.fetchAt = a := by simp [Sheaf.fetchAt, rep, a]
  have fetched : s.fetch = .group [g] := State.fetch_one rep inCode arrived words dec ver ch start
  have issue := (State.tryIssue_group runs wait mid pend stop).trans (State.issueGroup_one fetched rfl free rep)
  rw [at_] at issue
  have begun : u = (s.begun [g]).load1 l [] := by rw [State.begun, at_]
  have held : (s.begun [g]).sh.flagsHeld sl.instr = u.sh.flagsHeld sl.instr := by rw [begun]; rfl
  clear_value u
  subst begun
  refine ⟨fun t run => ⟨fun ended => ?_, fun waits untrapped => ⟨fun st => ?_, fun st => ?_⟩⟩, fun f run => ?_, fun r run => ?_,
    fun plain => ?_, fun t unparked untrapped => ?_⟩
  · rw [runActs_ends run ended] at issue
    exact step_of_tryIssue agenda issue
  · rw [runActs_waits run waits untrapped, held, if_pos st] at issue
    exact step_of_tryIssue agenda issue
  · rw [runActs_waits run waits untrapped, held, if_neg st] at issue
    exact step_of_idle agenda issue
  · rw [runActs_stops run (by simp)] at issue
    exact step_of_tryIssue agenda issue
  · rw [runActs_stops run (by simp)] at issue
    exact step_of_tryIssue agenda issue
  · obtain ⟨mem, lines, groups, peers⟩ := State.begun_memory plain [g]
    have next : (s.sh.begin [g]).next = BitVec.ofNat 32 (a + n) := by
      rw [← at_, ← loneWord_words dec a]
      exact Sheaf.follow_one rep g
    refine ⟨?_, mem, lines, ?_, ?_, ?_, ?_, groups, peers⟩
    all_goals rw [State.begun_load1_sh]
    · rfl
    · rfl
    · exact next
    · exact wait
    · rfl
  · simp [State.finish, State.upd, Sheaf.finish, unparked, untrapped]

end Sys2Proof.Machine
end

section
/-!
PROOFS. Canonical memory: what each operation of the state keeps (R62, R85).

Each lemma `State.memOk.foo` says that `foo` keeps the canonical forms of memory and of the metadata of lines, so that a chain
of operations keeps them by a chain of lemmas: `h.putVA.onFn.post`. An operation that writes no memory is covered by
`State.memOk.set`, a branch by `State.memOk.ite`, a run by `State.memOk.foldl`. For a result that may be absent, or that comes
with a value beside the state, the lemma speaks of the state in it.
-/

namespace Sys2Proof.Machine

open Sys2Proof

/-- What a word or an agent's step answers next has memory and metadata in their forms. -/
def Out.memOk : Out → Prop
  | .next t => t.memOk
  | _ => True

/-- A result that may be absent has memory and metadata in their forms where it is there; `f` picks its state. -/
def SomeMemOk {α : Type} (f : α → State) : Option α → Prop
  | some r => (f r).memOk
  | none => True

theorem SomeMemOk.of_some {α : Type} {f : α → State} {o : Option α} (ho : SomeMemOk f o) {r : α} (e : o = some r) :
    (f r).memOk := by
  subst e
  exact ho

theorem SomeMemOk.getD {α : Type} {f : α → State} {o : Option α} (ho : SomeMemOk f o) {r : α} (hr : (f r).memOk) :
    (f (o.getD r)).memOk := by
  cases o with
  | none => exact hr
  | some x => exact ho

theorem SomeMemOk.map {α β : Type} {f : α → State} {g : β → State} {o : Option α} (ho : SomeMemOk f o) {k : α → β}
    (hk : ∀ r, (f r).memOk → (g (k r)).memOk) : SomeMemOk g (o.map k) := by
  cases o with
  | none => trivial
  | some x => exact hk x ho

/-- A run of writes keeps a store's form, wherever each goes. -/
theorem storeWrites_wf {α β : Type} [DecidableEq α] {dflt : Nat → α} (key : β → Nat) (val : β → α) (xs : List β)
    {m : List (Nat × α)} (hm : storeWfFrom dflt 0 m = true) :
    storeWfFrom dflt 0 (xs.foldl (fun m x => storeWrite dflt m (key x) (val x)) m) = true := by
  induction xs generalizing m with
  | nil => exact hm
  | cons x r ih => exact ih (storeWrite_wf (val x) (Nat.zero_le (key x)) hm)

theorem State.reset_memOk : State.reset.memOk := ⟨rfl, rfl⟩

section
variable {s : State} (h : s.memOk)
include h

theorem State.memOk.set
    {sh peers agenda gtc badLines weak parking moves groups tasks contexts bins held iwrites invalids tlb halts fns
      partitions dies clusters scoreboard halted deaths modId routes power saves samples hublog latch irqs stubs nacks
      collectives firmware checkpoints stop fresh} :
    (State.mk sh peers agenda gtc s.mem s.lines badLines weak parking moves groups tasks contexts bins held iwrites invalids
      tlb halts fns partitions dies clusters scoreboard halted deaths modId routes power saves samples hublog latch irqs
      stubs nacks collectives firmware checkpoints stop fresh).memOk := h

theorem State.memOk.foldl {β : Type} {f : State → β → State} {bs : List β} (hf : ∀ t b, t.memOk → (f t b).memOk) :
    (bs.foldl f s).memOk := by
  induction bs generalizing s with
  | nil => exact h
  | cons b r ih => exact ih (hf s b h)

theorem State.memOk.ite {c : Prop} {_ : Decidable c} {t : State} (ht : t.memOk) : (if c then s else t).memOk := by
  split
  · exact h
  · exact ht

/-! ### Cells of memory -/

theorem State.memOk.putBytes {tag k bs} : (s.putBytes tag k bs).memOk := State.putBytes_memOk h tag k bs

theorem State.memOk.putDesc {tag k d} : (s.putDesc tag k d).memOk := ⟨h.1, putDesc_lines_wf s tag k d h.2⟩

theorem State.memOk.clearRange {tag k len} : (s.clearRange tag k len).memOk := State.clearRange_memOk h tag k len

theorem State.memOk.dropRange {k len} : (s.dropRange k len).memOk :=
  ⟨dropRange_mem_wf s k len h.1, dropRange_lines_wf s k len h.2⟩

/-! ### Operations of the state -/

theorem State.memOk.mapSheaves {f} : (s.mapSheaves f).memOk := h.set

theorem State.memOk.onSheaf {uid f} : (s.onSheaf uid f).memOk := h.mapSheaves

theorem State.memOk.upd {f} : (s.upd f).memOk := h.set

theorem State.memOk.regs {f} : (s.regs f).memOk := h.set

theorem State.memOk.onTask {tid f} : (s.onTask tid f).memOk := h.set

theorem State.memOk.onGroup {gid f} : (s.onGroup gid f).memOk := h.set

theorem State.memOk.onContext {tag f} : (s.onContext tag f).memOk := h.set

theorem State.memOk.onPart {p f} : (s.onPart p f).memOk := h.set

theorem State.memOk.onFn {n f} : (s.onFn n f).memOk := by
  unfold State.onFn
  split
  · exact h.set
  · exact h

theorem State.memOk.onDie {n f} : (s.onDie n f).memOk := by
  unfold State.onDie
  split
  · exact h.set
  · exact h

theorem State.memOk.onCluster {n f} : (s.onCluster n f).memOk := by
  unfold State.onCluster
  split
  · exact h.set
  · exact h

theorem State.memOk.post {es} : (s.post es).memOk := h.set

theorem State.memOk.postFirst {es} : (s.postFirst es).memOk := h.set

theorem State.memOk.tick : s.tick.memOk := h.set

theorem State.memOk.interrupt {fn source} : (s.interrupt fn source).memOk := .ite h h.set

theorem State.memOk.as {uid f} (hf : ∀ t, t.memOk → (f t).memOk) : (s.as uid f).memOk := by
  unfold State.as
  split
  · exact hf _ h
  split
  · exact h
  next g _ =>
    have sat : (f { s with sh := g }).memOk := hf _ h.set
    exact sat.set

theorem State.memOk.logAt {die what addr syndrome} : (s.logAt die what addr syndrome).memOk :=
  State.logAt_memOk h die what addr syndrome

theorem State.memOk.correct {ks} : (s.correct ks).memOk := State.correct_memOk h ks

theorem State.memOk.correctWalk {tag va} : (s.correctWalk tag va).memOk := .ite h h.correct

theorem State.memOk.clearLine {k} : (s.clearLine k).memOk := h.clearRange.logAt

theorem State.memOk.meetLine {key whole r} (e : s.meetLine key whole = r) : r.1.memOk :=
  e ▸ State.meetLine_memOk h key whole

theorem State.memOk.putFor {tag key bs} : (s.putFor tag key bs).memOk := State.putFor_memOk h tag key bs

theorem State.memOk.putHost {key bs} : (s.putHost key bs).memOk := h.putFor

theorem State.memOk.putVA {tag va bs} : (s.putVA tag va bs).memOk := State.putVA_memOk h tag va bs

theorem State.memOk.notify {part n keep} : (s.notify part n keep).memOk := by
  unfold State.notify
  split
  · exact h
  · exact .ite h.putVA.onPart.interrupt (.ite h.onPart h.onPart)

theorem State.memOk.flushNotices {part} : (s.flushNotices part).memOk := by
  unfold State.flushNotices
  split
  · exact h
  · exact h.onPart.foldl fun _ _ ht => ht.notify

theorem State.memOk.dropCount {part} : (s.dropCount part).memOk := h.onPart

theorem State.memOk.bumpCounts {key page lines remote who} : (s.bumpCounts key page lines remote who).memOk := by
  unfold State.bumpCounts
  extract_lets cthr bump
  have bumped : ∀ t off thr kind, t.memOk → (bump t off thr kind).memOk := by
    intro t off thr kind ht
    unfold bump
    extract_lets old new t1
    split
    · exact ht.putBytes.notify
    · exact ht.putBytes
  split
  · next e => exact h.meetLine e
  · next s1 e =>
    have first := bumped s1 0 (cthr.extractLsb' 0 16).toNat 3 (h.meetLine e)
    extract_lets t
    split
    · exact bumped _ _ _ _ first
    · exact first

theorem State.memOk.parkOp {m tag sheaf batch va holds op queue} : (s.parkOp m tag sheaf batch va holds op queue).memOk := by
  unfold State.parkOp
  extract_lets same die entry join
  split <;> exact h.set

theorem State.memOk.enterParking : s.enterParking.memOk := h.foldl fun _ _ ht => ht.set

theorem State.memOk.countPage {page lines remote who} : (s.countPage page lines remote who).memOk := by
  unfold State.countPage
  split
  · exact h
  extract_lets va
  split
  · exact h.postFirst.dropCount
  split
  · split
    · exact h.correctWalk.parkOp
    split
    · exact h.correctWalk.bumpCounts
    · exact h.correctWalk.dropCount
  · exact h.correctWalk.dropCount

theorem State.memOk.touchOutside {keys} : (s.touchOutside keys).memOk := h.correct.foldl fun _ _ ht => ht.countPage

theorem State.memOk.onBarrier {gid b f} : (s.onBarrier gid b f).memOk := h.onGroup

theorem State.memOk.countDropped {tag id tid n} : (s.countDropped tag id tid n).memOk := h.onContext

theorem State.memOk.countDiscarded {tag id n} : (s.countDiscarded tag id n).memOk := h.onContext

theorem State.memOk.retirePass {tag quiet} : (s.retirePass tag quiet).memOk := by
  unfold State.retirePass
  split
  · exact h
  · exact h.onContext

theorem State.memOk.retire {tag quiet} : (s.retire tag quiet).memOk := h.foldl fun _ _ ht => ht.retirePass

theorem State.memOk.dropLoops {uid} : (s.dropLoops uid).memOk := h.set

theorem State.memOk.roomFreed {core} : (s.roomFreed core).memOk := h.post

theorem State.memOk.groupEnded {g} : (s.groupEnded g).memOk := h.post.roomFreed

theorem State.memOk.reap {gid} : (s.reap gid).memOk := by
  unfold State.reap
  split
  · exact h
  · exact .ite (.ite h.set.groupEnded h) (.ite h.onGroup.groupEnded h)

theorem State.memOk.markDead {gid} : (s.markDead gid).memOk := h.set

theorem State.memOk.postAdvance {gid} : (s.postAdvance gid).memOk := by
  unfold State.postAdvance
  split
  · exact h
  · exact .ite h.post h

theorem State.memOk.kill {uid} : (s.kill uid).memOk := by
  unfold State.kill
  split
  · exact h
  split
  · exact h
  extract_lets tag s1 s2 s3 s4
  have hs1 : s1.memOk := h.onSheaf.dropLoops
  have hs3 : s3.memOk := .ite hs1.onGroup.markDead hs1.onGroup
  exact hs3.onContext.postAdvance.reap.roomFreed

theorem State.memOk.exit : s.exit.memOk := by
  unfold State.exit
  extract_lets g tag g1 s1 s2 s3
  have hs1 : s1.memOk := State.memOk.dropLoops h.set
  have hs2 : s2.memOk := by
    unfold s2
    split
    · exact hs1.markDead
    · exact hs1
  exact hs2.onContext.postAdvance.reap.roomFreed

theorem State.memOk.accepted {sender last} : (s.accepted sender last).memOk := .ite h.onSheaf h

theorem State.memOk.cancel {tag id} : (s.cancel tag id).memOk := by
  unfold State.cancel
  split
  · exact h
  split_ifs
  · exact h
  extract_lets inTree hit mine mark s1 s2 purge s3 lost s4 drop gone keepJob s5
  have hs2 : s2.memOk := by
    refine h.onContext.foldl fun t b ht => ?_
    split
    · refine State.memOk.foldl ?_ fun u x hu => ?_
      · refine ht.foldl fun u x hu => ?_
        split
        · exact hu.countDropped
        · exact hu
      · split
        · exact hu.countDropped.accepted
        · exact hu
    · exact ht
  have hs3 : s3.memOk := hs2.set
  have hs4 : s4.memOk := hs3.foldl fun _ _ ht => ht.countDropped
  have hs5 : s5.memOk := hs4.set
  exact hs5.postFirst.post

theorem State.memOk.releaseContext {tag} : (s.releaseContext tag).memOk := by
  unfold State.releaseContext
  split
  · exact h
  · exact .ite h.set.onContext.interrupt h

theorem State.memOk.dropTlb {tag lo len} : (s.dropTlb tag lo len).memOk := h.set

theorem State.memOk.emptyTlb {c} : (s.emptyTlb c).memOk := h.set

theorem State.memOk.releaseFrames {tag} : (s.releaseFrames tag).memOk := by
  unfold State.releaseFrames
  split
  · split
    · extract_lets t
      have ht : t.memOk := h.foldl fun _ _ hu => hu.clearRange
      exact ht.set
    · exact h
  · exact h

theorem State.memOk.traceRec {fn tag bs} : (s.traceRec fn tag bs).memOk := by
  unfold State.traceRec
  split
  · exact h
  · exact .ite h.putVA.onFn h.onFn

theorem State.memOk.endTrace {fn tag source kind} : (s.endTrace fn tag source kind).memOk := by
  unfold State.endTrace
  split
  · exact .ite h.traceRec.onFn h
  · exact h

theorem State.memOk.beginTrace {fn tag source} : (s.beginTrace fn tag source).memOk := by
  unfold State.beginTrace
  split
  · exact .ite h.onFn.traceRec h
  · exact h

theorem State.memOk.stopTrace {fn source} : (s.stopTrace fn source).memOk := h.onFn

theorem State.memOk.count {tag core e x} : (s.count tag core e x).memOk := by
  unfold State.count
  split
  · exact h
  extract_lets fn
  split
  · exact h
  refine h.foldl fun t n ht => ?_
  extract_lets sel old u w b
  split
  · exact ht
  have hu : u.memOk := ht.onCluster
  split
  · exact hu
  have hw : w.memOk := by
    unfold w
    split
    · exact hu.interrupt
    · exact hu
  have hb : b.memOk := by
    unfold b
    split
    · exact hw.beginTrace
    · exact hw
  split
  · exact hb.stopTrace
  · exact hb

theorem State.memOk.countMine {e x} : (s.countMine e x).memOk := h.count

theorem State.memOk.abandon {gone} : (s.abandon gone).memOk := h.set.post

theorem State.memOk.endContextAt {core tag cause flags who pc aux va} :
    (s.endContextAt core tag cause flags who pc aux va).memOk := by
  unfold State.endContextAt
  split
  · exact h
  split
  · exact h
  extract_lets rcd s1 shut s2 s3
  have hs2 : s2.memOk := .onFn (.endTrace (.ite h h.putVA))
  have hs3 : s3.memOk := hs2.set.onContext
  exact hs3.cancel.abandon

theorem State.memOk.endContext {tag cause flags who pc aux va} : (s.endContext tag cause flags who pc aux va).memOk :=
  h.endContextAt

theorem State.memOk.endForError {tag va} : (s.endForError tag va).memOk := h.endContext

theorem State.memOk.containError {k} : (s.containError k).memOk := by
  unfold State.containError
  split
  · exact h.endForError
  · exact h.clearLine

theorem State.memOk.containWalk {tag va} : (s.containWalk tag va).memOk := by
  unfold State.containWalk
  split
  · exact h.containError
  · exact h

theorem State.memOk.park {pages acc} : (s.park pages acc).memOk := by
  unfold State.park
  extract_lets ps s1 t
  have ht : t.memOk := h.countMine.countMine.foldl fun _ _ hu => hu.notify
  exact State.memOk.foldl ht.set fun _ _ hu => hu.containWalk

theorem State.memOk.land {tag k bs whole} : (s.land tag k bs whole).memOk :=
  .ite h.correct.containError h.correct.set.putBytes

theorem State.memOk.landFrom {tag uid x k bs whole} : (s.landFrom tag uid x k bs whole).memOk :=
  .ite h.onSheaf (.ite h.land.onSheaf (.ite h.land.onSheaf h.land))

theorem State.memOk.landDesc {tag k v} : (s.landDesc tag k v).memOk := .ite h.containError h.putDesc

theorem State.memOk.landDescFrom {tag uid x k v} : (s.landDescFrom tag uid x k v).memOk :=
  .ite h.landDesc.onSheaf h.landDesc

theorem State.memOk.undoFar {lanes} : (s.undoFar lanes).memOk := State.undoFar_memOk h lanes

theorem State.memOk.bufError {uid} : (s.bufError uid).memOk := by
  unfold State.bufError
  split
  · exact h
  · exact .ite h.onSheaf.endForError h

theorem State.memOk.recordError {gid} : (s.recordError gid).memOk := by
  unfold State.recordError
  split
  · split
    · split
      · exact h.endForError
      · exact h
    · exact h
  · exact h

theorem State.memOk.leaveLoop {n l trap} : (s.leaveLoop n l trap).memOk := h.set

theorem State.memOk.convertAcc {cfg mode d word slot} : (s.convertAcc cfg mode d word slot).memOk := h.set

theorem State.memOk.convertAttached {l} : (s.convertAttached l).memOk := h.foldl fun _ _ ht => ht.convertAcc

theorem State.memOk.endLoop {n} : (s.endLoop n).memOk := by
  unfold State.endLoop
  split
  · exact h
  · exact h.leaveLoop.convertAttached

theorem State.memOk.kStep {n} : (s.kStep n).memOk := by
  unfold State.kStep
  split
  · exact h
  split
  · exact h.endLoop
  extract_lets md a b keys li isRa old take lat stopWith
  have stopped : ∀ t c line, t.memOk → (stopWith t c line).memOk := fun _ _ _ ht => ht.leaveLoop.convertAttached
  split
  · split
    · exact h.leaveLoop.endContext
    · exact stopped _ _ _ h.containError
  split
  · exact stopped _ _ _ h.correct
  · exact h.correct.set

theorem State.memOk.countedStep {n} : (s.countedStep n).memOk := by
  unfold State.countedStep
  split
  · exact h
  · exact .ite h.kStep.countMine.countMine h.kStep

theorem State.memOk.runLoop {fuel} : (s.runLoop fuel).memOk := by
  induction fuel generalizing s with
  | zero => exact h
  | succ k ih =>
    unfold State.runLoop
    split
    · exact h
    split
    · exact h
    extract_lets t
    split
    · exact h.countedStep
    · exact ih h.countedStep

theorem State.memOk.runLoops : s.runLoops.memOk := by
  unfold State.runLoops
  refine h.foldl fun _ _ ht => ?_
  split
  · exact ht
  · exact ht.runLoop

theorem State.memOk.settle : s.settle.memOk := .ite h h.set.runLoops

theorem State.memOk.enterHandler {p trpc trnext} : (s.enterHandler p trpc trnext).memOk := by
  unfold State.enterHandler
  extract_lets g tag dbg g1 addr
  split
  · exact h.endContext
  split
  · exact h.set
  split
  · exact State.memOk.endContext h.set
  · exact h.set

theorem State.memOk.takeTrap {p trpc trnext} : (s.takeTrap p trpc trnext).memOk :=
  .ite h.upd.settle.enterHandler h.upd.settle.set

theorem State.memOk.trapGroup {c mask aux} : (s.trapGroup c mask aux).memOk := h.upd.takeTrap

theorem State.memOk.trapPast {mask aux next} : (s.trapPast mask aux next).memOk := h.upd.takeTrap

theorem State.memOk.trapWord {i c mask} : (s.trapWord i c mask).memOk := h.trapGroup

theorem State.memOk.deliverPend : s.deliverPend.memOk := by
  unfold State.deliverPend
  split
  · exact h
  · exact h.set.takeTrap

theorem State.memOk.pendTrap {p} : (s.pendTrap p).memOk := .ite h.set h.set.deliverPend

theorem State.memOk.stall {i token} : (s.stall i token).memOk := h.set

theorem State.memOk.hold {i token} : (s.hold i token).memOk := h.stall.set

theorem State.memOk.unhold : s.unhold.memOk := h.set

theorem State.memOk.waitFor {i token ready fin} (hfin : ∀ t, t.memOk → (fin t).memOk) : (s.waitFor i token ready fin).memOk :=
  .ite h.hold (.ite (hfin _ h.unhold) h.hold)

theorem State.memOk.issueWait {i effect} (hf : ∀ t, t.memOk → (effect t).memOk) : (s.issueWait i effect).memOk := by
  unfold State.issueWait
  extract_lets again
  split
  · exact h.trapWord
  split_ifs
  · exact h.stall
  · exact hf _ h

theorem State.memOk.issue {i effect} (hf : ∀ t, t.memOk → (effect t).memOk) : (s.issue i effect).memOk :=
  h.issueWait fun _ ht => hf _ ht.unhold

theorem State.memOk.openWindow {la regs acc} : (s.openWindow la regs acc).memOk := .ite h.set h

/-! ### Traces (R493-R495) -/

theorem State.memOk.traceWrite {tag core sheaf changed ws} : (s.traceWrite tag core sheaf changed ws).memOk := by
  unfold State.traceWrite
  refine h.foldl fun t u ht => ?_
  split
  · exact ht
  extract_lets rs t1 live mine byteAt mask data t2
  have ht1 : t1.memOk := .ite ht.beginTrace ht
  have ht2 : t2.memOk := .ite ht1.traceRec ht1
  exact .ite ht (.ite ht2.stopTrace ht2)

theorem State.memOk.traceIssue {a} : (s.traceIssue a).memOk := by
  unfold State.traceIssue
  split
  · extract_lets fn
    split
    · exact h
    · exact .ite h.beginTrace h
  · exact h

theorem State.memOk.traceStopAt {a} : (s.traceStopAt a).memOk := by
  unfold State.traceStopAt
  split
  · extract_lets fn
    split
    · exact h
    · exact .ite h.stopTrace h
  · exact h

theorem State.memOk.closeTraces : s.closeTraces.memOk := by
  unfold State.closeTraces
  split
  · exact h
  refine h.foldl fun _ _ ht => ?_
  split
  · exact .ite ht.onFn.endTrace ht
  · exact ht

theorem State.memOk.traceMine {old va key bs} : (s.traceMine old va key bs).memOk := .ite h.traceWrite h

theorem State.memOk.traceDropped {fn} : (s.traceDropped fn).memOk := by
  unfold State.traceDropped
  split
  · exact h
  · exact .ite h h.onFn.traceRec

/-! ### Loads, stores and atomics -/

theorem State.memOk.blocked {i acc x} : (s.blocked i acc x).memOk := by
  unfold State.blocked
  split
  · exact h.unhold.trapWord
  · exact h.unhold.park
  · exact h.unhold.upd.trapWord

theorem State.memOk.meetError {i q} : (s.meetError i q).memOk :=
  .ite h.unhold.endContext h.unhold.containError.trapPast

theorem State.memOk.countPages {qs} : (s.countPages qs).memOk := by
  unfold State.countPages
  extract_lets ms pages t
  have ht : t.memOk := h.foldl fun _ _ hu => hu.countPage
  split
  · exact ht
  · exact ht.touchOutside

theorem State.memOk.lookUp {p n} : (s.lookUp p n).memOk := by
  unfold State.lookUp
  extract_lets e above t walked u
  have hw : walked.memOk := h.countMine.countMine
  have hu : u.memOk := .ite h.countMine hw.set
  exact .ite h hu.set

theorem State.memOk.lookUpAll {qs} : (s.lookUpAll qs).memOk := h.foldl fun _ _ ht => ht.lookUp

theorem State.memOk.countBuffer {qs} : (s.countBuffer qs).memOk := .ite h.countMine h

theorem State.memOk.countBanks {qs} : (s.countBanks qs).memOk := .ite h.countMine h

theorem State.memOk.touch {qs} : (s.touch qs).memOk := h.correct.countPages.lookUpAll.countBuffer.countBanks

theorem State.memOk.parkWrite {m va holds op} : (s.parkWrite m va holds op).memOk := h.parkOp

theorem State.memOk.openFar {i qs rejected} : (s.openFar i qs rejected).memOk := .ite h.upd h

theorem State.memOk.pendLoad {l} : (s.pendLoad l).memOk := .ite h h.set

theorem State.memOk.loadWith {i sp w la d desc ord slots plan} : (s.loadWith i sp w la d desc ord slots plan).memOk := by
  unfold State.loadWith
  split
  · exact h.blocked
  split
  · exact h.stall
  split
  · exact h.meetError
  extract_lets lanes one vs s1 s2
  have hs1 : s1.memOk := h.unhold.touch.pendLoad
  exact .ite hs1.openWindow hs1.openWindow.post

theorem State.memOk.load {i sp la w d a desc e} : (s.load i sp la w d a desc e).memOk := h.loadWith

theorem State.memOk.landSite {x q bs whole} : (s.landSite x q bs whole).memOk := by
  unfold State.landSite
  extract_lets t
  have ht : t.memOk := .ite h.landFrom h.land
  exact .ite ht.traceMine ht

theorem State.memOk.writeSite {buffered holds whole x q bs} : (s.writeSite buffered holds whole x q bs).memOk := by
  unfold State.writeSite
  extract_lets w
  split
  · exact h.set
  split
  · exact h.parkOp
  · exact h.landSite

theorem State.memOk.writeDesc {buffered holds x q v} : (s.writeDesc buffered holds x q v).memOk := by
  unfold State.writeDesc
  split
  · exact h.set
  split
  · exact h.parkOp
  · exact h.landDesc

theorem State.memOk.store {i sp w d a desc e} : (s.store i sp w d a desc e).memOk := by
  unfold State.store
  split
  · exact h.blocked
  extract_lets whole buffered r put s1
  split
  · exact h.stall
  split
  · exact h.meetError
  have hs1 : s1.memOk := h.unhold.touch.openFar.foldl fun _ _ ht => .ite ht.writeDesc ht.writeSite
  exact .ite hs1 hs1.post

theorem State.memOk.atomAt {tag key op d r} (e : s.atomAt tag key op d = r) : r.2.memOk := e ▸ h.putBytes

theorem State.memOk.atomLands {tag uid va key op operand ret lane word} :
    (s.atomLands tag uid va key op operand ret lane word).memOk := by
  unfold State.atomLands
  extract_lets s0
  have h0 : s0.memOk := h.correct
  split
  · exact h0.onSheaf
  split
  · exact h0.containError.onSheaf
  split
  next old t e =>
    have ht : t.memOk := h0.atomAt e
    extract_lets u
    have hu : u.memOk := by
      unfold u
      split
      · exact ht.as fun _ hx => hx.traceMine
      · exact ht
    split
    · exact hu.onSheaf
    · exact hu

/-- A lane of an atomic in progress keeps the forms, whichever way it is performed. -/
theorem State.memOk.atomLane {olds waits sp op ret holds ref x q d} :
    (AtomRun.lane { s := s, olds := olds, waits := waits } sp op ret holds ref x q d).s.memOk := by
  unfold AtomRun.lane
  extract_lets t n back
  split
  · split
    · exact h.writeSite
    · exact h.upd
  split
  · exact h.parkOp
  split
  next old u e =>
    have hu : u.memOk := h.atomAt e
    extract_lets new v
    have hv : v.memOk := .ite hu.upd hu
    exact .ite hv.traceMine hv

theorem State.memOk.atomic {i sp la d a e} : (s.atomic i sp la d a e).memOk := by
  unfold State.atomic
  split
  · exact h.blocked
  extract_lets dup release r ref order run s1 s2 s3
  split
  · exact h.unhold.trapWord
  split
  · exact h.stall
  split
  · exact h.meetError
  have hrun : run.s.memOk := by
    refine List.foldlRecOn (motive := fun x : AtomRun => x.s.memOk) order _ ?_ fun x hx q _ => hx.atomLane
    exact h.unhold.touch.openFar.tick
  have hs1 : s1.memOk := .ite hrun.pendLoad hrun
  have hs2 : s2.memOk := .ite hs1.openWindow hs1
  have hs3 : s3.memOk := .ite hs2.upd hs2
  exact .ite hs3 hs3.post

theorem State.memOk.codeBlocked {aux next x} : (s.codeBlocked aux next x).memOk := by
  unfold State.codeBlocked
  split
  · exact .ite h.unhold.upd.trapGroup h.unhold.park
  · exact h.unhold.trapGroup
  · exact .ite h.unhold.endContext h.unhold.containError.trapPast
  · exact h

end

end Sys2Proof.Machine
end

section
/-!
PROOFS. Canonical memory: words of lanes, scalars, control, copies, the matrix pipe and memory (R62, R85).
-/

namespace Sys2Proof.Machine

open Sys2Proof

section
variable {s : State} (h : s.memOk)
include h

/-! ### Words of lanes -/

theorem State.memOk.vecLanes {d f} : (s.vecLanes d f).memOk := h.regs

theorem State.memOk.vec {d a b f} : (s.vec d a b f).memOk := h.vecLanes

theorem State.memOk.vec1 {d a f} : (s.vec1 d a f).memOk := h.vec

/-! ### Scalar words -/

theorem State.memOk.scalar {d a b f} : (s.scalar d a b f).memOk := h.regs

/-! ### Control words -/

theorem State.memOk.afterLoops {i p f} (hf : ∀ t, t.memOk → (f t).memOk) : (s.afterLoops i p f).memOk :=
  .ite h.stall (hf _ h.unhold)

theorem State.memOk.goto {i t f} (hf : ∀ t, t.memOk → (f t).memOk) : (s.goto i t f).memOk := by
  have sent : (f s).memOk := hf _ h
  exact .ite h.trapWord sent.upd

theorem State.memOk.branchIf {i c n} {ofs : BitVec n} : (s.branchIf i c ofs).memOk :=
  .ite (h.goto fun _ ht => ht) h

@[simp] theorem execCall_memOk {ofs} : (execCall ofs s).memOk :=
  h.issue fun _ ht => .ite ht.trapWord (ht.goto fun _ ht => ht.regs)

@[simp] theorem execLoop_memOk {a ofs} : (execLoop a ofs s).memOk :=
  h.issue fun _ ht => .ite (ht.goto fun _ hu => hu.regs) ht.regs

theorem State.memOk.callxRound {a e last} : (s.callxRound a e last).memOk := by
  unfold State.callxRound
  dsimp only
  split
  · exact h.upd
  · exact .ite h.trapWord (.ite h.trapWord h.upd)

@[simp] theorem execCallx_memOk {a} : (execCallx a s).memOk :=
  h.issue fun _ ht => .ite ht.callxRound (.ite ht (.ite ht.trapWord (.ite ht.trapWord ht.callxRound)))

@[simp] theorem execRet_memOk : (execRet s).memOk := h.issue fun _ ht => .ite ht.trapWord (ht.goto fun _ ht => ht.upd)

theorem State.memOk.sleepbTest {i p ev} : (s.sleepbTest i p ev).memOk :=
  .ite h.unhold (.ite h.hold (.ite h.unhold.pendTrap h.upd.hold))

@[simp] theorem execSleepb_memOk {a ev} : (execSleepb a ev s).memOk :=
  h.issueWait fun _ ht => .ite ht.hold (.ite ht.hold ht.sleepbTest)

@[simp] theorem execRett_memOk : (execRett s).memOk := h.issue fun _ ht => .ite ht.upd ht.endContext

@[simp] theorem execTfix_memOk {a} : (execTfix a s).memOk :=
  h.issue fun _ ht => .ite ht (.ite (.ite ht.regs ht.regs) (.ite ht.regs ht))

theorem State.memOk.haltOthers : s.haltOthers.memOk := .ite h.set.hold h.set.set.hold

@[simp] theorem execHalt_memOk : (execHalt s).memOk :=
  h.issueWait fun _ ht => .ite (.ite ht.hold ht.unhold) ht.haltOthers

@[simp] theorem execRep_memOk {cnt stepD stepA stepB stride} : (execRep cnt stepD stepA stepB stride s).memOk := by
  unfold execRep
  refine h.issue fun _ ht => ?_
  extract_lets r a
  split
  · exact ht.stall
  · exact ht.codeBlocked
  · exact ht.trapWord
  · exact ht.upd

/-! ### Words of floating point -/

theorem State.memOk.raise {i lanes} : (s.raise i lanes).memOk := by
  unfold State.raise
  extract_lets bit exc t
  split
  · exact h.set
  · exact .ite h.set h.set.pendTrap

theorem State.memOk.fpLanes {i d f} : (s.fpLanes i d f).memOk := h.vecLanes.raise

theorem State.memOk.fpLanes64 {i d f} : (s.fpLanes64 i d f).memOk := h.regs.raise

theorem State.memOk.fp32 {i d a b g} : (s.fp32 i d a b g).memOk := h.fpLanes

theorem State.memOk.fp64 {i d a b g} : (s.fp64 i d a b g).memOk := h.fpLanes64

theorem State.memOk.packed {i d a b g} : (s.packed i d a b g).memOk := h.fpLanes

theorem State.memOk.predicate {conj kd m} : (s.predicate conj kd m).memOk := h.regs

theorem State.memOk.compareInt {conj kd a b c} : (s.compareInt conj kd a b c).memOk := h.predicate

theorem State.memOk.compareFp {i conj kd c} : (s.compareFp i conj kd c).memOk := h.predicate.raise

/-! ### Conversions -/

theorem State.memOk.convert {i d a src dst m} : (s.convert i d a src dst m).memOk := .ite h.fpLanes64 h.fpLanes

/-! ### Copies and rings -/

@[simp] theorem execCpy_memOk {la route size a b} : (execCpy la route size a b s).memOk := by
  unfold execCpy
  refine h.issueWait fun _ ht => ?_
  extract_lets i n ls src dst far odd reqs ringHit work spans
  split
  · exact ht.unhold.trapWord
  · exact .ite ht.unhold.trapWord (.ite ht.unhold.trapWord (.ite ht.stall ht.unhold.upd.set.tick))

theorem State.memOk.onRing {gid off f} : (s.onRing gid off f).memOk := h.onGroup

@[simp] theorem execRinit_memOk {a b n} : (execRinit a b n s).memOk := by
  unfold execRinit
  refine h.issue fun _ ht => ?_
  extract_lets i x hi
  split
  · exact ht.trapWord
  · exact .ite ht.trapWord (.ite ht.trapWord (.ite ht.trapWord (.ite ht.trapWord ht.onGroup.regs)))

@[simp] theorem execRwait_memOk {a b n} : (execRwait a b n s).memOk := by
  unfold execRwait
  refine h.issueWait fun _ ht => ?_
  extract_lets i
  split
  · exact ht.unhold.trapWord
  · exact .ite ht.unhold.trapWord (ht.waitFor fun _ ht => .ite ht.meetError (.regs (.ite ht ht.correct)))

@[simp] theorem execRrel_memOk {a b n} : (execRrel a b n s).memOk := by
  unfold execRrel
  refine h.issue fun _ ht => ?_
  extract_lets i
  split
  · exact ht.trapWord
  · exact .ite ht.trapWord ht.onRing.regs

@[simp] theorem execRfin_memOk {a b} : (execRfin a b s).memOk := by
  unfold execRfin
  refine h.issue fun _ ht => ?_
  extract_lets i
  split
  · exact ht.trapWord
  · exact .ite ht.trapWord (.ite ht.meetError ht.correct.onGroup.putBytes.regs)

theorem State.memOk.copyWrite {num r q d} : (s.copyWrite num r q d).memOk := by
  unfold State.copyWrite
  extract_lets whole t u
  split
  · next tag m va _ =>
    extract_lets park first
    have parked : ∀ x op, x.memOk → (park x op).memOk := fun _ _ hx => hx.parkOp
    split
    · exact parked _ _ (parked _ _ h)
    · exact parked _ _ h
  · have hu : u.memOk := by
      unfold u
      split
      · exact h.land.putDesc
      · exact h.land
    exact .ite hu.traceMine hu

theorem State.memOk.copyTouch {p qs r} (e : s.copyTouch p qs = r) : r.1.memOk :=
  e ▸ h.correct.countPages.lookUpAll.countBuffer

theorem State.memOk.pauseNotice {va acc num} : (s.pauseNotice va acc num).memOk := h.notify.containWalk

theorem State.memOk.retireEntries {kind cs} : (s.retireEntries kind cs).memOk := h.set

theorem State.memOk.retireDone {b} : (s.retireDone b).memOk := h.retireEntries.retireEntries

theorem State.memOk.copyStop {b k n x} : SomeMemOk Prod.fst (s.copyStop b k n x) := by
  cases x with
  | wait => trivial
  | fault va acc => exact h.pauseNotice
  | err st line =>
    cases line with
    | none => exact h.retireDone
    | some x => exact h.containError.retireDone

theorem State.memOk.readLine {b k c} : SomeMemOk Prod.fst (s.readLine b k c) := by
  unfold State.readLine
  extract_lets n rs
  split
  · exact h.copyStop
  split
  next t p e =>
    have ht : t.memOk := h.copyTouch e
    exact ht.retireDone

theorem State.memOk.writeLine {b k c} : SomeMemOk Prod.fst (s.writeLine b k c) := by
  unfold State.writeLine
  extract_lets ws
  split
  · exact h.copyStop
  · exact h.copyStop
  split
  · trivial
  split
  next s1 p e =>
    have h1 : s1.memOk := h.copyTouch e
    extract_lets s2 b1
    have h2 : s2.memOk := h1.foldl fun _ _ ht => ht.copyWrite
    exact h2.countMine.retireDone

theorem State.memOk.lineStep {shut commit b} : SomeMemOk Prod.fst (s.lineStep shut commit b) := by
  unfold State.lineStep
  extract_lets early all
  split
  · trivial
  split
  · exact h.readLine
  split
  · trivial
  split
  · trivial
  split
  · trivial
  · exact h.writeLine

theorem State.memOk.copyRun {shut commit fuel b} : SomeMemOk Prod.fst (s.copyRun shut commit fuel b) := by
  induction fuel generalizing s b with
  | zero => trivial
  | succ n ih => exact h.lineStep.map fun _ hx => (ih hx).getD hx

theorem State.memOk.setBatch {shut b} : (s.setBatch shut b).memOk := h.upd

theorem State.memOk.finishBatch {b} : (s.finishBatch b).memOk := by
  unfold State.finishBatch
  extract_lets g s1 s2
  have h1 : s1.memOk := h.upd
  have h2 : s2.memOk := by
    unfold s2
    split
    · exact h1
    split
    · exact h1
    · exact h1.putFor.onRing
  exact .ite h2.reap (.ite h2.upd h2)

theorem State.memOk.batchEvent {commit b} : SomeMemOk id (s.batchEvent commit b) := by
  unfold State.batchEvent
  split
  · split
    · exact h.setBatch
    · trivial
  split
  · trivial
  · exact h.finishBatch

theorem State.memOk.copyEvent {num commit} : SomeMemOk id (s.copyEvent num commit) := by
  unfold State.copyEvent
  split
  · split
    · next t c e =>
      have ht : t.memOk := h.copyRun.of_some e
      exact SomeMemOk.getD ht.setBatch.batchEvent ht.setBatch
    · exact h.batchEvent
  split
  · exact h.copyRun.map fun _ hx => hx.setBatch
  · trivial

@[simp] theorem execCopyEventComplete_memOk {uid num} : (execCopyEventComplete uid num s).memOk :=
  h.as fun _ ht => State.memOk.ite (ht.copyEvent.getD ht) ht

theorem State.memOk.failParked {w k key} : (s.failParked w k key).memOk := by
  unfold State.failParked
  extract_lets later size lost t cut
  have ht : t.memOk := h.set
  refine .containError (ht.as fun u hu => ?_)
  split
  · exact hu.retireDone.setBatch
  · exact .ite hu.retireDone.setBatch hu

theorem State.memOk.rejectBatch {num} : (s.rejectBatch num).memOk := by
  unfold State.rejectBatch
  extract_lets stop
  have stopped : ∀ shut b, (stop shut b).memOk := fun _ _ => h.retireDone.setBatch
  split
  · exact stopped _ _
  · exact .ite (stopped _ _) h

theorem State.memOk.closeBatch {sd scope ring} : (s.closeBatch sd scope ring).memOk := by
  unfold State.closeBatch
  extract_lets g p0 p1 s1
  have h1 : s1.memOk := h.tick.tick.upd
  split
  · exact h1.onRing
  · exact h1

@[simp] theorem execCpybRing_memOk {sd sr scope} : (execCpybRing sd sr scope s).memOk := by
  unfold execCpybRing
  refine h.issueWait fun _ ht => ?_
  extract_lets i
  split
  · exact ht.unhold.trapWord
  · exact .ite ht.stall ht.unhold.closeBatch

theorem State.memOk.swapPage {tag va} : (s.swapPage tag va).memOk := by
  unfold State.swapPage
  split
  · exact .ite h.putHost h
  · exact h

theorem State.memOk.swapRegion {tid n} : (s.swapRegion tid n).memOk := by
  unfold State.swapRegion
  split
  · exact h
  split
  · exact h
  · exact h.dropTlb.foldl fun _ _ ht => ht.swapPage

@[simp] theorem execPub_memOk {n scope} : (execPub n scope s).memOk :=
  h.issueWait fun _ ht => .ite ht.unhold.trapWord (.ite (.ite ht.upd.hold ht.unhold) (ht.waitFor fun _ ht => ht.swapRegion))

/-! ### Matrix words -/

@[simp] theorem execMcfg_memOk {a} : (execMcfg a s).memOk := h.issue fun _ ht => .ite ht.upd ht.trapWord

@[simp] theorem execMloop_memOk {la d sa sb} : (execMloop la d sa sb s).memOk := by
  unfold execMloop
  refine h.issueWait fun _ ht => ?_
  extract_lets i r c n l ops
  split
  · exact ht.unhold.trapWord
  · exact .ite ht.stall ht.unhold.upd.set.openWindow

@[simp] theorem execMcvt_memOk {d} : (execMcvt d s).memOk := h.issue fun _ ht => .ite ht.upd ht.convertAcc

@[simp] theorem execMatrixKstep_memOk {uid k} : (execMatrixKstep uid k s).memOk := by
  unfold execMatrixKstep
  refine h.as fun _ ht => ?_
  split
  · exact ht
  · exact .ite ht.countedStep ht

@[simp] theorem execMloopEnd_memOk {uid k} : (execMloopEnd uid k s).memOk := by
  unfold execMloopEnd
  refine h.as fun _ ht => ?_
  split
  · exact ht
  · exact .ite ht.endLoop ht

/-! ### Memory words -/

@[simp] theorem execLdcStep_memOk {la w d a tb sel} : (execLdcStep la w d a tb sel s).memOk := by
  unfold execLdcStep
  refine h.issueWait fun _ ht => ?_
  extract_lets i ls far odd
  split
  · exact ht.unhold.trapWord
  · exact .ite ht.unhold.trapWord (.ite ht.unhold.trapWord (.ite ht.loadWith ht.hold))

/-! ### Words across lanes -/

theorem State.memOk.shuffleKeep {d a b src} : (s.shuffleKeep d a b src).memOk := h.vecLanes.regs

theorem State.memOk.shuffleFall {d a b src} : (s.shuffleFall d a b src).memOk := h.vecLanes

theorem State.memOk.foldLanes {i d a op keep} : (s.foldLanes i d a op keep).memOk := h.fpLanes

end

end Sys2Proof.Machine
end

section
/-!
PROOFS. Canonical memory: barriers, groups, tasks, records, signals, cancel scopes and transfers (R62, R85).
-/

namespace Sys2Proof.Machine

open Sys2Proof

section
variable {s : State} (h : s.memOk)
include h

/-! ### Barriers, watchdogs and tile buffers -/

theorem State.memOk.allAccepted : s.allAccepted.memOk := h.upd

@[simp] theorem execFence_memOk {kind scope} : (execFence kind scope s).memOk :=
  h.issueWait fun _ ht => ht.waitFor fun _ ht => .ite ht ht.allAccepted

theorem State.memOk.arriveAt {b} : (s.arriveAt b).memOk := by
  unfold State.arriveAt
  split
  · exact h
  · exact .ite h.onBarrier.countMine h.onBarrier

@[simp] theorem execBarinit_memOk {b a} : (execBarinit b a s).memOk := by
  unfold execBarinit
  refine h.issue fun _ ht => ?_
  extract_lets n
  split
  · exact ht.trapWord
  · exact .ite ht.trapWord (.ite ht.trapWord ht.onBarrier)

@[simp] theorem execBararv_memOk {b d scope} : (execBararv b d scope s).memOk := by
  unfold execBararv
  refine h.issueWait fun _ ht => ?_
  extract_lets i
  split
  · exact ht.unhold
  split
  · exact ht.unhold.trapWord
  · exact .ite ht.unhold.trapWord (.ite ht.upd.hold (.ite ht.stall ht.unhold.arriveAt.regs))

@[simp] theorem execBarwt_memOk {b a scope} : (execBarwt b a scope s).memOk := by
  unfold execBarwt
  refine h.issueWait fun _ ht => ?_
  extract_lets i
  split
  · exact ht.unhold.trapWord
  · exact .ite ht.trapWord (ht.waitFor fun _ ht => ht)

@[simp] theorem execBarsyn_memOk {b scope} : (execBarsyn b scope s).memOk := by
  unfold execBarsyn
  refine h.issueWait fun _ ht => ?_
  extract_lets i
  split
  · exact ht.unhold.trapWord
  split
  · exact .ite ht.unhold ht.hold
  split
  · exact ht.hold
  split
  · exact ht.unhold.trapWord
  · exact .ite ht.upd.hold (.ite ht.stall (.ite ht.arriveAt.unhold ht.arriveAt.hold))

@[simp] theorem execBarfin_memOk {b} : (execBarfin b s).memOk := by
  unfold execBarfin
  refine h.issue fun _ ht => ?_
  split
  · exact ht.trapWord
  · exact .ite ht.trapWord ht.onBarrier.countMine

@[simp] theorem execBarst_memOk {b d} : (execBarst b d s).memOk := by
  unfold execBarst
  refine h.issue fun _ ht => ?_
  split
  · exact ht.trapWord
  · exact ht.regs

@[simp] theorem execBarrierWatchdog_memOk {gid bid} : (execBarrierWatchdog gid bid s).memOk := by
  unfold execBarrierWatchdog
  split
  · exact h
  split
  · split
    · exact h
    split
    · exact h
    extract_lets s1
    have hs1 : s1.memOk := .ite h h.putVA.onContext
    exact hs1.endContextAt
  · exact h

@[simp] theorem execDeadlockWatchdog_memOk {tag} : (execDeadlockWatchdog tag s).memOk := by
  unfold execDeadlockWatchdog
  split
  · exact State.memOk.ite h.endContext h
  · exact h

theorem State.memOk.advance {gid} : (s.advance gid).memOk := h.onGroup.postAdvance

@[simp] theorem execGroupAdvance_memOk {gid} : (execGroupAdvance gid s).memOk := by
  unfold execGroupAdvance
  split
  · exact State.memOk.ite h.advance h
  · exact h

theorem State.memOk.recordDeath {gid} : (s.recordDeath gid).memOk := h.set.onGroup

@[simp] theorem execDeathRecorded_memOk {cluster gid} : (execDeathRecorded cluster gid s).memOk := by
  unfold execDeathRecorded
  split
  · exact h
  · exact State.memOk.ite h (.ite h.recordDeath.postAdvance h.post)

theorem State.memOk.stepTrap {c t who} : (s.stepTrap c t who).memOk := h.unhold.trapGroup

@[simp] theorem execStepend_memOk : (execStepend s).memOk := by
  unfold execStepend
  refine h.issueWait fun _ ht => ?_
  extract_lets t
  split
  · exact ht.stepTrap
  split
  · exact ht.unhold
  split
  · exact ht.onGroup.stepTrap
  · exact .ite ht.hold (.ite ht.upd.hold (.ite ht.stall ht.onGroup.postAdvance.hold))

theorem State.memOk.onSlot {gid b t f} : (s.onSlot gid b t f).memOk := h.onGroup

@[simp] theorem execTbwait_memOk {b} : (execTbwait b s).memOk := by
  unfold execTbwait
  refine h.issueWait fun _ ht => ?_
  extract_lets i t
  split
  · exact ht.stepTrap
  split
  · exact ht.stepTrap
  extract_lets ready
  split
  · exact ht.stepTrap
  · exact ht.waitFor fun _ ht => ht

@[simp] theorem execTbfull_memOk {b} : (execTbfull b s).memOk := by
  unfold execTbfull
  refine h.issueWait fun _ ht => ?_
  extract_lets i t
  split
  · exact ht.stepTrap
  · exact .ite ht.stepTrap (.ite ht.unhold.upd (.ite ht.stall ht.unhold.onSlot))

@[simp] theorem execTbempty_memOk {b a sel} : (execTbempty b a sel s).memOk := by
  unfold execTbempty
  refine h.issueWait fun _ ht => ?_
  extract_lets i x t far
  split
  · exact ht.stepTrap
  split
  · exact ht.stepTrap
  · exact .ite ht.stepTrap (.ite ht.stall (.ite ht.unhold.upd ht.unhold.onSlot))

/-! ### Placement, saving and restoring of groups -/

theorem State.memOk.addSheaves {hs core} : (s.addSheaves hs core).memOk := h.set.onCluster

theorem State.memOk.placeGroup {t c} : (s.placeGroup t c).memOk := by
  unfold State.placeGroup
  extract_lets gid n s1 s2
  have h1 : s1.memOk := h.set
  exact h1.clearRange.addSheaves

theorem State.memOk.settleUnits {tid} : (s.settleUnits tid).memOk := h.onTask

theorem State.memOk.placePlan {t plan} : (s.placePlan t plan).memOk :=
  (h.foldl fun _ _ ht => ht.placeGroup).settleUnits

theorem State.memOk.placeSet {t e node x c} : (s.placeSet t e node x c).memOk := by
  unfold State.placeSet
  extract_lets gid base g s1 s2
  have h1 : s1.memOk := h.set
  exact h1.clearRange.addSheaves

theorem State.memOk.moveRange {src dst len} : (s.moveRange src dst len).memOk :=
  ⟨storeWrites_wf (fun c : Host.Cell => c.1 - src + dst) Prod.snd _ (storeFilter_wf _ h.1),
    storeWrites_wf (fun c : Nat × BitVec 32 => c.1 - src + dst) Prod.snd _ (storeFilter_wf _ h.2)⟩

theorem State.memOk.moveSpad {src dst len} : (s.moveSpad src dst len).memOk := by
  unfold State.moveSpad
  split
  · exact h
  extract_lets t
  have ht : t.memOk := h.moveRange.mapSheaves
  exact ht.set

theorem State.memOk.saveGroup {gid} : (s.saveGroup gid).memOk := by
  unfold State.saveGroup
  split
  · exact h
  split
  · exact h
  extract_lets at_ s0 s1 s2
  have hs0 : s0.memOk := h.foldl fun _ _ ht => ht.containError
  have hs2 : s2.memOk := hs0.mapSheaves.moveSpad
  exact hs2.onGroup

theorem State.memOk.reissue {l} : SomeMemOk id (s.reissue l) := by
  unfold State.reissue
  extract_lets keys dest cut l1 back t u
  split
  · trivial
  split
  · exact State.memOk.ite h.endContext h.containError.upd
  have ht : t.memOk := .ite h.correct h.correct.touchOutside
  exact State.memOk.ite ht.upd ht.upd.post

theorem State.memOk.reissueAll {ls} : (s.reissueAll ls).memOk := by
  induction ls generalizing s with
  | nil => exact h
  | cons l r ih =>
    unfold State.reissueAll
    split
    · exact h
    · next t e =>
      have ht : t.memOk := h.reissue.of_some e
      exact ih ht.upd

theorem State.memOk.replayLoads : s.replayLoads.memOk := h.foldl fun _ _ ht => ht.as fun _ ht => ht.reissueAll

theorem State.memOk.reregister {gids} : (s.reregister gids).memOk := h.set

theorem State.memOk.restoreAt {gid core base} : (s.restoreAt gid core base).memOk := by
  unfold State.restoreAt
  split
  · exact h
  split
  · exact h.endForError
  extract_lets s1 seats ms s2 k
  have hs2 : s2.memOk := h.moveSpad.mapSheaves
  exact hs2.set.onCluster

/-! ### Tasks, bins, signals and cancel scopes -/

theorem State.memOk.onBin {die tid node f} : (s.onBin die tid node f).memOk := .ite h.set h.set

theorem State.memOk.giveSet {t die node n} : (s.giveSet t die node n).memOk := by
  unfold State.giveSet
  split
  · exact h
  · exact h.onCluster.post

theorem State.memOk.closeSet {die tid node x} : (s.closeSet die tid node x).memOk := by
  unfold State.closeSet
  split
  · exact h
  extract_lets s1 n s2
  have h1 : s1.memOk := h.onBin
  have h2 : s2.memOk := h1.countDiscarded
  exact .ite (.ite h2 h2.notify.onTask) h1.onBin.onTask.giveSet

theorem State.memOk.binPut {die tid node count rep r} : (s.binPut die tid node count rep r).memOk := by
  unfold State.binPut
  extract_lets b new old x t y u
  have ht : t.memOk := .ite h h.tick.onBin
  have hu : u.memOk := ht.onBin.accepted
  exact .ite hu.closeSet hu

theorem State.memOk.binPump {die tid node count rep fuel} : (s.binPump die tid node count rep fuel).memOk := by
  induction fuel generalizing s with
  | zero => exact h
  | succ k ih =>
    unfold State.binPump
    dsimp only
    split
    · exact h
    · exact ih h.onBin.binPut

theorem State.memOk.binTake {die tid node} : (s.binTake die tid node).memOk := by
  unfold State.binTake
  split
  · exact h
  · exact h.binPump

theorem State.memOk.binArrive {die tid node r} : (s.binArrive die tid node r).memOk := by
  unfold State.binArrive
  split
  · exact h.accepted
  · exact .ite h.onTask.countDropped.accepted (.ite h.onTask.accepted h.onTask.onBin.binTake)

@[simp] theorem execBinRecordArrival_memOk {die tid node scope words sender last} :
    (execBinRecordArrival die tid node scope words sender last s).memOk :=
  h.binArrive

@[simp] theorem execBinSetTimer_memOk {die tid node scope} : (execBinSetTimer die tid node scope s).memOk := by
  unfold execBinSetTimer
  split
  · exact h
  split
  · exact h
  split
  · exact State.memOk.binTake (.ite h h.closeSet)
  · exact h.binTake

@[simp] theorem execSpawn_memOk {sa a len} : (execSpawn sa a len s).memOk :=
  h.issue fun _ ht => .ite ht.trapWord (.ite ht (.ite ht.upd.upd ht.upd.onTask.post))

theorem State.memOk.sendRecord {tid x} : (s.sendRecord tid x).memOk := h.onTask.post

theorem State.memOk.decrementAt {tag va key scope uid r} (e : s.decrementAt tag va key scope uid = r) : r.1.memOk := by
  subst e
  unfold State.decrementAt
  extract_lets s0 count bs s1 node words ws
  have h0 : s0.memOk := h.correct
  split
  · exact h0.containError
  split
  · exact h0
  · exact h0.putBytes.as fun _ ht => ht.traceMine

theorem State.memOk.decrement {tag va key scope uid r} (e : s.decrement tag va key scope uid = r) : r.1.memOk := by
  subst e
  unfold State.decrement
  split
  · split
    · exact h.parkOp
    · exact h.decrementAt rfl
  · exact h.decrementAt rfl

@[simp] theorem execDependenceDecrement_memOk {tag tid x scope uid} : (execDependenceDecrement tag tid x scope uid s).memOk := by
  unfold execDependenceDecrement
  split
  · next t e =>
    have ht : t.memOk := h.decrement e
    exact ht
  · next t rcd e =>
    have ht : t.memOk := h.decrement e
    exact ht.sendRecord

@[simp] theorem execDepdec_memOk {a} : (execDepdec a s).memOk := by
  unfold execDepdec
  refine h.issueWait fun _ ht => ?_
  extract_lets i
  split
  · exact ht.blocked
  split
  · exact ht.stall
  split
  · exact ht.meetError
  extract_lets t u
  have ht' : t.memOk := ht.unhold.touch
  have hu : u.memOk := .ite ht'.upd ht'.post
  exact .ite hu hu.post

theorem State.memOk.signalLands {tag uid va key op x word} : (s.signalLands tag uid va key op x word).memOk := by
  unfold State.signalLands
  split
  · exact h.onSheaf
  split
  · exact h.containError.onSheaf
  extract_lets n bs t u
  have hu : u.memOk := .ite h.land.onSheaf h.land
  split
  · exact hu.as fun _ ht => ht.traceMine
  · exact hu

theorem State.memOk.signalAt {va key op x word} : (s.signalAt va key op x word).memOk := h.signalLands

@[simp] theorem execSignal_memOk {a sp scope op b} : (execSignal a sp scope op b s).memOk := by
  refine h.issueWait fun u hu => ?_
  extract_lets i x
  split
  · exact hu.blocked
  extract_lets t
  have ht : t.memOk := hu.unhold.touch
  split
  · exact hu.stall
  split
  · exact hu.meetError
  split
  · exact ht.openFar.post
  split
  · exact ht.upd
  split
  · exact ht.parkOp
  · exact ht.openFar.signalAt

@[simp] theorem execWaitsig_memOk {a sp scope op b} : (execWaitsig a sp scope op b s).memOk := by
  unfold execWaitsig
  refine h.issueWait fun _ ht => ?_
  extract_lets i
  split
  · exact .ite ht.park ht.blocked
  · exact ht.blocked
  split
  · exact ht.stall
  split
  · exact ht.meetError
  split
  · exact ht.unhold.post
  extract_lets t
  have ht' : t.memOk := .ite ht ht.touch
  exact ht'.waitFor fun _ ht => ht

@[simp] theorem execSignalReread_memOk {uid} : (execSignalReread uid s).memOk := by
  unfold execSignalReread
  refine h.as fun _ ht => ?_
  split
  · exact .ite ht.unhold ht
  · exact ht

theorem State.memOk.dieIfCancelled : s.dieIfCancelled.memOk := .ite h.postFirst h

theorem State.memOk.openChild {d} : (s.openChild d).memOk := by
  unfold State.openChild
  split
  · exact h.upd
  · exact h.onContext.upd.dieIfCancelled

@[simp] theorem execCsopen_memOk {d} : (execCsopen d s).memOk :=
  h.issueWait fun _ ht => .ite ht.unhold.trapWord (.ite ht.unhold (.ite ht.trapWord (.ite ht.upd.hold ht.openChild)))

theorem State.memOk.endQuantum : s.endQuantum.memOk := h.upd

@[simp] theorem execCsclose_memOk : (execCsclose s).memOk :=
  h.issue fun _ ht => .ite ht.trapWord ht.onContext.upd.endQuantum

@[simp] theorem execCancel_memOk {a} : (execCancel a s).memOk := by
  unfold execCancel
  refine h.issue fun _ ht => ?_
  split
  · exact ht.trapWord
  · exact .ite ht.trapWord (.ite ht.upd.endQuantum ht.cancel)

@[simp] theorem execCwait_memOk {a d} : (execCwait a d s).memOk := by
  unfold execCwait
  refine h.issueWait fun _ ht => ?_
  split
  · exact ht.unhold.trapWord
  · exact .ite ht.unhold.trapWord (ht.waitFor fun _ ht => ht.regs)

@[simp] theorem execSheafKill_memOk {uid} : (execSheafKill uid s).memOk := by
  unfold execSheafKill
  split
  · exact h
  · exact State.memOk.ite h.kill h

@[simp] theorem execDriverCancel_memOk {tag scope} : (execDriverCancel tag scope s).memOk :=
  State.memOk.ite h.onContext h.cancel

theorem State.memOk.onQueue {fn q f} : (s.onQueue fn q f).memOk := h.onFn

theorem State.memOk.iguanaFault {tag part va acc} : (s.iguanaFault tag part va acc).memOk :=
  .ite h h.notify.onContext.containWalk

theorem State.memOk.igCorrect {tag as} : (s.igCorrect tag as).memOk := .ite h h.correct

theorem State.memOk.hubRefuse {a} : (s.hubRefuse a).memOk := h.set

theorem State.memOk.queueGo {fn q} : (s.queueGo fn q).memOk := h.post

theorem State.memOk.queuesGo {tag} : (s.queuesGo tag).memOk := by
  unfold State.queuesGo
  split
  · exact h
  · exact h.foldl fun _ _ ht => ht.queueGo

theorem State.memOk.unpublishPage {tag va} : (s.unpublishPage tag va).memOk := by
  unfold State.unpublishPage
  split
  · exact .ite h h.putHost
  · exact h

theorem State.memOk.unpublish {t} : (s.unpublish t).memOk :=
  h.foldl fun _ _ ht => ht.foldl fun _ _ ht => ht.unpublishPage

theorem State.memOk.commandDone {fn q count} : (s.commandDone fn q count).memOk := h.onQueue.queueGo

theorem State.memOk.igMake {w} : SomeMemOk id (s.igMake w) := by
  unfold State.igMake
  extract_lets bs
  split
  · trivial
  split
  · exact h.putBytes
  split
  · trivial
  · exact h.hubRefuse
  split
  · exact h.hubRefuse
  split
  · exact h.correctWalk.land
  split
  · trivial
  · exact h.parkOp

theorem State.memOk.igPump : s.igPump.memOk := by
  unfold State.igPump
  extract_lets one r
  have made : ∀ x w, x.1.memOk → (one x w).1.memOk := by
    intro x w hx
    unfold one
    split
    · exact hx
    split
    · next t e =>
      have ht : t.memOk := hx.igMake.of_some e
      exact .ite ht.commandDone ht
    · exact .ite hx.iguanaFault hx
  have hr : r.1.memOk :=
    List.foldlRecOn (motive := fun x : State × List IguanaWrite => x.1.memOk) s.iwrites one h.set fun x hx w _ => made x w hx
  exact hr.set

theorem State.memOk.igPut {ws} : (s.igPut ws).memOk := h.set.igPump

theorem State.memOk.setStatus {t status} : (s.setStatus t status).memOk := h.igPut

theorem State.memOk.endTask {t} : (s.endTask t).memOk := by
  unfold State.endTask
  extract_lets live s1 s2 value
  have hs1 : s1.memOk := .onTask (.ite h.unpublish h)
  have hs2 : s2.memOk := .ite hs1.onContext hs1
  exact .ite hs2.igPut hs2

@[simp] theorem execTaskEnd_memOk {tid} : (execTaskEnd tid s).memOk := by
  unfold execTaskEnd
  split
  · exact h
  · exact State.memOk.ite h.endTask h

@[simp] theorem execGraphEndSample_memOk {tid} : (execGraphEndSample tid s).memOk := by
  unfold execGraphEndSample
  split
  · exact h
  split
  · exact h
  split
  · exact h.onTask
  · exact State.memOk.ite h (.ite h.endTask h.onTask)

/-! ### Transfers between versions -/

theorem State.memOk.mapTrap {n index} : (s.mapTrap n index).memOk := h.upd.pendTrap

theorem State.memOk.safeptStop {i token x} : (s.safeptStop i token x).memOk := by
  unfold State.safeptStop
  split
  · exact .ite h.codeBlocked h.stall.park
  · exact h.codeBlocked

theorem State.memOk.mapFails {i n token x} : (s.mapFails i n token x).memOk := by
  unfold State.mapFails
  split
  · exact h.safeptStop
  · exact h.stall
  · exact h.unhold.mapTrap

theorem State.memOk.mapTouch {n t} : (s.mapTouch n t).memOk := h.touch

theorem State.memOk.completeTransfer {i n token} : (s.completeTransfer i n token).memOk := by
  unfold State.completeTransfer
  extract_lets s0
  split
  · exact h.upd.mapFails
  · exact h.upd.unhold
  split
  · exact h.upd.mapTouch.mapFails
  · exact h.upd.mapFails
  · exact h.upd.mapTouch.unhold.upd.roomFreed

@[simp] theorem execSafept_memOk {n} : (execSafept n s).memOk := by
  unfold execSafept
  refine h.issueWait fun _ ht => ?_
  extract_lets i token
  split
  · exact ht
  split
  · exact ht.completeTransfer
  split
  · exact ht.stall
  split
  · exact ht
  · exact ht.safeptStop
  · exact ht.stall

@[simp] theorem execXfer_memOk {ver} : (execXfer ver s).memOk := by
  unfold execXfer
  refine h.issue fun _ ht => ?_
  split
  · exact ht.trapWord
  · exact ht.upd

@[simp] theorem execXferClr_memOk : (execXferClr s).memOk := by
  unfold execXferClr
  refine h.issue fun _ ht => ?_
  split
  · exact ht.trapWord
  · exact ht.upd

theorem State.memOk.recordAsk {t ver budget} : (s.recordAsk t ver budget).memOk := h.mapSheaves.onTask

@[simp] theorem execFirmwareXferRequest_memOk {tid ver budget} : (execFirmwareXferRequest tid ver budget s).memOk := by
  unfold execFirmwareXferRequest
  split
  · exact h
  · exact State.memOk.ite h (.ite h.onTask h.recordAsk)

@[simp] theorem execXferDeadline_memOk {tid} : (execXferDeadline tid s).memOk := by
  unfold execXferDeadline
  split
  · exact h
  · exact State.memOk.ite h h.mapSheaves.onTask.post

end

end Sys2Proof.Machine
end

section
/-!
PROOFS. Canonical memory: launch queues, placement, deliveries, and writes of the host and of peers (R62, R85).
-/

namespace Sys2Proof.Machine

open Sys2Proof

section
variable {s : State} (h : s.memOk)
include h

/-! ### Launch queues, units and pre-emption -/

theorem State.memOk.lqNotify {fn q val} : (s.lqNotify fn q val).memOk := by
  unfold State.lqNotify
  split
  · exact h
  split
  · exact h
  · exact h.onQueue.queueGo

theorem State.memOk.latchWrite {fn e} : (s.latchWrite fn e).memOk := .ite h.set.post h.post

@[simp] theorem execLqnotifyWrite_memOk {fn q val} : (execLqnotifyWrite fn q val s).memOk :=
  State.memOk.ite h.latchWrite h.lqNotify

@[simp] theorem execLqcfgWrite_memOk {fn q val} : (execLqcfgWrite fn q val s).memOk := by
  unfold execLqcfgWrite
  extract_lets k off s1 s2
  have h2 : s2.memOk := h.onQueue.set
  refine State.memOk.ite ?_ h.onQueue.queueGo
  split
  · exact h2.endTrace
  · exact h2

theorem State.memOk.take {fn q c ws} : (s.take fn q c ws).memOk := h.onQueue.igPut

theorem State.memOk.takeDone {fn q c status} : (s.takeDone fn q c status).memOk := h.take.queueGo

theorem State.memOk.malformed {fn q c} : (s.malformed fn q c).memOk := h.takeDone

theorem State.memOk.readFails {fn q c x} : (s.readFails fn q c x).memOk := by
  unfold State.readFails
  split
  · exact h
  · exact h
  · exact h.iguanaFault
  · exact h.malformed
  · exact .ite h.containError.malformed h.containError

theorem State.memOk.headRead {fn q c} : (s.headRead fn q c).memOk := .ite h h.igCorrect

theorem State.memOk.command {fn q kinds f} (hf : ∀ t c k, t.memOk → (f t c k).memOk) : (s.command fn q kinds f).memOk := by
  unfold State.command
  split
  · exact h
  split
  · exact h
  · exact h.readFails
  · exact h.readFails
  · exact h.readFails
  · exact .ite h (.ite h.headRead.malformed (hf _ _ _ h.headRead))

@[simp] theorem execCmdNop_memOk {fn q} : (execCmdNop fn q s).memOk := h.command fun _ _ _ ht => ht.takeDone

@[simp] theorem execCmdWrite_memOk {fn q} : (execCmdWrite fn q s).memOk := h.command fun _ _ _ ht => ht.take.queueGo

@[simp] theorem execCmdWait_memOk {fn q} : (execCmdWait fn q s).memOk := by
  refine h.command fun t c k ht => ?_
  split
  · extract_lets u v
    have hv : v.memOk := ht.igCorrect.take
    exact .ite ht.igCorrect.takeDone hv.set
  · exact ht.readFails

theorem State.memOk.unholdWait {h' status} : (s.unholdWait h' status).memOk := h.set.igPut

@[simp] theorem execWaitConditionMet_memOk {fn q} : (execWaitConditionMet fn q s).memOk := by
  unfold execWaitConditionMet
  split
  · exact h
  split
  · exact h
  split
  · exact h.igCorrect.unholdWait
  · exact h.iguanaFault
  · exact h
  · exact h.unholdWait
  · exact State.memOk.ite h.containError.unholdWait h.containError

theorem State.memOk.handOut {t} : (s.handOut t).memOk := by
  unfold State.handOut
  extract_lets ds home give
  exact (h.foldl fun _ _ ht => ht.onDie).onTask.post

theorem State.memOk.copyRange {src dst len} : (s.copyRange src dst len).memOk :=
  ⟨storeWrites_wf (fun c : Host.Cell => c.1 - src + dst) Prod.snd _ (storeFilter_wf _ h.1),
    storeWrites_wf (fun c : Nat × BitVec 32 => c.1 - src + dst) Prod.snd _ (storeFilter_wf _ h.2)⟩

theorem State.memOk.publishPage {tag va} : (s.publishPage tag va).memOk := by
  unfold State.publishPage
  split
  · exact h.copyRange.putHost
  · exact h

theorem State.memOk.publish {tag rs} : (s.publish tag rs).memOk :=
  h.foldl fun _ _ ht => ht.foldl fun _ _ ht => ht.publishPage

theorem State.memOk.gangTry {tid} : (s.gangTry tid).memOk := by
  unfold State.gangTry
  split
  · exact h
  split
  · exact h.placePlan.onTask.setStatus
  · exact h.onTask.setStatus

theorem State.memOk.launch {fn q c r va x} : (s.launch fn q c r va x).memOk := by
  unfold State.launch
  extract_lets t s2 s3 s4 s5
  have hs3 : s3.memOk := h.take.publish.set
  have hs4 : s4.memOk := .ite hs3.onContext hs3
  have hs5 : s5.memOk := .ite hs4.countDropped.onTask.post (.ite hs4.gangTry (.ite hs4.handOut hs4))
  exact hs5.queueGo

@[simp] theorem execCmdLaunch_memOk {fn q} : (execCmdLaunch fn q s).memOk := by
  refine h.command fun t c k ht => ?_
  split
  · exact ht.readFails
  extract_lets w r
  split
  · exact ht.readFails
  · exact .ite ht.igCorrect.takeDone (.ite ht.igCorrect ht.igCorrect.launch)

@[simp] theorem execStartGtcReached_memOk {tid} : (execStartGtcReached tid s).memOk := by
  unfold execStartGtcReached
  split
  · exact State.memOk.ite h.handOut h
  · exact h

@[simp] theorem execGangRetry_memOk {tid} : (execGangRetry tid s).memOk := by
  unfold execGangRetry
  split
  · exact State.memOk.ite h.gangTry h
  · exact h

@[simp] theorem execGangStart_memOk {tid} : (execGangStart tid s).memOk := by
  unfold execGangStart
  split
  · split
    · exact State.memOk.ite h.onTask h
    · exact h
  · exact h

theorem State.memOk.giveNewt {c tid lo n} : (s.giveNewt c tid lo n).memOk := h.onCluster.post

@[simp] theorem execUnitHandout_memOk {die} : (execUnitHandout die s).memOk := by
  refine (?_ : State.memOk _)
  split
  · exact h
  split
  · split
    · exact h
    · exact h.onDie.giveNewt.post
  split
  · exact .ite h.post h
  split
  · exact h.onDie
  refine .ite h.onDie.post ?_
  split
  · exact h
  · exact h.onDie.giveNewt.post

@[simp] theorem execUnitSteal_memOk {die} : (execUnitSteal die s).memOk := by
  unfold execUnitSteal
  split
  · exact h
  split
  · exact h
  · exact State.memOk.ite h h.onDie.onDie.post

theorem State.memOk.placeJob {j plan} : (s.placeJob j plan).memOk := by
  unfold State.placeJob
  split
  · split
    · exact h.placePlan
    · exact h
  split
  · exact h
  split
  · exact h.onBin.placeSet
  · exact h

theorem State.memOk.serve {cluster js} : (s.serve cluster js).memOk := by
  induction js with
  | nil => exact h
  | cons j rest ih =>
    unfold State.serve
    split
    · exact ih
    split
    · exact h.onCluster.placeJob.post
    split
    · exact h.post
    · exact ih

@[simp] theorem execGroupPlacement_memOk {cluster} : (execGroupPlacement cluster s).memOk := by
  unfold execGroupPlacement
  split
  · exact h
  · exact h.onCluster.serve

@[simp] theorem execPreemption_memOk {gid} : (execPreemption gid s).memOk := by
  unfold execPreemption
  split
  · exact h
  · exact State.memOk.ite h (h.foldl fun _ _ ht => ht.saveGroup.roomFreed)

theorem State.memOk.restorePlan {r gs plan} : (s.restorePlan r gs plan).memOk := by
  unfold State.restorePlan
  extract_lets t u
  have ht : t.memOk := by
    unfold t
    refine h.foldl fun _ _ ht => ?_
    split
    · exact ht.restoreAt
    · exact ht
  split
  · exact ht.reregister
  · exact ht.reregister.postAdvance

@[simp] theorem execGroupRestore_memOk {gid} : (execGroupRestore gid s).memOk := by
  refine (?_ : State.memOk _)
  split
  · exact h
  refine .ite h ?_
  extract_lets r gs ks cs
  split
  · exact h.restorePlan
  split
  · exact h.post
  · exact h

/-! ### Deliveries, host, peers, scrubbing and debuggers -/

@[simp] theorem execLoadDelivery_memOk {uid k} : (execLoadDelivery uid k s).memOk := h.onSheaf

@[simp] theorem execAtomicAtHome_memOk {tag key op operand} : (execAtomicAtHome tag key op operand s).memOk :=
  h.atomLands

theorem State.memOk.rejectFar {uid word dest lanes} : (s.rejectFar uid word dest lanes).memOk := by
  unfold State.rejectFar
  split
  · exact h
  · exact h.undoFar.onSheaf

@[simp] theorem execPeerHostRejection_memOk {uid word dest lanes} : (execPeerHostRejection uid word dest lanes s).memOk :=
  State.memOk.ite (h.as fun _ ht => ht.rejectBatch) h.rejectFar.onSheaf

@[simp] theorem execSleepbWake_memOk {uid} : (execSleepbWake uid s).memOk := by
  unfold execSleepbWake
  refine h.as fun _ ht => ?_
  split
  · exact .ite ht.sleepbTest ht
  · exact ht

@[simp] theorem execSleepWake_memOk {uid} : (execSleepWake uid s).memOk := by
  unfold execSleepWake
  refine h.as fun _ ht => ?_
  split
  · exact .ite ht.unhold ht
  · exact ht

theorem State.memOk.resolveBatch {page ok shut b} : (s.resolveBatch page ok shut b).memOk :=
  .ite h (.ite h.setBatch h.retireDone.setBatch)

theorem State.memOk.resolveCopies {page ok} : (s.resolveCopies page ok).memOk :=
  h.resolveBatch.foldl fun _ _ ht => ht.resolveBatch

theorem State.memOk.stirContext {tag} : (s.stirContext tag).memOk := h.queuesGo.post

@[simp] theorem execFaultResolved_memOk {tag va ok} : (execFaultResolved tag va ok s).memOk := by
  unfold execFaultResolved
  extract_lets page mine s1
  have h1 : s1.memOk := h.foldl fun _ _ ht => ht.as fun _ hu => hu.upd.resolveCopies
  exact State.memOk.ite h1.onContext.igPump.stirContext h1

@[simp] theorem execPageInvalidation_memOk {tag va len} : (execPageInvalidation tag va len s).memOk :=
  State.memOk.ite h.dropTlb.set h.dropTlb

@[simp] theorem execMigrationCopy_memOk {oldKey newKey len} : (execMigrationCopy oldKey newKey len s).memOk := by
  unfold execMigrationCopy
  extract_lets bad s0 moved s1
  have hm : moved.memOk := h.correct.copyRange
  have h1 : s1.memOk := hm.set
  exact h1.foldl fun _ _ ht => ht.clearRange.containError

theorem State.memOk.replayOp {w o} : (s.replayOp w o).memOk := by
  unfold State.replayOp
  split
  · extract_lets k t
    have ht : t.memOk := by
      unfold t
      split
      · exact h.landFrom
      · exact h.land
    exact .ite ht (ht.as fun _ hu => hu.traceMine)
  · split
    · exact h.landDescFrom
    · exact h.landDesc
  · exact h.atomLands
  · exact h.signalLands
  · exact h.bumpCounts
  · split
    · next e => exact h.decrementAt e
    · next e => exact State.memOk.sendRecord (h.decrementAt e)

theorem State.memOk.replayCopy {w k ops} : (s.replayCopy w k ops).memOk := by
  induction ops generalizing s with
  | nil => exact h
  | cons o r ih =>
    unfold State.replayCopy
    split
    · next e => cases e
    · next e =>
      cases e
      exact .ite h.failParked (ih h.replayOp)
    · next e =>
      cases e
      exact ih h.replayOp

theorem State.memOk.replayParked {w k} : (s.replayParked w k).memOk :=
  .ite h.replayCopy (h.foldl fun _ _ ht => ht.replayOp)

theorem State.memOk.replayAll {mine n} : (s.replayAll mine n).memOk := by
  induction n generalizing s with
  | zero => exact h
  | succ n ih =>
    unfold State.replayAll
    split
    · exact h
    split
    · exact h
    · exact ih (State.memOk.replayParked h.set)

theorem State.memOk.resetCounts {tag page} : (s.resetCounts tag page).memOk := by
  unfold State.resetCounts
  split
  · exact h
  extract_lets va
  split
  · exact .ite h.parkOp h.putHost
  · exact h

@[simp] theorem execParkedWriteReplay_memOk {tag va} : (execParkedWriteReplay tag va s).memOk := by
  refine (?_ : State.memOk _)
  split
  · extract_lets mine s0 s1 s2
    have h0 : s0.memOk := h.replayAll
    have h1 : s1.memOk := State.memOk.enterParking h0.set
    have h2 : s2.memOk := .ite h1.putHost h1
    exact h2.resetCounts.igPump.stirContext
  · exact h

theorem State.memOk.writeOver {key bs} : (s.writeOver key bs).memOk := h.foldl fun _ _ ht => ht.land

theorem State.memOk.writeOutside {key bs} : (s.writeOutside key bs).memOk := by
  unfold State.writeOutside
  refine h.touchOutside.foldl fun _ _ ht => ?_
  split
  extract_lets whole
  split
  · exact .ite ht.parkOp ht.land
  · exact ht.land

@[simp] theorem execHostMemoryWrite_memOk {addr data} : (execHostMemoryWrite addr data s).memOk :=
  State.memOk.ite h.writeOutside h

@[simp] theorem execMonitorWrite_memOk {key data} : (execMonitorWrite key data s).memOk :=
  State.memOk.ite h.writeOver h

theorem State.memOk.forward {source target expiry off op} : (s.forward source target expiry off op).memOk := by
  unfold State.forward
  extract_lets k
  split
  · exact h
  refine .ite h.set ?_
  split
  · exact h
  · exact h.putBytes
  · exact h.atomAt rfl

@[simp] theorem execPeerRequest_memOk {source addr op} : (execPeerRequest source addr op s).memOk := by
  unfold execPeerRequest
  extract_lets off
  refine (?_ : State.memOk _)
  split
  · exact h.forward
  split
  · split
    · exact .ite h.touchOutside.containError h.touchOutside
    · exact h
  · split
    · exact .ite h h.writeOutside
    · exact h
  split
  · extract_lets t
    have ht : t.memOk := h.touchOutside
    split
    · exact .ite ht.parkOp ht.atomLands
    · exact ht.atomLands
  · exact h

@[simp] theorem execRegisterWrite_memOk {reg val} : (execRegisterWrite reg val s).memOk := by
  unfold execRegisterWrite
  split
  · exact h.onPart.flushNotices
  · exact h.onPart.flushNotices
  · exact h.onPart.flushNotices
  · exact h.onPart
  · exact h.onPart
  · exact h
  · exact h
  · exact h
  · exact h.onFn
  · exact h.onFn
  · exact h.onFn
  · exact h.onFn
  · exact h.onFn.traceDropped
  · exact h.releaseFrames
  · exact h.onFn
  · exact h.onFn

theorem State.memOk.arrayError {key} : (s.arrayError key).memOk := by
  unfold State.arrayError
  split
  · exact h.recordError
  split
  · exact h.logAt
  split
  · exact h.bufError
  split
  · exact .ite h.endContext h
  · exact h

@[simp] theorem execScrubPass_memOk {key err} : (execScrubPass key err s).memOk := by
  unfold execScrubPass
  split
  · exact h
  · exact State.memOk.ite h h.set.logAt
  · exact State.memOk.ite h (.ite h.arrayError h.containError)

@[simp] theorem execTrapEntry_memOk {uid} : (execTrapEntry uid s).memOk := by
  unfold execTrapEntry
  refine h.as fun _ ht => ?_
  split
  · exact .ite (.ite ht.settle.set.enterHandler ht.settle) ht
  · exact .ite ht.deliverPend ht

@[simp] theorem execContextEnd_memOk {tag cause va} : (execContextEnd tag cause va s).memOk := h.endContext

@[simp] theorem execDebugResume_memOk {uid} : (execDebugResume uid s).memOk := h.onSheaf

@[simp] theorem execDebuggerAttach_memOk {tag} : (execDebuggerAttach tag s).memOk := h.onContext

end

end Sys2Proof.Machine
end

section
/-!
PROOFS. Canonical memory: rounds of repeatable mode, partitions, functions and the platform (R62, R85).
-/

namespace Sys2Proof.Machine

open Sys2Proof

section
variable {s : State} (h : s.memOk)
include h

/-! ### Rounds of repeatable mode and replay -/

@[simp] theorem execQuantumCountEnd_memOk {uid} : (execQuantumCountEnd uid s).memOk := h.as fun _ ht => .ite ht.upd ht

theorem State.memOk.commitArrive {bid result} : (s.commitArrive bid result).memOk := by
  unfold State.commitArrive
  split
  · exact h
  split
  · exact h
  extract_lets t
  split
  · exact h.arriveAt.regs
  · exact h.arriveAt.upd

theorem State.memOk.commitWrite {w} : SomeMemOk Prod.fst (s.commitWrite w) := by
  unfold State.commitWrite
  split
  · extract_lets v
    split
    split
    · trivial
    split
    · exact h.parkWrite
    extract_lets t
    have ht : t.memOk := h.landFrom
    exact .ite ht.traceMine ht
  · extract_lets v
    split
    split
    · trivial
    split
    · exact h.parkWrite
    · exact h.landDescFrom
  extract_lets done
  split
  · trivial
  split
  · next t e => exact h.copyEvent.of_some e
  split
  · exact h
  · trivial

theorem State.memOk.commitWrites {n} : (s.commitWrites n).memOk := by
  induction n generalizing s with
  | zero => exact h
  | succ n ih =>
    unfold State.commitWrites
    split
    · exact h
    split
    · exact h
    · next t e => exact h.commitWrite.of_some e
    · next t e =>
      have ht : t.memOk := h.commitWrite.of_some e
      exact ih ht.upd

theorem State.memOk.commitOp {d} : SomeMemOk id (s.commitOp d) := by
  unfold State.commitOp
  split
  · split
    split
    · trivial
    split
    · exact h.parkWrite
    · exact h.atomLands
  · split
    · trivial
    split
    · next t e =>
      have ht : t.memOk := h.decrement e
      exact ht
    · next t x e =>
      have ht : t.memOk := h.decrement e
      exact ht.onTask
  · split
    split
    · trivial
    split
    · exact h.parkWrite
    · exact h.signalAt
  · split
    · exact h.swapRegion
    · trivial
  · exact h.commitArrive
  · exact h.onGroup
  · refine (?_ : State.memOk _)
    split
    · exact h.onSlot
    · exact h
  · exact h.onSlot
  · exact h.onTask
  · exact h.openChild
  · exact h.onTask

theorem State.memOk.commitOps {n} : (s.commitOps n).memOk := by
  induction n generalizing s with
  | zero => exact h
  | succ n ih =>
    unfold State.commitOps
    split
    · exact h
    split
    · exact h
    · next t e =>
      have ht : t.memOk := h.commitOp.of_some e
      exact ih ht.upd

theorem State.memOk.commitStage {run left us} (hrun : ∀ t, t.memOk → (run t).memOk) : (s.commitStage run left us).memOk := by
  induction us generalizing s with
  | nil => exact h
  | cons u r ih =>
    unfold State.commitStage
    extract_lets t
    have ht : t.memOk := h.as hrun
    exact .ite ht (ih ht)

theorem State.memOk.closeSets {tid n} : (s.closeSets tid n).memOk := by
  induction n generalizing s with
  | zero => exact h
  | succ n ih =>
    unfold State.closeSets
    extract_lets mine opened t
    have ht : t.memOk := h.foldl fun _ _ hu => hu.closeSet
    exact .ite h (ih (ht.foldl fun _ _ hu => hu.binTake))

theorem State.memOk.commitAdvances {tid} : (s.commitAdvances tid).memOk := h.foldl fun _ _ ht => ht.advance

theorem State.memOk.checkpoint {t} : (s.checkpoint t).memOk := by
  unfold State.checkpoint
  extract_lets gs u ranges held hs c
  have hu : u.memOk := h.foldl fun _ _ ht => ht.saveGroup
  exact h.set

theorem State.memOk.commitCancels {t ids} : (s.commitCancels t ids).memOk := by
  unfold State.commitCancels
  extract_lets u hit
  have hu : u.memOk := h.foldl fun _ _ ht => ht.cancel
  exact hu.foldl fun _ _ ht => ht.kill

theorem State.memOk.commitDeaths {tid} : (s.commitDeaths tid).memOk := h.foldl fun _ _ ht => ht.recordDeath

theorem State.memOk.closeRound {t us} : (s.closeRound t us).memOk := by
  unfold State.closeRound
  extract_lets tid s1 s2 asked s3 s4 s5 s6 s7 sampled s8 s9 gs
  have hs1 : s1.memOk := h.foldl fun _ _ ht => ht.binArrive
  have hs3 : s3.memOk := hs1.closeSets.onContext.onTask
  have hs4 : s4.memOk := hs3.commitCancels.commitDeaths.commitAdvances
  have hs6 : s6.memOk := hs4.mapSheaves.onTask
  have hs7 : s7.memOk := by
    unfold s7
    split
    · exact hs6.recordAsk
    · exact hs6
  have hs9 : s9.memOk := by
    unfold s9
    split
    · split
      · exact hs7.set.retire.checkpoint
      · exact hs7.set.retire
    · exact hs7.set.retire
  exact hs9.foldl fun _ _ ht => ht.reap

theorem State.memOk.commitRound {t} : (s.commitRound t).memOk := by
  unfold State.commitRound
  extract_lets us lost mine s1 s2
  have h1 : s1.memOk := h.commitStage fun _ ht => ht.commitWrites
  have h2 : s2.memOk := h1.commitStage fun _ ht => ht.commitOps
  refine .ite (h.set.foldl fun _ _ ht => ht.bufError) (.ite h1 (.ite h2 ?_))
  split
  · exact h2.closeRound
  · exact h2

@[simp] theorem execRoundCommit_memOk {tid} : (execRoundCommit tid s).memOk := by
  unfold execRoundCommit
  split
  · exact State.memOk.ite h.commitRound h
  · exact h

theorem State.memOk.restoreCheckpoint {c} : (s.restoreCheckpoint c).memOk :=
  ⟨storeWrites_wf (fun x : Host.Cell => x.1) Prod.snd _ (storeFilter_wf _ h.1),
    storeWrites_wf (fun x : Nat × BitVec 32 => x.1) Prod.snd _ (storeFilter_wf _ h.2)⟩

theorem State.memOk.regiveSets {c} : (s.regiveSets c).memOk := h.set.foldl fun _ _ ht => ht.giveSet

@[simp] theorem execReplay_memOk {tid round sheaf stop} : (execReplay tid round sheaf stop s).memOk := by
  unfold execReplay
  split
  · exact h
  refine State.memOk.post ?_
  extract_lets x
  have hx : x.memOk := h.restoreCheckpoint.regiveSets
  exact hx.set

/-! ### Partitions, functions, collectives, counters and clocks -/

theorem State.memOk.setResident {p fn} : (s.setResident p fn).memOk := h.onPart.onFn

theorem State.memOk.stirFn {fn} : (s.stirFn fn).memOk := by
  unfold State.stirFn
  extract_lets mine t
  have ht : t.memOk := h.foldl fun _ _ hu => hu.queuesGo
  exact ht.post

theorem State.memOk.keepShadow {x} : (s.keepShadow x).memOk := by
  unfold State.keepShadow
  split
  · exact h
  split
  · exact h.onDie
  · exact h.set

theorem State.memOk.swapOut {fn c} : (s.swapOut fn c).memOk := by
  unfold State.swapOut
  split
  · exact h
  extract_lets gs mine s1 s2
  have hs1 : s1.memOk := h.foldl fun _ _ ht => ht.saveGroup
  exact hs1.onCluster.keepShadow

theorem State.memOk.unshadow {gid} : (s.unshadow gid).memOk := by
  unfold State.unshadow
  split
  · exact h
  · exact .ite h.restoreAt h

theorem State.memOk.unshadowAll {gs} : (s.unshadowAll gs).memOk :=
  (h.foldl fun _ _ ht => ht.unshadow).reregister.foldl fun _ _ ht => ht.postAdvance

theorem State.memOk.takeShadow {x} : (s.takeShadow x).memOk := h.onCluster

theorem State.memOk.swapIn {fn c} : (s.swapIn fn c).memOk := by
  unfold State.swapIn
  extract_lets is slot
  split
  · exact h.onDie.takeShadow.unshadowAll
  split
  · exact h.set.takeShadow
  · exact h

theorem State.memOk.swapPartition {p out inn} : (s.swapPartition p out inn).memOk := by
  unfold State.swapPartition
  extract_lets t
  have ht : t.memOk := h.foldl fun _ _ hu => hu.swapOut.swapIn
  exact ht.onFn.setResident.stirFn

theorem State.memOk.takePartition {p inn} : (s.takePartition p inn).memOk :=
  (h.foldl fun _ _ ht => ht.swapIn).setResident.stirFn

@[simp] theorem execTimeSliceEnd_memOk {part} : (execTimeSliceEnd part s).memOk := by
  unfold execTimeSliceEnd
  split
  · exact h
  split
  · split
    · exact h.takePartition
    · exact h
  split
  · exact h
  split
  · exact h.onPart
  · exact State.memOk.ite h h.swapPartition

@[simp] theorem execCoreRelease_memOk {core} : (execCoreRelease core s).memOk := h.set.mapSheaves

theorem State.memOk.powerOn {c} : (s.powerOn c).memOk := h.dropRange.emptyTlb.onCluster

theorem State.memOk.powerOff {c} : (s.powerOff c).memOk := h.emptyTlb.onCluster

@[simp] theorem execPartitionConfigure_memOk {part clusters} : (execPartitionConfigure part clusters s).memOk := by
  unfold execPartitionConfigure
  extract_lets bound old s1 s2
  have h1 : s1.memOk := h.foldl fun _ _ ht => ht.powerOff
  have h2 : s2.memOk := h1.foldl fun _ _ ht => ht.powerOn
  exact State.memOk.ite h (.ite h2.set (.ite h2.onPart h2.set))

@[simp] theorem execVfEnable_memOk {fn policy parts} : (execVfEnable fn policy parts s).memOk := by
  refine (?_ : State.memOk _)
  split
  · exact h
  extract_lets ps s1 s2 s3
  have h2 : s2.memOk := h.onFn.foldl fun _ _ ht => ht.onPart
  have h3 : s3.memOk := h2.set
  exact .ite h (h3.foldl fun _ _ ht => .ite ht.setResident ht)

@[simp] theorem execMonitorUpdate_memOk {image} : (execMonitorUpdate image s).memOk := State.memOk.ite h.set h.set

omit h in
@[simp] theorem execModuleReset_memOk {proenapin monitor fuses policies} :
    (execModuleReset proenapin monitor fuses policies s).memOk :=
  State.memOk.set State.reset_memOk

theorem State.memOk.answer {fn request content signed} : (s.answer fn request content signed).memOk := .ite h h.set

@[simp] theorem execGetVersion_memOk {fn} : (execGetVersion fn s).memOk := h.answer

@[simp] theorem execGetCapabilities_memOk {fn} : (execGetCapabilities fn s).memOk := h.answer

@[simp] theorem execNegotiateAlgorithms_memOk {fn} : (execNegotiateAlgorithms fn s).memOk := h.answer

@[simp] theorem execGetDigests_memOk {fn} : (execGetDigests fn s).memOk := h.answer

@[simp] theorem execGetCertificate_memOk {fn} : (execGetCertificate fn s).memOk := h.answer

@[simp] theorem execChallenge_memOk {fn nonce} : (execChallenge fn nonce s).memOk := h.answer

@[simp] theorem execGetMeasurements_memOk {fn index} : (execGetMeasurements fn index s).memOk := by
  unfold execGetMeasurements
  split <;> exact h.answer

theorem State.memOk.vacate {fn} : (s.vacate fn).memOk := by
  unfold State.vacate
  refine h.foldl fun _ _ ht => ?_
  split
  · exact ht
  extract_lets leave u next
  have hu : u.memOk := ht.onPart.foldl fun _ _ ht => ht.onCluster
  split
  · exact hu.takePartition
  · exact hu

theorem State.memOk.shutFn {fn} : (s.shutFn fn).memOk := by
  unfold State.shutFn
  extract_lets keep clear t f
  have ht : t.memOk := h.foldl fun _ _ hu => hu.onDie
  exact ht.onFn.set.vacate

theorem State.memOk.dropHost : s.dropHost.memOk := by
  unfold State.dropHost
  extract_lets s1 cut
  have h1 : s1.memOk := h.upd
  have hcut : ∀ shut t b, t.memOk → (cut shut t b).memOk := fun _ _ _ ht => ht.retireDone.setBatch
  exact (State.memOk.ite h1 (hcut _ _ _ h1)).foldl (hcut _)

theorem State.memOk.finishReset {fn} : (s.finishReset fn).memOk := .ite h.shutFn h

@[simp] theorem execFunctionLevelReset_memOk {fn} : (execFunctionLevelReset fn s).memOk := by
  unfold execFunctionLevelReset
  extract_lets off s1 s2 mine s3 s4
  have h2 : s2.memOk := h.onFn.foldl fun _ _ ht => ht.endContext
  have h3 : s3.memOk := h2.foldl fun _ _ ht => ht.as fun _ hu => hu.dropHost
  have h4 : s4.memOk := h3.set
  exact State.memOk.ite h h4.abandon.finishReset

theorem State.memOk.removeFn {fn} : (s.removeFn fn).memOk := by
  unfold State.removeFn
  extract_lets ctx task frames t
  have ht : t.memOk := h.foldl fun _ _ hu => hu.clearRange
  exact ht.set

@[simp] theorem execVfMigration_memOk {fn target} : (execVfMigration fn target s).memOk := by
  unfold execVfMigration
  extract_lets gs s1 stubs t
  have h1 : s1.memOk := h.foldl fun _ _ ht => ht.saveGroup
  have ht : t.memOk := h1.removeFn.shutFn
  exact State.memOk.ite h (.ite h1.stirFn ht.set)

@[simp] theorem execForwardingStubExpiry_memOk {page} : (execForwardingStubExpiry page s).memOk := h.set

@[simp] theorem execCqcfgWrite_memOk {fn val} : (execCqcfgWrite fn val s).memOk := h.onFn

theorem State.memOk.joinCollective {d table m} : (s.joinCollective d table m).memOk := by
  unfold State.joinCollective
  extract_lets is t
  have ht : t.memOk := .ite h.set h.set
  exact ht.post

theorem State.memOk.takeDesc {fn} : SomeMemOk id (s.takeDesc fn) := by
  unfold State.takeDesc
  split
  · trivial
  extract_lets k tag a rd adv d m bad fails table gives data
  have hadv : adv.memOk := h.onFn
  have hbad : bad.memOk := hadv.igPut
  have hfails : ∀ e, SomeMemOk id (fails e) := by
    intro e
    unfold fails
    split
    · trivial
    · trivial
    · exact hbad.containError
    · exact hbad
  split
  · trivial
  split
  · exact .ite hadv.joinCollective hbad
  · exact hfails _
  · exact hfails _
  · exact hfails _

theorem State.memOk.takeDescs {fn n} : (s.takeDescs fn n).memOk := by
  induction n generalizing s with
  | zero => exact h
  | succ n ih =>
    unfold State.takeDescs
    split
    · next t e => exact ih (h.takeDesc.of_some e)
    · exact h

theorem State.memOk.cqNotify {fn val} : (s.cqNotify fn val).memOk := by
  unfold State.cqNotify
  split
  · exact h
  split
  · exact h
  split
  · exact h
  · exact h.onFn.takeDescs

@[simp] theorem execCqnotifyWrite_memOk {fn val} : (execCqnotifyWrite fn val s).memOk :=
  State.memOk.ite h.latchWrite h.cqNotify

theorem State.memOk.deliverColl {c res m} : (s.deliverColl c res m).memOk := h.igPut

theorem State.memOk.finishColl {kind cid} : (s.finishColl kind cid).memOk := by
  unfold State.finishColl
  split
  · exact h
  extract_lets res t
  have ht : t.memOk := h.foldl fun _ _ hu => hu.deliverColl
  exact ht.set.tick

@[simp] theorem execAllReduce_memOk {cid} : (execAllReduce cid s).memOk := h.finishColl

@[simp] theorem execAllGather_memOk {cid} : (execAllGather cid s).memOk := h.finishColl

@[simp] theorem execBroadcast_memOk {cid} : (execBroadcast cid s).memOk := h.finishColl

@[simp] theorem execCollectiveTimeout_memOk {cid participant} : (execCollectiveTimeout cid participant s).memOk :=
  h.abandon

@[simp] theorem execModuleIdAssign_memOk {id routes} : (execModuleIdAssign id routes s).memOk :=
  State.memOk.ite h h.set

@[simp] theorem execLinkFailure_memOk {port target} : (execLinkFailure port target s).memOk :=
  State.memOk.ite h.set h.set.post

@[simp] theorem execPcvalWrite_memOk {fn n val} : (execPcvalWrite fn n val s).memOk := by
  unfold execPcvalWrite
  extract_lets cs low set s1 one s2
  have h1 : s1.memOk := h.foldl fun _ _ ht => ht.onCluster
  have h2 : s2.memOk := h1.set
  exact State.memOk.ite h2 h2.set

@[simp] theorem execStallSample_memOk {core} : (execStallSample core s).memOk := by
  refine (?_ : State.memOk _)
  split
  · exact h
  split
  · exact h
  extract_lets hs last
  split
  · exact h
  extract_lets t
  have ht : t.memOk := h.set
  exact .ite h (.ite ht.putVA.onFn ht.onFn)

@[simp] theorem execTraceArm_memOk {fn} : (execTraceArm fn s).memOk := h.onFn

@[simp] theorem execTraceStart_memOk {fn} : (execTraceStart fn s).memOk := State.memOk.ite h.beginTrace h

@[simp] theorem execTraceStop_memOk {fn} : (execTraceStop fn s).memOk := State.memOk.ite h.endTrace h

theorem State.memOk.setClock {die f} : (s.setClock die f).memOk := h.onDie

@[simp] theorem execSupplySag_memOk {die} : (execSupplySag die s).memOk := h.setClock

@[simp] theorem execClockRestore_memOk {die} : (execClockRestore die s).memOk := h.setClock

@[simp] theorem execAgeingCheck_memOk {die margin} : (execAgeingCheck die margin s).memOk := h.onDie

theorem State.memOk.noteIdle : s.noteIdle.memOk := .ite h h.set

@[simp] theorem execClusterClockGate_memOk {cluster} : (execClusterClockGate cluster s).memOk :=
  State.memOk.ite h h.onCluster

@[simp] theorem execD3hotEntry_memOk : (execD3hotEntry s).memOk := State.memOk.ite h.set h

@[simp] theorem execD3hotExit_memOk : (execD3hotExit s).memOk := h.set

@[simp] theorem execApertureGate_memOk {fn} : (execApertureGate fn s).memOk := h.onFn

theorem State.memOk.applyLatched {e} : (s.applyLatched e).memOk := by
  unfold State.applyLatched
  split
  · exact h.lqNotify
  · exact h.cqNotify
  · exact h

@[simp] theorem execApertureWake_memOk {fn} : (execApertureWake fn s).memOk :=
  h.set.onFn.foldl fun _ _ ht => ht.applyLatched

end

end Sys2Proof.Machine
end

section
/-!
PROOFS. Canonical memory: after reset, and every step keeps it (R62, R85).
-/

namespace Sys2Proof.Machine

open Sys2Proof

section
variable {s : State} (h : s.memOk)
include h

/-! ### Every word -/

/-- Words that share an operation keep the forms by its lemma; every other instruction has a lemma of its own, which `simp` finds. -/
theorem exec_memOk {i} : Out.memOk (exec i s) := by
  cases i with dsimp only [exec]
  | iadd | isub | imul | imulhi | imad | imin | imax | iabsd | nmin | nmax | nmulhi | iadds | and | or | xor | andn
  | shl | shr | sar | rotl | bfx | bfi | sel | idp4 | ndp4 | fcps | pk2 | radd | rsub | rscl | readd =>
    exact h.issue fun _ ht => ht.vec
  | iaddi | imuli | andi | ori | shli | shri | sari | xori | popc | clz | brev | fabs | fneg | fcls | hi16 | rfrom
  | rfix | refrom | refix => exact h.issue fun _ ht => ht.vec1
  | kand | kor | kxor | kandn | knot | kmov | kset | kclr | emset | emand | emget | vote | ktos | stok | kpop | emtos
  | stoem | vtos | dneg | xferq => exact h.issue fun _ ht => ht.regs
  | vli | vlih | stov | matchv | mrank => exact h.issue fun _ ht => ht.vecLanes
  | sadd | ssub | smul | smulhi | sand | sor | sxor | sshl | sshr | ssar | smin | smax | sminn | smaxn | seq | sne
  | slt | sltn | sle | slen | smov | ssel | sli | slis | saddi | sshli | sshri | ssari | sandi =>
    exact h.issue fun _ ht => ht.scalar
  | srd => exact h.issueWait fun _ ht => ht.afterLoops fun _ ht => ht.regs
  | swr => exact h.issueWait fun _ ht => ht.afterLoops fun _ ht => ht.upd
  | bra => exact h.issue fun _ ht => ht.goto fun _ ht => ht
  | bnz | bz | bany | ball | bnone | bemz => exact h.issue fun _ ht => ht.branchIf
  | nop => exact h.issue fun _ ht => ht
  | yield | mode | mzero => exact h.issue fun _ ht => ht.upd
  | exit => exact h.issue fun _ ht => ht.exit
  | sleep | waitb | mwait | qend => exact h.issueWait fun _ ht => ht.waitFor fun _ ht => ht
  | trap | bkpt => exact h.issue fun _ ht => ht.pendTrap
  | fadd | fsub | fmul | fma | fms | fmin | fmax | frnd | rcp | rsq | sqrt | exp2 | log2 | sin | cos | tanh =>
    exact h.issue fun _ ht => ht.fp32
  | dadd | dsub | dmul | dfma | dmin | dmax | drnd => exact h.issue fun _ ht => ht.fp64
  | hadd2 | hmul2 | hfma2 | hmax2 | badd2 | bmul2 | bfma2 | bmax2 => exact h.issue fun _ ht => ht.packed
  | icmp | ncmp => exact h.issue fun _ ht => ht.compareInt
  | fcmp | dcmp => exact h.issue fun _ ht => ht.compareFp
  | cvt | cvtx => exact h.issue fun _ ht => ht.convert
  | cpyb => exact h.issue fun _ ht => ht.closeBatch
  | ldk | lds | ldsDesc | ldc | ldg | ldgDesc | ldn | ldh => exact h.issueWait fun _ ht => ht.load
  | stk | sts | stsDesc | stc | stg | stgDesc | stn | sth => exact h.issueWait fun _ ht => ht.store
  | ats | atc | atg | atn | ath => exact h.issueWait fun _ ht => ht.atomic
  | fencesc => exact h.issueWait fun _ ht => ht.waitFor fun _ ht => ht.allAccepted
  | shfl | shflx | shflr | bcst => exact h.issue fun _ ht => ht.shuffleKeep
  | shflf | shflxf | shflrf | bcstf => exact h.issue fun _ ht => ht.shuffleFall
  | redlog | scanlog => exact h.issue fun _ ht => ht.foldLanes
  | _ => simp [h]

/-! ### The issue of a group -/

theorem State.memOk.load1 {l rest} : (s.load1 l rest).memOk := h.upd

theorem State.memOk.finish {repeating} : (s.finish repeating).memOk := h.upd

theorem State.memOk.countGroup {acts em} : (s.countGroup acts em).memOk := h.countMine.countMine.countMine

theorem State.memOk.finishWaited {repeating} : (s.finishWaited repeating).memOk := h.upd

theorem runActs_memOk {b : State} {repeating acts o} (hb : b.memOk) (e : runActs b repeating acts s = some o) : o.memOk := by
  induction acts generalizing s with
  | nil =>
    cases e
    exact h.finish
  | cons x r ih =>
    have first : Out.memOk (exec x.2 (s.load1 x.1 r)) := exec_memOk h.load1
    have alone : Out.memOk (exec x.2 (b.load1 x.1 [])) := exec_memOk hb.load1
    unfold runActs at e
    split at e
    · next t run =>
      rw [run] at first
      split at e
      · split at e
        · next u again =>
          rw [again] at alone
          cases e
          exact State.memOk.finish alone
        · cases e
          exact alone
      split at e
      · split at e
        · cases e
        · cases e
          exact first
      · exact ih first e
    · cases e
      exact first

theorem runRest_memOk {repeating acts} : (runRest repeating acts s).memOk := by
  induction acts generalizing s with
  | nil => exact h.finishWaited
  | cons x r ih =>
    have first : Out.memOk (exec x.2 (s.load1 x.1 r)) := exec_memOk h.load1
    unfold runRest
    split
    · next t run =>
      rw [run] at first
      have ht : t.memOk := first
      split
      · exact ht.finishWaited
      split
      · exact ht
      · exact ih ht
    · exact first

theorem State.goOn_memOk : s.goOn.memOk := by
  unfold State.goOn
  extract_lets rp
  split
  · exact h.finishWaited
  split
  · exact h
  split
  · exact runRest_memOk h
  · exact h

theorem State.lookAgain_memOk {w o} (e : s.lookAgain w = some o) : o.memOk := by
  have looked : Out.memOk (exec w.instr (s.upd fun h => { h with look := false })) := exec_memOk h.upd
  unfold State.lookAgain at e
  split at e
  · next t run =>
    rw [run] at looked
    split at e
    · cases e
    · cases e
      exact State.goOn_memOk looked
  · cases e
    exact looked

theorem State.memOk.lookOnce : s.lookOnce.memOk := by
  unfold State.lookOnce
  extract_lets s0
  have h0 : s0.memOk := h.upd
  split
  · exact h0
  · next w _ =>
    have looked : Out.memOk (exec w.instr s0) := exec_memOk h0
    split
    · next t run =>
      rw [run] at looked
      have ht : t.memOk := looked
      exact .ite ht.finishWaited ht
    · exact h0

theorem State.memOk.haltAtStop : s.haltAtStop.memOk := h.set

theorem State.issueGroup_memOk {o} (e : s.issueGroup = some o) : o.memOk := by
  unfold State.issueGroup at e
  split at e
  · cases e
    trivial
  · cases e
  · cases e
    exact State.memOk.ite h.codeBlocked.finish h.codeBlocked
  · cases e
    exact h.trapGroup.finish
  · split at e
    · cases e
    extract_lets b acts at e
    have hb : b.memOk := h.correct.traceIssue.upd
    split at e
    · next t run =>
      have ht : t.memOk := runActs_memOk hb hb run
      cases e
      exact State.memOk.traceStopAt (.ite ht.countGroup ht)
    · exact runActs_memOk hb hb e

theorem State.tryIssue_memOk {o} (e : s.tryIssue = some o) : o.memOk := by
  unfold State.tryIssue at e
  split at e
  · cases e
  split at e
  · exact State.lookAgain_memOk h e
  split at e
  · cases e
    exact State.goOn_memOk h
  split at e
  · cases e
    exact h.deliverPend
  split at e
  · cases e
    exact h.haltAtStop
  · exact State.issueGroup_memOk h e

/-! ### Steps of other agents -/

/-- A step of another agent runs an instruction of its name, whose lemma `simp` finds. -/
theorem runEvent_memOk {e} : (runEvent e s).memOk := by
  cases e with dsimp only [runEvent]
  | _ => simp [h]

/-! ### After each step -/

theorem State.memOk.pass {who} : (s.pass who).memOk := h.set

theorem State.memOk.seat {order h' issued} : (s.seat order h' issued).memOk := h.set

theorem State.memOk.choose {issued} : (s.choose issued).memOk := by
  unfold State.choose
  extract_lets order
  split
  · exact h
  · exact h.seat
  split
  · exact h.seat
  · exact h.mapSheaves

theorem State.memOk.lookAtContexts : s.lookAtContexts.memOk := by
  unfold State.lookAtContexts
  extract_lets s1 retire s2 s3
  have h1 : s1.memOk := h.set
  have h2 : s2.memOk := h1.foldl fun _ _ ht => .ite ht ht.retire
  have h3 : s3.memOk := h2.foldl fun _ _ ht => ht.releaseContext
  exact .ite h3 (h3.foldl fun _ _ ht => ht.finishReset)

theorem State.memOk.lookAll : s.lookAll.memOk := h.foldl fun _ _ ht => ht.as fun _ ht => ht.lookOnce

theorem State.memOk.countStalls : s.countStalls.memOk := .ite h (h.foldl fun _ _ ht => ht.count)

theorem State.memOk.countSags : s.countSags.memOk := by
  unfold State.countSags
  split
  · exact h
  refine h.foldl fun _ _ ht => ?_
  split
  · exact ht.foldl fun _ _ ht => ht.count
  · exact ht

theorem State.memOk.completeInvalids : s.completeInvalids.memOk := h.set

theorem State.memOk.after {who} : (s.after who).memOk := by
  unfold State.after
  extract_lets r t u v
  have hr : r.memOk := h.closeTraces.pass.lookAll.replayLoads
  have ht : t.memOk := hr.countStalls.countSags.lookAtContexts.completeInvalids.noteIdle
  have hv : v.memOk := .ite ht.post.post ht.post
  exact hv.choose

/-! ### The step -/

omit h in
theorem settled_memOk {who o} (ho : Out.memOk o) : Out.memOk (settled who o) := by
  cases o with
  | next t => exact State.memOk.after ho
  | fault f => trivial
  | refused r => trivial

theorem step_memOk : Out.memOk (step s) := by
  unfold step
  split
  · exact settled_memOk (runEvent_memOk h.set)
  split
  · next o e => exact settled_memOk (State.tryIssue_memOk h e)
  split
  · exact settled_memOk (runEvent_memOk h)
  · exact h.after

end

/-! ### The statements -/

/-- Settles O56: the reset state holds no byte and no line that differs from what an unlisted one reads as. -/
theorem resetMemoryIsCanonical : Obligations.ResetMemoryIsCanonical := by
  unfold Obligations.ResetMemoryIsCanonical
  exact ⟨State.reset_memOk, fun _ => rfl⟩

/-- Settles O57: whatever a step runs keeps the forms (`exec_memOk`, `runEvent_memOk`), and so does what comes after each
step (`State.memOk.after`). -/
theorem stepsKeepMemoryCanonical : Obligations.StepsKeepMemoryCanonical := by
  unfold Obligations.StepsKeepMemoryCanonical
  intro s t hs e
  have stepped : Out.memOk (step s) := step_memOk hs
  rw [e] at stepped
  exact stepped

end Sys2Proof.Machine
end

section
/-!
PROOFS. Residue words: the integer that channels stand for, its range and its residues (R106-R110).
-/

namespace Sys2Proof.Machine

open Sys2Proof Sys2Proof.Rules

/-! ### What channels stand for (R110) -/

section
variable {m h : Int}

/-- The integer that channels stand for before its sign is taken, from 0 up to the product of the moduli m - 1, m and m + 1 (R110). -/
def residueSum (m h : Int) (c : Nat × Nat × Nat) : Int :=
  c.2.1 + m * ((c.1 - c.2.1) % (m - 1) + (m - 1) * ((((c.1 - c.2.1) % (m - 1) - (c.2.1 - c.2.2) % (m + 1)) * h) % (m + 1)))

theorem residueValue_eq (m h : Int) (c : Nat × Nat × Nat) : residueValue (m - 1) m (m + 1) h c =
    if (m - 1) * m * (m + 1) ≤ 2 * residueSum m h c then residueSum m h c - (m - 1) * m * (m + 1) else residueSum m h c := rfl

/-- Its residues are the channels: m is 1 modulo m - 1 and -1 modulo m + 1, where h is the half of 1. -/
theorem residueSum_channels (half : 2 * h = m + 2) (c : Nat × Nat × Nat) : residueSum m h c ≡ c.1 [ZMOD m - 1] ∧
    residueSum m h c ≡ c.2.1 [ZMOD m] ∧ residueSum m h c ≡ c.2.2 [ZMOD m + 1] := by
  obtain ⟨c1, c2, c3⟩ := c
  simp only [residueSum]
  obtain ⟨p, hp⟩ := Int.dvd_self_sub_emod (x := (c1 - c2 : Int)) (m := m - 1)
  obtain ⟨q, hq⟩ := Int.dvd_self_sub_emod (x := (c2 - c3 : Int)) (m := m + 1)
  generalize (c1 - c2 : Int) % (m - 1) = a1 at hp ⊢
  generalize (c2 - c3 : Int) % (m + 1) = a3 at hq ⊢
  obtain ⟨r, hr⟩ := Int.dvd_self_sub_emod (x := (a1 - a3) * h) (m := m + 1)
  generalize (a1 - a3) * h % (m + 1) = b at hr ⊢
  refine ⟨Int.modEq_iff_dvd.2 ⟨p - a1 - m * b, ?_⟩, Int.modEq_iff_dvd.2 ⟨-(a1 + (m - 1) * b), ?_⟩,
    Int.modEq_iff_dvd.2 ⟨2 * r - q - 2 * a1 + a3 - (m - 2) * b, ?_⟩⟩
  · linear_combination hp
  · ring
  · linear_combination 2 * hr - hq - (a1 - a3) * half

theorem residueSum_range (hm : 2 ≤ m) {c : Nat × Nat × Nat} (hc : (c.2.1 : Int) < m) :
    0 ≤ residueSum m h c ∧ residueSum m h c < (m - 1) * m * (m + 1) := by
  obtain ⟨c1, c2, c3⟩ := c
  simp only [residueSum] at hc ⊢
  have a0 := Int.emod_nonneg (c1 - c2 : Int) (b := m - 1) (by omega)
  have a1 := Int.emod_lt_of_pos (c1 - c2 : Int) (b := m - 1) (by omega)
  generalize (c1 - c2 : Int) % (m - 1) = a at a0 a1 ⊢
  generalize (a - (c2 - c3 : Int) % (m + 1)) * h = x
  have b0 := Int.emod_nonneg x (b := m + 1) (by omega)
  have b1 := Int.emod_lt_of_pos x (b := m + 1) (by omega)
  generalize x % (m + 1) = b at b0 b1 ⊢
  have inner : a + (m - 1) * b + 1 ≤ (m - 1) * (m + 1) := by nlinarith
  constructor
  · have : 0 ≤ (m - 1) * b := Int.mul_nonneg (by omega) b0
    positivity
  · nlinarith

/-- The signed integer has the residues of its channels, and lies in the signed range (R110). -/
theorem residueValue_channels (half : 2 * h = m + 2) (c : Nat × Nat × Nat) :
    residueValue (m - 1) m (m + 1) h c ≡ c.1 [ZMOD m - 1] ∧ residueValue (m - 1) m (m + 1) h c ≡ c.2.1 [ZMOD m] ∧
      residueValue (m - 1) m (m + 1) h c ≡ c.2.2 [ZMOD m + 1] := by
  obtain ⟨h1, h2, h3⟩ := residueSum_channels half c
  have same : residueValue (m - 1) m (m + 1) h c ≡ residueSum m h c [ZMOD (m - 1) * m * (m + 1)] := by
    rw [residueValue_eq]
    split
    · rw [Int.sub_modulus_modEq_iff]
    · rfl
  exact ⟨(same.of_dvd (by rw [mul_assoc]; exact dvd_mul_right _ _)).trans h1,
    (same.of_dvd (Dvd.intro_left (m - 1) rfl |>.mul_right _)).trans h2, (same.of_dvd (dvd_mul_left _ _)).trans h3⟩

theorem residueValue_range (hm : 2 ≤ m) {c : Nat × Nat × Nat} (hc : (c.2.1 : Int) < m) :
    -((m - 1) * m * (m + 1)) ≤ 2 * residueValue (m - 1) m (m + 1) h c ∧
      2 * residueValue (m - 1) m (m + 1) h c < (m - 1) * m * (m + 1) := by
  obtain ⟨lo, hi⟩ := residueSum_range (h := h) hm hc
  rw [residueValue_eq]
  generalize (m - 1) * m * (m + 1) = M at lo hi ⊢
  split <;> omega

/-- Integers with the same residues agree modulo the product: the moduli are coprime (R108). -/
theorem modEq_product (half : 2 * h = m + 2) {x y : Int} (h1 : x ≡ y [ZMOD m - 1]) (h2 : x ≡ y [ZMOD m]) (h3 : x ≡ y [ZMOD m + 1]) :
    x ≡ y [ZMOD (m - 1) * m * (m + 1)] := by
  have c12 : IsCoprime (m - 1) m := ⟨-1, 1, by ring⟩
  have c13 : IsCoprime (m - 1) (m + 1) := ⟨-h, h - 1, by linear_combination half⟩
  have c23 : IsCoprime m (m + 1) := ⟨-1, 1, by ring⟩
  rw [Int.modEq_iff_dvd] at h1 h2 h3 ⊢
  exact (c13.mul_left c23).mul_dvd (c12.mul_dvd h1 h2) h3

/-- An integer of the signed range is the one that its own residues stand for (R109, R110). -/
theorem residueValue_unique (half : 2 * h = m + 2) (hm : 2 ≤ m) {c : Nat × Nat × Nat} (hc : (c.2.1 : Int) < m) {x : Int}
    (lo : -((m - 1) * m * (m + 1)) ≤ 2 * x) (hi : 2 * x < (m - 1) * m * (m + 1)) (h1 : x ≡ c.1 [ZMOD m - 1])
    (h2 : x ≡ c.2.1 [ZMOD m]) (h3 : x ≡ c.2.2 [ZMOD m + 1]) : residueValue (m - 1) m (m + 1) h c = x := by
  obtain ⟨v1, v2, v3⟩ := residueValue_channels half c
  obtain ⟨vlo, vhi⟩ := residueValue_range (h := h) hm hc
  have same := modEq_product half (v1.trans h1.symm) (v2.trans h2.symm) (v3.trans h3.symm)
  have near : |x - residueValue (m - 1) m (m + 1) h c| < (m - 1) * m * (m + 1) := by rw [abs_lt]; omega
  have := Int.eq_zero_of_abs_lt_dvd same.dvd near
  omega

end

/-! ### ra32 and re16 words (R106-R108) -/

theorem raChannels_raPack {a b c : Nat} (ha : a < 1023) (hb : b < 1024) (hc : c < 1025) : raChannels (raPack a b c) = (a, b, c) := by
  simp only [raChannels, raPack, Prod.mk.injEq]
  omega

theorem reChannels_rePack {a b c : Nat} (ha : a < 31) (hb : b < 32) (hc : c < 33) : reChannels (rePack a b c) = (a, b, c) := by
  simp only [reChannels, rePack, Prod.mk.injEq]
  omega

theorem toNat_emod_modEq (x : Int) {k : Int} (hk : 0 < k) : x ≡ ((x % k).toNat : Int) [ZMOD k] := by
  rw [Int.toNat_of_nonneg (Int.emod_nonneg x hk.ne')]
  exact (Int.mod_modEq x k).symm

theorem raValue_raEncode {x : Int} (lo : -536870400 ≤ x) (hi : x ≤ 536870399) : raValue (raEncode x) = x := by
  rw [raValue, raEncode, raChannels_raPack (by omega) (by omega) (by omega)]
  exact residueValue_unique (m := 1024) (h := 513) rfl (by decide) (by dsimp only; omega) (by omega) (by omega)
    (toNat_emod_modEq x (by decide)) (toNat_emod_modEq x (by decide)) (toNat_emod_modEq x (by decide))

theorem reValue_reEncode {x : Int} (lo : -16368 ≤ x) (hi : x ≤ 16367) : reValue (reEncode x) = x := by
  rw [reValue, reEncode, reChannels_rePack (by omega) (by omega) (by omega)]
  exact residueValue_unique (m := 32) (h := 17) rfl (by decide) (by dsimp only; omega) (by omega) (by omega)
    (toNat_emod_modEq x (by decide)) (toNat_emod_modEq x (by decide)) (toNat_emod_modEq x (by decide))

/-- Reading a word of given channels gives them reduced. -/
theorem raCh_raOf (c : Nat → Int) : (raCh (raOf c) 0 : Int) = c 0 % 1023 ∧ (raCh (raOf c) 1 : Int) = c 1 % 1024 ∧
    (raCh (raOf c) 2 : Int) = c 2 % 1025 := by
  simp only [raCh, raOf, BitVec.toNat_ofInt]
  omega

/-- A word's value has its channels for residues. -/
theorem raValue_raCh (x : Word) (j : Nat) : raValue x.toNat ≡ raCh x j [ZMOD raMod j] := by
  obtain ⟨h1, h2, h3⟩ := residueValue_channels (m := 1024) (h := 513) rfl (raChannels x.toNat)
  match j with
  | 0 => exact h1
  | 1 => exact h2
  | _ + 2 => exact h3

/-- A word whose channels have the residues of an integer stands for it modulo the product of the moduli. -/
theorem raValue_raOf {c : Nat → Int} {z : Int} (h : ∀ j, c j ≡ z [ZMOD raMod j]) :
    (raValue (raOf c).toNat - z) % 1073740800 = 0 := by
  obtain ⟨c0, c1, c2⟩ := raCh_raOf c
  have r0 := raValue_raCh (raOf c) 0
  have r1 := raValue_raCh (raOf c) 1
  have r2 := raValue_raCh (raOf c) 2
  rw [c0] at r0
  rw [c1] at r1
  rw [c2] at r2
  exact Int.emod_eq_emod_iff_emod_sub_eq_zero.1 (modEq_product (m := 1024) (h := 513) rfl
    ((r0.trans (Int.mod_modEq _ _)).trans (h 0)) ((r1.trans (Int.mod_modEq _ _)).trans (h 1))
    ((r2.trans (Int.mod_modEq _ _)).trans (h 2)))

/-- Settles O2: a word's channels are the residues of its value, and residues determine an integer of the signed range. -/
theorem residueWordsStandForIntegersModuloM : Obligations.ResidueWordsStandForIntegersModuloM := by
  unfold Obligations.ResidueWordsStandForIntegersModuloM
  refine ⟨fun _ => raValue_raEncode, fun _ => reValue_reEncode, fun x y => raValue_raOf fun j => ?_,
    fun x y => raValue_raOf fun j => ?_, fun x y => raValue_raOf fun j => ?_⟩
  · exact (raValue_raCh x j).symm.add (raValue_raCh y j).symm
  · exact (raValue_raCh x j).symm.sub (raValue_raCh y j).symm
  · exact (raValue_raCh x j).symm.mul (Int.mod_modEq _ _)

end Sys2Proof.Machine
end

section
/-!
PROOFS. What encodings stand for: the value of a magnitude, its order, and the grid of a format's values (R91, R264, R272).
-/

namespace Sys2Proof.Machine

open Sys2Proof Sys2Proof.Rules

/-- A power of two with an exponent from 0 up is a whole number. -/
theorem two_zpow_toNat {k : Int} (h : 0 ≤ k) : ((2 ^ k.toNat : Nat) : ℚ) = (2 : ℚ) ^ k := by
  rw [Nat.cast_pow, Nat.cast_ofNat, ← zpow_natCast, Int.toNat_of_nonneg h]

/-! ### The value of a magnitude (R91) -/

/-- The value of an encoding without its sign. -/
def Fmt.magVal (f : Fmt) (x : Nat) : ℚ :=
  if x / 2 ^ f.frac = 0 then ((x % 2 ^ f.frac : Nat) : ℚ) * 2 ^ (1 - f.bias - f.frac : Int)
  else ((2 ^ f.frac + x % 2 ^ f.frac : Nat) : ℚ) * 2 ^ ((x / 2 ^ f.frac : Nat) - f.bias - f.frac : Int)

theorem Fmt.mag_mod (f : Fmt) (x : Nat) : f.mag x % 2 ^ f.frac = x % 2 ^ f.frac :=
  Nat.mod_mod_of_dvd x (pow_dvd_pow 2 (Nat.le_add_right _ _))

theorem val_eq_magVal (f : Fmt) (x : Nat) : val f x = (if f.neg x then -1 else 1) * f.magVal (f.mag x) := by
  simp only [val, Fmt.value, Fmt.magVal, f.mag_mod]
  generalize x % 2 ^ f.frac = r
  generalize f.mag x / 2 ^ f.frac = d
  by_cases sub : d = 0
  · simp only [sub, if_true]
    cases f.neg x <;> simp
  · simp only [sub, if_false]
    cases f.neg x
    · simp
    · push_cast
      simp only [if_true]
      ring

/-- A significand n at the quantum of the exponent field b + 1 stands for n quanta, whether it is subnormal (b = 0), normal, or has just
reached the next power of two. -/
theorem Fmt.magVal_code (f : Fmt) {n b : Nat} (hn : n ≤ 2 * 2 ^ f.frac) (hb : b = 0 ∨ 2 ^ f.frac ≤ n) :
    f.magVal (n + b * 2 ^ f.frac) = n * 2 ^ (b + 1 - f.bias - f.frac : Int) := by
  have pos : 0 < 2 ^ f.frac := by positivity
  rw [Fmt.magVal, Nat.add_mul_div_right _ _ pos, Nat.add_mul_mod_self_right]
  by_cases sub : n < 2 ^ f.frac
  · obtain rfl : b = 0 := by omega
    rw [Nat.div_eq_of_lt sub, Nat.mod_eq_of_lt sub]
    simp
  · by_cases top : n = 2 * 2 ^ f.frac
    · rw [top, Nat.mul_div_cancel _ pos, Nat.mul_mod_left, if_neg (by omega)]
      have next : ((2 + b : Nat) - f.bias - f.frac : Int) = (b + 1 - f.bias - f.frac) + 1 := by push_cast; ring
      rw [next, zpow_add_one₀ two_ne_zero]
      push_cast
      ring
    · have div : n / 2 ^ f.frac = 1 := Nat.div_eq_of_lt_le (by omega) (by omega)
      have mod : 2 ^ f.frac + n % 2 ^ f.frac = n := by
        have := Nat.div_add_mod n (2 ^ f.frac)
        rwa [div, mul_one] at this
      rw [div, mod, if_neg (by omega)]
      push_cast
      ring_nf

/-- Every magnitude is such a significand at such a quantum. -/
theorem Fmt.exists_code (f : Fmt) (x : Nat) : ∃ n b, x = n + b * 2 ^ f.frac ∧ n < 2 * 2 ^ f.frac ∧ (b = 0 ∨ 2 ^ f.frac ≤ n) := by
  have pos : 0 < 2 ^ f.frac := by positivity
  have lt := Nat.mod_lt x pos
  have split := Nat.div_add_mod' x (2 ^ f.frac)
  cases e : x / 2 ^ f.frac with
  | zero =>
    rw [e] at split
    exact ⟨x, 0, by omega, by omega, .inl rfl⟩
  | succ b =>
    rw [e, Nat.succ_mul] at split
    exact ⟨x % 2 ^ f.frac + 2 ^ f.frac, b, by omega, by omega, .inr (by omega)⟩

/-! ### The order of values (R264, R272) -/

theorem Fmt.magVal_strictMono (f : Fmt) : StrictMono f.magVal := by
  refine strictMono_nat_of_lt_succ fun x => ?_
  obtain ⟨n, b, rfl, hn, hb⟩ := f.exists_code x
  rw [Nat.add_right_comm, f.magVal_code hn.le hb, f.magVal_code hn (hb.imp_right fun h => by omega)]
  have : (0 : ℚ) < 2 ^ (b + 1 - f.bias - f.frac : Int) := by positivity
  push_cast
  nlinarith

theorem Fmt.magVal_zero (f : Fmt) : f.magVal 0 = 0 := by
  simp [Fmt.magVal]

/-- The value of a key that orders encodings as R272 does. -/
def Fmt.keyVal (f : Fmt) (k : Int) : ℚ := k.sign * f.magVal k.natAbs

theorem Fmt.keyVal_strictMono (f : Fmt) : StrictMono f.keyVal := by
  refine strictMono_of_odd_strictMonoOn_nonneg (fun k => by simp [Fmt.keyVal]) fun j (hj : 0 ≤ j) k (hk : 0 ≤ k) h => ?_
  have nonneg {i : Int} (hi : 0 ≤ i) : f.keyVal i = f.magVal i.natAbs := by
    obtain rfl | pos := hi.eq_or_lt
    · simp [Fmt.keyVal, f.magVal_zero]
    · simp [Fmt.keyVal, Int.sign_eq_one_of_pos pos]
  rw [nonneg hj, nonneg hk]
  exact f.magVal_strictMono (by omega)

theorem val_eq_keyVal (f : Fmt) (x : Nat) : val f x = f.keyVal (f.valKey x) := by
  rw [val_eq_magVal, Fmt.keyVal, Fmt.valKey]
  obtain zero | pos := (f.mag x).eq_zero_or_pos
  · simp [zero, f.magVal_zero]
  · have sign : ((f.mag x : Int).sign : ℚ) = 1 := by rw [Int.sign_eq_one_of_pos (by exact_mod_cast pos), Int.cast_one]
    cases f.neg x <;> simp [sign]

theorem val_lt_iff (f : Fmt) (x y : Nat) : val f x < val f y ↔ f.valKey x < f.valKey y := by
  rw [val_eq_keyVal, val_eq_keyVal, f.keyVal_strictMono.lt_iff_lt]

theorem val_le_iff (f : Fmt) (x y : Nat) : val f x ≤ val f y ↔ f.valKey x ≤ f.valKey y := by
  rw [val_eq_keyVal, val_eq_keyVal, f.keyVal_strictMono.le_iff_le]

theorem val_eq_iff (f : Fmt) (x y : Nat) : val f x = val f y ↔ f.valKey x = f.valKey y := by
  rw [val_eq_keyVal, val_eq_keyVal, f.keyVal_strictMono.injective.eq_iff]

/-! ### The grid of a format's values -/

/-- The exponent of the least quantum of a format. -/
def Fmt.minExp (f : Fmt) : Int := 1 - f.bias - f.frac

/-- At any quantum, a value is a whole number of quanta, or, above the least quantum, less than a normal
significand of them. -/
theorem val_grid (f : Fmt) (x : Nat) (q : Int) :
    (∃ j : Int, val f x = j * 2 ^ q) ∨ (f.minExp < q ∧ |val f x| < 2 ^ f.frac * 2 ^ q) := by
  obtain ⟨n, b, hx, hn, hb⟩ := f.exists_code (f.mag x)
  have value : val f x = (if f.neg x then -1 else 1) * (n * 2 ^ (b + 1 - f.bias - f.frac : Int)) := by
    rw [val_eq_magVal, hx, f.magVal_code hn.le hb]
  by_cases fine : q ≤ b + 1 - f.bias - f.frac
  · left
    have whole : (2 : ℚ) ^ (b + 1 - f.bias - f.frac : Int) = ((2 ^ (b + 1 - f.bias - f.frac - q : Int).toNat : Nat) : ℚ) * 2 ^ q := by
      rw [two_zpow_toNat (by omega), ← zpow_add₀ two_ne_zero]
      congr 1
      ring
    refine ⟨(if f.neg x then -1 else 1) * (n * (2 ^ (b + 1 - f.bias - f.frac - q : Int).toNat : Nat)), ?_⟩
    rw [value, whole]
    cases f.neg x <;> push_cast <;> ring
  · right
    have half : (2 : ℚ) ^ (b + 1 - f.bias - f.frac : Int) ≤ 2 ^ (q - 1) := zpow_le_zpow_right₀ one_le_two (by omega)
    have sig : (n : ℚ) < 2 * 2 ^ f.frac := by exact_mod_cast hn
    have pos : (0 : ℚ) < 2 ^ (q - 1) := by positivity
    have size : |val f x| = n * 2 ^ (b + 1 - f.bias - f.frac : Int) := by
      rw [value, abs_mul, abs_of_nonneg (a := (n : ℚ) * _) (by positivity)]
      cases f.neg x <;> simp
    refine ⟨by rw [Fmt.minExp]; omega, ?_⟩
    calc |val f x| = n * 2 ^ (b + 1 - f.bias - f.frac : Int) := size
      _ ≤ n * 2 ^ (q - 1) := by gcongr
      _ < 2 * 2 ^ f.frac * 2 ^ (q - 1) := by gcongr
      _ = 2 ^ f.frac * 2 ^ q := by rw [zpow_sub_one₀ two_ne_zero]; ring

end Sys2Proof.Machine
end

section
/-!
PROOFS. Rounding to nearest: the significand is a nearest whole number of quanta, and so the result a nearest value (R94).
-/

namespace Sys2Proof.Machine

open Sys2Proof Sys2Proof.Rules

/-! ### Nearest integers (R94) -/

/-- A quotient and its remainder, raised as mode 0 says, give a nearest whole number, the even one of two. -/
theorem roundsUp_nearest {w : Nat} (pos : 0 < w) (neg : Bool) (m : Nat) :
    let n := if roundsUp 0 neg (m / w % 2 = 1) (m % w) w then m / w + 1 else m / w
    |(m / w : ℚ) - n| ≤ 1 / 2 ∧ (|(m / w : ℚ) - n| = 1 / 2 → n % 2 = 0) := by
  have wpos : (0 : ℚ) < w := by exact_mod_cast pos
  have rest : (m / w : ℚ) = (m / w : Nat) + (m % w : Nat) / w := by
    calc (m / w : ℚ) = (m / w * w + m % w : Nat) / w := by rw [Nat.div_add_mod']
      _ = (m / w : Nat) + (m % w : Nat) / w := by rw [Nat.cast_add, Nat.cast_mul, add_div, mul_div_cancel_right₀ _ wpos.ne']
  have below : ((m % w : Nat) / w : ℚ) ≤ 1 / 2 ↔ 2 * (m % w) ≤ w := by
    rw [div_le_div_iff₀ wpos two_pos, one_mul, mul_comm]
    exact_mod_cast Iff.rfl
  have above : (1 / 2 : ℚ) ≤ (m % w : Nat) / w ↔ w ≤ 2 * (m % w) := by
    rw [div_le_div_iff₀ two_pos wpos, one_mul, mul_comm]
    exact_mod_cast Iff.rfl
  have lt : ((m % w : Nat) / w : ℚ) < 1 := (div_lt_one wpos).2 (by exact_mod_cast Nat.mod_lt m pos)
  have nonneg : (0 : ℚ) ≤ (m % w : Nat) / w := by positivity
  have up : roundsUp 0 neg (m / w % 2 = 1) (m % w) w = true ↔ w < 2 * (m % w) ∨ (w = 2 * (m % w) ∧ m / w % 2 = 1) := by
    simp [roundsUp]
  dsimp only
  rw [rest]
  generalize ((m % w : Nat) / w : ℚ) = t at below above lt nonneg ⊢
  by_cases raised : roundsUp 0 neg (m / w % 2 = 1) (m % w) w = true
  · have half := above.2 (by have := up.1 raised; omega)
    have dist : |((m / w : Nat) + t : ℚ) - (m / w + 1 : Nat)| = 1 - t := by
      rw [abs_sub_comm, abs_of_nonneg] <;> push_cast <;> linarith
    rw [if_pos raised, dist]
    refine ⟨by linarith, fun tie => ?_⟩
    have := below.1 (by linarith)
    have := up.1 raised
    omega
  · have half := below.2 (by have := mt up.2 raised; omega)
    have dist : |((m / w : Nat) + t : ℚ) - (m / w : Nat)| = t := by rw [add_sub_cancel_left, abs_of_nonneg nonneg]
    rw [if_neg raised, dist]
    refine ⟨half, fun tie => ?_⟩
    have := above.1 tie.ge
    have := mt up.2 raised
    omega

/-- The whole number of quanta that mode 0 chooses is nearest to the exact one, and even where two are. -/
theorem roundTo_nearest (neg : Bool) (m : Nat) (e q : Int) :
    |(m : ℚ) * 2 ^ (e - q) - (roundTo 0 neg m e q).1| ≤ 1 / 2 ∧
      (|(m : ℚ) * 2 ^ (e - q) - (roundTo 0 neg m e q).1| = 1 / 2 → (roundTo 0 neg m e q).1 % 2 = 0) := by
  unfold roundTo
  by_cases h : q ≤ e
  · have whole : (m : ℚ) * 2 ^ (e - q) - (m * 2 ^ (e - q).toNat : Nat) = 0 := by
      rw [Nat.cast_mul, two_zpow_toNat (by omega), sub_self]
    rw [if_pos h, whole]
    norm_num
  · have inv : (m : ℚ) * 2 ^ (e - q) = m / (2 ^ (q - e).toNat : Nat) := by
      rw [two_zpow_toNat (by omega), div_eq_mul_inv, ← zpow_neg, neg_sub]
    rw [if_neg h, inv]
    exact roundsUp_nearest (by positivity) neg m

/-- No integer is nearer than one within a half, and another is as near only at a half. -/
theorem abs_sub_le_of_half {x : ℚ} {n : Int} (h : |x - n| ≤ 1 / 2) (j : Int) :
    |x - n| ≤ |x - j| ∧ (|x - n| = |x - j| → j = n ∨ |x - n| = 1 / 2) := by
  by_cases e : j = n
  · subst e
    simp
  · have apart : (1 : ℚ) ≤ |(n : ℚ) - j| := by
      exact_mod_cast Int.one_le_abs (sub_ne_zero.2 (Ne.symm e))
    have tri := abs_sub_le (n : ℚ) x j
    rw [abs_sub_comm (n : ℚ) x] at tri
    exact ⟨by linarith, fun same => .inr (by linarith)⟩

/-- The same in quanta u, for values w that are a whole number of quanta or less than some whole number of them below x. -/
theorem nearest_on_grid {x u w : ℚ} {n P : Nat} (pos : 0 < u) (near : |x - n| ≤ 1 / 2) (tie : |x - n| = 1 / 2 → n % 2 = 0)
    (grid : (∃ j : Int, w = j * u) ∨ (|w| < P * u ∧ P ≤ x)) :
    |x * u - n * u| ≤ |x * u - w| ∧ (|x * u - n * u| = |x * u - w| → n * u = w ∨ n % 2 = 0) := by
  have scaled (k : ℚ) : |x * u - k * u| = |x - k| * u := by rw [← sub_mul, abs_mul, abs_of_pos pos]
  have closest := abs_sub_le_of_half (x := x) (n := n) (by exact_mod_cast near)
  simp only [Int.cast_natCast] at closest
  rcases grid with ⟨j, rfl⟩ | ⟨small, normal⟩
  · obtain ⟨le, same⟩ := closest j
    rw [scaled, scaled]
    refine ⟨mul_le_mul_of_nonneg_right le pos.le, fun e => ?_⟩
    rcases same (mul_right_cancel₀ pos.ne' e) with rfl | half
    · exact .inl (by norm_cast)
    · exact .inr (tie half)
  · have nearer : |x * u - n * u| < |x * u - w| :=
      calc |x * u - n * u| = |x - n| * u := scaled n
        _ ≤ |x - P| * u := mul_le_mul_of_nonneg_right (closest P).1 pos.le
        _ = x * u - P * u := by rw [abs_of_nonneg (sub_nonneg.2 normal), sub_mul]
        _ < x * u - w := by linarith [le_abs_self w]
        _ ≤ |x * u - w| := le_abs_self _
    exact ⟨nearer.le, fun e => absurd e nearer.ne⟩

/-! ### The quantum and the code of a rounded value (R94, R96) -/

/-- The exponent of the quantum at which a value is rounded. -/
def Fmt.quantum (f : Fmt) (m : Nat) (e : Int) : Int := max (e + Nat.log2 m - f.frac) f.minExp

/-- The significand in quanta, and the encoding without its sign. -/
def Fmt.significand (f : Fmt) (md : FMode) (neg : Bool) (m : Nat) (e : Int) : Nat := (roundTo md.rm neg m e (f.quantum m e)).1
def Fmt.code (f : Fmt) (md : FMode) (neg : Bool) (m : Nat) (e : Int) : Nat :=
  f.significand md neg m e + ((f.quantum m e + f.frac + f.bias).toNat - 1) * 2 ^ f.frac

/-- Without flushing and overflow a rounded value is its code with its sign. -/
theorem Fmt.round_val {f : Fmt} {md : FMode} {neg : Bool} {m : Nat} {e : Int} (flush : md.ftz f = false)
    (fits : (f.round md neg m e).exc.getLsbD 2 = false) :
    (f.round md neg m e).val = f.signed neg (f.code md neg m e) ∧ f.code md neg m e < f.inf := by
  by_cases big : f.inf ≤ f.code md neg m e
  · have top : f.round md neg m e = ⟨_, Exc.ovf ||| Exc.inx⟩ := if_pos big
    rw [top] at fits
    exact absurd (show (Exc.ovf ||| Exc.inx).getLsbD 2 = false from fits) (by decide)
  · have value : f.round md neg m e = ite _ _ _ := if_neg big
    rw [value, flush, Bool.and_false, if_neg Bool.false_ne_true]
    exact ⟨rfl, not_le.1 big⟩

/-- A value in quanta is less than two normal significands. -/
theorem Fmt.quanta_lt (f : Fmt) (m : Nat) (e : Int) : (m : ℚ) * 2 ^ (e - f.quantum m e) < 2 * 2 ^ f.frac := by
  have bits : (m : ℚ) < 2 ^ (Nat.log2 m + 1 : Int) := by
    have := Nat.lt_log2_self (n := m)
    exact_mod_cast this
  have pos : (0 : ℚ) < 2 ^ (e - f.quantum m e) := by positivity
  calc (m : ℚ) * 2 ^ (e - f.quantum m e) < 2 ^ (Nat.log2 m + 1 : Int) * 2 ^ (e - f.quantum m e) := by gcongr
    _ = 2 ^ (Nat.log2 m + 1 + (e - f.quantum m e) : Int) := (zpow_add₀ two_ne_zero _ _).symm
    _ ≤ 2 ^ (f.frac + 1 : Int) := zpow_le_zpow_right₀ one_le_two (by rw [Fmt.quantum]; omega)
    _ = 2 * 2 ^ f.frac := by rw [zpow_add_one₀ two_ne_zero, zpow_natCast, mul_comm]

/-- Above the least quantum it is at least one. -/
theorem Fmt.le_quanta {f : Fmt} {m : Nat} (e : Int) (h0 : m ≠ 0) (h : f.minExp < f.quantum m e) :
    (2 : ℚ) ^ f.frac ≤ m * 2 ^ (e - f.quantum m e) := by
  have bits : (2 : ℚ) ^ (Nat.log2 m : Int) ≤ m := by
    have := Nat.log2_self_le h0
    exact_mod_cast this
  have quantum : f.quantum m e = e + Nat.log2 m - f.frac := max_eq_left_of_lt (lt_max_iff.1 h |>.resolve_right (lt_irrefl _))
  calc (2 : ℚ) ^ f.frac = 2 ^ (Nat.log2 m : Int) * 2 ^ (e - f.quantum m e) := by
        rw [← zpow_add₀ two_ne_zero, ← zpow_natCast, quantum]
        congr 1
        ring
    _ ≤ m * 2 ^ (e - f.quantum m e) := by gcongr

/-- The bounds of the significand that mode 0 chooses. -/
theorem Fmt.significand_bounds {f : Fmt} {md : FMode} (rne : md.rm = 0) (neg : Bool) {m : Nat} (h0 : m ≠ 0) (e : Int) :
    f.significand md neg m e ≤ 2 * 2 ^ f.frac ∧ (f.minExp < f.quantum m e → 2 ^ f.frac ≤ f.significand md neg m e) := by
  have near := (roundTo_nearest neg m e (f.quantum m e)).1
  rw [← rne, abs_le] at near
  have lt := f.quanta_lt m e
  rw [Fmt.significand]
  generalize (roundTo md.rm neg m e (f.quantum m e)).1 = n at near ⊢
  constructor
  · have : (n : ℚ) < (2 * 2 ^ f.frac + 1 : Nat) := by push_cast; linarith
    exact Nat.lt_succ_iff.1 (by exact_mod_cast this)
  · intro above
    have ge := Fmt.le_quanta e h0 above
    have : ((2 ^ f.frac : Nat) : ℚ) < (n + 1 : Nat) := by push_cast; linarith
    exact Nat.lt_succ_iff.1 (by exact_mod_cast this)

/-- The code stands for its significand in quanta. -/
theorem Fmt.magVal_round {f : Fmt} {md : FMode} (rne : md.rm = 0) (neg : Bool) {m : Nat} (h0 : m ≠ 0) (e : Int) :
    f.magVal (f.code md neg m e) = f.significand md neg m e * 2 ^ f.quantum m e := by
  obtain ⟨hi, lo⟩ := Fmt.significand_bounds (f := f) rne neg h0 e
  have least : f.minExp ≤ f.quantum m e := le_max_right _ _
  rw [Fmt.minExp] at lo least
  rw [Fmt.code, f.magVal_code hi]
  · congr 2
    omega
  · by_cases above : 1 - f.bias - f.frac < f.quantum m e
    · exact .inr (lo above)
    · exact .inl (by omega)

/-! ### Encodings with a sign -/

theorem Fmt.inf_lt_signBit (f : Fmt) : f.inf < f.signBit := by
  rw [Fmt.inf, Fmt.signBit, pow_add, mul_comm]
  exact Nat.mul_lt_mul_of_pos_left (Nat.sub_lt (by positivity) one_pos) (by positivity)

theorem Fmt.mag_signed {f : Fmt} {c : Nat} (h : c < f.signBit) (neg : Bool) : f.mag (f.signed neg c) = c := by
  cases neg
  · exact Nat.mod_eq_of_lt h
  · exact (Nat.add_mod_left _ _).trans (Nat.mod_eq_of_lt h)

theorem Fmt.neg_signed {f : Fmt} {c : Nat} (h : c < f.signBit) (neg : Bool) : f.neg (f.signed neg c) = neg := by
  cases neg
  · exact decide_eq_false (not_le.2 h)
  · exact decide_eq_true (Nat.le_add_right _ _)

theorem val_signed {f : Fmt} {c : Nat} (h : c < f.signBit) (neg : Bool) :
    val f (f.signed neg c) = (if neg then -1 else 1) * f.magVal c := by
  rw [val_eq_magVal, Fmt.mag_signed h, Fmt.neg_signed h]

/-- A sign does not change whether an encoding is even, nor does the exponent field. -/
theorem Fmt.signed_code_mod_two {f : Fmt} (hf : f.frac ≠ 0) (md : FMode) (neg : Bool) (m : Nat) (e : Int) :
    f.signed neg (f.code md neg m e) % 2 = f.significand md neg m e % 2 := by
  have even {n : Nat} (h : n ≠ 0) : 2 ^ n % 2 = 0 := Nat.mod_eq_zero_of_dvd (dvd_pow_self 2 h)
  have sign := even (n := f.frac + f.exp) (by omega)
  have field : (((f.quantum m e + f.frac + f.bias).toNat - 1) * 2 ^ f.frac) % 2 = 0 := by rw [Nat.mul_mod, even hf, mul_zero, Nat.zero_mod]
  rw [Fmt.signed, Fmt.code, Fmt.signBit]
  split <;> omega

/-! ### The nearest value (R94) -/

/-- Rounding to nearest: no value is nearer to the exact one, and where another is as near the encoding is even. -/
theorem round_nearest_even {f : Fmt} (hf : f.frac ≠ 0) {md : FMode} (rne : md.rm = 0) (flush : md.ftz f = false) {neg : Bool} {m : Nat}
    (h0 : m ≠ 0) {e : Int} (fits : (f.round md neg m e).exc.getLsbD 2 = false) (y : Nat) :
    let v : ℚ := (if neg then -1 else 1) * (m : ℚ) * 2 ^ e
    let r := (f.round md neg m e).val
    |v - val f r| ≤ |v - val f y| ∧ (|v - val f r| = |v - val f y| → val f r = val f y ∨ r % 2 = 0) := by
  dsimp only
  obtain ⟨result, finite⟩ := Fmt.round_val flush fits
  rw [result, val_signed (finite.trans f.inf_lt_signBit), Fmt.magVal_round rne neg h0, Fmt.signed_code_mod_two hf]
  obtain ⟨near, tie⟩ := roundTo_nearest neg m e (f.quantum m e)
  rw [← rne, ← Fmt.significand] at near tie
  have pos : (0 : ℚ) < 2 ^ f.quantum m e := by positivity
  have quanta : (m : ℚ) * 2 ^ e = m * 2 ^ (e - f.quantum m e) * 2 ^ f.quantum m e := by
    rw [mul_assoc, ← zpow_add₀ two_ne_zero, sub_add_cancel]
  have nearest {w : ℚ} (grid : (∃ j : Int, w = j * 2 ^ f.quantum m e) ∨
      (f.minExp < f.quantum m e ∧ |w| < 2 ^ f.frac * 2 ^ f.quantum m e)) :=
    nearest_on_grid (P := 2 ^ f.frac) pos near tie
      (grid.imp_right fun ⟨normal, small⟩ => by push_cast; exact ⟨small, Fmt.le_quanta e h0 normal⟩)
  rw [mul_assoc, quanta]
  cases neg
  · simp only [Bool.false_eq_true, if_false, one_mul]
    exact nearest (val_grid f y _)
  · have mirrored := nearest (w := -val f y) ((val_grid f y (f.quantum m e)).imp
      (Exists.imp' Neg.neg fun j eq => by rw [eq]; push_cast; ring) fun h => by rwa [abs_neg])
    have flip (a : ℚ) : |-1 * a - val f y| = |a - -val f y| := by rw [← abs_neg]; congr 1; ring
    have flip' (a b : ℚ) : |-1 * a - -1 * b| = |a - b| := by rw [← abs_neg]; congr 1; ring
    simp only [if_true, flip, flip']
    exact ⟨mirrored.1, fun same => (mirrored.2 same).imp_left fun eq => by rw [eq]; ring⟩

/-- Settles O8: the four formats have a fraction, and without FTZ nothing is flushed. -/
theorem roundToNearestIsNearestEven : Obligations.RoundToNearestIsNearestEven := by
  unfold Obligations.RoundToNearestIsNearestEven
  intro f hf md neg m e h0 rne ftz32 ftz16 fits y _ _ _
  have frac : f.frac ≠ 0 := by
    simp only [List.mem_cons, List.not_mem_nil, or_false] at hf
    rcases hf with rfl | rfl | rfl | rfl <;> decide
  have flush : md.ftz f = false := by rw [FMode.ftz, ftz32, ftz16, ite_self]
  exact round_nearest_even frac rne flush h0 fits y

end Sys2Proof.Machine
end

section
/-!
PROOFS. Sums, products and fused products of finite values are exact before their one rounding (R91, R94, R95, R258, R260, R262).
-/

namespace Sys2Proof.Machine

open Sys2Proof Sys2Proof.Rules

/-! ### Exact values -/

/-- The number a dyadic value is. -/
def Dyadic.rat (x : Dyadic) : ℚ := x.m * 2 ^ x.e

theorem val_eq_rat (f : Fmt) (x : Nat) : val f x = (f.value x).rat := rfl

theorem Dyadic.rat_mul (x y : Dyadic) : (x.mul y).rat = x.rat * y.rat := by
  simp only [Dyadic.rat, Dyadic.mul, zpow_add₀ (two_ne_zero' ℚ)]
  push_cast
  ring

theorem Dyadic.rat_neg (x : Dyadic) : Dyadic.rat ⟨-x.m, x.e⟩ = -x.rat := by
  simp [Dyadic.rat]

/-- A significand moved to a lower exponent. -/
theorem rat_shift (m : Int) {d e : Int} (h : d ≤ e) : ((m * 2 ^ (e - d).toNat : Int) : ℚ) * 2 ^ d = m * 2 ^ e := by
  have whole := two_zpow_toNat (k := e - d) (by omega)
  push_cast at whole ⊢
  rw [whole, mul_assoc, ← zpow_add₀ two_ne_zero, sub_add_cancel]

theorem Dyadic.rat_add (x y : Dyadic) : (x.add y).rat = x.rat + y.rat := by
  unfold Dyadic.add
  split
  · next zero => simp [Dyadic.rat, zero]
  split
  · next zero => simp [Dyadic.rat, zero]
  split
  · next le => rw [Dyadic.rat, Int.cast_add, add_mul, rat_shift _ le, Dyadic.rat, Dyadic.rat]
  · next gt => rw [Dyadic.rat, Int.cast_add, add_mul, rat_shift _ (by omega), Dyadic.rat, Dyadic.rat]

theorem Dyadic.rat_eq_zero (x : Dyadic) : x.rat = 0 ↔ x.m = 0 := by
  have pos : (2 : ℚ) ^ x.e ≠ 0 := by positivity
  rw [Dyadic.rat, mul_eq_zero, or_iff_left pos, Int.cast_eq_zero]

theorem Dyadic.rat_neg_iff (x : Dyadic) : x.rat < 0 ↔ x.m < 0 := by
  have pos : (0 : ℚ) < 2 ^ x.e := by positivity
  rw [Dyadic.rat, ← not_le, mul_nonneg_iff_of_pos_right pos, not_le, Int.cast_lt_zero]

theorem Dyadic.abs_rat (x : Dyadic) : |x.rat| = (x.m.natAbs : ℚ) * 2 ^ x.e := by
  rw [Dyadic.rat, abs_mul, abs_of_pos (a := (2 : ℚ) ^ x.e) (by positivity), Nat.cast_natAbs, Int.cast_abs]

/-! ### One rounding (R94, R95) -/

theorem Fmt.isZero_signed (f : Fmt) (neg : Bool) : f.isZero (f.signed neg 0) = true := by
  rw [Fmt.isZero, Fmt.mag_signed (by rw [Fmt.signBit]; positivity)]
  rfl

theorem roundDy_roundedOnce (f : Fmt) (md : FMode) (x : Dyadic) (zeroNeg : Bool) :
    roundedOnce f md x.rat zeroNeg (f.roundDy md x zeroNeg) := by
  unfold Fmt.roundDy
  refine ⟨fun zero => if_pos (x.rat_eq_zero.1 zero), fun nonzero => ?_⟩
  have m0 := mt x.rat_eq_zero.2 nonzero
  rw [if_neg m0]
  exact ⟨x.m.natAbs, x.e, Int.natAbs_ne_zero.2 m0, by simp only [x.rat_neg_iff], x.abs_rat⟩

/-- An exact zero of either sign raises nothing. -/
theorem roundedOnce_zero {f : Fmt} {md : FMode} {q : ℚ} {neg : Bool} {r : FRes} (h : roundedOnce f md q neg r) (zero : q = 0) :
    r.exc = 0 ∧ f.isZero r.val = true := by
  rw [h.1 zero]
  exact ⟨rfl, f.isZero_signed neg⟩

/-! ### Finite operands (R102, R241) -/

/-- Without DAZ an operand is read as it stands. -/
theorem Fmt.inp_of_no_daz {md : FMode} (f : Fmt) (daz : md.daz = false) (x : Nat) : f.inp md x = x := by
  simp [Fmt.inp, daz]

/-- The encoding is neither a NaN nor an infinity. -/
def Fmt.finite (f : Fmt) (x : Nat) : Prop := f.isNaN x = false ∧ f.isInf x = false

/-- With no NaN among the operands and no invalid operation, the result is the computed one. -/
theorem Fmt.out_of_finite {f : Fmt} {ins : List Nat} (h : ∀ x ∈ ins, f.finite x) (res : FRes) : f.out ins none res = res := by
  have none : f.firstNaN ins = none := by
    rw [Fmt.firstNaN, Option.map_eq_none_iff, List.find?_eq_none]
    exact fun x hx => by rw [(h x hx).1]; exact Bool.false_ne_true
  simp only [Fmt.out, none]

/-- The second operand of a sum or, with `sub`, of a difference. -/
theorem rat_signed_operand (sub : Bool) (x : Dyadic) :
    (if sub then ⟨-x.m, x.e⟩ else x : Dyadic).rat = if sub then -x.rat else x.rat := by
  cases sub
  · rfl
  · exact x.rat_neg

section
variable {f : Fmt} {md : FMode} (daz : md.daz = false)
include daz

theorem addSub_roundedOnce (sub : Bool) {a b : Nat} (ha : f.finite a) (hb : f.finite b) :
    roundedOnce f md (val f a + if sub then -val f b else val f b)
      (zeroSumNeg md.rm (f.isZero a) (f.neg a) (f.isZero b) (f.neg b != sub)) (f.addSub md sub a b) := by
  have result : f.addSub md sub a b = f.roundDy md ((f.value a).add (if sub then ⟨-(f.value b).m, (f.value b).e⟩ else f.value b))
      (zeroSumNeg md.rm (f.isZero a) (f.neg a) (f.isZero b) (f.neg b != sub)) := by
    simp only [Fmt.addSub, f.inp_of_no_daz daz, ha.2, hb.2, Bool.false_and, Bool.false_eq_true, if_false]
    exact Fmt.out_of_finite (by simp [ha, hb]) _
  rw [result, val_eq_rat, val_eq_rat, ← rat_signed_operand, ← Dyadic.rat_add]
  exact roundDy_roundedOnce _ _ _ _

theorem mul_roundedOnce {a b : Nat} (ha : f.finite a) (hb : f.finite b) :
    roundedOnce f md (val f a * val f b) (f.neg a != f.neg b) (f.mul md a b) := by
  have result : f.mul md a b = f.roundDy md ((f.value a).mul (f.value b)) (f.neg a != f.neg b) := by
    simp only [Fmt.mul, f.inp_of_no_daz daz, ha.2, hb.2, Bool.and_false, Bool.false_and, Bool.or_self, Bool.false_eq_true, if_false]
    exact Fmt.out_of_finite (by simp [ha, hb]) _
  rw [result, val_eq_rat, val_eq_rat, ← Dyadic.rat_mul]
  exact roundDy_roundedOnce _ _ _ _

theorem fma_roundedOnce (sub : Bool) {a b c : Nat} (ha : f.finite a) (hb : f.finite b) (hc : f.finite c) :
    roundedOnce f md (val f a * val f b + if sub then -val f c else val f c)
      (zeroSumNeg md.rm (f.isZero a || f.isZero b) (f.neg a != f.neg b) (f.isZero c) (f.neg c != sub)) (f.fma md sub a b c) := by
  have result : f.fma md sub a b c = f.roundDy md
      (((f.value a).mul (f.value b)).add (if sub then ⟨-(f.value c).m, (f.value c).e⟩ else f.value c))
      (zeroSumNeg md.rm (f.isZero a || f.isZero b) (f.neg a != f.neg b) (f.isZero c) (f.neg c != sub)) := by
    simp only [Fmt.fma, f.inp_of_no_daz daz, ha.2, hb.2, hc.2, Bool.and_false, Bool.false_and, Bool.or_self, Bool.false_eq_true, if_false]
    exact Fmt.out_of_finite (by simp [ha, hb, hc]) _
  rw [result, val_eq_rat, val_eq_rat, val_eq_rat, ← rat_signed_operand, ← Dyadic.rat_mul, ← Dyadic.rat_add]
  exact roundDy_roundedOnce _ _ _ _

end

/-- Settles O9: each word rounds its exact dyadic value. -/
theorem sumsAndProductsRoundTheExactValue : Obligations.SumsAndProductsRoundTheExactValue := by
  unfold Obligations.SumsAndProductsRoundTheExactValue
  intro f _ md a b c daz fin p hp
  have finite {x : Nat} (hx : x ∈ [a, b, c]) : f.finite x := (fin x hx).2
  have ha := finite (x := a) (by simp)
  have hb := finite (x := b) (by simp)
  have hc := finite (x := c) (by simp)
  have settles {q : ℚ} {neg : Bool} {r : FRes} (h : roundedOnce f md q neg r) := And.intro (roundedOnce_zero h) h.2
  simp only [List.mem_cons, List.not_mem_nil, or_false] at hp
  rcases hp with rfl | rfl | rfl | rfl | rfl
  · exact settles (addSub_roundedOnce daz false ha hb)
  · rw [sub_eq_add_neg]
    exact settles (addSub_roundedOnce daz true ha hb)
  · exact settles (mul_roundedOnce daz ha hb)
  · exact settles (fma_roundedOnce daz false ha hb hc)
  · rw [sub_eq_add_neg]
    exact settles (fma_roundedOnce daz true ha hb hc)

end Sys2Proof.Machine
end

section
/-!
PROOFS. Floating words: what their lanes write and raise, and the trap of the lowest enabled exception (R98, R101, R241-R243, R258-R272,
R304).
-/

namespace Sys2Proof.Machine

open Sys2Proof Sys2Proof.Rules

/-! ### Compares (R272) -/

theorem Fmt.inp_of_nan {f : Fmt} (hf : f.exp ≠ 0) {x : Nat} (h : f.isNaN x = true) (md : FMode) : f.inp md x = x := by
  have normal : 2 ^ f.frac ≤ f.inf := Nat.le_mul_of_pos_left _ (Nat.sub_pos_of_lt (Nat.one_lt_two_pow hf))
  have nan : f.inf < f.mag x := of_decide_eq_true h
  have sub : f.isSub x = false := by
    rw [Fmt.isSub, Bool.and_eq_false_iff, decide_eq_false_iff_not (p := f.mag x < 2 ^ f.frac)]
    exact .inr (by omega)
  rw [Fmt.inp, sub, Bool.and_false, if_neg Bool.false_ne_true]

/-- Reading an operand makes no NaN and loses none (R241). -/
theorem Fmt.isNaN_inp {f : Fmt} (hf : f.exp ≠ 0) (md : FMode) (x : Nat) : f.isNaN (f.inp md x) = f.isNaN x := by
  cases h : f.isNaN x with
  | true => rw [Fmt.inp_of_nan hf h, h]
  | false =>
    rw [Fmt.inp]
    split
    · rw [Fmt.isNaN, Fmt.mag_signed (by rw [Fmt.signBit]; positivity)]
      rfl
    · exact h

theorem Fmt.isSNaN_inp {f : Fmt} (hf : f.exp ≠ 0) (md : FMode) (x : Nat) : f.isSNaN (f.inp md x) = f.isSNaN x := by
  cases h : f.isNaN x with
  | true => rw [Fmt.inp_of_nan hf h]
  | false => rw [Fmt.isSNaN, Fmt.isSNaN, Fmt.isNaN_inp hf, h, Bool.false_and, Bool.false_and]

theorem cond_cases (c : BitVec 3) : c = 0 ∨ c = 1 ∨ c = 2 ∨ c = 3 ∨ c = 4 ∨ c = 5 ∨ c = 6 ∨ c = 7 := by
  revert c
  decide

/-- A compare by keys is the compare by values that R272 states. -/
theorem compare_holds (f : Fmt) (md : FMode) (c : BitVec 3) (a b : Nat) : (f.compare md c a b).1 = true ↔ fcmpHolds f md c a b := by
  unfold fcmpHolds
  by_cases nan : (f.isNaN (f.inp md a) || f.isNaN (f.inp md b)) = true
  · rcases cond_cases c with rfl | rfl | rfl | rfl | rfl | rfl | rfl | rfl <;> simp [Fmt.compare, nan]
  · rcases cond_cases c with rfl | rfl | rfl | rfl | rfl | rfl | rfl | rfl <;>
      simp [Fmt.compare, nan, condVal, val_lt_iff, val_le_iff, val_eq_iff]

/-- A signalling NaN is a NaN. -/
theorem Fmt.nan_absorbs_snan (f : Fmt) (a b : Nat) :
    (f.isSNaN a || f.isSNaN b || (f.isNaN a || f.isNaN b)) = (f.isNaN a || f.isNaN b) := by
  unfold Fmt.isSNaN
  cases f.isNaN a <;> cases f.isNaN b <;> simp

/-- What a compare raises does not depend on DAZ. -/
theorem compare_exc {f : Fmt} (hf : f.exp ≠ 0) (md : FMode) (c : BitVec 3) (a b : Nat) : (f.compare md c a b).2 = fcmpExc f c a b := by
  rcases cond_cases c with rfl | rfl | rfl | rfl | rfl | rfl | rfl | rfl <;>
    simp [Fmt.compare, fcmpExc, Fmt.isNaN_inp hf, Fmt.isSNaN_inp hf, Fmt.nan_absorbs_snan]

/-! ### Lanes -/

section
variable (s : State) (f : Nat → FRes) {i : Nat}

theorem State.laneRes_lane (hi : i < 64) : (s.laneRes f).toArray.getD i ⟨0, 0⟩ = if s.sh.em.getLsbD i then f i else ⟨0, 0⟩ := by
  simp [State.laneRes, hi]

theorem resVal_laneRes (hi : i < 64) (active : s.sh.em.getLsbD i = true) : resVal (s.laneRes f) i = (f i).val := by
  rw [resVal, s.laneRes_lane f hi, if_pos active]

theorem resLanes_laneRes (k : Nat) (hi : i < 64) :
    (resLanes (s.laneRes f) k).getLsbD i = (s.sh.em.getLsbD i && (f i).exc.getLsbD k) := by
  rw [resLanes, maskOf_bit _ hi, s.laneRes_lane f hi]
  cases s.sh.em.getLsbD i <;> simp

end

theorem ne_zero_iff_bit (x : DWord) : x ≠ 0 ↔ ∃ i < 64, x.getLsbD i = true := by
  constructor
  · intro h
    by_contra clear
    push Not at clear
    exact h (BitVec.eq_of_getLsbD_eq fun i hi => by simpa using clear i hi)
  · rintro ⟨i, _, bit⟩ rfl
    simp at bit

/-! ### Exceptions of a word (R98, R101) -/

/-- The exceptions that some lane raised. -/
def raisedExc (lanes : Nat → DWord) : Exc :=
  let bit := fun (k : Nat) (e : Exc) => if lanes k ≠ 0 then e else 0
  bit 0 Exc.inv ||| bit 1 Exc.dz ||| bit 2 Exc.ovf ||| bit 3 Exc.unf ||| bit 4 Exc.inx

theorem raisedExc_bit (lanes : Nat → DWord) {k : Nat} (hk : k < 5) : (raisedExc lanes).getLsbD k = decide (lanes k ≠ 0) := by
  have single (n : Nat) (e : Exc) (k : Nat) :
      (if lanes n ≠ 0 then e else 0 : Exc).getLsbD k = (decide (lanes n ≠ 0) && e.getLsbD k) := by
    split
    · next h => rw [decide_eq_true h, Bool.true_and]
    · next h => rw [decide_eq_false h, Bool.false_and]; exact BitVec.getLsbD_zero
  simp only [raisedExc, BitVec.getLsbD_or, single]
  interval_cases k <;> simp [Exc.inv, Exc.dz, Exc.ovf, Exc.unf, Exc.inx]

/-- The lowest enabled exception names the cause (R101). -/
theorem fpCause_lowest {exc : Exc} {mode : DWord} {k : Nat} (hk : k < 5) (raised : exc.getLsbD k = true)
    (enabled : mode.getLsbD (8 + k) = true)
    (first : ∀ j < k, mode.getLsbD (8 + j) = true → exc.getLsbD j = false) :
    ∃ c, fpCause exc mode = some (c, k) ∧ c.code = BitVec.ofNat 8 (0x10 + k) ∧ c ≠ .bkpt := by
  have on : (exc.getLsbD k && mode.getLsbD (8 + k)) = true := by rw [raised, enabled, Bool.and_self]
  have off (j : Nat) (hj : j < k) : ¬ (exc.getLsbD j && mode.getLsbD (8 + j)) = true := by
    rw [Bool.and_eq_true]
    exact fun ⟨e, m⟩ => Bool.false_ne_true ((first j hj m).symm.trans e)
  unfold fpCause
  dsimp only
  interval_cases k
  · rw [if_pos on]
    exact ⟨.fpinv, rfl, rfl, by decide⟩
  · rw [if_neg (off 0 (by omega)), if_pos on]
    exact ⟨.fpdiv0, rfl, rfl, by decide⟩
  · rw [if_neg (off 0 (by omega)), if_neg (off 1 (by omega)), if_pos on]
    exact ⟨.fpovf, rfl, rfl, by decide⟩
  · rw [if_neg (off 0 (by omega)), if_neg (off 1 (by omega)), if_neg (off 2 (by omega)), if_pos on]
    exact ⟨.fpunf, rfl, rfl, by decide⟩
  · rw [if_neg (off 0 (by omega)), if_neg (off 1 (by omega)), if_neg (off 2 (by omega)), if_neg (off 3 (by omega)), if_pos on]
    exact ⟨.fpinx, rfl, rfl, by decide⟩

/-! ### The trap after the effect (R101, R243, R441, R442) -/

/-- An arithmetic trap is the next one due where it alone is pending (R441). -/
theorem Sheaf.nextPend_arith {h : Sheaf} {p : PendTrap} (pend : h.pend = [p]) (hnd : h.hnd = false) (arith : p.kind = .arith) :
    h.nextPend = some (0, p) := by
  simp [Sheaf.nextPend, pend, hnd, arith]

/-- The state with these traps pending. -/
def State.pending (s : State) (l : List PendTrap) : State := s.upd fun h => { h with pend := l }

/-- It is delivered, and nothing is pending any more. -/
theorem State.deliverPend_arith {s : State} {p : PendTrap} (pend : s.sh.pend = [p]) (hnd : s.sh.hnd = false) (arith : p.kind = .arith) :
    s.deliverPend = (s.pending []).takeTrap p (p.pc.getD s.sh.next) s.sh.next := by
  rw [State.deliverPend, Sheaf.nextPend_arith pend hnd arith]
  simp only [pend, List.eraseIdx_cons_zero, List.filter_nil]
  rfl

/-- With nothing else pending, an arithmetic trap of a word that ends its group is delivered at once. -/
theorem State.pendTrap_alone {s : State} (alone : s.sh.latch.more = false) (pend : s.sh.pend = []) (hnd : s.sh.hnd = false)
    {p : PendTrap} (arith : p.kind = .arith) : s.pendTrap p = s.takeTrap p (p.pc.getD s.sh.next) s.sh.next := by
  have queued : s.pendTrap p = (s.pending [p]).deliverPend := by
    rw [State.pendTrap, alone, pend]
    rfl
  have back : s.pending [] = s := congrArg s.pending pend.symm
  rw [queued, State.deliverPend_arith (s := s.pending [p]) rfl hnd arith]
  exact congrArg (fun t => t.takeTrap p (p.pc.getD s.sh.next) s.sh.next) back

/-- The sheaf with the exceptions of its lanes in %fpflags (R98). -/
def State.flagged (s : State) (lanes : Nat → DWord) : State := { s with sh := s.sh.setFlags (raisedExc lanes) }

/-- With an enabled exception, and no other trap pending, a word queues the trap of the lowest one. -/
theorem State.raise_queues {s : State} {lanes : Nat → DWord} {c : Cause} {k : Nat}
    (cause : fpCause (raisedExc lanes) s.sh.rd.mode = some (c, k)) (pend : s.sh.pend = []) (i : Instr) : s.raise i lanes =
      (s.flagged lanes).pendTrap { kind := .arith, cause := c, pc := some s.sh.pc, mask := lanes k, aux := s.aux i } := by
  have first : ¬ (s.sh.pend.any fun p => decide (p.kind = .arith)) = true := by rw [pend]; exact Bool.false_ne_true
  unfold State.raise
  extract_lets bit exc t
  split
  · next quiet => exact absurd (cause.symm.trans quiet) (by simp)
  · next found =>
    obtain ⟨rfl, rfl⟩ := Prod.mk.inj (Option.some.inj (cause.symm.trans found))
    exact if_neg first

/-- A word that raises an enabled exception enters the handler, its effect done and flagged. -/
theorem State.raise_enters {s : State} (can : canTrap s) (alone : s.sh.latch.more = false) (snap : s.sh.snap = none) (i : Instr)
    {lanes : Nat → DWord} {k : Nat} (hk : k < 5) (raised : lanes k ≠ 0) (enabled : s.sh.regs.mode.getLsbD (8 + k) = true)
    (first : ∀ j < k, s.sh.regs.mode.getLsbD (8 + j) = true → lanes j = 0) :
    entered (s.flagged lanes) (s.raise i lanes) (BitVec.ofNat 8 (0x10 + k)) s.sh.pc s.sh.next (lanes k) (s.aux i) := by
  have ⟨hnd, pend, _⟩ := can
  have rd : s.sh.rd = s.sh.regs := by rw [Sheaf.rd, snap]; rfl
  have bit : (raisedExc lanes).getLsbD k = true := by rw [raisedExc_bit lanes hk, decide_eq_true raised]
  obtain ⟨c, cause, code, bkpt⟩ := fpCause_lowest hk bit enabled
    fun j hj e => by rw [raisedExc_bit lanes (by omega), first j hj e]; rfl
  rw [← rd] at cause
  rw [State.raise_queues cause pend, State.pendTrap_alone (s := s.flagged lanes) alone pend hnd rfl, ← code]
  exact (State.takeTrap_enters (s := s.flagged lanes) can bkpt rfl _ _).1

theorem State.flagged_bit (s : State) (lanes : Nat → DWord) {k : Nat} (hk : k < 64) :
    (s.flagged lanes).sh.fpflags.getLsbD k = (s.sh.fpflags.getLsbD k || (decide (k < 5) && decide (lanes k ≠ 0))) := by
  change (s.sh.fpflags ||| (raisedExc lanes).setWidth 64).getLsbD k = _
  rw [BitVec.getLsbD_or, BitVec.getLsbD_setWidth, decide_eq_true hk, Bool.true_and]
  by_cases low : k < 5
  · rw [raisedExc_bit lanes low, decide_eq_true low, Bool.true_and]
  · rw [BitVec.getLsbD_of_ge _ _ (not_lt.1 low), decide_eq_false low, Bool.false_and]

theorem Regs.file_congr {r r' : Regs} (v : r'.v = r.v) (o : r'.o = r.o) {c : Nat} (h : c < 104) : r'.file c = r.file c := by
  unfold Regs.file
  rw [v, o, if_pos h, if_pos h]

/-- Lane by lane, `lanes` are the active lanes that raise each exception. -/
def lanesRaise (s : State) (lanes : Nat → DWord) (exc : Nat → Exc) : Prop :=
  ∀ k < 5, ∀ l < 64, (lanes k).getLsbD l = (s.sh.em.getLsbD l && (exc l).getLsbD k)

theorem lanesRaise_ne_zero {s : State} {lanes : Nat → DWord} {exc : Nat → Exc} (h : lanesRaise s lanes exc) {k : Nat} (hk : k < 5) :
    lanes k ≠ 0 ↔ ∃ l < 64, s.sh.em.getLsbD l = true ∧ (exc l).getLsbD k = true := by
  rw [ne_zero_iff_bit]
  refine exists_congr fun l => and_congr_right fun hl => ?_
  rw [h k hk l hl, Bool.and_eq_true]

/-- What O26 says of one word: a lowest enabled exception k traps after the effect. -/
def trapsAfter (s : State) (i : Instr) (dest : Nat) (exc : Nat → Exc) (after : Regs → Prop) : Prop :=
  ∀ k < 5, (∃ l < 64, s.sh.em.getLsbD l = true ∧ (exc l).getLsbD k = true) → s.sh.regs.mode.getLsbD (8 + k) = true →
    (∀ j < k, s.sh.regs.mode.getLsbD (8 + j) = true → ∀ l < 64, s.sh.em.getLsbD l = true → (exc l).getLsbD j = false) →
    ∃ t lanes, exec i s = .next t ∧ (∀ l, l < 64 → lanes.getLsbD l = (s.sh.em.getLsbD l && (exc l).getLsbD k)) ∧
      t.sh.trcause = BitVec.ofNat 8 (0x10 + k) ∧ t.sh.trpc = s.sh.pc ∧ t.sh.trnext = s.sh.next ∧ t.sh.trmask = lanes ∧
      t.sh.traux = auxOf s dest ∧ t.sh.hnd = true ∧ t.sh.next = s.sh.trbase.extractLsb' 0 32 ∧
      after t.sh.regs ∧ flagsGain s t exc ∧ t.mem = s.mem

/-- A word that writes registers and raises what its lanes raise does so. -/
theorem raise_trapsAfter {s : State} (can : canTrap s) (alone : s.sh.latch.more = false) (snap : s.sh.snap = none) {i : Instr}
    {g : Regs → Regs} {lanes : Nat → DWord} {exc : Nat → Exc} {dest : Nat} {after : Regs → Prop}
    (run : exec i s = .next ((s.regs g).raise i lanes)) (named : ((s.regs g).sh.use i).destCode.toNat = dest)
    (mode : (g s.sh.regs).mode = s.sh.regs.mode) (bits : lanesRaise s lanes exc)
    (effect : ∀ r : Regs, r.v = (g s.sh.regs).v → r.o = (g s.sh.regs).o → r.k = (g s.sh.regs).k → after r) :
    trapsAfter s i dest exc after := by
  intro k hk raised enabled first
  have low (j : Nat) (hj : j < k) (e : (g s.sh.regs).mode.getLsbD (8 + j) = true) : lanes j = 0 := by
    by_contra some
    obtain ⟨l, hl, active, bit⟩ := (lanesRaise_ne_zero bits (hj.trans hk)).1 some
    exact Bool.false_ne_true ((first j hj (mode ▸ e) l hl active).symm.trans bit)
  obtain ⟨trpc, trnext, trmask, trcause, traux, -, -, -, -, -, -, -, hnd, next, v, o, -, kregs, flags, mem, -⟩ :=
    State.raise_enters (s := s.regs g) can alone snap i hk ((lanesRaise_ne_zero bits hk).2 raised) (mode.symm ▸ enabled) low
  refine ⟨_, lanes k, run, bits k hk, trcause, trpc, trnext, trmask, ?_, hnd, next, effect _ v o kregs, fun n hn => ?_, mem⟩
  · rw [traux, State.aux_eq_auxOf, named]
    rfl
  · rw [flags, State.flagged_bit (s.regs g) lanes hn]
    congr 1
    by_cases h5 : n < 5
    · congr 1
      rw [Bool.eq_iff_iff, decide_eq_true_iff, lanesRaise_ne_zero bits h5]
      simp
    · rw [decide_eq_false h5, Bool.false_and, Bool.false_and]

end Sys2Proof.Machine
end

section
/-!
PROOFS. The floating words, each by the shared operation that runs it, and the traps of their enabled exceptions (R101, R241-R243,
R258-R272, R304, R314).
-/

namespace Sys2Proof.Machine

open Sys2Proof Sys2Proof.Rules

/-! ### What each floating word runs -/

/-- A word whose meaning is an effect that issues has that effect where it issues (R51). -/
theorem exec_of_issue {s : State} {i : Instr} {effect : State → State} (arm : exec i s = s.issue i effect) (h : s.issues i = true) :
    exec i s = .next (effect s) :=
  arm.trans (State.issue_of_issues h effect)

/-- What a rule gives for the lanes of 32-bit operands, of pairs, and of the two elements of packed operands. -/
def State.rule32 (s : State) (d a b : VCode) (g : FMode → Nat → Nat → Nat → FRes) (l : Nat) : FRes :=
  g s.sh.fmode (inA s a l).toNat (inA s b l).toNat (inD s d l).toNat
def State.rule64 (s : State) (d a b : VCode) (g : FMode → Nat → Nat → Nat → FRes) (l : Nat) : FRes :=
  g s.sh.fmode (s.sh.rd.src64 a l).toNat (s.sh.rd.src64 b l).toNat (s.sh.rd.src64 d l).toNat
def State.rulePacked (s : State) (d a b : VCode) (g : FMode → Nat → Nat → Nat → FRes) (l : Nat) : FRes :=
  packed2 fun e => g s.sh.fmode (el (inA s a l) e) (el (inA s b l) e) (el (inD s d l) e)

theorem el_eq_extract (x : Word) (e : Nat) : (x.extractLsb' (16 * e) 16).toNat = el x e := by
  rw [BitVec.extractLsb'_toNat, Nat.shiftRight_eq_div_pow, el]

theorem State.packed_eq (s : State) (i : Instr) (d a b : VCode) (g : FMode → Nat → Nat → Nat → FRes) :
    s.packed i d a b g = s.fpLanes i d (s.rulePacked d a b g) := by
  unfold State.packed
  simp only [el_eq_extract]
  rfl

theorem cvtShape_eq_two (c : BitVec 3) : cvtShape c = 2 ↔ c = 2 ∨ c = 6 := by
  revert c
  decide

theorem State.convert_eq (s : State) (i : Instr) (d a : VCode) (src dst : BitVec 3) (m : FMode) : s.convert i d a src dst m =
    if dst = 2 ∨ dst = 6 then s.fpLanes64 i d fun l => cvtLane src dst m (cvtIn s a src l)
    else s.fpLanes i d fun l => cvtLane src dst m (cvtIn s a src l) := by
  simp only [State.convert, cvtShape_eq_two]
  rfl

section
variable (s : State) (d a b : VCode)

/-- An f32 word runs its rule; a word of one operand reads it for the other too, and its rule ignores that. -/
theorem fpWords_arm : ∀ p ∈ fpWords d a b, exec p.1 s = s.issue p.1 fun s => s.fpLanes p.1 d (s.rule32 d a b p.2) := by
  simp only [fpWords, List.forall_mem_cons, List.not_mem_nil, false_implies, implies_true, and_true]
  exact ⟨rfl, rfl, rfl, rfl, rfl, rfl, rfl, rfl, rfl, rfl, rfl, rfl, rfl, rfl, rfl, rfl⟩

theorem fpWords64_arm : ∀ p ∈ fpWords64 d a b, exec p.1 s = s.issue p.1 fun s => s.fpLanes64 p.1 d (s.rule64 d a b p.2) := by
  simp only [fpWords64, List.forall_mem_cons, List.not_mem_nil, false_implies, implies_true, and_true]
  exact ⟨rfl, rfl, rfl, rfl, rfl, rfl, rfl⟩

theorem packedWords_arm : ∀ p ∈ packedWords d a b, exec p.1 s = s.issue p.1 fun s => s.fpLanes p.1 d (s.rulePacked d a b p.2) := by
  simp only [packedWords, List.forall_mem_cons, List.not_mem_nil, false_implies, implies_true, and_true, ← State.packed_eq]
  exact ⟨rfl, rfl, rfl, rfl, rfl, rfl, rfl, rfl⟩

/-- CVT converts in the captured rounding mode, CVTX in that of its EXT (R304). -/
theorem cvt_run (src dst : BitVec 3) (rm : BitVec 2) :
    ∀ p ∈ [(Instr.cvt d a src dst, s.sh.fmode), (.cvtx d a src dst rm, { s.sh.fmode with rm := rm })], s.issues p.1 = true →
      exec p.1 s = .next (s.convert p.1 d a src dst p.2) := by
  simp only [List.forall_mem_cons, List.not_mem_nil, false_implies, implies_true, and_true]
  exact ⟨exec_of_issue (effect := fun s => s.convert (.cvt d a src dst) d a src dst s.sh.fmode) rfl,
    exec_of_issue (effect := fun s => s.convert (.cvtx d a src dst rm) d a src dst { s.sh.fmode with rm := rm }) rfl⟩

theorem fcmp_arm (conj : Bool) (c : BitVec 3) (kd : KCode) : exec (.fcmp conj c kd a b) s = s.issue (.fcmp conj c kd a b) fun s =>
    s.compareFp (.fcmp conj c kd a b) conj kd fun l => f32.compare s.sh.fmode c (inA s a l).toNat (inA s b l).toNat := rfl

theorem dcmp_arm (conj : Bool) (c : BitVec 3) (kd : KCode) : exec (.dcmp conj c kd a b) s = s.issue (.dcmp conj c kd a b) fun s =>
    s.compareFp (.dcmp conj c kd a b) conj kd fun l => f64.compare s.sh.fmode c (s.sh.rd.src64 a l).toNat (s.sh.rd.src64 b l).toNat := rfl

end

/-! ### Destination codes (R440) -/

section
variable (h : Sheaf) (d a b : VCode)

theorem fpWords_dest : ∀ p ∈ fpWords d a b, (h.use p.1).destCode.toNat = d.toNat := by
  simp only [fpWords, List.forall_mem_cons, List.not_mem_nil, false_implies, implies_true, and_true]
  refine ⟨?_, ?_, ?_, ?_, ?_, ?_, ?_, ?_, ?_, ?_, ?_, ?_, ?_, ?_, ?_, ?_⟩ <;> exact BitVec.toNat_setWidth_of_le (by decide)

theorem fpWords64_dest : ∀ p ∈ fpWords64 d a b, (h.use p.1).destCode.toNat = d.toNat := by
  simp only [fpWords64, List.forall_mem_cons, List.not_mem_nil, false_implies, implies_true, and_true]
  refine ⟨?_, ?_, ?_, ?_, ?_, ?_, ?_⟩ <;> exact BitVec.toNat_setWidth_of_le (by decide)

theorem packedWords_dest : ∀ p ∈ packedWords d a b, (h.use p.1).destCode.toNat = d.toNat := by
  simp only [packedWords, List.forall_mem_cons, List.not_mem_nil, false_implies, implies_true, and_true]
  refine ⟨?_, ?_, ?_, ?_, ?_, ?_, ?_, ?_⟩ <;> exact BitVec.toNat_setWidth_of_le (by decide)

theorem cvt_dest (src dst : BitVec 3) (rm : BitVec 2) (m n : FMode) :
    ∀ p ∈ [(Instr.cvt d a src dst, m), (.cvtx d a src dst rm, n)], (h.use p.1).destCode.toNat = d.toNat := by
  simp only [List.forall_mem_cons, List.not_mem_nil, false_implies, implies_true, and_true]
  exact ⟨BitVec.toNat_setWidth_of_le (by decide), BitVec.toNat_setWidth_of_le (by decide)⟩

/-- A predicate's code is above those of the registers. -/
theorem kcode_toNat (kd : KCode) : (192 + kd.setWidth 9 : BitVec 9).toNat = 192 + kd.toNat := by
  revert kd
  decide

end

/-- Bit l of a compare's predicate: an active lane whose compare holds and, in the AND form, whose bit was set (R272). -/
theorem predicate_bit (conj : Bool) (old : DWord) (holds : Nat → Bool) {l : Nat} (hl : l < 64) :
    (if conj then old &&& maskOf holds else maskOf holds).getLsbD l = true ↔
      holds l = true ∧ (conj = true → old.getLsbD l = true) := by
  cases conj
  · simp [maskOf_bit _ hl]
  · simp [maskOf_bit _ hl, and_comm]

/-! ### The shared operations trap after their effect (R101, R237, R242, R260, R272) -/

section
variable {s : State} (can : canTrap s) (alone : s.sh.latch.more = false) (snap : s.sh.snap = none) {i : Instr}
include can alone snap

theorem fpLanes_trapsAfter {d : VCode} {f : Nat → FRes} (run : exec i s = .next (s.fpLanes i d f))
    (named : ∀ h : Sheaf, (h.use i).destCode.toNat = d.toNat) :
    trapsAfter s i d.toNat (fun l => (f l).exc) (wrote s.sh.em d.toNat (fun l => BitVec.ofNat 32 (f l).val) s.sh.regs) := by
  refine raise_trapsAfter can alone snap run (named _) (s.vecLanes_scalars d _).2.2.2
    (fun k _ l hl => resLanes_laneRes s f k hl) fun r v o _ c l hc hl => ?_
  refine (congrArg (laneOf · l) (Regs.file_congr v o hc)).trans ((s.vecLanes_lane d _ hc hl).trans ?_)
  by_cases active : c = d.toNat ∧ s.sh.em.getLsbD l = true
  · rw [if_pos active, if_pos active, resVal_laneRes s f hl active.2]
  · rw [if_neg active, if_neg active]

theorem fpLanes64_trapsAfter {d : VCode} {f : Nat → FRes} (run : exec i s = .next (s.fpLanes64 i d f))
    (named : ∀ h : Sheaf, (h.use i).destCode.toNat = d.toNat) :
    trapsAfter s i d.toNat (fun l => (f l).exc) (wrotePair s d fun l => BitVec.ofNat 64 (f l).val) := by
  refine raise_trapsAfter can alone snap run (named _) (Regs.result64_scalars _ _ _ _).2.2.2
    (fun k _ l hl => resLanes_laneRes s f k hl) fun r v o _ c l hc hl => ?_
  refine (congrArg (laneOf · l) (Regs.file_congr v o hc)).trans ((Regs.result64_lane _ _ d _ hc hl).trans ?_)
  by_cases active : s.sh.em.getLsbD l = true
  · rw [resVal_laneRes s f hl active, BitVec.setWidth_eq_extractLsb' (by decide)]
  · simp only [active, false_and, if_false, Bool.false_eq_true]

theorem compareFp_trapsAfter {f : Fmt} (hf : f.exp ≠ 0) {conj : Bool} {kd : KCode} {c : BitVec 3} {x y : Nat → Nat}
    (run : exec i s = .next (s.compareFp i conj kd fun l => f.compare s.sh.fmode c (x l) (y l)))
    (named : ∀ h : Sheaf, (h.use i).destCode.toNat = 192 + kd.toNat) :
    trapsAfter s i (192 + kd.toNat) (fun l => fcmpExc f c (x l) (y l)) fun r => ∃ k,
      (∀ j, r.getK j = if j = kd then k else s.sh.regs.getK j) ∧
        cmpK s conj kd (fun l => fcmpHolds f s.sh.fmode c (x l) (y l)) k := by
  refine raise_trapsAfter can alone snap run (named _) (Regs.setK_mode _ _ _) (fun k _ l hl => ?_) fun r _ _ kregs => ?_
  · rw [maskOf_bit _ hl, compare_exc hf]
  · refine ⟨_, fun j => (congrArg (·[j.toNat]) kregs).trans (Regs.getK_setK _ kd j _), fun l hl => ?_⟩
    rw [predicate_bit conj _ _ hl, Bool.and_eq_true, and_assoc]
    exact and_congr_right' (and_congr_left' (compare_holds ..))

end

/-- Settles O26: every word listed runs one of three shared operations, and each of them traps after its effect. -/
theorem enabledExceptionsTrapAfterTheEffect : Obligations.EnabledExceptionsTrapAfterTheEffect := by
  unfold Obligations.EnabledExceptionsTrapAfterTheEffect
  intro s d a b src dst rm conj c kd can alone snap p hp issues
  change trapsAfter s p.1 p.2.1 p.2.2.1 p.2.2.2
  simp only [trapWords, List.mem_append, List.mem_map] at hp
  rcases hp with (((⟨w, hw, rfl⟩ | ⟨w, hw, rfl⟩) | ⟨w, hw, rfl⟩) | ⟨w, hw, rfl⟩) | hp
  · exact fpLanes_trapsAfter can alone snap (exec_of_issue (fpWords_arm s d a b w hw) issues) fun h => fpWords_dest h d a b w hw
  · exact fpLanes64_trapsAfter can alone snap (exec_of_issue (fpWords64_arm s d a b w hw) issues) fun h => fpWords64_dest h d a b w hw
  · exact fpLanes_trapsAfter can alone snap (exec_of_issue (packedWords_arm s d a b w hw) issues) fun h => packedWords_dest h d a b w hw
  · have run := cvt_run s d a src dst rm w hw
    have dest (h : Sheaf) := cvt_dest h d a src dst rm _ _ w hw
    rw [State.convert_eq] at run
    by_cases wide : dst = 2 ∨ dst = 6
    · rw [if_pos wide] at issues run ⊢
      exact fpLanes64_trapsAfter can alone snap (run issues) dest
    · rw [if_neg wide] at issues run ⊢
      exact fpLanes_trapsAfter can alone snap (run issues) dest
  · simp only [List.mem_cons, List.not_mem_nil, or_false] at hp
    rcases hp with rfl | rfl
    · exact compareFp_trapsAfter can alone snap (f := f32) (by decide)
        (exec_of_issue (fcmp_arm s a b conj c kd) issues) fun _ => kcode_toNat kd
    · exact compareFp_trapsAfter can alone snap (f := f64) (by decide)
        (exec_of_issue (dcmp_arm s a b conj c kd) issues) fun _ => kcode_toNat kd

end Sys2Proof.Machine
end

section
/-!
PROOFS. Where the pieces of an access lie, and what an access leaves that meets nothing but memory (R62-R67, R72, R117, R118).
-/

namespace Sys2Proof.Machine

open Sys2Proof Sys2Proof.Rules

/-! ### The plan of an access (R62-R68, R118, R120) -/

/-- Where a piece of an access lies, when the checks have passed; none when the target turns it away (R62-R67). -/
def State.placed (s : State) (sp : Space) (acc : Access) (z : Site) : Option Site :=
  match sp with
  | .spad | .clus => (s.spadGroup sp z.va).map fun g => { z with key := spadKey g.core (g.spadBase + spadOff sp z.va) }
  | .host => some { z with key := hostKey (s.fnOf s.tag) z.va }
  | .peer => (s.peerTarget acc.writes z.va).map fun k => { z with key := k }
  | .priv | .dev => match s.xlat s.tag z.va acc with
    | .ok m => (s.reach s.tag acc.writes m.key).map fun k => { z with key := k, map := some m }
    | _ => none

/-- A piece keeps its lane, its place in the access and its address. -/
theorem State.placed_some {s : State} {sp : Space} {acc : Access} {z y : Site} (h : s.placed sp acc z = some y) :
    y.lane = z.lane ∧ y.off = z.off ∧ y.len = z.len ∧ y.va = z.va := by
  unfold State.placed at h
  split at h
  · obtain ⟨g, -, rfl⟩ := Option.map_eq_some_iff.1 h
    exact ⟨rfl, rfl, rfl, rfl⟩
  · obtain ⟨g, -, rfl⟩ := Option.map_eq_some_iff.1 h
    exact ⟨rfl, rfl, rfl, rfl⟩
  · obtain rfl := Option.some.inj h
    exact ⟨rfl, rfl, rfl, rfl⟩
  · obtain ⟨k, -, rfl⟩ := Option.map_eq_some_iff.1 h
    exact ⟨rfl, rfl, rfl, rfl⟩
  all_goals
    split at h
    · obtain ⟨k, -, rfl⟩ := Option.map_eq_some_iff.1 h
      exact ⟨rfl, rfl, rfl, rfl⟩
    · cases h

/-- Address of a scratchpad or cluster access that is in range names a group. -/
theorem State.spadGroup_of_inRange {s : State} {sp : Space} (hsp : sp = .spad ∨ sp = .clus) {p : Nat × Nat}
    (h : s.inRange sp p = true) : ∃ g, s.spadGroup sp p.2 = some g ∧ spadOff sp p.2 < g.spadLen := by
  unfold State.inRange at h
  obtain rfl | rfl := hsp
  all_goals
    dsimp only at h
    split at h
    · next g hg => exact ⟨g, hg, of_decide_eq_true h⟩
    · cases h

theorem State.pieces_spad {s : State} {sp : Space} (hsp : sp ≠ .priv) (n : Nat) (p : Nat × Nat) :
    s.pieces sp n p = [{ lane := p.1, off := 0, len := n, va := p.2, key := 0, map := none }] := by
  cases sp with
  | priv => exact absurd rfl hsp
  | _ => rfl

/-- Pieces that all have a place, and those among them that have none. -/
theorem filterMap_of_some {α β γ : Type} {f : α → Option β} {g : α → β} {l : List α} (φ : α → γ)
    (h : ∀ z ∈ l, f z = some (g z)) :
    l.map g = l.filterMap f ∧ [] = (l.filter fun z => (f z).isNone).map φ := by
  have none : (l.filter fun z => (f z).isNone) = [] := List.filter_eq_nil_iff.2 fun z hz => by simp [h z hz]
  rw [none, ← List.filterMap_eq_map]
  exact ⟨(List.filterMap_congr h).symm, rfl⟩

/-- The translated piece of an access whose page neither faults nor refuses. -/
theorem State.mapSite_ok {s : State} {acc : Access} {z : Site} (fault : (s.mapSite acc z).1 ≠ .fault)
    (prot : (s.mapSite acc z).1 ≠ .prot) :
    ∃ m, s.xlat s.tag z.va acc = .ok m ∧ s.mapSite acc z = (.ok m, { z with key := m.key, map := some m }) := by
  unfold State.mapSite at *
  cases e : s.xlat s.tag z.va acc with
  | ok m => exact ⟨m, rfl, rfl⟩
  | fault => simp [e] at fault
  | prot => simp [e] at prot

theorem State.mapSite_lane (s : State) (acc : Access) (z : Site) : (s.mapSite acc z).2.lane = z.lane := by
  unfold State.mapSite
  split <;> rfl

/-- The pieces of an access by translated pages, where no page faults or refuses. -/
theorem State.placed_mapSite {s : State} {sp : Space} (hsp : sp = .priv ∨ sp = .dev) {acc : Access} {z : Site}
    (fault : (s.mapSite acc z).1 ≠ .fault) (prot : (s.mapSite acc z).1 ≠ .prot) :
    s.placed sp acc z = (s.reach s.tag acc.writes (s.mapSite acc z).2.key).map fun k => { (s.mapSite acc z).2 with key := k } := by
  obtain ⟨m, hx, hm⟩ := State.mapSite_ok fault prot
  rw [hm]
  obtain rfl | rfl := hsp
  all_goals simp only [State.placed, hx]

/-- The pieces of such an access and those whose target turns them away, where no page faults or refuses. -/
theorem State.placed_mapSites {s : State} {sp : Space} (hsp : sp = .priv ∨ sp = .dev) {acc : Access} {qs : List Site}
    (fault : ¬ ((qs.map (s.mapSite acc)).filter (·.1 = .fault)).map Prod.snd ≠ [])
    (prot : ¬ (qs.map (s.mapSite acc)).any (·.1 = .prot) = true) :
    (((qs.map (s.mapSite acc)).map Prod.snd).filterMap fun q => (s.reach s.tag acc.writes q.key).map fun k => { q with key := k }) =
        qs.filterMap (s.placed sp acc) ∧
      (((qs.map (s.mapSite acc)).map Prod.snd).filter fun q => (s.reach s.tag acc.writes q.key).isNone).map Site.lane =
        (qs.filter fun z => (s.placed sp acc z).isNone).map Site.lane := by
  simp only [ne_eq, not_not, List.map_eq_nil_iff, List.filter_eq_nil_iff, List.forall_mem_map, decide_eq_true_eq] at fault
  simp only [List.any_map, List.any_eq_true, not_exists, not_and, Function.comp_apply, decide_eq_true_eq] at prot
  have lies : ∀ z ∈ qs, s.placed sp acc z = _ := fun z hz => State.placed_mapSite hsp (fault z hz) (prot z hz)
  rw [List.map_map]
  constructor
  · rw [List.filterMap_map]
    exact (List.filterMap_congr lies).symm
  · rw [List.filter_map, List.map_map]
    refine congrArg₂ List.map (funext fun z => s.mapSite_lane acc z) (List.filter_congr fun z hz => ?_)
    rw [lies z hz, Option.isNone_map]
    rfl

/-- A check that has passed. -/
theorem of_ite_error {ε α : Type} {p : Prop} [Decidable p] {e : ε} {x : Except ε α} {a : α}
    (h : (if p then .error e else x) = .ok a) : ¬ p ∧ x = .ok a := by
  split at h
  · cases h
  · next hp => exact ⟨hp, h⟩

/-- What a plan says that passes the checks: every lane is in range and aligned, the pieces lie where their space puts them, and the
lanes turned away are those of the pieces that no target takes. -/
theorem State.plan_ok {s : State} {sp : Space} {acc : Access} {n : Nat} {align : Bool} {ps : List (Nat × Nat)} {q : Plan}
    (h : s.plan sp acc n align ps = .ok q) :
    (∀ p ∈ ps, s.inRange sp p = true) ∧ (sp = .priv → ps ≠ [] → (s.sh.rd.getS 62).toNat % 256 = 0) ∧
      (align = true → ∀ p ∈ ps, spadOff sp p.2 % n = 0) ∧
      q.sites = (ps.flatMap (s.pieces sp n)).filterMap (s.placed sp acc) ∧
      q.rejected = ((ps.flatMap (s.pieces sp n)).filter fun z => (s.placed sp acc z).isNone).map Site.lane := by
  unfold State.plan at h
  dsimp only at h
  obtain ⟨hfar, h⟩ := of_ite_error h
  obtain ⟨hframe, h⟩ := of_ite_error h
  obtain ⟨hodd, h⟩ := of_ite_error h
  have range : ∀ p ∈ ps, s.inRange sp p = true := by simpa [List.filter_eq_nil_iff] using hfar
  refine ⟨range, fun e ne => ?_, fun e p hp => ?_, ?_⟩
  · simpa [e, ne] using hframe
  · have : ∀ p ∈ ps, spadOff sp p.2 % n = 0 := by simpa [e, List.filter_eq_nil_iff] using hodd
    exact this p hp
  clear hfar hframe hodd
  cases sp with
  | spad | clus =>
    obtain rfl := Except.ok.inj (of_ite_error h).2
    refine filterMap_of_some Site.lane fun z hz => ?_
    obtain ⟨p, hp, hz⟩ := List.mem_flatMap.1 hz
    rw [State.pieces_spad (by decide), List.mem_singleton] at hz
    obtain ⟨g, hg, -⟩ := State.spadGroup_of_inRange (by decide) (range p hp)
    subst hz
    simp only [State.placed, hg, Option.map_some]
  | host =>
    obtain rfl := Except.ok.inj h
    exact filterMap_of_some Site.lane fun z _ => rfl
  | peer =>
    obtain rfl := Except.ok.inj h
    refine ⟨rfl, ?_⟩
    simp only [State.placed, Option.isNone_map]
  | priv | dev =>
    obtain ⟨hfault, h⟩ := of_ite_error (of_ite_error h).2
    obtain ⟨hprot, h⟩ := of_ite_error h
    obtain rfl := Except.ok.inj h
    exact State.placed_mapSites (by decide) hfault hprot

/-- A piece of a plan that passes the checks is a piece of one of its lanes, put in its place. -/
theorem State.mem_plan_sites {s : State} {sp : Space} {acc : Access} {n : Nat} {align : Bool} {ps : List (Nat × Nat)} {q : Plan}
    (h : s.plan sp acc n align ps = .ok q) {y : Site} :
    y ∈ q.sites ↔ ∃ p ∈ ps, ∃ z ∈ s.pieces sp n p, s.placed sp acc z = some y := by
  obtain ⟨-, -, -, sites, -⟩ := State.plan_ok h
  simp only [sites, List.mem_filterMap, List.mem_flatMap]
  constructor
  · rintro ⟨z, ⟨p, hp, hz⟩, hy⟩
    exact ⟨p, hp, z, hz, hy⟩
  · rintro ⟨p, hp, z, hz, hy⟩
    exact ⟨z, ⟨p, hp, hz⟩, hy⟩

theorem State.pieces_lane {s : State} {sp : Space} {n : Nat} {p : Nat × Nat} {z : Site} (h : z ∈ s.pieces sp n p) : z.lane = p.1 := by
  unfold State.pieces at h
  split at h
  · dsimp only at h
    split at h
    · rw [List.mem_singleton.1 h]
    · obtain ⟨j, -, rfl⟩ := List.mem_map.1 h
      rfl
  · rw [List.mem_singleton.1 h]

theorem State.mem_laneAddrs {s : State} {sp : Space} {a : VCode} {ofs : Int} {p : Nat × Nat} :
    p ∈ s.laneAddrs sp a ofs ↔ p.1 < 64 ∧ s.sh.em.getLsbD p.1 = true ∧ p.2 = s.laneAddr sp a ofs p.1 := by
  simp only [State.laneAddrs, List.mem_map, mem_lanesOf]
  constructor
  · rintro ⟨l, ⟨hl, he⟩, rfl⟩
    exact ⟨hl, he, rfl⟩
  · rintro ⟨hl, he, ha⟩
    exact ⟨p.1, ⟨hl, he⟩, Prod.ext rfl ha.symm⟩

/-- The pieces of a word's access belong to lanes. -/
theorem State.plan_lane_lt {s : State} {sp : Space} {acc : Access} {n : Nat} {align : Bool} {a : VCode} {ofs : Int} {q : Plan}
    (h : s.plan sp acc n align (s.laneAddrs sp a ofs) = .ok q) : ∀ y ∈ q.sites, y.lane < 64 := by
  intro y hy
  obtain ⟨p, hp, z, hz, hy⟩ := (State.mem_plan_sites h).1 hy
  rw [(State.placed_some hy).1, State.pieces_lane hz]
  exact (State.mem_laneAddrs.1 hp).1

/-! ### An access that nothing counts, parks or errs (R72, R79, R80, R83, R89, R491) -/

theorem State.counts_false {s : State} {e : Counted} (h : uncounted s e.code) : s.counts e = false := by
  unfold State.counts
  cases hv : s.fns[s.fnOf s.tag]? with
  | none => rfl
  | some v =>
    simp only [Option.any_some, List.any_eq_false, decide_eq_true_eq]
    intro x hx
    obtain ⟨n, hn⟩ := List.getElem?_of_mem hx
    rw [BitVec.extractLsb'_toNat, Nat.shiftRight_zero]
    exact h v hv n x (by simpa using hn)

/-- The lines that pieces count which come back through a peer address lie in no page that counts (R66, R80): `still` says so of the
pieces' own bytes alone. -/
def linesStill (s : State) (qs : List Site) : Prop :=
  ∀ q ∈ qs, ∀ k m, q.back = some k → s.pageOf (lineOf k) = some m → m.ce = false

/-- Accesses from outside to lines of pages that do not count leave the state (R80). -/
theorem State.touchOutside_none {s : State} (hw : s.weak = []) {ks : List Nat} (h : ∀ k ∈ ks, ∀ m, s.pageOf k = some m → m.ce = false) :
    s.touchOutside ks = s := by
  have none : (ks.filterMap fun k => (s.pageOf k).bind fun m => if m.ce then some (s.frameOwner k, m.page) else none) = [] := by
    rw [List.filterMap_eq_nil_iff]
    intro k hk
    cases hm : s.pageOf k with
    | none => rfl
    | some m => simp [h k hk m hm]
  simp only [State.touchOutside, none, State.correct_none hw]
  rfl

/-- Where no page counts, counting leaves the state. -/
theorem State.countPages_still {s : State} {qs : List Site} (hw : s.weak = []) (h : still s qs) (hl : linesStill s qs) :
    s.countPages qs = s := by
  have here : (qs.filterMap fun q => q.map.bind fun m => if m.ce then some (m, lineOf q.key) else none) = [] := by
    rw [List.filterMap_eq_nil_iff]
    intro q hq
    cases hm : q.map with
    | none => rfl
    | some m => simp [((h q hq).1 m hm).1]
  have outside : s.touchOutside ((qs.filterMap Site.back).map lineOf).dedup = s := by
    refine State.touchOutside_none hw fun k hk m hm => ?_
    obtain ⟨j, hj, rfl⟩ := List.mem_map.1 (List.mem_dedup.1 hk)
    obtain ⟨q, hq, hb⟩ := List.mem_filterMap.1 hj
    exact hl q hq j m hb hm
  simp only [State.countPages, here, List.map_nil, List.dedup_nil, List.foldl_nil]
  split
  · rfl
  · exact outside

/-- An access that nothing counts and no error meets looks up its pages beside its effect (R72). -/
theorem State.touch_still {s : State} {qs : List Site} (hw : s.weak = []) (hu : uncountedAccess s) (h : still s qs) (hl : linesStill s qs) :
    s.touch qs = lookedUp s qs := by
  obtain ⟨banks, misses, walks, buffers⟩ := hu
  have e := State.lookUpAll_frame (State.counts_false (e := .tlbMisses) misses) (State.counts_false (e := .walks) walks) qs
  have buffer : (s.lookUpAll qs).counts .bufferMisses = false := by
    rw [e]
    exact State.counts_false (e := .bufferMisses) buffers
  have bank : (s.lookUpAll qs).counts .bankExcess = false := by
    rw [e]
    exact State.counts_false (e := .bankExcess) banks
  rw [State.touch, State.correct_none hw, State.countPages_still hw h hl, State.countBuffer_none buffer, State.countBanks_none bank]
  exact e

/-- A piece in a page that does not migrate parks nowhere (R83). -/
theorem State.parksAt_still {s : State} {qs : List Site} (h : still s qs) {q : Site} (hq : q ∈ qs) : s.parksAt q = none := by
  obtain ⟨page, back⟩ := h q hq
  have here : q.map.filter Mapped.wb = none := by
    cases hm : q.map with
    | none => rfl
    | some m => simp [Option.filter, (page m hm).2]
  have there : (q.back.bind fun k => ((s.pageOf k).filter Mapped.wb).map fun m => (s.frameOwner k, m, m.va)) = none := by
    cases hk : q.back with
    | none => rfl
    | some k =>
      cases hm : s.pageOf k with
      | none => simp [hm]
      | some m => simp [Option.filter, hm, (back k m hk hm).2]
  simp only [State.parksAt, here, there]

end Sys2Proof.Machine
end

section
/-!
PROOFS. Where the lanes of an access lie, and the traps of an access out of range or misaligned (R62-R67, R117, R118).
-/

namespace Sys2Proof.Machine

open Sys2Proof Sys2Proof.Rules

/-! ### Addresses of lanes (R117) -/

/-- An offset is added modulo the width of the address. -/
theorem toNat_add_ofInt {w : Nat} (x : BitVec w) (n : Int) : ((x + BitVec.ofInt w n).toNat : Int) = (x.toInt + n) % 2 ^ w := by
  have nat (y : BitVec w) : (y.toNat : Int) = y.toInt % (2 ^ w : Nat) := by
    rw [BitVec.toInt_eq_toNat_bmod, Int.bmod_emod, ← Int.natCast_emod, Nat.mod_eq_of_lt y.isLt]
  rw [nat, BitVec.toInt_add, BitVec.toInt_ofInt, Int.add_bmod_bmod, Int.bmod_emod, Nat.cast_pow, Nat.cast_ofNat]

theorem State.laneAddr_word (s : State) (a : VCode) (ofs : Int) (l : Nat) :
    ∀ sp ∈ [Space.priv, .spad, .clus], (s.laneAddr sp a ofs l : Int) = ((inA s a l).toInt + ofs) % 2 ^ 32 := by
  intro sp hsp
  have key := toNat_add_ofInt (inA s a l) ofs
  fin_cases hsp <;> exact key

theorem State.laneAddr_dword (s : State) (a : VCode) (ofs : Int) (l : Nat) :
    ∀ sp ∈ [Space.dev, .peer, .host], (s.laneAddr sp a ofs l : Int) = ((s.sh.rd.src64 a l).toInt + ofs) % 2 ^ 64 := by
  intro sp hsp
  have key := toNat_add_ofInt (s.sh.rd.src64 a l) ofs
  fin_cases hsp <;> exact key

/-! ### Where the pieces lie (R62-R67) -/

theorem widthBytes_cases (w : BitVec 3) :
    widthBytes w = 1 ∨ widthBytes w = 2 ∨ widthBytes w = 4 ∨ widthBytes w = 8 ∨ widthBytes w = 16 := by
  revert w
  decide

/-- A target that takes an access has a window for it, or lies beyond this module where a route leads (R66). -/
theorem State.peerTarget_takes {s : State} {write : Bool} {a k : Nat} (h : s.peerTarget write a = some k) : peerTakes s write a k := by
  unfold State.peerTarget at h
  split at h
  · next own =>
    obtain ⟨w, hw, rfl⟩ := Option.map_eq_some_iff.1 h
    have covers := List.find?_some hw
    simp only [Bool.and_eq_true, decide_eq_true_eq, List.contains_iff_mem, Bool.or_eq_true, Bool.not_eq_true'] at covers
    obtain ⟨⟨⟨low, high⟩, exported⟩, leave⟩ := covers
    exact .inl ⟨own, w, List.mem_of_find?_eq_some hw, low, high, exported, leave, rfl⟩
  · next other =>
    split at h
    · next route =>
      simp only [List.any_eq_true, Bool.and_eq_true, decide_eq_true_eq] at route
      exact .inr ⟨other, route, (Option.some.inj h).symm⟩
    · cases h

/-- The group that a cluster address reaches is a mate of the sheaf's own on the core it names (R62, R64). -/
theorem State.spadGroup_clus {s : State} {a : Nat} {k : Group} (h : s.spadGroup .clus a = some k) :
    a < 2 ^ 23 ∧ ∃ g ∈ s.groups, k ∈ s.groups ∧ s.myGroup = some g ∧ s.lrec.clusterDomain = true ∧ k.task = g.task ∧
      k.gi.toList.drop 1 = g.gi.toList.drop 1 ∧ g.fromBin = false ∧ k.fromBin = false ∧ k.freed = false ∧ k.saved = false ∧
      k.core = g.core / 8 * 8 + a / 2 ^ 20 := by
  unfold State.spadGroup at h
  cases hg : s.myGroup with
  | none => simp [hg] at h
  | some g =>
    simp only [hg] at h
    split at h
    · next reach =>
      rw [Bool.and_eq_true, decide_eq_true_eq] at reach
      obtain ⟨domain, small⟩ := reach
      have mate := List.mem_of_find?_eq_some h
      have chosen := List.find?_some h
      rw [Bool.and_eq_true, Bool.not_eq_true'] at chosen
      obtain ⟨core, saved⟩ := chosen
      have core : k.core = g.core / 8 * 8 + a / 2 ^ 20 % 2 ^ 3 := of_decide_eq_true core
      simp only [State.mates, Group.sameL2, List.mem_filter, Bool.and_eq_true, decide_eq_true_eq, Bool.not_eq_true'] at mate
      obtain ⟨mem, ⟨⟨⟨task, own⟩, bin⟩, index⟩, freed⟩ := mate
      refine ⟨small, g, List.mem_of_find?_eq_some hg, mem, rfl, domain, task.symm, index.symm, own, bin, freed, saved, ?_⟩
      omega
    · cases h

/-- A piece of an access by pages lies in its translated page, or where that leads (R66-R68). -/
theorem State.placed_page {s : State} {sp : Space} {acc : Access} {z y : Site} (hsp : sp = .priv ∨ sp = .dev)
    (h : s.placed sp acc z = some y) :
    ∃ m, s.xlat s.tag z.va acc = .ok m ∧ y.map = some m ∧ s.reach s.tag acc.writes m.key = some y.key := by
  have page : (match s.xlat s.tag z.va acc with
    | .ok m => (s.reach s.tag acc.writes m.key).map fun k => { z with key := k, map := some m }
    | _ => none) = some y := by
    obtain rfl | rfl := hsp <;> exact h
  split at page
  · next m hm =>
    obtain ⟨k, hk, rfl⟩ := Option.map_eq_some_iff.1 page
    exact ⟨m, hm, rfl, hk⟩
  · cases page

section
variable {s : State} {sp : Space} {acc : Access} {w : BitVec 3} {p : Nat × Nat} {z : Site}

/-- A piece lies in its lane's access, and, of a sheaf's own frame, in one word of it (R63, R115). -/
theorem State.pieces_within (hz : z ∈ s.pieces sp (widthBytes w) p) (aligned : spadOff sp p.2 % widthBytes w = 0) :
    z.off + z.len ≤ widthBytes w ∧ (sp ≠ .priv → z.off = 0 ∧ z.va = p.2) ∧
      (sp = .priv → (p.2 + z.off) / 4 = (p.2 + z.off + z.len - 1) / 4 ∧ z.va = privVA (s.sh.rd.getS 62) p.1 (p.2 + z.off)) := by
  by_cases hp : sp = .priv
  · subst hp
    have width := widthBytes_cases w
    change p.2 % widthBytes w = 0 at aligned
    simp only [State.pieces] at hz
    split at hz
    · obtain rfl := List.mem_singleton.1 hz
      refine ⟨by simp, fun h => absurd rfl h, fun _ => ⟨?_, rfl⟩⟩
      dsimp only
      obtain h | h | h | h | h := width <;> rw [h] at aligned ⊢ <;> omega
    · obtain ⟨j, hj, rfl⟩ := List.mem_map.1 hz
      have := List.mem_range.1 hj
      refine ⟨by dsimp only; omega, fun h => absurd rfl h, fun _ => ⟨?_, rfl⟩⟩
      dsimp only
      obtain h | h | h | h | h := width <;> rw [h] at aligned <;> omega
  · rw [State.pieces_spad hp, List.mem_singleton] at hz
    subst hz
    exact ⟨by simp, fun _ => ⟨rfl, rfl⟩, fun h => absurd h hp⟩

/-- The pieces of a lane make up its access (R63, R115). -/
theorem State.pieces_cover (s : State) (sp : Space) (w : BitVec 3) (p : Nat × Nat) {j : Nat} (hj : j < widthBytes w) :
    ∃ z ∈ s.pieces sp (widthBytes w) p, z.off ≤ j ∧ j < z.off + z.len := by
  by_cases hp : sp = .priv
  · subst hp
    simp only [State.pieces]
    split
    · exact ⟨_, List.mem_singleton_self _, Nat.zero_le _, by simpa using hj⟩
    · refine ⟨_, List.mem_map_of_mem (List.mem_range.2 (?_ : j / 4 < widthBytes w / 4)), ?_, ?_⟩
      · obtain h | h | h | h | h := widthBytes_cases w <;> omega
      · dsimp only
        omega
      · dsimp only
        omega
  · rw [State.pieces_spad hp]
    exact ⟨_, List.mem_singleton_self _, Nat.zero_le _, by simpa using hj⟩

/-- A piece put in its place lies where its space says (R62-R67). -/
theorem State.placed_liesAt (range : s.inRange sp p = true) (frame : sp = .priv → (s.sh.rd.getS 62).toNat % 256 = 0)
    (aligned : spadOff sp p.2 % widthBytes w = 0) (hz : z ∈ s.pieces sp (widthBytes w) p) {y : Site}
    (hy : s.placed sp acc z = some y) : y.lane = p.1 ∧ y.off + y.len ≤ widthBytes w ∧ liesAt s sp acc p y := by
  obtain ⟨lane, off, len, va⟩ := State.placed_some hy
  obtain ⟨inside, whole, word⟩ := State.pieces_within hz aligned
  refine ⟨lane.trans (State.pieces_lane hz), by omega, ?_⟩
  cases sp with
  | priv =>
    obtain ⟨one, at_⟩ := word rfl
    obtain ⟨m, hx, hm, hr⟩ := State.placed_page (.inl rfl) hy
    have there : y.va = privVA (s.sh.rd.getS 62) p.1 (p.2 + y.off) := by rw [va, at_, off]
    refine ⟨by rw [off, len]; exact one, frame rfl, there, m, ?_, hm, hr⟩
    rw [← va, there] at hx
    exact hx
  | dev =>
    obtain ⟨start, at_⟩ := whole (by decide)
    obtain ⟨m, hx, hm, hr⟩ := State.placed_page (.inr rfl) hy
    rw [at_] at hx va
    exact ⟨off.trans start, of_decide_eq_true range, va, m, hx, hm, hr⟩
  | spad =>
    obtain ⟨start, at_⟩ := whole (by decide)
    obtain ⟨g, hg, short⟩ := State.spadGroup_of_inRange (.inl rfl) range
    obtain ⟨g', hg', rfl⟩ := Option.map_eq_some_iff.1 hy
    rw [at_, hg, Option.some.injEq] at hg'
    subst hg'
    exact ⟨start, g, hg, short, by rw [at_]; rfl⟩
  | clus =>
    obtain ⟨start, at_⟩ := whole (by decide)
    obtain ⟨k, hk, short⟩ := State.spadGroup_of_inRange (.inr rfl) range
    obtain ⟨small, g, hg, mem, own, domain, task, index, bin, kbin, freed, saved, core⟩ := State.spadGroup_clus hk
    obtain ⟨k', hk', rfl⟩ := Option.map_eq_some_iff.1 hy
    rw [at_, hk, Option.some.injEq] at hk'
    subst hk'
    exact ⟨start, small, g, hg, k, mem, own, domain, task, index, bin, kbin, freed, saved, core, short, by rw [at_]; rfl⟩
  | peer =>
    obtain ⟨start, at_⟩ := whole (by decide)
    obtain ⟨k, hk, rfl⟩ := Option.map_eq_some_iff.1 hy
    exact ⟨start, State.peerTarget_takes (at_ ▸ hk)⟩
  | host =>
    obtain ⟨start, at_⟩ := whole (by decide)
    obtain rfl := Option.some.inj hy
    exact ⟨start, by rw [at_]⟩

end

/-- The clauses of a plan that passes its checks (R62-R67, R120). -/
theorem State.plan_liesAt {s : State} {sp : Space} {acc : Access} {w : BitVec 3} {ps : List (Nat × Nat)} {q : Plan}
    (h : s.plan sp acc (widthBytes w) true ps = .ok q) :
    (∀ y ∈ q.sites, ∃ p ∈ ps, y.lane = p.1 ∧ y.off + y.len ≤ widthBytes w ∧ liesAt s sp acc p y) ∧
    (∀ p ∈ ps, p.1 ∉ q.rejected → ∀ j < widthBytes w,
      ∃ y ∈ q.sites, y.lane = p.1 ∧ y.off ≤ j ∧ j < y.off + y.len ∧ liesAt s sp acc p y) ∧
    (sp = .peer → ∀ p ∈ ps, (∀ k, ¬ peerTakes s acc.writes p.2 k) → p.1 ∈ q.rejected) := by
  obtain ⟨range, frame, aligned, -, rejected⟩ := State.plan_ok h
  have lies {p : Nat × Nat} (hp : p ∈ ps) {z y : Site} := State.placed_liesAt (acc := acc) (w := w) (z := z) (y := y) (range p hp)
    (fun e => frame e (List.ne_nil_of_mem hp)) (aligned rfl p hp)
  have turned {p : Nat × Nat} (hp : p ∈ ps) {z : Site} (hz : z ∈ s.pieces sp (widthBytes w) p) (none : s.placed sp acc z = none) :
      p.1 ∈ q.rejected := by
    rw [rejected, ← State.pieces_lane hz]
    exact List.mem_map_of_mem (List.mem_filter.2 ⟨List.mem_flatMap.2 ⟨p, hp, hz⟩, by rw [none]; rfl⟩)
  refine ⟨fun y hy => ?_, fun p hp kept j hj => ?_, fun peer p hp untaken => ?_⟩
  · obtain ⟨p, hp, z, hz, hy⟩ := (State.mem_plan_sites h).1 hy
    exact ⟨p, hp, lies hp hz hy⟩
  · obtain ⟨z, hz, low, high⟩ := s.pieces_cover sp w p hj
    cases hy : s.placed sp acc z with
    | none => exact absurd (turned hp hz hy) kept
    | some y =>
      obtain ⟨lane, -, there⟩ := lies hp hz hy
      obtain ⟨-, off, len, -⟩ := State.placed_some hy
      exact ⟨y, (State.mem_plan_sites h).2 ⟨p, hp, z, hz, hy⟩, lane, by omega, by omega, there⟩
  · subst peer
    refine turned hp (z := { lane := p.1, off := 0, len := widthBytes w, va := p.2, key := 0, map := none })
      (List.mem_singleton_self _) ?_
    cases hk : s.peerTarget acc.writes p.2 with
    | none => simp only [State.placed, hk, Option.map_none]
    | some k => exact absurd (State.peerTarget_takes hk) (untaken k)

/-! ### Lanes out of range, and misaligned lanes (R118) -/

section
variable {s : State} {sp : Space} {acc : Access} {n : Nat} {ps : List (Nat × Nat)}

/-- A lane out of range is found before any other fault, and all of them are reported. -/
theorem State.plan_range (h : ∃ p ∈ ps, s.inRange sp p = false) (align : Bool) :
    s.plan sp acc n align ps = .error (.trap .range (some (lanesMask ((ps.filter fun p => !s.inRange sp p).map Prod.fst)))) := by
  obtain ⟨p, hp, far⟩ := h
  have some : (ps.filter fun p => !s.inRange sp p) ≠ [] := List.ne_nil_of_mem (List.mem_filter.2 ⟨hp, by rw [far]; rfl⟩)
  simp only [State.plan, if_pos some]

/-- A misaligned lane is found next, and all of them are reported. -/
theorem State.plan_align (hsp : sp ≠ .priv) (range : ∀ p ∈ ps, s.inRange sp p = true) (h : ∃ p ∈ ps, spadOff sp p.2 % n ≠ 0) :
    s.plan sp acc n true ps =
      .error (.trap .align (some (lanesMask ((ps.filter fun p => spadOff sp p.2 % n ≠ 0).map Prod.fst)))) := by
  obtain ⟨p, hp, odd⟩ := h
  have none : ¬ (ps.filter fun p => !s.inRange sp p) ≠ [] := by simpa [List.filter_eq_nil_iff] using range
  have some : (ps.filter fun p => decide (spadOff sp p.2 % n ≠ 0)) ≠ [] :=
    List.ne_nil_of_mem (List.mem_filter.2 ⟨hp, decide_eq_true odd⟩)
  have frame : ¬ (sp = .priv && ps ≠ [] && (s.sh.rd.getS 62).toNat % 256 ≠ 0) = true := by simp [hsp]
  simp only [State.plan, if_neg none, if_neg frame, Bool.true_and, decide_eq_true_eq, if_pos some]

/-- The mask of the active lanes whose address meets a condition. -/
theorem State.lanesMask_filter (s : State) (sp : Space) (a : VCode) (ofs : Int) (keep : Nat × Nat → Bool) {l : Nat} (hl : l < 64) :
    (lanesMask (((s.laneAddrs sp a ofs).filter keep).map Prod.fst)).getLsbD l = true ↔
      s.sh.em.getLsbD l = true ∧ keep (l, s.laneAddr sp a ofs l) = true := by
  simp only [lanesMask, maskOf_bit _ hl, List.contains_iff_mem, List.mem_map, List.mem_filter, State.mem_laneAddrs]
  constructor
  · rintro ⟨⟨l', x⟩, ⟨⟨-, active, address⟩, kept⟩, lane⟩
    dsimp only at active address lane
    subst lane address
    exact ⟨active, kept⟩
  · rintro ⟨active, kept⟩
    exact ⟨_, ⟨⟨hl, active, rfl⟩, kept⟩, rfl⟩

end

/-- A trap that names its lanes takes the group back at once, with nothing in flight (R441, R442). -/
theorem State.trapWord_lanes {s : State} (h : canTrap s) {c : Cause} (bkpt : c ≠ .bkpt) (i : Instr) (m : DWord) :
    entered s (s.trapWord i c (some m)) c.code s.sh.pc s.sh.pc m (s.aux i) ∧ (s.trapWord i c (some m)).sh.loads = [] := by
  let u := s.upd fun h => { h with trapped := some ⟨c, m, s.aux i⟩ }
  let p : PendTrap := { kind := .group, cause := c, pc := some s.sh.pc, mask := m, aux := s.aux i }
  have can : canTrap u := h
  refine ⟨(State.takeTrap_enters (s := u) (p := p) can bkpt rfl s.sh.pc s.sh.pc).1, ?_⟩
  obtain ⟨hnd, -, loads, loops, replays, rep, base, target⟩ := can
  change (u.takeTrap p s.sh.pc s.sh.pc).sh.loads = []
  rw [State.takeTrap_idle loads loops replays rep, State.enterHandler_valid hnd (by simp [p, bkpt]) base target]
  exact loads

/-- What an access does whose word is a load or a store that issues and whose lanes lie at the addresses `addr` below `limit`: RANGE with
the lanes out of range, else ALIGN with the misaligned ones. -/
theorem access_traps {s : State} (can : canTrap s) (wait : s.sh.wait = none) {i : Instr} {sp : Space} {acc : Access} {w : BitVec 3}
    {a : VCode} {ofs : Int} (runs : ∀ b, s.plan sp acc (widthBytes w) true (s.laneAddrs sp a ofs) = .error b →
      exec i s = .next (s.blocked i acc b)) (hsp : sp ≠ .priv ∧ sp ≠ .clus) {addr : Nat → Int} {limit : Int}
    (address : ∀ l, (s.laneAddr sp a ofs l : Int) = addr l)
    (range : ∀ l, s.inRange sp (l, s.laneAddr sp a ofs l) = decide (addr l < limit)) :
    let far := fun (l : Nat) => limit ≤ addr l
    let odd := fun (l : Nat) => addr l % (widthBytes w : Int) ≠ 0
    ((∃ l < 64, s.sh.em.getLsbD l = true ∧ far l) → ∃ t x, exec i s = .next t ∧ t.sh.trcause = 0x19 ∧ t.sh.trmask = x ∧
      t.sh.hnd = true ∧ t.mem = s.mem ∧ t.sh.loads = [] ∧ ∀ l, l < 64 → (x.getLsbD l = true ↔ s.sh.em.getLsbD l = true ∧ far l)) ∧
    ((∀ l < 64, s.sh.em.getLsbD l = true → ¬ far l) → (∃ l < 64, s.sh.em.getLsbD l = true ∧ odd l) →
      ∃ t x, exec i s = .next t ∧ t.sh.trcause = 0x18 ∧ t.sh.trmask = x ∧ t.sh.hnd = true ∧ t.mem = s.mem ∧ t.sh.loads = [] ∧
        ∀ l, l < 64 → (x.getLsbD l = true ↔ s.sh.em.getLsbD l = true ∧ odd l)) := by
  intro far odd
  have off (x : Nat) : spadOff sp x = x := if_neg hsp.2
  have isFar (l : Nat) : (!s.inRange sp (l, s.laneAddr sp a ofs l)) = true ↔ far l := by
    rw [range, Bool.not_eq_true', decide_eq_false_iff_not, Int.not_lt]
  have isOdd (l : Nat) : decide (spadOff sp (s.laneAddr sp a ofs l) % widthBytes w ≠ 0) = true ↔ odd l := by
    rw [decide_eq_true_eq, off, ← Int.natCast_ne_zero, Int.natCast_emod, address]
  -- a trap with these lanes, once the plan has found them
  have trapped {c : Cause} (bkpt : c ≠ .bkpt) {keep : Nat × Nat → Bool} {P : Nat → Prop}
      (isP : ∀ l, keep (l, s.laneAddr sp a ofs l) = true ↔ P l)
      (plan : s.plan sp acc (widthBytes w) true (s.laneAddrs sp a ofs) =
        .error (.trap c (some (lanesMask (((s.laneAddrs sp a ofs).filter keep).map Prod.fst))))) :
      ∃ t x, exec i s = .next t ∧ t.sh.trcause = c.code ∧ t.sh.trmask = x ∧ t.sh.hnd = true ∧ t.mem = s.mem ∧ t.sh.loads = [] ∧
        ∀ l, l < 64 → (x.getLsbD l = true ↔ s.sh.em.getLsbD l = true ∧ P l) := by
    have run := runs _ plan
    rw [State.blocked, State.unhold_of_wait wait] at run
    obtain ⟨⟨-, -, mask, cause, -, -, -, -, -, -, -, -, hnd, -, -, -, -, -, -, mem, -⟩, loads⟩ := State.trapWord_lanes can bkpt i
      (lanesMask (((s.laneAddrs sp a ofs).filter keep).map Prod.fst))
    exact ⟨_, _, run, cause, mask, hnd, mem, loads, fun l hl => by rw [State.lanesMask_filter s sp a ofs keep hl, isP]⟩
  constructor
  · rintro ⟨l, hl, active, out⟩
    refine trapped (c := .range) (by decide) isFar (State.plan_range
      ⟨(l, s.laneAddr sp a ofs l), State.mem_laneAddrs.2 ⟨hl, active, rfl⟩, ?_⟩ true)
    simpa using (isFar l).2 out
  · rintro inside ⟨l, hl, active, misaligned⟩
    refine trapped (c := .align) (by decide) isOdd (State.plan_align hsp.1 (fun p hp => ?_)
      ⟨(l, s.laneAddr sp a ofs l), State.mem_laneAddrs.2 ⟨hl, active, rfl⟩, of_decide_eq_true ((isOdd l).2 misaligned)⟩)
    obtain ⟨lane, active, at_⟩ := State.mem_laneAddrs.1 hp
    rw [show p = (p.1, s.laneAddr sp a ofs p.1) from Prod.ext rfl at_]
    simpa using mt (isFar p.1).1 (inside p.1 lane active)

/-- The limit of the group's own scratchpad (R62). -/
theorem State.inRange_spad {s : State} {g : Group} (h : s.myGroup = some g) (l x : Nat) :
    s.inRange .spad (l, x) = decide (x < g.spadLen) := by
  simp only [State.inRange, State.spadGroup, h]
  rfl

/-- The limit of the device space (R66). -/
theorem State.inRange_dev (s : State) (l x : Nat) : s.inRange .dev (l, x) = decide (x < 2 ^ 48) := rfl

/-- A load that fails its checks. -/
theorem State.load_blocked {s : State} {sp : Space} {w : BitVec 3} {a : VCode} {e : Option MemExt} {b : Blocked}
    (h : s.plan sp .load (widthBytes w) true (s.laneAddrs sp a (ofsOf e)) = .error b) {i : Instr} {la : BitVec 4} {d : VCode} :
    s.load i sp la w d a false e = s.blocked i .load b := by
  simp only [State.load, Bool.not_false, Bool.false_eq_true, if_false, h, State.loadWith]

/-- A store that fails its checks. -/
theorem State.store_blocked {s : State} {sp : Space} {w : BitVec 3} {a : VCode} {e : Option MemExt} {b : Blocked}
    (h : s.plan sp .store (widthBytes w) true (s.laneAddrs sp a (ofsOf e)) = .error b) {i : Instr} {d : VCode} :
    s.store i sp w d a false e = s.blocked i .store b := by
  simp only [State.store, Bool.not_false, Bool.false_eq_true, if_false, h]

/-- Settles O32: addresses by the width of their sum, places by the shape of a plan that passes, traps by the order of its checks. -/
theorem accessesTrapRangeBeforeAlign : Obligations.AccessesTrapRangeBeforeAlign := by
  unfold Obligations.AccessesTrapRangeBeforeAlign
  refine ⟨fun s a ofs l _ => ⟨s.laneAddr_word a ofs l, s.laneAddr_dword a ofs l⟩, fun s sp acc w ps q _ h => State.plan_liesAt h,
    fun s la w d a e g can snap group _ => ?_⟩
  intro off dev p hp issues
  have wait := State.issues_wait issues
  have spad (l : Nat) : (s.laneAddr .spad a (ofsOf e) l : Int) = off l := s.laneAddr_word a (ofsOf e) l .spad (by decide)
  have device (l : Nat) : (s.laneAddr .dev a (ofsOf e) l : Int) = dev l := s.laneAddr_dword a (ofsOf e) l .dev (by decide)
  have inSpad (l : Nat) : s.inRange .spad (l, s.laneAddr .spad a (ofsOf e) l) = decide (off l < (g.spadLen : Int)) := by
    rw [← spad l, State.inRange_spad group, decide_eq_decide, Int.ofNat_lt]
  have inDevice (l : Nat) : s.inRange .dev (l, s.laneAddr .dev a (ofsOf e) l) = decide (dev l < (2 ^ 48 : Int)) := by
    rw [← device l, State.inRange_dev, decide_eq_decide]
    omega
  have loads {i : Instr} {sp : Space} {b : Blocked} (h : s.issues i = true)
      (run : exec i s = s.issueWait i fun s => s.load i sp la w d a false e)
      (stop : s.plan sp .load (widthBytes w) true (s.laneAddrs sp a (ofsOf e)) = .error b) : exec i s = .next (s.blocked i .load b) := by
    rw [run, State.issueWait_of_issues h, State.load_blocked stop]
  have stores {i : Instr} {sp : Space} {b : Blocked} (h : s.issues i = true)
      (run : exec i s = s.issueWait i fun s => s.store i sp w d a false e)
      (stop : s.plan sp .store (widthBytes w) true (s.laneAddrs sp a (ofsOf e)) = .error b) : exec i s = .next (s.blocked i .store b) := by
    rw [run, State.issueWait_of_issues h, State.store_blocked stop]
  simp only [List.mem_cons, List.not_mem_nil, or_false] at hp
  obtain rfl | rfl | rfl | rfl := hp
  · exact access_traps can wait (fun _ => loads issues rfl) (by decide) spad inSpad
  · exact access_traps can wait (fun _ => stores issues rfl) (by decide) spad inSpad
  · exact access_traps can wait (fun _ => loads issues rfl) (by decide) device inDevice
  · exact access_traps can wait (fun _ => stores issues rfl) (by decide) device inDevice

end Sys2Proof.Machine
end

section
/-!
PROOFS. Loads that arrive, and lanes that a peer or the host turns away (R120, R140, R441).
-/

namespace Sys2Proof.Machine

open Sys2Proof Sys2Proof.Rules

/-- A change of the sheaf in the issue slot by its handle, where no other sheaf has it. -/
theorem State.onSheaf_alone {s : State} {uid : Nat} (h : alone s uid) (f : Sheaf → Sheaf) : s.onSheaf uid f = { s with sh := f s.sh } := by
  obtain ⟨own, others⟩ := h
  have same : (s.peers.map fun p => if p.uid = uid then f p else p) = s.peers :=
    (List.map_congr_left fun p hp => if_neg (others p hp)).trans (List.map_id' s.peers)
  simp only [State.onSheaf, State.mapSheaves, same, if_pos own]

/-- The sheaf in the issue slot by its handle. -/
theorem State.sheaf_alone {s : State} {uid : Nat} (h : alone s uid) : s.sheaf uid = some s.sh :=
  List.find?_cons_of_pos (by simpa using h.1)

/-! ### A load arrives (R140) -/

/-- A load writes the lanes of its mask in the registers of its codes, and no scalar register. -/
theorem PendLoad.write_rule (em : DWord) (ds : List (Nat × Row)) (codes : (ds.map Prod.fst).Nodup) (r : Regs) :
    let t := ds.foldl (fun r d => r.write em d.1 d.2) r
    t.w = r.w ∧ sameScalars r t ∧ ∀ c i, c < 104 → i < 64 → laneOf (t.file c) i =
      match ds.find? (fun d => d.1 = c && em.getLsbD i) with | some d => laneOf d.2 i | none => laneOf (r.file c) i := by
  induction ds generalizing r with
  | nil => exact ⟨rfl, ⟨rfl, rfl, rfl, rfl⟩, fun _ _ _ _ => rfl⟩
  | cons d ds ih =>
    rw [List.map_cons, List.nodup_cons] at codes
    obtain ⟨new, codes⟩ := codes
    obtain ⟨last, ⟨hs, hk, hem, hmode⟩, lanes⟩ := ih codes (r.write em d.1 d.2)
    refine ⟨last.trans (r.write_w ..), ⟨hs.trans (r.write_s ..), hk.trans (r.write_k ..), hem.trans (r.write_em ..),
      hmode.trans (r.write_mode ..)⟩, fun c i hc hi => (lanes c i hc hi).trans ?_⟩
    by_cases hit : d.1 = c ∧ em.getLsbD i = true
    · obtain ⟨rfl, active⟩ := hit
      have rest : (ds.find? fun x => x.1 = d.1 && em.getLsbD i) = none :=
        List.find?_eq_none.2 fun x hx => by
          simp [show x.1 ≠ d.1 from fun e => new (e ▸ List.mem_map_of_mem hx)]
      rw [rest, List.find?_cons_of_pos (by simp [active])]
      exact (r.lane_write em d.1 d.1 d.2 hi).trans (if_pos ⟨rfl, hc, active⟩)
    · rw [List.find?_cons_of_neg (by simpa using hit), r.lane_write em d.1 c d.2 hi, if_neg]
      exact fun ⟨code, _, active⟩ => hit ⟨code.symm, active⟩

/-- A load whose value is fixed arrives. -/
theorem loadDelivery_rule {s : State} {uid k : Nat} {l : PendLoad} (h : alone s uid) (live : s.sh.life = .live) (hl : s.sh.loads[k]? = some l)
    (fixed : l.waits = 0) :
    exec (.loadDelivery uid k) s = .next { s with sh := { s.sh with loads := s.sh.loads.eraseIdx k, regs := l.write s.sh.regs } } := by
  change (.next (s.onSheaf uid fun h => if h.life = .live then h.deliver k else h) : Out) = _
  rw [State.onSheaf_alone h, if_pos live, Sheaf.deliver, hl]
  simp only [fixed, if_true]

/-! ### Lanes turned away (R120, R441) -/

/-- The report of a word after its group, in numbers. -/
theorem lateAux_eq (word : Word) (dest : BitVec 9) : lateAux word dest = BitVec.ofNat 64 (word.toNat * 2 ^ 32 + dest.toNat) := by
  apply BitVec.eq_of_toNat_eq
  have hd := dest.isLt
  have hw := word.isLt
  rw [lateAux, toNat_append_add, toNat_append_add, BitVec.toNat_ofNat, BitVec.toNat_ofNat]
  omega

/-- A rejection of a word that is no copy. -/
theorem peerHostRejection_rule {s : State} {uid : Nat} {word : Word} (copy : fMaj word ≠ 0x37) (dest : BitVec 9) (lanes : DWord)
    {t : State} (ht : s.rejectFar uid word dest lanes = t) (same : alone t uid) (live : t.sh.life = .live) :
    exec (.peerHostRejection uid word dest lanes) s =
      .next { t with sh := (t.sh.rejectLanes word dest lanes).pendAsync .prot lanes (lateAux word dest) } := by
  change (.next (if fMaj word = 0x37 then _ else _) : Out) = _
  rw [if_neg copy, ht, State.onSheaf_alone same, if_pos live]

/-- What the sheaf keeps when lanes are turned away. -/
theorem Sheaf.rejectLanes_frame (h : Sheaf) (word : Word) (dest : BitVec 9) (lanes : DWord) :
    ({ h.rejectLanes word dest lanes with loads := h.loads } : Sheaf) = h ∧ (h.rejectLanes word dest lanes).loads.length = h.loads.length := by
  unfold Sheaf.rejectLanes
  dsimp only
  split
  · exact ⟨rfl, rfl⟩
  · exact ⟨rfl, List.length_modify ..⟩

/-- The oldest load that the rejection names goes on without the lanes. -/
theorem Sheaf.rejectLanes_mem {h : Sheaf} {word : Word} {dest : BitVec 9} {l : PendLoad}
    (hl : (h.loads.find? fun l => l.word = word && (l.remote || (l.atomic && l.waits = 0)) &&
      (l.dest.head?.map Prod.fst) = some dest.toNat) = some l) (lanes : DWord) :
    ({ l with em := l.em &&& ~~~lanes } : PendLoad) ∈ (h.rejectLanes word dest lanes).loads := by
  obtain ⟨named, k, hk, rfl, older⟩ := List.find?_eq_some_iff_getElem.1 hl
  have first : h.loads.findIdx? (fun l => l.word = word && (l.remote || (l.atomic && l.waits = 0)) &&
      (l.dest.head?.map Prod.fst) = some dest.toNat) = some k :=
    List.findIdx?_eq_some_iff_getElem.2 ⟨hk, named, fun j hj e => by
      have := older j hj
      rw [e] at this
      cases this⟩
  simp only [Sheaf.rejectLanes, first]
  exact List.mem_iff_getElem.2 ⟨k, by simpa using hk, by simp only [List.getElem_modify, if_true]⟩

theorem Sheaf.pendAsync_frame (h : Sheaf) (c : Cause) (lanes aux : DWord) : ({ h.pendAsync c lanes aux with pend := h.pend } : Sheaf) = h := by
  unfold Sheaf.pendAsync
  dsimp only
  split <;> rfl

/-- A sheaf whose lanes are turned away keeps all but what pends for it and the loads' lanes. -/
theorem Sheaf.turnedAway_frame (h : Sheaf) (word : Word) (dest : BitVec 9) (lanes : DWord) (c : Cause) (aux : DWord) :
    let t := (h.rejectLanes word dest lanes).pendAsync c lanes aux
    ({ t with pend := h.pend, loads := h.loads } : Sheaf) = h ∧ t.loads = (h.rejectLanes word dest lanes).loads ∧
      (h.rejectLanes word dest lanes).pend = h.pend := by
  have left := (h.rejectLanes_frame word dest lanes).1
  have told := (h.rejectLanes word dest lanes).pendAsync_frame c lanes aux
  have pend : (h.rejectLanes word dest lanes).pend = h.pend := (congrArg Sheaf.pend left :)
  refine ⟨?_, (congrArg Sheaf.loads told :), pend⟩
  exact (congrArg (fun x : Sheaf => { x with pend := h.pend, loads := h.loads }) told).trans
    (congrArg (fun x : Sheaf => { x with pend := h.pend }) left)

/-- A word that nothing pends for pends anew. -/
theorem Sheaf.pendAsync_new {h : Sheaf} {aux : DWord} (new : ∀ p ∈ h.pend, p.aux ≠ aux) (c : Cause) (lanes : DWord) :
    (h.pendAsync c lanes aux).pend = h.pend ++ [{ kind := .async, cause := c, pc := none, mask := lanes, aux := aux }] := by
  have none : ¬ (h.pend.any fun q => q.kind = .async && q.cause = c && q.aux = aux && !q.held && !q.emMask) = true := by
    rw [List.any_eq_true]
    rintro ⟨p, hp, same⟩
    simp only [Bool.and_eq_true, decide_eq_true_eq] at same
    obtain ⟨⟨⟨-, same⟩, -⟩, -⟩ := same
    exact new p hp same
  unfold Sheaf.pendAsync
  dsimp only
  rw [if_neg none]

/-- The lanes are added to the trap that pends for the word. -/
theorem Sheaf.pendAsync_add {h : Sheaf} {p : PendTrap} {c : Cause} {aux : DWord} (hp : h.pend = [p]) (kind : p.kind = .async)
    (cause : p.cause = c) (same : p.aux = aux) (held : p.held = false) (emMask : p.emMask = false) (lanes : DWord) :
    (h.pendAsync c lanes aux).pend = [{ p with mask := p.mask ||| lanes }] := by
  simp [Sheaf.pendAsync, hp, kind, cause, same, held, emMask]

/-- No write that may still be turned away is named. -/
theorem State.rejectFar_none {s : State} {uid : Nat} (h : alone s uid) {word : Word} {dest : BitVec 9} {lanes : DWord}
    (none : s.sh.farHit word dest lanes = none) : s.rejectFar uid word dest lanes = s := by
  simp only [State.rejectFar, State.sheaf_alone h, Option.bind_some, none, Option.bind_none]

/-- A lane of a write that left its bytes in place takes them back (R120). -/
theorem State.rejectFar_single {s : State} {uid : Nat} (h : alone s uid) {word : Word} {dest : BitVec 9} {lanes : DWord} {l k : Nat}
    {old new : List Byte} (far : s.sh.far = [{ word := word, dest := dest, lanes := [(l, k, old, new)] }]) (lane : lanes.getLsbD l = true)
    (there : readBytes s.mem k new.length = new) :
    s.rejectFar uid word dest lanes = { s with
      mem := writeBytes s.mem k old
      sh := { s.sh with far := [{ word := word, dest := dest, lanes := [] }] } } := by
  have hit : s.sh.farHit word dest lanes = some 0 := by
    by_cases sent : new = [] <;> simp [Sheaf.farHit, far, lane, sent, List.findIdx?_cons]
  have undone : s.undoFar [(l, k, old, new)] = { s with mem := writeBytes s.mem k old } := if_pos there
  simp only [State.rejectFar, State.sheaf_alone h, Option.bind_some, hit, far, List.getElem?_cons_zero, Option.map_some, List.filter_cons,
    List.filter_nil, lane, if_true, undone]
  rw [State.onSheaf_alone (s := { s with mem := writeBytes s.mem k old }) h]
  simp [far, lane]

end Sys2Proof.Machine
end

section
/-!
PROOFS. Pages that the driver resolves, and pages that it invalidates (R74, R75, R446).
-/

namespace Sys2Proof.Machine

open Sys2Proof Sys2Proof.Rules

/-! ### Work looked at again -/

/-- Iguana with nothing to write. -/
theorem State.igPump_none {s : State} (h : s.iwrites = []) : s.igPump = s := by
  have same : ({ s with iwrites := [] } : State) = s := by rw [← h]
  simp only [State.igPump, h, List.foldl_nil]
  exact same

theorem State.post_twice (s : State) (es fs : List Event) : (s.post es).post fs = s.post (es ++ fs) := by
  simp only [State.post, List.append_assoc]

/-- Looking at the queues of a context posts what comes next and no more. -/
theorem State.queuesGo_posts (s : State) (tag : BitVec 12) : ∃ es, s.queuesGo tag = s.post es := by
  have fold (fn : Nat) (qs : List Nat) (s : State) : ∃ es, qs.foldl (fun t q => t.queueGo fn q) s = s.post es := by
    induction qs generalizing s with
    | nil => exact ⟨[], by simp [State.post]⟩
    | cons q qs ih =>
      obtain ⟨es, rest⟩ := ih (s.queueGo fn q)
      exact ⟨_, rest.trans (s.post_twice _ _)⟩
  unfold State.queuesGo
  split
  · exact ⟨[], by simp [State.post]⟩
  · exact fold _ _ _

/-- What may go on once memory of a context has changed is posted. -/
theorem State.stirContext_posts (s : State) (tag : BitVec 12) : ∃ es, s.stirContext tag = s.post es := by
  obtain ⟨es, h⟩ := s.queuesGo_posts tag
  rw [State.stirContext, h]
  exact ⟨_, s.post_twice _ _⟩

/-! ### A page resolved (R74) -/

/-- Of the machine the memory and what Iguana has to write, and of the sheaf in the issue slot all but its copies, are the same. -/
def copiesAlone (s t : State) : Prop :=
  t.mem = s.mem ∧ t.iwrites = s.iwrites ∧
    ({ t.sh with batches := s.sh.batches, openCpys := s.sh.openCpys, openProg := s.sh.openProg } : Sheaf) = s.sh

theorem copiesAlone.refl (s : State) : copiesAlone s s := ⟨rfl, rfl, rfl⟩

theorem copiesAlone.trans {s t u : State} (h : copiesAlone s t) (h' : copiesAlone t u) : copiesAlone s u := by
  obtain ⟨mem, writes, rest⟩ := h
  obtain ⟨mem', writes', rest'⟩ := h'
  refine ⟨mem'.trans mem, writes'.trans writes, ?_⟩
  rw [← rest]
  conv_rhs => rw [← rest']

theorem State.setBatch_copies (s : State) (shut : Bool) (b : Batch) : copiesAlone s (s.setBatch shut b) := by
  cases shut <;> exact ⟨rfl, rfl, rfl⟩

theorem State.retireDone_copies (s : State) (b : Batch) : copiesAlone s (s.retireDone b) := ⟨rfl, rfl, rfl⟩

theorem State.resolveBatch_copies (s : State) (page : Nat) (ok shut : Bool) (b : Batch) : copiesAlone s (s.resolveBatch page ok shut b) := by
  unfold State.resolveBatch
  split
  · exact .refl s
  · dsimp only
    split
    · exact s.setBatch_copies ..
    · exact (s.retireDone_copies _).trans (State.setBatch_copies ..)

theorem State.resolveCopies_copies (s : State) (page : Nat) (ok : Bool) : copiesAlone s (s.resolveCopies page ok) := by
  have fold (bs : List Batch) (t : State) : copiesAlone t (bs.foldl (fun t b => t.resolveBatch page ok true b) t) := by
    induction bs generalizing t with
    | nil => exact .refl t
    | cons b bs ih => exact (t.resolveBatch_copies page ok true b).trans (ih _)
  exact (s.resolveBatch_copies page ok false s.sh.openBatch).trans (fold _ _)

/-- A sheaf of the context learns of a page. -/
def State.learn (page : Nat) (ok : Bool) (x : State) : State := (x.upd fun h => h.resolve page ok).resolveCopies page ok

/-- Memory, and what the sheaf in the issue slot keeps, when it learns of a page. -/
theorem State.learn_rule (x : State) (page : Nat) (ok : Bool) :
    let t := State.learn page ok x
    let h := x.sh.resolve page ok
    t.mem = x.mem ∧ t.iwrites = x.iwrites ∧ t.sh.parked = h.parked ∧ t.sh.badPages = h.badPages ∧ t.sh.regs = h.regs ∧ t.sh.pc = h.pc := by
  obtain ⟨mem, writes, rest⟩ := (x.upd fun h => h.resolve page ok).resolveCopies_copies page ok
  exact ⟨mem, writes, (congrArg Sheaf.parked rest :), (congrArg Sheaf.badPages rest :), (congrArg Sheaf.regs rest :), (congrArg Sheaf.pc rest :)⟩

/-- The sheaf in the issue slot runs again, with these pages known for bad and all else as before. -/
def runsAgain (s t : State) (bad : List DWord) : Prop :=
  t.mem = s.mem ∧ t.iwrites = [] ∧ t.sh.parked = [] ∧ t.sh.badPages = bad ∧ t.sh.regs = s.sh.regs ∧ t.sh.pc = s.sh.pc

/-- A sheaf that runs is not touched by what the sheaves of its context learn. -/
theorem runsAgain.learn {s t : State} {bad : List DWord} (h : runsAgain s t bad) (page : Nat) (ok : Bool) (u : Nat) :
    runsAgain s (t.as u (State.learn page ok)) bad := by
  obtain ⟨mem, writes, parked, pages, regs, pc⟩ := h
  unfold State.as
  split
  · obtain ⟨mem', writes', parked', pages', regs', pc'⟩ := t.learn_rule page ok
    have runs : t.sh.resolve page ok = t.sh := by simp [Sheaf.resolve, parked]
    rw [runs] at parked' pages' regs' pc'
    exact ⟨mem'.trans mem, writes'.trans writes, parked'.trans parked, pages'.trans pages, regs'.trans regs, pc'.trans pc⟩
  · split
    · exact ⟨mem, writes, parked, pages, regs, pc⟩
    · next h _ =>
      obtain ⟨mem', writes', -⟩ := State.learn_rule { t with sh := h } page ok
      exact ⟨mem'.trans mem, writes'.trans writes, parked, pages, regs, pc⟩

/-- The driver reports the page that the sheaf in the issue slot waits for (R74, R446). -/
theorem faultResolved_rule {s : State} {va : DWord} {ok : Bool} (waits : s.sh.parked ≠ [])
    (page : ∀ p ∈ s.sh.parked, p.1.toNat / 65536 = va.toNat / 65536) (writes : s.iwrites = []) :
    ∃ t, exec (.faultResolved s.tag va ok) s = .next t ∧ runsAgain s t
      (if ok then s.sh.badPages else s.sh.badPages ++ [BitVec.ofNat 64 (va.toNat / 65536 * 65536)]) := by
  let bad := if ok then s.sh.badPages else s.sh.badPages ++ [BitVec.ofNat 64 (va.toNat / 65536 * 65536)]
  have own : runsAgain s (s.as s.sh.uid (State.learn (va.toNat / 65536) ok)) bad := by
    have learned : s.sh.resolve (va.toNat / 65536) ok = { s.sh with parked := [], badPages := bad } := by
      have hit : (s.sh.parked.any fun p => p.1.toNat / 65536 = va.toNat / 65536) = true := by
        obtain ⟨p, hp⟩ := List.exists_mem_of_ne_nil _ waits
        exact List.any_eq_true.2 ⟨p, hp, decide_eq_true (page p hp)⟩
      have none : (s.sh.parked.filter fun p => p.1.toNat / 65536 ≠ va.toNat / 65536) = [] :=
        List.filter_eq_nil_iff.2 fun p hp => by simpa using page p hp
      rw [Sheaf.resolve, if_pos hit, none]
    obtain ⟨mem, writes', parked, pages, regs, pc⟩ := s.learn_rule (va.toNat / 65536) ok
    rw [learned] at parked pages regs pc
    rw [State.as, if_pos rfl]
    exact ⟨mem, writes'.trans writes, parked, pages, regs, pc⟩
  have fold (us : List Nat) (t : State) (ht : runsAgain s t bad) :
      runsAgain s (us.foldl (fun t u => t.as u (State.learn (va.toNat / 65536) ok)) t) bad := by
    induction us generalizing t with
    | nil => exact ht
    | cons u us ih => exact ih _ (ht.learn _ _ u)
  have mine : (s.sheaves.filter fun h => s.tagOf h = s.tag).map Sheaf.uid =
      s.sh.uid :: (s.peers.filter fun h => s.tagOf h = s.tag).map Sheaf.uid := by
    rw [State.sheaves, List.filter_cons_of_pos (by simp [State.tag]), List.map_cons]
  have all := fold ((s.peers.filter fun h => s.tagOf h = s.tag).map Sheaf.uid) _ own
  refine ⟨_, rfl, ?_⟩
  rw [mine]
  cases ok with
  | false => exact all
  | true =>
    change runsAgain s ((State.igPump (State.onContext _ _ _)).stirContext _) bad
    obtain ⟨-, done, -⟩ := id all
    rw [State.igPump_none (by exact done)]
    obtain ⟨es, stirred⟩ := State.stirContext_posts (State.onContext _ _ _) s.tag
    rw [stirred]
    exact all

end Sys2Proof.Machine
end

section
/-!
PROOFS. What records, counters and traces leave as it is: translation caches, parked operations, Iguana's writes and contexts
(R72, R76, R79-R82, R490-R495).
-/

namespace Sys2Proof.Machine

open Sys2Proof Sys2Proof.Rules

/-- No line holds an error, correctable or not (R88-R90). -/
def errorFree (s : State) : Prop := s.badLines = [] ∧ s.weak = []

/-- Translation caches, parked operations, Iguana's writes and contexts are the same, and no error has come up. -/
structure keepsTables (s t : State) : Prop where
  tlb : t.tlb = s.tlb
  parking : t.parking = s.parking
  iwrites : t.iwrites = s.iwrites
  contexts : t.contexts = s.contexts
  noError : errorFree s → errorFree t

namespace keepsTables
variable {s t u : State}

theorem refl (s : State) : keepsTables s s := ⟨rfl, rfl, rfl, rfl, id⟩

theorem trans (h : keepsTables s t) (h' : keepsTables t u) : keepsTables s u :=
  ⟨h'.tlb.trans h.tlb, h'.parking.trans h.parking, h'.iwrites.trans h.iwrites, h'.contexts.trans h.contexts, h'.noError ∘ h.noError⟩

theorem ite {c : Prop} [Decidable c] (h : keepsTables s t) (h' : keepsTables s u) : keepsTables s (if c then t else u) := by
  split
  · exact h
  · exact h'

theorem when {c : Prop} [Decidable c] (h : keepsTables s t) : keepsTables s (if c then t else s) := .ite h (refl s)

theorem foldl {α : Type} {f : State → α → State} (step : ∀ t x, keepsTables t (f t x)) (xs : List α) (s : State) :
    keepsTables s (xs.foldl f s) := by
  induction xs generalizing s with
  | nil => exact refl s
  | cons x xs ih => exact (step s x).trans (ih _)

/-- What another sheaf does meanwhile. -/
theorem as {f : State → State} (step : ∀ t, keepsTables t (f t)) (s : State) (u : Nat) : keepsTables s (s.as u f) := by
  unfold State.as
  split
  · exact step s
  · split
    · exact refl s
    · next h _ =>
      obtain ⟨tlb, parking, iwrites, contexts, errors⟩ := step { s with sh := h }
      exact ⟨tlb, parking, iwrites, contexts, errors⟩

theorem onSheaf (s : State) (u : Nat) (f : Sheaf → Sheaf) : keepsTables s (s.onSheaf u f) := ⟨rfl, rfl, rfl, rfl, id⟩

theorem onFn (s : State) (n : Nat) (f : VirtFn → VirtFn) : keepsTables s (s.onFn n f) := by
  unfold State.onFn
  split <;> exact ⟨rfl, rfl, rfl, rfl, id⟩

theorem onCluster (s : State) (n : Nat) (f : Cluster → Cluster) : keepsTables s (s.onCluster n f) := by
  unfold State.onCluster
  split <;> exact ⟨rfl, rfl, rfl, rfl, id⟩

theorem interrupt (s : State) (fn source : Nat) : keepsTables s (s.interrupt fn source) := .ite (refl s) ⟨rfl, rfl, rfl, rfl, id⟩

/-- Errors that the code corrects are corrected (R89). -/
theorem correct (s : State) (ks : List Nat) : keepsTables s (s.correct ks) := by
  have same := s.correct_frame ks
  refine ⟨(congrArg State.tlb same :), (congrArg State.parking same :), (congrArg State.iwrites same :), (congrArg State.contexts same :),
    fun clean => ?_⟩
  rw [State.correct_none clean.2]
  exact clean

theorem clearLine (s : State) (k : Nat) : keepsTables s (s.clearLine k) := by
  have same := (s.clearRange 0 (lineOf k) 64).logAt_frame (keyDie k) (keyArray k ++ ": uncorrectable error, line cleared") (lineOf k) 0
  refine ⟨(congrArg State.tlb same :), (congrArg State.parking same :), (congrArg State.iwrites same :), (congrArg State.contexts same :),
    fun ⟨bad, weak⟩ => ⟨(congrArg State.badLines same :).trans ?_, (congrArg State.weak same :).trans weak⟩⟩
  simp [State.clearRange, bad]

theorem meetLine (s : State) (k : Nat) (whole : Bool) : keepsTables s (s.meetLine k whole).1 := by
  have corrected := correct s [k]
  unfold State.meetLine
  dsimp only
  split
  · exact corrected
  · split
    · refine corrected.trans ⟨rfl, rfl, rfl, rfl, fun ⟨bad, weak⟩ => ⟨?_, weak⟩⟩
      simp [bad]
    · split
      · exact corrected.trans ⟨rfl, rfl, rfl, rfl, id⟩
      · exact corrected.trans (clearLine _ _)

theorem putFor (s : State) (tag : BitVec 12) (k : Nat) (bs : List Byte) : keepsTables s (s.putFor tag k bs) := by
  have met := meetLine s k (bs.length = 64 && k % 64 = 0)
  unfold State.putFor
  split <;> rename_i e <;> rw [e] at met
  · exact met.trans ⟨rfl, rfl, rfl, rfl, id⟩
  · exact met

theorem putVA (s : State) (tag : BitVec 12) (va : Nat) (bs : List Byte) : keepsTables s (s.putVA tag va bs) := by
  have walked : keepsTables s (s.correctWalk tag va) := .ite (refl s) (correct s _)
  unfold State.putVA
  split
  · exact ⟨rfl, rfl, rfl, rfl, id⟩
  · dsimp only
    split
    · split
      · exact walked.trans (putFor _ _ _ _)
      · exact walked
    · exact walked

/-! ### Traces and counters (R490-R495) -/

theorem traceRec (s : State) (fn : Nat) (tag : BitVec 12) (bs : List Byte) : keepsTables s (s.traceRec fn tag bs) := by
  unfold State.traceRec
  split
  · exact refl s
  · exact .ite ((putVA s _ _ _).trans (onFn _ _ _)) (onFn s _ _)

theorem beginTrace (s : State) (fn : Nat) (tag : BitVec 12) (source : Nat) : keepsTables s (s.beginTrace fn tag source) := by
  unfold State.beginTrace
  split
  · exact .ite ((onFn s _ _).trans (traceRec _ _ _ _)) (refl s)
  · exact refl s

theorem stopTrace (s : State) (fn source : Nat) : keepsTables s (s.stopTrace fn source) := onFn s fn _

theorem count (s : State) (tag : BitVec 12) (core : Nat) (e : Counted) (x : Nat) : keepsTables s (s.count tag core e x) := by
  unfold State.count
  refine .ite (refl s) ?_
  dsimp only
  split
  · exact refl s
  · refine foldl (fun t n => .ite (refl t) ?_) _ s
    have bumped := onCluster t (core / 8) fun k => k.bump n (BitVec.ofNat 64 x)
    refine .ite bumped (bumped.trans ?_)
    exact ((when (interrupt _ _ _)).trans (when (beginTrace _ _ _ _))).trans (when (stopTrace _ _ _))

theorem countMine (s : State) (e : Counted) (x : Nat) : keepsTables s (s.countMine e x) := count s _ _ e x

theorem traceWrite (s : State) (tag : BitVec 12) (core : Nat) (sheaf : BitVec 32) (changed : Nat → Bool) (ws : List (Nat × Byte)) :
    keepsTables s (s.traceWrite tag core sheaf changed ws) := by
  refine foldl (fun t u => ?_) _ s
  split
  · exact refl t
  · refine .ite (refl t) ?_
    exact ((when (beginTrace _ _ _ _)).trans (when (traceRec _ _ _ _))).trans (when (stopTrace _ _ _))

theorem traceMine (s : State) (old : List Host.Cell) (va k : Nat) (bs : List Byte) : keepsTables s (s.traceMine old va k bs) :=
  .ite (traceWrite s _ _ _ _ _) (refl s)

/-! ### Notices and page counters (R76, R79-R81) -/

theorem notify (s : State) (part : Nat) (n : Notice) (keep : Bool) : keepsTables s (s.notify part n keep) := by
  have parted (u : State) (f : Partition → Partition) : keepsTables u (u.onPart part f) := ⟨rfl, rfl, rfl, rfl, id⟩
  unfold State.notify
  split
  · exact refl s
  · exact .ite (((putVA s _ _ _).trans (parted _ _)).trans (interrupt _ _ _)) (.ite (parted s _) (parted s _))

theorem bumpCounts (s : State) (key page lines : Nat) (remote : Bool) (who : Toucher) :
    keepsTables s (s.bumpCounts key page lines remote who) := by
  have put (u : State) (k : Nat) (bs : List Byte) : keepsTables u (u.putBytes who.tag k bs) := ⟨rfl, rfl, rfl, rfl, id⟩
  have bump {c : Prop} [Decidable c] (u : State) (k : Nat) (bs : List Byte) (n : Notice) :
      keepsTables u (if c then (u.putBytes who.tag k bs).notify who.part n false else u.putBytes who.tag k bs) :=
    .ite ((put u k bs).trans (notify _ _ _ _)) (put u k bs)
  have met := meetLine s key false
  unfold State.bumpCounts
  dsimp only
  split <;> rename_i e <;> rw [e] at met
  · exact met
  · exact met.trans (.ite ((bump _ _ _ _).trans (bump _ _ _ _)) (bump _ _ _ _))

end keepsTables

end Sys2Proof.Machine
end

section
/-!
PROOFS. Translation caches: what a look-up puts in, and what an invalidation takes out (R72, R75).
-/

namespace Sys2Proof.Machine

open Sys2Proof Sys2Proof.Rules

/-! ### A look-up (R72) -/

section
variable (xs : List Cached) (cap slot : Nat) (e : Cached)

theorem mem_fillTlb_self : e ∈ fillTlb xs cap slot e := by
  unfold fillTlb
  split <;> simp

theorem mem_fillTlb {x : Cached} (h : x ∈ fillTlb xs cap slot e) : x ∈ xs ∨ x = e := by
  unfold fillTlb at h
  split at h
  · exact (List.mem_append.1 h).imp List.mem_of_mem_filter List.mem_singleton.1
  · exact (List.mem_append.1 h).imp id List.mem_singleton.1

/-- An entry that goes is one of the cache that fills. -/
theorem mem_fillTlb_other {x : Cached} (h : x ∈ xs) (other : x.cache ≠ e.cache) : x ∈ fillTlb xs cap slot e := by
  unfold fillTlb
  split
  · next old found =>
    have own : old.cache = e.cache := by simpa using (List.mem_filter.1 (List.mem_of_getElem? found)).2
    have stays : x ≠ old := fun same => other (same ▸ own)
    exact List.mem_append_left _ (List.mem_filter.2 ⟨h, decide_eq_true stays⟩)
  · exact List.mem_append_left _ h

/-- The entries that one cache holds. -/
def heldBy (c : Nat) (xs : List Cached) : List Cached := xs.filter (·.cache = c)

/-- No other cache grows. -/
theorem fillTlb_other {c : Nat} (other : e.cache ≠ c) : (heldBy c (fillTlb xs cap slot e)).length ≤ (heldBy c xs).length := by
  have new : heldBy c [e] = [] := by simp [heldBy, other]
  unfold fillTlb
  split
  · rw [heldBy, List.filter_append, ← heldBy, ← heldBy, new, List.append_nil]
    exact ((List.filter_sublist (l := xs)).filter _).length_le
  · rw [heldBy, List.filter_append, ← heldBy, ← heldBy, new, List.append_nil]

/-- The cache that fills holds no more than it may. -/
theorem fillTlb_full (room : 0 < cap) (fits : ¬ cap < (heldBy e.cache xs).length) : ¬ cap < (heldBy e.cache (fillTlb xs cap slot e)).length := by
  have new : heldBy e.cache [e] = [e] := by simp [heldBy]
  unfold fillTlb
  split
  · next old found =>
    have held : old ∈ heldBy e.cache xs := List.mem_of_getElem? found
    have less : (heldBy e.cache (xs.filter (· ≠ old))).length < (heldBy e.cache xs).length := by
      rw [heldBy, List.filter_comm, ← heldBy]
      exact List.length_filter_lt_length_iff_exists.2 ⟨old, held, by simp⟩
    rw [heldBy, List.filter_append, ← heldBy, ← heldBy, new, List.length_append, List.length_singleton]
    omega
  · next none =>
    have short : (heldBy e.cache xs).length ≤ slot % cap := List.getElem?_eq_none_iff.1 none
    have := Nat.mod_lt slot room
    rw [heldBy, List.filter_append, ← heldBy, ← heldBy, new, List.length_append, List.length_singleton]
    omega

end

/-- An entry of a page that a cache holds. -/
theorem State.cached_of_mem {s : State} {x : Cached} (h : x ∈ s.tlb) (room : 0 < x.size) : s.cached x.cache x.tag x.page = true :=
  List.any_eq_true.2 ⟨x, h, by simp [room]⟩

section
variable {s : State} {p : Nat × Nat} {n : Nat}

/-- The core's cache misses a page that the cluster's holds. -/
theorem State.lookUp_above (core : s.cached s.core s.tag p.1 = false) (above : s.cached (512 + s.core / 8) s.tag p.1 = true) :
    s.lookUp p n = { s.countMine .tlbMisses 1 with
      tlb := fillTlb s.tlb Config.coreTlb (Config.tlbSlot s.gtc (2 * n)) ⟨s.core, s.tag, p.1, p.2⟩ } := by
  simp only [State.lookUp, core, above, Bool.false_eq_true, if_false, if_true, (keepsTables.countMine s _ _).tlb]

/-- Both caches miss a page, and it is walked. -/
theorem State.lookUp_walk (core : s.cached s.core s.tag p.1 = false) (above : s.cached (512 + s.core / 8) s.tag p.1 = false) :
    s.lookUp p n = { (s.countMine .tlbMisses 1).countMine .walks 1 with
      tlb := fillTlb (fillTlb s.tlb Config.clusterTlb (Config.tlbSlot s.gtc (2 * n + 1)) ⟨512 + s.core / 8, s.tag, p.1, p.2⟩)
        Config.coreTlb (Config.tlbSlot s.gtc (2 * n)) ⟨s.core, s.tag, p.1, p.2⟩ } := by
  simp only [State.lookUp, core, above, Bool.false_eq_true, if_false]

end

/-- A page is looked up in the core's cache, then the cluster's, then walked (R72). -/
theorem State.lookUp_rule (s : State) (p : Nat × Nat) (n : Nat) (hc : s.core < 512) (size : 0 < p.2) :
    let t := s.lookUp p n
    let above := 512 + s.core / 8
    let full := fun (u : State) (c cap : Nat) => cap < (u.tlb.filter fun x => x.cache = c).length
    (s.cached s.core s.tag p.1 = true → t = s) ∧
    (s.cached s.core s.tag p.1 = false →
      { t with tlb := s.tlb } = (if s.cached above s.tag p.1 = true then s.countMine .tlbMisses 1
        else (s.countMine .tlbMisses 1).countMine .walks 1) ∧
      t.cached s.core s.tag p.1 = true ∧ t.cached above s.tag p.1 = true ∧
      (¬ full s s.core 256 → ¬ full t s.core 256) ∧ (¬ full s above 4096 → ¬ full t above 4096) ∧
      ∀ x ∈ t.tlb, x ∈ s.tlb ∨ x.tag = s.tag ∧ x.page = p.1) := by
  intro t above full
  have apart : above ≠ s.core := by omega
  let e : Cached := ⟨s.core, s.tag, p.1, p.2⟩
  let f : Cached := ⟨above, s.tag, p.1, p.2⟩
  have misses := keepsTables.countMine s .tlbMisses 1
  have walks := misses.trans (keepsTables.countMine _ .walks 1)
  refine ⟨fun hit => State.lookUp_hit hit n, fun miss => ?_⟩
  cases held : s.cached above s.tag p.1 with
  | true =>
    have ht : t = { s.countMine .tlbMisses 1 with tlb := fillTlb s.tlb 256 (Config.tlbSlot s.gtc (2 * n)) e } := State.lookUp_above miss held
    rw [if_pos rfl, ht]
    refine ⟨?_, State.cached_of_mem (x := e) (mem_fillTlb_self ..) size, ?_, fillTlb_full _ 256 _ e (by decide), fun fits => ?_, fun x hx => ?_⟩
    · rw [← misses.tlb]
    · obtain ⟨x, hx, there⟩ := List.any_eq_true.1 held
      have own : x.cache = above := by
        simp only [Bool.and_eq_true, decide_eq_true_eq] at there
        obtain ⟨⟨⟨own, -⟩, -⟩, -⟩ := there
        exact own
      exact List.any_eq_true.2 ⟨x, mem_fillTlb_other _ _ _ e hx (own.trans_ne apart), there⟩
    · have := fillTlb_other s.tlb 256 (Config.tlbSlot s.gtc (2 * n)) e (c := above) apart.symm
      exact fun big => fits (Nat.lt_of_lt_of_le big this)
    · obtain old | rfl := mem_fillTlb _ _ _ e hx
      · exact .inl old
      · exact .inr ⟨rfl, rfl⟩
  | false =>
    have ht : t = { (s.countMine .tlbMisses 1).countMine .walks 1 with
        tlb := fillTlb (fillTlb s.tlb 4096 (Config.tlbSlot s.gtc (2 * n + 1)) f) 256 (Config.tlbSlot s.gtc (2 * n)) e } := State.lookUp_walk miss held
    rw [if_neg (by decide), ht]
    refine ⟨?_, State.cached_of_mem (x := e) (mem_fillTlb_self ..) size,
      State.cached_of_mem (x := f) (mem_fillTlb_other _ _ _ e (mem_fillTlb_self ..) apart) size, fun fits => ?_, fun fits => ?_, fun x hx => ?_⟩
    · rw [← walks.tlb]
    · refine fillTlb_full _ 256 _ e (by decide) fun big => fits (Nat.lt_of_lt_of_le big ?_)
      exact fillTlb_other s.tlb 4096 _ f apart
    · refine fun big => fillTlb_full s.tlb 4096 (Config.tlbSlot s.gtc (2 * n + 1)) f (by decide) fits (Nat.lt_of_lt_of_le big ?_)
      exact fillTlb_other _ 256 _ e apart.symm
    · obtain old | rfl := mem_fillTlb _ _ _ e hx
      · obtain old | rfl := mem_fillTlb _ _ _ f old
        · exact .inl old
        · exact .inr ⟨rfl, rfl⟩
      · exact .inr ⟨rfl, rfl⟩

/-! ### An invalidation (R75) -/

/-- Where nothing is buffered or on its way, no access translated before is left. -/
theorem State.oldAccess_none {s : State} {tag : BitVec 12} (h : ∀ h ∈ s.sheaves, s.tagOf h = tag → h.buf = [] ∧ h.defer = [])
    (agenda : s.agenda = []) (va n : Nat) : s.oldAccess (tag, va, n) = false := by
  simp only [State.oldAccess, agenda, List.any_nil, Bool.or_false, List.any_eq_false]
  rintro x hx
  by_cases own : s.tagOf x = tag
  · obtain ⟨buf, defer⟩ := h x hx own
    simp [buf, defer]
  · simp [own]

/-- The caches drop a range of a context; what was translated before is listed until it is performed. -/
theorem pageInvalidation_rule (s : State) (tag : BitVec 12) (va : DWord) (n : Nat) :
    let kept := s.tlb.filter fun x => !(x.tag = tag && x.page < va.toNat + n && va.toNat < x.page + x.size)
    (∃ t, exec (.pageInvalidation tag va n) s = .next t ∧ { t with invalids := s.invalids, tlb := s.tlb } = s ∧ t.tlb = kept) ∧
    ((∀ h ∈ s.sheaves, s.tagOf h = tag → h.buf = [] ∧ h.defer = []) → s.agenda = [] →
      exec (.pageInvalidation tag va n) s = .next { s with tlb := kept }) := by
  intro kept
  have run : exec (.pageInvalidation tag va n) s = .next (if s.oldAccess (tag, va.toNat, n) then
      { s with tlb := kept, invalids := s.invalids ++ [(tag, va.toNat, n)] } else { s with tlb := kept }) := rfl
  refine ⟨⟨_, run, ?_⟩, fun quiet agenda => ?_⟩
  · split <;> exact ⟨rfl, rfl⟩
  · rw [run, State.oldAccess_none quiet agenda, if_neg (by decide)]

end Sys2Proof.Machine
end

section
/-!
PROOFS. Bytes and lines that move with a page (R82).
-/

namespace Sys2Proof.Machine

open Sys2Proof Sys2Proof.Rules

section
variable {α : Type} {dflt : Nat → α}

/-- A store reads as its first entry of a key says. -/
theorem storeRead_eq_find? (m : List (Nat × α)) (k : Nat) :
    storeRead dflt m k = ((m.find? fun c => c.1 = k).map Prod.snd).getD (dflt k) := by
  induction m with
  | nil => rfl
  | cons c r ih =>
    by_cases h : c.1 = k
    · rw [List.find?_cons_of_pos (by simpa using h)]
      exact if_pos h
    · rw [List.find?_cons_of_neg (by simpa using h), ← ih]
      exact if_neg h

variable [DecidableEq α]

/-- The keys of a canonical store rise. -/
theorem storeWf_rises {lo : Nat} {m : List (Nat × α)} (h : storeWfFrom dflt lo m = true) :
    (∀ c ∈ m, lo ≤ c.1) ∧ m.Pairwise fun c d => c.1 < d.1 := by
  induction m generalizing lo with
  | nil => exact ⟨nofun, .nil⟩
  | cons c r ih =>
    obtain ⟨a, v⟩ := c
    obtain ⟨first, -, rest⟩ := storeWfFrom_cons.1 h
    obtain ⟨low, rises⟩ := ih rest
    refine ⟨fun x hx => ?_, List.pairwise_cons.2 ⟨fun x hx => low x hx, rises⟩⟩
    obtain rfl | hx := List.mem_cons.1 hx
    · exact first
    · exact Nat.le_trans (Nat.le_succ_of_le first) (low x hx)

/-- What entries of distinct keys leave, written one after another. -/
theorem storeRead_writes (key : Nat × α → Nat) {xs : List (Nat × α)} (apart : xs.Pairwise fun c d => key c ≠ key d) {m : List (Nat × α)}
    (hm : storeWfFrom dflt 0 m = true) (k : Nat) :
    storeRead dflt (xs.foldl (fun m c => storeWrite dflt m (key c) c.2) m) k =
      ((xs.find? fun c => key c = k).map Prod.snd).getD (storeRead dflt m k) := by
  induction xs generalizing m with
  | nil => rfl
  | cons c r ih =>
    obtain ⟨first, rest⟩ := List.pairwise_cons.1 apart
    rw [List.foldl_cons, ih rest (storeWrite_wf c.2 (Nat.zero_le _) hm), storeRead_write _ _ _ hm]
    by_cases hit : key c = k
    · have none : (r.find? fun d => key d = k) = none :=
        List.find?_eq_none.2 fun d hd => by simpa using fun same => first d hd (hit.trans same.symm)
      rw [none, List.find?_cons_of_pos (by simpa using hit), if_pos hit.symm]
      rfl
    · rw [List.find?_cons_of_neg (by simpa using hit), if_neg (Ne.symm hit)]

/-- The entries of a range come to another one, where unlisted keys read alike; what was there is gone, and the rest stays. -/
theorem storeRead_copied {m : List (Nat × α)} (hm : storeWfFrom dflt 0 m = true) (src dst n : Nat)
    (same : ∀ j < n, dflt (dst + j) = dflt (src + j)) (k : Nat) :
    storeRead dflt ((m.filter fun c => src ≤ c.1 && c.1 < src + n).foldl (fun m c => storeWrite dflt m (c.1 - src + dst) c.2)
        (m.filter fun c => !(dst ≤ c.1 && c.1 < dst + n))) k =
      if dst ≤ k ∧ k < dst + n then storeRead dflt m (src + (k - dst)) else storeRead dflt m k := by
  have apart : (m.filter fun c => src ≤ c.1 && c.1 < src + n).Pairwise fun c d => c.1 - src + dst ≠ d.1 - src + dst := by
    refine ((storeWf_rises hm).2.filter _).imp_of_mem fun {c d} hc hd less => ?_
    simp only [List.mem_filter, Bool.and_eq_true, decide_eq_true_eq] at hc hd
    omega
  rw [storeRead_writes (fun c => c.1 - src + dst) apart (storeFilter_wf _ hm), storeRead_eq_find?]
  by_cases there : dst ≤ k ∧ k < dst + n
  · have moved : ((m.filter fun c => src ≤ c.1 && c.1 < src + n).find? fun c => c.1 - src + dst = k) = m.find? fun c => c.1 = src + (k - dst) := by
      rw [List.find?_filter]
      exact congrArg (List.find? · m) (funext fun c => by rw [decide_eq_decide]; simp; omega)
    have cleared : ((m.filter fun c => !(dst ≤ c.1 && c.1 < dst + n)).find? fun c => c.1 = k) = none :=
      List.find?_eq_none.2 fun c hc => by simp at hc ⊢; omega
    have default := same (k - dst) (by omega)
    rw [show dst + (k - dst) = k by omega] at default
    rw [if_pos there, moved, cleared, storeRead_eq_find?, ← default]
    rfl
  · have moved : ((m.filter fun c => src ≤ c.1 && c.1 < src + n).find? fun c => c.1 - src + dst = k) = none :=
      List.find?_eq_none.2 fun c hc => by simp at hc ⊢; omega
    have kept : ((m.filter fun c => !(dst ≤ c.1 && c.1 < dst + n)).find? fun c => c.1 = k) = m.find? fun c => c.1 = k := by
      rw [List.find?_filter]
      exact congrArg (List.find? · m) (funext fun c => by rw [decide_eq_decide]; simp; omega)
    rw [if_neg there, moved, kept, storeRead_eq_find?]
    rfl

end

/-- No line of the tiers is a line of a peer or the host. -/
theorem lineDefault_tiers {k : Nat} (h : k < 2 * spaceSize) : lineDefault k = 0x7F00 := by
  have own : isForeign k = false := by
    simp only [isForeign, Bool.or_eq_false_iff, Bool.and_eq_false_iff, decide_eq_false_iff_not]
    omega
  simp only [lineDefault, own, Bool.false_eq_true, if_false]

section
variable {s : State} {src dst n : Nat}

theorem State.readByte_copyRange (h : s.memOk) (k : Nat) :
    readByte (s.copyRange src dst n).mem k =
      if dst ≤ k ∧ k < dst + n then readByte s.mem (src + (k - dst)) else readByte s.mem k :=
  storeRead_copied h.1 src dst n (fun _ _ => rfl) k

theorem State.lineMeta_copyRange (h : s.memOk) (hs : src + n ≤ 2 * spaceSize) (hd : dst + n ≤ 2 * spaceSize) (k : Nat) :
    lineMeta (s.copyRange src dst n).lines k =
      if dst ≤ lineOf k ∧ lineOf k < dst + n then storeRead lineDefault s.lines (src + (lineOf k - dst)) else lineMeta s.lines k :=
  storeRead_copied h.2 src dst n (fun j hj => by rw [lineDefault_tiers (by omega), lineDefault_tiers (by omega)]) (lineOf k)

end

/-- A copy of lines without errors moves their bytes and metadata, and is noted (R82). -/
theorem migrationCopy_rule {s : State} {a b n : Nat} (h : s.memOk) (ha : a % 64 = 0) (hb : b % 64 = 0) (hn : n % 64 = 0)
    (las : a + n ≤ 2 * spaceSize) (lbs : b + n ≤ 2 * spaceSize) (good : ∀ k ∈ s.badLines, ¬ (a ≤ k ∧ k < a + n)) (weak : s.weak = []) :
    ∃ t, exec (.migrationCopy a b n) s = .next t ∧
      { t with mem := s.mem, lines := s.lines, badLines := s.badLines, moves := s.moves } = s ∧ t.moves = s.moves ++ [(a, b, n)] ∧
      (∀ k, k ∈ t.badLines ↔ k ∈ s.badLines ∧ ¬ (b ≤ k ∧ k < b + n)) ∧
      (∀ j < n, readByte t.mem (b + j) = readByte s.mem (a + j) ∧ lineMeta t.lines (b + j) = lineMeta s.lines (a + j)) ∧
      ∀ k, (k < b ∨ b + n ≤ k) → readByte t.mem k = readByte s.mem k ∧ lineMeta t.lines k = lineMeta s.lines k := by
  have bad : s.badIn a n = [] := List.filter_eq_nil_iff.2 fun k hk => by simpa using fun low => Nat.le_of_not_lt fun high => good k hk ⟨low, high⟩
  let t : State := { s.copyRange a b n with badLines := s.badLines.filter fun k => !inSpan b n k, moves := s.moves ++ [(a, b, n)] }
  have run : exec (.migrationCopy a b n) s = .next t := by
    change (.next ((s.badIn a n).foldl _ _) : Out) = _
    rw [bad, State.correct_none weak]
    rfl
  refine ⟨t, run, rfl, rfl, fun k => ?_, fun j hj => ⟨?_, ?_⟩, fun k hk => ⟨?_, ?_⟩⟩
  · change k ∈ s.badLines.filter _ ↔ _
    rw [List.mem_filter, inSpan, Bool.not_eq_true', Bool.and_eq_false_iff, decide_eq_false_iff_not, decide_eq_false_iff_not, not_and_or]
  · rw [State.readByte_copyRange h, if_pos (by omega), Nat.add_sub_cancel_left]
  · rw [State.lineMeta_copyRange h las lbs, lineMeta, if_pos (by unfold lineOf; omega)]
    congr 1
    unfold lineOf
    omega
  · rw [State.readByte_copyRange h, if_neg (by omega)]
  · rw [State.lineMeta_copyRange h las lbs, if_neg (by unfold lineOf; omega)]

end Sys2Proof.Machine
end

section
/-!
PROOFS. What is parked on a page is performed, and the page goes on (R82-R84).
-/

namespace Sys2Proof.Machine

open Sys2Proof Sys2Proof.Rules

/-! ### Operations performed where no line is in error (R83, R86, R132) -/

namespace keepsTables
section
variable {s : State} (clean : errorFree s) (tag : BitVec 12) (uid k : Nat)

theorem putBytes (s : State) (bs : List Byte) : keepsTables s (s.putBytes tag k bs) := ⟨rfl, rfl, rfl, rfl, id⟩

include clean

theorem land (bs : List Byte) (whole : Bool) : keepsTables s (s.land tag k bs whole) := by
  rw [State.land_plain clean.2 clean.1]
  exact putBytes tag k s bs

theorem landFrom (x : Issuer) (bs : List Byte) (whole : Bool) : keepsTables s (s.landFrom tag uid x k bs whole) :=
  .ite (onSheaf s _ _) (.ite ((land clean tag k bs whole).trans (onSheaf _ _ _))
    (.ite ((land clean tag k bs whole).trans (onSheaf _ _ _)) (land clean tag k bs whole)))

theorem landDesc (v : BitVec 16) : keepsTables s (s.landDesc tag k v) := by
  rw [State.landDesc, if_neg (by simp [State.lineBad, clean.1])]
  exact ⟨rfl, rfl, rfl, rfl, id⟩

theorem landDescFrom (x : Issuer) (v : BitVec 16) : keepsTables s (s.landDescFrom tag uid x k v) :=
  .ite ((landDesc clean tag k v).trans (onSheaf _ _ _)) (landDesc clean tag k v)

theorem atomLands (va : Option Nat) (op : BitVec 4) (x : BitVec 128) (ret : Option Nat) (lane : Nat) (word : Word) :
    keepsTables s (s.atomLands tag uid va k op x ret lane word) := by
  unfold State.atomLands
  dsimp only
  rw [State.correct_none clean.2]
  refine .ite (onSheaf s _ _) ?_
  rw [if_neg (by simp [State.lineBad, clean.1])]
  have made := putBytes tag k s (leBytes (atomBytes op) (atomNew op (readLE s.mem k (atomBytes op)) x))
  have traced : keepsTables s (match va with
      | some v => (s.atomAt tag k op x).2.as uid fun y => y.traceMine s.mem v k (leBytes (atomBytes op) (atomNew op (s.atomAt tag k op x).1 x))
      | none => (s.atomAt tag k op x).2) := by
    cases va with
    | none => exact made
    | some v => exact made.trans (as (fun t => traceMine t _ _ _ _) _ _)
  cases ret with
  | none => exact traced
  | some f => exact traced.trans (onSheaf _ _ _)

theorem signalLands (va : Option Nat) (op : BitVec 2) (x : DWord) (word : Word) :
    keepsTables s (s.signalLands tag uid va k op x word) := by
  unfold State.signalLands
  refine .ite (onSheaf s _ _) ?_
  rw [if_neg (by simp [State.lineBad, clean.1])]
  dsimp only
  have made (bs : List Byte) := land clean tag k bs false
  have sent {c : Prop} [Decidable c] (bs : List Byte) (f : Sheaf → Sheaf) :
      keepsTables s (if c then (s.land tag k bs false).onSheaf uid f else s.land tag k bs false) :=
    .ite ((made bs).trans (onSheaf _ _ _)) (made bs)
  cases va with
  | none => exact sent _ _
  | some v => exact (sent _ _).trans (as (fun t => traceMine t _ _ _ _) _ _)

theorem decrementAt (va : Nat) (scope : BitVec 16) : keepsTables s (s.decrementAt tag va k scope uid).1 := by
  unfold State.decrementAt
  dsimp only
  rw [State.correct_none clean.2, if_neg (by simp [State.lineBad, clean.1])]
  split
  · exact refl s
  · exact (putBytes tag k s _).trans (as (fun t => traceMine t _ _ _ _) _ _)

end

/-- One operation of a parked line. -/
theorem replayOp {s : State} (clean : errorFree s) (w : ParkedWrite) (o : ParkedOp) : keepsTables s (s.replayOp w o) := by
  cases o with
  | bytes va bs whole src =>
    have made : keepsTables s (match src with
        | some x => s.landFrom w.tag w.sheaf x (s.replayKey w va) bs whole
        | none => s.land w.tag (s.replayKey w va) bs whole) := by
      cases src with
      | some x => exact landFrom clean _ _ _ x bs whole
      | none => exact land clean _ _ bs whole
    exact .ite made (made.trans (as (fun t => traceMine t _ _ _ _) _ _))
  | desc va d src =>
    cases src with
    | some x => exact landDescFrom clean _ _ _ x d
    | none => exact landDesc clean _ _ d
  | atom va op x ret lane word => exact atomLands clean w.tag w.sheaf (s.replayKey w va) (some va) op x ret lane word
  | signal va op x word => exact signalLands clean w.tag w.sheaf (s.replayKey w va) (some va) op x word
  | count va page lines remote who => exact bumpCounts s _ page lines remote who
  | depdec va n scope =>
    have made := decrementAt clean w.tag w.sheaf (s.replayKey w va) va scope
    change keepsTables s (match s.decrementAt w.tag va (s.replayKey w va) scope w.sheaf with | (t, none) => t | (t, some x) => _)
    split <;> rename_i e <;> rw [e] at made
    · exact made
    · exact made.trans ⟨rfl, rfl, rfl, rfl, id⟩

theorem replayCopy {s : State} (clean : errorFree s) (w : ParkedWrite) (k : Nat) (ops : List ParkedOp) : keepsTables s (s.replayCopy w k ops) := by
  induction ops generalizing s with
  | nil => exact refl s
  | cons o ops ih =>
    have made := replayOp clean w o
    have rest := made.trans (ih (made.noError clean))
    cases o with
    | bytes va bs whole src =>
      have good : ¬ (s.lineBad (s.replayKey w va) && !whole) = true := by simp [State.lineBad, clean.1]
      change keepsTables s (if (s.lineBad (s.replayKey w va) && !whole) = true then _ else _)
      rw [if_neg good]
      exact rest
    | desc | atom | signal | count | depdec => exact rest

theorem replayParked {s : State} (clean : errorFree s) (w : ParkedWrite) (k : Nat) : keepsTables s (s.replayParked w k) := by
  have fold (ops : List ParkedOp) {s : State} (clean : errorFree s) : keepsTables s (ops.foldl (State.replayOp w) s) := by
    induction ops generalizing s with
    | nil => exact refl s
    | cons o ops ih =>
      have made := replayOp clean w o
      exact made.trans (ih (made.noError clean))
  exact .ite (replayCopy clean w k w.ops) (fold w.ops clean)

end keepsTables

/-! ### The order of a replay (R82, R83) -/

section
variable {s : State} {mine : ParkedWrite → Bool}

/-- Nothing of the page is parked. -/
theorem State.replayAll_none (h : s.parking.filter mine = []) (n : Nat) : s.replayAll mine n = s := by
  have none : s.parking.findIdx? mine = none := List.findIdx?_eq_none_iff.2 fun w hw => Bool.eq_false_iff.2 (List.filter_eq_nil_iff.1 h w hw)
  cases n with
  | zero => rfl
  | succ n => simp only [State.replayAll, none]

/-- The oldest line of the page leaves the buffer and is performed, and the rest follows. -/
theorem State.replayAll_oldest {w : ParkedWrite} {ws : List ParkedWrite} (h : s.parking.filter mine = w :: ws) (n : Nat) :
    ∃ k ps, s.replayAll mine (n + 1) = (State.replayParked { s with parking := ps } w k).replayAll mine n ∧ ps.filter mine = ws ∧
      ps.filter (fun w => !mine w) = s.parking.filter fun w => !mine w := by
  obtain ⟨before, after, split, others, own, rest⟩ := List.filter_eq_cons_iff.1 h
  have first : s.parking.findIdx? mine = some before.length := by
    have none : before.findIdx? mine = none := List.findIdx?_eq_none_iff.2 fun x hx => Bool.eq_false_iff.2 (others x hx)
    rw [split, List.findIdx?_append, none, List.findIdx?_cons, own]
    simp
  have there : s.parking[before.length]? = some w := by rw [split]; simp
  have left : s.parking.eraseIdx before.length = before ++ after := by rw [split]; simp [List.eraseIdx_append_of_length_le]
  refine ⟨before.length, before ++ after, ?_, ?_, ?_⟩
  · simp only [State.replayAll, first, there, left]
  · rw [List.filter_append, List.filter_eq_nil_iff.2 others, rest, List.nil_append]
  · rw [split, List.filter_append, List.filter_append, List.filter_cons_of_neg (by simp [own])]

/-- What a replay leaves parked, and what it does not touch. -/
theorem State.replayAll_rule {n : Nat} (clean : errorFree s) (enough : (s.parking.filter mine).length ≤ n) :
    let t := s.replayAll mine n
    t.parking = (s.parking.filter fun w => !mine w) ∧ t.iwrites = s.iwrites ∧ t.contexts = s.contexts ∧ errorFree t := by
  induction n generalizing s with
  | zero =>
    have none := List.eq_nil_of_length_eq_zero (Nat.le_zero.1 enough)
    refine ⟨(List.filter_eq_self.2 fun w hw => ?_).symm, rfl, rfl, clean⟩
    simpa using List.filter_eq_nil_iff.1 none w hw
  | succ n ih =>
    cases own : s.parking.filter mine with
    | nil =>
      rw [State.replayAll_none own]
      refine ⟨(List.filter_eq_self.2 fun w hw => ?_).symm, rfl, rfl, clean⟩
      simpa using List.filter_eq_nil_iff.1 own w hw
    | cons w ws =>
      obtain ⟨k, ps, run, rest, others⟩ := State.replayAll_oldest own n
      have made := keepsTables.replayParked (s := { s with parking := ps }) clean w k
      obtain ⟨-, parking, iwrites, contexts, noError⟩ := made
      have short : ((State.replayParked { s with parking := ps } w k).parking.filter mine).length ≤ n := by
        rw [own, List.length_cons] at enough
        rw [parking, rest]
        omega
      obtain ⟨left, iwrites', contexts', clean'⟩ := ih (noError clean) short
      rw [run]
      exact ⟨left.trans (by rw [parking, others]), iwrites'.trans iwrites, contexts'.trans contexts, clean'⟩

end

/-- Who stands before a full buffer is all that entering it changes (R83). -/
theorem State.enterParking_rule (s : State) : ∃ ps, s.enterParking = { s with parking := ps } ∧
    ps.map (fun w => { w with stalled := false }) = s.parking.map fun w => { w with stalled := false } := by
  have fold (ks : List Nat) (s : State) : ∃ ps, ks.foldl (fun t k => { t with parking := t.parking.modify k fun w =>
      { w with stalled := w.stalled && Config.parking ≤ t.parkedOn w.die } }) s = { s with parking := ps } ∧
      ps.map (fun w => ({ w with stalled := false } : ParkedWrite)) = s.parking.map fun w => { w with stalled := false } := by
    induction ks generalizing s with
    | nil => exact ⟨s.parking, rfl, rfl⟩
    | cons k ks ih =>
      obtain ⟨ps, run, same⟩ := ih { s with parking := s.parking.modify k fun w =>
        { w with stalled := w.stalled && Config.parking ≤ s.parkedOn w.die } }
      refine ⟨ps, run, same.trans ?_⟩
      refine List.ext_getElem? fun j => ?_
      rw [List.getElem?_map, List.getElem?_map, List.getElem?_modify]
      cases s.parking[j]? with
      | none => rfl
      | some w => by_cases h : k = j <;> simp [h]
  exact fold _ s

/-- A context without counters has none to start again (R84). -/
theorem State.resetCounts_none {s : State} {tag : BitVec 12} {c : Context} (h : s.context tag = some c) (none : c.counters = none) (page : Nat) :
    s.resetCounts tag page = s := by
  simp only [State.resetCounts, h, Option.bind_some, none]

/-- One byte that no sheaf wrote, replayed where its address leads (R82). -/
theorem State.replayParked_byte {s : State} (clean : errorFree s) {w : ParkedWrite} {a q : Nat} {x : Byte} {src : Option Issuer} {k : Mapped}
    (nobody : w.sheaf = 0) (batch : w.batch = none) (op : w.ops = [.bytes a [x] false src]) (map : s.xlat w.tag a .load = .ok k)
    (reach : s.reach w.tag true k.key = some q) (route : s.cutOff q = false) (n : Nat) :
    (s.replayParked w n).mem = writeBytes s.mem q [x] := by
  have key : s.replayKey w a = q := by simp [State.replayKey, batch, map, reach]
  have made : s.replayParked w n = match src with
      | some y => s.landFrom w.tag w.sheaf y q [x] false
      | none => s.land w.tag q [x] false := by
    simp only [State.replayParked, batch, op, Option.isSome_none, Bool.false_eq_true, if_false, List.foldl_cons, List.foldl_nil,
      State.replayOp, key, nobody, decide_true, Bool.true_or, if_true]
    cases src <;> rfl
  have bad : ¬ (s.lineBad q && !false) = true := by simp [State.lineBad, clean.1]
  rw [made]
  cases src with
  | none =>
    dsimp only
    rw [State.land_plain clean.2 clean.1]
    rfl
  | some y =>
    dsimp only
    rw [State.landFrom, route, if_neg (by decide), if_neg bad, State.land_plain clean.2 clean.1]
    split <;> rfl

end Sys2Proof.Machine
end

section
/-!
PROOFS. The replay of a page's parked writes (R82, R84), and deliveries and pages as a whole.
-/

namespace Sys2Proof.Machine

open Sys2Proof Sys2Proof.Rules

/-- A parked operation of a context lies on a page. -/
def parkedOnPage (tag : BitVec 12) (m : Mapped) (w : ParkedWrite) : Bool :=
  decide (w.tag = tag) && decide (m.page ≤ 64 * w.line) && decide (64 * w.line < m.page + m.size)

/-- The state that a replay of the operations on a page leaves, before WB is cleared. -/
def State.replayed (s : State) (tag : BitVec 12) (m : Mapped) : State :=
  let t := s.replayAll (parkedOnPage tag m) s.parking.length
  State.enterParking { t with moves := t.moves.flatMap (cutMove m.frame m.size) }

section
variable {s : State} {tag : BitVec 12} {m : Mapped}

/-- The operations on the page have gone, and those that are left stand as before, some no longer before a full buffer. -/
theorem State.replayed_rule (clean : errorFree s) :
    let t := s.replayed tag m
    t.mem = (s.replayAll (parkedOnPage tag m) s.parking.length).mem ∧
    (t.parking.map fun w => { w with stalled := false }) =
        ((s.parking.filter fun w => !parkedOnPage tag m w).map fun w => { w with stalled := false }) ∧
      t.iwrites = s.iwrites ∧ t.contexts = s.contexts ∧ errorFree t := by
  obtain ⟨left, iwrites, contexts, clean'⟩ := State.replayAll_rule (mine := parkedOnPage tag m) clean (List.length_filter_le ..)
  let u := s.replayAll (parkedOnPage tag m) s.parking.length
  obtain ⟨ps, run, same⟩ := State.enterParking_rule { u with moves := u.moves.flatMap (cutMove m.frame m.size) }
  have all : s.replayed tag m = { u with moves := u.moves.flatMap (cutMove m.frame m.size), parking := ps } := run
  dsimp only
  rw [all]
  exact ⟨rfl, same.trans (by rw [← left]), iwrites, contexts, clean'⟩

/-- The page's operations are performed, its WB is cleared, and what waits for it is looked at again. -/
theorem parkedWriteReplay_run {va : DWord} {c : Context} (map : s.xlat tag va.toNat .load = .ok m) (hc : s.context tag = some c)
    (counters : c.counters = none) (clean : errorFree s) (writes : s.iwrites = []) :
    ∃ es, exec (.parkedWriteReplay tag va) s = .next ((if m.wb then
      (s.replayed tag m).putBytes ((s.replayed tag m).frameOwner m.pte) m.pte [readByte (s.replayed tag m).mem m.pte &&& 0xDF#8]
      else s.replayed tag m).post es) := by
  let t := if m.wb then (s.replayed tag m).putHost m.pte [readByte (s.replayed tag m).mem m.pte &&& 0xDF#8] else s.replayed tag m
  obtain ⟨-, -, iwrites, contexts, clean'⟩ := State.replayed_rule (tag := tag) (m := m) clean
  have cleared : keepsTables (s.replayed tag m) t := .when (.putFor _ _ _ _)
  have same : t.context tag = some c := by rw [State.context, cleared.contexts, contexts]; exact hc
  have ready : t.iwrites = [] := by rw [cleared.iwrites, iwrites, writes]
  have on : (fun w : ParkedWrite => w.tag = tag && inSpan m.page m.size (64 * w.line)) = parkedOnPage tag m :=
    funext fun w => (Bool.and_assoc ..).symm
  have run : exec (.parkedWriteReplay tag va) s = .next (((t.resetCounts tag m.page).igPump).stirContext tag) := by
    change (.next (match s.xlat tag va.toNat .load with | .ok m => _ | _ => s) : Out) = _
    rw [map]
    dsimp only
    rw [on]
    rfl
  obtain ⟨es, stirred⟩ := t.stirContext_posts tag
  refine ⟨es, ?_⟩
  rw [run, State.resetCounts_none same counters, State.igPump_none ready, stirred]
  congr 2
  exact if_congr Iff.rfl (State.putFor_plain clean'.2 clean'.1 ..) rfl

/-- A byte parked alone on the page is in memory. -/
theorem State.replayed_byte (clean : errorFree s) {w : ParkedWrite} {a q : Nat} {x : Byte} {src : Option Issuer} {k : Mapped}
    (own : s.parking.filter (parkedOnPage tag m) = [w]) (nobody : w.sheaf = 0) (batch : w.batch = none)
    (op : w.ops = [.bytes a [x] false src]) (map : s.xlat tag a .load = .ok k) (reach : s.reach tag true k.key = some q)
    (route : s.cutOff q = false) : (s.replayed tag m).mem = writeBytes s.mem q [x] := by
  have of : w.tag = tag := by
    have on := (List.mem_filter.1 (own ▸ List.mem_singleton_self w)).2
    simp only [parkedOnPage, Bool.and_eq_true, decide_eq_true_eq] at on
    exact on.1.1
  subst of
  obtain ⟨n, hn⟩ : ∃ n, s.parking.length = n + 1 := by
    cases e : s.parking with
    | nil => rw [e] at own; cases own
    | cons y ys => exact ⟨ys.length, rfl⟩
  obtain ⟨j, ps, run, none, -⟩ := State.replayAll_oldest own n
  have made := keepsTables.replayParked (s := { s with parking := ps }) clean w j
  obtain ⟨mem, -⟩ := State.replayed_rule (tag := w.tag) (m := m) clean
  rw [mem, hn, run, State.replayAll_none (by rw [made.parking]; exact none)]
  exact State.replayParked_byte (s := { s with parking := ps }) clean nobody batch op map reach route j

end

/-- A replay performs the parked writes of a page and clears its WB (R82, R84). -/
theorem parkedWriteReplay_rule {s : State} {tag : BitVec 12} {va : DWord} {m : Mapped} {c : Context} (ok : s.memOk)
    (map : s.xlat tag va.toNat .load = .ok m) (hc : s.context tag = some c) (counters : c.counters = none) (clean : errorFree s)
    (writes : s.iwrites = []) :
    let mine := fun (w : ParkedWrite) => decide (w.tag = tag) && decide (m.page ≤ 64 * w.line) && decide (64 * w.line < m.page + m.size)
    let enter := fun (w : ParkedWrite) => { w with stalled := false }
    ∃ t, exec (.parkedWriteReplay tag va) s = .next t ∧ t.parking.map enter = (s.parking.filter fun w => !mine w).map enter ∧
      (m.wb = true → (readByte t.mem m.pte).getLsbD 5 = false) ∧
      ∀ w a x k q src, s.parking.filter mine = [w] → w.sheaf = 0 → w.batch = none → w.ops = [.bytes a [x] false src] →
        s.xlat tag a .load = .ok k → s.reach tag true k.key = some q → q ≠ m.pte → s.cutOff q = false → readByte t.mem q = x := by
  intro mine enter
  obtain ⟨es, run⟩ := parkedWriteReplay_run map hc counters clean writes
  obtain ⟨mem, parking, -⟩ := State.replayed_rule (tag := tag) (m := m) clean
  have form : Memory.wf (s.replayed tag m).mem = true := by rw [mem]; exact ok.replayAll.1
  refine ⟨_, run, ?_, fun wb => ?_, fun w a x k q src own nobody batch op map reach apart route => ?_⟩
  · split <;> exact parking
  · rw [if_pos wb]
    change (readByte (writeByte _ m.pte _) m.pte).getLsbD 5 = false
    rw [readByte_writeByte _ _ _ form, if_pos rfl]
    simp
  · have there : readByte (s.replayed tag m).mem q = x := by
      rw [State.replayed_byte clean own nobody batch op map reach route]
      exact (readByte_writeByte _ _ _ ok.1).trans (if_pos rfl)
    split
    · exact (readByte_writeByte _ _ _ form).trans ((if_neg apart).trans there)
    · exact there

/-- Settles O47: a rule for each step, in the order of the statement. -/
theorem deliveriesAndPagesArrive : Obligations.DeliveriesAndPagesArrive := by
  unfold Obligations.DeliveriesAndPagesArrive
  refine ⟨fun s uid k l one live hl fixed codes => ?_, fun s tag key op x bad weak route hx => ?_,
    fun s uid word dest lanes one live copy none => ?_, fun s uid word dest lanes l k old new one live copy far lane there => ?_,
    fun s va ok waits page writes => ?_, pageInvalidation_rule, fun s p n hc size => s.lookUp_rule p n hc size,
    fun s a b n ok ha hb hn las lbs _ good weak => migrationCopy_rule ok ha hb hn las lbs good weak,
    fun s tag va m c ok map hc _ counters bad weak writes => parkedWriteReplay_rule ok map hc counters ⟨bad, weak⟩ writes⟩
  · obtain ⟨last, scalars, written⟩ := PendLoad.write_rule l.em l.dest codes s.sh.regs
    exact ⟨_, loadDelivery_rule one live hl fixed, rfl, rfl, last, scalars, written⟩
  · exact ⟨_, rfl, State.atomLands_rule weak bad route tag 0 hx 0 0⟩
  · intro aux
    obtain ⟨frame, loads, pend⟩ := s.sh.turnedAway_frame word dest lanes .prot aux
    have run := peerHostRejection_rule copy dest lanes (State.rejectFar_none one none) one live
    rw [lateAux_eq] at run
    refine ⟨_, run, congrArg (fun x => { s with sh := x }) frame, ?_, fun new => ?_, fun p hp kind cause same held emMask => ?_, fun l hl => ?_⟩
    · exact (congrArg List.length loads).trans (s.sh.rejectLanes_frame word dest lanes).2
    · rw [← pend]
      exact Sheaf.pendAsync_new (by rw [pend]; exact new) .prot lanes
    · exact Sheaf.pendAsync_add (pend.trans hp) kind cause same held emMask lanes
    · exact loads ▸ Sheaf.rejectLanes_mem hl lanes
  · have run := peerHostRejection_rule copy dest lanes (State.rejectFar_single one far lane there) one live
    obtain ⟨frame, -⟩ := Sheaf.turnedAway_frame { s.sh with far := [{ word := word, dest := dest, lanes := [] }] } word dest lanes .prot
      (lateAux word dest)
    exact ⟨_, run, rfl, (congrArg Sheaf.far frame :), congrArg (fun x : Sheaf => { s with sh := { x with far := s.sh.far } }) frame⟩
  · obtain ⟨t, run, mem, -, parked, pages, regs, pc⟩ := faultResolved_rule waits page writes
    exact ⟨t, run, parked, regs, pc, mem, pages⟩

end Sys2Proof.Machine
end

section
/-!
PROOFS. Loads that meet plain memory, where no line counts for the bytes beside a piece (R54, R55, R115, R127, R128, R140).
-/

namespace Sys2Proof.Machine

open Sys2Proof Sys2Proof.Rules

/-! ### The value of a load (R115, R140) -/

theorem laneVal_map (one : Nat → Nat) {ls : List Nat} {l : Nat} (h : l ∈ ls) : laneVal (ls.map fun l => (l, one l)) l = one l := by
  induction ls with
  | nil => cases h
  | cons k ks ih =>
    by_cases e : k = l
    · subst e
      simp [laneVal]
    · have later := ih ((List.mem_cons.1 h).resolve_left (Ne.symm e))
      rwa [laneVal, List.map_cons, List.find?_cons_of_neg (by simpa using e), ← laneVal]

/-- The registers that a load writes, and what each gets in a lane that loads. -/
theorem loadRows_rule {w : BitVec 3} {d : VCode} (hd : d ≠ 108) {ls : List Nat} (small : ∀ l ∈ ls, l < 64) (one : Nat → Nat) :
    (loadRows w d (laneVal (ls.map fun l => (l, one l)))).map Prod.fst = (List.range (widthRegs w)).map (d.toNat + ·) ∧
    ∀ r ∈ loadRows w d (laneVal (ls.map fun l => (l, one l))), r.1 - d.toNat < widthRegs w ∧
      ∀ l ∈ ls, laneOf r.2 l = loadRule w (r.1 - d.toNat) (one l) := by
  rw [loadRows, if_neg hd, List.map_map]
  refine ⟨rfl, fun r hr => ?_⟩
  obtain ⟨j, hj, rfl⟩ := List.mem_map.1 hr
  rw [Nat.add_sub_cancel_left]
  refine ⟨List.mem_range.1 hj, fun l hl => ?_⟩
  rw [laneOf_rowOf _ (small l hl)]
  dsimp only
  rw [laneVal_map one hl]
  by_cases byte : w = 1
  · subst byte
    rfl
  · by_cases half : w = 3
    · subst half
      rfl
    · rw [loadRule, if_neg byte, if_neg half]
      split
      · next h => exact absurd (BitVec.eq_of_toNat_eq h) byte
      · next h => exact absurd (BitVec.eq_of_toNat_eq h) half
      · rfl

theorem widthRegs_pos (w : BitVec 3) : 0 < widthRegs w := by
  unfold widthRegs
  split
  · decide
  · split <;> decide

/-- What a load leaves pending, with `one` the number of each lane. -/
def State.loadOf (s : State) (i : Instr) (sp : Space) (w : BitVec 3) (d : VCode) (slots : List (Nat × Nat × Nat)) (qs : List Site)
    (one : Nat → Nat) : PendLoad :=
  let lanes := (qs.map Site.lane).dedup
  { atomic := false, remote := sp = .peer || sp = .host, slots := slots, em := lanesMask lanes
    dest := loadRows w d (laneVal (lanes.map fun l => (l, one l))), word := s.sh.latch.word, pc := s.sh.latch.addr, instr := i, ref := 0
    waits := 0, sites := if sp = .peer || sp = .host then qs.map fun q => (q.lane, q.key) else [] }

/-- A window opens for a load that names a register (R55). -/
theorem loadWindow_eq (w : BitVec 3) (d : VCode) (goes : Bool) (la : BitVec 4) (pc : BitVec 32) :
    (if goes && la ≠ 0 && regsOf d (widthRegs w) ≠ [] then [({ rem := la.toNat, regs := regsOf d (widthRegs w), pc := pc, acc := none } : Window)]
      else []) =
    if goes && la ≠ 0 && d.toNat < 104 then [{ rem := la.toNat, regs := (List.range (widthRegs w)).map (d.toNat + ·), pc := pc, acc := none }]
      else [] := by
  have some := widthRegs_pos w
  by_cases h : d.toNat < 104
  · have codes : regsOf d (widthRegs w) = (List.range (widthRegs w)).map (d.toNat + ·) := if_pos h
    have named : (List.range (widthRegs w)).map (d.toNat + ·) ≠ [] := by simp; omega
    simp only [codes, named, h, ne_eq, not_false_eq_true]
  · have codes : regsOf d (widthRegs w) = [] := if_neg h
    simp only [codes, h, ne_eq, not_true_eq_false, decide_false, Bool.and_false, Bool.false_eq_true, if_false]

theorem loadWindow_opens (s : State) (la : BitVec 4) (w : BitVec 3) (d : VCode) (tlb : List Cached) (loads : List PendLoad) :
    State.openWindow { s with tlb := tlb, sh := { s.sh with loads := loads } } la (regsOf d (widthRegs w)) =
      { s with tlb := tlb, sh := { s.sh with loads := loads, windows := s.sh.windows ++
        if s.sh.latch.native && la ≠ 0 && d.toNat < 104 then
          [{ rem := la.toNat, regs := (List.range (widthRegs w)).map (d.toNat + ·), pc := s.sh.latch.addr, acc := none }] else [] } } := by
  rw [State.openWindow_eq, State.upd]
  dsimp only
  rw [loadWindow_eq]

section
variable {s : State} {qs : List Site} (small : ∀ y ∈ qs, y.lane < 64)

theorem State.loadOf_em (s : State) (i : Instr) (sp : Space) (w : BitVec 3) (d : VCode) (slots : List (Nat × Nat × Nat)) (one : Nat → Nat)
    {l : Nat} (hl : l < 64) : (s.loadOf i sp w d slots qs one).em.getLsbD l = true ↔ ∃ q ∈ qs, q.lane = l := by
  simp only [State.loadOf, lanesMask, maskOf_bit _ hl, List.contains_iff_mem, List.mem_dedup, List.mem_map]

include small

/-- A load without an active lane (R204). -/
theorem State.loadOf_idle {i : Instr} {sp : Space} {w : BitVec 3} {d : VCode} {slots : List (Nat × Nat × Nat)} {one : Nat → Nat} :
    (s.loadOf i sp w d slots qs one).em = 0 ↔ qs = [] := by
  have zero (l : Nat) : (0 : DWord).getLsbD l = false := BitVec.getLsbD_zero
  constructor
  · intro none
    refine List.eq_nil_iff_forall_not_mem.2 fun q hq => ?_
    have set := (s.loadOf_em i sp w d slots one (small q hq)).2 ⟨q, hq, rfl⟩
    rw [none, zero] at set
    cases set
  · intro empty
    refine BitVec.eq_of_getLsbD_eq fun l hl => ?_
    rw [zero, Bool.eq_false_iff]
    intro set
    obtain ⟨q, hq, -⟩ := (s.loadOf_em i sp w d slots one hl).1 set
    rw [empty] at hq
    cases hq

/-- A load that has looked up its pages pends its registers and opens its window (R54, R55, R140). -/
theorem loadPending_of {i : Instr} {sp : Space} {w : BitVec 3} {d : VCode} (slots : List (Nat × Nat × Nat))
    {one : Nat → Nat} {x : Nat → Nat → Word} (hx : ∀ j < widthRegs w, ∀ l, loadRule w j (one l) = x j l) (la : BitVec 4) :
    loadPending s (((lookedUp s qs).pendLoad (s.loadOf i sp w d slots qs one)).openWindow la (regsOf d (widthRegs w))) la (widthRegs w) d qs x := by
  by_cases empty : qs = []
  · rw [State.pendLoad_none ((State.loadOf_idle small).2 empty), lookedUp, loadWindow_opens]
    exact ⟨rfl, rfl, fun _ => rfl, fun some => absurd empty some⟩
  · have active : (s.loadOf i sp w d slots qs one).em ≠ 0 := mt (State.loadOf_idle small).1 empty
    have rows (h : d.toNat < 104) := loadRows_rule (w := w) (d := d) (by rintro rfl; simp at h)
      (ls := (qs.map Site.lane).dedup) (by simpa using small) one
    rw [State.pendLoad_some active, State.upd, lookedUp, loadWindow_opens]
    refine ⟨rfl, rfl, fun none => absurd none empty, fun _ => ⟨s.loadOf i sp w d slots qs one, rfl, rfl,
      fun l hl => s.loadOf_em i sp w d slots one hl, fun zero => if_pos zero, fun h => ⟨(rows h).1, fun r hr y hy => ?_⟩⟩⟩
    obtain ⟨inside, value⟩ := (rows h).2 r hr
    exact (value y.lane (List.mem_dedup.2 (List.mem_map_of_mem hy))).trans (hx _ inside _)

end

/-- A load of plain memory whose lanes none turned away: its value is fixed at once. -/
theorem State.loadWith_plain {s : State} {q : Plan} (h : plain s q.sites) (lines : linesStill s q.sites) (kept : q.rejected = [])
    (wait : s.sh.wait = none) (i : Instr) (sp : Space) (w : BitVec 3) (la : BitVec 4) (d : VCode) (desc : Bool) (ord : BitVec 2)
    (slots : List (Nat × Nat × Nat)) :
    s.loadWith i sp w la d desc ord slots (.ok q) = ((lookedUp s q.sites).pendLoad (s.loadOf i sp w d slots q.sites fun l =>
      if desc then ((q.sites.find? (·.lane = l)).map fun y => (lineDesc s.lines y.key).toNat).getD 0 else numberAt s q.sites l)).openWindow la
        (regsOf d (widthRegs w)) := by
  obtain ⟨-, buf, bad, weak, parking, -, counted, quiet⟩ := h
  have goes : ¬ (s.readWaits q.sites || s.orderHolds || (ord = 3 && s.parkedMine)) = true := by
    simp [State.readWaits_none parking, State.orderHolds_none parking, State.parkedMine_none parking]
  rw [State.loadWith]
  simp only [if_neg goes, State.firstBad_none bad, kept, if_true, State.unhold_of_wait wait, State.touch_still weak counted quiet lines,
    State.seeDesc_plain buf, State.laneValue, State.see_plain buf]
  rfl

/-! ### The words -/

section
variable {s : State} {la : BitVec 4} {w : BitVec 3} {d a : VCode} {q : Plan}

/-- What O27 says of a load holds where the lines of its pieces do not count. -/
theorem loads_pend {m : Bool} {e : Option MemExt} {p : Instr × Space} (hp : p ∈ loadWords la w d a m e) (issues : s.issues p.1 = true)
    (passes : s.plan p.2 .load (widthBytes w) true (s.laneAddrs p.2 a (ofsOf e)) = .ok q) (kept : q.rejected = []) (h : plain s q.sites)
    (lines : linesStill s q.sites) :
    ∃ t, exec p.1 s = .next t ∧
      loadPending s t la (if w = 5 then 2 else if w = 6 then 4 else 1) d q.sites fun j l => loadRule w j (numberAt s q.sites l) := by
  have run {i : Instr} {sp : Space} (hi : s.issues i = true) (word : exec i s = s.issueWait i fun s => s.load i sp la w d a false e)
      (ok : s.plan sp .load (widthBytes w) true (s.laneAddrs sp a (ofsOf e)) = .ok q) :
      ∃ t, exec i s = .next t ∧ loadPending s t la (widthRegs w) d q.sites fun j l => loadRule w j (numberAt s q.sites l) := by
    refine ⟨_, word.trans (State.issueWait_of_issues hi _), ?_⟩
    simp only [State.load, Bool.not_false, Bool.false_eq_true, if_false, ok]
    rw [State.loadWith_plain h lines kept (State.issues_wait hi)]
    exact loadPending_of (State.plan_lane_lt ok) [] (fun _ _ _ => rfl) la
  simp only [loadWords, List.mem_cons, List.not_mem_nil, or_false] at hp
  obtain rfl | rfl | rfl | rfl | rfl | rfl := hp <;> exact run issues rfl passes

/-- What O28 says of a descriptor load holds where the lines of its pieces do not count. -/
theorem descriptorLoads_pend {e : Option MemExt} {p : Instr × Space}
    (hp : p ∈ [(Instr.ldsDesc la d a e, Space.spad), (.ldgDesc la d a e, .dev)]) (issues : s.issues p.1 = true)
    (passes : s.plan p.2 .load 1 false (s.laneAddrs p.2 a (ofsOf e)) = .ok q) (kept : q.rejected = []) (h : plain s q.sites)
    (lines : linesStill s q.sites) :
    ∃ t, exec p.1 s = .next t ∧ loadPending s t la 1 d q.sites fun _ l =>
      (((q.sites.find? (·.lane = l)).map fun x => lineDesc s.lines x.key).getD 0).setWidth 32 := by
  have run {i : Instr} {sp : Space} (hi : s.issues i = true) (word : exec i s = s.issueWait i fun s => s.load i sp la 4 d a true e)
      (ok : s.plan sp .load 1 false (s.laneAddrs sp a (ofsOf e)) = .ok q) :
      ∃ t, exec i s = .next t ∧ loadPending s t la (widthRegs 4) d q.sites fun _ l =>
        (((q.sites.find? (·.lane = l)).map fun x => lineDesc s.lines x.key).getD 0).setWidth 32 := by
    refine ⟨_, word.trans (State.issueWait_of_issues hi _), ?_⟩
    simp only [State.load, Bool.not_true, if_true, ok]
    rw [State.loadWith_plain h lines kept (State.issues_wait hi)]
    refine loadPending_of (State.plan_lane_lt ok) [] (fun j hj l => ?_) la
    obtain rfl : j = 0 := Nat.lt_one_iff.1 hj
    have narrow (x : BitVec 16) : BitVec.ofNat 32 (x.toNat / 2 ^ (32 * 0)) = x.setWidth 32 := by
      rw [Nat.mul_zero, Nat.pow_zero, Nat.div_one, BitVec.ofNat_toNat]
    cases q.sites.find? (·.lane = l) with
    | none => exact narrow 0
    | some y => exact narrow (lineDesc s.lines y.key)
  simp only [List.mem_cons, List.not_mem_nil, or_false] at hp
  obtain rfl | rfl := hp <;> exact run issues rfl passes

end

/-- A lane of a step-qualified load keeps its number, and its piece lies in a scratchpad if it names a slot (R128, R190). -/
theorem State.stepLane_site (s : State) (tb n : Nat) (t : Int) (p : Nat × Nat) :
    (s.stepLane tb n t p).site.lane = p.1 ∧
      ((s.stepLane tb n t p).far = false → ∃ core off, (s.stepLane tb n t p).site.key = spadKey core off) := by
  unfold State.stepLane
  dsimp only
  split
  · exact ⟨rfl, nofun⟩
  · split
    · exact ⟨rfl, nofun⟩
    · split
      · exact ⟨rfl, nofun⟩
      · split
        · exact ⟨rfl, nofun⟩
        · split
          · exact ⟨rfl, nofun⟩
          · exact ⟨rfl, fun _ => ⟨_, _, rfl⟩⟩

theorem Site.back_spad {q : Site} {core off : Nat} (h : q.key = spadKey core off) : q.back = none := by
  have above : ¬ q.key < 2 * spaceSize := by
    rw [h, spadKey]
    omega
  simp [Site.back, above]

/-- What O28 says of a step-qualified load holds. -/
theorem stepLoads_pend {s : State} {la : BitVec 4} {w : BitVec 3} {d a : VCode} {tb : BitVec 5} {sel : BitVec 2}
    (issues : s.issues (.ldcStep la w d a tb sel) = true) :
    let ls := (s.laneAddrs .clus a 0).map (s.stepLane tb.toNat (widthBytes w) (s.stepSel sel))
    (∀ l ∈ ls, l.far = false ∧ l.ready = true ∧ l.site.va % 2 ^ 20 % widthBytes w = 0 ∧
      s.touchesRing l.site.key l.site.len = false) → plain s (ls.map StepLane.site) →
    ∃ t, exec (.ldcStep la w d a tb sel) s = .next t ∧
      loadPending s t la (if w = 5 then 2 else if w = 6 then 4 else 1) d (ls.map StepLane.site)
        fun j l => loadRule w j (numberAt s (ls.map StepLane.site) l) := by
  intro ls full h
  simp only [imp_and, forall_and] at full
  obtain ⟨inside, filled, whole, free⟩ := full
  have near : (ls.filter StepLane.far).map StepLane.lane = [] := by
    rw [List.map_eq_nil_iff, List.filter_eq_nil_iff]
    exact fun l hl => Bool.eq_false_iff.1 (inside l hl)
  have aligned : (ls.filter fun l => l.site.va % 2 ^ 20 % widthBytes w ≠ 0).map StepLane.lane = [] := by
    rw [List.map_eq_nil_iff, List.filter_eq_nil_iff]
    exact fun l hl => by simpa using whole l hl
  have ringless : ¬ (ls.any fun l => s.touchesRing l.site.key l.site.len) = true := by simpa using free
  have ready : ls.all StepLane.ready = true := List.all_eq_true.2 filled
  have lines : linesStill s (ls.map StepLane.site) := by
    intro y hy k m back
    obtain ⟨l, hl, rfl⟩ := List.mem_map.1 hy
    obtain ⟨p, -, rfl⟩ := List.mem_map.1 hl
    obtain ⟨core, off, key⟩ := (s.stepLane_site tb.toNat (widthBytes w) (s.stepSel sel) p).2 (inside _ hl)
    rw [Site.back_spad key] at back
    cases back
  have small : ∀ y ∈ ls.map StepLane.site, y.lane < 64 := by
    intro y hy
    obtain ⟨l, hl, rfl⟩ := List.mem_map.1 hy
    obtain ⟨p, hp, rfl⟩ := List.mem_map.1 hl
    rw [(s.stepLane_site tb.toNat (widthBytes w) (s.stepSel sel) p).1]
    exact (State.mem_laneAddrs.1 hp).1
  have run : exec (.ldcStep la w d a tb sel) s = .next (s.loadWith (.ldcStep la w d a tb sel) .clus w la d false 0 (ls.map StepLane.slot).dedup
      (.ok ⟨ls.map StepLane.site, []⟩)) := by
    change execLdcStep la w d a tb sel s = _
    rw [execLdcStep, State.issueWait_of_issues issues]
    dsimp only
    rw [if_neg (not_not.2 near), if_neg (not_not.2 aligned), if_neg ringless, if_pos ready]
  refine ⟨_, run, ?_⟩
  rw [State.loadWith_plain h lines rfl (State.issues_wait issues)]
  exact loadPending_of small _ (fun _ _ _ => rfl) la

end Sys2Proof.Machine
end

section
/-!
PROOFS. Stores where no line counts for the bytes beside a piece: descriptors, and what a repeatable quantum buffers (R127, R135, R138).
-/

namespace Sys2Proof.Machine

open Sys2Proof Sys2Proof.Rules

/-! ### The pieces of a store, one after another (R124, R143) -/

/-- The bytes that a piece of lane l gets of D (R115, R143). -/
def State.storedBytes (s : State) (w : BitVec 3) (d : VCode) (y : Site) : List Byte :=
  (leBytes (y.off + y.len) (s.sh.rd.storeVal w d y.lane)).drop y.off

theorem State.storedBytes_length (s : State) (w : BitVec 3) (d : VCode) (y : Site) : (s.storedBytes w d y).length = y.len := by
  rw [State.storedBytes, List.length_drop, leBytes_length, Nat.add_sub_cancel_left]

theorem leNat_append (as bs : List Byte) : leNat (as ++ bs) = leNat as + 256 ^ as.length * leNat bs := by
  induction as with
  | nil => simp [leNat]
  | cons a as ih =>
    rw [List.cons_append, leNat, leNat, ih, List.length_cons, pow_succ']
    ring

/-- The number that is stored (R115, R143). -/
theorem State.storeVal_eq (s : State) (w : BitVec 3) (d : VCode) (l : Nat) : s.sh.rd.storeVal w d l = storedNumber s w d l := by
  unfold Regs.storeVal storedNumber
  split
  · rfl
  · split
    · have four (f : Nat → List Byte) : (List.range 4).flatMap f = f 0 ++ (f 1 ++ (f 2 ++ (f 3 ++ []))) := rfl
      have word (j : Nat) : (laneOf (s.sh.rd.file (d.toNat + j)) l).toNat % 256 ^ 4 = (laneOf (s.sh.rd.file (d.toNat + j)) l).toNat :=
        Nat.mod_eq_of_lt (laneOf (s.sh.rd.file (d.toNat + j)) l).isLt
      simp only [four, leNat_append, leNat_leBytes, leBytes_length, word, leNat]
      ring
    · rfl

theorem leNat_drop (bs : List Byte) (n : Nat) : leNat (bs.drop n) = leNat bs / 256 ^ n := by
  induction n generalizing bs with
  | zero => simp
  | succ n ih =>
    cases bs with
    | nil => simp [leNat]
    | cons b bs =>
      have small := b.isLt
      rw [List.drop_succ_cons, ih, leNat, pow_succ', ← Nat.div_div_eq_div_mul]
      congr 1
      omega

/-- The number that the bytes of a piece stand for. -/
theorem State.leNat_storedBytes (s : State) (w : BitVec 3) (d : VCode) (y : Site) :
    leNat (s.storedBytes w d y) = storedNumber s w d y.lane / 256 ^ y.off % 256 ^ y.len := by
  rw [State.storedBytes, leNat_drop, leNat_leBytes, s.storeVal_eq, pow_add, Nat.mod_mul_right_div_self]

section
variable {s : State} {q : Plan} (kept : q.rejected = []) (wait : s.sh.wait = none) (parking : s.parking = [])
  {i : Instr} {sp : Space} {w : BitVec 3} {d a : VCode} {e : Option MemExt}

theorem State.parkingFull_none {s : State} {qs : List Site} (h : ∀ y ∈ qs, s.parksAt y = none) : s.parkingFull qs = false := by
  have none : s.parkLines qs = [] := by
    rw [State.parkLines, List.filterMap_eq_nil_iff.2 fun y hy => by rw [h y hy]; rfl]
    rfl
  simp [State.parkingFull, none]

include kept wait

/-- A store that passes its checks, waits for nothing and meets no line in error: its pieces one after another. -/
theorem State.store_runs {desc buffered : Bool}
    (ok : s.plan sp .store (if desc then 1 else widthBytes w) (!desc) (s.laneAddrs sp a (ofsOf e)) = .ok q)
    (mode : (s.repeatable && sp ≠ .priv) = buffered)
    (goes : ((ordOf e ≠ 0 && s.parkedMine) || s.orderHolds || (!buffered && (s.overtakes q.sites || s.parkingFull q.sites))) = false)
    (good : ∀ whole, s.firstBad whole (s.directSites buffered q.sites) = none) :
    s.store i sp w d a desc e = q.sites.foldl (fun t y =>
        if desc then t.writeDesc buffered (ordOf e = 3) (s.issuer i y.lane) y ((laneOf (s.sh.rd.src d) y.lane).extractLsb' 0 16)
        else t.writeSite buffered (ordOf e = 3) (if w = 6 then wholeLines q.sites else []) (s.issuer i y.lane) y (s.storedBytes w d y))
      ((s.touch q.sites).openFar i (s.directSites buffered q.sites) []) := by
  simp only [State.store, ok, mode, goes, Bool.false_eq_true, if_false, good, kept, if_true, State.unhold_of_wait wait]
  rfl

include parking

/-- A store outside a repeatable quantum whose pieces park nowhere waits for nothing. -/
theorem State.store_direct {desc : Bool} (ok : s.plan sp .store (if desc then 1 else widthBytes w) (!desc) (s.laneAddrs sp a (ofsOf e)) = .ok q)
    (plainly : s.repeatable = false) (bad : s.badLines = []) (parks : ∀ y ∈ q.sites, s.parksAt y = none) :
    s.store i sp w d a desc e = q.sites.foldl (fun t y =>
        if desc then t.writeDesc false (ordOf e = 3) (s.issuer i y.lane) y ((laneOf (s.sh.rd.src d) y.lane).extractLsb' 0 16)
        else t.writeSite false (ordOf e = 3) (if w = 6 then wholeLines q.sites else []) (s.issuer i y.lane) y (s.storedBytes w d y))
      ((s.touch q.sites).openFar i (s.directSites false q.sites) []) :=
  State.store_runs kept wait ok (by rw [plainly, Bool.false_and])
    (by simp [State.parkedMine_none parking, State.orderHolds_none parking, State.overtakes_none parking, State.parkingFull_none parks])
    fun whole => State.firstBad_none bad whole _

/-- A store in a repeatable quantum waits for nothing, and meets a line in error at the commit (R135). -/
theorem State.store_buffers (ok : s.plan sp .store (widthBytes w) true (s.laneAddrs sp a (ofsOf e)) = .ok q) (repeatable : s.repeatable = true)
    (hsp : sp ≠ .priv) :
    s.store i sp w d a false e = q.sites.foldl (fun t y =>
        t.writeSite true (ordOf e = 3) (if w = 6 then wholeLines q.sites else []) (s.issuer i y.lane) y (s.storedBytes w d y))
      ((s.touch q.sites).openFar i [] []) :=
  State.store_runs (desc := false) (buffered := true) kept wait ok (by simp [repeatable, hsp])
    (by simp [State.parkedMine_none parking, State.orderHolds_none parking])
    fun whole => by simp [State.firstBad, State.directSites]

end

/-! ### Descriptors (R127) -/

/-- Descriptors written one after another, the higher lane last. -/
def putDescs (tag : BitVec 12) (v : Site → BitVec 16) (l : List (Nat × BitVec 32)) (ys : List Site) : List (Nat × BitVec 32) :=
  ys.foldl (fun l y => setDesc l y.key tag (v y)) l

section
variable (tag : BitVec 12) (v : Site → BitVec 16) {l : List (Nat × BitVec 32)} (h : Memory.linesWf l = true) {ys : List Site}
include h

theorem putDescs_wf : Memory.linesWf (putDescs tag v l ys) = true := linesFold_wf _ (fun _ _ hl => setDesc_wf _ _ _ hl) ys h

theorem lineMeta_putDescs_other {k : Nat} (other : ∀ y ∈ ys, lineOf y.key ≠ lineOf k) : lineMeta (putDescs tag v l ys) k = lineMeta l k := by
  induction ys generalizing l with
  | nil => rfl
  | cons y ys ih =>
    have apart : lineOf k ≠ lineOf y.key := (other y List.mem_cons_self).symm
    refine (ih (setDesc_wf _ _ _ h) fun z hz => other z (List.mem_cons_of_mem _ hz)).trans ?_
    rw [lineMeta_setDesc _ _ _ _ h, if_neg apart, ite_self]

theorem lineMeta_putDescs_last {pre post : List Site} {x : Site} (own : isForeign x.key = false)
    (last : ∀ y ∈ post, lineOf y.key ≠ lineOf x.key) :
    lineMeta (putDescs tag v l (pre ++ x :: post)) x.key = (0#4 ++ tag) ++ v x := by
  have before := putDescs_wf tag v h (ys := pre)
  have split : putDescs tag v l (pre ++ x :: post) = putDescs tag v (setDesc (putDescs tag v l pre) x.key tag (v x)) post := by
    rw [putDescs, List.foldl_append, List.foldl_cons]
    rfl
  rw [split, lineMeta_putDescs_other tag v (setDesc_wf _ _ _ before) last, lineMeta_setDesc _ _ _ _ before, own, if_neg (by decide), if_pos rfl]

end

/-- What O30 says holds where the lines of its pieces do not count. -/
theorem descriptorStores_write {s : State} (form : s.memOk) {la : BitVec 4} {d a : VCode} {e : Option MemExt} {p : Instr × Space} {q : Plan}
    (hp : p ∈ [(Instr.stsDesc la d a e, Space.spad), (.stgDesc la d a e, .dev)]) (issues : s.issues p.1 = true)
    (passes : s.plan p.2 .store 1 false (s.laneAddrs p.2 a (ofsOf e)) = .ok q) (kept : q.rejected = []) (h : plain s q.sites)
    (own : ∀ x ∈ q.sites, isForeign x.key = false) (lines : linesStill s q.sites) :
    ∃ t, exec p.1 s = .next t ∧ { t with lines := s.lines, tlb := s.tlb } = s ∧
      (∀ pre x post, q.sites = pre ++ x :: post → (∀ y ∈ post, lineOf y.key ≠ lineOf x.key) →
        lineDesc t.lines x.key = (inA s d x.lane).setWidth 16 ∧ (lineMeta t.lines x.key).extractLsb' 16 12 = s.tag) ∧
      (∀ k, (∀ x ∈ q.sites, lineOf x.key ≠ lineOf k) → lineMeta t.lines k = lineMeta s.lines k) := by
  obtain ⟨plainly, -, bad, weak, parking, -, counted, quiet⟩ := h
  let v := fun (y : Site) => (laneOf (s.sh.rd.src d) y.lane).extractLsb' 0 16
  have writes (i : Instr) (holds : Bool) (T : List Cached) (ys : List Site) (park : ∀ y ∈ ys, s.parksAt y = none) (L : List (Nat × BitVec 32)) :
      ys.foldl (fun t y => t.writeDesc false holds (s.issuer i y.lane) y (v y)) { s with tlb := T, lines := L } =
        { s with tlb := T, lines := putDescs s.tag v L ys } := by
    induction ys generalizing L with
    | nil => rfl
    | cons y ys ih =>
      have made := State.writeDesc_plain (s := { s with tlb := T, lines := L }) bad (q := y) (park y List.mem_cons_self) holds
        (s.issuer i y.lane) (v y)
      rw [List.foldl_cons, made]
      exact ih (fun z hz => park z (List.mem_cons_of_mem _ hz)) _
  have run {i : Instr} {sp : Space} (hi : s.issues i = true) (word : exec i s = s.issueWait i fun s => s.store i sp 4 d a true e)
      (ok : s.plan sp .store 1 false (s.laneAddrs sp a (ofsOf e)) = .ok q) :
      exec i s = .next { s with tlb := (s.lookUpAll q.sites).tlb, lines := putDescs s.tag v s.lines q.sites } := by
    have near : (s.touch q.sites).openFar i (s.directSites false q.sites) [] = lookedUp s q.sites := by
      rw [State.touch_still weak counted quiet lines, State.openFar, if_neg]
      simpa [State.directSites] using fun x hx _ => own x hx
    rw [word, State.issueWait_of_issues hi, State.store_direct (desc := true) kept (State.issues_wait hi) parking ok plainly bad
      fun y hy => State.parksAt_still quiet hy, near]
    exact congrArg Host.Outcome.next (writes i _ _ _ (fun y hy => State.parksAt_still quiet hy) s.lines)
  have all : exec p.1 s = .next { s with tlb := (s.lookUpAll q.sites).tlb, lines := putDescs s.tag v s.lines q.sites } := by
    simp only [List.mem_cons, List.not_mem_nil, or_false] at hp
    obtain rfl | rfl := hp <;> exact run issues rfl passes
  refine ⟨_, all, rfl, fun pre x post split last => ?_, fun k other => lineMeta_putDescs_other s.tag v form.2 other⟩
  have there : lineMeta (putDescs s.tag v s.lines q.sites) x.key = (0#4 ++ s.tag) ++ v x := by
    rw [split]
    exact lineMeta_putDescs_last s.tag v form.2 (own x (by rw [split]; simp)) last
  constructor
  · rw [lineDesc, there, lineDesc_append]
    exact (BitVec.setWidth_eq_extractLsb' (by decide)).symm
  · rw [there, owner_append]

/-! ### What a repeatable quantum buffers (R135, R138) -/

/-- The buffer entry of a piece. -/
def State.bufferOf (s : State) (i : Instr) (w : BitVec 3) (d : VCode) (whole : List Nat) (y : Site) : BufWrite :=
  .bytes (y.map.map fun _ => y.va) y.key (s.storedBytes w d y) (whole.contains (lineOf y.key)) (s.issuer i y.lane)

/-- The entries of a store are added to what the sheaf's buffer holds. -/
theorem State.writeSites_buffered (s : State) (i : Instr) (w : BitVec 3) (d : VCode) (holds : Bool) (whole : List Nat) (ys : List Site) (t : State) :
    ys.foldl (fun t y => t.writeSite true holds whole (s.issuer i y.lane) y (s.storedBytes w d y)) t =
      t.upd fun h => { h with buf := h.buf ++ ys.map (s.bufferOf i w d whole) } := by
  induction ys generalizing t with
  | nil =>
    simp only [List.foldl_nil, List.map_nil, List.append_nil]
    rfl
  | cons y ys ih =>
    rw [List.foldl_cons, ih, State.writeSite_buffered]
    simp only [State.upd, List.append_assoc, List.map_cons, List.singleton_append, State.bufferOf]

/-- A buffered write holds a byte. -/
def BufWrite.covers (k : Nat) : BufWrite → Bool
  | .bytes _ lo bs _ _ => decide (lo ≤ k) && decide (k < lo + bs.length)
  | .desc _ _ _ _ => false
  | .batch _ => false

/-- The sheaf sees the last of its buffered writes that holds a byte (R135). -/
theorem State.seeByte_found {t : State} {k lo : Nat} {va : Option Nat} {bs : List Byte} {whole : Bool} {src : Issuer}
    (h : t.sh.buf.reverse.find? (BufWrite.covers k) = some (.bytes va lo bs whole src)) : t.seeByte k = bs.getD (k - lo) 0 := by
  have covers : (fun w : BufWrite => match w with | .bytes _ lo bs _ _ => lo ≤ k && k < lo + bs.length | _ => false) = BufWrite.covers k := by
    funext w
    cases w <;> rfl
  change (match t.sh.buf.reverse.find? (fun w : BufWrite => match w with | .bytes _ lo bs _ _ => lo ≤ k && k < lo + bs.length | _ => false) with
    | some (.bytes _ lo bs _ _) => bs.getD (k - lo) 0 | _ => readByte t.mem k) = _
  rw [covers, h]

/-- Nothing that comes later in the buffer holds the byte. -/
theorem State.seeByte_last {t : State} {before after : List BufWrite} {va : Option Nat} {lo : Nat} {bs : List Byte} {whole : Bool} {src : Issuer}
    (buf : t.sh.buf = before ++ .bytes va lo bs whole src :: after) {j : Nat} (hj : j < bs.length)
    (later : ∀ x ∈ after, BufWrite.covers (lo + j) x = false) : t.seeByte (lo + j) = bs.getD j 0 := by
  have none : after.reverse.find? (BufWrite.covers (lo + j)) = none :=
    List.find?_eq_none.2 fun x hx => by simp [later x (List.mem_reverse.1 hx)]
  have found : t.sh.buf.reverse.find? (BufWrite.covers (lo + j)) = some (.bytes va lo bs whole src) := by
    rw [buf, List.reverse_append, List.reverse_cons, List.append_assoc, List.find?_append, none, Option.none_or, List.singleton_append,
      List.find?_cons_of_pos]
    simpa [BufWrite.covers] using hj
  rw [State.seeByte_found found, Nat.add_sub_cancel_left]

/-- The sheaf sees the bytes of a buffered write that no later one covers. -/
theorem State.see_last {t : State} {before after : List BufWrite} {va : Option Nat} {lo : Nat} {bs : List Byte} {whole : Bool} {src : Issuer}
    (buf : t.sh.buf = before ++ .bytes va lo bs whole src :: after)
    (later : ∀ j < bs.length, ∀ x ∈ after, BufWrite.covers (lo + j) x = false) : t.see lo bs.length = bs := by
  have some : t.sh.buf ≠ [] := by rw [buf]; simp
  rw [State.see, if_neg some]
  refine List.ext_getElem (by simp) fun j _ hj => ?_
  rw [List.getElem_map, List.getElem_range, State.seeByte_last buf hj (later j hj), List.getD_eq_getElem _ _ hj]

/-- What O33 says holds where the lines of its pieces do not count. -/
theorem repeatableStores_buffer {s : State} {la : BitVec 4} {w : BitVec 3} {d a : VCode} {m : Bool} {e : Option MemExt} {p : Instr × Space}
    {q : Plan} (repeatable : s.repeatable = true) (weak : s.weak = []) (parking : s.parking = []) (counted : uncountedAccess s)
    (hp : p ∈ storeWords la w d a m e) (hsp : p.2 ≠ .priv) (issues : s.issues p.1 = true)
    (passes : s.plan p.2 .store (widthBytes w) true (s.laneAddrs p.2 a (ofsOf e)) = .ok q) (kept : q.rejected = []) (quiet : still s q.sites)
    (lines : linesStill s q.sites) :
    ∃ t, exec p.1 s = .next t ∧ t.mem = s.mem ∧ t.lines = s.lines ∧
      (∀ pre x post, q.sites = pre ++ x :: post → (∀ y ∈ post, ∀ k, inSite x k → ¬ inSite y k) →
        leNat (t.see x.key x.len) = storedNumber s w d x.lane / 256 ^ x.off % 256 ^ x.len) := by
  let whole := if w = 6 then wholeLines q.sites else []
  have run {i : Instr} {sp : Space} (hi : s.issues i = true) (hsp : sp ≠ .priv)
      (word : exec i s = s.issueWait i fun s => s.store i sp w d a false e)
      (ok : s.plan sp .store (widthBytes w) true (s.laneAddrs sp a (ofsOf e)) = .ok q) :
      exec i s = .next ((lookedUp s q.sites).upd fun h => { h with buf := h.buf ++ q.sites.map (s.bufferOf i w d whole) }) := by
    have near : (s.touch q.sites).openFar i [] [] = lookedUp s q.sites := by
      rw [State.touch_still weak counted quiet lines]
      rfl
    rw [word, State.issueWait_of_issues hi, State.store_buffers kept (State.issues_wait hi) parking ok repeatable hsp, near,
      State.writeSites_buffered]
  have all : exec p.1 s = .next ((lookedUp s q.sites).upd fun h => { h with buf := h.buf ++ q.sites.map (s.bufferOf p.1 w d whole) }) := by
    simp only [storeWords, List.mem_cons, List.not_mem_nil, or_false] at hp
    obtain rfl | rfl | rfl | rfl | rfl | rfl := hp
    · exact absurd rfl hsp
    all_goals exact run issues (by decide) rfl passes
  refine ⟨_, all, rfl, rfl, fun pre x post split apart => ?_⟩
  have buf : s.sh.buf ++ q.sites.map (s.bufferOf p.1 w d whole) =
      (s.sh.buf ++ pre.map (s.bufferOf p.1 w d whole)) ++ s.bufferOf p.1 w d whole x :: post.map (s.bufferOf p.1 w d whole) := by
    rw [split, List.map_append, List.map_cons, List.append_assoc]
  have seen : ((lookedUp s q.sites).upd fun h => { h with buf := h.buf ++ q.sites.map (s.bufferOf p.1 w d whole) }).see x.key x.len =
      s.storedBytes w d x := by
    rw [← s.storedBytes_length w d x]
    refine State.see_last buf fun j hj z hz => ?_
    obtain ⟨y, hy, rfl⟩ := List.mem_map.1 hz
    have other := apart y hy (x.key + j) (by rw [s.storedBytes_length] at hj; exact ⟨Nat.le_add_right _ _, Nat.add_lt_add_left hj _⟩)
    simpa [State.bufferOf, BufWrite.covers, s.storedBytes_length, inSite] using other
  rw [seen, s.leNat_storedBytes]

end Sys2Proof.Machine
end

section
/-!
PROOFS. Stores that no page parks and no route turns away: their bytes, the owners of their lines, and nothing else (R86, R120, R124, R143).
-/

namespace Sys2Proof.Machine

open Sys2Proof Sys2Proof.Rules

/-! ### Bytes and owners of pieces written one after another (R86, R124) -/

/-- Bytes written one piece after another. -/
def putPieces (b : Site → List Byte) (m : List Host.Cell) (ys : List Site) : List Host.Cell := ys.foldl (fun m y => writeBytes m y.key (b y)) m

/-- The lines that pieces mark, one piece after another. -/
def ownPieces (tag : BitVec 12) (b : Site → List Byte) (s : State) (ys : List Site) : List (Nat × BitVec 32) :=
  (ys.foldl (fun t y => t.putBytes tag y.key (b y)) s).lines

theorem readBytes_same {m m' : List Host.Cell} {k n : Nat} (h : ∀ j < n, readByte m (k + j) = readByte m' (k + j)) :
    readBytes m k n = readBytes m' k n := by
  induction n generalizing k with
  | zero => rfl
  | succ n ih =>
    have rest : readBytes m (k + 1) n = readBytes m' (k + 1) n := ih fun j hj => by
      have := h (j + 1) (by omega)
      rwa [show k + (j + 1) = k + 1 + j by omega] at this
    rw [readBytes, readBytes, rest, show readByte m k = readByte m' k from h 0 (Nat.zero_lt_succ n)]

section
variable {b : Site → List Byte} (size : ∀ y, (b y).length = y.len) {m : List Host.Cell} (hm : Memory.wf m = true) {ys : List Site}
include hm

theorem putPieces_wf : Memory.wf (putPieces b m ys) = true := by
  induction ys generalizing m with
  | nil => exact hm
  | cons y ys ih => exact ih (writeBytes_wf _ _ hm)

include size

theorem readByte_putPieces_other {k : Nat} (other : ∀ y ∈ ys, ¬ inSite y k) : readByte (putPieces b m ys) k = readByte m k := by
  induction ys generalizing m with
  | nil => rfl
  | cons y ys ih =>
    refine (ih (writeBytes_wf _ _ hm) fun z hz => other z (List.mem_cons_of_mem _ hz)).trans ?_
    rw [readByte_writeBytes _ _ _ hm, size]
    exact if_neg (other y List.mem_cons_self)

/-- The higher lane wins (R124). -/
theorem readBytes_putPieces_last {pre post : List Site} {x : Site} (last : ∀ y ∈ post, ∀ k, inSite x k → ¬ inSite y k) :
    readBytes (putPieces b m (pre ++ x :: post)) x.key x.len = b x := by
  have before := putPieces_wf hm (b := b) (ys := pre)
  have split : putPieces b m (pre ++ x :: post) = putPieces b (writeBytes (putPieces b m pre) x.key (b x)) post := by
    rw [putPieces, List.foldl_append, List.foldl_cons]
    rfl
  have kept : readBytes (putPieces b m (pre ++ x :: post)) x.key x.len = readBytes (writeBytes (putPieces b m pre) x.key (b x)) x.key x.len := by
    refine readBytes_same fun j hj => ?_
    rw [split]
    exact readByte_putPieces_other size (writeBytes_wf _ _ before) fun y hy =>
      last y hy _ ⟨Nat.le_add_right _ _, Nat.add_lt_add_left hj _⟩
  rw [kept, ← size x]
  exact readBytes_writeBytes _ _ before

end

section
variable {tag : BitVec 12} {b : Site → List Byte} (size : ∀ y, (b y).length = y.len) {s : State} (hl : Memory.linesWf s.lines = true)
  {ys : List Site}
include hl

theorem lineDesc_ownPieces (k : Nat) : lineDesc (ownPieces tag b s ys) k = lineDesc s.lines k := by
  induction ys generalizing s with
  | nil => rfl
  | cons y ys ih => exact (ih (putBytes_lines_wf _ _ _ _ hl)).trans (State.putBytes_lineDesc hl tag y.key (b y) k)

include size

/-- A piece of no byte in a line leaves it. -/
theorem lineMeta_putBytes_other {y : Site} {k : Nat} (other : ∀ j, inSite y j → lineOf j ≠ lineOf k) :
    lineMeta (s.putBytes tag y.key (b y)).lines k = lineMeta s.lines k := by
  by_cases none : b y = []
  · rw [none]
    rfl
  · rw [State.putBytes_lineMeta hl tag y.key none k, if_neg]
    rintro ⟨-, low, high⟩
    have some : 0 < y.len := by rw [← size]; exact List.length_pos_iff.2 none
    rw [size] at high
    have there : inSite y (max y.key (lineOf k)) := by
      refine ⟨le_max_left _ _, ?_⟩
      omega
    refine other _ there ?_
    unfold lineOf at *
    omega

theorem lineMeta_ownPieces_other {k : Nat} (other : ∀ y ∈ ys, ∀ j, inSite y j → lineOf j ≠ lineOf k) :
    lineMeta (ownPieces tag b s ys) k = lineMeta s.lines k := by
  induction ys generalizing s with
  | nil => rfl
  | cons y ys ih =>
    exact (ih (putBytes_lines_wf _ _ _ _ hl) fun z hz => other z (List.mem_cons_of_mem _ hz)).trans
      (lineMeta_putBytes_other size hl (other y List.mem_cons_self))

/-- The lines of the pieces belong to the writer (R86). -/
theorem owner_ownPieces {k : Nat} (tier : isForeign k = false)
    (own : (lineMeta s.lines k).extractLsb' 16 12 = tag ∨ ∃ y ∈ ys, inSite y k) :
    (lineMeta (ownPieces tag b s ys) k).extractLsb' 16 12 = tag := by
  induction ys generalizing s with
  | nil => exact own.resolve_right (by simp)
  | cons y ys ih =>
    refine ih (putBytes_lines_wf _ _ _ _ hl) ?_
    by_cases hit : inSite y k
    · obtain ⟨low, high⟩ := hit
      have some : b y ≠ [] := List.ne_nil_of_length_pos (by rw [size]; omega)
      refine .inl ?_
      rw [State.putBytes_lineMeta hl tag y.key some k, if_pos ⟨tier, by unfold lineOf; omega, by rw [size]; unfold lineOf; omega⟩, owner_append]
    · obtain mine | ⟨z, hz, hit'⟩ := own
      · refine .inl ?_
        by_cases none : b y = []
        · dsimp only
          rw [none]
          exact mine
        · rw [State.putBytes_lineMeta hl tag y.key none k]
          split
          · exact owner_append tag _
          · exact mine
      · obtain rfl | hz := List.mem_cons.1 hz
        · exact absurd hit' hit
        · exact .inr ⟨z, hz, hit'⟩

end

/-! ### The pieces of a store -/

/-- A write that may still be turned away joins the record of those, and changes no more of its sheaf (R120). -/
theorem Sheaf.addFar_far (h : Sheaf) (x : Issuer) (k : Nat) (old new : List Byte) : ∃ far, h.addFar x k old new = { h with far := far } := by
  unfold Sheaf.addFar
  dsimp only
  split
  · exact ⟨_, rfl⟩
  · split <;> exact ⟨_, rfl⟩

/-- The state with other memory, owners, caches and record of writes that may still be turned away. -/
def State.storing (s t : State) (far : List FarWrite) : State :=
  { s with mem := t.mem, lines := t.lines, tlb := t.tlb, sh := { s.sh with far := far } }

theorem State.storing_frame (s t : State) (far : List FarWrite) :
    ({ butFar s (s.storing t far) with mem := s.mem, lines := s.lines } : State) = s := by
  simp only [State.storing, butFar]

section
variable {s : State} (bad : s.badLines = []) (weak : s.weak = []) (untraced : s.lrec.flags.getLsbD 3 = false) (one : alone s s.sh.uid)
include bad weak untraced one

/-- A piece that no page parks and no route turns away is written at once. -/
theorem State.writeSite_storing (t : State) (far : List FarWrite) {y : Site} (back : y.back = none) (wb : ∀ m, y.map = some m → m.wb = false)
    (route : s.cutOff y.key = false) (holds : Bool) (whole : List Nat) (x : Issuer) (bs : List Byte) : ∃ far',
    (s.storing t far).writeSite false holds whole x y bs = s.storing (t.putBytes s.tag y.key bs) far' := by
  have landed : ∃ far', (if isForeign y.key then (s.storing t far).landFrom s.tag s.sh.uid x y.key bs (whole.contains (lineOf y.key))
      else (s.storing t far).land s.tag y.key bs (whole.contains (lineOf y.key))) = s.storing (t.putBytes s.tag y.key bs) far' := by
    have made := State.land_plain (s := s.storing t far) weak bad s.tag y.key bs (whole.contains (lineOf y.key))
    cases foreign : isForeign y.key with
    | false =>
      rw [if_neg (by decide), made]
      exact ⟨far, rfl⟩
    | true =>
      have good : (s.storing t far).lineBad y.key = false := by simp [State.lineBad, State.storing, bad]
      have near : (s.storing t far).cutOff y.key = false := route
      rw [if_pos rfl, State.landFrom, near, good, Bool.false_and, if_neg (by decide), if_neg (by decide), foreign, if_pos rfl, made,
        State.onSheaf_alone (s := (s.storing t far).putBytes s.tag y.key bs) one]
      obtain ⟨far', joined⟩ := Sheaf.addFar_far ((s.storing t far).putBytes s.tag y.key bs).sh x y.key
        (readBytes (s.storing t far).mem y.key bs.length) bs
      rw [joined]
      exact ⟨far', rfl⟩
  obtain ⟨far', made⟩ := landed
  refine ⟨far', ?_⟩
  simp only [State.writeSite, Bool.false_eq_true, if_false, State.parksAt_none wb back, State.landSite]
  rw [show (s.storing t far).tag = s.tag from rfl, show (s.storing t far).sh.uid = s.sh.uid from rfl, made,
    State.traceMine_none (s := s.storing (t.putBytes s.tag y.key bs) far') untraced, ite_self]

/-- The pieces of a store, the higher lane last. -/
theorem State.writeSites_storing (b : Site → List Byte) (holds : Bool) (whole : List Nat) (x : Site → Issuer) {ys : List Site}
    (goes : ∀ y ∈ ys, y.back = none ∧ (∀ m, y.map = some m → m.wb = false) ∧ s.cutOff y.key = false) (t : State) (far : List FarWrite) :
    ∃ far', ys.foldl (fun t y => t.writeSite false holds whole (x y) y (b y)) (s.storing t far) =
      s.storing (ys.foldl (fun t y => t.putBytes s.tag y.key (b y)) t) far' := by
  induction ys generalizing t far with
  | nil => exact ⟨far, rfl⟩
  | cons y ys ih =>
    obtain ⟨back, wb, route⟩ := goes y List.mem_cons_self
    obtain ⟨far', made⟩ := State.writeSite_storing bad weak untraced one t far back wb route holds whole (x y) (b y)
    obtain ⟨far'', rest⟩ := ih (fun z hz => goes z (List.mem_cons_of_mem _ hz)) (t.putBytes s.tag y.key (b y)) far'
    exact ⟨far'', by rw [List.foldl_cons, made, rest, List.foldl_cons]⟩

end

theorem putPieces_mem (tag : BitVec 12) (b : Site → List Byte) (ys : List Site) (t : State) :
    (ys.foldl (fun t y => t.putBytes tag y.key (b y)) t).mem = putPieces b t.mem ys := by
  induction ys generalizing t with
  | nil => rfl
  | cons y ys ih => exact ih _

/-- What O29 says holds where no piece comes back to this module's memory through a peer address, a route leads to every piece, and no
other sheaf has this one's handle. -/
theorem stores_write {s : State} (form : s.memOk) (one : alone s s.sh.uid) {la : BitVec 4} {w : BitVec 3} {d a : VCode} {m : Bool}
    {e : Option MemExt} {p : Instr × Space} {q : Plan} (hp : p ∈ storeWords la w d a m e) (issues : s.issues p.1 = true)
    (passes : s.plan p.2 .store (widthBytes w) true (s.laneAddrs p.2 a (ofsOf e)) = .ok q) (kept : q.rejected = []) (h : plain s q.sites)
    (goes : ∀ y ∈ q.sites, y.back = none ∧ s.cutOff y.key = false) :
    ∃ t, exec p.1 s = .next t ∧ { butFar s t with mem := s.mem, lines := s.lines } = s ∧
      (∀ k, (∀ x ∈ q.sites, ¬ inSite x k) → readByte t.mem k = readByte s.mem k) ∧
      (∀ pre x post, q.sites = pre ++ x :: post → (∀ y ∈ post, ∀ k, inSite x k → ¬ inSite y k) →
        readLE t.mem x.key x.len = storedNumber s w d x.lane / 256 ^ x.off % 256 ^ x.len) ∧
      (∀ k, lineDesc t.lines k = lineDesc s.lines k) ∧
      (∀ x ∈ q.sites, ∀ k, inSite x k → isForeign k = false → (lineMeta t.lines k).extractLsb' 16 12 = s.tag) ∧
      (∀ k, (∀ x ∈ q.sites, ∀ j, inSite x j → lineOf j ≠ lineOf k) → lineMeta t.lines k = lineMeta s.lines k) := by
  obtain ⟨plainly, -, bad, weak, parking, untraced, counted, quiet⟩ := h
  have lines : linesStill s q.sites := fun y hy k _ back => by
    rw [(goes y hy).1] at back
    cases back
  let t := q.sites.foldl (fun t y => t.putBytes s.tag y.key (s.storedBytes w d y)) (lookedUp s q.sites)
  have run {i : Instr} {sp : Space} (hi : s.issues i = true) (word : exec i s = s.issueWait i fun s => s.store i sp w d a false e)
      (ok : s.plan sp .store (widthBytes w) true (s.laneAddrs sp a (ofsOf e)) = .ok q) : ∃ far, exec i s = .next (s.storing t far) := by
    have near : ∃ far, (s.touch q.sites).openFar i (s.directSites false q.sites) [] = s.storing (lookedUp s q.sites) far := by
      rw [State.touch_still weak counted quiet lines, State.openFar]
      split
      · exact ⟨_, rfl⟩
      · exact ⟨s.sh.far, rfl⟩
    obtain ⟨far, near⟩ := near
    obtain ⟨far', made⟩ := State.writeSites_storing bad weak untraced one (s.storedBytes w d) (ordOf e = 3)
      (if w = 6 then wholeLines q.sites else []) (fun y => s.issuer i y.lane)
      (fun y hy => ⟨(goes y hy).1, fun m hm => ((quiet y hy).1 m hm).2, (goes y hy).2⟩) (lookedUp s q.sites) far
    refine ⟨far', ?_⟩
    rw [word, State.issueWait_of_issues hi, State.store_direct (desc := false) kept (State.issues_wait hi) parking ok plainly bad
      fun y hy => State.parksAt_still quiet hy, near]
    exact congrArg Host.Outcome.next made
  have all : ∃ far, exec p.1 s = .next (s.storing t far) := by
    simp only [storeWords, List.mem_cons, List.not_mem_nil, or_false] at hp
    obtain rfl | rfl | rfl | rfl | rfl | rfl := hp <;> exact run issues rfl passes
  obtain ⟨far, all⟩ := all
  have mem : (s.storing t far).mem = putPieces (s.storedBytes w d) s.mem q.sites := putPieces_mem _ _ _ _
  have owners : (s.storing t far).lines = ownPieces s.tag (s.storedBytes w d) (lookedUp s q.sites) q.sites := rfl
  have size := s.storedBytes_length w d
  have wf : Memory.linesWf (lookedUp s q.sites).lines = true := form.2
  refine ⟨_, all, s.storing_frame t far, fun k other => ?_, fun pre x post split last => ?_, fun k => ?_,
    fun x hx k hit tier => ?_, fun k other => ?_⟩
  · rw [mem]
    exact readByte_putPieces_other size form.1 other
  · rw [mem, readLE, split, readBytes_putPieces_last size form.1 last, s.leNat_storedBytes]
  · rw [owners]
    exact lineDesc_ownPieces wf k
  · rw [owners]
    exact owner_ownPieces size wf tier (.inr ⟨x, hx, hit⟩)
  · rw [owners]
    exact lineMeta_ownPieces_other size wf other

end Sys2Proof.Machine
end

section
/-!
PROOFS. Accesses that leave through a peer address and come back to this module's memory (R66): their lines count toward the page of
the line's first byte (R80), which `still` does not ask about, and they may write the tables by which the next piece parks (R83).
-/

namespace Sys2Proof.Machine

open Sys2Proof Sys2Proof.Rules

/-! ### A line of two owners, in a page that counts -/

/-- The page of virtual memory that entries 1, 1, 1 and 0 of a table translate (R68). -/
def onesPage : Nat := 2 ^ 39 + 2 ^ 30 + 2 ^ 21

/-- A partition whose window gives the first 2^20 bytes of its module's memory to the module itself (R66). -/
def mirror : Partition where
  num := 0
  clusters := []
  nqcfg := 0
  nqtail := 0
  nqhead := 0
  nqdrop := 0
  nqfull := false
  cthr := 0x01000100
  waiting := []
  windows := [{ base := 0, size := 2 ^ 20, key := 0, writable := true, modules := [0] }]
  resident := none
  since := 0

/-- A live sheaf whose lane 0 holds the peer address 40 in v0:v1 and the device address of byte 40 of `onesPage` in v2:v3. -/
def atByte40 : Sheaf := { Sheaf.absent with
  life := .live
  regs := { Regs.zero with
    em := 1
    v := ((Regs.zero.v.set 0 (rowOf fun _ => 40)).set 2 (rowOf fun _ => 0x40200028)).set 3 (rowOf fun _ => 128) } }

/-- The sheaf's context 1 owns bytes 32 to 63 of line 0, and its `onesPage` leads through peer memory back to this module's first
bytes. Context 2 owns bytes 0 to 31, in a page that counts accesses, at byte 256 of memory. -/
def splitLine (flags : BitVec 8) : State := { State.reset with
  mem := [(0, 0x0F), (8, 0x01), (4096, 0x13), (4104, 0x01), (4105, 0x10)]
  contexts := [{ bootContext with root := 0, frames := [(32, 32)] },
    { bootContext with tag := 2, counters := some (onesPage + 256 - 4 * (onesPage / 65536)), frames := [(0, 32)] }]
  tasks := [{ bootTask 0 with lrec := { LaunchRec.zero with flags := flags } }]
  partitions := [mirror]
  sh := atByte40 }

/-- The piece of an access through the peer address 40. -/
def peerByte40 (n : Nat) : Site := { lane := 0, off := 0, len := n, va := 40, key := 40, map := none }

/-- The piece of a descriptor access through the device address. -/
def deviceByte40 : Site where
  lane := 0
  off := 0
  len := 1
  va := onesPage + 40
  key := 40
  map := some { key := 3 * spaceSize + 40, page := onesPage, frame := 3 * spaceSize, size := 65536, ce := false, wb := false, psel := 0
                die := none, pte := 0 }

/-- Functions as they are at reset count nothing (R491). -/
theorem uncounted_of_reset {s : State} (h : s.fns = State.reset.fns) {e : Nat} (he : e ≠ 0) : uncounted s e := by
  intro v hv n x hx
  rw [h] at hv
  obtain ⟨hf, rfl⟩ := Vector.getElem?_eq_some_iff.1 hv
  rw [show State.reset.fns = Vector.replicate 96 VirtFn.zero from rfl, Vector.getElem_replicate] at hx
  obtain ⟨hn, rfl⟩ := Vector.getElem?_eq_some_iff.1 hx
  rw [show VirtFn.zero.psel = Vector.replicate 16 0 from rfl, Vector.getElem_replicate]
  exact he.symm

theorem uncountedAccess_of_reset {s : State} (h : s.fns = State.reset.fns) : uncountedAccess s :=
  ⟨uncounted_of_reset h (by decide), uncounted_of_reset h (by decide), uncounted_of_reset h (by decide), uncounted_of_reset h (by decide)⟩

/-- `still` as a test: no piece's page counts or migrates, nor that of a byte where a piece comes back. -/
theorem still_of_all {s : State} {qs : List Site} (h : (qs.all fun q => q.map.all (fun m => !m.ce && !m.wb) &&
    q.back.all fun k => (s.pageOf k).all fun m => !m.ce && !m.wb) = true) : still s qs := by
  intro q hq
  have both := List.all_eq_true.1 h q hq
  rw [Bool.and_eq_true] at both
  obtain ⟨page, back⟩ := both
  refine ⟨fun m hm => ?_, fun k m hk hm => ?_⟩
  · simpa [hm] using page
  · simpa [hk, hm] using back

/-- Byte 40 lies in a page of context 1 that neither counts nor migrates. -/
theorem splitLine_still : still (splitLine 0) [peerByte40 4] ∧ still (splitLine 0) [deviceByte40] ∧ still (splitLine 1) [peerByte40 4] :=
  ⟨still_of_all (by decide +kernel), still_of_all (by decide +kernel), still_of_all (by decide +kernel)⟩

theorem splitLine_plain {qs : List Site} (h : still (splitLine 0) qs) : plain (splitLine 0) qs :=
  ⟨rfl, rfl, rfl, rfl, rfl, rfl, uncountedAccess_of_reset rfl, h⟩

/-- Both addresses lead to byte 40 of this module. -/
theorem splitLine_plans :
    (splitLine 0).plan .peer .load (widthBytes 4) true ((splitLine 0).laneAddrs .peer 0 (ofsOf none)) = .ok ⟨[peerByte40 4], []⟩ ∧
    (splitLine 1).plan .peer .store (widthBytes 4) true ((splitLine 1).laneAddrs .peer 0 (ofsOf none)) = .ok ⟨[peerByte40 4], []⟩ ∧
    (splitLine 0).plan .dev .load 1 false ((splitLine 0).laneAddrs .dev 2 (ofsOf none)) = .ok ⟨[deviceByte40], []⟩ ∧
    (splitLine 0).plan .dev .store 1 false ((splitLine 0).laneAddrs .dev 2 (ofsOf none)) = .ok ⟨[deviceByte40], []⟩ := by
  decide +kernel

/-- Byte 256 of memory, after a word: the access counter of the page that line 0 begins in. -/
def counterAfter (i : Instr) (s : State) : Byte := match exec i s with | .next t => readByte t.mem 256 | _ => 0

/-- A word that counts has changed memory. -/
theorem mem_ne_of_counts {i : Instr} {s t : State} (run : exec i s = .next t) (before : readByte s.mem 256 = 0)
    (counts : counterAfter i s = 1) : t.mem ≠ s.mem := by
  intro h
  rw [counterAfter, run] at counts
  dsimp only at counts
  rw [h, before] at counts
  exact absurd counts (by decide)

/-- Refutes O27: in `splitLine` a peer load of byte 40, which lies in a page that counts nothing, counts line 0 in the page of its first
byte, and so changes memory. Where no such line counts, what it says of a load holds (`loads_pend`). -/
theorem not_loadsFixEachLanesValue : ¬ Obligations.LoadsFixEachLanesValue := by
  unfold Obligations.LoadsFixEachLanesValue
  intro h
  obtain ⟨plan, -⟩ := splitLine_plans
  obtain ⟨still, -⟩ := splitLine_still
  obtain ⟨t, run, frame, -⟩ := h (splitLine 0) 0 4 4 0 false none (.ldn 0 4 4 0 false none, .peer) (by simp [loadWords])
    (by decide +kernel) _ plan rfl (splitLine_plain still) (by decide) (by decide)
  have same := congrArg State.mem frame
  exact mem_ne_of_counts run (by decide +kernel) (by decide +kernel) same

/-- Refutes O28 by its clause on descriptor loads: in `splitLine` one of the descriptor of byte 40's line counts line 0 in the page of
its first byte. Where no such line counts the clause holds (`descriptorLoads_pend`), and the one on step-qualified loads always does
(`stepLoads_pend`). -/
theorem not_descriptorAndStepLoadsReadTheirLines : ¬ Obligations.DescriptorAndStepLoadsReadTheirLines := by
  unfold Obligations.DescriptorAndStepLoadsReadTheirLines
  rintro ⟨h, -⟩
  obtain ⟨-, -, plan, -⟩ := splitLine_plans
  obtain ⟨-, still, -⟩ := splitLine_still
  obtain ⟨t, run, frame, -⟩ := h (splitLine 0) 0 4 2 none (.ldgDesc 0 4 2 none, .dev) (by simp) (by decide +kernel) _
    plan rfl (splitLine_plain still) (by decide)
  have same := congrArg State.mem frame
  exact mem_ne_of_counts run (by decide +kernel) (by decide +kernel) same

/-- Refutes O30: in `splitLine` a store of the descriptor of byte 40's line counts line 0 in the page of its first byte, and so
changes a byte of data. Where no such line counts it holds (`descriptorStores_write`). -/
theorem not_descriptorStoresWriteTheLines : ¬ Obligations.DescriptorStoresWriteTheLines := by
  unfold Obligations.DescriptorStoresWriteTheLines
  intro h
  obtain ⟨-, -, -, plan⟩ := splitLine_plans
  obtain ⟨-, still, -⟩ := splitLine_still
  obtain ⟨t, run, frame, -⟩ := h (splitLine 0) 0 4 2 none (by unfold State.memOk; decide +kernel) (.stgDesc 0 4 2 none, .dev) (by simp)
    (by decide +kernel) _ plan rfl (splitLine_plain still) (by simp only [List.mem_singleton, forall_eq]; decide)
  have same := congrArg State.mem frame
  exact mem_ne_of_counts run (by decide +kernel) (by decide +kernel) same

/-- Refutes O33: in `splitLine`, launched repeatable, a peer store to byte 40 is buffered, but counts line 0 at once in the page of its
first byte, and so changes memory. Where no such line counts it holds (`repeatableStores_buffer`). -/
theorem not_repeatableStoresAreBuffered : ¬ Obligations.RepeatableStoresAreBuffered := by
  unfold Obligations.RepeatableStoresAreBuffered
  intro h
  obtain ⟨-, plan, -⟩ := splitLine_plans
  obtain ⟨-, -, still⟩ := splitLine_still
  obtain ⟨t, run, same, -⟩ := h (splitLine 1) 0 4 4 0 false none (by decide +kernel) rfl rfl (uncountedAccess_of_reset rfl)
    (.stn 0 4 4 0 false none, .peer) (by simp [storeWords]) (by decide) (by decide +kernel) (by decide) _ plan rfl still
  exact mem_ne_of_counts run (by decide +kernel) (by decide +kernel) same

/-! ### A store into the table by which its next piece parks -/

/-- A sheaf that stores through the mirror: lane 0 a byte of table entry 1 that sets its WB (R69), lane 1 a byte of the page of that
entry. -/
def storesWb : Sheaf := { Sheaf.absent with
  life := .live
  regs := { Regs.zero with
    em := 3
    v := (Regs.zero.v.set 0 (rowOf fun i => if i = 0 then 8 else 65536)).set 4 (rowOf fun _ => 0x21) } }

/-- The table of context 1 lies at byte 0 of its own frames: entry 0 leads to the table itself, entry 1 to the frame at 65536. -/
def ownTable : State := { State.reset with
  mem := [(0, 0x01), (8, 0x01), (10, 0x01)]
  contexts := [{ bootContext with root := 0, frames := [(0, 2 ^ 20)] }]
  tasks := [bootTask 0]
  partitions := [mirror]
  sh := storesWb }

/-- A byte that a lane stores through the mirror. -/
def mirrored (lane k : Nat) : Site := { lane := lane, off := 0, len := 1, va := k, key := k, map := none }

/-- Lines parked after a word (R83). -/
def parkedAfter (i : Instr) (s : State) : Nat := match exec i s with | .next t => t.parking.length | _ => 0

theorem ownTable_plan : ownTable.plan .peer .store (widthBytes 0) true (ownTable.laneAddrs .peer 0 (ofsOf none)) =
    .ok ⟨[mirrored 0 8, mirrored 1 65536], []⟩ := by
  decide +kernel

/-- Refutes O29: in `ownTable` no page migrates before a peer store, whose first lane writes the WB bit of a table entry and whose
second lane then parks in that entry's page, so that its byte is not written and the parking buffer is no longer empty. Where no
piece comes back to this module, a route leads to each and handles are distinct, it holds (`stores_write`). -/
theorem not_storesWriteTheirBytesAndNoOthers : ¬ Obligations.StoresWriteTheirBytesAndNoOthers := by
  unfold Obligations.StoresWriteTheirBytesAndNoOthers
  intro h
  have quiet : still ownTable [mirrored 0 8, mirrored 1 65536] := still_of_all (by decide +kernel)
  obtain ⟨t, run, frame, -⟩ := h ownTable 0 0 4 0 false none (by unfold State.memOk; decide +kernel) (.stn 0 0 4 0 false none, .peer)
    (by simp [storeWords]) (by decide +kernel) _ ownTable_plan rfl
    ⟨rfl, rfl, rfl, rfl, rfl, rfl, uncountedAccess_of_reset rfl, quiet⟩ (by decide)
  have same := congrArg State.parking frame
  have empty : t.parking = [] := same
  have parks : parkedAfter (.stn 0 0 4 0 false none) ownTable = 1 := by decide +kernel
  rw [parkedAfter, run] at parks
  dsimp only at parks
  rw [empty] at parks
  exact absurd parks (by decide)

end Sys2Proof.Machine
end

section
/-!
PROOFS. CPY, CPYB and the ring words (R148-R151, R157-R159, R168, R171, R177), and the engine's next line of an inbound batch.
-/

namespace Sys2Proof.Machine

open Sys2Proof Sys2Proof.Rules

/-! ### Requests in transfer order (R151) -/

theorem insertReq_perm (r : CopyReq) (rs : List CopyReq) : (insertReq r rs).Perm (r :: rs) := by
  induction rs with
  | nil => exact .refl _
  | cons x xs ih =>
    rw [insertReq]
    split
    · exact .refl _
    · exact (ih.cons x).trans (.swap r x xs)

theorem insertReq_ascends (r : CopyReq) {rs : List CopyReq} (h : rs.Pairwise fun x y => x.dst / 64 ≤ y.dst / 64) :
    (insertReq r rs).Pairwise fun x y => x.dst / 64 ≤ y.dst / 64 := by
  induction rs with
  | nil => exact List.pairwise_singleton _ _
  | cons x xs ih =>
    obtain ⟨first, later⟩ := List.pairwise_cons.1 h
    rw [insertReq]
    split
    · next before =>
      refine List.pairwise_cons.2 ⟨fun y hy => ?_, h⟩
      rcases List.mem_cons.1 hy with rfl | hy
      · exact before.le
      · exact before.le.trans (first y hy)
    · next after =>
      refine List.pairwise_cons.2 ⟨fun y hy => ?_, ih later⟩
      rcases List.mem_cons.1 ((insertReq_perm r xs).mem_iff.1 hy) with rfl | hy
      · exact Nat.le_of_not_lt after
      · exact first y hy

/-- A request goes behind those of its own line. -/
theorem insertReq_filter (r : CopyReq) (line : Nat) {rs : List CopyReq} (h : rs.Pairwise fun x y => x.dst / 64 ≤ y.dst / 64) :
    (insertReq r rs).filter (fun x => x.dst / 64 = line) =
      rs.filter (fun x => x.dst / 64 = line) ++ [r].filter fun x => x.dst / 64 = line := by
  induction rs with
  | nil => rfl
  | cons x xs ih =>
    obtain ⟨first, later⟩ := List.pairwise_cons.1 h
    rw [insertReq]
    split
    · next before =>
      by_cases own : r.dst / 64 = line
      · have none : (x :: xs).filter (fun x => x.dst / 64 = line) = [] := by
          refine List.filter_eq_nil_iff.2 fun y hy => ?_
          have : r.dst / 64 < y.dst / 64 := by
            rcases List.mem_cons.1 hy with rfl | hy
            · exact before
            · exact before.trans_le (first y hy)
          simp only [decide_eq_true_eq]
          omega
        rw [List.filter_cons_of_pos (by simpa using own), none]
        simp [own]
      · simp [own]
    · by_cases own : x.dst / 64 = line
      · simp [own, ih later]
      · simp [own, ih later]

/-- Requests put in order one after another, after those already there. -/
theorem foldl_insertReq (rs : List CopyReq) {done : List CopyReq} (h : done.Pairwise fun x y => x.dst / 64 ≤ y.dst / 64) :
    (rs.foldl (fun a r => insertReq r a) done).Perm (done ++ rs) ∧
    (rs.foldl (fun a r => insertReq r a) done).Pairwise (fun x y => x.dst / 64 ≤ y.dst / 64) ∧
    ∀ line, (rs.foldl (fun a r => insertReq r a) done).filter (fun x => x.dst / 64 = line) =
      (done ++ rs).filter fun x => x.dst / 64 = line := by
  induction rs generalizing done with
  | nil => simpa using h
  | cons r rs ih =>
    obtain ⟨perm, ascends, filter⟩ := ih (insertReq_ascends r h)
    refine ⟨perm.trans (((insertReq_perm r done).append_right rs).trans List.perm_middle.symm), ascends, fun line => ?_⟩
    rw [List.foldl_cons, filter line, List.filter_append, insertReq_filter r line h, List.append_assoc, ← List.filter_append,
      ← List.filter_append, List.singleton_append]

theorem transferOrder_rule (rs : List CopyReq) :
    (transferOrder rs).Perm rs ∧ (transferOrder rs).Pairwise (fun x y => x.dst / 64 ≤ y.dst / 64) ∧
      ∀ line, (transferOrder rs).filter (fun r => r.dst / 64 = line) = rs.filter fun r => r.dst / 64 = line := by
  unfold transferOrder
  simpa only [List.nil_append] using foldl_insertReq rs List.Pairwise.nil

/-! ### The next line of an inbound batch (R151, R162) -/

/-- The engine never stops with status 0, which is that of a batch without an error (R159). -/
def CopyStop.marks : CopyStop → Prop
  | .err status _ => status ≠ 0
  | _ => True

theorem State.copyKey_marks {s : State} {sp : Space} {acc : Access} {a : Nat} {e : CopyStop} (h : s.copyKey sp acc a = .error e) :
    e.marks := by
  have prot : CopyStop.marks (.err 3 none) := Nat.succ_ne_zero 2
  unfold State.copyKey at h
  split at h
  · split at h
    · split at h
      · cases h
      · exact Except.error.inj h ▸ prot
    · cases h
      trivial
    · exact Except.error.inj h ▸ prot
  · split at h
    · split at h
      · cases h
      · exact Except.error.inj h ▸ prot
    · cases h
      trivial
    · exact Except.error.inj h ▸ prot
  · split at h
    · cases h
    · exact Except.error.inj h ▸ prot
  · cases h

theorem State.copyRead_marks {s : State} {r : CopyReq} {e : CopyStop} (h : s.copyRead r = .error e) : e.marks := by
  unfold State.copyRead at h
  split at h
  · next key =>
    cases h
    exact State.copyKey_marks key
  · dsimp only at h
    split at h
    · cases h
      exact Nat.succ_ne_zero 0
    split at h <;> cases h
    trivial

theorem State.copyData_marks {s : State} {ws : List (CopyReq × Option CopyData)} {e : CopyStop} (h : s.copyData ws = .error e) : e.marks := by
  induction ws with
  | nil => cases h
  | cons w ws ih =>
    obtain ⟨r, d⟩ := w
    unfold State.copyData at h
    dsimp only at h
    split at h
    · next src =>
      cases h
      cases d with
      | some x => cases src
      | none =>
        cases hr : s.copyRead r with
        | ok x => simp [hr, Except.map] at src
        | error e' =>
          simp only [hr, Except.map, Except.error.injEq] at src
          exact src ▸ State.copyRead_marks hr
    · cases rest : s.copyData ws with
      | ok x => simp [rest, Except.map] at h
      | error e' =>
        simp only [rest, Except.map, Except.error.injEq] at h
        exact ih (h ▸ rest)

theorem State.copyDest_marks {s : State} {rs : List CopyReq} {e : CopyStop} (h : s.copyDest rs = .error e) : e.marks := by
  induction rs with
  | nil => cases h
  | cons r rs ih =>
    unfold State.copyDest at h
    split at h
    · next key =>
      cases h
      exact State.copyKey_marks key
    split at h
    · cases h
      exact Nat.succ_ne_zero 1
    · cases rest : s.copyDest rs with
      | ok x => simp [rest, Except.map] at h
      | error e' =>
        simp only [rest, Except.map, Except.error.injEq] at h
        exact ih (h ▸ rest)

/-- A batch that the engine stops without an error keeps its CPYs. -/
theorem State.copyStop_cpys {s t : State} {b b' : Batch} {k n : Nat} {e : CopyStop} (marks : e.marks) (h : s.copyStop b k n e = some (t, b'))
    (fine : b'.prog.status = 0) : b'.cpys = b.cpys := by
  cases e with
  | wait => cases h
  | fault va acc =>
    cases h
    rfl
  | err status line =>
    cases h
    exact absurd fine marks

/-- A line written takes requests from its own CPY. -/
theorem State.writeLine_cpys {s t : State} {b b' : Batch} {k : Nat} {c : Cpy} (h : s.writeLine b k c = some (t, b'))
    (fine : b'.prog.status = 0) {j : Nat} (other : j ≠ k) : b'.cpys[j]? = b.cpys[j]? := by
  unfold State.writeLine at h
  dsimp only at h
  split at h
  · next data => rw [State.copyStop_cpys (State.copyData_marks data) h fine]
  · next dest => rw [State.copyStop_cpys (State.copyDest_marks dest) h fine]
  · split at h
    · cases h
    · cases h
      exact List.getElem?_set_ne other.symm

/-- The first CPY with work left is the one that the engine finds. -/
theorem find?_work {cs : List Cpy} {k : Nat} {c : Cpy} (before : ∀ j x, j < k → cs[j]? = some x → x.reqs = []) (here : cs[k]? = some c)
    (work : c.reqs ≠ []) : cs.zipIdx.find? (fun x => !x.1.done) = some (c, k) := by
  rw [List.find?_eq_some_iff_getElem]
  obtain ⟨lt, at_k⟩ := List.getElem?_eq_some_iff.1 here
  refine ⟨by simpa [Cpy.done] using work, k, by simpa using lt, by simp [at_k], fun j hj => ?_⟩
  have done := before j cs[j] hj (List.getElem?_eq_getElem (hj.trans lt))
  simp [Cpy.done, done]

/-- Outside repeatable mode the next line of an inbound batch is one of the first CPY with work left. -/
theorem State.lineStep_inbound {s t : State} {shut : Bool} {b b' : Batch} {k : Nat} {c : Cpy} (plainly : s.repeatable = false)
    (inbound : b.outbound = false) (first : b.cpys.zipIdx.find? (fun x => !x.1.done) = some (c, k))
    (h : s.lineStep shut false b = some (t, b')) : s.writeLine b k c = some (t, b') := by
  simp only [State.lineStep, plainly, inbound, first, Bool.or_self, Bool.false_and, Bool.or_false, Bool.false_eq_true, if_false,
    Bool.false_or] at h
  split at h
  · cases h
  split at h
  · cases h
  · exact h

/-! ### CPY and CPYB (R168, R171) -/

theorem promise_num (num : BitVec 8) (gtc : DWord) (delay : Nat) : (promise num gtc delay).extractLsb' 56 8 = num := by
  unfold promise
  ext i hi
  simp

/-- The state with one record more reserved in the ring that a batch is bound to. -/
def State.reserved (s : State) : Option Nat → State
  | some off => s.onRing s.sh.group off fun q => { q with reserved := q.reserved + 1 }
  | none => s

theorem State.closeBatch_closes {s : State} (plainly : s.repeatable = false) (sd : SCode) (scope : BitVec 3) (ring : Option Nat) :
    ∃ p0 p1, closedBatch s (s.reserved ring) (s.closeBatch sd scope ring) sd scope ring p0 p1 := by
  let p0 := promise s.sh.nextBatch s.gtc (Config.promiseDelay s.fresh)
  let p1 := if s.sh.openOut then promise s.sh.nextBatch s.gtc (Config.promiseDelay (s.fresh + 1)) else p0
  refine ⟨p0, p1, ?_, promise_num _ _ _, ?_, fun inbound => ?_⟩
  · unfold State.closeBatch
    simp only [plainly, Bool.false_eq_true, if_false]
    cases ring <;> rfl
  · unfold p1
    split
    · exact promise_num _ _ _
    · exact promise_num _ _ _
  · unfold p1
    rw [inbound, if_neg Bool.false_ne_true]

/-- Settles O34: CPY and CPYB run to the states it names, a request goes behind those of its line, and the engine writes for the first
CPY with work left, whose neighbours it leaves. -/
theorem copyWordsOpenAndCloseBatches : Obligations.CopyWordsOpenAndCloseBatches := by
  unfold Obligations.CopyWordsOpenAndCloseBatches
  refine ⟨?cpy, ?cpyb, transferOrder_rule, ?lines⟩
  case cpy =>
    intro s la route size a b issues n src dst reqs work spans lanes rings room
    have far : (lanesOf s.sh.em).filter (fun l => !s.inRange (routeSrc route) (l, src l) || !s.inRange (routeDst route) (l, dst l)) = [] := by
      refine List.filter_eq_nil_iff.2 fun l hl => ?_
      obtain ⟨small, active⟩ := (mem_lanesOf _ _).1 hl
      obtain ⟨source, target, -, -⟩ := lanes l small active
      simp [source, target]
    have odd : (lanesOf s.sh.em).filter (fun l => spadOff (routeSrc route) (src l) % n ≠ 0 || spadOff (routeDst route) (dst l) % n ≠ 0) = [] := by
      refine List.filter_eq_nil_iff.2 fun l hl => ?_
      obtain ⟨small, active⟩ := (mem_lanesOf _ _).1 hl
      obtain ⟨-, -, source, target⟩ := lanes l small active
      simp [source, target]
    have apart : reqs.any (fun r => s.touchesRing r.src n || s.touchesRing r.dst n) = false := by
      refine List.any_eq_false.2 fun r hr => ?_
      simp [rings r hr]
    show execCpy la route size a b s = _
    rw [execCpy, State.issueWait_of_issues issues]
    extract_lets i m ls away skew _ hit _ entries t
    rw [if_neg (not_not_intro far : ¬ away ≠ []), if_neg (not_not_intro odd : ¬ skew ≠ []), if_neg (Bool.eq_false_iff.1 apart : ¬ hit = true),
      if_neg (Bool.eq_false_iff.1 room : ¬ s.scoreboardFull entries = true)]
    unfold t
    rw [State.unhold_of_wait (State.issues_wait issues)]
    rfl
  case cpyb =>
    intro s sd sr scope plainly
    refine ⟨fun issues => ?_, fun issues r named => ⟨fun full => ?_, fun room => ?_⟩⟩
    · obtain ⟨p0, p1, closed⟩ := State.closeBatch_closes plainly sd scope none
      exact ⟨_, p0, p1, State.issue_of_issues issues fun s => s.closeBatch sd scope none, closed⟩
    · show execCpybRing sd sr scope s = _
      rw [execCpybRing, State.issueWait_of_issues issues]
      simp only [named, full, if_true]
      rfl
    · obtain ⟨p0, p1, closed⟩ := State.closeBatch_closes plainly sd scope (some r.off)
      refine ⟨_, p0, p1, ?_, closed⟩
      show execCpybRing sd sr scope s = _
      rw [execCpybRing, State.issueWait_of_issues issues]
      simp only [named, room, if_false, State.unhold_of_wait (State.issues_wait issues)]
  case lines =>
    intro s t shut b b' k c plainly inbound step before here work fine j other
    exact State.writeLine_cpys (State.lineStep_inbound plainly inbound (find?_work before here work) step) fine other

/-! ### The ring words (R157, R177) -/

theorem scalRegs_setS (r : Regs) (d : SCode) (x : DWord) : scalRegs r d x (r.setS d x) :=
  ⟨fun c => Regs.getS_setS r d c x, Regs.setS_k r d x, Regs.setS_em r d x, Regs.setS_mode r d x, Regs.setS_v r d x, Regs.setS_o r d x,
    Regs.setS_w r d x⟩

/-- RINIT of a range of the allocation that fits, where no ring is in the way and the group may have one more. -/
theorem rinit_makes {s : State} {sa sb : SCode} {n : BitVec 8} (issues : s.issues (.rinit sa sb n) = true) {g : Machine.Group}
    (mine : s.myGroup = some g) {x hi : Nat} (hx : x = (s.sh.rd.getS sa).toNat) (end_ : hi = x + 16 + 8 * n.toNat) (small : x < 2 ^ 20)
    (inside : x < g.spadLen) (aligned : x % 16 = 0) (fits : hi ≤ g.spadLen) (few : g.rings.length < Config.rings)
    (apart : ∀ r ∈ g.rings, hi ≤ r.off ∨ r.off + 16 + 8 * r.slots ≤ x) :
    exec (.rinit sa sb n) s = .next ((s.onGroup g.gid fun k =>
      { k with rings := k.rings ++ [{ off := x, slots := n.toNat, rd := 0, wr := 0, fill := 0, reserved := 0 }] }).regs
        fun q => q.setS sb (BitVec.ofNat 64 hi)) := by
  subst hx end_
  have clear : g.rings.any (fun r => r.off < (s.sh.rd.getS sa).toNat + 16 + 8 * n.toNat &&
      (s.sh.rd.getS sa).toNat < r.off + 16 + 8 * r.slots) = false := by
    refine List.any_eq_false.2 fun r hr => ?_
    have := apart r hr
    simp only [Bool.and_eq_true, decide_eq_true_eq]
    omega
  show execRinit sa sb n s = _
  rw [execRinit, State.issue_of_issues issues]
  simp only [mine, clear, aligned, decide_eq_false (Nat.not_le.2 small), decide_eq_false (Nat.not_le.2 inside),
    decide_eq_false (Nat.not_le.2 few), Nat.not_lt.2 fits, Bool.or_self, Bool.false_eq_true, ne_eq, not_true_eq_false, if_false]

/-- RWAIT where enough records stand: the oldest, or 0 where none does. -/
theorem rwait_reads {s : State} {sa sb : SCode} {n : BitVec 8} {r : Ring} (issues : s.issues (.rwait sa sb n) = true)
    (plainly : s.repeatable = false) (bad : s.badLines = []) (weak : s.weak = []) (named : s.ringName (s.sh.rd.getS sa) = .ok r)
    (slots : n.toNat ≤ r.slots) (ready : n.toNat ≤ r.fill) :
    exec (.rwait sa sb n) s = .next (s.regs fun q => q.setS sb (if r.fill = 0 then 0 else s.ringSlot r r.rd)) := by
  show execRwait sa sb n s = _
  rw [execRwait, State.issueWait_of_issues issues]
  simp only [named, Nat.not_lt.2 slots, if_false]
  rw [State.waitFor_plain plainly, if_pos (decide_eq_true ready), State.unhold_of_wait (State.issues_wait issues)]
  simp only [State.lineBad, bad, List.contains_nil, Bool.and_false, Bool.false_eq_true, if_false, State.correct_none weak, ite_self]

/-- RWAIT where too few records stand. -/
theorem rwait_waits {s : State} {sa sb : SCode} {n : BitVec 8} {r : Ring} (issues : s.issues (.rwait sa sb n) = true)
    (plainly : s.repeatable = false) (named : s.ringName (s.sh.rd.getS sa) = .ok r) (slots : n.toNat ≤ r.slots) (short : r.fill < n.toNat) :
    exec (.rwait sa sb n) s = .next (s.stall (.rwait sa sb n) none) := by
  show execRwait sa sb n s = _
  rw [execRwait, State.issueWait_of_issues issues]
  simp only [named, Nat.not_lt.2 slots, if_false]
  rw [State.waitFor_plain plainly, if_neg (by simpa using short)]

theorem rrel_releases {s : State} {sa sb : SCode} {n : BitVec 8} {r : Ring} (issues : s.issues (.rrel sa sb n) = true)
    (named : s.ringName (s.sh.rd.getS sa) = .ok r) (enough : n.toNat ≤ r.fill) :
    exec (.rrel sa sb n) s = .next ((s.onRing s.sh.group r.off fun q =>
      { q with rd := (q.rd + n.toNat) % q.slots, fill := q.fill - n.toNat }).regs fun q => q.setS sb (BitVec.ofNat 64 (r.fill - n.toNat))) := by
  show execRrel sa sb n s = _
  rw [execRrel, State.issue_of_issues issues]
  simp only [named, Nat.not_lt.2 enough, if_false]

theorem rfin_retires {s : State} {sa sb : SCode} {r : Ring} (issues : s.issues (.rfin sa sb) = true) (bad : s.badLines = [])
    (weak : s.weak = []) (named : s.ringName (s.sh.rd.getS sa) = .ok r) (free : r.reserved = 0) :
    exec (.rfin sa sb) s = .next (((s.onGroup s.sh.group fun g => { g with rings := g.rings.filter (·.off ≠ r.off) }).putBytes s.tag
      (s.myKey r.off) r.image).regs fun q => q.setS sb (BitVec.ofNat 64 r.fill)) := by
  show execRfin sa sb s = _
  rw [execRfin, State.issue_of_issues issues]
  simp only [named, free, State.lineBad, bad, List.contains_nil, State.correct_none weak, ne_eq, not_true_eq_false, Bool.false_eq_true, if_false]

theorem Ring.readLE_image (r : Ring) (k : Nat) {m : List Host.Cell} (h : Memory.wf m = true) :
    readLE (writeBytes m k r.image) k 16 = (r.rd + r.wr * 2 ^ 8 + r.fill * 2 ^ 16 + r.slots * 2 ^ 24 + 2 * 2 ^ 32) % 2 ^ 128 := by
  rw [Ring.image, readLE_writeBytes k 16 _ h, show 256 ^ 16 = 2 ^ 128 by norm_num]

/-- Settles O35: each word runs to a state whose registers, rings and bytes are read off it. -/
theorem ringWordsKeepTheRing : Obligations.RingWordsKeepTheRing := by
  unfold Obligations.RingWordsKeepTheRing
  intro s sa sb n bad weak x hi
  refine ⟨fun issues g mine small inside aligned fits few apart => ?rinit, fun r named =>
    ⟨fun issues plainly slots => ⟨fun ready => ?rwait, fun short => rwait_waits issues plainly named slots short⟩,
      fun issues enough => ?rrel, fun issues free ok => ?rfin⟩⟩
  case rinit => exact ⟨_, rinit_makes issues mine rfl rfl small inside aligned fits few apart, scalRegs_setS s.sh.regs _ _, rfl⟩
  case rwait => exact ⟨_, rwait_reads issues plainly bad weak named slots ready, rfl, scalRegs_setS s.sh.regs _ _⟩
  case rrel => exact ⟨_, rrel_releases issues named enough, scalRegs_setS s.sh.regs _ _, rfl⟩
  case rfin =>
    have run := rfin_retires issues bad weak named free
    -- the kernel is to compare the states without the bytes of the image
    obtain ⟨bs, image⟩ : ∃ bs, bs = r.image := ⟨_, rfl⟩
    rw [← image] at run
    refine ⟨_, run, scalRegs_setS s.sh.regs _ _, rfl, ?_, fun k outside => ?_⟩
    · exact (congrArg (fun bs => readLE (writeBytes s.mem (s.myKey r.off) bs) (s.myKey r.off) 16) image).trans (r.readLE_image _ ok.1)
    · refine (readByte_writeBytes bs (s.myKey r.off) k ok.1).trans (if_neg ?_)
      rw [image, Ring.image, leBytes_length]
      omega

end Sys2Proof.Machine
end

section
/-!
PROOFS. Copy events of an inbound batch (R149, R152), and a copy whose source leads back to this module, to a page that counts.
-/

namespace Sys2Proof.Machine

open Sys2Proof Sys2Proof.Rules

/-! ### An inbound batch completes (R149, R152) -/

/-- The pieces that a fetch into scratchpad touches: its source, translated and reached, and its destination. -/
def CopyReq.fetches (r : CopyReq) (m : Mapped) (q : Nat) : List Site := [copySite r.src r.size q (some m), copySite r.dst r.size r.dst none]

/-- The batch is the sheaf's only one, inbound, without ring or error, and its engine runs; nothing is parked, in error or counted. -/
structure fetching (s : State) (b : Batch) : Prop where
  only : s.sh.batches = [b]
  inbound : b.outbound = false
  loose : b.ring = none
  goes : b.prog.paused = none
  fine : b.prog.status = 0
  live : s.sh.life = .live
  running : s.sh.coreHalt = false
  resident : ∀ g, s.group s.sh.group = some g → g.saved = false
  plainly : s.repeatable = false
  buffer : s.sh.buf = []
  parking : s.parking = []
  bad : s.badLines = []
  weak : s.weak = []
  copies : uncounted s 6
  accesses : uncountedAccess s

section

variable {s : State} {b : Batch} {r : CopyReq} {m : Mapped} {q sid : Nat}

theorem State.copyRead_fetch (h : fetching s b) (route : r.route = 0) (map : s.xlat s.tag r.src .copySrc = .ok m)
    (reach : s.reach s.tag false m.key = some q) :
    s.copyRead r = .ok ((readBytes s.mem q r.size, lineDesc s.lines q), copySite r.src r.size q (some m)) := by
  have key : s.copyKey (routeSrc r.route) .copySrc r.src = .ok (q, some m) := by
    rw [route]
    simp only [State.copyKey, routeSrc, map, Access.writes, reach]
    rfl
  simp only [State.copyRead, key, State.lineBad, h.bad, List.contains_nil, State.readWaits_none h.parking, State.see_plain h.buffer,
    State.seeDesc_plain h.buffer, Bool.false_eq_true, if_false]

theorem State.copyDest_fetch (h : fetching s b) (route : r.route = 0) : s.copyDest [r] = .ok [copySite r.dst r.size r.dst none] := by
  have key : s.copyKey (routeDst r.route) .copyDst r.dst = .ok (r.dst, none) := by
    rw [route]
    rfl
  simp only [State.copyDest, key, State.lineBad, h.bad, List.contains_nil, Bool.false_and, Bool.false_eq_true, if_false]
  rfl

/-- Where no page counts, the engine looks up its pages alone (R72). -/
theorem State.copyTouch_still {qs : List Site} (weak : s.weak = []) (accesses : uncountedAccess s) (quiet : still s qs) (lines : linesStill s qs)
    (p : CopyProg) : ∃ touched, s.copyTouch p qs = (lookedUp s qs, { p with touched := touched }) := by
  obtain ⟨-, misses, walks, buffers⟩ := accesses
  have looked := State.lookUpAll_frame (State.counts_false (e := .tlbMisses) misses) (State.counts_false (e := .walks) walks) qs
  have buffer : (s.lookUpAll qs).counts .bufferMisses = false := by
    rw [looked]
    exact State.counts_false (e := .bufferMisses) buffers
  refine ⟨_, Prod.ext ?_ rfl⟩
  simp only [State.copyTouch]
  rw [State.correct_none weak, State.countPages_still weak (fun x hx => quiet x (List.mem_of_mem_filter hx))
    (fun x hx => lines x (List.mem_of_mem_filter hx)), State.countBuffer_none buffer]
  exact looked

/-- A request's bytes land, and its descriptor where it is a line. -/
theorem State.copyWrite_lands (weak : s.weak = []) (bad : s.badLines = []) {x : Site} (park : s.parksAt x = none) (map : x.map = none)
    (num : BitVec 8) (d : CopyData) : ∃ lines, s.copyWrite num r x d = { s with mem := writeBytes s.mem x.key d.1, lines := lines } := by
  simp only [State.copyWrite, park, map, State.land_plain weak bad, Option.isSome_none, Bool.false_eq_true, if_false]
  split
  · exact ⟨_, rfl⟩
  · exact ⟨_, rfl⟩

/-- The scoreboard without the entries of a CPY (R195). -/
def State.withoutCpy (s : State) (sid : Nat) : List SbEntry := s.scoreboard.filter fun e => !(e.sheaf = s.sh.uid && !e.loop && e.owner = sid)

theorem State.retireDone_done (s : State) (b : Batch) (cpys : b.cpys = [{ sid := sid, reqs := [], held := [] }]) :
    s.retireDone b = { s with scoreboard := s.withoutCpy sid } := by
  have entries : (s.retireDone b).scoreboard = s.withoutCpy sid := by
    simp only [State.retireDone, State.retireEntries, State.withoutCpy, cpys, Cpy.read, Cpy.done, List.filter_filter, List.length_nil, le_refl,
      decide_true, List.filter_cons_of_pos, List.filter_nil, List.any_cons, List.any_nil, Bool.or_false]
    refine List.filter_congr fun e _ => ?_
    cases e.kind <;> simp
  exact congrArg (fun es => { s with scoreboard := es }) entries

/-- The engine writes the one request. -/
theorem State.writeLine_fetch (h : fetching s b) (cpys : b.cpys = [{ sid := sid, reqs := [r], held := [] }]) (route : r.route = 0)
    (map : s.xlat s.tag r.src .copySrc = .ok m) (reach : s.reach s.tag false m.key = some q) (quiet : still s (r.fetches m q))
    (lines : linesStill s (r.fetches m q)) :
    ∃ L p, p.status = 0 ∧ s.writeLine b 0 { sid := sid, reqs := [r], held := [] } =
      some ({ s with tlb := (s.lookUpAll (r.fetches m q)).tlb, mem := writeBytes s.mem r.dst (readBytes s.mem q r.size), lines := L
                     scoreboard := s.withoutCpy sid }, { b with prog := p, cpys := [{ sid := sid, reqs := [], held := [] }] }) := by
  have data : s.copyData (headLine (fun w => w.1.dst / 64) (Cpy.work { sid := sid, reqs := [r], held := [] })) =
      .ok [(r, (readBytes s.mem q r.size, lineDesc s.lines q), [copySite r.src r.size q (some m)])] := by
    show s.copyData [(r, none)] = _
    simp only [State.copyData, State.copyRead_fetch h route map reach]
    rfl
  have dest : s.copyDest ((headLine (fun w => w.1.dst / 64) (Cpy.work { sid := sid, reqs := [r], held := [] })).map Prod.fst) =
      .ok [copySite r.dst r.size r.dst none] := State.copyDest_fetch h route
  have park : ∀ x ∈ r.fetches m q, s.parksAt x = none := fun x hx => State.parksAt_still quiet hx
  have target : copySite r.dst r.size r.dst none ∈ r.fetches m q := List.mem_cons_of_mem _ List.mem_cons_self
  have room : s.parkingFull [copySite r.dst r.size r.dst none] = false :=
    State.parkingFull_none fun x hx => park x (List.mem_cons_of_mem _ hx)
  obtain ⟨touched, touch⟩ := State.copyTouch_still h.weak h.accesses quiet lines b.prog
  obtain ⟨L, write⟩ := State.copyWrite_lands (s := lookedUp s (r.fetches m q)) (r := r) h.weak h.bad (park _ target) rfl b.num
    (d := (readBytes s.mem q r.size, lineDesc s.lines q))
  refine ⟨L, { b.prog with bytes := b.prog.bytes + r.size, touched := touched }, h.fine, ?_⟩
  let done : Batch := { b with
    prog := { b.prog with bytes := b.prog.bytes + r.size, touched := touched }
    cpys := [{ sid := sid, reqs := [], held := [] }] }
  let landed : State := { lookedUp s (r.fetches m q) with mem := writeBytes s.mem r.dst (readBytes s.mem q r.size), lines := L }
  have counted : landed.countMine .copyLines 1 = landed := State.countMine_none (s := landed) (State.counts_false (e := .copyLines) h.copies) 1
  have retired : landed.retireDone done = { landed with scoreboard := s.withoutCpy sid } := State.retireDone_done landed done rfl
  have touch' : s.copyTouch b.prog ([(r, (readBytes s.mem q r.size, lineDesc s.lines q), [copySite r.src r.size q (some m)])].flatMap
      (fun x => x.2.2) ++ [copySite r.dst r.size r.dst none]) = _ := touch
  simp only [State.writeLine, data, dest, room, touch', Bool.false_eq_true, if_false, List.zip_cons_cons, List.zip_nil_left, List.foldl_cons,
    List.foldl_nil, write, List.map_cons, List.map_nil, List.length_singleton, cpys, List.set_cons_zero, Nat.zero_add]
  exact congrArg (fun t => some (t, done)) ((congrArg (fun t : State => t.retireDone done) counted).trans retired)

/-- An inbound batch with nothing left to write has no next line. -/
theorem State.lineStep_done (plainly : s.repeatable = false) (inbound : b.outbound = false) (done : b.cpys.all Cpy.done = true) :
    s.lineStep true false b = none := by
  have first : b.cpys.zipIdx.find? (fun c => !c.1.done) = none := by
    refine List.find?_eq_none.2 fun c hc => ?_
    simp [List.all_eq_true.1 done c.1 (List.fst_mem_of_mem_zipIdx hc)]
  cases hs : s.lineStep true false b with
  | none => rfl
  | some x =>
    simp [State.lineStep, plainly, inbound, first] at hs

theorem State.finalWaits_none (parking : s.parking = []) (h : b.cpys = [] → s.sh.earlierBatch b.num = false) : s.finalWaits b = false := by
  simp only [State.finalWaits, parking, List.any_nil, Bool.or_false, Bool.and_eq_false_iff, decide_eq_false_iff_not]
  by_cases none : b.cpys = []
  · exact .inr (h none)
  · exact .inl none

/-- A batch whose requests are all done ends its only final event: it is gone. -/
theorem State.batchEvent_done (plainly : s.repeatable = false) (inbound : b.outbound = false) (done : b.cpys.all Cpy.done = true)
    (only : s.sh.batches = [b]) (parking : s.parking = []) (loose : b.ring = none) (live : s.sh.life = .live) (fine : b.prog.status = 0) :
    s.batchEvent false b = some { s with sh := { s.sh with batches := [] } } := by
  have waits : s.finalWaits b = false := State.finalWaits_none parking fun _ => by simp [Sheaf.earlierBatch, only]
  simp only [State.batchEvent, inbound, plainly, done, waits, Bool.or_self, Bool.false_and, Bool.not_true, Bool.false_eq_true, if_false]
  simp [State.finishBatch, State.upd, only, loose, live, fine]

theorem State.copyRuns_of (h : fetching s b) : s.copyRuns s.sh = true := by
  unfold State.copyRuns
  cases hg : s.group s.sh.group with
  | none => rfl
  | some g => simp [h.resident g hg, h.running]

theorem copyEvent_run (h : fetching s b) : exec (.copyEventComplete s.sh.uid b.num) s = .next ((s.copyEvent b.num false).getD s) := by
  show execCopyEventComplete s.sh.uid b.num s = _
  rw [execCopyEventComplete, State.as, if_pos rfl, if_pos (State.copyRuns_of h)]

/-- A batch without requests completes. -/
theorem copyEvent_empty (h : fetching s b) (cpys : b.cpys = []) :
    exec (.copyEventComplete s.sh.uid b.num) s = .next { s with sh := { s.sh with batches := [] } } := by
  have done : b.cpys.all Cpy.done = true := by rw [cpys]; rfl
  have run : s.copyRun true false (b.left + 1) b = none := by rw [State.copyRun, State.lineStep_done h.plainly h.inbound done]; rfl
  rw [copyEvent_run h, State.copyEvent]
  simp [h.only, run, State.batchEvent_done h.plainly h.inbound done h.only h.parking h.loose h.live h.fine]

/-- A batch of one request for device memory completes, where neither its source nor its destination comes back into a page that counts or
migrates. -/
theorem copyEvent_fetches (h : fetching s b) (ok : s.memOk) (cpys : b.cpys = [{ sid := sid, reqs := [r], held := [] }]) (route : r.route = 0)
    (starts : s.copyBlocked sid = false) (map : s.xlat s.tag r.src .copySrc = .ok m) (reach : s.reach s.tag false m.key = some q)
    (quiet : still s (r.fetches m q)) (lines : linesStill s (r.fetches m q)) :
    ∃ t, exec (.copyEventComplete s.sh.uid b.num) s = .next t ∧
      { t with mem := s.mem, lines := s.lines, tlb := s.tlb } = { s with scoreboard := s.withoutCpy sid, sh := { s.sh with batches := [] } } ∧
      readBytes t.mem r.dst r.size = readBytes s.mem q r.size ∧
      ∀ k, (k < r.dst ∨ r.dst + r.size ≤ k) → readByte t.mem k = readByte s.mem k := by
  obtain ⟨L, p, status, line⟩ := State.writeLine_fetch h cpys route map reach quiet lines
  let d : Batch := { b with prog := p, cpys := [{ sid := sid, reqs := [], held := [] }] }
  let u : State := { s with
    tlb := (s.lookUpAll (r.fetches m q)).tlb, mem := writeBytes s.mem r.dst (readBytes s.mem q r.size), lines := L
    scoreboard := s.withoutCpy sid }
  have step : s.lineStep true false b = some (u, d) := by
    simp [State.lineStep, h.goes, h.plainly, h.inbound, cpys, Cpy.done, starts, line, u, d]
  have none : u.copyRun true false b.left d = none := by
    cases b.left with
    | zero => rfl
    | succ n => rw [State.copyRun, State.lineStep_done (s := u) (b := d) h.plainly h.inbound rfl]; rfl
  have run : s.copyRun true false (b.left + 1) b = some (u, d) := by
    rw [State.copyRun, step]
    simp [none]
  have put : u.setBatch true d = { u with sh := { s.sh with batches := [d] } } := by simp [State.setBatch, State.upd, u, d, h.only]
  have event : State.batchEvent { u with sh := { s.sh with batches := [d] } } false d = some { u with sh := { s.sh with batches := [] } } :=
    State.batchEvent_done h.plainly h.inbound rfl rfl h.parking h.loose h.live status
  refine ⟨{ u with sh := { s.sh with batches := [] } }, ?_, rfl, ?_, fun k outside => ?_⟩
  · rw [copyEvent_run h, State.copyEvent]
    simp [h.only, run, put, event]
  · have bytes := readBytes_writeBytes (readBytes s.mem q r.size) r.dst ok.1
    rwa [readBytes_length] at bytes
  · refine (readByte_writeBytes (readBytes s.mem q r.size) r.dst k ok.1).trans (if_neg ?_)
    rw [readBytes_length]
    omega

end

/-! ### A copy from a page that leads back to this module (R66, R80) -/

/-- A request for the first four bytes of `onesPage`, to the first bytes of core 0's scratchpad. -/
def readsOnesPage : CopyReq := { route := 0, size := 4, src := onesPage, dst := spadKey 0 0 }

/-- How its source translates (R68). -/
def onesMap : Mapped := { key := 3 * spaceSize, page := onesPage, frame := 3 * spaceSize, size := 65536, ce := false, wb := false, psel := 0
                          die := none, pte := 0 }

/-- The batch of one CPY with that request. -/
def readsBack : Batch := Batch.of 0 0 none [{ sid := 1, reqs := [readsOnesPage], held := [] }] false CopyProg.zero 0 0 0

/-- `splitLine` with that batch: `onesPage` leads through peer memory to byte 0 of this module, in context 2's page that counts. -/
def copiesBack : State := { splitLine 0 with sh := { atByte40 with batches := [readsBack] } }

theorem copiesBack_fetching : fetching copiesBack readsBack where
  only := rfl
  inbound := rfl
  loose := rfl
  goes := rfl
  fine := rfl
  live := rfl
  running := rfl
  resident := by decide +kernel
  plainly := by decide +kernel
  buffer := rfl
  parking := rfl
  bad := rfl
  weak := rfl
  copies := uncounted_of_reset rfl (by decide)
  accesses := uncountedAccess_of_reset rfl

/-- Refutes O49 by its clause on copies: in `copiesBack` the source's page counts nothing and its translation is fine, but the line that
it leads to lies in a page that counts, whose counter at byte 256 the copy raises beside its destination. Where nothing that the copy
touches comes back to such a page, the clause holds (`copyEvent_empty`, `copyEvent_fetches`). -/
theorem not_enginesAndWaitsGoOn : ¬ Obligations.EnginesAndWaitsGoOn := by
  unfold Obligations.EnginesAndWaitsGoOn
  rintro ⟨copies, -⟩
  obtain ⟨only, inbound, loose, goes, fine, live, running, resident, plainly, buffer, parking, bad, weak, lines, accesses⟩ := copiesBack_fetching
  obtain ⟨-, one⟩ := copies copiesBack readsBack only inbound loose goes fine live running resident plainly rfl buffer parking bad weak lines
    accesses (by unfold State.memOk; decide +kernel)
  obtain ⟨t, run, -, -, same⟩ := one 1 readsOnesPage onesMap 0 rfl rfl (by decide +kernel) (by decide +kernel) rfl (by decide +kernel)
  have kept : readByte t.mem 256 = 0 := (same 256 (.inl (by decide))).trans (by decide +kernel)
  have counts : counterAfter (.copyEventComplete copiesBack.sh.uid readsBack.num) copiesBack = 1 := by decide +kernel
  rw [counterAfter, run] at counts
  dsimp only at counts
  rw [kept] at counts
  exact absurd counts (by decide)

end Sys2Proof.Machine
end

section
/-!
PROOFS. Predicate words and mask words (R210, R212, R214, R216).
-/

namespace Sys2Proof.Machine

open Sys2Proof Sys2Proof.Rules

/-! ### Writing a predicate register and the mask -/

theorem predRegs_setK (r : Regs) (kd : KCode) (x : DWord) : predRegs r kd x (r.setK kd x) :=
  ⟨fun c => Regs.getK_setK r kd c x, rfl, rfl, rfl, rfl, rfl, rfl⟩

/-- A word that issues and whose effect is to write `f` of the state to K[kd] writes that register alone. -/
theorem exec_writesPred {s : State} {i : Instr} {kd : KCode} {x : Nat → Bool} {f : State → DWord} (run : State → Out)
    (arm : exec i s = run s) (writes : run s = s.issue i fun s => s.regs fun r => r.setK kd (f s))
    (gives : ∀ j, j < 64 → (f s).getLsbD j = x j) : s.issues i = true →
    ∃ t k, exec i s = .next t ∧ onlyRegs s t ∧ predRegs s.sh.regs kd k t.sh.regs ∧ ∀ j, j < 64 → k.getLsbD j = x j :=
  fun issues => ⟨_, f s, arm.trans (writes.trans (State.issue_of_issues issues _)), rfl, predRegs_setK s.sh.regs kd (f s), gives⟩

/-- A word that issues and whose effect is to write `f` of the state to the mask writes the mask alone. -/
theorem exec_writesMask {s : State} {i : Instr} {f : State → DWord} (run : State → Out) (arm : exec i s = run s)
    (writes : run s = s.issue i fun s => s.regs fun r => { r with em := f s }) : s.issues i = true →
    ∃ t, exec i s = .next t ∧ onlyRegs s t ∧ maskRegs s.sh.regs (f s) t.sh.regs :=
  fun issues => ⟨_, arm.trans (writes.trans (State.issue_of_issues issues _)), rfl, rfl⟩

/-! ### Bits of the words' values (R210, R214) -/

theorem getLsbD_and_not (x y : DWord) {j : Nat} (h : j < 64) : (x &&& ~~~y).getLsbD j = (x.getLsbD j && !y.getLsbD j) := by
  rw [BitVec.getLsbD_and, BitVec.getLsbD_not, decide_eq_true h, Bool.true_and]

theorem getLsbD_complement (x : DWord) {j : Nat} (h : j < 64) : (~~~x).getLsbD j = !x.getLsbD j := by
  rw [BitVec.getLsbD_not, decide_eq_true h, Bool.true_and]

theorem getLsbD_ones {j : Nat} (h : j < 64) : (BitVec.allOnes 64).getLsbD j = true := by
  rw [BitVec.getLsbD_allOnes, decide_eq_true h]

/-- VOTE's mask holds the active lanes whose value is not zero (R214). -/
theorem getLsbD_vote (em : DWord) (x : Row) {j : Nat} (h : j < 64) :
    (maskOf fun i => em.getLsbD i && laneOf x i ≠ 0).getLsbD j = (em.getLsbD j && laneOf x j != 0) := by
  rw [maskOf_bit _ h, bne, decide_not, beq_eq_decide]

/-- Settles O12: each word is one write, whose value's bits are those of its table. -/
theorem maskWordsWriteTheirRegisters : Obligations.MaskWordsWriteTheirRegisters := by
  unfold Obligations.MaskWordsWriteTheirRegisters
  constructor
  · intro s kd ka kb a sa
    simp only [predWords, List.forall_mem_cons, List.not_mem_nil, false_implies, implies_true, and_true]
    exact ⟨
      exec_writesPred (execKand kd ka kb) rfl rfl fun _ _ => BitVec.getLsbD_and,
      exec_writesPred (execKor kd ka kb) rfl rfl fun _ _ => BitVec.getLsbD_or,
      exec_writesPred (execKxor kd ka kb) rfl rfl fun _ _ => BitVec.getLsbD_xor,
      exec_writesPred (execKandn kd ka kb) rfl rfl fun _ => getLsbD_and_not _ _,
      exec_writesPred (execKnot kd ka) rfl rfl fun _ => getLsbD_complement _,
      exec_writesPred (execKmov kd ka) rfl rfl fun _ _ => rfl,
      exec_writesPred (execKset kd) rfl rfl fun _ => getLsbD_ones,
      exec_writesPred (execKclr kd) rfl rfl fun _ _ => BitVec.getLsbD_zero,
      exec_writesPred (execEmget kd) rfl rfl fun _ _ => rfl,
      exec_writesPred (execVote kd a) rfl rfl fun _ => getLsbD_vote _ _,
      exec_writesPred (execStok sa kd) rfl rfl fun _ _ => rfl⟩
  · intro s ka sa
    simp only [emWords, List.forall_mem_cons, List.not_mem_nil, false_implies, implies_true, and_true]
    exact ⟨
      exec_writesMask (execEmset ka) rfl rfl,
      exec_writesMask (execEmand ka) rfl rfl,
      exec_writesMask (execStoem sa) rfl rfl⟩

end Sys2Proof.Machine
end

section
/-!
PROOFS. Scalar words (R206, R216, R220, R224-R229).
-/

namespace Sys2Proof.Machine

open Sys2Proof Sys2Proof.Rules

/-! ### Arithmetic modulo 2 ^ w, as wrapped integers (R224) -/

section

variable {w : Nat} (x y : BitVec w) (n : Nat)

theorem add_eq_ofInt : x + y = BitVec.ofInt w (x.toInt + y.toInt) := by
  rw [BitVec.ofInt_add, BitVec.ofInt_toInt, BitVec.ofInt_toInt]

/-- A sum with a signed immediate (R227). -/
theorem addi_eq_ofInt {v : Nat} (m : BitVec v) : x + m.signExtend w = BitVec.ofInt w (x.toInt + m.toInt) := by
  rw [BitVec.ofInt_add, BitVec.ofInt_toInt]
  rfl

theorem sub_eq_ofInt : x - y = BitVec.ofInt w (x.toInt - y.toInt) := by
  rw [Int.sub_eq_add_neg, BitVec.ofInt_add, BitVec.ofInt_neg, BitVec.ofInt_toInt, BitVec.ofInt_toInt, BitVec.sub_eq_add_neg]

theorem mul_eq_ofInt : x * y = BitVec.ofInt w (x.toInt * y.toInt) := by
  rw [BitVec.ofInt_mul, BitVec.ofInt_toInt, BitVec.ofInt_toInt]

theorem shiftLeft_eq_ofNat : x <<< n = BitVec.ofNat w (x.toNat * 2 ^ n) := by
  rw [← Nat.shiftLeft_eq]
  exact BitVec.eq_of_toNat_eq (by simp)

theorem ushiftRight_eq_ofNat : x >>> n = BitVec.ofNat w (x.toNat / 2 ^ n) := by
  rw [← Nat.shiftRight_eq_div_pow, ← BitVec.toNat_ushiftRight, BitVec.ofNat_toNat, BitVec.setWidth_eq]

theorem sshiftRight_eq_ofInt : x.sshiftRight n = BitVec.ofInt w (x.toInt / 2 ^ n) := by
  rw [BitVec.sshiftRight_eq, Int.shiftRight_eq_div_pow]
  rfl

/-- The old value above `k` new bits (R226). -/
theorem shiftLeft_or_setWidth {k : Nat} (m : BitVec k) :
    x <<< k ||| m.setWidth w = BitVec.ofNat w (x.toNat * 2 ^ k + m.toNat) := by
  rw [← Nat.shiftLeft_eq, Nat.shiftLeft_add_eq_or_of_lt m.isLt]
  exact BitVec.eq_of_toNat_eq (by simp)

/-! ### The lesser and the greater of two values -/

theorem ite_slt_eq_min : (if x.slt y then x else y) = BitVec.ofInt w (min x.toInt y.toInt) := by
  by_cases less : x.toInt < y.toInt
  · simp [BitVec.slt_eq_decide, less, min_eq_left less.le]
  · simp [BitVec.slt_eq_decide, less, min_eq_right (not_lt.1 less)]

theorem ite_slt_eq_max : (if x.slt y then y else x) = BitVec.ofInt w (max x.toInt y.toInt) := by
  by_cases less : x.toInt < y.toInt
  · simp [BitVec.slt_eq_decide, less, max_eq_right less.le]
  · simp [BitVec.slt_eq_decide, less, max_eq_left (not_lt.1 less)]

theorem ite_ult_eq_min : (if x.ult y then x else y) = BitVec.ofNat w (min x.toNat y.toNat) := by
  by_cases less : x.toNat < y.toNat
  · simp [BitVec.ult_eq_decide, less, min_eq_left less.le]
  · simp [BitVec.ult_eq_decide, less, min_eq_right (not_lt.1 less)]

theorem ite_ult_eq_max : (if x.ult y then y else x) = BitVec.ofNat w (max x.toNat y.toNat) := by
  by_cases less : x.toNat < y.toNat
  · simp [BitVec.ult_eq_decide, less, max_eq_right less.le]
  · simp [BitVec.ult_eq_decide, less, max_eq_left (not_lt.1 less)]

theorem not_slt_eq_le : (!y.slt x) = decide (x.toInt ≤ y.toInt) := by
  rw [BitVec.slt_eq_decide, ← decide_not, decide_eq_decide, not_lt]

theorem not_ult_eq_le : (!y.ult x) = decide (x.toNat ≤ y.toNat) := by
  rw [BitVec.ult_eq_decide, ← decide_not, decide_eq_decide, not_lt]

/-! ### Set bits (R216) -/

theorem popCount_eq_filter : popCount x.toNat n = ((List.range n).filter fun j => x.getLsbD j).length := by
  induction n with
  | zero => rfl
  | succ n ih =>
    have bit : x.toNat / 2 ^ n % 2 = if x.getLsbD n then 1 else 0 := by
      rw [BitVec.getLsbD, Nat.testBit_eq_decide_div_mod_eq]
      split <;> simp_all
    rw [popCount, ih, bit, List.range_succ, List.filter_append, List.length_append, Nat.add_comm]
    cases h : x.getLsbD n <;> simp [h]

end

/-- The high half of a signed product (R224). -/
theorem highHalf_mul (x y : DWord) :
    (x.signExtend 128 * y.signExtend 128).extractLsb' 64 64 = BitVec.ofInt 64 (x.toInt * y.toInt / 2 ^ 64) := by
  apply BitVec.eq_of_toNat_eq
  rw [mul_eq_ofInt, BitVec.toInt_signExtend_of_le (by decide), BitVec.toInt_signExtend_of_le (by decide), BitVec.extractLsb'_toNat,
    BitVec.toNat_ofInt, BitVec.toNat_ofInt, Nat.shiftRight_eq_div_pow]
  generalize x.toInt * y.toInt = p
  omega

/-! ### Writing a scalar register (R206) -/

/-- A word that issues and whose effect is to write `f` of the state to S[d] writes that register alone. -/
theorem exec_writesScalar {s : State} {i : Instr} {d : SCode} {x : DWord} {f : State → DWord} (run : State → Out) (arm : exec i s = run s)
    (writes : run s = s.issue i fun s => s.regs fun r => r.setS d (f s)) (gives : f s = x) :
    s.issues i = true → ∃ t, exec i s = .next t ∧ onlyRegs s t ∧ scalRegs s.sh.regs d x t.sh.regs :=
  fun issues => ⟨_, arm.trans (writes.trans (State.issue_of_issues issues _)), rfl, gives ▸ scalRegs_setS s.sh.regs d (f s)⟩

/-- Settles O13: each word is one write of its table's value, and a write of s0 is discarded. -/
theorem scalarWordsWriteTheirTableResult : Obligations.ScalarWordsWriteTheirTableResult := by
  unfold Obligations.ScalarWordsWriteTheirTableResult
  intro s d a b k va lane m17 m11 m9
  simp only [scalarWords, List.forall_mem_cons, List.not_mem_nil, false_implies, implies_true, and_true]
  exact ⟨
    exec_writesScalar (execSadd d a b) rfl rfl (add_eq_ofInt _ _),
    exec_writesScalar (execSsub d a b) rfl rfl (sub_eq_ofInt _ _),
    exec_writesScalar (execSmul d a b) rfl rfl (mul_eq_ofInt _ _),
    exec_writesScalar (execSmulhi d a b) rfl rfl (highHalf_mul _ _),
    exec_writesScalar (execSand d a b) rfl rfl rfl,
    exec_writesScalar (execSor d a b) rfl rfl rfl,
    exec_writesScalar (execSxor d a b) rfl rfl rfl,
    exec_writesScalar (execSshl d a b) rfl rfl (shiftLeft_eq_ofNat _ _),
    exec_writesScalar (execSshr d a b) rfl rfl (ushiftRight_eq_ofNat _ _),
    exec_writesScalar (execSsar d a b) rfl rfl (sshiftRight_eq_ofInt _ _),
    exec_writesScalar (execSmin d a b) rfl rfl (ite_slt_eq_min _ _),
    exec_writesScalar (execSmax d a b) rfl rfl (ite_slt_eq_max _ _),
    exec_writesScalar (execSminn d a b) rfl rfl (ite_ult_eq_min _ _),
    exec_writesScalar (execSmaxn d a b) rfl rfl (ite_ult_eq_max _ _),
    exec_writesScalar (execSeq d a b) rfl rfl rfl,
    exec_writesScalar (execSne d a b) rfl rfl rfl,
    exec_writesScalar (execSlt d a b) rfl rfl rfl,
    exec_writesScalar (execSltn d a b) rfl rfl rfl,
    exec_writesScalar (execSle d a b) rfl rfl (congrArg flag (not_slt_eq_le _ _)),
    exec_writesScalar (execSlen d a b) rfl rfl (congrArg flag (not_ult_eq_le _ _)),
    exec_writesScalar (execSmov d a) rfl rfl rfl,
    exec_writesScalar (execSsel d a b) rfl rfl rfl,
    exec_writesScalar (execSli d m17) rfl rfl rfl,
    exec_writesScalar (execSlis d m17) rfl rfl (shiftLeft_or_setWidth _ _),
    exec_writesScalar (execSaddi d a m11) rfl rfl (addi_eq_ofInt _ _),
    exec_writesScalar (execSshli d a m9) rfl rfl (shiftLeft_eq_ofNat _ _),
    exec_writesScalar (execSshri d a m9) rfl rfl (ushiftRight_eq_ofNat _ _),
    exec_writesScalar (execSsari d a m9) rfl rfl (sshiftRight_eq_ofInt _ _),
    exec_writesScalar (execSandi d a m9) rfl rfl rfl,
    exec_writesScalar (execKtos d k) rfl rfl rfl,
    exec_writesScalar (execEmtos d) rfl rfl rfl,
    exec_writesScalar (execKpop d k) rfl rfl (congrArg (BitVec.ofNat 64) (popCount_eq_filter _ _)),
    exec_writesScalar (execVtos d va lane) rfl rfl (BitVec.ofNat_toNat _ _).symm⟩

end Sys2Proof.Machine
end

section
/-!
PROOFS. Special registers (R98-R100, R207, R208, R231, R236, R443).
-/

namespace Sys2Proof.Machine

open Sys2Proof Sys2Proof.Rules

/-! ### What SRD reads (R207) -/

/-- %gi0 to %gi6, the group's index in each dimension. -/
theorem special_gi (s : State) (p : BitVec 6) (n : Fin 7) (h : p.toNat = 9 + n) :
    s.special p = ((s.myGroup.map fun (g : Machine.Group) => g.gi[n]).getD 0).setWidth 64 := by
  have read : s.special p = ((s.myGroup.bind fun g => g.gi.toArray[p.toNat - 9]?).getD 0).setWidth 64 := by
    unfold State.special
    rw [h]
    fin_cases n <;> rfl
  rw [read, h, Nat.add_sub_cancel_left]
  cases s.myGroup with
  | none => rfl
  | some g => simp

theorem Sheaf.rpidx_eq (h : Sheaf) : h.rpidx = BitVec.ofNat 64 (h.rpLast.toNat * 2 ^ 8 + h.rpNext % 2 ^ 6) := by
  have := h.rpLast.isLt
  apply BitVec.eq_of_toNat_eq
  rw [Sheaf.rpidx, BitVec.toNat_ofNat]
  simp only [toNat_append_add, BitVec.toNat_ofNat]
  omega

theorem Sheaf.cpyq_eq (h : Sheaf) :
    h.cpyq = BitVec.ofNat 64 (h.nextBatch.toNat * 2 ^ 56 + h.openCpys.length % 8 * 2 ^ 48 + h.batches.length % 16 * 2 ^ 44) := by
  have := h.nextBatch.isLt
  apply BitVec.eq_of_toNat_eq
  rw [Sheaf.cpyq, BitVec.toNat_ofNat]
  simp only [toNat_append_add, BitVec.toNat_ofNat]
  omega

/-- Three places of the table need a law of their own: the grid's indices, %rpidx and %cpyq; each other one names its register. -/
theorem special_eq (s : State) (p : BitVec 6) (small : p.toNat < 38) : s.special p = (specials s).getD p.toNat 0 := by
  generalize number : p.toNat = n at small
  have places : (n < 9 ∨ (16 ≤ n ∧ n < 30) ∨ (31 ≤ n ∧ n < 37)) ∨ (9 ≤ n ∧ n < 16) ∨ n = 30 ∨ n = 37 := by omega
  rcases places with plain | ⟨above, below⟩ | rfl | rfl
  · rcases plain with low | ⟨above, below⟩ | ⟨above, below⟩ <;> interval_cases n <;> rw [State.special, number] <;> rfl
  · obtain ⟨j, rfl⟩ : ∃ j : Fin 7, n = 9 + j := ⟨⟨n - 9, by omega⟩, (Nat.add_sub_cancel' above).symm⟩
    rw [special_gi s p j number]
    fin_cases j <;> rfl
  · rw [State.special, number]
    exact s.sh.rpidx_eq
  · rw [State.special, number]
    exact s.sh.cpyq_eq

/-! ### What SWR writes (R207, R231) -/

/-- The numbers of the registers that SWR writes. -/
def writableSpecials : List Nat := [17, 18, 20, 24, 25, 26, 27, 28, 29, 34, 35, 36]

/-- The numbers of those that it leaves alone. -/
def readOnlySpecials : List (BitVec 6) :=
  [0, 1, 2, 3, 4, 5, 6, 7, 8, 9, 10, 11, 12, 13, 14, 15, 16, 19, 21, 22, 23, 30, 31, 32, 33, 37]

theorem Sheaf.setSpecial_readOnly (h : Sheaf) (x : DWord) {p : BitVec 6} (readOnly : p.toNat ∉ writableSpecials) :
    h.setSpecial p x = h := by
  unfold Sheaf.setSpecial
  split <;> simp_all [writableSpecials]

theorem extract_enables (x : DWord) : (x &&& 0x1F3F#64).extractLsb' 8 5 = x.extractLsb' 8 5 := by
  rw [BitVec.extractLsb'_and]
  exact BitVec.and_allOnes

/-- A write of %mode; a handler's enables are the hidden ones (R99, R443). -/
theorem Sheaf.setMode_eq (h : Sheaf) (x : DWord) : h.setMode x =
    if h.hnd then { h with regs := { h.regs with mode := x &&& 0x3F }, hidMode := x.extractLsb' 8 5 }
    else { h with regs := { h.regs with mode := x &&& 0x1F3F } } := by
  have low : x &&& 0x1F3F#64 &&& 0x3F#64 = x &&& 0x3F := by rw [BitVec.and_assoc]; rfl
  rw [Sheaf.setMode, low, extract_enables]
  rfl

theorem Sheaf.setSpecial_eq (h : Sheaf) (x : DWord) : ∀ p ∈ swrRule h x, h.setSpecial p.1 x = p.2 := by
  intro p hp
  rcases List.mem_append.1 hp with writable | readOnly
  · simp only [List.mem_cons, List.not_mem_nil, or_false] at writable
    rcases writable with rfl | rfl | rfl | rfl | rfl | rfl | rfl | rfl | rfl | rfl | rfl | rfl
    · exact h.setMode_eq x
    all_goals rfl
  · obtain ⟨q, hq, rfl⟩ := List.mem_map.1 readOnly
    have : ∀ q ∈ readOnlySpecials, q.toNat ∉ writableSpecials := by decide
    exact h.setSpecial_readOnly x (this q hq)

/-! ### The words (R231, R100) -/

theorem State.afterLoops_ready {s : State} {p : BitVec 6} (ready : p = 18 → s.sh.loops = []) (i : Instr) (f : State → State) :
    s.afterLoops i p f = f s.unhold := by
  have idle : (p = 18 && s.sh.loops ≠ []) = false := by simpa using ready
  rw [State.afterLoops, idle]
  rfl

/-- %fpflags waits for the loops in flight (R100). -/
theorem State.afterLoops_waits {s : State} (busy : s.sh.loops ≠ []) (i : Instr) (f : State → State) :
    s.afterLoops i 18 f = s.stall i none := by
  simp [State.afterLoops, busy]

section

variable {s : State} {p : BitVec 6} {r : SCode}

theorem exec_srd (issues : s.issues (.srd p r) = true) (ready : p = 18 → s.sh.loops = []) :
    exec (.srd p r) s = .next (s.regs fun g => g.setS r (s.special p)) := by
  change execSrd p r s = _
  rw [execSrd, State.issueWait_of_issues issues, State.afterLoops_ready ready, State.unhold_of_wait (State.issues_wait issues)]

theorem exec_swr (issues : s.issues (.swr p r) = true) (ready : p = 18 → s.sh.loops = []) :
    exec (.swr p r) s = .next (s.upd fun h => h.setSpecial p (s.sh.rd.getS r)) := by
  change execSwr p r s = _
  rw [execSwr, State.issueWait_of_issues issues, State.afterLoops_ready ready, State.unhold_of_wait (State.issues_wait issues)]

theorem exec_srd_waits (issues : s.issues (.srd 18 r) = true) (busy : s.sh.loops ≠ []) :
    exec (.srd 18 r) s = .next (waitsAt s (.srd 18 r) none) := by
  change execSrd 18 r s = _
  rw [execSrd, State.issueWait_of_issues issues, State.afterLoops_waits busy]
  rfl

theorem exec_swr_waits (issues : s.issues (.swr 18 r) = true) (busy : s.sh.loops ≠ []) :
    exec (.swr 18 r) s = .next (waitsAt s (.swr 18 r) none) := by
  change execSwr 18 r s = _
  rw [execSwr, State.issueWait_of_issues issues, State.afterLoops_waits busy]
  rfl

end

/-- Settles O15: SRD and SWR run to the write of a scalar register and of a special register, or to the wait for the loops. -/
theorem specialRegistersReadAndWrite : Obligations.SpecialRegistersReadAndWrite := by
  unfold Obligations.SpecialRegistersReadAndWrite
  refine ⟨fun s p d small ready issues => ?read, fun s a p rule ready issues => ?write, fun s r busy i hi issues => ?wait⟩
  case read =>
    rw [← special_eq s p small]
    exact ⟨_, exec_srd issues ready, rfl, scalRegs_setS s.sh.regs d (s.special p)⟩
  case write =>
    rw [exec_swr issues ready, State.upd, Sheaf.setSpecial_eq s.sh _ p rule]
  case wait =>
    simp only [List.mem_cons, List.not_mem_nil, or_false] at hi
    rcases hi with rfl | rfl
    · exact exec_srd_waits issues busy
    · exact exec_swr_waits issues busy

end Sys2Proof.Machine
end

section
/-!
PROOFS. A compare under a condition that R49 does not define, in a group whose checks are over (R49, R51, R272).
-/

namespace Sys2Proof.Machine

open Sys2Proof Sys2Proof.Rules

/-- The state after reset within a group of several words: its operands are those of the group's start (R32), with every lane active
and every register 0. -/
def midGroup0 : State :=
  { State.reset with sh := { State.reset.sh with snap := some { State.reset.sh.regs with em := BitVec.allOnes 64 } } }

/-- Within such a group a word's own checks are over (R51), and ICMP under the undefined condition 6 issues: it sets the bits of lanes
whose values are equal. -/
theorem icmp_undefined_cond_sets : midGroup0.issues (.icmp false 6 0 108 108) = true ∧
    ∃ t, exec (.icmp false 6 0 108 108) midGroup0 = .next t ∧ (t.sh.regs.getK 0).getLsbD 0 = true :=
  ⟨by decide +kernel, _, rfl, by decide +kernel⟩

theorem condRule_undefined (x y : Int) : ¬ condRule 6 x y := by
  simp [condRule]

/-- Refutes O11: in `midGroup0`, ICMP under condition 6 sets bit 0 of its predicate, where no condition of R49 holds. The statement asks
only that the word issues, and its condition was checked when the group began (R51). -/
theorem not_comparesWriteThePredicate : ¬ Obligations.ComparesWriteThePredicate := by
  unfold Obligations.ComparesWriteThePredicate
  rintro ⟨integer, -⟩
  obtain ⟨issues, t, run, bit⟩ := icmp_undefined_cond_sets
  obtain ⟨t', k, run', -, ⟨written, -⟩, bits⟩ := integer midGroup0 false 6 0 108 108 _ List.mem_cons_self issues
  obtain rfl : t = t' := Host.Outcome.next.inj (run.symm.trans run')
  rw [written 0, if_pos rfl] at bit
  exact condRule_undefined _ _ ((bits 0 (by decide)).1 bit).2.1

end Sys2Proof.Machine
end

section
/-!
PROOFS. What the vector words of integers, fields, classes and residues give, as their rules state it (R248-R256, R270, R307-R312, R324).
-/

namespace Sys2Proof.Machine

open Sys2Proof Sys2Proof.Rules

section
variable (x y : Word)

/-! ### Sums, products and differences (R248) -/

theorem highHalf_mul_signed : (x.signExtend 64 * y.signExtend 64).extractLsb' 32 32 = BitVec.ofInt 32 (x.toInt * y.toInt / 2 ^ 32) := by
  apply BitVec.eq_of_toNat_eq
  rw [mul_eq_ofInt, BitVec.toInt_signExtend_of_le (by decide), BitVec.toInt_signExtend_of_le (by decide), BitVec.extractLsb'_toNat,
    BitVec.toNat_ofInt, BitVec.toNat_ofInt, Nat.shiftRight_eq_div_pow]
  generalize x.toInt * y.toInt = p
  omega

theorem highHalf_mul_unsigned : (x.setWidth 64 * y.setWidth 64).extractLsb' 32 32 = BitVec.ofNat 32 (x.toNat * y.toNat / 2 ^ 32) := by
  have small : x.toNat * y.toNat < 2 ^ 64 := (Nat.mul_lt_mul'' x.isLt y.isLt).trans_eq (by decide)
  apply BitVec.eq_of_toNat_eq
  rw [BitVec.extractLsb'_toNat, BitVec.toNat_mul, BitVec.toNat_setWidth_of_le (by decide), BitVec.toNat_setWidth_of_le (by decide),
    Nat.mod_eq_of_lt small, Nat.shiftRight_eq_div_pow, BitVec.toNat_ofNat]

theorem muli_eq_ofInt {v : Nat} (m : BitVec v) : x * m.signExtend 32 = BitVec.ofInt 32 (x.toInt * m.toInt) := by
  rw [BitVec.ofInt_mul, BitVec.ofInt_toInt]
  rfl

theorem mul_add_eq_ofInt (z : Word) : x * y + z = BitVec.ofInt 32 (x.toInt * y.toInt + z.toInt) := by
  rw [BitVec.ofInt_add, BitVec.ofInt_toInt, mul_eq_ofInt]

theorem absDiff_eq_ofNat : (if x.slt y then y - x else x - y) = BitVec.ofNat 32 (x.toInt - y.toInt).natAbs := by
  have dist {a b : Word} (h : b.toInt ≤ a.toInt) : a - b = BitVec.ofNat 32 (a.toInt - b.toInt).natAbs := by
    rw [sub_eq_ofInt, ← BitVec.ofInt_natCast, Int.natAbs_of_nonneg (Int.sub_nonneg.2 h)]
  rw [BitVec.slt_eq_decide]
  by_cases less : x.toInt < y.toInt
  · rw [if_pos (decide_eq_true less), dist less.le, ← Int.natAbs_neg, Int.neg_sub]
  · rw [if_neg (by simpa using less), dist (not_lt.1 less)]

theorem satAdd_eq_ofInt : satAdd x y = BitVec.ofInt 32 (max (-2 ^ 31) (min (2 ^ 31 - 1) (x.toInt + y.toInt))) := by
  unfold satAdd
  dsimp only
  split
  · next low => rw [min_eq_right (by omega), max_eq_left (by omega)]; rfl
  split
  · next high => rw [min_eq_left (by omega), max_eq_right (by omega)]; rfl
  · rw [min_eq_right (by omega), max_eq_right (by omega)]

/-! ### Shifts (R250) -/

theorem shiftLeft_below_width :
    (if y.toNat < 32 then x <<< y.toNat else 0) = if y.toNat < 32 then BitVec.ofNat 32 (x.toNat * 2 ^ y.toNat) else 0 := by
  rw [shiftLeft_eq_ofNat]

theorem ushiftRight_below_width :
    (if y.toNat < 32 then x >>> y.toNat else 0) = if y.toNat < 32 then BitVec.ofNat 32 (x.toNat / 2 ^ y.toNat) else 0 := by
  rw [ushiftRight_eq_ofNat]

/-- A signed shift by 31 or more leaves the sign in every bit. -/
theorem toInt_div_large {p : Int} (h : 2 ^ 31 ≤ p) : x.toInt / p = if x.toInt < 0 then -1 else 0 := by
  have lo := BitVec.le_toInt x
  have hi := BitVec.toInt_lt (x := x)
  split
  · exact Int.ediv_eq_iff_of_pos (by omega) |>.2 ⟨by omega, by omega⟩
  · exact Int.ediv_eq_zero_of_lt (by omega) (by omega)

theorem sshiftRight_eq_clamped (n : Nat) : x.sshiftRight n = BitVec.ofInt 32 (x.toInt / 2 ^ upTo31 n) := by
  rw [sshiftRight_eq_ofInt, upTo31]
  obtain small | large := le_total n 31
  · rw [min_eq_left small]
  · rw [min_eq_right large, toInt_div_large x le_rfl, toInt_div_large x (pow_le_pow_right₀ (by decide) large)]

theorem rotateLeft_eq_ofNat {n : Nat} (h : n < 32) : x.rotateLeft n = BitVec.ofNat 32 (x.toNat * 2 ^ n + x.toNat / 2 ^ (32 - n)) := by
  have low : x.toNat >>> (32 - n) < 2 ^ n := by
    rw [Nat.shiftRight_eq_div_pow, Nat.div_lt_iff_lt_mul (by positivity), ← pow_add, Nat.add_sub_cancel' h.le]
    exact x.isLt
  apply BitVec.eq_of_toNat_eq
  rw [BitVec.toNat_rotateLeft, Nat.mod_eq_of_lt h, BitVec.toNat_ofNat, ← Nat.shiftLeft_eq, ← Nat.shiftRight_eq_div_pow,
    Nat.shiftLeft_add_eq_or_of_lt low, Nat.or_mod_two_pow, Nat.mod_eq_of_lt (a := x.toNat >>> _)]
  exact low.trans_le (Nat.pow_le_pow_right two_pos h.le)

/-! ### Bit fields (R254, R256) -/

/-- The position and the length of a field. -/
theorem fieldPos_eq : (y.extractLsb' 0 5).toNat = y.toNat % 32 := by
  rw [BitVec.extractLsb'_toNat]; rfl
theorem fieldLen_eq : (y.extractLsb' 8 5).toNat = y.toNat / 256 % 32 := by
  rw [BitVec.extractLsb'_toNat, Nat.shiftRight_eq_div_pow]

/-- The low `n` bits of a shifted word. -/
theorem field_toNat (p : Nat) {n : Nat} (h : n ≤ 32) :
    ((x >>> p) &&& BitVec.ofNat 32 (2 ^ n - 1)).toNat = x.toNat / 2 ^ p % 2 ^ n := by
  have pos : 0 < 2 ^ n := by positivity
  have le : 2 ^ n ≤ 2 ^ 32 := Nat.pow_le_pow_right two_pos h
  rw [BitVec.toNat_and, BitVec.toNat_ofNat, Nat.mod_eq_of_lt (by omega), Nat.and_two_pow_sub_one_eq_mod, BitVec.toNat_ushiftRight,
    Nat.shiftRight_eq_div_pow]

/-- The top bit of a field is its sign. -/
theorem field_sign {f : Word} {n : Nat} (h : f.toNat < 2 ^ (n + 1)) : f.getLsbD n = decide (2 ^ n ≤ f.toNat) := by
  have pos : 0 < 2 ^ n := by positivity
  have small : f.toNat / 2 ^ n < 2 := Nat.div_lt_of_lt_mul (by rwa [pow_succ] at h)
  rw [BitVec.getLsbD, Nat.testBit_eq_decide_div_mod_eq, decide_eq_decide, Nat.mod_eq_of_lt small, ← Nat.one_le_div_iff pos]
  omega

/-- Ones above a field take 2 to its length from it. -/
theorem or_complement_eq_ofInt {f : Word} {n : Nat} (hn : n ≤ 32) (h : f.toNat < 2 ^ n) :
    f ||| ~~~(BitVec.ofNat 32 (2 ^ n - 1)) = BitVec.ofInt 32 ((f.toNat : Int) - 2 ^ n) := by
  have pos : 0 < 2 ^ n := by positivity
  have le : 2 ^ n ≤ 2 ^ 32 := Nat.pow_le_pow_right two_pos hn
  have inside : f &&& BitVec.ofNat 32 (2 ^ n - 1) = f := by
    apply BitVec.eq_of_toNat_eq
    rw [BitVec.toNat_and, BitVec.toNat_ofNat, Nat.mod_eq_of_lt (by omega), Nat.and_two_pow_sub_one_eq_mod, Nat.mod_eq_of_lt h]
  have apart : f &&& ~~~(BitVec.ofNat 32 (2 ^ n - 1)) = 0#32 := by
    rw [← inside, BitVec.and_assoc, BitVec.and_not_self]
    exact BitVec.and_zero
  have ones : ~~~(BitVec.ofNat 32 (2 ^ n - 1)) = BitVec.ofInt 32 (-(2 ^ n : Nat)) := by
    apply BitVec.eq_of_toNat_eq
    rw [BitVec.toNat_not, BitVec.toNat_ofNat, BitVec.toNat_ofInt]
    omega
  rw [← BitVec.add_eq_or_of_and_eq_zero _ _ apart, ones, Int.sub_eq_add_neg, BitVec.ofInt_add, BitVec.ofInt_natCast,
    BitVec.ofNat_toNat, BitVec.setWidth_eq, Nat.cast_pow, Nat.cast_ofNat]

theorem fieldExtract_eq_bfxRule : fieldExtract x y = bfxRule x y := by
  have len : y.toNat / 256 % 32 + 1 ≤ 32 := Nat.mod_lt _ (by decide)
  simp only [fieldExtract, bfxRule, fieldPos_eq, fieldLen_eq, Nat.add_sub_cancel, ← field_toNat x _ len]
  have small := (field_toNat x (y.toNat % 32) len).trans_lt (Nat.mod_lt _ (Nat.two_pow_pos _))
  generalize x >>> (y.toNat % 32) &&& BitVec.ofNat 32 (2 ^ (y.toNat / 256 % 32 + 1) - 1) = f at small ⊢
  simp only [field_sign small, Bool.and_eq_true, decide_eq_true_iff]
  split
  · exact or_complement_eq_ofInt len small
  · rw [BitVec.ofInt_natCast, BitVec.ofNat_toNat, BitVec.setWidth_eq]

theorem fieldMask_bit (p n : Nat) {j : Nat} (hj : j < 32) :
    (BitVec.ofNat 32 ((2 ^ n - 1) * 2 ^ p)).getLsbD j = decide (p ≤ j ∧ j < p + n) := by
  rw [BitVec.getLsbD_ofNat, decide_eq_true hj, Bool.true_and, Nat.testBit_mul_two_pow, Nat.testBit_two_pow_sub_one]
  by_cases h : p ≤ j <;> simp [h]; omega

theorem fieldInsert_bit (z : Word) {j : Nat} (hj : j < 32) : (fieldInsert x y z).getLsbD j = bfiRule x y z j := by
  simp only [fieldInsert, bfiRule, fieldPos_eq, fieldLen_eq, BitVec.getLsbD_or, BitVec.getLsbD_and, BitVec.getLsbD_not,
    BitVec.getLsbD_shiftLeft, fieldMask_bit _ _ hj, hj, decide_true, Bool.true_and]
  by_cases inside : y.toNat % 32 ≤ j ∧ j < y.toNat % 32 + (y.toNat / 256 % 32 + 1)
  · simp [inside]
  · simp [inside]

/-- A word is 0 where its number is. -/
theorem ite_ne_zero_toNat (z : Word) : (if z ≠ 0 then x else y) = if z.toNat ≠ 0 then x else y :=
  if_congr (not_congr (BitVec.toNat_eq (x := z) (y := 0))) rfl rfl

theorem setWidth_eq_ofInt {w : Nat} (b : BitVec w) : b.setWidth 32 = BitVec.ofInt 32 b.toNat := by
  rw [BitVec.ofInt_natCast, BitVec.ofNat_toNat]

/-! ### Dot products (R256) -/

theorem dot4_eq_ofInt {ext : BitVec 8 → Word} {v : BitVec 8 → Int} (h : ∀ b, ext b = BitVec.ofInt 32 (v b)) (z : Word) :
    z + dot4 ext x y = BitVec.ofInt 32 (z.toInt + v (x.extractLsb' 0 8) * v (y.extractLsb' 0 8) +
      v (x.extractLsb' 8 8) * v (y.extractLsb' 8 8) + v (x.extractLsb' 16 8) * v (y.extractLsb' 16 8) +
      v (x.extractLsb' 24 8) * v (y.extractLsb' 24 8)) := by
  simp only [dot4, h, BitVec.ofInt_add, BitVec.ofInt_mul, BitVec.ofInt_toInt, BitVec.add_assoc]

/-! ### Bit counts (R254) -/

/-- How many numbers from 0 on have a property that first fails at k. -/
theorem length_takeWhile_range {p : Nat → Bool} {n k : Nat} (hk : k < n) (holds : ∀ j < k, p j = true) (fails : p k = false) :
    ((List.range n).takeWhile p).length = k := by
  have first : (List.range n).findIdx (fun j => !p j) = k :=
    (List.findIdx_eq (by simpa using hk)).2 ⟨by simp [fails], fun j hj => by simp [holds j hj]⟩
  rw [List.takeWhile_eq_take_findIdx_not, first, List.length_take, List.length_range, min_eq_left hk.le]

theorem leadingZeros_eq_zerosAbove : leadingZeros x = zerosAbove x := by
  unfold leadingZeros zerosAbove
  split
  · next zero => 
    subst zero
    decide
  · next nonzero =>
    have nz : x.toNat ≠ 0 := fun h => nonzero (BitVec.eq_of_toNat_eq h)
    have top : x.toNat.log2 < 32 := (Nat.log2_lt nz).2 x.isLt
    refine (length_takeWhile_range (by omega) (fun j hj => ?_) ?_).symm
    · rw [BitVec.getLsbD, Nat.testBit_lt_two_pow, Bool.not_false]
      exact Nat.lt_log2_self.trans_le (Nat.pow_le_pow_right two_pos (by omega))
    · rw [Nat.sub_sub_self (by omega), BitVec.getLsbD, Nat.testBit_log2 nz, Bool.not_true]

end

/-! ### Classes (R270) -/

section
variable (x : Nat)

theorem f32_isNaN : f32.isNaN x = decide (x / 2 ^ 23 % 256 = 255 ∧ x % 2 ^ 23 ≠ 0) := by
  rw [Fmt.isNaN, decide_eq_decide]
  change 0x7F800000 < x % 2 ^ 31 ↔ _
  omega

theorem f32_isSNaN : f32.isSNaN x = (f32.isNaN x && decide (x % 2 ^ 23 < 2 ^ 22)) := rfl

theorem f32_isInf : f32.isInf x = decide (x / 2 ^ 23 % 256 = 255 ∧ x % 2 ^ 23 = 0) := by
  rw [Fmt.isInf, decide_eq_decide]
  change x % 2 ^ 31 = 0x7F800000 ↔ _
  omega

theorem f32_isZero : f32.isZero x = decide (x / 2 ^ 23 % 256 = 0 ∧ x % 2 ^ 23 = 0) := by
  rw [Fmt.isZero, decide_eq_decide]
  change x % 2 ^ 31 = 0 ↔ _
  omega

theorem f32_isSub : f32.isSub x = decide (x / 2 ^ 23 % 256 = 0 ∧ x % 2 ^ 23 ≠ 0) := by
  rw [Fmt.isSub, ← Bool.decide_and, decide_eq_decide]
  change x % 2 ^ 31 ≠ 0 ∧ x % 2 ^ 31 < 2 ^ 23 ↔ _
  omega

end

theorem classify32_eq_classBit (x : Word) : classify32 x.toNat = 2 ^ classBit x := by
  have sign : f32.neg x.toNat = decide (2 ^ 31 ≤ x.toNat) := rfl
  simp only [classify32, classBit, f32_isSNaN, f32_isNaN, f32_isInf, f32_isZero, f32_isSub, sign]
  generalize x.toNat / 2 ^ 23 % 256 = e
  generalize x.toNat % 2 ^ 23 = r
  by_cases special : e = 255
  · by_cases r = 0 <;> by_cases r < 2 ^ 22 <;> by_cases 2 ^ 31 ≤ x.toNat <;> simp [*]
  · by_cases e = 0 <;> by_cases r = 0 <;> by_cases 2 ^ 31 ≤ x.toNat <;> simp [*]

/-! ### Equal lanes (R324) -/

/-- The lanes below one, among those that a test keeps. -/
theorem filter_below_range (p : Nat → Bool) {i n : Nat} (h : i ≤ n) : ((List.range n).filter p).filter (· < i) = (List.range i).filter p := by
  obtain ⟨k, rfl⟩ := Nat.exists_eq_add_of_le h
  have below : ((List.range i).filter p).filter (· < i) = (List.range i).filter p :=
    List.filter_eq_self.2 fun j hj => by simpa using (List.mem_filter.1 hj).1
  have above : (((List.range k).map (i + ·)).filter p).filter (· < i) = [] := by simp
  rw [List.range_add, List.filter_append, List.filter_append, below, above, List.append_nil]

theorem equalLanes_head (s : State) (a : VCode) (i : Nat) : ((s.equalLanes a i).head?).getD 0 =
    ((List.range 64).find? fun j => s.sh.em.getLsbD j && inA s a j = inA s a i).getD 0 :=
  congrArg (Option.getD · 0) List.head?_filter

theorem equalLanes_below (s : State) (a : VCode) {i : Nat} (h : i < 64) : ((s.equalLanes a i).filter (· < i)).length =
    ((List.range i).filter fun j => s.sh.em.getLsbD j && inA s a j = inA s a i).length :=
  congrArg List.length (filter_below_range _ h.le)

/-! ### Residue words (R309, R312) -/

theorem ofNat_raPack (c : Nat → Int) :
    BitVec.ofNat 32 (raPack (c 0 % 1023).toNat (c 1 % 1024).toNat (c 2 % 1025).toNat) = raOf c := by
  have nonneg (j : Nat) {m : Int} (h : m ≠ 0) : ((c j % m).toNat : Int) = c j % m := Int.toNat_of_nonneg (Int.emod_nonneg _ h)
  rw [← BitVec.ofInt_natCast, raPack, raOf]
  push_cast
  rw [nonneg 0 (by decide), nonneg 1 (by decide), nonneg 2 (by decide)]

theorem ofNat_rePack (c : Nat → Int) : (rePack (c 0 % 31).toNat (c 1 % 32).toNat (c 2 % 33).toNat : Int) = reOf c := by
  have nonneg (j : Nat) {m : Int} (h : m ≠ 0) : ((c j % m).toNat : Int) = c j % m := Int.toNat_of_nonneg (Int.emod_nonneg _ h)
  rw [rePack, reOf]
  push_cast
  rw [nonneg 0 (by decide), nonneg 1 (by decide), nonneg 2 (by decide)]

theorem raMap_eq_raOf (x y : Word) (f : Int → Int → Int) : raMap x y f = raOf fun j => f (raCh x j) (raCh y j) :=
  ofNat_raPack fun j => f (raCh x j) (raCh y j)

theorem raScale_eq_raOf (x y : Word) : raScale x y = raOf fun j => raCh x j * (y.toInt % raMod j) :=
  ofNat_raPack fun j => raCh x j * (y.toInt % raMod j)

theorem raEncode_eq_raOf (x : Int) : BitVec.ofNat 32 (raEncode x) = raOf fun _ => x := ofNat_raPack fun _ => x

/-- The bound at which the sign turns, for an even product of moduli. -/
theorem residueValue_eq_standsFor {m1 m2 m3 : Int} (even : m1 * m2 * m3 % 2 = 0) (h : Int) (c : Nat × Nat × Nat) :
    residueValue m1 m2 m3 h c = standsFor m1 m2 m3 h c.1 c.2.1 c.2.2 := by
  simp only [residueValue, standsFor]
  generalize m1 * m2 * m3 = M at even ⊢
  congr 1
  rw [eq_iff_iff]
  omega

theorem raValue_eq_standsFor (x : Word) :
    raValue x.toNat = standsFor 1023 1024 1025 513 (raCh x 0) (raCh x 1) (raCh x 2) :=
  residueValue_eq_standsFor (by decide) 513 (raChannels x.toNat)

theorem reValue_eq_standsFor (x : Nat) : reValue x = standsFor 31 32 33 17 (reCh x 0) (reCh x 1) (reCh x 2) :=
  residueValue_eq_standsFor (by decide) 17 (reChannels x)

/-- An element of a word as its number. -/
theorem element_eq_ofNat (x : Word) (e : Nat) : x.extractLsb' (16 * e) 16 = BitVec.ofNat 16 (el x e) := by
  rw [← el_eq_extract, BitVec.ofNat_toNat, BitVec.setWidth_eq]

theorem append_eq_two (g : Nat → Int) : BitVec.ofInt 16 (g 1) ++ BitVec.ofInt 16 (g 0) = two g := by
  apply BitVec.eq_of_toNat_eq
  rw [BitVec.toNat_append, BitVec.toNat_ofInt, BitVec.toNat_ofInt, two, BitVec.toNat_ofInt, ← Nat.shiftLeft_add_eq_or_of_lt (by omega),
    Nat.shiftLeft_eq]
  omega

/-- An operation on the elements of words gives the word of its results. -/
theorem perHalf_eq_two {x y : Word} {f : BitVec 16 → BitVec 16 → BitVec 16} {g : Nat → Int}
    (h : ∀ e, f (BitVec.ofNat 16 (el x e)) (BitVec.ofNat 16 (el y e)) = BitVec.ofInt 16 (g e)) : perHalf x y f = two g := by
  rw [← append_eq_two, ← h, ← h, ← element_eq_ofNat, ← element_eq_ofNat, ← element_eq_ofNat, ← element_eq_ofNat]
  rfl

theorem el_toNat (x : Word) (e : Nat) : (BitVec.ofNat 16 (el x e)).toNat = el x e :=
  Nat.mod_eq_of_lt (Nat.mod_lt _ (by decide))

theorem reSum_eq_reOf (x y : Word) (e : Nat) : reSum (BitVec.ofNat 16 (el x e)) (BitVec.ofNat 16 (el y e)) =
    BitVec.ofInt 16 (reOf fun j => reCh (el x e) j + reCh (el y e) j) := by
  rw [← ofNat_rePack, BitVec.ofInt_natCast, reSum, el_toNat, el_toNat]
  rfl

theorem reEncode_eq_reOf (x : Word) (e : Nat) :
    BitVec.ofNat 16 (reEncode (BitVec.ofNat 16 (el x e)).toInt) = BitVec.ofInt 16 (reOf fun _ => elS x e) := by
  rw [← ofNat_rePack, BitVec.ofInt_natCast]
  rfl

theorem reValue_el_eq (x : Word) (e : Nat) : BitVec.ofInt 16 (reValue (BitVec.ofNat 16 (el x e)).toNat) =
    BitVec.ofInt 16 (standsFor 31 32 33 17 (reCh (el x e) 0) (reCh (el x e) 1) (reCh (el x e) 2)) := by
  rw [el_toNat, reValue_eq_standsFor]

/-! ### Packing (R218, R222, R307) -/

theorem append_low_eq (m : BitVec 16) (x : Word) : m ++ x.extractLsb' 0 16 = BitVec.ofNat 32 (m.toNat * 2 ^ 16 + x.toNat % 2 ^ 16) := by
  apply BitVec.eq_of_toNat_eq
  rw [BitVec.toNat_append, BitVec.extractLsb'_toNat, Nat.shiftRight_zero, ← Nat.shiftLeft_add_eq_or_of_lt (by omega), Nat.shiftLeft_eq,
    BitVec.toNat_ofNat]
  omega

theorem lowHalves_eq (x y : Word) :
    y.extractLsb' 0 16 ++ x.extractLsb' 0 16 = BitVec.ofNat 32 (y.toNat % 2 ^ 16 * 2 ^ 16 + x.toNat % 2 ^ 16) := by
  rw [append_low_eq, BitVec.extractLsb'_toNat, Nat.shiftRight_zero]

theorem highHalf_eq (x : Word) : 0#16 ++ x.extractLsb' 16 16 = BitVec.ofNat 32 (x.toNat / 2 ^ 16) := by
  apply BitVec.eq_of_toNat_eq
  rw [BitVec.toNat_append, BitVec.extractLsb'_toNat, Nat.shiftRight_eq_div_pow, BitVec.toNat_ofNat, BitVec.toNat_ofNat, Nat.zero_mod,
    Nat.zero_shiftLeft, Nat.zero_or]
  omega

end Sys2Proof.Machine
end

section
/-!
PROOFS. The vector words with a lane-wise result of their own (R218, R222, R237, R238, R248-R256, R266, R270, R307-R312, R324).
-/

namespace Sys2Proof.Machine

open Sys2Proof Sys2Proof.Rules

/-! ### Lane-wise results (R237, R238) -/

theorem vecRegs_vecLanes {s : State} {d : VCode} {f x : Nat → Word} (gives : ∀ l < 64, s.sh.em.getLsbD l = true → f l = x l) :
    vecRegs s d x (s.vecLanes d f).sh.regs := by
  obtain ⟨w0, shifted⟩ := s.vecLanes_push d f
  refine ⟨fun c l hc hl => ?_, ⟨fun l hl => ?_, shifted⟩, s.vecLanes_scalars d f⟩
  · rw [s.vecLanes_lane d f hc hl]
    exact if_ctx_congr Iff.rfl (fun h => gives l hl h.2) fun _ => rfl
  · rw [w0 l hl]
    exact if_ctx_congr Iff.rfl (gives l hl) fun _ => rfl

theorem pairRegs_result64 {s : State} {d : VCode} {f x : Nat → DWord} (gives : ∀ l < 64, s.sh.em.getLsbD l = true → f l = x l) :
    pairRegs s d x (s.sh.regs.result64 s.sh.em d f) := by
  obtain ⟨high, low, shifted⟩ := Regs.result64_push s.sh.regs s.sh.em d f
  refine ⟨fun c l hc hl => ?_, ⟨fun l hl => ?_, fun l hl => ?_, shifted⟩, Regs.result64_scalars s.sh.regs s.sh.em d f⟩
  · rw [Regs.result64_lane _ _ _ _ hc hl]
    by_cases active : s.sh.em.getLsbD l = true
    · rw [gives l hl active, BitVec.setWidth_eq_extractLsb' (by decide)]
    · simp only [active, false_and, if_false, Bool.false_eq_true]
  · rw [high l hl]
    exact if_ctx_congr Iff.rfl (fun active => by rw [gives l hl active]) fun _ => rfl
  · rw [low l hl]
    exact if_ctx_congr Iff.rfl (fun active => by rw [gives l hl active, BitVec.setWidth_eq_extractLsb' (by decide)]) fun _ => rfl

/-- A word that issues and whose effect is a lane-wise result writes and pushes it, and changes nothing else. -/
theorem exec_writesVector {s : State} {i : Instr} {d : VCode} {x : Nat → Word} {f : State → Nat → Word} (run : State → Out)
    (arm : exec i s = run s) (writes : run s = s.issue i fun s => s.vecLanes d (f s)) (gives : ∀ l < 64, f s l = x l)
    (issues : s.issues i = true) : ∃ t, exec i s = .next t ∧ onlyRegs s t ∧ vecRegs s d x t.sh.regs :=
  ⟨_, arm.trans (writes.trans (State.issue_of_issues issues _)), rfl, vecRegs_vecLanes fun l hl _ => gives l hl⟩

/-! ### The words -/

section
variable (s : State) (d a b : VCode)

theorem intWords_write : ∀ p ∈ intWords d a b, s.issues p.1 = true → ∃ t, exec p.1 s = .next t ∧ onlyRegs s t ∧
    vecRegs s d (fun i => p.2 (inA s a i) (inA s b i) (inD s d i)) t.sh.regs := by
  simp only [intWords, List.forall_mem_cons, List.not_mem_nil, false_implies, implies_true, and_true]
  exact ⟨
    exec_writesVector (execIadd d a b) rfl rfl fun _ _ => add_eq_ofInt _ _,
    exec_writesVector (execIsub d a b) rfl rfl fun _ _ => sub_eq_ofInt _ _,
    exec_writesVector (execImul d a b) rfl rfl fun _ _ => mul_eq_ofInt _ _,
    exec_writesVector (execImulhi d a b) rfl rfl fun _ _ => highHalf_mul_signed _ _,
    exec_writesVector (execImad d a b) rfl rfl fun _ _ => mul_add_eq_ofInt _ _ _,
    exec_writesVector (execImin d a b) rfl rfl fun _ _ => ite_slt_eq_min _ _,
    exec_writesVector (execImax d a b) rfl rfl fun _ _ => ite_slt_eq_max _ _,
    exec_writesVector (execIabsd d a b) rfl rfl fun _ _ => absDiff_eq_ofNat _ _,
    exec_writesVector (execNmin d a b) rfl rfl fun _ _ => ite_ult_eq_min _ _,
    exec_writesVector (execNmax d a b) rfl rfl fun _ _ => ite_ult_eq_max _ _,
    exec_writesVector (execNmulhi d a b) rfl rfl fun _ _ => highHalf_mul_unsigned _ _,
    exec_writesVector (execIadds d a b) rfl rfl fun _ _ => satAdd_eq_ofInt _ _,
    exec_writesVector (execAnd d a b) rfl rfl fun _ _ => rfl,
    exec_writesVector (execOr d a b) rfl rfl fun _ _ => rfl,
    exec_writesVector (execXor d a b) rfl rfl fun _ _ => rfl,
    exec_writesVector (execAndn d a b) rfl rfl fun _ _ => rfl,
    exec_writesVector (execShl d a b) rfl rfl fun _ _ => shiftLeft_below_width _ _,
    exec_writesVector (execShr d a b) rfl rfl fun _ _ => ushiftRight_below_width _ _,
    exec_writesVector (execSar d a b) rfl rfl fun _ _ => sshiftRight_eq_clamped _ _,
    exec_writesVector (execRotl d a b) rfl rfl fun _ _ => rotateLeft_eq_ofNat _ (Nat.mod_lt _ (by decide)),
    exec_writesVector (execBfx d a b) rfl rfl fun _ _ => fieldExtract_eq_bfxRule _ _,
    exec_writesVector (execSel d a b) rfl rfl fun _ _ => ite_ne_zero_toNat _ _ _,
    exec_writesVector (execIdp4 d a b) rfl rfl fun _ _ => dot4_eq_ofInt _ _ (v := BitVec.toInt) (fun _ => rfl) _,
    exec_writesVector (execNdp4 d a b) rfl rfl fun _ _ => dot4_eq_ofInt _ _ setWidth_eq_ofInt _⟩

theorem immWords_write (m : BitVec 7) : ∀ p ∈ immWords d a m, s.issues p.1 = true → ∃ t, exec p.1 s = .next t ∧ onlyRegs s t ∧
    vecRegs s d (fun i => p.2 (inA s a i)) t.sh.regs := by
  simp only [immWords, List.forall_mem_cons, List.not_mem_nil, false_implies, implies_true, and_true]
  exact ⟨
    exec_writesVector (execIaddi d a m) rfl rfl fun _ _ => addi_eq_ofInt _ _,
    exec_writesVector (execImuli d a m) rfl rfl fun _ _ => muli_eq_ofInt _ _,
    exec_writesVector (execAndi d a m) rfl rfl fun _ _ => rfl,
    exec_writesVector (execOri d a m) rfl rfl fun _ _ => rfl,
    exec_writesVector (execXori d a m) rfl rfl fun _ _ => rfl,
    exec_writesVector (execShli d a m) rfl rfl fun _ _ => shiftLeft_eq_ofNat _ _,
    exec_writesVector (execShri d a m) rfl rfl fun _ _ => ushiftRight_eq_ofNat _ _,
    exec_writesVector (execSari d a m) rfl rfl fun _ _ => sshiftRight_eq_ofInt _ _,
    exec_writesVector (execPopc d a) rfl rfl fun _ _ => congrArg (BitVec.ofNat 32) (popCount_eq_filter _ _),
    exec_writesVector (execClz d a) rfl rfl fun _ _ => congrArg (BitVec.ofNat 32) (leadingZeros_eq_zerosAbove _),
    exec_writesVector (execBrev d a) rfl rfl fun _ _ => rfl⟩

theorem laneWords_write (sa : SCode) (m : BitVec 16) : ∀ p ∈ laneWords s d a b sa m, s.issues p.1 = true →
    ∃ t, exec p.1 s = .next t ∧ onlyRegs s t ∧ vecRegs s d p.2 t.sh.regs := by
  simp only [laneWords, List.forall_mem_cons, List.not_mem_nil, false_implies, implies_true, and_true]
  exact ⟨
    exec_writesVector (execVli d m) rfl rfl fun _ _ => rfl,
    exec_writesVector (execVlih d m) rfl rfl fun _ _ => append_low_eq _ _,
    exec_writesVector (execStov d sa) rfl rfl fun _ _ => (BitVec.ofNat_toNat _ _).symm,
    exec_writesVector (execPk2 d a b) rfl rfl fun _ _ => lowHalves_eq _ _,
    exec_writesVector (execHi16 d a) rfl rfl fun _ _ => highHalf_eq _,
    exec_writesVector (execFcps d a b) rfl rfl fun _ _ => rfl,
    exec_writesVector (execFabs d a) rfl rfl fun _ _ => rfl,
    exec_writesVector (execFneg d a) rfl rfl fun _ _ => rfl,
    exec_writesVector (execFcls d a) rfl rfl fun _ _ => congrArg (BitVec.ofNat 32) (classify32_eq_classBit _),
    exec_writesVector (execMatchv d a) rfl rfl fun l _ => congrArg (BitVec.ofNat 32) (equalLanes_head s a l),
    exec_writesVector (execMrank d a) rfl rfl fun l hl => congrArg (BitVec.ofNat 32) (equalLanes_below s a hl),
    exec_writesVector (execRadd d a b) rfl rfl fun _ _ => raMap_eq_raOf _ _ _,
    exec_writesVector (execRsub d a b) rfl rfl fun _ _ => raMap_eq_raOf _ _ _,
    exec_writesVector (execRscl d a b) rfl rfl fun _ _ => raScale_eq_raOf _ _,
    exec_writesVector (execRfrom d a) rfl rfl fun _ _ => raEncode_eq_raOf _,
    exec_writesVector (execRfix d a) rfl rfl fun _ _ => congrArg (BitVec.ofInt 32) (raValue_eq_standsFor _),
    exec_writesVector (execReadd d a b) rfl rfl fun _ _ => perHalf_eq_two (reSum_eq_reOf _ _),
    exec_writesVector (execRefrom d a) rfl rfl fun _ _ => perHalf_eq_two (reEncode_eq_reOf _),
    exec_writesVector (execRefix d a) rfl rfl fun _ _ => perHalf_eq_two (reValue_el_eq _)⟩

theorem bfi_writes (issues : s.issues (.bfi d a b) = true) : ∃ t, exec (.bfi d a b) s = .next t ∧ onlyRegs s t ∧
    vecRegs s d (fun i => fieldInsert (inA s a i) (inA s b i) (inD s d i)) t.sh.regs :=
  exec_writesVector (execBfi d a b) rfl rfl (fun _ _ => rfl) issues

theorem dneg_writes (issues : s.issues (.dneg d a) = true) : ∃ t, exec (.dneg d a) s = .next t ∧ onlyRegs s t ∧
    pairRegs s d (fun i => s.sh.rd.src64 a i ^^^ 0x8000000000000000) t.sh.regs :=
  ⟨_, exec_of_issue (effect := fun s => s.regs fun r => r.result64 s.sh.em d fun i => s.sh.rd.src64 a i ^^^ (1#64 <<< 63)) rfl issues, rfl,
    pairRegs_result64 fun _ _ _ => rfl⟩

end

/-- Settles O1: each word is one lane-wise result, which is its table's; BFI is one too, bit by bit, and DNEG is a result in a pair. -/
theorem vectorWordsWriteTheirTableResult : Obligations.VectorWordsWriteTheirTableResult := by
  unfold Obligations.VectorWordsWriteTheirTableResult
  refine ⟨intWords_write, immWords_write, laneWords_write, fun s d a b issues => ?_, dneg_writes⟩
  obtain ⟨t, run, frame, written⟩ := bfi_writes s d a b issues
  exact ⟨t, _, run, frame, written, fun i j hj => fieldInsert_bit _ _ _ hj⟩

end Sys2Proof.Machine
end

section
/-!
PROOFS. Floating words when no exception is enabled: results, pushes and flags (R98, R99, R237, R238, R241, R242, R258-R268, R314).
-/

namespace Sys2Proof.Machine

open Sys2Proof Sys2Proof.Rules

/-! ### No exception enabled (R98, R99, R242) -/

/-- With no exception enabled, none names a cause. -/
theorem fpCause_quiet {mode : DWord} (quiet : mode.extractLsb' 8 5 = 0) (exc : Exc) : fpCause exc mode = none := by
  have off (k : Nat) (hk : k < 5) : (exc.getLsbD k && mode.getLsbD (8 + k)) = false := by
    have bit := congrArg (·.getLsbD k) quiet
    simp only [BitVec.getLsbD_extractLsb', decide_eq_true hk, Bool.true_and] at bit
    rw [bit, BitVec.ofNat_eq_ofNat, BitVec.getLsbD_zero, Bool.and_false]
  simp only [fpCause, off 0 (by decide), off 1 (by decide), off 2 (by decide), off 3 (by decide), off 4 (by decide), Bool.false_eq_true,
    if_false]

/-- Then a word's exceptions are flagged and nothing traps. -/
theorem State.raise_quiet {s : State} (quiet : quietMode s) (i : Instr) (lanes : Nat → DWord) : s.raise i lanes = s.flagged lanes := by
  unfold State.raise
  extract_lets bit exc t
  rw [fpCause_quiet quiet]
  rfl

theorem quietMode_regs {s : State} (quiet : quietMode s) {g : Regs → Regs} (mode : (g s.sh.regs).mode = s.sh.regs.mode) :
    quietMode (s.regs g) := by
  unfold quietMode Sheaf.rd at quiet ⊢
  rw [State.regs_sh_snap, State.regs_sh_regs]
  cases snap : s.sh.snap with
  | none => rw [snap] at quiet; rw [Option.getD_none, mode]; exact quiet
  | some r => rw [snap] at quiet; exact quiet

theorem flagsGain_flagged {s : State} {lanes : Nat → DWord} {exc : Nat → Exc} (raise : lanesRaise s lanes exc) (g : Regs → Regs) :
    flagsGain s ((s.regs g).flagged lanes) exc := by
  intro k hk
  rw [State.flagged_bit (s.regs g) lanes hk]
  congr 1
  by_cases h5 : k < 5
  · congr 1
    rw [Bool.eq_iff_iff, decide_eq_true_iff, lanesRaise_ne_zero raise h5]
    simp
  · rw [decide_eq_false h5, Bool.false_and, Bool.false_and]

section
variable {s : State} (quiet : quietMode s) {i : Instr} {d : VCode} {f : Nat → FRes}
include quiet

theorem fpLanes_done (run : exec i s = .next (s.fpLanes i d f)) : ∃ t, exec i s = .next t ∧ fpDone s t d f := by
  refine ⟨_, run, ?_⟩
  rw [State.fpLanes, State.vecLanes, State.raise_quiet (quietMode_regs quiet (s.vecLanes_scalars d _).2.2.2)]
  exact ⟨rfl, vecRegs_vecLanes fun l hl active => congrArg (BitVec.ofNat 32) (resVal_laneRes s f hl active),
    flagsGain_flagged (fun k _ l hl => resLanes_laneRes s f k hl) _⟩

theorem fpLanes64_done (run : exec i s = .next (s.fpLanes64 i d f)) : ∃ t, exec i s = .next t ∧ fpDone64 s t d f := by
  refine ⟨_, run, ?_⟩
  rw [State.fpLanes64, State.raise_quiet (quietMode_regs quiet (Regs.result64_scalars _ _ _ _).2.2.2)]
  exact ⟨rfl, pairRegs_result64 fun l hl active => congrArg (BitVec.ofNat 64) (resVal_laneRes s f hl active),
    flagsGain_flagged (fun k _ l hl => resLanes_laneRes s f k hl) _⟩

end

end Sys2Proof.Machine
end

section
/-!
PROOFS. Minimum and maximum are those of the ordered values (R264).
-/

namespace Sys2Proof.Machine

open Sys2Proof Sys2Proof.Rules

/-- The order key is the order of R264, with -0 below +0. -/
theorem below_iff_ordKey (f : Fmt) (x y : Nat) : below f x y ↔ f.ordKey x < f.ordKey y := by
  rw [below, val_lt_iff, val_eq_iff, Fmt.valKey, Fmt.valKey, Fmt.ordKey, Fmt.ordKey]
  cases f.neg x <;> cases f.neg y <;> simp <;> omega

theorem minMax_follows_rule (f : Fmt) (md : FMode) (isMax : Bool) (a b : Nat) :
    minMaxRule f isMax (f.inp md a) (f.inp md b) (f.minMax md isMax a b) := by
  unfold Fmt.minMax
  generalize f.inp md a = x
  generalize f.inp md b = y
  refine ⟨rfl, fun hx hy => by simp [hx, hy], fun hx hy => by simp [hx, hy], fun hx hy => by simp [hx, hy], fun hx hy => ?_⟩
  simp only [hx, hy, below_iff_ordKey, Bool.false_eq_true, if_false]
  obtain less | same | more := lt_trichotomy (f.ordKey x) (f.ordKey y)
  · cases isMax <;> simp [less, less.ne, less.not_gt]
  · simp [same]
  · cases isMax <;> simp [more, more.ne', more.not_gt]

end Sys2Proof.Machine
end

section
/-!
PROOFS. The special functions on the inputs that R316 settles (R102, R241, R316).
-/

namespace Sys2Proof.Machine

open Sys2Proof Sys2Proof.Rules

section
variable {fn : ApproxFn} {md : FMode} {a : Nat}

theorem approxFn_of_nan (nan : f32.isNaN (f32.inp md a) = true) :
    approxFn fn md a = ⟨f32.quieted (f32.inp md a), Exc.invIf (f32.isSNaN (f32.inp md a))⟩ := by
  simp [approxFn, nan]

/-- Where an exact result is prescribed that FTZ does not flush, it is the result. -/
theorem approxFn_of_exact (nan : f32.isNaN (f32.inp md a) = false) {v : Nat} {e : Exc}
    (exact : approxExact fn (f32.inp md a) = some ⟨v, e⟩) (normal : f32.isSub v = false) : approxFn fn md a = ⟨v, e⟩ := by
  simp [approxFn, nan, exact, flush32, normal]

end

theorem f32_isZero_of_isInf {x : Nat} (h : f32.isInf x = true) : f32.isZero x = false := by
  simp only [f32_isInf, f32_isZero, decide_eq_true_eq, decide_eq_false_iff_not] at h ⊢
  omega

theorem f32_isSub_of_isZero {x : Nat} (h : f32.isZero x = true) : f32.isSub x = false := by
  simp only [f32_isSub, f32_isZero, decide_eq_true_eq, decide_eq_false_iff_not] at h ⊢
  omega

/-- A positive infinity has one encoding. -/
theorem f32_eq_inf {x : Nat} (h : f32.isInf x = true) (pos : f32.neg x = false) : x = f32.inf := by
  have small : x < f32.signBit := not_le.1 (of_decide_eq_false pos)
  rw [Fmt.isInf, decide_eq_true_iff, Fmt.mag, Nat.mod_eq_of_lt small] at h
  exact h

/-- The NaN that an invalid special function generates (R103, R316). -/
theorem f32_genNaN_five : f32.genNaN 5 = 0x7FC00005 := rfl

theorem f32_isSub_signed_inf (neg : Bool) : f32.isSub (f32.signed neg f32.inf) = false := by
  cases neg <;> decide

/-- On each special input the exact result is the one that R316 lists, and no subnormal. -/
theorem approxExact_special (fn : ApproxFn) (x : Nat) : ∀ p ∈ specialInputs x, p.1 = some fn → p.2.1 = true →
    approxExact fn x = some ⟨p.2.2.1, p.2.2.2⟩ ∧ f32.isSub p.2.2.1 = false := by
  simp only [specialInputs, List.forall_mem_cons, List.not_mem_nil, false_implies, implies_true, and_true, Option.some.injEq, Bool.and_eq_true,
    Bool.not_eq_true']
  refine ⟨?rsqZero, ?rsqInf, ?rsqNeg, ?exp2NegInf, ?exp2Inf, ?exp2Big, ?log2Zero, ?log2Inf, ?log2Neg, ?sinZero, ?sinInf, ?cosZero, ?cosInf,
    ?tanhZero, ?tanhInf⟩ <;> rintro rfl
  case rsqZero => exact fun zero => ⟨by simp [approxExact, zero], f32_isSub_signed_inf _⟩
  case rsqInf => exact fun ⟨inf, pos⟩ => ⟨by simp [approxExact, f32_isZero_of_isInf inf, pos, inf], by decide⟩
  case rsqNeg => exact fun ⟨neg, nonzero⟩ => ⟨by simp [approxExact, nonzero, neg, f32_genNaN_five], by decide⟩
  case exp2NegInf => exact fun ⟨inf, neg⟩ => ⟨by simp [approxExact, inf, neg], by decide⟩
  case exp2Inf => exact fun ⟨inf, pos⟩ => ⟨by simp [approxExact, inf, pos], by decide⟩
  case exp2Big => exact fun ⟨⟨finite, pos⟩, big⟩ => ⟨by simp [approxExact, finite, pos, of_decide_eq_true big], by decide⟩
  case log2Zero => exact fun zero => ⟨by simp [approxExact, zero], by decide⟩
  case log2Inf => exact fun ⟨inf, pos⟩ => ⟨by obtain rfl := f32_eq_inf inf pos; rfl, by decide⟩
  case log2Neg => exact fun ⟨neg, nonzero⟩ => ⟨by simp [approxExact, nonzero, neg, f32_genNaN_five], by decide⟩
  case sinZero => exact fun zero => ⟨by simp [approxExact, zero], f32_isSub_of_isZero zero⟩
  case sinInf => exact fun inf => ⟨by simp [approxExact, f32_isZero_of_isInf inf, inf, f32_genNaN_five], by decide⟩
  case cosZero => exact fun zero => ⟨by simp [approxExact, zero], by decide⟩
  case cosInf => exact fun inf => ⟨by simp [approxExact, f32_isZero_of_isInf inf, inf, f32_genNaN_five], by decide⟩
  case tanhZero => exact fun zero => ⟨by simp [approxExact, zero], f32_isSub_of_isZero zero⟩
  case tanhInf => exact fun inf => ⟨by simp [approxExact, f32_isZero_of_isInf inf, inf], by cases f32.neg x <;> decide⟩

theorem approxFn_special {fn : ApproxFn} {md : FMode} {a : Nat} (nan : f32.isNaN (f32.inp md a) = false) :
    ∀ p ∈ specialInputs (f32.inp md a), p.1 = some fn → p.2.1 = true → approxFn fn md a = ⟨p.2.2.1, p.2.2.2⟩ := by
  intro p hp names test
  obtain ⟨exact, normal⟩ := approxExact_special fn _ p hp names test
  exact approxFn_of_exact nan exact normal

end Sys2Proof.Machine
end

section
/-!
PROOFS. Rounding to an integral value (R94, R268).
-/

namespace Sys2Proof.Machine

open Sys2Proof Sys2Proof.Rules

/-! ### The integer a mode chooses (R94) -/

theorem roundingModes (rm : BitVec 2) : rm = 0 ∨ rm = 1 ∨ rm = 2 ∨ rm = 3 := by
  revert rm
  decide

/-- An integer rounds to itself in every mode. -/
theorem nearInt_self (rm : BitVec 2) (n : Int) : nearInt rm n n := by
  rcases roundingModes rm with rfl | rfl | rfl | rfl <;> simp [nearInt]

/-- A quotient rounds up by one where something is cut off. -/
theorem ceil_quotient {w : Nat} (pos : 0 < w) (m : Nat) : ⌈(m / w : ℚ)⌉ = (if m % w ≠ 0 then m / w + 1 else m / w : Nat) := by
  have wpos : (0 : ℚ) < w := by exact_mod_cast pos
  have split := Nat.div_add_mod m w
  have lt := Nat.mod_lt m pos
  have value : (m : ℚ) = w * (m / w : Nat) + (m % w : Nat) := by exact_mod_cast split.symm
  rw [Int.ceil_eq_iff, lt_div_iff₀ wpos, div_le_iff₀ wpos, value]
  generalize m / w = q
  by_cases cut : m % w = 0
  · rw [if_neg (not_not.2 cut), cut]
    push_cast
    constructor <;> nlinarith
  · have rest : (1 : ℚ) ≤ (m % w : Nat) := by exact_mod_cast Nat.one_le_iff_ne_zero.2 cut
    have less : ((m % w : Nat) : ℚ) ≤ w := by exact_mod_cast lt.le
    rw [if_pos cut]
    push_cast
    constructor <;> nlinarith

/-- The whole number of a truncated quotient, raised as a mode says, is the integer that the mode chooses. -/
theorem roundsUp_nearInt {w : Nat} (pos : 0 < w) (rm : BitVec 2) (neg : Bool) {m : Nat} (h0 : m ≠ 0) :
    let n : Int := (if roundsUp rm neg (m / w % 2 = 1) (m % w) w then m / w + 1 else m / w : Nat)
    nearInt rm (if neg then -(m / w : ℚ) else m / w) (if neg then -n else n) := by
  have floor : ⌊(m / w : ℚ)⌋ = (m / w : Nat) := Rat.floor_natCast_div_natCast m w
  have ceil := ceil_quotient pos m
  have above : ¬ (m / w : ℚ) ≤ 0 := not_le.2 (div_pos (by exact_mod_cast h0.bot_lt) (by exact_mod_cast pos))
  have nearest := roundsUp_nearest pos neg m
  rcases roundingModes rm with rfl | rfl | rfl | rfl
  · refine .inl ⟨rfl, ?_⟩
    dsimp only at nearest ⊢
    generalize (if roundsUp 0 neg (m / w % 2 = 1) (m % w) w then m / w + 1 else m / w : Nat) = n at nearest ⊢
    obtain ⟨near, tie⟩ := nearest
    cases neg
    · simp only [Bool.false_eq_true, if_false]
      exact ⟨near, fun half => by exact_mod_cast tie half⟩
    · have flip : |-(m / w : ℚ) - ((-(n : Int) : Int) : ℚ)| = |(m / w : ℚ) - n| := by
        rw [← abs_neg]
        congr 1
        push_cast
        ring
      simp only [if_true, flip]
      exact ⟨near, fun half => by have := tie half; omega⟩
  · refine .inr (.inl ⟨rfl, ?_⟩)
    cases neg
    · simp [roundsUp, floor, (not_le.1 above).le]
    · simp [roundsUp, floor, above, Int.ceil_neg]
  · refine .inr (.inr (.inl ⟨rfl, ?_⟩))
    cases neg
    · simp [roundsUp, ceil]
    · simp [roundsUp, floor, Int.ceil_neg]
  · refine .inr (.inr (.inr ⟨rfl, ?_⟩))
    cases neg
    · simp [roundsUp, floor]
    · simp [roundsUp, ceil, Int.floor_neg]

theorem roundTo_nearInt (rm : BitVec 2) (neg : Bool) {m : Nat} (h0 : m ≠ 0) (e : Int) :
    let n : Int := (roundTo rm neg m e 0).1
    nearInt rm (if neg then -((m : ℚ) * 2 ^ e) else m * 2 ^ e) (if neg then -n else n) := by
  unfold roundTo
  by_cases h : 0 ≤ e
  · have whole : (m : ℚ) * 2 ^ e = ((m * 2 ^ (e - 0).toNat : Nat) : Int) := by
      rw [Int.cast_natCast, Nat.cast_mul, two_zpow_toNat (by omega), sub_zero]
    rw [if_pos h, whole]
    cases neg
    · exact nearInt_self rm _
    · simpa using nearInt_self rm (-((m * 2 ^ (e - 0).toNat : Nat) : Int))
  · have inv : (m : ℚ) * 2 ^ e = m / (2 ^ (0 - e).toNat : Nat) := by
      rw [two_zpow_toNat (by omega), div_eq_mul_inv, ← zpow_neg, neg_sub, sub_zero]
    rw [if_neg h, inv]
    exact roundsUp_nearInt (by positivity) rm neg h0

/-! ### Exact rounding (R94) -/

theorem roundsUp_exact (rm : BitVec 2) (neg odd : Bool) {w : Nat} (pos : 0 < w) : roundsUp rm neg odd 0 w = false := by
  rcases roundingModes rm with rfl | rfl | rfl | rfl <;> simp [roundsUp, pos.ne']

/-- A whole number of quanta needs no rounding. -/
theorem roundTo_exact (rm : BitVec 2) (neg : Bool) {m n : Nat} {e q : Int} (whole : (m : ℚ) * 2 ^ e = n * 2 ^ q) :
    (roundTo rm neg m e q).1 = n := by
  have pos : (0 : ℚ) < 2 ^ q := by positivity
  have pos' : (0 : ℚ) < 2 ^ e := by positivity
  unfold roundTo
  by_cases h : q ≤ e
  · rw [if_pos h]
    have := two_zpow_toNat (k := e - q) (by omega)
    rw [zpow_sub₀ two_ne_zero, eq_div_iff pos.ne'] at this
    have eq : ((m * 2 ^ (e - q).toNat : Nat) : ℚ) * 2 ^ q = n * 2 ^ q := by rw [Nat.cast_mul, mul_assoc, this, whole]
    exact_mod_cast mul_right_cancel₀ pos.ne' eq
  · have := two_zpow_toNat (k := q - e) (by omega)
    rw [zpow_sub₀ two_ne_zero, eq_div_iff pos'.ne'] at this
    have eq : (m : ℚ) * 2 ^ e = ((n * 2 ^ (q - e).toNat : Nat) : ℚ) * 2 ^ e := by rw [Nat.cast_mul, mul_assoc, this, whole]
    have split : m = n * 2 ^ (q - e).toNat := by exact_mod_cast mul_right_cancel₀ pos'.ne' eq
    have wpos : 0 < 2 ^ (q - e).toNat := by positivity
    rw [if_neg h, split]
    simp [roundsUp_exact _ _ _ wpos]

/-- A result that neither overflows nor is flushed is its code with its sign, and overflow is not raised. -/
theorem Fmt.round_of_fits {f : Fmt} {md : FMode} (flush : md.ftz f = false) {neg : Bool} {m : Nat} {e : Int} (fits : f.code md neg m e < f.inf) :
    (f.round md neg m e).val = f.signed neg (f.code md neg m e) ∧ (f.round md neg m e).exc.getLsbD 2 = false := by
  have exact (a b : Bool) : ((if a then Exc.inx else 0) ||| (if b then Exc.unf else 0) : Exc).getLsbD 2 = false := by
    cases a <;> cases b <;> decide
  have value : f.round md neg m e = ite _ _ _ := if_neg (not_le.2 fits)
  rw [value, flush, Bool.and_false, if_neg Bool.false_ne_true]
  exact ⟨rfl, exact _ _⟩

/-- A finite value of a whole number of quanta is a value of the format. -/
theorem Fmt.round_exact {f : Fmt} {md : FMode} (flush : md.ftz f = false) (neg : Bool) {m n : Nat} {e : Int} (h0 : m ≠ 0)
    (whole : (m : ℚ) * 2 ^ e = n * 2 ^ f.quantum m e) (finite : (m : ℚ) * 2 ^ e < f.magVal f.inf) :
    f.neg (f.round md neg m e).val = neg ∧ val f (f.round md neg m e).val = if neg then -((m : ℚ) * 2 ^ e) else m * 2 ^ e := by
  have pos : (0 : ℚ) < 2 ^ f.quantum m e := by positivity
  have least : f.minExp ≤ f.quantum m e := le_max_right _ _
  have quanta : (m : ℚ) * 2 ^ (e - f.quantum m e) = n := by
    rw [zpow_sub₀ two_ne_zero, ← mul_div_assoc, whole, mul_div_cancel_right₀ _ pos.ne']
  have sig : f.significand md neg m e = n := roundTo_exact md.rm neg whole
  have hi : n ≤ 2 * 2 ^ f.frac := by
    have := f.quanta_lt m e
    rw [quanta] at this
    exact_mod_cast this.le
  have lo : f.minExp < f.quantum m e → 2 ^ f.frac ≤ n := fun above => by
    have := Fmt.le_quanta e h0 above
    rw [quanta] at this
    exact_mod_cast this
  have mag : f.magVal (f.code md neg m e) = m * 2 ^ e := by
    rw [Fmt.minExp] at lo least
    rw [Fmt.code, sig, f.magVal_code hi, whole]
    · congr 2
      omega
    · by_cases above : 1 - f.bias - f.frac < f.quantum m e
      · exact .inr (lo above)
      · exact .inl (by omega)
  have fits : f.code md neg m e < f.inf := f.magVal_strictMono.lt_iff_lt.1 (by rwa [mag])
  have small := fits.trans f.inf_lt_signBit
  rw [(Fmt.round_of_fits flush fits).1, Fmt.neg_signed small, val_signed small, mag]
  refine ⟨rfl, ?_⟩
  cases neg <;> simp

/-! ### Integral values (R268) -/

theorem Fmt.magVal_nonneg (f : Fmt) (c : Nat) : 0 ≤ f.magVal c := f.magVal_zero ▸ f.magVal_strictMono.monotone (Nat.zero_le c)

theorem Fmt.isNaN_of_isInf {f : Fmt} {x : Nat} (h : f.isInf x = true) : f.isNaN x = false := by
  rw [Fmt.isNaN, of_decide_eq_true h]
  exact decide_eq_false (lt_irrefl _)

theorem Fmt.isNaN_of_isZero {f : Fmt} {x : Nat} (h : f.isZero x = true) : f.isNaN x = false := by
  rw [Fmt.isNaN, of_decide_eq_true h]
  exact decide_eq_false (Nat.not_lt_zero _)

/-- The exponents of a format leave room for every significand as an integer. -/
def Fmt.holdsIntegers (f : Fmt) : Prop := 1 ≤ f.frac ∧ f.bias + f.frac + 1 < 2 ^ f.exp

section
variable (f : Fmt) (x : Nat)

theorem value_natAbs : (f.value x).m.natAbs = if f.mag x / 2 ^ f.frac = 0 then x % 2 ^ f.frac else 2 ^ f.frac + x % 2 ^ f.frac := by
  simp only [Fmt.value]
  cases f.neg x <;> simp only [Bool.false_eq_true, if_false, if_true, Int.natAbs_neg, Int.natAbs_natCast]

/-- The significand and the exponent of a value. -/
theorem val_eq_significand :
    val f x = if f.neg x then -(((f.value x).m.natAbs : ℚ) * 2 ^ (f.value x).e) else (f.value x).m.natAbs * 2 ^ (f.value x).e := by
  have sign : (f.value x).m = if f.neg x then -((f.value x).m.natAbs : Int) else (f.value x).m.natAbs := by
    rw [value_natAbs]
    rfl
  rw [val, congrArg (Int.cast : Int → ℚ) sign]
  cases f.neg x <;> simp

theorem value_natAbs_lt : (f.value x).m.natAbs < 2 * 2 ^ f.frac := by
  have := Nat.mod_lt x (Nat.two_pow_pos f.frac)
  rw [value_natAbs]
  split <;> omega

theorem minExp_le_value : f.minExp ≤ (f.value x).e := by
  simp only [Fmt.value, Fmt.minExp]
  generalize f.mag x / 2 ^ f.frac = d
  split <;> omega

variable {f x}

theorem value_natAbs_ne_zero (h : f.isZero x = false) : (f.value x).m.natAbs ≠ 0 := by
  have pos := Nat.two_pow_pos f.frac
  have nonzero : f.mag x ≠ 0 := of_decide_eq_false h
  have split := Nat.div_add_mod (f.mag x) (2 ^ f.frac)
  rw [f.mag_mod] at split
  rw [value_natAbs]
  by_cases sub : f.mag x / 2 ^ f.frac = 0
  · rw [if_pos sub]
    rw [sub, mul_zero, zero_add] at split
    omega
  · rw [if_neg sub]
    omega

theorem magnitude_lt_inf (nan : f.isNaN x = false) (inf : f.isInf x = false) :
    ((f.value x).m.natAbs : ℚ) * 2 ^ (f.value x).e < f.magVal f.inf := by
  have less : f.mag x < f.inf := lt_of_le_of_ne (not_lt.1 (of_decide_eq_false nan)) (of_decide_eq_false inf)
  have abs : |val f x| = f.magVal (f.mag x) := by
    rw [val_eq_magVal]
    cases f.neg x <;> simp [abs_of_nonneg (f.magVal_nonneg _)]
  rw [← Dyadic.abs_rat, ← val_eq_rat, abs]
  exact f.magVal_strictMono less

/-- Every significand is less than the overflow threshold. -/
theorem Fmt.frac_lt_inf (ints : f.holdsIntegers) : (2 ^ f.frac : ℚ) < f.magVal f.inf := by
  obtain ⟨frac, room⟩ := ints
  have code : f.inf = 2 ^ f.frac + (2 ^ f.exp - 2) * 2 ^ f.frac := by
    obtain ⟨k, hk⟩ : ∃ k, 2 ^ f.exp = k + 2 := ⟨2 ^ f.exp - 2, by omega⟩
    rw [Fmt.inf, hk, Nat.add_sub_cancel, Nat.add_comm (2 ^ f.frac), ← Nat.succ_mul]
    rfl
  have large : (1 : ℚ) < 2 ^ ((2 ^ f.exp - 2 : Nat) + 1 - f.bias - f.frac : Int) := one_lt_zpow₀ one_lt_two (by omega)
  rw [code, f.magVal_code (by omega) (.inr le_rfl)]
  push_cast at large ⊢
  exact lt_mul_of_one_lt_right (by positivity) large

/-- A whole number at an exponent is one at every lower exponent. -/
theorem whole_at_lower (m : Nat) {q e : Int} (h : q ≤ e) : ∃ k : Nat, (m : ℚ) * 2 ^ e = k * 2 ^ q :=
  ⟨m * 2 ^ (e - q).toNat, by
    rw [Nat.cast_mul, two_zpow_toNat (sub_nonneg.2 h), mul_assoc, ← zpow_add₀ two_ne_zero, sub_add_cancel]⟩

theorem quantum_le {m k : Nat} (h0 : m ≠ 0) (h : m < 2 ^ (k + 1)) {e q : Int} (normal : e + k - f.frac ≤ q) (least : f.minExp ≤ q) :
    f.quantum m e ≤ q := by
  have := (Nat.log2_lt h0).2 h
  exact max_le (by omega) least

/-- An integral result is a whole number of quanta, and finite. -/
theorem integral_quanta (ints : f.holdsIntegers) (nan : f.isNaN x = false) (inf : f.isInf x = false) (rm : BitVec 2) (neg : Bool) {n : Nat}
    (result : (roundTo rm neg (f.value x).m.natAbs (f.value x).e 0).1 = n) (h0 : n ≠ 0) :
    (∃ k : Nat, (n : ℚ) * 2 ^ (0 : Int) = k * 2 ^ f.quantum n 0) ∧ (n : ℚ) * 2 ^ (0 : Int) < f.magVal f.inf := by
  have finite := magnitude_lt_inf nan inf
  have small := value_natAbs_lt f x
  have least := minExp_le_value f x
  generalize (f.value x).m.natAbs = m at result finite small
  generalize (f.value x).e = e at result finite least
  by_cases whole : 0 ≤ e
  · have value : (n : ℚ) * 2 ^ (0 : Int) = m * 2 ^ e := by
      rw [← result, roundTo, if_pos whole, Nat.cast_mul, two_zpow_toNat (by omega), sub_zero, zpow_zero, mul_one]
    have bits : n < 2 ^ (f.frac + e.toNat + 1) := by
      rw [← result, roundTo, if_pos whole, sub_zero, Nat.add_right_comm, pow_add, pow_succ']
      exact Nat.mul_lt_mul_of_pos_right small (by positivity)
    rw [value]
    exact ⟨whole_at_lower m (quantum_le h0 bits (by omega) least), finite⟩
  · have le : n ≤ 2 ^ f.frac := by
      have half : m / 2 ^ (0 - e).toNat < 2 ^ f.frac :=
        Nat.div_lt_of_lt_mul (small.trans_le (Nat.mul_le_mul_right _ (Nat.le_self_pow (by omega) 2)))
      rw [roundTo, if_neg whole] at result
      dsimp only at result
      split at result <;> omega
    refine ⟨whole_at_lower n (quantum_le h0 (le.trans_lt (Nat.pow_lt_pow_right one_lt_two (Nat.lt_succ_self _))) (by omega) (by omega)), ?_⟩
    have : (n : ℚ) ≤ 2 ^ f.frac := by exact_mod_cast le
    rw [zpow_zero, mul_one]
    exact this.trans_lt (Fmt.frac_lt_inf ints)

end

theorem integral_follows_rule {f : Fmt} (ints : f.holdsIntegers) (md : FMode) (a : Nat) :
    integralRule f md.rm (f.inp md a) (f.integral md a) := by
  unfold Fmt.integral
  generalize f.inp md a = x
  refine ⟨fun nan => by simp [nan], fun whole => ?_, fun nan inf zero => ?_⟩
  · rcases whole with h | h
    · simp [Fmt.isNaN_of_isInf h, h]
    · simp [Fmt.isNaN_of_isZero h, h]
  · have nonzero := value_natAbs_ne_zero zero
    have chosen := roundTo_nearInt md.rm (f.neg x) nonzero (f.value x).e
    have exact {n : Nat} := integral_quanta ints nan inf md.rm (f.neg x) (n := n)
    simp only [nan, inf, zero, Bool.or_self, Bool.false_eq_true, if_false]
    dsimp only at chosen
    generalize (roundTo md.rm (f.neg x) (f.value x).m.natAbs (f.value x).e 0).1 = n at chosen exact ⊢
    rw [← val_eq_significand] at chosen
    have small : 0 < f.signBit := by rw [Fmt.signBit]; positivity
    by_cases none : n = 0
    · rw [if_pos none]
      refine ⟨trivial, Fmt.neg_signed small _, _, chosen, ?_⟩
      rw [val_signed small, f.magVal_zero, none]
      simp
    · obtain ⟨⟨k, whole⟩, finite⟩ := exact rfl none
      rw [if_neg none]
      obtain ⟨sign, value⟩ := Fmt.round_exact (md := { md with ftz32 := false, ftz16 := false }) (by simp [FMode.ftz]) (f.neg x) none whole finite
      refine ⟨trivial, sign, _, chosen, value.trans ?_⟩
      cases f.neg x <;> simp

end Sys2Proof.Machine
end

section
/-!
PROOFS. Sticky bits: a number cut off and marked rounds to nearest as the number itself does (R94).
-/

namespace Sys2Proof.Machine

open Sys2Proof Sys2Proof.Rules

/-! ### Sticky bits -/

/-- Where a number lies that was cut off to twice `k`, the cut marked by the bit `st`. -/
def sticky (k st : Nat) (t : ℚ) : Prop := st ≤ 1 ∧ 2 * k ≤ t ∧ t ≤ 2 * (k + st)

/-- An even bound below the marked number is one below the number itself, and one above likewise. -/
theorem sticky.ge {k st : Nat} {t : ℚ} (h : sticky k st t) {j : Int} (le : 2 * j ≤ 2 * k + st) : (2 * j : ℚ) ≤ t := by
  obtain ⟨bit, lo, -⟩ := h
  have : (j : ℚ) ≤ k := by exact_mod_cast (show j ≤ k by omega)
  linarith

theorem sticky.le {k st : Nat} {t : ℚ} (h : sticky k st t) {j : Int} (le : 2 * k + st ≤ 2 * j) : t ≤ (2 * j : ℚ) := by
  obtain ⟨bit, -, hi⟩ := h
  have : (k + st : ℚ) ≤ j := by exact_mod_cast (show k + st ≤ j by omega)
  linarith

/-- No value of a grid is nearer than the whole number of quanta within a half. -/
theorem nearest_of_half {x u w : ℚ} {n P : Nat} (pos : 0 < u) (near : |x - n| ≤ 1 / 2)
    (grid : (∃ j : Int, w = j * u) ∨ (|w| < P * u ∧ P ≤ x)) : |x * u - n * u| ≤ |x * u - w| := by
  have scaled (k : ℚ) : |x * u - k * u| = |x - k| * u := by rw [← sub_mul, abs_mul, abs_of_pos pos]
  have closest (j : Int) : |x - n| ≤ |x - j| := by exact_mod_cast (abs_sub_le_of_half (n := n) (by exact_mod_cast near) j).1
  rw [scaled]
  rcases grid with ⟨j, rfl⟩ | ⟨small, normal⟩
  · rw [scaled]
    exact mul_le_mul_of_nonneg_right (closest j) pos.le
  · calc |x - n| * u ≤ |x - P| * u := mul_le_mul_of_nonneg_right (by exact_mod_cast closest P) pos.le
      _ = x * u - P * u := by rw [abs_of_nonneg (sub_nonneg.2 normal), sub_mul]
      _ ≤ x * u - w := by linarith [le_abs_self w]
      _ ≤ |x * u - w| := le_abs_self _

/-- Four units or more to a quantum are an even number of them on each side of a half. -/
theorem exists_quarter {e q : Int} (h : e + 2 ≤ q) : ∃ j : Nat, 0 < j ∧ (2 : ℚ) ^ (e - q) = 1 / (4 * j) := by
  refine ⟨2 ^ (q - e - 2).toNat, by positivity, ?_⟩
  have four : (4 : ℚ) = 2 ^ (2 : Int) := by norm_num
  rw [two_zpow_toNat (by omega), four, ← zpow_add₀ two_ne_zero, one_div, ← zpow_neg]
  congr 1
  ring

theorem within_half_iff {j : Nat} (pos : 0 < j) (r : ℚ) (n : Nat) :
    |r * (1 / (4 * j)) - n| ≤ 1 / 2 ↔ 2 * ((j : ℚ) * (2 * n - 1)) ≤ r ∧ r ≤ 2 * ((j : ℚ) * (2 * n + 1)) := by
  have jpos : (0 : ℚ) < 4 * j := by positivity
  rw [abs_le, mul_one_div, neg_le_sub_iff_le_add, sub_le_iff_le_add, ← sub_le_iff_le_add, le_div_iff₀ jpos, div_le_iff₀ jpos]
  constructor <;> rintro ⟨lo, hi⟩ <;> constructor <;> linarith

section
variable {f : Fmt} {k st : Nat} {t : ℚ} (h : sticky k st t) {e : Int} (fine : e + 2 ≤ f.quantum (2 * k + st) e)
include h fine

/-- Four units or more to a quantum: the significand chosen for the marked number is within a half of the number itself. -/
theorem sticky_near (neg : Bool) :
    |t * 2 ^ (e - f.quantum (2 * k + st) e) - (roundTo 0 neg (2 * k + st) e (f.quantum (2 * k + st) e)).1| ≤ 1 / 2 := by
  have near := (roundTo_nearest neg (2 * k + st) e (f.quantum (2 * k + st) e)).1
  generalize (roundTo 0 neg (2 * k + st) e (f.quantum (2 * k + st) e)).1 = n at near ⊢
  obtain ⟨j, pos, unit⟩ := exists_quarter fine
  rw [unit, within_half_iff pos] at near ⊢
  obtain ⟨lo, hi⟩ := near
  constructor
  · exact_mod_cast h.ge (j := j * (2 * n - 1)) (by exact_mod_cast lo)
  · exact_mod_cast h.le (j := j * (2 * n + 1)) (by exact_mod_cast hi)

/-- Above the least quantum the number itself is a normal significand or more. -/
theorem sticky_normal (h0 : 2 * k + st ≠ 0) (above : f.minExp < f.quantum (2 * k + st) e) :
    ((2 ^ f.frac : Nat) : ℚ) ≤ t * 2 ^ (e - f.quantum (2 * k + st) e) := by
  have normal := Fmt.le_quanta e h0 above
  obtain ⟨j, pos, unit⟩ := exists_quarter fine
  have jpos : (0 : ℚ) < 4 * j := by positivity
  rw [unit, mul_one_div, le_div_iff₀ jpos] at normal ⊢
  have le : (2 * ((2 ^ f.frac * (2 * j) : Int) : ℚ)) ≤ t := by
    refine h.ge ?_
    have : (2 ^ f.frac * (4 * j) : ℚ) ≤ ((2 * k + st : Nat) : ℚ) := normal
    have : 2 ^ f.frac * (4 * j) ≤ 2 * k + st := by exact_mod_cast this
    linarith
  push_cast at le ⊢
  linarith

/-- Rounding the marked number to nearest gives a nearest value to the number itself (R94). -/
theorem round_sticky_nearest {md : FMode} (rne : md.rm = 0) (flush : md.ftz f = false) {neg : Bool} (h0 : 2 * k + st ≠ 0)
    (fits : f.code md neg (2 * k + st) e < f.inf) (y : Nat) :
    let v : ℚ := if neg then -(t * 2 ^ e) else t * 2 ^ e
    |v - val f (f.round md neg (2 * k + st) e).val| ≤ |v - val f y| := by
  have pos : (0 : ℚ) < 2 ^ f.quantum (2 * k + st) e := by positivity
  have quanta : t * 2 ^ e = t * 2 ^ (e - f.quantum (2 * k + st) e) * 2 ^ f.quantum (2 * k + st) e := by
    rw [mul_assoc, ← zpow_add₀ two_ne_zero, sub_add_cancel]
  have near := sticky_near h fine neg
  have nearest {w : ℚ} (grid : (∃ j : Int, w = j * 2 ^ f.quantum (2 * k + st) e) ∨
      (f.minExp < f.quantum (2 * k + st) e ∧ |w| < 2 ^ f.frac * 2 ^ f.quantum (2 * k + st) e)) :=
    nearest_of_half (P := 2 ^ f.frac) pos near
      (grid.imp_right fun ⟨normal, small⟩ => ⟨by push_cast; exact small, sticky_normal h fine h0 normal⟩)
  rw [(Fmt.round_of_fits flush fits).1, val_signed (fits.trans f.inf_lt_signBit), Fmt.magVal_round rne neg h0, Fmt.significand, rne, quanta]
  cases neg
  · simp only [Bool.false_eq_true, if_false, one_mul]
    exact nearest (val_grid f y _)
  · have mirrored := nearest (w := -val f y) ((val_grid f y (f.quantum (2 * k + st) e)).imp
      (Exists.imp' Neg.neg fun j eq => by rw [eq]; push_cast; ring) fun h => by rwa [abs_neg])
    have flip (a b : ℚ) : |-a - b| = |a - -b| := by rw [← abs_neg]; congr 1; ring
    simp only [if_true, neg_one_mul, flip, neg_neg]
    exact mirrored

end

end Sys2Proof.Machine
end

section
/-!
PROOFS. RCP and SQRT to nearest: the quotient and the root that they cut off and mark (R314).
-/

namespace Sys2Proof.Machine

open Sys2Proof Sys2Proof.Rules

/-! ### RCP (R314) -/

/-- A quotient that is cut off, with a sticky bit. -/
theorem sticky_quotient (a : Nat) {m : Nat} (pos : 0 < m) : sticky (a / m) (if a % m = 0 then 0 else 1) (2 * (a / m)) := by
  have mpos : (0 : ℚ) < m := by exact_mod_cast pos
  have lo : ((a / m : Nat) : ℚ) ≤ a / m := Nat.cast_div_le
  by_cases whole : a % m = 0
  · have exact : ((a / m : Nat) : ℚ) = a / m := Nat.cast_div (Nat.dvd_of_mod_eq_zero whole) mpos.ne'
    rw [if_pos whole, sticky, exact]
    exact ⟨by decide, le_rfl, by simp⟩
  · have hi : (a / m : ℚ) < (a / m : Nat) + 1 := by
      rw [div_lt_iff₀ mpos, mul_comm]
      exact_mod_cast Nat.lt_mul_div_succ a pos
    rw [if_neg whole]
    exact ⟨le_rfl, by linarith, by push_cast; linarith⟩

theorem le_quantum {f : Fmt} {m k : Nat} (h0 : m ≠ 0) (h : 2 ^ k ≤ m) (e : Int) : e + k - f.frac ≤ f.quantum m e := by
  have := (Nat.le_log2 h0).2 h
  exact (by omega : e + k - f.frac ≤ e + Nat.log2 m - f.frac).trans (le_max_left _ _)

/-- A quotient with 29 bits or more, of a significand m. -/
theorem reciprocal_bits {m : Nat} (h0 : m ≠ 0) : 2 ^ 29 ≤ 2 ^ (Nat.log2 m + 30) / m := by
  have split : 2 ^ (Nat.log2 m + 30) = 2 ^ 29 * 2 ^ (Nat.log2 m + 1) := by
    rw [← pow_add]
    congr 1
    omega
  rw [Nat.le_div_iff_mul_le h0.bot_lt, split]
  exact Nat.mul_le_mul_left _ Nat.lt_log2_self.le

/-- The number whose rounding RCP is. -/
theorem reciprocal_eq (m : Nat) (e : Int) (s : Nat) : (2 * ((2 ^ s : Nat) / m) : ℚ) * 2 ^ (-(s : Int) - e - 1) = 1 / (m * 2 ^ e) := by
  rw [zpow_sub_one₀ two_ne_zero, zpow_sub₀ two_ne_zero, zpow_neg, zpow_natCast]
  have : (2 : ℚ) ^ s ≠ 0 := by positivity
  push_cast
  field_simp

/-- RCP rounds a quotient with a sticky bit. -/
theorem rcpFinite_eq (md : FMode) (a : Nat) : ∃ s, s = Nat.log2 (f32.value a).m.natAbs + 30 ∧ rcpFinite md a =
    f32.round md (f32.neg a) (2 * (2 ^ s / (f32.value a).m.natAbs) + if 2 ^ s % (f32.value a).m.natAbs = 0 then 0 else 1)
      (-(s : Int) - (f32.value a).e - 1) :=
  ⟨_, rfl, rfl⟩

theorem abs_one_sub_mul {q : ℚ} (nonzero : q ≠ 0) (r : ℚ) : |1 - q * r| = |q| * |1 / q - r| := by
  rw [← abs_mul, mul_sub, mul_one_div_cancel nonzero]

/-- RCP in mode 0: no value times the operand is nearer to 1 (R314). -/
theorem rcpFinite_nearest {md : FMode} (rne : md.rm = 0) (ftz : md.ftz32 = false) {x : Nat} (zero : f32.isZero x = false)
    (fits : (rcpFinite md x).exc.getLsbD 2 = false) (y : Nat) :
    |1 - val f32 x * val f32 (rcpFinite md x).val| ≤ |1 - val f32 x * val f32 y| := by
  have h0 := value_natAbs_ne_zero zero
  have value := val_eq_significand f32 x
  obtain ⟨s, hs, result⟩ := rcpFinite_eq md x
  rw [result] at fits ⊢
  generalize (f32.value x).m.natAbs = m at hs fits h0 value ⊢
  generalize (f32.value x).e = e at fits value ⊢
  have bits : 2 ^ 29 ≤ 2 ^ s / m := hs ▸ reciprocal_bits h0
  have marked := sticky_quotient (2 ^ s) h0.bot_lt
  generalize (if 2 ^ s % m = 0 then 0 else 1) = st at fits marked ⊢
  have large : 2 ^ 25 ≤ 2 * (2 ^ s / m) + st := by omega
  have m0 : 2 * (2 ^ s / m) + st ≠ 0 := by omega
  have fine := le_quantum (f := f32) m0 large (-(s : Int) - e - 1)
  have frac : (f32.frac : Int) = 23 := rfl
  have nearest := round_sticky_nearest marked (by omega) rne (show md.ftz f32 = false from ftz) m0
    (Fmt.round_val (show md.ftz f32 = false from ftz) fits).2 y
  have pos : (0 : ℚ) < m * 2 ^ e := mul_pos (by exact_mod_cast h0.bot_lt) (by positivity)
  have inverse : (if f32.neg x then -(1 / (m * 2 ^ e)) else 1 / (m * 2 ^ e) : ℚ) = 1 / val f32 x := by
    rw [value]
    cases f32.neg x <;> simp
  have nonzero : val f32 x ≠ 0 := by
    rw [value]
    cases f32.neg x <;> simp [pos.ne']
  dsimp only at nearest
  rw [reciprocal_eq, inverse] at nearest
  rw [abs_one_sub_mul nonzero, abs_one_sub_mul nonzero]
  exact mul_le_mul_of_nonneg_left nearest (abs_nonneg _)

/-! ### SQRT (R314) -/

/-- The bits of a root, tried from the highest: what has been found stays a lower bound, and with the bits left an upper one. -/
theorem isqrtFrom_spec (n : Nat) : ∀ b r : Nat, r * r ≤ n → n < (r + 2 ^ b) * (r + 2 ^ b) →
    isqrtFrom n b r * isqrtFrom n b r ≤ n ∧ n < (isqrtFrom n b r + 1) * (isqrtFrom n b r + 1)
  | 0, r, lo, hi => ⟨lo, hi⟩
  | b + 1, r, lo, hi => by
    rw [isqrtFrom]
    split
    · next le => exact isqrtFrom_spec n b _ le (by rwa [Nat.add_assoc, ← two_mul, ← pow_succ'])
    · next gt => exact isqrtFrom_spec n b r lo (not_le.1 gt)

/-- SQRT rounds a root with a sticky bit, of the significand moved to an even exponent. -/
theorem sqrtFinite_eq (md : FMode) (a : Nat) : ∃ odd n r : Nat, odd ≤ 1 ∧ ((f32.value a).e - odd) % 2 = 0 ∧
    n = (f32.value a).m.natAbs * 2 ^ (60 + odd) ∧ r = isqrtFrom n 44 0 ∧
    sqrtFinite md a = f32.round md false (2 * r + if r * r = n then 0 else 1) (((f32.value a).e - 60 - odd) / 2 - 1) := by
  refine ⟨if (f32.value a).e % 2 = 0 then 0 else 1, _, _, ?_, ?_, rfl, rfl, rfl⟩
  · split <;> omega
  · split <;> push_cast <;> omega

/-- A root that is cut off, with a sticky bit: the square lies between those of its bounds. -/
theorem root_between {n r : Nat} (lo : r * r ≤ n) (hi : n < (r + 1) * (r + 1)) :
    let st := if r * r = n then 0 else 1
    ((r : ℚ) * r ≤ n ∧ (n : ℚ) ≤ (r + st : Nat) * (r + st : Nat)) := by
  refine ⟨by exact_mod_cast lo, ?_⟩
  split
  · next exact => rw [← exact]; push_cast; simp
  · exact_mod_cast hi.le

/-- Without flushing, a rounded value with a quantum of 2^42 or less is finite. -/
theorem f32_code_lt_inf {md : FMode} (rne : md.rm = 0) (neg : Bool) {m : Nat} (h0 : m ≠ 0) {e : Int} (small : f32.quantum m e ≤ 42) :
    f32.code md neg m e < f32.inf := by
  have sig := (Fmt.significand_bounds (f := f32) rne neg h0 e).1
  rw [Fmt.code]
  generalize f32.significand md neg m e = n at sig ⊢
  generalize f32.quantum m e = q at small ⊢
  change n ≤ 2 * 2 ^ 23 at sig
  change n + ((q + 23 + 127).toNat - 1) * 2 ^ 23 < 0x7F800000
  omega

theorem f32_value_exp_le {x : Nat} (nan : f32.isNaN x = false) (inf : f32.isInf x = false) : (f32.value x).e ≤ 104 := by
  rw [f32_isNaN, decide_eq_false_iff_not] at nan
  rw [f32_isInf, decide_eq_false_iff_not] at inf
  have field : f32.mag x / 2 ^ 23 = x / 2 ^ 23 % 256 := by
    change x % 2 ^ 31 / 2 ^ 23 = _
    omega
  change (if f32.mag x / 2 ^ 23 = 0 then 1 else ((f32.mag x / 2 ^ 23 : Nat) : Int)) - 127 - 23 ≤ 104
  rw [field]
  split <;> omega

theorem val_nonneg {f : Fmt} {y : Nat} (pos : f.neg y = false) : 0 ≤ val f y := by
  rw [val_eq_magVal, pos]
  simpa using f.magVal_nonneg (f.mag y)

/-- Of two values, the nearer one to a number lies on its side of their middle. -/
theorem two_mul_le_of_nearer {x v w : ℚ} (h : |x - v| ≤ |x - w|) (less : v < w) : 2 * x ≤ v + w := by
  have := sq_le_sq.2 h
  nlinarith

theorem le_two_mul_of_nearer {x v w : ℚ} (h : |x - v| ≤ |x - w|) (less : w < v) : v + w ≤ 2 * x := by
  have := sq_le_sq.2 h
  nlinarith

/-- The number of bits of a root of 60 to 86 bits. -/
theorem root_bits {n r : Nat} (lo : r * r ≤ n) (hi : n < (r + 1) * (r + 1)) (least : 2 ^ 60 ≤ n) (most : n < 2 ^ 86) :
    2 ^ 30 ≤ r ∧ r < 2 ^ 43 := by
  constructor
  · by_contra less
    have := Nat.mul_le_mul (show r + 1 ≤ 2 ^ 30 by omega) (show r + 1 ≤ 2 ^ 30 by omega)
    omega
  · by_contra more
    have := Nat.mul_le_mul (not_lt.1 more) (not_lt.1 more)
    omega

/-- A number moved to an even exponent. -/
theorem shifted_mul_half_exponents (m odd : Nat) {e h : Int} (half : 2 * h = e - 60 - odd) :
    ((m * 2 ^ (60 + odd) : Nat) : ℚ) * (2 ^ h * 2 ^ h) = m * 2 ^ e := by
  have shift : ((2 ^ (60 + odd) : Nat) : ℚ) = 2 ^ (60 + odd : Int) := by
    push_cast
    exact_mod_cast rfl
  rw [Nat.cast_mul, shift, mul_assoc, ← zpow_add₀ two_ne_zero, ← zpow_add₀ two_ne_zero]
  congr 2
  omega

/-- A rounded root of 30 to 43 bits, with its sticky bit, is a nearest value to each number from the root to the next. -/
theorem root_nearest {md : FMode} (rne : md.rm = 0) (ftz : md.ftz32 = false) {r st : Nat} (least : 2 ^ 30 ≤ r) (most : r < 2 ^ 43)
    {t : ℚ} (marked : sticky r st t) {h : Int} (small : h ≤ 22) (y : Nat) :
    0 ≤ val f32 (f32.round md false (2 * r + st) (h - 1)).val ∧
      |t * 2 ^ (h - 1) - val f32 (f32.round md false (2 * r + st) (h - 1)).val| ≤ |t * 2 ^ (h - 1) - val f32 y| := by
  have bit := marked.1
  have m0 : 2 * r + st ≠ 0 := by omega
  have fine := le_quantum (f := f32) (k := 25) m0 (by omega) (h - 1)
  have frac : (f32.frac : Int) = 23 := rfl
  have range : f32.quantum (2 * r + st) (h - 1) ≤ 42 := quantum_le (k := 44) m0 (by omega) (by omega) (by decide)
  have fits := f32_code_lt_inf (md := md) rne false m0 range
  have flush : md.ftz f32 = false := ftz
  refine ⟨val_nonneg ?_, by simpa using round_sticky_nearest marked (by omega) rne flush m0 fits y⟩
  rw [(Fmt.round_of_fits flush fits).1]
  exact Fmt.neg_signed (fits.trans f32.inf_lt_signBit) false

/-- A value nearer than another to two numbers is on the same side of the middle as each number whose square lies between theirs. -/
theorem square_middle {a b q v w : ℚ} (a0 : 0 ≤ a) (ab : a ≤ b) (w0 : 0 ≤ w) (lo : a * a ≤ q) (hi : q ≤ b * b)
    (nearA : |a - v| ≤ |a - w|) (nearB : |b - v| ≤ |b - w|) : (v < w → 4 * q ≤ (v + w) ^ 2) ∧ (w < v → (v + w) ^ 2 ≤ 4 * q) := by
  refine ⟨fun less => ?_, fun less => ?_⟩
  · calc 4 * q ≤ (2 * b) ^ 2 := by linarith
      _ ≤ (v + w) ^ 2 := pow_le_pow_left₀ (by linarith) (two_mul_le_of_nearer nearB less) 2
  · calc (v + w) ^ 2 ≤ (2 * a) ^ 2 := pow_le_pow_left₀ (by linarith) (le_two_mul_of_nearer nearA less) 2
      _ ≤ 4 * q := by linarith

/-- What SQRT rounds: a root of 30 to 43 bits with its sticky bit, at a small exponent; the operand lies between the squares of its bounds. -/
theorem sqrtFinite_root (md : FMode) {x : Nat} (pos : f32.neg x = false) (nan : f32.isNaN x = false) (inf : f32.isInf x = false)
    (zero : f32.isZero x = false) : ∃ (r st : Nat) (h : Int), 2 ^ 30 ≤ r ∧ r < 2 ^ 43 ∧ st ≤ 1 ∧ h ≤ 22 ∧
      sqrtFinite md x = f32.round md false (2 * r + st) (h - 1) ∧ (r * 2 ^ h : ℚ) * (r * 2 ^ h) ≤ val f32 x ∧
      val f32 x ≤ ((r + st) * 2 ^ h : ℚ) * ((r + st) * 2 ^ h) := by
  have h0 := value_natAbs_ne_zero zero
  have below : (f32.value x).m.natAbs < 2 ^ 24 := value_natAbs_lt f32 x
  have value := val_eq_significand f32 x
  have top := f32_value_exp_le nan inf
  obtain ⟨odd, n, r, bit, even, shifted, root, result⟩ := sqrtFinite_eq md x
  rw [pos, if_neg Bool.false_ne_true] at value
  rw [result, value]
  generalize (f32.value x).m.natAbs = m at h0 below shifted ⊢
  generalize (f32.value x).e = e at top even ⊢
  obtain ⟨h, half⟩ : ∃ h, (e - 60 - odd) / 2 = h := ⟨_, rfl⟩
  have least : 2 ^ 60 ≤ n := by
    rw [shifted, pow_add, ← mul_assoc, mul_comm m, mul_assoc]
    exact Nat.le_mul_of_pos_right _ (Nat.mul_pos h0.bot_lt (Nat.two_pow_pos odd))
  have most : n < 2 ^ 86 :=
    calc n = m * 2 ^ (60 + odd) := shifted
      _ ≤ m * 2 ^ 61 := Nat.mul_le_mul_left m (Nat.pow_le_pow_right two_pos (by omega))
      _ < 2 ^ 86 := by omega
  obtain ⟨lo, hi⟩ : r * r ≤ n ∧ n < (r + 1) * (r + 1) := root ▸ isqrtFrom_spec n 44 0 (Nat.zero_le n) (by omega)
  obtain ⟨between, between'⟩ := root_between lo hi
  obtain ⟨many, few⟩ := root_bits lo hi least most
  have twice : 2 * h = e - 60 - odd := by omega
  have squared : (m : ℚ) * 2 ^ e = n * (2 ^ h * 2 ^ h) := by rw [shifted, shifted_mul_half_exponents m odd twice]
  refine ⟨r, if r * r = n then 0 else 1, h, many, few, by split <;> decide, by omega, by rw [half], ?_, ?_⟩
  · calc (r * 2 ^ h : ℚ) * (r * 2 ^ h) = r * r * (2 ^ h * 2 ^ h) := by ring
      _ ≤ n * (2 ^ h * 2 ^ h) := by gcongr
      _ = m * 2 ^ e := squared.symm
  · generalize (if r * r = n then 0 else 1) = st at between' ⊢
    calc (m : ℚ) * 2 ^ e = n * (2 ^ h * 2 ^ h) := squared
      _ ≤ ((r + st : Nat) : ℚ) * (r + st : Nat) * (2 ^ h * 2 ^ h) := by gcongr
      _ = ((r + st) * 2 ^ h : ℚ) * ((r + st) * 2 ^ h) := by push_cast; ring

/-- SQRT in mode 0: no value is nearer to the root, told by the squares of the middles (R314). -/
theorem sqrtFinite_nearest {md : FMode} (rne : md.rm = 0) (ftz : md.ftz32 = false) {x : Nat} (pos : f32.neg x = false)
    (nan : f32.isNaN x = false) (inf : f32.isInf x = false) (zero : f32.isZero x = false) :
    let v := val f32 (sqrtFinite md x).val
    0 ≤ v ∧ ∀ y, f32.neg y = false →
      (v < val f32 y → 4 * val f32 x ≤ (v + val f32 y) ^ 2) ∧ (val f32 y < v → (v + val f32 y) ^ 2 ≤ 4 * val f32 x) := by
  obtain ⟨r, st, h, many, few, bit, small, result, lo, hi⟩ := sqrtFinite_root md pos nan inf zero
  rw [result]
  have nonneg : (0 : ℚ) ≤ st := Nat.cast_nonneg st
  have lower : sticky r st (2 * r) := ⟨bit, le_rfl, by linarith⟩
  have upper : sticky r st (2 * (r + st)) := ⟨bit, by linarith, le_rfl⟩
  have twice (a : ℚ) : 2 * a * 2 ^ (h - 1) = a * 2 ^ h := by rw [zpow_sub_one₀ two_ne_zero]; ring
  have fromBelow := root_nearest rne ftz many few lower small
  have fromAbove := root_nearest rne ftz many few upper small
  simp only [twice] at fromBelow fromAbove
  exact ⟨(fromBelow 0).1, fun y sign =>
    square_middle (by positivity) (by gcongr; linarith) (val_nonneg sign) lo hi (fromBelow y).2 (fromAbove y).2⟩

end Sys2Proof.Machine
end

section
/-!
PROOFS. The floating words: what RCP and SQRT give on every input, and the words' statement (R258-R268, R314, R316).
-/

namespace Sys2Proof.Machine

open Sys2Proof Sys2Proof.Rules

/-! ### RCP and SQRT by the class of the input (R314, R316) -/

theorem rcpFn_of_finite {md : FMode} {a : Nat} (nan : f32.isNaN (f32.inp md a) = false) (inf : f32.isInf (f32.inp md a) = false)
    (zero : f32.isZero (f32.inp md a) = false) : rcpFn md a = rcpFinite md (f32.inp md a) := by
  simp [rcpFn, nan, inf, zero]

theorem sqrtFn_of_finite {md : FMode} {a : Nat} (nan : f32.isNaN (f32.inp md a) = false) (inf : f32.isInf (f32.inp md a) = false)
    (zero : f32.isZero (f32.inp md a) = false) (pos : f32.neg (f32.inp md a) = false) : sqrtFn md a = sqrtFinite md (f32.inp md a) := by
  simp [sqrtFn, nan, inf, zero, pos]

section
variable {md : FMode} {a : Nat}

theorem roots_of_nan (nan : f32.isNaN (f32.inp md a) = true) :
    ∀ r ∈ [rcpFn md a, sqrtFn md a], r = ⟨f32.quieted (f32.inp md a), Exc.invIf (f32.isSNaN (f32.inp md a))⟩ := by
  simp [rcpFn, sqrtFn, nan]

theorem roots_of_zero (zero : f32.isZero (f32.inp md a) = true) :
    rcpFn md a = ⟨f32.signed (f32.neg (f32.inp md a)) f32.inf, Exc.dz⟩ ∧ sqrtFn md a = ⟨f32.inp md a, 0⟩ := by
  simp [rcpFn, sqrtFn, Fmt.isNaN_of_isZero zero, zero]

theorem rcpFn_of_inf (inf : f32.isInf (f32.inp md a) = true) : rcpFn md a = ⟨f32.signed (f32.neg (f32.inp md a)) 0, 0⟩ := by
  simp [rcpFn, Fmt.isNaN_of_isInf inf, f32_isZero_of_isInf inf, inf]

theorem sqrtFn_of_inf (inf : f32.inp md a = f32.inf) : sqrtFn md a = ⟨f32.inp md a, 0⟩ := by
  rw [sqrtFn, inf]
  rfl

theorem sqrtFn_of_neg (neg : f32.neg (f32.inp md a) = true) (nan : f32.isNaN (f32.inp md a) = false)
    (zero : f32.isZero (f32.inp md a) = false) : sqrtFn md a = ⟨0x7FC00005, Exc.inv⟩ := by
  simp [sqrtFn, nan, zero, neg, f32_genNaN_five]

end

/-! ### The words -/

theorem fourFormats_holdIntegers : ∀ f ∈ [f16, bf16, f32, f64], f.holdsIntegers := by
  simp only [List.forall_mem_cons, List.not_mem_nil, false_implies, implies_true, and_true, Fmt.holdsIntegers]
  decide

/-- The floating words without an enabled exception write, push and flag what their rules give (R237, R242, R258-R268, R314). -/
theorem floatingWords_done (s : State) (d a b : VCode) (quiet : quietMode s) :
    (∀ p ∈ fpWords d a b, s.issues p.1 = true → ∃ t, exec p.1 s = .next t ∧ fpDone s t d (s.rule32 d a b p.2)) ∧
    (∀ p ∈ fpWords64 d a b, s.issues p.1 = true → ∃ t, exec p.1 s = .next t ∧ fpDone64 s t d (s.rule64 d a b p.2)) ∧
    (∀ p ∈ packedWords d a b, s.issues p.1 = true → ∃ t, exec p.1 s = .next t ∧ fpDone s t d (s.rulePacked d a b p.2)) :=
  ⟨fun p hp issues => fpLanes_done quiet (exec_of_issue (fpWords_arm s d a b p hp) issues),
    fun p hp issues => fpLanes64_done quiet (exec_of_issue (fpWords64_arm s d a b p hp) issues),
    fun p hp issues => fpLanes_done quiet (exec_of_issue (packedWords_arm s d a b p hp) issues)⟩

/-- Settles O5: the words run two shared operations that only flag when no exception is enabled; minimum, maximum and integral results follow
the order and the grid of values; RCP and SQRT round a marked quotient and root as the exact number. -/
theorem floatingWordsWriteResultsAndFlags : Obligations.FloatingWordsWriteResultsAndFlags := by
  unfold Obligations.FloatingWordsWriteResultsAndFlags
  refine ⟨floatingWords_done, fun f hf md a b _ _ => ?values, fun md a _ => ?roots, fun fn md a _ => ?approximate⟩
  case values => exact ⟨fun isMax => minMax_follows_rule f md isMax a b, integral_follows_rule (fourFormats_holdIntegers f hf) md a⟩
  case roots =>
    refine ⟨roots_of_nan, roots_of_zero, rcpFn_of_inf, sqrtFn_of_inf, sqrtFn_of_neg, fun rne ftz nan inf zero => ⟨?rcp, fun pos => ?sqrt⟩⟩
    case rcp =>
      rw [rcpFn_of_finite nan inf zero]
      exact fun fits y _ _ _ => rcpFinite_nearest rne ftz zero fits y
    case sqrt =>
      rw [sqrtFn_of_finite nan inf zero pos]
      obtain ⟨nonneg, nearest⟩ := sqrtFinite_nearest rne ftz pos nan inf zero
      exact ⟨nonneg, fun y small _ _ => nearest y (decide_eq_false (not_le.2 small))⟩
  case approximate => exact ⟨fun _ => rfl, approxFn_of_nan, approxFn_special⟩

end Sys2Proof.Machine
end

section
/-!
PROOFS. Accumulators: what a register holds after rows were written one after another, the elements of an accumulator before and after
its rows are written, and what its elements raised (R274, R287, R298).
-/

namespace Sys2Proof.Machine

open Sys2Proof Sys2Proof.Rules

/-! ### Rows written one after another -/

/-- Rows 0 to n - 1 put into the registers from d on. -/
def Regs.putRows (r : Regs) (d n : Nat) (row : Nat → Row) : Regs := (List.range n).foldl (fun r j => r.put (d + j) (row j)) r

theorem Regs.putRows_succ (r : Regs) (d n : Nat) (row : Nat → Row) :
    r.putRows d (n + 1) row = (r.putRows d n row).put (d + n) (row n) := by
  simp [Regs.putRows, List.range_succ]

/-- What every write of a register keeps, such writes keep. -/
theorem Regs.putRows_keeps {α : Type} {p : Regs → α} (keeps : ∀ r c x, p (Regs.put r c x) = p r) (r : Regs) (d n : Nat) (row : Nat → Row) :
    p (r.putRows d n row) = p r := by
  induction n with
  | zero => rfl
  | succ n ih => rw [Regs.putRows_succ, keeps, ih]

theorem Regs.file_putRows (r : Regs) {d n : Nat} (fits : d + n ≤ 104) (row : Nat → Row) (c : Nat) :
    (r.putRows d n row).file c = if d ≤ c ∧ c < d + n then row (c - d) else r.file c := by
  induction n with
  | zero => rw [if_neg (by omega)]; rfl
  | succ n ih =>
    rw [Regs.putRows_succ, Regs.file_put, ih (by omega)]
    by_cases last : c = d + n
    · rw [if_pos ⟨last, by omega⟩, if_pos (by omega), last, Nat.add_sub_cancel_left]
    · rw [if_neg fun h => last h.1]
      by_cases within : d ≤ c ∧ c < d + n
      · rw [if_pos within, if_pos (by omega)]
      · rw [if_neg within, if_neg (by omega)]

/-! ### Reading and writing an accumulator (R274) -/

/-- Element j, i of a list of rows of results. -/
def resultAt (es : List (List FRes)) (j i : Nat) : FRes := (es.getD j []).getD i ⟨0, 0⟩

/-- The row that register q of an accumulator takes: register j, or the low or the high half of the pair j. -/
def accRowOf (cfg : DWord) (es : List (List FRes)) (q : Nat) : Row :=
  rowOf fun i => BitVec.ofNat 32 (if cfgAcc cfg = 1 then (resultAt es (q / 2) i).val / 2 ^ (32 * (q % 2)) else (resultAt es q i).val)

/-- Writing an accumulator writes its registers one after another. -/
theorem putAcc_eq_putRows (cfg : DWord) (r : Regs) (d : Nat) (es : List (List FRes)) :
    putAcc cfg r d es = r.putRows d (accSize cfg) (accRowOf cfg es) := by
  unfold putAcc accSize accRowOf
  by_cases pairs : cfgAcc cfg = 1
  · simp only [pairs, if_true]
    suffices ∀ n, (List.range n).foldl _ r = r.putRows d (2 * n) _ from this 16
    intro n
    induction n with
    | zero => rfl
    | succ n ih =>
      rw [List.range_succ, List.foldl_append, ih, Nat.mul_succ, Regs.putRows_succ, Regs.putRows_succ]
      simp only [List.foldl_cons, List.foldl_nil, Nat.mul_div_cancel_left n two_pos, Nat.mul_mod_right, Nat.mul_zero, Nat.pow_zero, Nat.div_one,
        show (2 * n + 1) / 2 = n by omega, show (2 * n + 1) % 2 = 1 by omega, Nat.mul_one]
      rfl
  · simp only [pairs, if_false]
    rfl

theorem file_putAcc {cfg : DWord} {d : Nat} (fits : d + accSize cfg ≤ 96) (r : Regs) (es : List (List FRes)) (c : Nat) :
    (putAcc cfg r d es).file c = if d ≤ c ∧ c < d + accSize cfg then accRowOf cfg es (c - d) else r.file c := by
  rw [putAcc_eq_putRows, Regs.file_putRows r (by omega)]

/-- An element reads back what was written, in the bits of its class. -/
theorem accElem_putAcc {cfg : DWord} {d : Nat} (fits : d + accSize cfg ≤ 96) (r : Regs) (es : List (List FRes)) {j i : Nat}
    (hj : j < 16) (hi : i < 64) :
    accElem cfg (putAcc cfg r d es) d j i = (resultAt es j i).val % 2 ^ (if cfgAcc cfg = 1 then 64 else 32) := by
  have lane {q : Nat} (hq : q < accSize cfg) : laneOf ((putAcc cfg r d es).file (d + q)) i = BitVec.ofNat 32
      (if cfgAcc cfg = 1 then (resultAt es (q / 2) i).val / 2 ^ (32 * (q % 2)) else (resultAt es q i).val) := by
    rw [file_putAcc fits, if_pos (by omega), Nat.add_sub_cancel_left, accRowOf, laneOf_rowOf _ hi]
  unfold accElem
  unfold accSize at lane
  by_cases pairs : cfgAcc cfg = 1
  · simp only [pairs, if_true, Nat.add_assoc] at lane ⊢
    rw [lane (by omega), lane (by omega), BitVec.toNat_append, BitVec.toNat_ofNat, BitVec.toNat_ofNat,
      ← Nat.shiftLeft_add_eq_or_of_lt (by omega), Nat.shiftLeft_eq, show (2 * j + 1) / 2 = j by omega, show (2 * j + 1) % 2 = 1 by omega,
      Nat.mul_div_cancel_left j two_pos, Nat.mul_mod_right]
    omega
  · simp only [pairs, if_false] at lane ⊢
    rw [lane (by omega), BitVec.toNat_ofNat]

/-! ### What the elements raised (R287) -/

theorem foldl_or_bit {α : Type} (exc : α → Exc) (xs : List α) (x : Exc) (k : Nat) :
    (xs.foldl (fun b y => b ||| exc y) x).getLsbD k = (x.getLsbD k || xs.any fun y => (exc y).getLsbD k) := by
  induction xs generalizing x with
  | nil => simp
  | cons y ys ih => rw [List.foldl_cons, ih, BitVec.getLsbD_or, List.any_cons, Bool.or_assoc]

theorem excOf_bit (es : List (List FRes)) (k : Nat) :
    (excOf es).getLsbD k = es.any fun row => row.any fun x => x.exc.getLsbD k := by
  suffices ∀ z : Exc, (es.foldl (fun a row => row.foldl (fun b x => b ||| x.exc) a) z).getLsbD k =
      (z.getLsbD k || es.any fun row => row.any fun x => x.exc.getLsbD k) by
    rw [excOf, this, BitVec.ofNat_eq_ofNat, BitVec.getLsbD_zero, Bool.false_or]
  intro z
  induction es generalizing z with
  | nil => simp
  | cons row rows ih => rw [List.foldl_cons, ih, foldl_or_bit, List.any_cons, Bool.or_assoc]

/-- Rows of lanes given by register and lane. -/
def accRows (f : Nat → Nat → FRes) : List (List FRes) := (List.range 16).map fun j => (List.range 64).map (f j)

theorem resultAt_accRows (f : Nat → Nat → FRes) {j i : Nat} (hj : j < 16) (hi : i < 64) : resultAt (accRows f) j i = f j i := by
  simp [resultAt, accRows, List.getD_eq_getElem?_getD, hj, hi]

theorem excOf_accRows (f : Nat → Nat → FRes) (k : Nat) :
    (excOf (accRows f)).getLsbD k = true ↔ ∃ j < 16, ∃ i < 64, (f j i).exc.getLsbD k = true := by
  simp [excOf_bit, accRows]

end Sys2Proof.Machine
end

section
/-!
PROOFS. The matrix words (R283, R288-R290, R293-R299).
-/

namespace Sys2Proof.Machine

open Sys2Proof Sys2Proof.Rules

/-! ### MLOOP (R288, R295) -/

/-- Operands without an error name no trap (R295). -/
theorem firstOf_ok (es : List SbEntry) : firstOf (es.map Except.ok) = none := by
  unfold firstOf
  induction es with
  | nil => rfl
  | cons e es ih => exact ih

theorem filterMap_ok {g : Except Cause SbEntry → Option SbEntry} (ok : ∀ e, g (.ok e) = some e) (es : List SbEntry) :
    (es.map Except.ok).filterMap g = es := by
  rw [List.filterMap_map, show g ∘ Except.ok = some from funext ok, List.filterMap_some]

/-- What MLOOP captures (R289, R290). -/
def State.newLoop (s : State) (d : VCode) (sa sb : SCode) : Loop where
  cfg := s.sh.mcfg
  a0 := s.sh.rd.getS sa
  a1 := s.sh.rd.getS (sa + 1)
  b0 := s.sh.rd.getS sb
  b1 := s.sh.rd.getS (sb + 1)
  mode := s.sh.rd.mode.setWidth 13
  word := s.sh.latch.word
  pc := s.sh.latch.addr
  slot := s.sh.freeRecord
  d := d.toNat
  steps := loopSteps s.sh.rd s.sh.mcfg sa sb
  nextK := 0
  exc := 0
  aGroup := ((s.opGroup s.sh (s.sh.rd.getS sa)).map Group.gid).getD 0
  bGroup := ((s.opGroup s.sh (s.sh.rd.getS sb)).map Group.gid).getD 0
  lanes := List.replicate 5 0
  cvt := []

/-- The operands of an MLOOP that lie in memory, as it checks them (R277). -/
def State.mloopSpans (s : State) (d : VCode) (sa sb : SCode) : List (Except Cause SbEntry) :=
  let n := loopSteps s.sh.rd s.sh.mcfg sa sb
  (if cfgASrc s.sh.mcfg then [] else [s.opSpan (s.sh.rd.getS sa) (s.sh.rd.getS (sa + 1)) n d.toNat]) ++
    (if cfgBSrc s.sh.mcfg then [] else [s.opSpan (s.sh.rd.getS sb) (s.sh.rd.getS (sb + 1)) n d.toNat])

/-- An MLOOP whose operands pass and that finds room queues its loop (R288). -/
theorem execMloop_queues {s : State} {la : BitVec 4} {d : VCode} {sa sb : SCode} (issues : s.issues (.mloop la d sa sb) = true)
    {es : List SbEntry} (spans : s.mloopSpans d sa sb = es.map Except.ok) (room : s.scoreboardFull es = false) (few : s.coreLoops < 8) :
    exec (.mloop la d sa sb) s = .next (({ s with
      scoreboard := s.scoreboard ++ es
      sh := { s.sh with loops := s.sh.loops ++ [s.newLoop d sa sb] } } : State).openWindow la (s.newLoop d sa sb).regs
        (some ((s.newLoop d sa sb).d, (s.newLoop d sa sb).slot))) := by
  have few' : decide (Config.coreLoops ≤ s.coreLoops) = false := decide_eq_false (not_le.2 few)
  change execMloop la d sa sb s = _
  unfold execMloop
  rw [State.issueWait_of_issues issues, State.unhold_of_wait (s.issues_wait issues)]
  unfold State.mloopSpans at spans
  dsimp only at spans ⊢
  simp only [spans, firstOf_ok, few', Bool.or_false]
  rw [filterMap_ok, room]
  · rfl
  · exact fun _ => rfl

/-! ### MCVT (R289, R296, R297) -/

/-- A conversion changes the registers, the flags and the traps that pend. -/
theorem State.convertAcc_frame (s : State) (cfg : DWord) (mode : BitVec 13) (d : Nat) (word : Word) (slot : BitVec 2) :
    { s.convertAcc cfg mode d word slot with sh := { (s.convertAcc cfg mode d word slot).sh with
      regs := s.sh.regs, fpflags := s.sh.fpflags, pend := s.sh.pend } } = s := rfl

section
variable {cfg : DWord} {mode : BitVec 13}

/-- What a conversion of an f32 accumulator makes of its element j, i (R296). -/
def State.cvtOne (s : State) (cfg : DWord) (mode : BitVec 13) (d j i : Nat) : FRes :=
  convFF f32 (ofmtOf cfg) (FMode.of (mode.setWidth 64)) (laneOf (s.sh.regs.file (d + j)) i).toNat

theorem cvtElems_f32 (f32s : cfgAcc cfg = 0) (s : State) (d : Nat) (rows cols : List (BitVec 8)) :
    cvtElems cfg (FMode.of (mode.setWidth 64)) rows cols (accElem cfg s.sh.regs d) = accRows (s.cvtOne cfg mode d) := by
  simp only [cvtElems, accRows, cvtElem, accElem, f32s]
  rfl

theorem State.convertAcc_f32 (f32s : cfgAcc cfg = 0) (s : State) (d : Nat) (word : Word) (slot : BitVec 2) :
    (s.convertAcc cfg mode d word slot).sh.regs = putAcc cfg s.sh.regs d (accRows (s.cvtOne cfg mode d)) ∧
    (s.convertAcc cfg mode d word slot).sh.fpflags = s.sh.fpflags ||| (excOf (accRows (s.cvtOne cfg mode d))).setWidth 64 := by
  unfold State.convertAcc
  simp only [cvtElems_f32 f32s]
  exact ⟨rfl, rfl⟩

theorem State.lane_convertAcc_f32 (f32s : cfgAcc cfg = 0) (s : State) {d : Nat} (fits : d + 16 ≤ 96) (word : Word) (slot : BitVec 2) {k i : Nat}
    (hi : i < 64) : laneOf ((s.convertAcc cfg mode d word slot).sh.regs.file k) i =
      if d ≤ k ∧ k < d + 16 then BitVec.ofNat 32 (s.cvtOne cfg mode d (k - d) i).val else laneOf (s.sh.regs.file k) i := by
  have size : accSize cfg = 16 := by simp [accSize, f32s]
  rw [(s.convertAcc_f32 f32s d word slot).1, file_putAcc (by omega), size]
  split
  · next within =>
    rw [accRowOf, laneOf_rowOf _ hi, if_neg (by omega), resultAt_accRows _ (by omega) hi]
  · rfl

theorem State.flags_convertAcc_f32 (f32s : cfgAcc cfg = 0) (s : State) (d : Nat) (word : Word) (slot : BitVec 2) {k : Nat} (hk : k < 5) :
    (s.convertAcc cfg mode d word slot).sh.fpflags.getLsbD k = true ↔
      s.sh.fpflags.getLsbD k = true ∨ ∃ j < 16, ∃ i < 64, (s.cvtOne cfg mode d j i).exc.getLsbD k = true := by
  rw [(s.convertAcc_f32 f32s d word slot).2, BitVec.getLsbD_or, BitVec.getLsbD_setWidth, decide_eq_true (show k < 64 by omega),
    Bool.true_and, Bool.or_eq_true, excOf_accRows]

end

theorem exec_mcvt {s : State} {d : VCode} (issues : s.issues (.mcvt d) = true) :
    exec (.mcvt d) s = .next (if s.sh.loops.any (·.d = d.toNat) then
      { s with sh := { s.sh with loops := s.sh.loops.map fun l => if l.d = d.toNat then
        { l with cvt := l.cvt ++ [(s.sh.latch.word, s.sh.latch.slot, s.sh.mcfg, s.sh.rd.mode.setWidth 13)] } else l } }
      else s.convertAcc s.sh.mcfg (s.sh.rd.mode.setWidth 13) d.toNat s.sh.latch.word s.sh.latch.slot) :=
  by
  change execMcvt d s = _
  unfold execMcvt
  rw [State.issue_of_issues issues]
  rfl

/-! ### MZERO (R283, R298) -/

/-- The latch with the tag of a cleared accumulator is cleared (R283). -/
def ScaleLatch.clearedFor (x : ScaleLatch) (d : Nat) : ScaleLatch := if x.valid && x.vd = d then { x with valid := false, vd := 0 } else x

theorem exec_mzero {s : State} {d : VCode} (issues : s.issues (.mzero d) = true) : exec (.mzero d) s = .next { s with sh := { s.sh with
    regs := s.sh.regs.putRows d.toNat (accSize s.sh.mcfg) fun _ => rowOf fun _ => accIdentity s.sh.mcfg
    latches := Vector.ofFn fun i : Fin 2 => s.sh.latches[i].clearedFor d.toNat } } :=
  by
  change execMzero d s = _
  unfold execMzero
  rw [State.issue_of_issues issues]
  rfl

theorem accIdentity_eq (c : DWord) : accIdentity c = if cfgSemi c = 1 then 0x7F800000 else if cfgSemi c = 2 then 0xFF800000 else 0 := by
  unfold accIdentity
  split
  · next h => rw [if_pos h]
  · next h => rw [if_neg (by omega), if_pos h]
  · next h1 h2 => rw [if_neg h1, if_neg h2]

/-! ### The words -/

/-- MWAIT's condition (R299). -/
def State.loopsDone (s : State) (d : VCode) : Prop := if d = 108 then s.sh.loops = [] else ∀ l ∈ s.sh.loops, l.d ≠ d.toNat

theorem exec_mwait {s : State} {d : VCode} (issues : s.issues (.mwait d) = true) (plain : s.repeatable = false) :
    (s.loopsDone d → exec (.mwait d) s = .next s) ∧ (¬ s.loopsDone d → exec (.mwait d) s = .next (waitsAt s (.mwait d) none)) := by
  have ready : (if d = 108 then decide (s.sh.loops = []) else !(s.sh.loops.any (·.d = d.toNat))) = true ↔ s.loopsDone d := by
    unfold State.loopsDone
    split <;> simp
  change (_ → execMwait d s = _) ∧ (_ → execMwait d s = _)
  unfold execMwait
  rw [State.issueWait_of_issues issues, State.waitFor_plain plain, State.unhold_of_wait (s.issues_wait issues), ← ready]
  exact ⟨fun done => congrArg Host.Outcome.next (if_pos done), fun wait => congrArg Host.Outcome.next (if_neg wait)⟩

/-- Settles O37: each word issues and has its effect, told by registers, loops and latches. -/
theorem matrixWordsActOnTheirAccumulator : Obligations.MatrixWordsActOnTheirAccumulator := by
  unfold Obligations.MatrixWordsActOnTheirAccumulator
  intro s la d sa sb
  refine ⟨fun issues ok => ?mcfg, fun issues es spans room few => ?mloop, fun issues => ⟨fun busy => ?attach, fun free => ?convert⟩,
    fun issues fits => ?mzero, exec_mwait⟩
  case mcfg =>
    change execMcfg sa s = _
    unfold execMcfg
    rw [State.issue_of_issues issues]
    exact congrArg Host.Outcome.next (if_pos ok)
  case mloop =>
    refine ⟨_, s.newLoop d sa sb, execMloop_queues issues spans room few, ?_⟩
    rw [State.openWindow_eq]
    exact ⟨rfl, rfl, rfl, rfl, rfl, rfl, rfl, rfl, rfl, rfl, rfl, rfl, rfl, rfl⟩
  case attach => rw [exec_mcvt issues, if_pos (by simpa using busy)]
  case convert =>
    refine ⟨_, (exec_mcvt issues).trans (by rw [if_neg (by simpa using free)]), State.convertAcc_frame _ _ _ _ _ _, fun f32s low => ⟨?_, ?_⟩⟩
    · exact fun k i _ hi => s.lane_convertAcc_f32 f32s low _ _ hi
    · exact fun k hk => s.flags_convertAcc_f32 f32s _ _ _ hk
  case mzero =>
    refine ⟨_, exec_mzero issues, fun k i _ hi => ?_, ?_, ?_, fun j => ?_, rfl⟩
    · dsimp only
      rw [Regs.file_putRows _ (by omega), ← accIdentity_eq]
      split
      · exact laneOf_rowOf _ hi
      · rfl
    · exact Regs.putRows_keeps Regs.put_w _ _ _ _
    · exact ⟨Regs.putRows_keeps Regs.put_s _ _ _ _, Regs.putRows_keeps Regs.put_k _ _ _ _, Regs.putRows_keeps Regs.put_em _ _ _ _,
        Regs.putRows_keeps Regs.put_mode _ _ _ _⟩
    · simp [ScaleLatch.clearedFor]

end Sys2Proof.Machine
end

section
/-!
PROOFS. A K-step that is due and passes its checks: its lines, the latch it uses, and the state it leaves (R277-R288).
-/

namespace Sys2Proof.Machine

open Sys2Proof Sys2Proof.Rules

/-! ### The lines of an operand (R277, R279) -/

theorem State.see_length (s : State) (k n : Nat) : (s.see k n).length = n := by
  unfold State.see
  split
  · exact readBytes_length _ _ _
  · simp

theorem regLine_length (r : Regs) (reg k : Nat) (fmt : BitVec 8) (j : Nat) : (regLine r reg k fmt j).bytes.length = 64 := by
  simp [regLine, leBytes_length, List.length_flatMap]

theorem opLines_length {s : State} {l : Loop} {isB : Bool} {x : MLine} (hx : x ∈ s.opLines l isB) : x.bytes.length = 64 := by
  unfold State.opLines at hx
  extract_lets reg d0 d1 at hx
  split at hx
  · obtain ⟨j, -, rfl⟩ := List.mem_map.1 hx
    exact regLine_length _ _ _ _ _
  · split at hx
    · cases hx
    · obtain ⟨r, -, rfl⟩ := List.mem_map.1 hx
      exact s.see_length _ _

theorem stepRow_mem {ls : List MLine} {r : Nat} (hr : r < ls.length) : stepRow ls r ∈ ls := by
  rw [stepRow, List.getD_eq_getElem _ _ hr]
  exact List.getElem_mem hr

/-- What is told of each line, read at a line there is. -/
theorem getD_map_stepRow {α : Type} (g : MLine → α) {ls : List MLine} {r : Nat} (hr : r < ls.length) (x : α) :
    (ls.map g).getD r x = g (stepRow ls r) := by
  rw [stepRow, List.getD_eq_getElem _ _ hr, List.getD_eq_getElem _ _ (by rwa [List.length_map]), List.getElem_map]

/-! ### The checks (R285) -/

theorem firstBad_none {p : MLine → Nat → Bool} {ls : List MLine} (h : firstBad p ls = none) :
    ∀ q ∈ ls.zipIdx, p q.1 q.2 = false := by
  rw [firstBad, Option.map_eq_none_iff, List.find?_eq_none] at h
  exact fun q hq => Bool.not_eq_true _ ▸ h q hq

theorem firstBad_none_line {p : MLine → Bool} {ls : List MLine} (h : firstBad (fun x _ => p x) ls = none) : ∀ x ∈ ls, p x = false := by
  intro x hx
  obtain ⟨n, hn, rfl⟩ := List.getElem_of_mem hx
  exact firstBad_none h (ls[n], n) (List.mk_mem_zipIdx_iff_getElem?.2 (List.getElem?_eq_getElem hn))

/-- Lines that pass belong to the accumulator's class, and have one number of elements. -/
theorem stepCheck_none {cfg : DWord} {daz : Bool} {latch : List (BitVec 8)} {ls : List MLine} (h : stepCheck cfg daz latch ls = none) :
    (∀ x ∈ ls, inClass (cfgAcc cfg) x.code = true) ∧ ∀ x ∈ ls, ∀ y ∈ ls, kbOf x.code = kbOf y.code := by
  unfold stepCheck at h
  dsimp only at h
  split at h
  · cases h
  split at h
  · cases h
  next _ classes =>
  split at h
  · cases h
  next _ counts =>
  have same (x : MLine) (hx : x ∈ ls) : kbOf x.code = kbOf ((ls.head?.map MLine.code).getD 0) := by
    simpa using firstBad_none_line counts x hx
  exact ⟨fun x hx => by simpa using firstBad_none_line classes x hx, fun x hx y hy => (same x hx).trans (same y hy).symm⟩

/-- Only the check of an ra32 loop reads the latched scales. -/
theorem stepCheck_latch {cfg : DWord} (h : cfgAcc cfg ≠ 2) (daz : Bool) (latch latch' : List (BitVec 8)) (ls : List MLine) :
    stepCheck cfg daz latch ls = stepCheck cfg daz latch' ls := by
  simp only [stepCheck, if_neg h]

/-- A row and a column of a K-step that passes its checks. -/
structure LinePair (acc : Nat) (x y : MLine) : Prop where
  classA : inClass acc x.code = true
  classB : inClass acc y.code = true
  count : kbOf x.code = kbOf y.code
  bytesA : x.bytes.length = 64
  bytesB : y.bytes.length = 64

section
variable {s : State} {k : Nat} {l : Loop} {a b : List MLine} (ready : kReady s k l a b)
include ready

theorem kReady_length : a.length = 32 ∧ b.length = 32 := by
  obtain ⟨-, -, -, -, -, -, -, -, -, -, -, -, -, lengthA, lengthB, -⟩ := ready
  exact ⟨lengthA, lengthB⟩

theorem kReady_fits : l.d + accSize l.cfg ≤ 96 := by
  obtain ⟨-, -, -, -, -, -, -, -, -, -, fits, -⟩ := ready
  exact fits

theorem kReady_pass :
    stepCheck l.cfg (FMode.of (l.mode.setWidth 64)).daz (scalesOf a ++ scalesOf b) (a ++ b) = none := by
  obtain ⟨-, -, -, -, -, -, -, -, -, -, -, -, -, -, -, pass⟩ := ready
  exact pass

/-- The lines of an element of C pass the checks together. -/
theorem kReady_pair {j i : Nat} (hj : j < 16) (hi : i < 64) : LinePair (cfgAcc l.cfg) (stepRow a (accRow j i)) (stepRow b (accCol i)) := by
  obtain ⟨lengthA, lengthB⟩ := kReady_length ready
  obtain ⟨classes, counts⟩ := stepCheck_none (kReady_pass ready)
  obtain ⟨-, -, -, -, -, -, -, -, -, -, -, linesA, linesB, -⟩ := ready
  have memA : stepRow a (accRow j i) ∈ a := stepRow_mem (by rw [lengthA, accRow]; omega)
  have memB : stepRow b (accCol i) ∈ b := stepRow_mem (by rw [lengthB, accCol]; omega)
  have inA := List.mem_append_left b memA
  have inB := List.mem_append_right a memB
  exact ⟨classes _ inA, classes _ inB, counts _ inA _ inB,
    opLines_length (linesA ▸ memA : _ ∈ s.opLines l false), opLines_length (linesB ▸ memB : _ ∈ s.opLines l true)⟩

end

/-! ### The latch (R283) -/

/-- A scale latch serves an accumulator. -/
def ScaleLatch.serves (x : ScaleLatch) (d : Nat) : Prop := x.valid = true ∧ x.vd = d

theorem ScaleLatch.serves_iff (x : ScaleLatch) (d : Nat) : x.serves d ↔ (x.valid && x.vd = d) = true := by
  simp [ScaleLatch.serves]

/-- The latch a loop picks serves it, or none does. -/
theorem Sheaf.pickLatch_spec (h : Sheaf) (d : Nat) :
    ∃ m : Fin 2, h.pickLatch d = m ∧ (h.latches[m].serves d ∨ ∀ n : Fin 2, ¬ h.latches[n].serves d) := by
  unfold Sheaf.pickLatch
  by_cases first : h.latches[0].serves d
  · exact ⟨0, if_pos ((ScaleLatch.serves_iff _ _).1 first), .inl first⟩
  rw [if_neg (mt (ScaleLatch.serves_iff _ _).2 first)]
  by_cases second : h.latches[1].serves d
  · exact ⟨1, if_pos ((ScaleLatch.serves_iff _ _).1 second), .inl second⟩
  rw [if_neg (mt (ScaleLatch.serves_iff _ _).2 second)]
  have none : ∀ n : Fin 2, ¬ h.latches[n].serves d := Fin.forall_fin_two.2 ⟨first, second⟩
  dsimp only
  split
  · exact ⟨1, rfl, .inr none⟩
  split
  · exact ⟨0, rfl, .inr none⟩
  split
  · exact ⟨1, rfl, .inr none⟩
  · exact ⟨0, rfl, .inr none⟩

/-- The latch that a K-step picks. -/
def State.oldLatch (s : State) (l : Loop) : ScaleLatch := s.sh.latches.toList.getD (s.sh.pickLatch l.d) ScaleLatch.empty

/-- The latch as a K-step uses it: taken by a first K-step that none serves. -/
def State.stepLatch (s : State) (l : Loop) (a b : List MLine) : ScaleLatch :=
  if decide (cfgAcc l.cfg = 2) && l.nextK = 0 && !((s.oldLatch l).valid && (s.oldLatch l).vd = l.d) then
    { valid := true, recent := true, vd := l.d, rows := scalesOf a, cols := scalesOf b }
  else { s.oldLatch l with recent := true }

/-- The latch of an ra32 loop serves it with the lines' scales, where those that serve it have them. -/
theorem State.stepLatch_serves {s : State} {l : Loop} {a b : List MLine} (ra : cfgAcc l.cfg = 2)
    (served : l.nextK = 0 ∨ ∃ m : Fin 2, s.sh.latches[m].serves l.d)
    (same : ∀ m : Fin 2, s.sh.latches[m].serves l.d → s.sh.latches[m].rows = scalesOf a ∧ s.sh.latches[m].cols = scalesOf b) :
    (s.stepLatch l a b).serves l.d ∧ (s.stepLatch l a b).rows = scalesOf a ∧ (s.stepLatch l a b).cols = scalesOf b := by
  obtain ⟨m, picked, serves⟩ := s.sh.pickLatch_spec l.d
  have old : s.oldLatch l = s.sh.latches[m] := by
    simp [State.oldLatch, picked, List.getD_eq_getElem?_getD, m.isLt]
  unfold State.stepLatch
  rw [old]
  rcases serves with serves | none
  · rw [(ScaleLatch.serves_iff _ _).1 serves, Bool.not_true, Bool.and_false, if_neg Bool.false_ne_true]
    exact ⟨serves, same m serves⟩
  · have first : l.nextK = 0 := served.resolve_right fun ⟨n, hn⟩ => none n hn
    rw [Bool.eq_false_iff.2 (mt (ScaleLatch.serves_iff _ _).2 (none m)), decide_eq_true ra, decide_eq_true first, Bool.not_false, Bool.and_self,
      Bool.and_self, if_pos rfl]
    exact ⟨⟨rfl, rfl⟩, rfl, rfl⟩

/-! ### The state it leaves (R280-R288) -/

/-- The elements after the K-step, and what they raised. -/
def State.stepResults (s : State) (l : Loop) (a b : List MLine) : List (List FRes) :=
  stepElems l.cfg (FMode.of (l.mode.setWidth 64)) a b fun j i =>
    accRead l.cfg (FMode.of (l.mode.setWidth 64)) l.nextK (accElem l.cfg s.sh.regs l.d j i)

/-- The loop after the K-step. -/
def Loop.stepped (l : Loop) (es : List (List FRes)) : Loop :=
  { l with nextK := l.nextK + 1, exc := l.exc ||| excOf es, lanes := (List.range 5).map fun k => l.lanes.getD k 0 ||| excLanes es k }

/-- The state after the K-step. -/
def State.afterStep (s : State) (k : Nat) (l : Loop) (a b : List MLine) : State :=
  { s with sh := { s.sh with
    regs := putAcc l.cfg s.sh.regs l.d (s.stepResults l a b)
    loops := s.sh.loops.set k (l.stepped (s.stepResults l a b))
    latches := if cfgAcc l.cfg = 2 then
        Vector.ofFn fun i : Fin 2 => if i.val = s.sh.pickLatch l.d then s.stepLatch l a b else { s.sh.latches[i] with recent := false }
      else s.sh.latches } }

section
variable {s : State} {k : Nat} {l : Loop} {a b : List MLine} (ready : kReady s k l a b)
include ready

theorem State.kStep_afterStep (pass : stepCheck l.cfg (FMode.of (l.mode.setWidth 64)).daz
    ((s.stepLatch l a b).rows ++ (s.stepLatch l a b).cols) (a ++ b) = none) : s.kStep k = s.afterStep k l a b := by
  obtain ⟨loop, -, -, -, good, weak, -, -, more, -, -, rfl, rfl, -⟩ := ready
  have errors : ((s.opKeys l false ++ s.opKeys l true).find? fun q => s.lineBad q.2) = none :=
    List.find?_eq_none.2 fun q _ => by simp [State.lineBad, good]
  unfold State.kStep
  rw [loop]
  dsimp only
  rw [if_neg (not_le.2 more), errors]
  dsimp only
  rw [State.correct_none weak]
  unfold State.stepLatch State.oldLatch at pass
  rw [pass]
  rfl

/-- The step runs, and counts nothing. -/
theorem exec_matrixKstep (pass : stepCheck l.cfg (FMode.of (l.mode.setWidth 64)).daz
    ((s.stepLatch l a b).rows ++ (s.stepLatch l a b).cols) (a ++ b) = none) :
    exec (.matrixKstep s.sh.uid k) s = .next (s.afterStep k l a b) := by
  have step := State.kStep_afterStep ready pass
  obtain ⟨loop, live, resident, running, -, -, steps, banks, more, free, -⟩ := ready
  have runs : s.sh.unitRuns = true := by simp [Sheaf.unitRuns, live, resident, running]
  have counts (e : Counted) : (s.afterStep k l a b).counts e = s.counts e := rfl
  change execMatrixKstep s.sh.uid k s = _
  unfold execMatrixKstep State.as
  rw [if_pos rfl]
  dsimp only
  rw [loop]
  dsimp only
  rw [runs, decide_eq_true more, free, Bool.not_false, Bool.and_self, Bool.and_self, if_pos rfl, State.countedStep, loop]
  dsimp only
  rw [if_pos more, step, State.countMine_none ((counts _).trans (State.counts_false (e := .kSteps) steps)),
    State.countMine_none ((counts _).trans (State.counts_false (e := .bankExcess) banks))]

end

end Sys2Proof.Machine
end

section
/-!
PROOFS. The elements of a K-step: boolean and residue elements, and which function of its row, its column and its old value each is
(R274, R282, R284).
-/

namespace Sys2Proof.Machine

open Sys2Proof Sys2Proof.Rules

/-! ### Which function each element is (R274) -/

/-- A float element after a K-step, of its old value, its row and its column. -/
def lineElem (f : Fmt) (md : FMode) (sem c : Nat) (x y : MLine) : FRes :=
  kElem f md sem c x.scale y.scale (x.els md.daz) (y.els md.daz)

/-- The integers of an ra32 line. -/
def MLine.ints (x : MLine) : List Int := (List.range (kbOf x.code)).map fun e => elemInt x.code (elemBits x.code x.bytes e)

section
variable {cfg : DWord} {md : FMode} {a b : List MLine} (lengthA : a.length = 32) (lengthB : b.length = 32) (old : Nat → Nat → Nat) {j i : Nat}
  (hj : j < 16) (hi : i < 64)
include lengthA lengthB hj hi

theorem accRow_lt : accRow j i < a.length ∧ accCol i < b.length := by
  rw [lengthA, lengthB, accRow, accCol]
  omega

theorem resultAt_stepElems_ra (ra : cfgAcc cfg = 2) : resultAt (stepElems cfg md a b old) j i =
    ⟨kResidue 2 (old j i) (stepRow a (accRow j i)).ints (stepRow b (accCol i)).ints, 0⟩ := by
  obtain ⟨row, col⟩ := accRow_lt lengthA lengthB hj hi
  unfold stepElems
  simp only [ra, if_true]
  refine (resultAt_accRows _ hj hi).trans ?_
  rw [getD_map_stepRow _ row, getD_map_stepRow _ col]
  rfl

theorem resultAt_stepElems_bool (bool : cfgAcc cfg = 3) : resultAt (stepElems cfg md a b old) j i =
    ⟨kBool (old j i) (stepRow a (accRow j i)).bytes (stepRow b (accCol i)).bytes, 0⟩ := by
  obtain ⟨row, col⟩ := accRow_lt lengthA lengthB hj hi
  unfold stepElems
  simp only [bool, if_true, if_neg (show ¬ (3 = 2) by decide)]
  refine (resultAt_accRows _ hj hi).trans ?_
  rw [getD_map_stepRow _ row, getD_map_stepRow _ col]

theorem resultAt_stepElems_float (float : cfgAcc cfg = 0 ∨ cfgAcc cfg = 1) : resultAt (stepElems cfg md a b old) j i =
    lineElem (if cfgAcc cfg = 1 then f64 else f32) md (cfgSemi cfg) (old j i) (stepRow a (accRow j i)) (stepRow b (accCol i)) := by
  obtain ⟨row, col⟩ := accRow_lt lengthA lengthB hj hi
  unfold stepElems
  rw [if_neg (by omega), if_neg (by omega)]
  refine (resultAt_accRows _ hj hi).trans ?_
  rw [getD_map_stepRow _ row, getD_map_stepRow _ col, getD_map_stepRow _ row, getD_map_stepRow _ col]
  rfl

end

/-! ### Boolean elements (R284) -/

/-- Two bytes share a 1 where their conjunction is not 0. -/
theorem and_ne_zero_iff (x y : Byte) : x &&& y ≠ 0 ↔ ∃ n < 8, x.getLsbD n = true ∧ y.getLsbD n = true := by
  simp [BitVec.eq_of_getLsbD_eq_iff]

theorem any_and_iff {as bs : List Byte} (lengthA : as.length = 64) (lengthB : bs.length = 64) :
    (List.zipWith (fun x y => x &&& y) as bs).any (· ≠ 0) = true ↔
      ∃ e < 512, (as.getD (e / 8) 0).getLsbD (e % 8) = true ∧ (bs.getD (e / 8) 0).getLsbD (e % 8) = true := by
  have shared : (List.zipWith (fun x y => x &&& y) as bs).any (· ≠ 0) = true ↔ ∃ n < 64, as.getD n 0 &&& bs.getD n 0 ≠ 0 := by
    simp only [List.any_eq_true, decide_eq_true_eq, List.mem_iff_getElem, List.length_zipWith, lengthA, lengthB, min_self]
    constructor
    · rintro ⟨x, ⟨n, hn, rfl⟩, ne⟩
      refine ⟨n, hn, ?_⟩
      rwa [List.getElem_zipWith, ← List.getD_eq_getElem _ 0, ← List.getD_eq_getElem _ 0] at ne
    · rintro ⟨n, hn, ne⟩
      refine ⟨_, ⟨n, hn, rfl⟩, ?_⟩
      rwa [List.getElem_zipWith, ← List.getD_eq_getElem _ 0, ← List.getD_eq_getElem _ 0]
  rw [shared]
  simp only [and_ne_zero_iff]
  constructor
  · rintro ⟨n, hn, m, hm, bits⟩
    refine ⟨8 * n + m, by omega, ?_⟩
    rwa [show (8 * n + m) / 8 = n by omega, show (8 * n + m) % 8 = m by omega]
  · rintro ⟨e, he, bits⟩
    exact ⟨e / 8, by omega, e % 8, by omega, bits⟩

theorem kBool_follows_rule {x y : MLine} (pair : LinePair 3 x y) (c : Nat) : (kBool c x.bytes y.bytes = 0 ∨ kBool c x.bytes y.bytes = 1) ∧
    (kBool c x.bytes y.bytes = 1 ↔ c ≠ 0 ∨ ∃ e < 512, bitEl x e = true ∧ bitEl y e = true) := by
  have test : (decide (c ≠ 0) || (List.zipWith (fun x y => x &&& y) x.bytes y.bytes).any (· ≠ 0)) = true ↔
      c ≠ 0 ∨ ∃ e < 512, bitEl x e = true ∧ bitEl y e = true := by
    rw [Bool.or_eq_true, decide_eq_true_iff, any_and_iff pair.bytesA pair.bytesB]
    rfl
  rw [← test]
  unfold kBool
  split
  · next one => exact ⟨.inr rfl, fun _ => one, fun _ => rfl⟩
  · next zero => exact ⟨.inl rfl, fun h => absurd h zero_ne_one, fun one => absurd one zero⟩

/-! ### Residue elements (R282) -/

theorem scCount_eq {x : MLine} (sc : inClass 2 x.code = true) : scCount x = kbOf x.code := by
  have codes : x.code = 0x10 ∨ x.code = 0x11 := by simpa [inClass] using sc
  rcases codes with code | code <;> rw [scCount, code] <;> rfl

/-- The integers of an sc8 or sc4 line are its elements, read with their signs. -/
theorem elemInt_eq_scEl {x : MLine} (sc : inClass 2 x.code = true) (e : Nat) : elemInt x.code (elemBits x.code x.bytes e) = scEl x e := by
  have codes : x.code = 0x10 ∨ x.code = 0x11 := by simpa [inClass] using sc
  unfold scEl elemInt
  rcases codes with code | code <;> rw [code]
  · rw [if_pos rfl, if_pos rfl, BitVec.toInt_eq_toNat_cond, elemBits]
    split <;> split <;> omega
  · have nibble : elemBits 17 x.bytes e = (BitVec.ofNat 4 ((x.bytes.getD (e / 2) 0).toNat / 16 ^ (e % 2))).toNat := rfl
    have sc4 : ¬ (17 = 16) := by decide
    rw [if_neg sc4, if_neg sc4, BitVec.toInt_eq_toNat_cond, nibble]
    split <;> split <;> omega

theorem MLine.ints_eq {x : MLine} (sc : inClass 2 x.code = true) : x.ints = (List.range (scCount x)).map (scEl x) := by
  rw [MLine.ints, ← scCount_eq sc]
  exact List.map_congr_left fun e _ => elemInt_eq_scEl sc e

/-- A residue element gains an integer (R282). -/
theorem kResidue_gains (x : Word) (code : Nat) (as bs : List Int) :
    (raValue (BitVec.ofNat 32 (kResidue code x.toNat as bs)).toNat - raValue x.toNat - (List.zipWith (· * ·) as bs).sum) % 1073740800 = 0 := by
  have word : BitVec.ofNat 32 (kResidue code x.toNat as bs) = raOf fun j => raCh x j + (List.zipWith (· * ·) as bs).sum := by
    rw [← ofNat_raPack, kResidue, List.sum_eq_foldl]
    rfl
  rw [word, sub_sub]
  exact raValue_raOf fun j => (raValue_raCh x j).symm.add_right _

theorem kResidue_follows_rule {x y : MLine} (pair : LinePair 2 x y) (c : Word) :
    (raValue (BitVec.ofNat 32 (kResidue 2 c.toNat x.ints y.ints)).toNat - raValue c.toNat -
      ((List.range (scCount x)).map fun e => scEl x e * scEl y e).sum) % 1073740800 = 0 := by
  have count : scCount y = scCount x := by rw [scCount_eq pair.classA, scCount_eq pair.classB, pair.count]
  have terms : List.zipWith (· * ·) x.ints y.ints = (List.range (scCount x)).map fun e => scEl x e * scEl y e := by
    rw [MLine.ints_eq pair.classA, MLine.ints_eq pair.classB, count, List.zipWith_map, List.zipWith_self]
  rw [← terms]
  exact kResidue_gains c 2 _ _

end Sys2Proof.Machine
end

section
/-!
PROOFS. Float lines: the elements of a line, and the terms of a row and a column (R105, R112, R280, R281, R284).
-/

namespace Sys2Proof.Machine

open Sys2Proof Sys2Proof.Rules

/-! ### Elements (R105, R112, R280) -/

/-- The code of a float line. -/
def MLine.float (x : MLine) : Prop := x.code = 1 ∨ x.code = 2 ∨ x.code = 3 ∨ x.code = 4

theorem float_of_inClass {acc : Nat} (h : acc = 0 ∨ acc = 1) {x : MLine} (hx : inClass acc x.code = true) : x.float := by
  have range : 1 ≤ x.code ∧ x.code ≤ 4 := by rcases h with rfl | rfl <;> simpa [inClass] using hx
  rw [MLine.float]
  omega

/-- Element e of a float line as the unit reads it. -/
def MLine.el (x : MLine) (daz : Bool) (e : Nat) : MEl := mEl (mFmt x) daz x.scale (mEnc x e)

section
variable {x : MLine} (float : x.float)
include float

theorem kbOf_eq_mCount : kbOf x.code = mCount x := by
  rcases float with code | code | code | code <;> rw [mCount, mBytes, code] <;> rfl

theorem MLine.els_eq (daz : Bool) : x.els daz = (List.range (mCount x)).map (x.el daz) := by
  have fmt : fmtOf x.code = mFmt x := by rcases float with code | code | code | code <;> rw [mFmt, code] <;> rfl
  have enc (e : Nat) : elemBits x.code x.bytes e = mEnc x e := by
    rcases float with code | code | code | code <;> rw [mEnc, mBytes, code] <;> rfl
  rw [MLine.els, kbOf_eq_mCount float, fmt]
  exact List.map_congr_left fun e _ => by rw [enc, MLine.el]

theorem mCount_pos : 0 < mCount x := by
  rcases float with code | code | code | code <;> rw [mCount, mBytes, code] <;> decide

end

theorem mFmt_exp_ne_zero (x : MLine) : (mFmt x).exp ≠ 0 := by
  unfold mFmt
  split
  · decide
  split
  · decide
  split <;> decide

theorem MLine.el_isNan (x : MLine) (daz : Bool) (e : Nat) : (x.el daz e).isNan = (mFmt x).isNaN (mEnc x e) := by
  unfold MLine.el mEl
  split
  · next nan => rw [nan]; rfl
  · next num =>
    rw [Bool.eq_false_iff.2 num]
    split
    · rfl
    split <;> rfl

theorem Fmt.frac_le_inf {f : Fmt} (hf : f.exp ≠ 0) : 2 ^ f.frac ≤ f.inf :=
  Nat.le_mul_of_pos_left _ (Nat.sub_pos_of_lt (Nat.one_lt_two_pow hf))

/-- An infinity is no zero, and no subnormal. -/
theorem not_mZero_of_mInf {x : MLine} {e : Nat} (inf : mInf x e) (daz : Bool) : ¬ mZero daz x e := by
  have least := Fmt.frac_le_inf (mFmt_exp_ne_zero x)
  have pos : 0 < 2 ^ (mFmt x).frac := by positivity
  have mag : (mFmt x).mag (mEnc x e) = (mFmt x).inf := of_decide_eq_true inf
  simp only [mZero, Fmt.isZero, Fmt.isSub, mag, Bool.and_eq_true, decide_eq_true_eq]
  omega

theorem value_m_eq_zero (f : Fmt) (x : Nat) : (f.value x).m = 0 ↔ f.isZero x = true := by
  rw [← Dyadic.rat_eq_zero, ← val_eq_rat, val_eq_magVal, mul_eq_zero, or_iff_right (by split <;> norm_num), ← f.magVal_zero,
    f.magVal_strictMono.injective.eq_iff, Fmt.isZero, decide_eq_true_iff]

theorem Dyadic.rat_scale (x : Dyadic) (k : Int) : (x.scale k).rat = x.rat * 2 ^ k := by
  rw [Dyadic.rat, Dyadic.scale, zpow_add₀ two_ne_zero, ← mul_assoc, Dyadic.rat]

/-- An element that is no NaN is an infinity, or the scaled value of its encoding. -/
theorem MLine.el_cases (x : MLine) (daz : Bool) {e : Nat} (num : (mFmt x).isNaN (mEnc x e) = false) :
    (mInf x e ∧ ¬ mZero daz x e ∧ x.el daz e = .inf (mNeg x e)) ∨
    (¬ mInf x e ∧ ∃ v, x.el daz e = .fin v (mNeg x e) ∧ v.rat = mVal daz x e ∧ (v.m = 0 ↔ mZero daz x e)) := by
  unfold MLine.el mEl
  rw [num, if_neg Bool.false_ne_true]
  by_cases inf : mInf x e
  · exact .inl ⟨inf, not_mZero_of_mInf inf daz, if_pos inf⟩
  rw [if_neg (show ¬ (mFmt x).isInf (mEnc x e) = true from inf)]
  refine .inr ⟨inf, ?_⟩
  have test : ((mFmt x).isZero (mEnc x e) || (daz && (mFmt x).isSub (mEnc x e))) = true ↔ mZero daz x e := by simp [mZero]
  rw [mVal]
  by_cases zero : mZero daz x e
  · rw [if_pos (test.2 zero), if_pos zero]
    exact ⟨_, rfl, by simp [Dyadic.rat, Dyadic.zero], iff_of_true rfl zero⟩
  · rw [if_neg (mt test.1 zero), if_neg zero]
    refine ⟨_, rfl, Dyadic.rat_scale _ _, iff_of_false ?_ zero⟩
    exact fun m0 => zero (.inl ((value_m_eq_zero _ _).1 m0))

/-! ### Terms (R280, R281, R284) -/

/-- The exact number of a finite element or term. -/
def MEl.rat : MEl → ℚ
  | .fin v _ => v.rat
  | _ => 0

/-- Term e of a row and a column under a semiring is undefined, or an infinity of a sign, or its exact value. -/
def termUndef (daz : Bool) (sem : Nat) (x y : MLine) (e : Nat) : Prop :=
  if sem = 0 ∨ sem = 3 then (mInf x e ∧ mZero daz y e) ∨ (mZero daz x e ∧ mInf y e) else mInf x e ∧ mInf y e ∧ mNeg x e ≠ mNeg y e
def termInf (sem : Nat) (x y : MLine) (e : Nat) (neg : Bool) : Prop := (mInf x e ∨ mInf y e) ∧
  (((sem = 0 ∨ sem = 3) ∧ neg = (mNeg x e != mNeg y e)) ∨ (¬ (sem = 0 ∨ sem = 3) ∧ mInf x e ∧ neg = mNeg x e) ∨
    (¬ (sem = 0 ∨ sem = 3) ∧ ¬ mInf x e ∧ neg = mNeg y e))
noncomputable def termVal (daz : Bool) (sem : Nat) (x y : MLine) (e : Nat) : ℚ :=
  if sem = 0 ∨ sem = 3 then mVal daz x e * mVal daz y e else mVal daz x e + mVal daz y e

/-- Term e as the unit computes it. -/
def lineTerm (md : FMode) (sem : Nat) (x y : MLine) (e : Nat) : Option MEl :=
  if sem = 0 ∨ sem = 3 then (x.el md.daz e).mul (y.el md.daz e) else (x.el md.daz e).add md.rm (y.el md.daz e)

/-- What a term that is defined is. -/
def termIs (daz : Bool) (sem : Nat) (x y : MLine) (e : Nat) (u : MEl) : Prop :=
  (∃ neg, u = .inf neg ∧ ∀ z, termInf sem x y e z ↔ z = neg) ∨
  ((∀ z, ¬ termInf sem x y e z) ∧ ∃ v n, u = .fin v n ∧ v.rat = termVal daz sem x y e)

theorem termInf_none {sem : Nat} {x y : MLine} {e : Nat} (hx : ¬ mInf x e) (hy : ¬ mInf y e) (z : Bool) : ¬ termInf sem x y e z :=
  fun h => h.1.elim hx hy

section
variable {md : FMode} {sem : Nat} {x y : MLine} {e : Nat} (numX : (mFmt x).isNaN (mEnc x e) = false)
  (numY : (mFmt y).isNaN (mEnc y e) = false)
include numX numY

/-- A product is undefined exactly for a zero by an infinity. -/
theorem lineTerm_times (times : sem = 0 ∨ sem = 3) : (termUndef md.daz sem x y e → lineTerm md sem x y e = none) ∧
    (¬ termUndef md.daz sem x y e → ∃ u, lineTerm md sem x y e = some u ∧ termIs md.daz sem x y e u) := by
  have sign (inf : mInf x e ∨ mInf y e) (z : Bool) : termInf sem x y e z ↔ z = (mNeg x e != mNeg y e) := by simp [termInf, times, inf]
  rw [termUndef, if_pos times, lineTerm, if_pos times]
  rcases x.el_cases md.daz numX with ⟨infX, nzX, elX⟩ | ⟨finX, v, elX, valX, zeroX⟩ <;>
    rcases y.el_cases md.daz numY with ⟨infY, nzY, elY⟩ | ⟨finY, w, elY, valY, zeroY⟩ <;> rw [elX, elY]
  · exact ⟨fun h => (h.elim (nzY ·.2) (nzX ·.1)).elim, fun _ => ⟨_, rfl, .inl ⟨_, rfl, sign (.inl infX)⟩⟩⟩
  · refine ⟨fun h => ?_, fun h => ⟨.inf (mNeg x e != mNeg y e), ?_, .inl ⟨_, rfl, sign (.inl infX)⟩⟩⟩
    · have zero : w.m = 0 := zeroY.2 (h.resolve_right fun h => finY h.2).2
      simp [MEl.mul, MEl.isZero, zero]
    · have nonzero : w.m ≠ 0 := fun zero => h (.inl ⟨infX, zeroY.1 zero⟩)
      simp [MEl.mul, MEl.isZero, MEl.neg, nonzero]
  · refine ⟨fun h => ?_, fun h => ⟨.inf (mNeg x e != mNeg y e), ?_, .inl ⟨_, rfl, sign (.inr infY)⟩⟩⟩
    · have zero : v.m = 0 := zeroX.2 (h.resolve_left fun h => finX h.1).1
      simp [MEl.mul, MEl.isZero, zero]
    · have nonzero : v.m ≠ 0 := fun zero => h (.inr ⟨zeroX.1 zero, infY⟩)
      simp [MEl.mul, MEl.isZero, MEl.neg, nonzero]
  · refine ⟨fun h => (h.elim (finX ·.1) (finY ·.2)).elim, fun _ => ⟨_, rfl, .inr ⟨termInf_none finX finY, _, _, rfl, ?_⟩⟩⟩
    rw [Dyadic.rat_mul, valX, valY, termVal, if_pos times]

/-- A sum is undefined exactly for infinities of opposite sign. -/
theorem lineTerm_plus (plus : ¬ (sem = 0 ∨ sem = 3)) : (termUndef md.daz sem x y e → lineTerm md sem x y e = none) ∧
    (¬ termUndef md.daz sem x y e → ∃ u, lineTerm md sem x y e = some u ∧ termIs md.daz sem x y e u) := by
  have signX (inf : mInf x e) (z : Bool) : termInf sem x y e z ↔ z = mNeg x e := by simp only [termInf, plus, inf]; simp
  have signY (fin : ¬ mInf x e) (inf : mInf y e) (z : Bool) : termInf sem x y e z ↔ z = mNeg y e := by
    simp only [termInf, plus, fin, inf]
    simp
  rw [termUndef, if_neg plus, lineTerm, if_neg plus]
  rcases x.el_cases md.daz numX with ⟨infX, -, elX⟩ | ⟨finX, v, elX, valX, -⟩ <;>
    rcases y.el_cases md.daz numY with ⟨infY, -, elY⟩ | ⟨finY, w, elY, valY, -⟩ <;> rw [elX, elY]
  · refine ⟨fun h => if_neg h.2.2, fun h => ⟨_, if_pos ?_, .inl ⟨_, rfl, signX infX⟩⟩⟩
    exact not_not.1 fun ne => h ⟨infX, infY, ne⟩
  · exact ⟨fun h => (finY h.2.1).elim, fun _ => ⟨_, rfl, .inl ⟨_, rfl, signX infX⟩⟩⟩
  · exact ⟨fun h => (finX h.1).elim, fun _ => ⟨_, rfl, .inl ⟨_, rfl, signY finX infY⟩⟩⟩
  · refine ⟨fun h => (finX h.1).elim, fun _ => ⟨_, rfl, .inr ⟨termInf_none finX finY, _, _, rfl, ?_⟩⟩⟩
    rw [Dyadic.rat_add, valX, valY, termVal, if_neg plus]

theorem lineTerm_cases : (termUndef md.daz sem x y e → lineTerm md sem x y e = none) ∧
    (¬ termUndef md.daz sem x y e → ∃ u, lineTerm md sem x y e = some u ∧ termIs md.daz sem x y e u) := by
  by_cases times : sem = 0 ∨ sem = 3
  · exact lineTerm_times numX numY times
  · exact lineTerm_plus numX numY times

end

end Sys2Proof.Machine
end

section
/-!
PROOFS. The best of a list of terms, and the sum of one (R280, R284).
-/

namespace Sys2Proof.Machine

open Sys2Proof Sys2Proof.Rules

/-! ### All of a list, or none -/

theorem allSome_eq_none {α : Type} {xs : List (Option α)} (h : none ∈ xs) : allSome xs = none := by
  induction xs with
  | nil => cases h
  | cons x xs ih =>
    cases x with
    | none => rfl
    | some x =>
      rw [allSome, ih ((List.mem_cons.1 h).resolve_left nofun)]
      rfl

theorem allSome_map_some {α β : Type} {f : β → Option α} {g : β → α} {l : List β} (h : ∀ e ∈ l, f e = some (g e)) :
    allSome (l.map f) = some (l.map g) := by
  induction l with
  | nil => rfl
  | cons e l ih =>
    rw [List.map_cons, h e List.mem_cons_self, allSome, ih fun e he => h e (List.mem_cons_of_mem _ he)]
    rfl

/-! ### Sums -/

/-- A sum that adds the finite terms of a list to a number adds their numbers. -/
theorem foldl_rat {g : Dyadic → MEl → Dyadic} (fin : ∀ z v n, g z (.fin v n) = z.add v) (nan : ∀ z, g z .nan = z)
    (inf : ∀ z n, g z (.inf n) = z) (ts : List MEl) (z : Dyadic) : (ts.foldl g z).rat = z.rat + (ts.map MEl.rat).sum := by
  induction ts generalizing z with
  | nil => simp
  | cons t ts ih =>
    rw [List.foldl_cons, ih, List.map_cons, List.sum_cons, ← add_assoc]
    congr 1
    cases t with
    | nan => simp [nan, MEl.rat]
    | inf n => simp [inf, MEl.rat]
    | fin v n => rw [fin, Dyadic.rat_add, MEl.rat]

/-! ### The best term (R284) -/

/-- Where a term lies among the rationals and two infinities. -/
def MEl.rank : MEl → WithBot (WithTop ℚ)
  | .nan => ⊥
  | .inf true => ⊥
  | .inf false => ((⊤ : WithTop ℚ) : WithBot (WithTop ℚ))
  | .fin v _ => ((v.rat : WithTop ℚ) : WithBot (WithTop ℚ))

theorem Dyadic.lt_iff (x y : Dyadic) : x.lt y = true ↔ x.rat < y.rat := by
  rw [Dyadic.lt, decide_eq_true_iff, ← Dyadic.rat_neg_iff, Dyadic.rat_add, Dyadic.rat_neg, ← sub_eq_add_neg, sub_neg]

/-- The order of terms is that of their ranks, but for the sign of a zero. -/
theorem MEl.lt_rank {x y : MEl} (hx : x ≠ .nan) (hy : y ≠ .nan) :
    (x.lt y = true → x.rank ≤ y.rank) ∧ (x.lt y = false → y.rank ≤ x.rank) := by
  cases x with
  | nan => exact absurd rfl hx
  | inf n =>
    cases y with
    | nan => exact absurd rfl hy
    | inf m => cases n <;> cases m <;> simp [MEl.lt, MEl.rank]
    | fin w m => cases n <;> simp [MEl.lt, MEl.rank]
  | fin v n =>
    cases y with
    | nan => exact absurd rfl hy
    | inf m => cases m <;> simp [MEl.lt, MEl.rank]
    | fin w m =>
      simp only [MEl.lt, MEl.rank, WithBot.coe_le_coe, WithTop.coe_le_coe, Bool.or_eq_true, Bool.or_eq_false_iff, Dyadic.lt_iff]
      constructor
      · rintro (less | zeros)
        · exact less.le
        · simp only [Bool.and_eq_true, decide_eq_true_eq] at zeros
          obtain ⟨⟨⟨v0, w0⟩, -⟩, -⟩ := zeros
          rw [(v.rat_eq_zero).2 v0, (w.rat_eq_zero).2 w0]
      · rintro ⟨less, -⟩
        exact not_lt.1 (mt (Dyadic.lt_iff _ _).2 (Bool.eq_false_iff.1 less))

/-- Term x is at least as good as y: the greater or the lesser of the two. -/
def MEl.atLeast (isMax : Bool) (x y : MEl) : Prop := if isMax then y.rank ≤ x.rank else x.rank ≤ y.rank

theorem MEl.atLeast_trans {isMax : Bool} {x y z : MEl} (h1 : x.atLeast isMax y) (h2 : y.atLeast isMax z) : x.atLeast isMax z := by
  cases isMax
  · exact le_trans (α := WithBot (WithTop ℚ)) h1 h2
  · exact le_trans (α := WithBot (WithTop ℚ)) h2 h1

/-- The better of two terms. -/
def MEl.better (isMax : Bool) (x y : MEl) : MEl := if (if isMax then x.lt y else y.lt x) then y else x

theorem MEl.better_spec (isMax : Bool) {x y : MEl} (hx : x ≠ .nan) (hy : y ≠ .nan) :
    (x.better isMax y = x ∨ x.better isMax y = y) ∧ (x.better isMax y).atLeast isMax x ∧ (x.better isMax y).atLeast isMax y := by
  unfold MEl.better MEl.atLeast
  cases isMax
  · obtain ⟨less, more⟩ := MEl.lt_rank hy hx
    cases h : y.lt x <;> simp [h, less, more]
  · obtain ⟨less, more⟩ := MEl.lt_rank hx hy
    cases h : x.lt y <;> simp [h, less, more]

theorem foldl_better {isMax : Bool} {xs : List MEl} (hxs : ∀ x ∈ xs, x ≠ .nan) {z : MEl} (hz : z ≠ .nan) :
    xs.foldl (MEl.better isMax) z ∈ z :: xs ∧ ∀ x ∈ z :: xs, (xs.foldl (MEl.better isMax) z).atLeast isMax x := by
  induction xs generalizing z with
  | nil => simp [MEl.atLeast]
  | cons y ys ih =>
    obtain ⟨either, better, better'⟩ := MEl.better_spec isMax hz (hxs y List.mem_cons_self)
    have num : z.better isMax y ≠ .nan := by
      rcases either with h | h <;> rw [h]
      · exact hz
      · exact hxs y List.mem_cons_self
    obtain ⟨mem, best⟩ := ih (fun x hx => hxs x (List.mem_cons_of_mem _ hx)) num
    rw [List.foldl_cons]
    refine ⟨?_, fun x hx => ?_⟩
    · rcases List.mem_cons.1 mem with h | h
      · rw [h]
        rcases either with h | h <;> simp [h]
      · exact List.mem_cons_of_mem _ (List.mem_cons_of_mem _ h)
    · have first := best _ List.mem_cons_self
      rcases List.mem_cons.1 hx with rfl | hx
      · exact MEl.atLeast_trans first better
      rcases List.mem_cons.1 hx with rfl | hx
      · exact MEl.atLeast_trans first better'
      · exact best x (List.mem_cons_of_mem _ hx)

/-- The best term of a list is one of the list, and at least as good as each. -/
theorem MEl.best_spec (isMax : Bool) {xs : List MEl} (nonempty : xs ≠ []) (hxs : ∀ x ∈ xs, x ≠ .nan) :
    ∃ m ∈ xs, MEl.best isMax xs = some m ∧ ∀ x ∈ xs, m.atLeast isMax x := by
  obtain ⟨x, xs, rfl⟩ := List.exists_cons_of_ne_nil nonempty
  obtain ⟨mem, best⟩ := foldl_better (isMax := isMax) (fun y hy => hxs y (List.mem_cons_of_mem _ hy)) (hxs x List.mem_cons_self)
  exact ⟨_, mem, rfl, best⟩

end Sys2Proof.Machine
end

section
/-!
PROOFS. Float elements: the order of encodings, and what the unit computes where terms are defined and where not (R280, R281, R284).
-/

namespace Sys2Proof.Machine

open Sys2Proof Sys2Proof.Rules

/-! ### Encodings of a format -/

theorem Fmt.signed_lt {f : Fmt} {m : Nat} (h : m < f.signBit) (neg : Bool) : f.signed neg m < 2 * f.signBit := by
  unfold Fmt.signed
  split <;> omega

theorem Fmt.signBit_pos (f : Fmt) : 0 < f.signBit := by
  rw [Fmt.signBit]
  positivity

/-- A rounded value is an encoding of its format. -/
theorem Fmt.round_lt (f : Fmt) (md : FMode) (neg : Bool) (m : Nat) (e : Int) : (f.round md neg m e).val < 2 * f.signBit := by
  have inf := f.inf_lt_signBit
  unfold Fmt.round
  extract_lets top emin q
  split
  extract_lets code
  split
  · exact Fmt.signed_lt (by split <;> omega) _
  split
  · exact Fmt.signed_lt f.signBit_pos _
  · exact Fmt.signed_lt (by omega) _

theorem Fmt.roundDy_lt (f : Fmt) (md : FMode) (v : Dyadic) (z : Bool) : (f.roundDy md v z).val < 2 * f.signBit := by
  unfold Fmt.roundDy
  split
  · exact Fmt.signed_lt f.signBit_pos _
  · exact f.round_lt _ _ _ _

/-- The key of an infinity is the least or the greatest of those of numbers, and no other encoding has it. -/
theorem Fmt.ordKey_inf (f : Fmt) (neg : Bool) : f.ordKey (f.signed neg f.inf) = if neg then -1 - (f.inf : Int) else f.inf := by
  rw [Fmt.ordKey, Fmt.neg_signed f.inf_lt_signBit, Fmt.mag_signed f.inf_lt_signBit]

theorem Fmt.ordKey_bounds {f : Fmt} {c : Nat} (num : f.isNaN c = false) : -1 - (f.inf : Int) ≤ f.ordKey c ∧ f.ordKey c ≤ f.inf := by
  have mag : f.mag c ≤ f.inf := not_lt.1 (of_decide_eq_false num)
  unfold Fmt.ordKey
  split <;> omega

theorem Fmt.eq_of_ordKey_inf {f : Fmt} {c : Nat} (lt : c < 2 * f.signBit) {neg : Bool} (h : f.ordKey c = f.ordKey (f.signed neg f.inf)) :
    c = f.signed neg f.inf := by
  rw [Fmt.ordKey_inf] at h
  unfold Fmt.ordKey Fmt.mag Fmt.neg at h
  unfold Fmt.signed
  by_cases big : f.signBit ≤ c
  · have mod : c % f.signBit = c - f.signBit := by rw [Nat.mod_eq_sub_mod big, Nat.mod_eq_of_lt (by omega)]
    rw [decide_eq_true big, if_pos rfl, mod] at h
    cases neg <;> simp only [if_true, Bool.false_eq_true, if_false] at h ⊢ <;> omega
  · rw [decide_eq_false big, if_neg Bool.false_ne_true, Nat.mod_eq_of_lt (by omega)] at h
    cases neg <;> simp only [if_true, Bool.false_eq_true, if_false] at h ⊢ <;> omega

/-! ### What the unit computes of defined terms (R280, R281, R284) -/

/-- The old element as a term. -/
def oldTerm (f : Fmt) (c : Nat) : MEl := if f.isInf c then .inf (f.neg c) else .fin (f.value c) (f.neg c)

/-- The element under plus-times. -/
def sumElem (f : Fmt) (md : FMode) (c : Nat) (ts : List MEl) : FRes :=
  let all := oldTerm f c :: ts
  let pos := all.contains (.inf false)
  let neg := all.contains (.inf true)
  if pos && neg then ⟨f.genNaN 3, Exc.inv⟩
  else if pos || neg then ⟨f.signed neg f.inf, 0⟩
  else f.roundDy md (all.foldl (fun a t => match t with | .fin v _ => a.add v | _ => a) Dyadic.zero)
    (if all.all (fun t => t.isZero && t.neg) then true else if all.all (fun t => t.isZero && !t.neg) then false else md.rm = 3)

/-- The element beside the best term. -/
def bestElem (f : Fmt) (md : FMode) (sem c : Nat) (m : MEl) : FRes :=
  let y := m.round f md
  ⟨if (if sem ≠ 1 then f.ordKey c < f.ordKey y.val else f.ordKey y.val < f.ordKey c) then y.val else c, y.exc⟩

section
variable {f : Fmt} {md : FMode} {sem c : Nat} {x y : MLine} (float : x.float) (float' : y.float) (count : mCount x = mCount y)

theorem any_isNan_iff {x : MLine} (float : x.float) (daz : Bool) : (x.els daz).any MEl.isNan = true ↔ mNaN x := by
  rw [MLine.els_eq float, List.any_map, List.any_eq_true]
  simp only [List.mem_range, Function.comp_apply, MLine.el_isNan, mNaN]

/-- NaNs come first: the old element's, a scale's, a line's (R280). -/
theorem lineElem_of_nan (nan : f.isNaN c = true) : lineElem f md sem c x y = ⟨f.quieted c, Exc.invIf (f.isSNaN c)⟩ := if_pos nan

theorem lineElem_of_nanScale (num : f.isNaN c = false) (scale : x.scale = 255 ∨ y.scale = 255) :
    lineElem f md sem c x y = ⟨f.genNaN 2, Exc.inv⟩ := by
  rw [lineElem, kElem, num, if_neg Bool.false_ne_true, if_pos (by simpa using scale)]

include float float' in
theorem lineElem_of_nanLine (num : f.isNaN c = false) (scaleX : x.scale ≠ 255) (scaleY : y.scale ≠ 255) (nan : mNaN x ∨ mNaN y) :
    lineElem f md sem c x y = ⟨f.genNaN 1, Exc.inv⟩ := by
  have any : ((x.els md.daz).any MEl.isNan || (y.els md.daz).any MEl.isNan) = true := by
    rw [Bool.or_eq_true, any_isNan_iff float, any_isNan_iff float']
    exact nan
  rw [lineElem, kElem, num, if_neg Bool.false_ne_true, if_neg (by simp [scaleX, scaleY]), any, if_pos rfl]

include float float' count

/-- The terms of a row and a column, all of them or none. -/
theorem allSome_lineTerms : allSome (if sem = 0 ∨ sem = 3 then List.zipWith MEl.mul (x.els md.daz) (y.els md.daz)
    else List.zipWith (MEl.add md.rm) (x.els md.daz) (y.els md.daz)) = allSome ((List.range (mCount x)).map (lineTerm md sem x y)) := by
  rw [MLine.els_eq float, MLine.els_eq float', ← count]
  congr 1
  unfold lineTerm
  split <;> rw [List.zipWith_map, List.zipWith_self]

section
variable (num : f.isNaN c = false) (scaleX : x.scale ≠ 255) (scaleY : y.scale ≠ 255) (nanX : ¬ mNaN x) (nanY : ¬ mNaN y)
include num scaleX scaleY nanX nanY

/-- A product or sum that is undefined makes the element the NaN of its cause. -/
theorem lineElem_undef (undef : ∃ e < mCount x, termUndef md.daz sem x y e) :
    lineElem f md sem c x y = ⟨f.genNaN (if sem = 0 ∨ sem = 3 then 4 else 3), Exc.inv⟩ := by
  obtain ⟨e, he, undef⟩ := undef
  have numE (z : MLine) (nan : ¬ mNaN z) (he : e < mCount z) : (mFmt z).isNaN (mEnc z e) = false :=
    Bool.eq_false_iff.2 fun h => nan ⟨e, he, h⟩
  have undefined : none ∈ (List.range (mCount x)).map (lineTerm md sem x y) :=
    List.mem_map.2 ⟨e, List.mem_range.2 he, (lineTerm_cases (numE x nanX he) (numE y nanY (count ▸ he))).1 undef⟩
  have all := (allSome_lineTerms (md := md) (sem := sem) float float' count).trans (allSome_eq_none undefined)
  unfold lineElem kElem
  rw [num, decide_eq_false scaleX, decide_eq_false scaleY, Bool.eq_false_iff.2 (mt (any_isNan_iff float _).1 nanX),
    Bool.eq_false_iff.2 (mt (any_isNan_iff float' _).1 nanY)]
  simp only [Bool.or_self, Bool.false_eq_true, if_false]
  by_cases sum : sem = 0
  · simp only [sum, true_or, if_true] at all ⊢
    rw [all]
  · simp only [sum, false_or, if_false] at all ⊢
    rw [all]

theorem lineElem_sum {u : Nat → MEl} (terms : ∀ e < mCount x, lineTerm md 0 x y e = some (u e)) :
    lineElem f md 0 c x y = sumElem f md c ((List.range (mCount x)).map u) := by
  have all := allSome_lineTerms (md := md) (sem := 0) float float' count
  rw [if_pos (.inl rfl), allSome_map_some fun e he => terms e (List.mem_range.1 he)] at all
  unfold lineElem kElem
  rw [num, decide_eq_false scaleX, decide_eq_false scaleY, Bool.eq_false_iff.2 (mt (any_isNan_iff float _).1 nanX),
    Bool.eq_false_iff.2 (mt (any_isNan_iff float' _).1 nanY), all]
  rfl

theorem lineElem_best (best : sem ≠ 0) {u : Nat → MEl} (terms : ∀ e < mCount x, lineTerm md sem x y e = some (u e)) {m : MEl}
    (hm : MEl.best (sem ≠ 1) ((List.range (mCount x)).map u) = some m) :
    lineElem f md sem c x y = bestElem f md sem c m := by
  have all := allSome_lineTerms (md := md) (sem := sem) float float' count
  simp only [best, false_or] at all
  rw [allSome_map_some fun e he => terms e (List.mem_range.1 he)] at all
  unfold lineElem kElem
  rw [num, decide_eq_false scaleX, decide_eq_false scaleY, Bool.eq_false_iff.2 (mt (any_isNan_iff float _).1 nanX),
    Bool.eq_false_iff.2 (mt (any_isNan_iff float' _).1 nanY), if_neg best]
  dsimp only
  rw [all]
  dsimp only
  rw [hm]
  rfl

end
end

end Sys2Proof.Machine
end

section
/-!
PROOFS. The rounded sum and the best term follow their tables (R280, R281, R284).
-/

namespace Sys2Proof.Machine

open Sys2Proof Sys2Proof.Rules

/-! ### Terms by their tables -/

section
variable {daz : Bool} {sem : Nat} {x y : MLine} {e : Nat} {u : MEl}

theorem termIs_ne_nan (h : termIs daz sem x y e u) : u ≠ .nan := by
  rcases h with ⟨neg, rfl, -⟩ | ⟨-, v, n, rfl, -⟩ <;> nofun

theorem termIs_inf_iff (h : termIs daz sem x y e u) (z : Bool) : u = .inf z ↔ termInf sem x y e z := by
  rcases h with ⟨neg, rfl, inf⟩ | ⟨fin, v, n, rfl, -⟩
  · rw [inf, MEl.inf.injEq, eq_comm]
  · exact iff_of_false nofun (fin z)

theorem termIs_fin (h : termIs daz sem x y e u) (fin : ∀ z, ¬ termInf sem x y e z) : ∃ v n, u = .fin v n ∧ v.rat = termVal daz sem x y e := by
  rcases h with ⟨neg, -, inf⟩ | ⟨-, finite⟩
  · exact absurd ((inf neg).2 rfl) (fin neg)
  · exact finite

end

/-! ### The rounded sum (R280, R281) -/

/-- Encoding y is the one rounding of an exact number q (R94). -/
def roundsTo (f : Fmt) (md : FMode) (q : ℚ) (y : Nat) : Prop :=
  ∃ (m : Nat) (e : Int), m ≠ 0 ∧ |q| = (m : ℚ) * (2 : ℚ) ^ e ∧ y = (f.round md (q < 0) m e).val

theorem roundDy_roundsTo (f : Fmt) (md : FMode) {v : Dyadic} (z : Bool) {q : ℚ} (value : v.rat = q) :
    (q = 0 → f.isZero (f.roundDy md v z).val = true) ∧ (q ≠ 0 → roundsTo f md q (f.roundDy md v z).val) := by
  subst value
  have rounded := roundDy_roundedOnce f md v z
  refine ⟨fun zero => (roundedOnce_zero rounded zero).2, fun nonzero => ?_⟩
  obtain ⟨m, e, m0, result, size⟩ := rounded.2 nonzero
  exact ⟨m, e, m0, size, congrArg FRes.val result⟩

/-- The sum of plus-times holds an infinity of a sign. -/
def sumInf (f : Fmt) (c : Nat) (x y : MLine) (neg : Bool) : Prop :=
  (f.isInf c = true ∧ f.neg c = neg) ∨ ∃ e < mCount x, termInf 0 x y e neg

section
variable {f : Fmt} {md : FMode} {c : Nat} {x y : MLine} {u : Nat → MEl} (terms : ∀ e < mCount x, termIs md.daz 0 x y e (u e))
include terms

theorem contains_inf_iff (neg : Bool) : (oldTerm f c :: (List.range (mCount x)).map u).contains (.inf neg) = true ↔ sumInf f c x y neg := by
  rw [List.contains_iff_mem, List.mem_cons, sumInf]
  refine or_congr ?_ ?_
  · unfold oldTerm
    split
    · next inf => simp [inf, eq_comm]
    · next fin => simp [fin]
  · simp only [List.mem_map, List.mem_range]
    exact exists_congr fun e => and_congr_right fun he => termIs_inf_iff (terms e he) neg

/-- Without an infinity the finite terms add up to the old value and all products. -/
theorem rat_sum (fin : ∀ neg, ¬ sumInf f c x y neg) : ((oldTerm f c :: (List.range (mCount x)).map u).map MEl.rat).sum =
    val f c + ((List.range (mCount x)).map (termVal md.daz 0 x y)).sum := by
  have old : MEl.rat (oldTerm f c) = val f c := by
    rw [oldTerm, if_neg fun inf => fin (f.neg c) (.inl ⟨inf, rfl⟩)]
    rfl
  rw [List.map_cons, List.sum_cons, old, List.map_map]
  congr 2
  refine List.map_congr_left fun e he => ?_
  have lt := List.mem_range.1 he
  obtain ⟨v, n, eq, value⟩ := termIs_fin (terms e lt) fun z inf => fin z (.inr ⟨e, lt, inf⟩)
  rw [Function.comp_apply, eq, MEl.rat, value]

theorem sumElem_follows : (sumInf f c x y false → sumInf f c x y true →
      sumElem f md c ((List.range (mCount x)).map u) = ⟨f.genNaN 3, Exc.inv⟩) ∧
    (sumInf f c x y false → ¬ sumInf f c x y true → sumElem f md c ((List.range (mCount x)).map u) = ⟨f.inf, 0⟩) ∧
    (¬ sumInf f c x y false → sumInf f c x y true → sumElem f md c ((List.range (mCount x)).map u) = ⟨f.signed true f.inf, 0⟩) ∧
    (¬ sumInf f c x y false → ¬ sumInf f c x y true →
      let q := val f c + ((List.range (mCount x)).map (termVal md.daz 0 x y)).sum
      let r := (sumElem f md c ((List.range (mCount x)).map u)).val
      (q = 0 → f.isZero r = true) ∧ (q ≠ 0 → roundsTo f md q r)) := by
  have has (neg : Bool) (h : sumInf f c x y neg) := (contains_inf_iff terms neg).2 h
  have hasNo (neg : Bool) (h : ¬ sumInf f c x y neg) := Bool.eq_false_iff.2 (mt (contains_inf_iff terms neg).1 h)
  unfold sumElem
  dsimp only
  refine ⟨fun pos neg => ?_, fun pos neg => ?_, fun pos neg => ?_, fun pos neg => ?_⟩
  · rw [has _ pos, has _ neg]; rfl
  · rw [has _ pos, hasNo _ neg]; rfl
  · rw [hasNo _ pos, has _ neg]; rfl
  · rw [hasNo _ pos, hasNo _ neg]
    refine roundDy_roundsTo f md _ ((foldl_rat ?_ ?_ ?_ _ _).trans ?_)
    · exact fun _ _ _ => rfl
    · exact fun _ => rfl
    · exact fun _ _ => rfl
    · rw [rat_sum terms (Bool.forall_bool.2 ⟨pos, neg⟩)]
      simp [Dyadic.rat, Dyadic.zero]

end

/-! ### The best term (R284) -/

theorem MEl.eq_inf_of_atLeast {m : MEl} {neg : Bool} (num : m ≠ .nan) (h : m.atLeast (!neg) (.inf neg)) : m = .inf neg := by
  cases m with
  | nan => exact absurd rfl num
  | inf n => cases n <;> cases neg <;> simp [MEl.atLeast, MEl.rank] at h ⊢
  | fin v n => cases neg <;> simp [MEl.atLeast, MEl.rank] at h

/-- Of finite terms and infinities that lose, the best has the best value. -/
theorem MEl.fin_of_atLeast {m : MEl} {isMax : Bool} {v : Dyadic} {n : Bool} (h : m.atLeast isMax (.fin v n))
    (hm : m = .inf isMax ∨ ∃ w k, m = .fin w k ∧ if isMax then w.rat ≤ v.rat else v.rat ≤ w.rat) :
    ∃ w k, m = .fin w k ∧ w.rat = v.rat := by
  rcases hm with rfl | ⟨w, k, rfl, le⟩
  · cases isMax <;> simp [MEl.atLeast, MEl.rank] at h
  · refine ⟨w, k, rfl, ?_⟩
    cases isMax <;> simp [MEl.atLeast, MEl.rank] at h le <;> exact le_antisymm ‹_› ‹_›

section
variable {f : Fmt} {md : FMode} {sem c : Nat}

/-- The element yields its place to a rounded best term y. -/
def yieldsTo (f : Fmt) (sem c y : Nat) : Prop := if sem = 1 then below f y c else below f c y

theorem yieldsTo_iff (f : Fmt) (sem c y : Nat) :
    yieldsTo f sem c y ↔ if sem = 1 then f.ordKey y < f.ordKey c else f.ordKey c < f.ordKey y := by
  unfold yieldsTo
  split <;> rw [below_iff_ordKey]

theorem bestElem_val (m : MEl) : (yieldsTo f sem c (m.round f md).val → (bestElem f md sem c m).val = (m.round f md).val) ∧
    (¬ yieldsTo f sem c (m.round f md).val → (bestElem f md sem c m).val = c) := by
  rw [yieldsTo_iff]
  unfold bestElem
  by_cases least : sem = 1
  · simp only [least, ne_eq, not_true_eq_false, if_true, if_false]
    exact ⟨fun h => if_pos h, fun h => if_neg h⟩
  · simp only [least, ne_eq, not_false_eq_true, if_true, if_false]
    exact ⟨fun h => if_pos h, fun h => if_neg h⟩

/-- A best infinity of the winning sign is the result. -/
theorem bestElem_wins (num : f.isNaN c = false) (lt : c < 2 * f.signBit) :
    (bestElem f md sem c (.inf (sem = 1))).val = f.signed (sem = 1) f.inf := by
  obtain ⟨lo, hi⟩ := Fmt.ordKey_bounds num
  have key := f.ordKey_inf (decide (sem = 1))
  obtain ⟨yes, no⟩ := bestElem_val (f := f) (md := md) (sem := sem) (c := c) (.inf (sem = 1))
  by_cases beyond : yieldsTo f sem c (f.signed (sem = 1) f.inf)
  · exact yes beyond
  · rw [no beyond]
    refine Fmt.eq_of_ordKey_inf lt ?_
    rw [yieldsTo_iff, key] at beyond
    rw [key]
    by_cases least : sem = 1 <;> simp only [least, decide_true, decide_false, if_true, if_false, Bool.false_eq_true] at beyond ⊢ <;> omega

/-- A best infinity of the losing sign leaves the element. -/
theorem bestElem_loses (num : f.isNaN c = false) : (bestElem f md sem c (.inf (sem ≠ 1))).val = c := by
  obtain ⟨lo, hi⟩ := Fmt.ordKey_bounds num
  refine (bestElem_val _).2 fun beyond => ?_
  rw [MEl.round, yieldsTo_iff, Fmt.ordKey_inf] at beyond
  by_cases least : sem = 1 <;> simp [least] at beyond <;> omega

end

end Sys2Proof.Machine
end

section
/-!
PROOFS. A K-step applies its semiring to every element (R274, R280-R284).
-/

namespace Sys2Proof.Machine

open Sys2Proof Sys2Proof.Rules

/-! ### An element after a K-step -/

theorem Exc.inv_bit : Exc.inv.getLsbD 0 = true := by decide

section
variable {f : Fmt} {md : FMode} {sem c : Nat} {x y : MLine} (float : x.float) (float' : y.float) (count : mCount x = mCount y)
  (num : f.isNaN c = false) (scaleX : x.scale ≠ 255) (scaleY : y.scale ≠ 255) (nanX : ¬ mNaN x) (nanY : ¬ mNaN y)
include count nanX nanY

/-- Without NaN and undefined terms each term is defined, as its table says. -/
theorem exists_lineTerms (defined : ∀ e < mCount x, ¬ termUndef md.daz sem x y e) :
    ∃ u : Nat → MEl, ∀ e < mCount x, lineTerm md sem x y e = some (u e) ∧ termIs md.daz sem x y e (u e) := by
  have numE (z : MLine) (nan : ¬ mNaN z) {e : Nat} (he : e < mCount z) : (mFmt z).isNaN (mEnc z e) = false :=
    Bool.eq_false_iff.2 fun h => nan ⟨e, he, h⟩
  refine ⟨fun e => (lineTerm md sem x y e).getD .nan, fun e he => ?_⟩
  obtain ⟨u, eq, is⟩ := (lineTerm_cases (numE x nanX he) (numE y nanY (count ▸ he))).2 (defined e he)
  dsimp only
  rw [eq, Option.getD_some]
  exact ⟨rfl, is⟩

include float float' num scaleX scaleY

/-- Under plus-times. -/
theorem lineElem_sum_follows (defined : ∀ e < mCount x, ¬ termUndef md.daz 0 x y e) {v : Prop}
    (inv : (lineElem f md 0 c x y).exc.getLsbD 0 = true → v) :
    let r := (lineElem f md 0 c x y).val
    let q := val f c + ((List.range (mCount x)).map (termVal md.daz 0 x y)).sum
    (sumInf f c x y false → sumInf f c x y true → r = f.genNaN 3 ∧ v) ∧
    (sumInf f c x y false → ¬ sumInf f c x y true → r = f.inf) ∧
    (¬ sumInf f c x y false → sumInf f c x y true → r = f.signed true f.inf) ∧
    (¬ sumInf f c x y false → ¬ sumInf f c x y true → (q = 0 → f.isZero r = true) ∧ (q ≠ 0 → roundsTo f md q r)) := by
  obtain ⟨u, terms⟩ := exists_lineTerms (md := md) count nanX nanY defined
  rw [lineElem_sum float float' count num scaleX scaleY nanX nanY fun e he => (terms e he).1] at inv ⊢
  obtain ⟨both, pos, neg, finite⟩ := sumElem_follows (f := f) (md := md) (c := c)
    fun e he => (terms e he).2
  exact ⟨fun p n => ⟨by rw [both p n], inv (by rw [both p n]; exact Exc.inv_bit)⟩, fun p n => by rw [pos p n], fun p n => by rw [neg p n],
    finite⟩

/-- Under the other semirings. -/
theorem lineElem_best_follows (best : sem ≠ 0) (lt : c < 2 * f.signBit) (defined : ∀ e < mCount x, ¬ termUndef md.daz sem x y e) :
    let r := (lineElem f md sem c x y).val
    let wins := decide (sem = 1)
    ((∃ e < mCount x, termInf sem x y e wins) → r = f.signed wins f.inf) ∧ ((∀ e < mCount x, termInf sem x y e (!wins)) → r = c) ∧
    ∀ best < mCount x, (∀ z, ¬ termInf sem x y best z) → termVal md.daz sem x y best ≠ 0 →
      (∀ e < mCount x, termInf sem x y e (!wins) ∨ ((∀ z, ¬ termInf sem x y e z) ∧
        if sem = 1 then termVal md.daz sem x y best ≤ termVal md.daz sem x y e else termVal md.daz sem x y e ≤ termVal md.daz sem x y best)) →
      ∃ y', roundsTo f md (termVal md.daz sem x y best) y' ∧ (yieldsTo f sem c y' → r = y') ∧ (¬ yieldsTo f sem c y' → r = c) := by
  obtain ⟨u, terms⟩ := exists_lineTerms (md := md) count nanX nanY defined
  have ne_nan : ∀ t ∈ (List.range (mCount x)).map u, t ≠ .nan := by
    intro t ht
    obtain ⟨e, he, rfl⟩ := List.mem_map.1 ht
    exact termIs_ne_nan (terms e (List.mem_range.1 he)).2
  have nonempty : (List.range (mCount x)).map u ≠ [] := by simp [(mCount_pos float).ne']
  obtain ⟨m, mem, isBest, most⟩ := MEl.best_spec (decide (sem ≠ 1)) nonempty ne_nan
  have num_m := ne_nan m mem
  have flip : decide (sem ≠ 1) = !decide (sem = 1) := decide_not
  have atLeast {e : Nat} (he : e < mCount x) : m.atLeast (!decide (sem = 1)) (u e) :=
    flip ▸ most _ (List.mem_map_of_mem (List.mem_range.2 he))
  obtain ⟨e₀, he₀, rfl⟩ := List.mem_map.1 mem
  have he₀ := List.mem_range.1 he₀
  rw [lineElem_best float float' count num scaleX scaleY nanX nanY best (fun e he => (terms e he).1) isBest]
  refine ⟨?wins, ?loses, ?finite⟩
  case wins =>
    rintro ⟨e, he, inf⟩
    have winner := (termIs_inf_iff (terms e he).2 _).2 inf
    rw [MEl.eq_inf_of_atLeast num_m (winner ▸ atLeast he)]
    exact bestElem_wins num lt
  case loses =>
    intro inf
    rw [(termIs_inf_iff (terms e₀ he₀).2 _).2 (inf e₀ he₀), ← flip]
    exact bestElem_loses num
  case finite =>
    intro e he fin nonzero beats
    obtain ⟨w, n, eq, value⟩ := termIs_fin (terms e he).2 fin
    have limits : u e₀ = .inf (!decide (sem = 1)) ∨ ∃ w' k, u e₀ = .fin w' k ∧
        if (!decide (sem = 1)) = true then w'.rat ≤ w.rat else w.rat ≤ w'.rat := by
      rcases beats e₀ he₀ with inf | ⟨fin₀, le⟩
      · exact .inl ((termIs_inf_iff (terms e₀ he₀).2 _).2 inf)
      · obtain ⟨w', k, eq', value'⟩ := termIs_fin (terms e₀ he₀).2 fin₀
        rw [← value, ← value'] at le
        refine .inr ⟨w', k, eq', ?_⟩
        by_cases least : sem = 1 <;> simpa [least] using le
    obtain ⟨w', k, eq', same⟩ := MEl.fin_of_atLeast (eq ▸ atLeast he) limits
    rw [eq']
    exact ⟨_, (roundDy_roundsTo f md k (same.trans value)).2 nonzero, bestElem_val (.fin w' k)⟩

end

/-- A K-step's effect on a float element is that of the tables (R280, R281, R284). -/
theorem lineElem_floatStep {f : Fmt} {md : FMode} {sem c : Nat} {x y : MLine} (float : x.float) (float' : y.float)
    (count : mCount x = mCount y) (lt : c < 2 * f.signBit) {v : Prop}
    (inv : (lineElem f md sem c x y).exc.getLsbD 0 = true → v) :
    floatStep f md sem c x y (lineElem f md sem c x y).val v := by
  unfold floatStep
  extract_lets n times undef isInf term rounds
  refine ⟨fun nan => ?old, fun num => ⟨fun scale => ?scale, fun scaleX scaleY => ⟨fun nan => ?line, fun nanX nanY =>
    ⟨fun bad => ?undef, fun defined => ⟨fun sum => ?sum, fun best => ?best⟩⟩⟩⟩⟩
  case old =>
    rw [lineElem_of_nan nan] at inv ⊢
    exact ⟨rfl, fun snan => inv (by rw [snan]; exact Exc.inv_bit)⟩
  case scale =>
    rw [lineElem_of_nanScale num scale] at inv ⊢
    exact ⟨rfl, inv Exc.inv_bit⟩
  case line =>
    rw [lineElem_of_nanLine float float' num scaleX scaleY nan] at inv ⊢
    exact ⟨rfl, inv Exc.inv_bit⟩
  case undef =>
    rw [lineElem_undef float float' count num scaleX scaleY nanX nanY bad] at inv ⊢
    exact ⟨rfl, inv Exc.inv_bit⟩
  case sum =>
    subst sum
    exact lineElem_sum_follows float float' count num scaleX scaleY nanX nanY defined inv
  case best => exact lineElem_best_follows float float' count num scaleX scaleY nanX nanY best lt defined

theorem Fmt.genNaN_lt {f : Fmt} (hf : f = f32 ∨ f = f64) {n : Nat} (small : n ≤ 4) : f.genNaN n < 2 * f.signBit := by
  rcases hf with rfl | rfl <;> simp only [Fmt.genNaN, Fmt.inf, Fmt.quiet, Fmt.signBit, f32, f64] <;> omega

theorem Fmt.quieted_lt {f : Fmt} (hf : f = f32 ∨ f = f64) {c : Nat} (lt : c < 2 * f.signBit) : f.quieted c < 2 * f.signBit := by
  unfold Fmt.quieted
  split
  · next snan =>
    have payload : c % (2 * f.quiet) < f.quiet := by
      rw [Fmt.isSNaN, Bool.and_eq_true, decide_eq_true_iff] at snan
      exact snan.2
    rcases hf with rfl | rfl <;> simp only [Fmt.quiet, Fmt.signBit, f32, f64] at payload lt ⊢ <;> omega
  · exact lt

theorem MEl.round_lt {f : Fmt} (hf : f = f32 ∨ f = f64) (md : FMode) (m : MEl) : (m.round f md).val < 2 * f.signBit := by
  cases m with
  | nan => exact Fmt.genNaN_lt hf (by decide)
  | inf n => exact Fmt.signed_lt f.inf_lt_signBit n
  | fin v n => exact f.roundDy_lt md v n

/-- The element after a K-step is an encoding of its format. -/
theorem kElem_lt {f : Fmt} (hf : f = f32 ∨ f = f64) (md : FMode) (sem : Nat) {c : Nat} (lt : c < 2 * f.signBit) (sa sb : Nat)
    (as bs : List MEl) : (kElem f md sem c sa sb as bs).val < 2 * f.signBit := by
  have nan {n : Nat} (small : n ≤ 4) : f.genNaN n < 2 * f.signBit := Fmt.genNaN_lt hf small
  unfold kElem
  split
  · exact Fmt.quieted_lt hf lt
  split
  · exact nan (by decide)
  split
  · exact nan (by decide)
  extract_lets cv isMax ts
  split
  · split
    · exact nan (by decide)
    next products _ =>
    extract_lets all pos neg
    split
    · exact nan (by decide)
    split
    · exact Fmt.signed_lt f.inf_lt_signBit _
    · exact f.roundDy_lt _ _ _
  · split
    · exact nan (by split <;> decide)
    split
    · exact lt
    next m _ =>
    exact (ite_eq_or_eq _ (m.round f md).val c).elim (fun h => h.trans_lt (m.round_lt hf md)) fun h => h.trans_lt lt

/-! ### Elements of the accumulator before and after (R274) -/

theorem elemF_eq_accElem (s : State) (l : Loop) (j i : Nat) : elemF s l j i = accElem l.cfg s.sh.regs l.d j i := by
  unfold elemF accElem elemC
  split
  · rw [BitVec.toNat_append, ← Nat.shiftLeft_add_eq_or_of_lt (BitVec.isLt _), Nat.shiftLeft_eq]
    omega
  · rfl

theorem elemC_eq_accElem {l : Loop} (single : cfgAcc l.cfg ≠ 1) (s : State) (j i : Nat) :
    elemC s l j i = accElem l.cfg s.sh.regs l.d j i := (if_neg single).symm

/-- The format of a float accumulator. -/
def accFmt (cfg : DWord) : Fmt := if cfgAcc cfg = 1 then f64 else f32

theorem accFmt_cases (cfg : DWord) : accFmt cfg = f32 ∨ accFmt cfg = f64 := by
  unfold accFmt
  split
  · exact .inr rfl
  · exact .inl rfl

/-- Its encodings fill the registers of an element. -/
theorem accFmt_range (cfg : DWord) : 2 * (accFmt cfg).signBit = 2 ^ (if cfgAcc cfg = 1 then 64 else 32) := by
  unfold accFmt
  split <;> rfl

theorem accElem_lt (cfg : DWord) (r : Regs) (d j i : Nat) : accElem cfg r d j i < 2 * (accFmt cfg).signBit := by
  rw [accFmt_range]
  unfold accElem
  split <;> exact BitVec.isLt _

/-- DAZ reads a subnormal starting accumulator as a zero (R280). -/
theorem accRead_float {cfg : DWord} (float : cfgAcc cfg = 0 ∨ cfgAcc cfg = 1) (md : FMode) (k c : Nat) :
    accRead cfg md k c = if md.daz = true ∧ k = 0 ∧ (accFmt cfg).isSub c = true then (accFmt cfg).signed ((accFmt cfg).neg c) 0 else c := by
  rcases float with acc | acc <;> by_cases first : k = 0 <;> simp [accRead, accFmt, acc, first, Fmt.inp]

theorem accRead_lt {cfg : DWord} (float : cfgAcc cfg = 0 ∨ cfgAcc cfg = 1) (md : FMode) (k : Nat) {c : Nat}
    (lt : c < 2 * (accFmt cfg).signBit) : accRead cfg md k c < 2 * (accFmt cfg).signBit := by
  rw [accRead_float float]
  split
  · exact Fmt.signed_lt (Fmt.signBit_pos _) _
  · exact lt

theorem excOf_of_resultAt {es : List (List FRes)} {j i k : Nat} (h : (resultAt es j i).exc.getLsbD k = true) :
    (excOf es).getLsbD k = true := by
  rw [excOf_bit]
  unfold resultAt at h
  by_cases hj : j < es.length
  · rw [List.getD_eq_getElem _ _ hj] at h
    by_cases hi : i < es[j].length
    · rw [List.getD_eq_getElem _ _ hi] at h
      exact List.any_eq_true.2 ⟨_, List.getElem_mem hj, List.any_eq_true.2 ⟨_, List.getElem_mem hi, h⟩⟩
    · rw [List.getD_eq_default _ _ (not_lt.1 hi)] at h
      exact absurd h (by simp)
  · rw [List.getD_eq_default _ _ (not_lt.1 hj)] at h
    exact absurd h (by simp)

section
variable {s : State} {k : Nat} {l : Loop} {a b : List MLine} (ready : kReady s k l a b)
include ready

theorem accElem_afterStep {j i : Nat} (hj : j < 16) (hi : i < 64) : accElem l.cfg (s.afterStep k l a b).sh.regs l.d j i =
    (resultAt (s.stepResults l a b) j i).val % 2 ^ (if cfgAcc l.cfg = 1 then 64 else 32) :=
  accElem_putAcc (kReady_fits ready) _ _ hj hi

/-- A loop that no latch serves runs its step as it stands. -/
theorem exec_matrixKstep_plain (plain : cfgAcc l.cfg ≠ 2) : exec (.matrixKstep s.sh.uid k) s = .next (s.afterStep k l a b) :=
  exec_matrixKstep ready ((stepCheck_latch plain _ _ _ _).trans (kReady_pass ready))

/-- Boolean elements (R284). -/
theorem afterStep_bool (bool : cfgAcc l.cfg = 3) {j i : Nat} (hj : j < 16) (hi : i < 64) :
    elemC (s.afterStep k l a b) l j i = kBool (elemC s l j i) (stepRow a (accRow j i)).bytes (stepRow b (accCol i)).bytes := by
  obtain ⟨lengthA, lengthB⟩ := kReady_length ready
  have single : cfgAcc l.cfg ≠ 1 := by omega
  have read (x : Nat) : accRead l.cfg (FMode.of (l.mode.setWidth 64)) l.nextK x = x := by simp [accRead, bool]
  have bits := (kBool_follows_rule (bool ▸ kReady_pair ready hj hi) (elemC s l j i)).1
  rw [elemC_eq_accElem single, accElem_afterStep ready hj hi, State.stepResults, resultAt_stepElems_bool lengthA lengthB _ hj hi bool,
    if_neg single, read, ← elemC_eq_accElem single]
  dsimp only
  rcases bits with h | h <;> rw [h] <;> rfl

/-- Residue elements (R282). -/
theorem afterStep_ra (ra : cfgAcc l.cfg = 2) {j i : Nat} (hj : j < 16) (hi : i < 64) : elemC (s.afterStep k l a b) l j i =
    (BitVec.ofNat 32 (kResidue 2 (elemC s l j i) (stepRow a (accRow j i)).ints (stepRow b (accCol i)).ints)).toNat := by
  obtain ⟨lengthA, lengthB⟩ := kReady_length ready
  have single : cfgAcc l.cfg ≠ 1 := by omega
  have read (x : Nat) : accRead l.cfg (FMode.of (l.mode.setWidth 64)) l.nextK x = x := by simp [accRead, ra]
  rw [elemC_eq_accElem single, accElem_afterStep ready hj hi, State.stepResults, resultAt_stepElems_ra lengthA lengthB _ hj hi ra,
    if_neg single, read, ← elemC_eq_accElem single, BitVec.toNat_ofNat]

/-- Float elements (R280, R281, R284). -/
theorem afterStep_float (float : cfgAcc l.cfg = 0 ∨ cfgAcc l.cfg = 1) {j i : Nat} (hj : j < 16) (hi : i < 64) :
    let md := FMode.of (l.mode.setWidth 64)
    floatStep (accFmt l.cfg) md (cfgSemi l.cfg) (accRead l.cfg md l.nextK (elemF s l j i)) (stepRow a (accRow j i)) (stepRow b (accCol i))
      (elemF (s.afterStep k l a b) l j i) ((l.stepped (s.stepResults l a b)).exc.getLsbD 0 = true) := by
  intro md
  obtain ⟨lengthA, lengthB⟩ := kReady_length ready
  obtain ⟨classA, classB, count, -, -⟩ := kReady_pair ready hj hi
  have floatA := float_of_inClass float classA
  have floatB := float_of_inClass float classB
  rw [kbOf_eq_mCount floatA, kbOf_eq_mCount floatB] at count
  have old := accRead_lt float md l.nextK (accElem_lt l.cfg s.sh.regs l.d j i)
  have result := resultAt_stepElems_float (cfg := l.cfg) (md := md) lengthA lengthB
    (fun j i => accRead l.cfg md l.nextK (accElem l.cfg s.sh.regs l.d j i)) hj hi float
  have raised : (resultAt (s.stepResults l a b) j i).exc.getLsbD 0 = true → (l.stepped (s.stepResults l a b)).exc.getLsbD 0 = true := by
    intro inv
    rw [Loop.stepped, BitVec.getLsbD_or, excOf_of_resultAt inv, Bool.or_true]
  rw [elemF_eq_accElem, elemF_eq_accElem, accElem_afterStep ready hj hi]
  rw [State.stepResults, result] at raised ⊢
  rw [Nat.mod_eq_of_lt]
  · exact lineElem_floatStep floatA floatB count old raised
  · rw [← accFmt_range]
    exact kElem_lt (accFmt_cases l.cfg) md _ old _ _ _ _

end

/-- Settles O50: the step leaves what its three kinds of elements compute, and each follows its table. -/
theorem kStepsApplyTheirSemiring : Obligations.KStepsApplyTheirSemiring := by
  unfold Obligations.KStepsApplyTheirSemiring
  intro s k l a b ready row col md
  refine ⟨fun bool => ⟨_, exec_matrixKstep_plain ready (by omega), fun j hj i hi => ?bool⟩, fun ra served same => ?ra, fun float => ?float⟩
  case bool =>
    rw [afterStep_bool ready bool hj hi]
    exact kBool_follows_rule (bool ▸ kReady_pair ready hj hi) _
  case ra =>
    obtain ⟨serves, rows, cols⟩ := State.stepLatch_serves ra served fun m h => same m h.1 h.2
    obtain ⟨m, picked, -⟩ := s.sh.pickLatch_spec l.d
    have latch : (s.afterStep k l a b).sh.latches[m] = s.stepLatch l a b := by simp [State.afterStep, ra, picked]
    refine ⟨_, exec_matrixKstep ready (rows ▸ cols ▸ kReady_pass ready), ⟨m, ?_⟩, fun j hj i hi => ?_⟩
    · rw [latch]
      exact ⟨serves.1, serves.2, rows, cols⟩
    · rw [afterStep_ra ready ra hj hi]
      exact kResidue_follows_rule (ra ▸ kReady_pair ready hj hi) _
  case float =>
    refine ⟨_, _, exec_matrixKstep_plain ready (by omega), List.getElem?_set_self ?_, fun j hj i hi => ?_⟩
    · obtain ⟨loop, -⟩ := ready
      exact (List.getElem?_eq_some_iff.1 loop).1
    · intro f c c0
      have read : accRead l.cfg md l.nextK c = c0 := accRead_float float md l.nextK c
      rw [← read]
      exact afterStep_float ready float hj hi

end Sys2Proof.Machine
end
